-- ==== Sys2Proof/Word.lean ====
section
/-! DEFINITION. The machine word: 27 balanced trits (R7, R16), and its plainest arithmetic. -/

namespace Sys2Proof

/-- A word of 27 trits.
`n` is the number the word spells in unbalanced digits, each trit plus one (R65); the word's balanced value is `Word.val`.
Two words are equal exactly when they agree trit for trit (R16). -/
structure Word where
  n : Fin 7625597484987
deriving DecidableEq, Repr

/-- (3^27 − 1)/2, the largest value of a word (R20). -/
def Word.half : Nat := 3812798742493

/-- The balanced value of a word (R16). -/
def Word.val (w : Word) : Int := (w.n.val : Int) - 3812798742493

/-- The word whose value is congruent to `x` modulo 3^27 (the wrap of R21). -/
def Word.ofInt (x : Int) : Word :=
  ⟨Fin.ofNat 7625597484987 ((x + 3812798742493) % 7625597484987).toNat⟩

/-- The word of all zero trits. -/
def Word.zero : Word := ⟨⟨3812798742493, by decide⟩⟩

/-- The virtual number n = v + (3^27 − 1)/2 of a word (R65). -/
def Word.num (w : Word) : Nat := w.n.val

/-- The word whose virtual number is `n` modulo 3^27 (R65). -/
def Word.ofNum (n : Nat) : Word := ⟨Fin.ofNat 7625597484987 n⟩

/-- A word is an aligned address exactly when its number is a multiple of 3 (R67). -/
def Word.aligned (w : Word) : Bool := w.n.val % 3 == 0

/-- A word is a line address exactly when its number is a multiple of 81 (R67). -/
def Word.lineAligned (w : Word) : Bool := w.n.val % 81 == 0

/-- One balanced trit: the value of a predicate (R138, R141). -/
inductive Trit where
  | m | z | p
deriving DecidableEq, Repr

/-- The value −1, 0 or +1 of a trit (R7). -/
def Trit.val : Trit → Int
  | .m => -1
  | .z => 0
  | .p => 1

/-- The trit of a sign (R7). -/
def Trit.ofInt (x : Int) : Trit := if x < 0 then .m else if x = 0 then .z else .p

/-- Adds trytes to an address, modulo 3^27 (R65). -/
def Word.add (w : Word) (k : Int) : Word := Word.ofInt (w.val + k)

end Sys2Proof
end

