-- ==== Sys2Proof/Machine/Trits.lean ====
section
/-! DEFINITION. Balanced trit strings as integers: fields, wrapping, saturation, truncation, tritwise operations (R16–R22). -/

namespace Sys2Proof

/-- The largest value of an n-trit string, (3^n − 1)/2 (R16). -/
def maxv (n : Nat) : Int := ((3 ^ n - 1) / 2 : Nat)

/-- The value of n trits congruent to `x` modulo 3^n (R21). -/
def wrap (n : Nat) (x : Int) : Int := (x + maxv n) % ((3 ^ n : Nat) : Int) - maxv n

/-- `x` clamped to the range of n trits (R22). -/
def sat (n : Nat) (x : Int) : Int := max (-(maxv n)) (min (maxv n) x)

/-- Narrowing of an exact integer result: saturate or wrap (R21, R22). -/
def narrow (n : Nat) (s : Bool) (x : Int) : Int := if s then sat n x else wrap n x

/-- Drops the k lowest trits: the nearest multiple of 3^k, divided by 3^k (R18). -/
def dropTrits (k : Nat) (x : Int) : Int := (x + maxv k) / ((3 ^ k : Nat) : Int)

/-- Trit [i] of `x` (R8). -/
def trit (x : Int) (i : Nat) : Int := wrap 1 (dropTrits i x)

/-- Field [hi:lo] of `x` as a balanced value (R8). -/
def field (x : Int) (hi lo : Nat) : Int := wrap (hi + 1 - lo) (dropTrits lo x)

/-- `x` with its field [hi:lo] replaced by the low trits of `v`. -/
def setField (x : Int) (hi lo : Nat) (v : Int) : Int :=
  x + (wrap (hi + 1 - lo) v - field x hi lo) * ((3 ^ lo : Nat) : Int)

/-- Trits [0] … [n−1] of `x`, least significant first. -/
def trits (n : Nat) (x : Int) : List Int := (List.range n).map (trit x)

/-- The value of a trit list, least significant first (R16). -/
def ofTrits (l : List Int) : Int := l.foldr (fun t acc => t + 3 * acc) 0

/-- Raises the guess `k` until 3^k exceeds `a`, at most `fuel` times. -/
def tlenFrom (a k : Nat) : Nat → Nat
  | 0 => k
  | fuel + 1 => if 3 ^ k ≤ a then tlenFrom a (k + 1) fuel else k

/-- The number of trits up to and including the most significant non-zero one; 0 for 0.
It is the least k with 2|x| < 3^k; the guess from the binary length is low by at most a few. -/
def tlen (x : Int) : Nat :=
  let a := 2 * x.natAbs
  if a = 0 then 0 else tlenFrom a (Nat.log2 a * 630 / 1000) (Nat.log2 a / 500 + 4)

/-- Sub-element i (0 … 2) of a word (R20). -/
def sub9 (x : Int) (i : Nat) : Int := field x (9 * i + 8) (9 * i)

/-- The word value of three sub-elements. -/
def ofSubs (a b c : Int) : Int := wrap 9 a + wrap 9 b * 19683 + wrap 9 c * 387420489

/-- Applies `f` to each of the n trits of `x` (R219). -/
def mapTrits (n : Nat) (f : Int → Int) (x : Int) : Int := ofTrits ((trits n x).map f)

/-- Applies `f` trit by trit (R219). -/
def zipTrits (n : Nat) (f : Int → Int → Int) (x y : Int) : Int :=
  ofTrits (List.zipWith f (trits n x) (trits n y))

/-- The tritwise sum modulo 3 (R219). -/
def tsum (n : Nat) (x y : Int) : Int := zipTrits n (fun a b => wrap 1 (a + b)) x y

/-- Rotates n trits towards the most significant end by k (R218). -/
def rotTrits (n : Nat) (k : Nat) (x : Int) : Int :=
  let k := k % n
  wrap n (wrap (n - k) x * ((3 ^ k : Nat) : Int)) + dropTrits (n - k) x

/-- Multiplies by 3^k; for k < 0 drops trits by R18 (R19). -/
def shift3 (x : Int) (k : Int) : Int :=
  if 0 ≤ k then x * ((3 ^ k.toNat : Nat) : Int) else dropTrits (-k).toNat x

/-- The sign of an integer: −1, 0 or +1. -/
def sgn (x : Int) : Int := if x < 0 then -1 else if x = 0 then 0 else 1

/-- A count or index in a field that stores it minus `off` (R143, R285). -/
def offset (x off : Int) : Nat := (x + off).toNat

/-- Rounds the quotient a / b to the nearest integer; a tie goes to the neighbour whose trit [0] is 0,
else to the one of smaller magnitude (R36, R217). `b` is not 0. -/
def divNearest (a b : Int) : Int :=
  let a := if b < 0 then -a else a
  let b := b.natAbs
  let lo := a / (b : Int)                -- floor
  let r := 2 * (a - lo * b)              -- twice the remainder, 0 ≤ r < 2b
  if r < b then lo else if r > b then lo + 1
  else if lo % 3 = 0 then lo else if (lo + 1) % 3 = 0 then lo + 1
  else if lo.natAbs < (lo + 1).natAbs then lo else lo + 1

end Sys2Proof
end

