-- ==== Sys2Proof/Syntax.lean ====
section
/-! DEFINITION. The abstract syntax: one constructor of `Instr` per row of spec/opcode_table.json.
The instruction rows carry their operand record `Opnd`; the event rows carry the data of their step. -/

namespace Sys2Proof

/-- The guard conditions of R160. -/
inductive GCond where
  | always | isPos | notPos | isZero | notZero | isNeg | notNeg
deriving DecidableEq, Repr

/-- The element types of R162. -/
inductive ETy where
  | t27 | t9 | t1 | tf27 | tf9 | st27 | stf27
deriving DecidableEq, Repr

/-- A routing modifier (R148): the mode with its parameters; `own` is the fill by the lane's own value. -/
inductive Route where
  | none
  | rot (amt : Nat) (own : Bool)
  | rotb (amt : Nat) (own : Bool)
  | bcast (b : Nat)
  | rev (own : Bool)
  | bfly (d : Nat) (up own : Bool)
  | grot (s : Nat) (own : Bool) (a : Int)
  | tri (x y z : Nat)
  | idx (own : Bool)
deriving DecidableEq, Repr

/-- The operands of an instruction, as its words give them (R158, R161).
`d`, `a`, `b` and `c` are the balanced values of their fields (R159): a v or k register is the value plus 121,
a predicate or a group register the value plus 4, and `c` may be an immediate.
A one-word form holds the implied second word of R162, and `w3` is the zero word but in a three-word form. -/
structure Opnd where
  len : Nat
  gc : GCond
  gp : Nat
  f : Int
  d : Int
  a : Int
  b : Int
  x : Int
  sat : Bool
  gr : Nat
  la : Nat
  xc : Nat
  xr : Nat
  et : ETy
  mb : Route
  ma : Route
  c : Int
  w3 : Word
deriving DecidableEq, Repr

/-- A thread: its team's number in the machine, its squad in the team and its lane. -/
structure TRef where
  team : Nat
  squad : Nat
  lane : Nat
deriving DecidableEq, Repr

/-- A line of 27 words (R49), with its poison mark (R394). -/
structure Line where
  w : List Word
  poison : Bool
deriving DecidableEq, Repr

/-- What a write at the home does to the line (R98, R99). -/
inductive HwOp where
  /-- merges the named words -/
  | words (l : List (Nat × Word))
  /-- merges the named trytes of the line (R128) -/
  | trytes (l : List (Nat × Int))
  /-- merges the named bytes of a B-line (R60) -/
  | bytes (l : List (Nat × BitVec 8))
  /-- RED: applies operation `op` of R321 to word `w`, one operand after another -/
  | red (w : Nat) (op : Int) (et : ETy) (sat : Bool) (vals : List Word)
  /-- the sweep's re-encoding, which changes no trit (R110) -/
  | same
deriving DecidableEq, Repr

/-- A write of bytes (R104). -/
def HwOp.isBytes : HwOp → Bool
  | .bytes _ => true
  | _ => false

/-- Who made a write request, and so who is answered. -/
inductive HwSrc where
  | sts (t : TRef) (reg : Option Nat)
  | red (ts : List TRef)
  | pub (team pub vline : Nat)
  | host (who : Nat)
  | peer (rank : Nat) (tag : Int) (idx : Nat)
  | merge (grid : Nat)
  | log
deriving DecidableEq, Repr

/-- A write or read-modify-write to be performed at a home (HW). -/
structure HwReq where
  slot : Nat
  op : HwOp
  src : HwSrc
  /-- the mark of R75 where the writer gives one -/
  elig : Option Bool
  /-- the virtual address that a thread's write names -/
  va : Word := .zero
  /-- the space and virtual line of a page of HOME = +, whose line is pinned when it is filled (R74, R93) -/
  pin : Option (Nat × Nat) := none
  /-- the frame format that the request goes by: B (true), T (false), or either (R78, R104) -/
  fmt : Option Bool := some false
deriving DecidableEq, Repr

/-- Who made a read request that leaves no copy (HR). -/
inductive HrSrc where
  | prefetch
  /-- a host's read of bytes lo … lo + len − 1 of the line in the binary window, or of its image in the image window -/
  | host (who : Nat) (image : Bool) (lo len : Nat)
deriving DecidableEq, Repr

/-- A read at a home that leaves no copy. -/
structure HrReq where
  slot : Nat
  src : HrSrc
  /-- as in a write -/
  pin : Option (Nat × Nat) := none
  fmt : Option Bool := some false
deriving DecidableEq, Repr

/-- Why the shell refuses a posted write of a team (R78, R85): the cause and the detail of the trap, and its address. -/
structure Refused where
  cause : Nat
  detail : Int
  va : Word
deriving DecidableEq, Repr

/-- The answer to a synchronising write (R319): the line's new serial, or why the write was refused. -/
structure WriteReply where
  serial : Word
  no : Option Refused := none
deriving DecidableEq, Repr

/-- The answer to a line of a publication (R306): its virtual line number, and why the write was refused. -/
structure LineReply where
  vline : Nat
  no : Option Refused := none
deriving DecidableEq, Repr

/-- What an agent asks of the home of a slot (R98). -/
structure AgentReq where
  slot : Nat
  /-- as in a write -/
  pin : Option (Nat × Nat) := none
  /-- a host chiplet's byte path (R104) -/
  byte : Bool := false
  /-- what a host chiplet then writes into its copy (R94, R104) -/
  op : HwOp := .same
deriving DecidableEq, Repr

/-- A byte of a window of the device: the base address register and the offset (R58, R61, R378). -/
structure BarAddr where
  bar : Nat
  off : Nat
deriving DecidableEq, Repr

/-- A die's re-sampling interval of 3^n cycles, as firmware has set n (R109). -/
structure Resampling where
  die : Nat
  n : Nat
deriving DecidableEq, Repr

/-- The kinds of access of R73; PREF's read and CLINE.evict's write stand apart, since they change no architected value (R192, R193). -/
inductive Access where
  | fetch | read | write | readWrite | prefetch | evict
deriving DecidableEq, Repr

/-- A translation miss (R80, R81): the core, the address-space record, the context's level, the address and the access. -/
structure WalkReq where
  core : Nat
  asrec : Nat
  part : Nat
  sys : Bool
  va : Word
  acc : Access
  /-- it asks for a B-page (R79) -/
  b : Bool
deriving DecidableEq, Repr

/-- The entries that a publication carries (R307). -/
inductive PubSet where
  | thread (th : Nat)
  | team
  | line (vline : Nat)
deriving DecidableEq, Repr

/-- What waits for a publication to be acknowledged. -/
inductive PubWaiter where
  | thread (t : TRef)
  | bar (i : Nat)
  | cbar
  | gphase
  | teamEnd
deriving DecidableEq, Repr

/-- A fabric flit (R407), its line image already unpacked; beside the fields of R407 it carries what R208 says every exchange
carries (log entry 23). -/
structure Flit where
  /-- 0 line write, 1 pull request, 2 pull data, 3 acknowledgement, 4 time sync -/
  ty : Nat
  src : Nat
  dst : Nat
  tag : Int
  idx : Nat
  /-- a line write's slot at the peer -/
  slot : Nat
  line : Line
  /-- the trytes of the line that a line write gives, by place -/
  mask : List Nat
  /-- which collective of the sequence, and the issuer's rank list, or the pair of a send -/
  kth : Nat
  key : List Int
  /-- the issuer's F, COUNT, TYPE, RED, SAT and ROOT -/
  sig : List Int
  /-- a report: 8 a mismatch, 13 a failure, 0 none -/
  rep : Nat
  /-- of a flit that this device keeps in flight: the team and SEQ of the command that sent it -/
  owner : Option (Nat × Nat) := none
  /-- the port whose link has found the flit's CRC bad (R407) -/
  bad : Option Nat := none
deriving DecidableEq, Repr

/-- The instructions and the steps of the machine, one constructor per row of spec/opcode_table.json, in the table's order
but for the steps that carry no data, which stand last. -/
inductive Instr where
  /-- ADD (R215). Integer add of A and the second operand, element by element, wrapped or saturated. -/
  | add (o : Opnd)
  /-- SUB (R215). Integer subtract of the second operand from A, wrapped or saturated. -/
  | sub (o : Opnd)
  /-- NEG (R215). Integer negation of A by trit inversion. -/
  | neg (o : Opnd)
  /-- ABS (R215). Integer absolute value of A. -/
  | abs (o : Opnd)
  /-- SGN (R215). Sign of A as −1, 0 or +1. -/
  | sgn (o : Opnd)
  /-- MUL (R215). Low part of the integer product, wrapped or saturated. -/
  | mul (o : Opnd)
  /-- MULH (R215). High part of the exact integer product. -/
  | mulh (o : Opnd)
  /-- MAD (R215). Integer multiply-add a × b + m. -/
  | mad (o : Opnd)
  /-- DIV (R217). Integer quotient rounded to nearest, 0 for a zero divisor. -/
  | div (o : Opnd)
  /-- MOD (R217). Remainder a − b × q of the rounded quotient. -/
  | mod (o : Opnd)
  /-- MIN (R215). Lesser of two integer elements. -/
  | min (o : Opnd)
  /-- MAX (R215). Greater of two integer elements. -/
  | max (o : Opnd)
  /-- CLAMP (R215). Integer clamp of A between B and C. -/
  | clamp (o : Opnd)
  /-- SHL (R218). Trit shift towards the most significant end by the second operand. -/
  | shl (o : Opnd)
  /-- SHR (R218). Trit shift towards the least significant end, rounding by truncation. -/
  | shr (o : Opnd)
  /-- ROT (R218). Trit rotation of each element. -/
  | rot (o : Opnd)
  /-- TMIN (R219). Tritwise minimum. -/
  | tmin (o : Opnd)
  /-- TMAX (R219). Tritwise maximum. -/
  | tmax (o : Opnd)
  /-- TSUM (R219). Tritwise sum modulo 3. -/
  | tsum (o : Opnd)
  /-- TCON (R219). Tritwise consensus of A and B. -/
  | tcon (o : Opnd)
  /-- TMAP (R220). Applies the unary trit function given by C to each trit. -/
  | tmap (o : Opnd)
  /-- TCNT (R219). Counts the trits of each element equal to the value F selects. -/
  | tcnt (o : Opnd)
  /-- TLZ (R219). Counts leading zero trits of each element. -/
  | tlz (o : Opnd)
  /-- TEXT (R221). Extracts a trit field of width C at position B. -/
  | text (o : Opnd)
  /-- TINS (R221). Inserts the low trits of A into the destination at position B. -/
  | tins (o : Opnd)
  /-- CMP (R222). Writes the sign of the exact difference into a predicate. -/
  | cmp (o : Opnd)
  /-- SEL (R223). Selects A, B or C by a predicate. -/
  | sel (o : Opnd)
  /-- MOV (R224). Copies a register word unchanged. -/
  | mov (o : Opnd)
  /-- MOV.BC (R224). Broadcasts a k register into a v register of every lane. -/
  | movBc (o : Opnd)
  /-- MOV.K (R224). Copies the lowest lane's v register into a k register. -/
  | movK (o : Opnd)
  /-- MOVI (R225). Writes an immediate to the destination. -/
  | movi (o : Opnd)
  /-- PACK (R226). Packs three word values into sub-elements. -/
  | pack (o : Opnd)
  /-- UNPACK (R226). Widens one sub-element to a word value. -/
  | unpack (o : Opnd)
  /-- IDX (R228). Delivers a thread descriptor chosen by F. -/
  | idx (o : Opnd)
  /-- LGET (R230). Reads a register of a chosen lane into a k register. -/
  | lget (o : Opnd)
  /-- LPUT (R230). Writes a k register into a register of a chosen lane. -/
  | lput (o : Opnd)
  /-- TRX (R232). Transposes trits across the group. -/
  | trx (o : Opnd)
  /-- VOTE (R233). Combines predicates across the group. -/
  | vote (o : Opnd)
  /-- GRED (R234). Group reduction by sum, max or min. -/
  | gred (o : Opnd)
  /-- GSCAN (R234). Group inclusive or exclusive scan. -/
  | gscan (o : Opnd)
  /-- HIST (R235). Group histogram of A values, or weighted sums. -/
  | hist (o : Opnd)
  /-- BSUM (R227). Sums the elements of one word. -/
  | bsum (o : Opnd)
  /-- FADD (R252). Float add rounded once. -/
  | fadd (o : Opnd)
  /-- FSUB (R252). Float subtract rounded once. -/
  | fsub (o : Opnd)
  /-- FMUL (R252). Float multiply rounded once. -/
  | fmul (o : Opnd)
  /-- FFMA (R252). Fused multiply-add rounded once. -/
  | ffma (o : Opnd)
  /-- FADD3 (R252). Sum of three floats rounded once. -/
  | fadd3 (o : Opnd)
  /-- FDOT3 (R253). Three-term dot product rounded once to tf27. -/
  | fdot3 (o : Opnd)
  /-- FMIN (R254). Float minimum. -/
  | fmin (o : Opnd)
  /-- FMAX (R254). Float maximum. -/
  | fmax (o : Opnd)
  /-- FABS (R254). Float absolute value. -/
  | fabs (o : Opnd)
  /-- FCMP (R255). Float comparison into a predicate with a NaN placement. -/
  | fcmp (o : Opnd)
  /-- FCLASS (R256). Delivers the class code of each float element. -/
  | fclass (o : Opnd)
  /-- FSCL (R257). Scales a float by a power of three. -/
  | fscl (o : Opnd)
  /-- FXP (R257). Extracts the exponent or the significand of a float. -/
  | fxp (o : Opnd)
  /-- FRND (R257). Rounds a float to an integer value. -/
  | frnd (o : Opnd)
  /-- RCP (R258). Correctly rounded reciprocal on the special-function unit. -/
  | rcp (o : Opnd)
  /-- RSQ (R258). Correctly rounded reciprocal square root. -/
  | rsq (o : Opnd)
  /-- SQRT (R258). Correctly rounded square root. -/
  | sqrt (o : Opnd)
  /-- EXP (R258). Correctly rounded exponential. -/
  | exp (o : Opnd)
  /-- LOG (R258). Correctly rounded natural logarithm. -/
  | log (o : Opnd)
  /-- SIN (R258). Correctly rounded sine. -/
  | sin (o : Opnd)
  /-- COS (R258). Correctly rounded cosine. -/
  | cos (o : Opnd)
  /-- TANH (R258). Correctly rounded hyperbolic tangent. -/
  | tanh (o : Opnd)
  /-- SIGM (R258). Correctly rounded logistic sigmoid. -/
  | sigm (o : Opnd)
  /-- CVT (R267). Converts between ternary element types. -/
  | cvt (o : Opnd)
  /-- CVTB (R266). Converts ternary values or foreign patterns to a foreign pattern. -/
  | cvtb (o : Opnd)
  /-- CVTF (R266). Converts foreign patterns to a ternary type. -/
  | cvtf (o : Opnd)
  /-- QUANT (R269). Team-wide quantisation with the scale record's shift and an indivisible record update. -/
  | quant (o : Opnd)
  /-- DQUANT (R271). Returns quantised elements to floats with a shift. -/
  | dquant (o : Opnd)
  /-- DRAW (R272). Delivers a counter-based random word. -/
  | draw (o : Opnd)
  /-- LD (R189). Loads a word or tryte from global memory or a cabinet. -/
  | ld (o : Opnd)
  /-- ST (R190). Stores a word into escrow or at a cabinet drawer. -/
  | st (o : Opnd)
  /-- LDX (R191). Loads one line per block element across a squad. -/
  | ldx (o : Opnd)
  /-- STX (R191). Stores one line per block element across a squad. -/
  | stx (o : Opnd)
  /-- PREF (R192). Prefetches a line into the L1 by RdS. -/
  | pref (o : Opnd)
  /-- PREF.home (R192). Fills a line into its home slice by HR. -/
  | prefHome (o : Opnd)
  /-- CLINE.zero (R193). Writes zero to every word of a line as ordinary stores. -/
  | clineZero (o : Opnd)
  /-- CLINE.evict (R193). Writes back or evicts the core's L1 copy of a line. -/
  | clineEvict (o : Opnd)
  /-- COPY.IN (R196). Issues a global-to-cabinet copy command. -/
  | copyIn (o : Opnd)
  /-- COPY.OUT (R196). Issues a cabinet-to-global copy command into escrow. -/
  | copyOut (o : Opnd)
  /-- COPY.BIN (R196). Issues a converting copy between a B-page and the cabinet. -/
  | copyBin (o : Opnd)
  /-- COPY.PEER (R197). Issues a copy from the cabinet to a peer device's memory. -/
  | copyPeer (o : Opnd)
  /-- COPY.CAB (R196). Issues a cabinet-to-cabinet copy command. -/
  | copyCab (o : Opnd)
  /-- XF.NEG (R199). Range teller command negating a cabinet range. -/
  | xfNeg (o : Opnd)
  /-- XF.SHIFT (R199). Range teller command shifting a cabinet range. -/
  | xfShift (o : Opnd)
  /-- XF.ZERO (R199). Range teller command zeroing a cabinet range. -/
  | xfZero (o : Opnd)
  /-- XF.FILL (R199). Range teller command filling a cabinet range. -/
  | xfFill (o : Opnd)
  /-- XF.CLAMP (R199). Range teller command clamping a cabinet range. -/
  | xfClamp (o : Opnd)
  /-- XF.CVT (R199). Range teller command converting a cabinet range. -/
  | xfCvt (o : Opnd)
  /-- XF.RQ (R199). Range teller command requantising a cabinet range. -/
  | xfRq (o : Opnd)
  /-- XF.ACC (R200). Lane teller command accumulating into a cabinet word. -/
  | xfAcc (o : Opnd)
  /-- XF.ADD (R200). Lane teller command adding into a cabinet word, returning the old value. -/
  | xfAdd (o : Opnd)
  /-- XF.MIN (R200). Lane teller minimum on a cabinet word, returning the old value. -/
  | xfMin (o : Opnd)
  /-- XF.MAX (R200). Lane teller maximum on a cabinet word, returning the old value. -/
  | xfMax (o : Opnd)
  /-- XF.XCHG (R200). Lane teller exchange of a cabinet word. -/
  | xfXchg (o : Opnd)
  /-- XF.CAS (R200). Lane teller compare-exchange of a cabinet word. -/
  | xfCas (o : Opnd)
  /-- XF.TSUM (R200). Lane teller tritwise sum on a cabinet word. -/
  | xfTsum (o : Opnd)
  /-- WAIT (R202). Blocks until a ticket completes and delivers its record. -/
  | wait (o : Opnd)
  /-- TKT (R203). Tests a ticket into a predicate without blocking. -/
  | tkt (o : Opnd)
  /-- COLL.AR (R207). Issues an all-reduce collective. -/
  | collAr (o : Opnd)
  /-- COLL.RS (R207). Issues a reduce-scatter collective. -/
  | collRs (o : Opnd)
  /-- COLL.AG (R207). Issues an all-gather collective. -/
  | collAg (o : Opnd)
  /-- COLL.BC (R207). Issues a broadcast collective. -/
  | collBc (o : Opnd)
  /-- COLL.SEND (R207). Issues a point-to-point send. -/
  | collSend (o : Opnd)
  /-- COLL.RECV (R207). Issues a point-to-point receive. -/
  | collRecv (o : Opnd)
  /-- NOP (R246). Does nothing but advance the PC. -/
  | nop (o : Opnd)
  /-- BR (R238). Relative branch under the guard. -/
  | br (o : Opnd)
  /-- BR3 (R238). Three-way branch on a predicate. -/
  | br3 (o : Opnd)
  /-- BRM (R239). Branches on the first of up to three holding conditions. -/
  | brm (o : Opnd)
  /-- JMP (R238). Absolute jump to a register plus offset or to word 3. -/
  | jmp (o : Opnd)
  /-- JMPR (R238). Jump to the address in a register. -/
  | jmpr (o : Opnd)
  /-- CALL (R240). Pushes the return address and branches relative. -/
  | call (o : Opnd)
  /-- CALLR (R240). Pushes the return address and jumps to a register. -/
  | callr (o : Opnd)
  /-- RET (R240). Pops a return address and jumps to it. -/
  | ret (o : Opnd)
  /-- EXIT (R241). Ends the thread. -/
  | exit (o : Opnd)
  /-- PART (R242). Writes a group register by key or statically. -/
  | part (o : Opnd)
  /-- GWAIT (R243). Convergence point of a group with no other effect. -/
  | gwait (o : Opnd)
  /-- REORDER (R245). Team-wide sort of register ranges by key. -/
  | reorder (o : Opnd)
  /-- YIELD (R246). Resets the thread's issue age. -/
  | yield (o : Opnd)
  /-- PAIR (R169). Issues two one-word instructions as one. -/
  | pair (op1 : Int) (o1 : Opnd) (l1 : Int) (op2 : Int) (o2 : Opnd) (l2 : Int)
  /-- FEAT (R247). Delivers a feature word. -/
  | feat (o : Opnd)
  /-- STAMP (R248). Reads the device stamp counter. -/
  | stamp (o : Opnd)
  /-- LDS (R319). Synchronising load at the home or from the lease image. -/
  | lds (o : Opnd)
  /-- STS (R319). Posted synchronising store performed at the home. -/
  | sts (o : Opnd)
  /-- ATOM (R322). Atomic read-modify-write performed by the till at the home. -/
  | atom (o : Opnd)
  /-- RED (R322). Posted reduction at the home, or a per-thread partial under DET. -/
  | red (o : Opnd)
  /-- LEASE (R330). Acquires a line under a lease with a countdown. -/
  | lease (o : Opnd)
  /-- UNLEASE (R333). Commits or discards a lease image and frees the record. -/
  | unlease (o : Opnd)
  /-- PUBLISH (R325). Publishes the thread's escrow entries under FLOW. -/
  | publish (o : Opnd)
  /-- FENCE (R324). Release and/or acquire ordering at a scope. -/
  | fence (o : Opnd)
  /-- WACK (R324). Blocks until the thread's writes and publications are acknowledged. -/
  | wack (o : Opnd)
  /-- BAR (R326). Arrives at a team barrier. -/
  | bar (o : Opnd)
  /-- CBAR (R327). Arrives at the crew barrier. -/
  | cbar (o : Opnd)
  /-- GPHASE (R328). Arrives at the grid phase boundary of a cooperative grid. -/
  | gphase (o : Opnd)
  /-- MX.ISSUE (R289). Issues a matrix multiply-accumulate into a coffer tile. -/
  | mxIssue (o : Opnd)
  /-- MX.ZERO (R291). Zeroes a coffer tile and sets its kind. -/
  | mxZero (o : Opnd)
  /-- MX.LOADC (R292). Loads a coffer tile from the cabinet. -/
  | mxLoadc (o : Opnd)
  /-- MX.SCALE (R293). Multiplies every accumulator of a tile by a factor. -/
  | mxScale (o : Opnd)
  /-- MX.DRAIN (R294). Converts a tile into the cabinet with a shift. -/
  | mxDrain (o : Opnd)
  /-- MX.SPILL (R296). Writes a tile's spill image. -/
  | mxSpill (o : Opnd)
  /-- MX.FILL (R296). Replaces a tile from a checked spill image. -/
  | mxFill (o : Opnd)
  /-- MX.QRY (R297). Delivers, and optionally clears, a tile's state word. -/
  | mxQry (o : Opnd)
  /-- TRAP (R376). Raises a software trap with a code. -/
  | trap (o : Opnd)
  /-- TRET (R377). Ends a trap handler and resumes or exits the trapped lanes. -/
  | tret (o : Opnd)
  /-- TPC.SET (R377). Sets a trapped lane's frame PC. -/
  | tpcSet (o : Opnd)
  /-- TPC.ADV (R377). Advances a trapped lane's frame PC. -/
  | tpcAdv (o : Opnd)
  /-- TPC.EXIT (R377). Marks a trapped lane to exit at TRET. -/
  | tpcExit (o : Opnd)
  /-- CWGET (R378). Reads a control word by selector. -/
  | cwget (o : Opnd)
  /-- CWSET (R378). Writes a control word by selector. -/
  | cwset (o : Opnd)
  /-- TLBF.PAGE (R379). Starts a shootdown of one page and blocks the squad. -/
  | tlbfPage (o : Opnd)
  /-- TLBF.AS (R379). Starts a shootdown of the context's whole space. -/
  | tlbfAs (o : Opnd)
  /-- TLBF.ALL (R379). Starts a shootdown of every space. -/
  | tlbfAll (o : Opnd)
  /-- SLEEP (R380). Puts the thread to sleep on a line with a limit. -/
  | sleep (o : Opnd)
  /-- ILLEGAL_INSTRUCTION (R173). A thread reaching an encoding that decodes to an illegal instruction traps. -/
  | illegalInstruction (code : Nat) (words : List Word)
  /-- BUNDLER_ROUND (R345). Every 3 cycles the bundler forms bundles from PC-table entries and the overflow queue. -/
  | bundlerRound (core : Nat)
  /-- ISSUE_SELECTION (R351). Each cycle the core orders the pool and issues bundles into free slots. -/
  | issueSelection (core : Nat)
  /-- CONVERGENCE_TIMEOUT (R349). After 3^15 counted cycles the present threads of an unconverged scope trap. -/
  | convergenceTimeout (core : Nat) (t : TRef) (addr : Word)
  /-- LOAD_DATA_RETURN (R165). Load data arrives and is written at the end of its lookahead window. -/
  | loadDataReturn (t : TRef) (reg : Nat)
  /-- SFU_RESULT_LANDS (R260). A queued special-function result lands in its register. -/
  | sfuResultLands (team squad : Nat)
  /-- STS_ACKNOWLEDGEMENT (R319). The home's acknowledgement of a synchronising write arrives, delivering a serial if asked. -/
  | stsAcknowledgement (t : TRef) (reg : Option Nat) (reply : WriteReply)
  /-- SCOREBOARD_START (R133). A copy, matrix or range teller command begins once no earlier overlapping command blocks it. -/
  | scoreboardStart (team seq : Nat)
  /-- RANGE_LOCK_FREE (R131). A freed range-lock entry lets a stalled engine issue proceed. -/
  | rangeLockFree (core : Nat)
  /-- ENGINE_COMMAND_COMPLETE (R135). A copy, teller or matrix command completes and its record is kept. -/
  | engineCommandComplete (team seq : Nat)
  /-- DRAWER_REQUEST (R120). A cabinet drawer performs one request in arrival order. -/
  | drawerRequest (core drawer : Nat)
  /-- TLB_MISS_WALK (R72). A translation miss starts or joins a page walk. -/
  | tlbMissWalk (die : Nat) (w : WalkReq)
  /-- FAULT_POSTING_RESUME (R86). A fault waiting on a full list is posted once FLHEAD advances. -/
  | faultPostingResume (asrec : Nat)
  /-- FAULT_ENTRY_DONE (R88). A store to an entry's DONE wakes its parked threads and commands, or traps them. -/
  | faultEntryDone (entry : Nat)
  /-- SHOOTDOWN (R83). GEN increments and translation caches for the named pages are invalidated. -/
  | shootdown (asrec : Nat) (kind : Int) (page : Word) (by_ : Option TRef)
  /-- SHOOTDOWN_COMPLETE (R83). Once old stores, loads and escrow are settled the shootdown completes and is reported. -/
  | shootdownComplete (id : Nat)
  /-- PUBLICATION (R306). A set of escrow entries is sent as one HW per line to their homes. -/
  | publication (team : Nat) (set : PubSet) (waiter : PubWaiter)
  /-- PUBLICATION_ACK (R306). A publication HW is acknowledged and its in-flight words are released. -/
  | publicationAck (team pub : Nat) (reply : LineReply)
  /-- BARRIER_COMPLETE (R326). A team barrier completes once all live threads arrived and publication is acknowledged. -/
  | barrierComplete (team bar : Nat)
  /-- CBAR_COMPLETE (R327). The crew barrier completes. -/
  | cbarComplete (grid crew : Nat)
  /-- GPHASE_COMPLETE (R328). All grid threads arrived; escrows are published or merged and threads proceed. -/
  | gphaseComplete (grid : Nat)
  /-- DET_MERGE (R335). Merge desks merge the teams' escrows in team order and write recorded words. -/
  | detMerge (grid : Nat)
  /-- LEASE_EXPIRY (R331). A lease countdown reaches zero and the lease becomes invalid. -/
  | leaseExpiry (t : TRef) (line : Nat)
  /-- SLEEP_WAKE (R380). A sleeping thread wakes on a write to its line, its limit, or an early wake. -/
  | sleepWake (t : TRef)
  /-- HOME_RDS (R99). The home serves a shared-copy request. -/
  | homeRds (agent : Nat) (q : AgentReq)
  /-- HOME_RDX (R99). The home serves an owned-copy request. -/
  | homeRdx (agent : Nat) (q : AgentReq)
  /-- HOME_UPG (R99). The home serves an ownership upgrade. -/
  | homeUpg (agent : Nat) (q : AgentReq)
  /-- HOME_WBD (R99). The home takes returned dirty data. -/
  | homeWbd (agent slot : Nat)
  /-- HOME_EVC (R99). The home removes a clean copy from presence. -/
  | homeEvc (agent slot : Nat)
  /-- HOME_HW (R99). The home performs a write or read-modify-write and advances its serial. -/
  | homeHw (r : HwReq)
  /-- HOME_HR (R99). The home performs a read leaving no copy. -/
  | homeHr (r : HrReq)
  /-- SNOOP_INV (R100). An agent answers an invalidating snoop. -/
  | snoopInv (agent slot : Nat)
  /-- SNOOP_SHR (R100). An agent answers a sharing snoop. -/
  | snoopShr (agent slot : Nat)
  /-- SNOOP_GET (R100). An agent answers a data-fetch snoop. -/
  | snoopGet (agent slot : Nat)
  /-- SNOOP_FILTER_BROADCAST (R103). A die's snoop filter answers or forwards a broadcast snoop. -/
  | snoopFilterBroadcast (die slot : Nat)
  /-- SNOOP_ANSWER (R102). A snoop answer arrives at the home, possibly closing its transaction. -/
  | snoopAnswer (agent slot : Nat) (data : Option Line)
  /-- VAULT_FILL (R90). A slice fills a line, evicting a not-recently-used victim or waiting for one. -/
  | vaultFill (slot : Nat)
  /-- VAULT_WRITEBACK (R106). A slice writes back a dirty line, compressed if eligible and it fits. -/
  | vaultWriteback (slot : Nat)
  /-- HBM_READ (R53). The shell reads and checks a slot image, correcting or poisoning it. -/
  | hbmRead (slot : Nat)
  /-- HBM_WRITE (R50). The shell writes a packed slot image with its check. -/
  | hbmWrite (slot : Nat) (line : Line) (elig : Bool)
  /-- DIE_LINK_FAILURE (R63). A UCIe link exhausts its retries and its transfers are handled as uncorrectable. -/
  | dieLinkFailure (slot : Nat)
  /-- HOST_BINARY_WRITE (R60). A host write to the binary window merges into a B-line at its home. -/
  | hostBinaryWrite (who off : Nat) (bytes : List (BitVec 8))
  /-- HOST_BINARY_READ (R58). A host read of a B-slot through the binary window (BAR 0), or of control words (BAR 4, R61, R378). -/
  | hostBinaryRead (who : Nat) (addr : BarAddr) (len : Nat)
  /-- HOST_IMAGE_WRITE (R59). Host bytes to the image window collect in a staging entry and a complete image is checked and written. -/
  | hostImageWrite (who off : Nat) (bytes : List (BitVec 8))
  /-- IMAGE_STAGING_TIMEOUT (R59). An image still incomplete 1 ms after its first byte is discarded. -/
  | imageStagingTimeout (who slot : Nat)
  /-- HOST_IMAGE_READ (R59). A host reads a slot's uncompressed image through the image window. -/
  | hostImageRead (who off len : Nat)
  /-- RESAMPLING_INTERVAL (R109). A new denomination re-sampling interval of 3^n cycles starts counting trytes. -/
  | resamplingInterval (r : Resampling)
  /-- SAMPLING_WINDOW_END (R109). The sampling window ends and a new table's ranks are fixed. -/
  | samplingWindowEnd (die : Nat)
  /-- DENOMINATION_SWEEP (R110). The clearing house re-encodes lines of the target slot, loads it and activates it. -/
  | denominationSweep (die : Nat)
  /-- GRAPH_ARM (R354). Writing +1 to GRAPHn.STATE checks BASE and NODES and releases node 0. -/
  | graphArm (slot : Nat)
  /-- GRAPH_EMPTY (R354). Writing 0 to GRAPHn.STATE empties the slot. -/
  | graphEmpty (slot : Nat)
  /-- GRID_NODE (R356). A released grid node is handed to the dispatchers. -/
  | gridNode (slot node : Nat)
  /-- COPY_NODE (R358). A released copy node copies lines as system-scope release writes. -/
  | copyNode (slot node : Nat)
  /-- COLLECTIVE_NODE (R358). A released collective node performs a COLL. -/
  | collectiveNode (slot node : Nat)
  /-- CONDITION_NODE (R358). A released condition node reads a word and signals one successor. -/
  | conditionNode (slot node : Nat)
  /-- WHILE_NODE (R358). A released while node reads a word and signals SUCC0 or SUCC1. -/
  | whileNode (slot node : Nat)
  /-- WAIT_WORD_NODE (R360). A wait-word node re-reads its word when its copy is invalidated and completes when its condition holds. -/
  | waitWordNode (slot node : Nat)
  /-- SIGNAL_NODE (R358). A released signal node writes its value and sends an interrupt. -/
  | signalNode (slot node : Nat)
  /-- END_NODE (R359). An end node ends the run, waits for running nodes, clears counts and re-arms. -/
  | endNode (slot node : Nat)
  /-- NODE_COMPLETE (R359). A node completes and signals its successors. -/
  | nodeComplete (slot node : Nat) (succs : List Int)
  /-- TEAM_PLACEMENT (R363). A dispatcher places a team or crew where its reservation fits. -/
  | teamPlacement (grid : Nat)
  /-- PREEMPTION (R381). A dispatcher chooses and evicts lower-priority teams. -/
  | preemption (grid : Nat)
  /-- TEAM_SAVE (R383). A pre-empted team is drained and written to the save pool. -/
  | teamSave (team : Nat)
  /-- TEAM_RESTORE (R389). A saved team is restored on a core that meets its reservation. -/
  | teamRestore (saved : Nat)
  /-- TEAM_END (R342). A team's last squad retires and its reservation is freed after its commands and escrow settle. -/
  | teamEnd (team : Nat)
  /-- GRID_COMPLETION (R343). A grid ends, its status is set and STATW is written. -/
  | gridCompletion (grid : Nat)
  /-- TRAP_ENTRY (R372). A trap event enters the team's handler, freezing its squad and writing the frame. -/
  | trapEntry (team : Nat)
  /-- ROLLBACK (R392). A team consuming an uncorrectable error in its own state rolls back to the interval's opening. -/
  | rollback (team : Nat)
  /-- VIGIL_COMPARE (R396). The leader and the shadow of a squad on a core are compared at a point; a mismatch is a silent-error detection. -/
  | vigilCompare (core team squad : Nat)
  /-- FLIT_LINE_WRITE (R407). A received line-write flit is performed at the peer's home. -/
  | flitLineWrite (f : Flit)
  /-- PULL_REQUEST (R209). A member's pull request makes the engine read a block of the source. -/
  | pullRequest (f : Flit)
  /-- PULL_DATA (R408). Pulled data arrives and is reduced or written at its position. -/
  | pullData (f : Flit)
  /-- FLIT_ACKNOWLEDGEMENT (R407). An acknowledgement flit arrives for a sent line. -/
  | flitAcknowledgement (f : Flit)
  /-- TIME_SYNC (R399). A time-sync flit adjusts the stamp forward. -/
  | timeSync (partition : Nat) (value : Nat)
  /-- FABRIC_PORT_DOWN (R407). A link exhausts retries; its flits are resent via another port or fail. -/
  | fabricPortDown (port : Nat)
  /-- GOVERNOR_TICK (R460). Every 81 cycles the governor adjusts the withheld ninths w. -/
  | governorTick (irail temp : List Int)
  /-- ILIM_UPDATE (R460). Every 1 ms firmware recomputes ILIM from PCAP and measured power. -/
  | ilimUpdate (others : Int)
  /-- DROOP_DETECT (R460). A core's droop detector withholds issue while its supply is below 0.40 V. -/
  | droopDetect (core : Nat)
  /-- THERMTRIP (R461). At 115 °C the device asserts THERMTRIP and stops issue. -/
  | thermtrip (die : Nat)
  /-- CORE_RAIL_UNDERVOLTAGE (R459). A core rail below 0.39 V for 1 µs raises a cold reset. -/
  | coreRailUndervoltage (die : Nat)
  /-- PARTITION_RESET (R447). A partition is killed, cleared, zeroed and restarted. -/
  | partitionReset (p : Nat)
  /-- PARTITION_TABLE_WRITE (R458). The management core writes a partition's words, refusing overlaps. -/
  | partitionTableWrite (p : Nat) (words : List Int)
  /-- ATTGO (R455). A write of +1 to ATTGO snapshots inputs and starts signing a report. -/
  | attgo (writer : Option Nat)
  /-- CONTROL_WORD_WRITE (R378). A write to a control word with no behaviour of its own stores or is ignored. -/
  | controlWordWrite (sel : Int) (value : Word)
  /-- WALK_COMPLETION (R81). A page walk's table reads return, and the walk fills the TLBs and lets the waiting accesses and queued misses proceed, or stops with a fault. -/
  | walkCompletion (die : Nat)
  /-- INSTRUCTION_FETCH_FILL (R157). A fetch block read by HR from its home arrives in the core's instruction cache, and the threads waiting on it become ready. -/
  | instructionFetchFill (core : Nat) (asrec : Nat) (sys : Bool) (block : Nat)
  /-- LEASE_GRANT (R111). The home's grant of a LEASE reaches the L1, which marks the copy leased, takes the image and starts the countdown. -/
  | leaseGrant (t : TRef)
  /-- LOCAL_SUPPLY_RECOVERY (R460). A core's local supply returns to 0.40 V or above, and its droop detector stops withholding issue. -/
  | localSupplyRecovery (core : Nat)
  /-- SDOP_PAGE (R378). Writing +1 to SDOP starts a shootdown of one page. -/
  | sdopPage
  /-- SDOP_SPACE (R378). Writing +2 to SDOP starts a shootdown of a whole space. -/
  | sdopSpace
  /-- SDOP_EVERY_SPACE (R378). Writing +3 to SDOP starts a shootdown of every space. -/
  | sdopEverySpace
  /-- CH_ZERO_T (R397). Clearing house zeroes a frame as T-frame and verifies it. -/
  | chZeroT
  /-- CH_ZERO_B (R397). Clearing house zeroes a frame as B-frame and verifies it. -/
  | chZeroB
  /-- CH_RETIRE (R397). Clearing house retires a frame. -/
  | chRetire
  /-- CH_SCRUB (R397). Clearing house scrubs every slot of a frame. -/
  | chScrub
  /-- CH_SCORE (R397). Clearing house delivers a frame's retirement score to CHSTAT. -/
  | chScore
  /-- CH_CLEAR (R397). Clearing house clears a frame's score. -/
  | chClear
  /-- PATROL_SCRUB_PASS (R398). At the end of a patrol pass every score is shifted right one trit. -/
  | patrolScrubPass
  /-- STAMP_SYNC_LOSS (R399). A device unable to hold 27 ns raises stamp sync loss. -/
  | stampSyncLoss
  /-- COLD_RESET (R448). Power-on or cold reset runs the full boot order. -/
  | coldReset
  /-- FUNCTION_LEVEL_RESET (R446). A PCIe FLR or Hot Reset resets every partition and returns words to defaults. -/
  | functionLevelReset
  /-- PROVISIONING (R454). The key engine draws seeds, computes the identity key and moves LCS to 0. -/
  | provisioning
  /-- ATTESTATION_REPORT_DONE (R455). Signing finishes, the report is written and ATTSTAT becomes +2. -/
  | attestationReportDone
  /-- EXTGO (R453). A write of +1 to EXTGO extends MEAS(EXTSEL) with EXTDATA. -/
  | extgo
  /-- LIFECYCLE_RETURN (R454). LCS rises to +2 (return), and every remaining fuse of the identity seed bank is blown, so attestation is refused thereafter. -/
  | lifecycleReturn
deriving DecidableEq, Repr

end Sys2Proof
end

