-- ==== Sys2Proof/Decode.lean ====
section
/-! DEFINITION. Encodings (R155–R174): the two field layouts, the opcode map with the rules of every form,
the decoder, which rejects by name, and the encoder. -/

namespace Sys2Proof

/-- Why an encoding is no instruction; the causes of R173 that decoding alone decides. -/
inductive Reject where
  /-- code 1: fetch-block straddle (R156) -/
  | straddle
  /-- code 2: all-zero word (R172) -/
  | allZero
  /-- code 3: higher ISA level (R172) -/
  | higherLevel
  /-- code 4: unassigned opcode (R172) -/
  | unassigned
  /-- code 5: reserved field value (R153, R159–R165, R170, R145) -/
  | reservedField
deriving DecidableEq, Repr

/-- The detail code (R173). -/
def Reject.code : Reject → Nat
  | .straddle => 1
  | .allZero => 2
  | .higherLevel => 3
  | .unassigned => 4
  | .reservedField => 5

/-! ### Fields of a word -/

/-- The unbalanced value of the `w`-trit field of a word whose lowest trit has weight `m`; `k` is 3^w. -/
def Word.bits (x : Word) (m k : Nat) : Nat := x.num / m % k

/-- The fields of the first word (R158) and, where there is one, of the second (R161), as unbalanced digits. -/
structure Raw1 where
  f : Nat
  b : Nat
  a : Nat
  d : Nat
  gc : Nat
  gp : Nat
  op : Nat
  l : Nat
deriving DecidableEq, Repr

/-- The fields of the second word (R161, R147). -/
structure Raw2 where
  x : Nat
  sat : Nat
  gr : Nat
  la : Nat
  xc : Nat
  xr : Nat
  et : Nat
  mbm : Nat
  mbp : Nat
  mam : Nat
  map : Nat
  c : Nat
deriving DecidableEq, Repr

/-- The fields of a first word (R158). -/
def unpack1 (w : Word) : Raw1 :=
  { f := w.bits 847288609443 9, b := w.bits 3486784401 243, a := w.bits 14348907 243, d := w.bits 59049 243,
    gc := w.bits 6561 9, gp := w.bits 729 9, op := w.bits 3 243, l := w.bits 1 3 }

/-- The first word of its fields (R158). -/
def pack1 (r : Raw1) : Word :=
  .ofNum (r.f * 847288609443 + r.b * 3486784401 + r.a * 14348907 + r.d * 59049 + r.gc * 6561 + r.gp * 729 + r.op * 3 + r.l)

/-- The fields of a second word (R161). -/
def unpack2 (w : Word) : Raw2 :=
  { x := w.bits 847288609443 9, sat := w.bits 282429536481 3, gr := w.bits 31381059609 9, la := w.bits 3486784401 9,
    xc := w.bits 1162261467 3, xr := w.bits 129140163 9, et := w.bits 14348907 9, mbm := w.bits 1594323 9,
    mbp := w.bits 59049 27, mam := w.bits 6561 9, map := w.bits 243 27, c := w.bits 1 243 }

/-- The second word of its fields (R161). -/
def pack2 (r : Raw2) : Word :=
  .ofNum (r.x * 847288609443 + r.sat * 282429536481 + r.gr * 31381059609 + r.la * 3486784401 + r.xc * 1162261467
    + r.xr * 129140163 + r.et * 14348907 + r.mbm * 1594323 + r.mbp * 59049 + r.mam * 6561 + r.map * 243 + r.c)

/-- The guard condition of a GC field (R160). -/
def GCond.ofField : Nat → Option GCond
  | 4 => some .always
  | 5 => some .isPos
  | 3 => some .notPos
  | 6 => some .isZero
  | 2 => some .notZero
  | 7 => some .isNeg
  | 1 => some .notNeg
  | _ => none

/-- The GC field of a condition (R160). -/
def GCond.toField : GCond → Nat
  | .always => 4
  | .isPos => 5
  | .notPos => 3
  | .isZero => 6
  | .notZero => 2
  | .isNeg => 7
  | .notNeg => 1

/-- The element type of an ET field (R162). -/
def ETy.ofField : Nat → Option ETy
  | 4 => some .t27
  | 3 => some .t9
  | 2 => some .t1
  | 1 => some .st27
  | 5 => some .tf27
  | 6 => some .tf9
  | 7 => some .stf27
  | _ => none

/-- The ET field of an element type (R162). -/
def ETy.toField : ETy → Nat
  | .t27 => 4
  | .t9 => 3
  | .t1 => 2
  | .st27 => 1
  | .tf27 => 5
  | .tf9 => 6
  | .stf27 => 7

/-- The scalar element types (R162). -/
def ETy.scalar : ETy → Bool
  | .st27 | .stf27 => true
  | _ => false

/-- Elements in a word (R263). -/
def ETy.per : ETy → Nat
  | .t1 => 27
  | .t9 | .tf9 => 3
  | _ => 1

/-- The routing of a mode and a parameter (R148), both as unbalanced digits; `none` for a value that R153 reserves. -/
def Route.ofField (m p : Nat) : Option Route :=
  let lo := p % 3
  let mid := p / 3 % 3
  let hi := p / 9
  match m with
  | 4 => if p = 13 then some .none else Option.none
  | 5 => some (if 13 ≤ p then .rot (p - 13) false else .rot (13 - p) true)
  | 3 => some (if 13 ≤ p then .rotb (p - 13) false else .rotb (13 - p) true)
  | 6 => some (.bcast p)
  | 2 => if p = 13 then some (.rev false) else if p = 12 then some (.rev true) else Option.none
  | 7 => if hi = 2 ∨ lo = 1 then Option.none else some (.bfly mid (lo == 2) (hi == 0))
  | 1 =>
    if hi = 2 then some (.grot 9 false ((p % 9 : Nat) - 4))
    else if hi = 0 then some (.grot 9 true ((p % 9 : Nat) - 4))
    else if mid = 2 then Option.none else some (.grot 3 (mid == 0) ((lo : Nat) - 1))
  | 8 => some (.tri lo mid hi)
  | 0 => if hi = 1 ∧ mid = 1 ∧ lo ≠ 2 then some (.idx (lo == 0)) else Option.none
  | _ => Option.none

/-- The mode and the parameter of a routing (R148). -/
def Route.toField : Route → Nat × Nat
  | .none => (4, 13)
  | .rot n own => (5, if own then 13 - n else 13 + n)
  | .rotb n own => (3, if own then 13 - n else 13 + n)
  | .bcast b => (6, b)
  | .rev own => (2, if own then 12 else 13)
  | .bfly d up own => (7, (if own then 0 else 9) + 3 * d + (if up then 2 else 0))
  | .grot s own a =>
    if s = 9 then (1, (if own then 0 else 18) + (a + 4).toNat)
    else (1, 9 + (if own then 0 else 3) + (a + 1).toNat)
  | .tri x y z => (8, x + 3 * y + 9 * z)
  | .idx own => (0, 9 + 3 + (if own then 0 else 1))

/-- A routing that has an encoding. -/
def Route.ok (r : Route) : Bool :=
  match r with
  | .none | .rev _ | .idx _ => true
  | .rot n own | .rotb n own => n ≤ 13 && !(own && n == 0)
  | .bcast b => b ≤ 26
  | .bfly d _ _ => d ≤ 2
  | .grot s _ a => (s == 9 && -4 ≤ a && a ≤ 4) || (s == 3 && -1 ≤ a && a ≤ 1)
  | .tri x y z => x ≤ 2 && y ≤ 2 && z ≤ 2

/-! ### Operands -/

/-- The element type of a one-word form (R162): tf27 in the float range, else t27. -/
def impliedET (op : Int) : ETy := if -81 ≤ op ∧ op ≤ -53 then .tf27 else .t27

/-- The operands of an instruction's words; `none` where a field holds a value that no instruction defines.
With no second word the instruction behaves as if it carried the one of R162. -/
def mkOpnd (op : Int) (len : Nat) (r : Raw1) (s : Option Raw2) (w3 : Word) : Option Opnd := do
  let gc ← GCond.ofField r.gc
  let base : Opnd := {
    len := len, gc := gc, gp := r.gp, f := (r.f : Int) - 4, d := (r.d : Int) - 121, a := (r.a : Int) - 121,
    b := (r.b : Int) - 121, x := 0, sat := false, gr := 0, la := 0, xc := 1, xr := 1, et := impliedET op,
    mb := .none, ma := .none, c := 0, w3 := w3 }
  match s with
  | none => some base
  | some t =>
    let et ← ETy.ofField t.et
    let mb ← Route.ofField t.mbm t.mbp
    let ma ← Route.ofField t.mam t.map
    if t.sat = 0 then none
    else some { base with
      x := (t.x : Int) - 4, sat := t.sat == 2, gr := t.gr, la := t.la, xc := t.xc + 1, xr := t.xr + 1, et := et,
      mb := mb, ma := ma, c := (t.c : Int) - 121 }

/-- The fields of the first word of an opcode with operands (R158). -/
def Opnd.raw1 (op l : Int) (o : Opnd) : Raw1 :=
  { f := (o.f + 4).toNat, b := (o.b + 121).toNat, a := (o.a + 121).toNat, d := (o.d + 121).toNat, gc := o.gc.toField,
    gp := o.gp, op := (op + 121).toNat, l := (l + 1).toNat }

/-- The fields of the second word (R161). -/
def Opnd.raw2 (o : Opnd) : Raw2 :=
  { x := (o.x + 4).toNat, sat := if o.sat then 2 else 1, gr := o.gr, la := o.la, xc := o.xc - 1, xr := o.xr - 1,
    et := o.et.toField, mbm := o.mb.toField.1, mbp := o.mb.toField.2, mam := o.ma.toField.1, map := o.ma.toField.2,
    c := (o.c + 121).toNat }

/-- Every operand lies in its field, and a field that the length leaves out holds what R162 implies. -/
def Opnd.encodable (op : Int) (o : Opnd) : Bool :=
  1 ≤ o.len && o.len ≤ 3 && o.gp ≤ 8
  && -4 ≤ o.f && o.f ≤ 4 && -121 ≤ o.d && o.d ≤ 121 && -121 ≤ o.a && o.a ≤ 121 && -121 ≤ o.b && o.b ≤ 121
  && (if o.len = 1 then
        o.x == 0 && !o.sat && o.gr == 0 && o.la == 0 && o.xc == 1 && o.xr == 1 && o.et == impliedET op
        && o.mb == .none && o.ma == .none && o.c == 0
      else
        -4 ≤ o.x && o.x ≤ 4 && o.gr ≤ 8 && o.la ≤ 8 && 1 ≤ o.xc && o.xc ≤ 3 && 1 ≤ o.xr && o.xr ≤ 9
        && o.mb.ok && o.ma.ok && -121 ≤ o.c && o.c ≤ 121)
  && (o.len == 3 || o.w3 == .zero)

/-! ### The forms -/

/-- What a register field names (R159): nothing (zero trits); a v register under a vector type and a k register under a
scalar one; a v register; a k register; a predicate; one of g1 … g8; an immediate. -/
inductive Use where
  | z | r | v | k | p | g | i
deriving DecidableEq, Repr

/-- The issue classes of R170. -/
inductive Cls where
  | V | S | M | E | K
deriving DecidableEq, Repr

/-- The rules of one form: what each field names, and which of the shared fields it may use. -/
structure Form where
  d : Use := .z
  a : Use := .z
  b : Use := .z
  c : Use := .z
  /-- a routing may stand in MA, in MB (R147) -/
  ma : Bool := false
  mb : Bool := false
  /-- SAT is honoured (R164) -/
  sat : Bool := false
  /-- a lookahead may stand (R165) -/
  la : Bool := false
  /-- GR is used even without a routing -/
  gr : Bool := false
  /-- a guard may stand -/
  guard : Bool := true
  /-- a block extent may stand where the destination is a v register (R145) -/
  ext : Bool := true
  /-- word 3 leaves B, C their roles (R163, R184) -/
  keepB : Bool := false
  keepC : Bool := false
  /-- D is read; D is written; A is written -/
  dRead : Bool := false
  dWrite : Bool := true
  aWrite : Bool := false
  /-- it ends every window on a register of its range, and waits for the data first (R245) -/
  ends : Bool := false
  /-- further v registers, as field values (checked as R145 checks an extent) -/
  moreV : List Int := []
  /-- the further k registers that a scalar instruction reads -/
  moreK : List Int := []
  /-- every other reserved value of the instruction's description -/
  extra : Bool := true

/-- One entry of the opcode map: the instruction that an OP selects with values of F and X. -/
structure Entry where
  op : Int
  cls : Cls
  lens : List Nat
  ets : List ETy
  fs : List Int
  xs : List Int
  form : Opnd → Form
  build : Opnd → Instr

def setI : List ETy := [.t1, .t9, .t27, .st27]
def setJ : List ETy := [.t9, .t27, .st27]
def setW : List ETy := [.t27, .st27]
def setG : List ETy := [.t9, .t27, .tf9, .tf27]
def setVec : List ETy := [.t1, .t9, .t27, .tf9, .tf27]
def setAll : List ETy := [.t1, .t9, .t27, .tf9, .tf27, .st27, .stf27]
def setFL : List ETy := [.tf9, .tf27, .stf27]
def setCV : List ETy := [.t9, .t27, .tf9, .tf27, .st27, .stf27]
def anyField : List Int := [-4, -3, -2, -1, 0, 1, 2, 3, 4]
/-- The format codes of R262. -/
def formatCodes : List Int := [-4, -3, -2, -1, 1, 2, 3, 4]

/-- D, A, and B from a register or word 3. -/
def plain (s : Bool) : Form := { d := .r, a := .r, b := .r, ma := true, mb := true, sat := s }
/-- The same with the immediate form of R211: F = +1 takes the second operand from C, in the two-word form only. -/
def binary (s : Bool) (o : Opnd) : Form :=
  { d := .r, a := .r, b := if o.f = 1 then .z else .r, c := if o.f = 1 then .i else .z, ma := true, mb := o.f != 1,
    sat := s, extra := o.f != 1 || o.len == 2 }
/-- D and A. -/
def unary : Form := { d := .r, a := .r, ma := true }
/-- D, A, B and a register C. -/
def ternary (s : Bool) : Form := { d := .r, a := .r, b := .r, c := .r, ma := true, mb := true, sat := s }
/-- X selects a sub-element under t9 and tf9 (R222, R255). -/
def subX (o : Opnd) : Bool := o.x == 0 || o.et == .t9 || o.et == .tf9
/-- The space trit SP of a function field (R183). -/
def spOf (f : Int) : Int := trit f 1
/-- The index trit IX of a function field (R183). -/
def ixOf (f : Int) : Int := trit f 0
/-- B names the index register, or nothing (R183). -/
def ixUse (o : Opnd) : Use := if ixOf o.f = 0 then .z else .r
/-- Elements in a word of CVT's target type (R266). -/
def cvtPer (x : Int) : Nat := if x = -1 ∨ x = 2 then 3 else 1
/-- The registers named + 1 … named + n − 1. -/
def upTo (v : Int) (n : Nat) : List Int := (List.range (n - 1)).map (fun (i : Nat) => v + 1 + (i : Int))
/-- The conversions with cs and cd elements in a word of each side (R263–R265). -/
def convert (o : Opnd) (cs cd : Nat) (ok : Bool) : Form :=
  let n := max cs cd
  let sr := trit o.f 1 = 1
  { d := .r, a := .r, c := if sr then .r else .z, sat := true,
    moreV := upTo o.a (n / cs) ++ upTo o.d (n / cd) ++ (if sr then upTo o.c n else []),
    extra := ok && (!sr || n ≤ 3) && (!o.et.scalar || n == 1) }
/-- The rules of BRM's three pairs (R239). -/
def brmOk (o : Opnd) : Bool :=
  let w := o.w3.val
  let p := [(o.d, field o.c 1 0, field w 8 0), (o.a, field o.c 3 2, field w 17 9), (o.b, o.x, field w 26 18)]
  trit o.c 4 == 0
  && p.all (fun q => q.2.1 != -4 && (q.2.1 != 4 || (q.1 == 0 && q.2.2 == 0)) && (q.2.1 != 0 || q.1 == 0))
  && (field o.c 1 0 != 0 || (field o.c 3 2 == 4 && o.x == 4))
  && (field o.c 3 2 != 0 || o.x == 4)

/-- The forms of R171, piece 1. -/
def entries1 : List Entry := [
  ⟨-121, .V, [1, 2, 3], setI, [0, 1], [0], fun o => binary true o, .add⟩,
  ⟨-120, .V, [1, 2, 3], setI, [0, 1], [0], fun o => binary true o, .sub⟩,
  ⟨-116, .V, [1, 2, 3], setI, [0, 1], [0], fun o => binary true o, .mul⟩,
  ⟨-115, .V, [1, 2, 3], setI, [0, 1], [0], fun o => binary false o, .mulh⟩,
  ⟨-113, .V, [1, 2, 3], setI, [0, 1], [0], fun o => binary false o, .div⟩,
  ⟨-112, .V, [1, 2, 3], setI, [0, 1], [0], fun o => binary false o, .mod⟩,
  ⟨-111, .V, [1, 2, 3], setI, [0, 1], [0], fun o => binary false o, .min⟩,
  ⟨-110, .V, [1, 2, 3], setI, [0, 1], [0], fun o => binary false o, .max⟩,
  ⟨-119, .V, [1, 2], setI, [0], [0], fun _ => unary, .neg⟩,
  ⟨-118, .V, [1, 2], setI, [0], [0], fun _ => unary, .abs⟩,
  ⟨-117, .V, [1, 2], setI, [0], [0], fun _ => unary, .sgn⟩,
  ⟨-114, .V, [2], setI, [0], [0], fun _ => ternary true, .mad⟩]

/-- The forms of R171, piece 2. -/
def entries2 : List Entry := [
  ⟨-109, .V, [2], setI, [0], [0], fun _ => ternary false, .clamp⟩,
  ⟨-108, .V, [1, 2], setI, [0, 1], [0], fun o => binary true o, .shl⟩,
  ⟨-107, .V, [1, 2], setI, [0, 1], [0], fun o => binary true o, .shr⟩,
  ⟨-106, .V, [1, 2], setI, [0, 1], [0], fun o => binary false o, .rot⟩,
  ⟨-105, .V, [1, 2], setI, [0, 1], [0], fun o => binary false o, .tmin⟩,
  ⟨-104, .V, [1, 2], setI, [0, 1], [0], fun o => binary false o, .tmax⟩,
  ⟨-103, .V, [1, 2], setI, [0, 1], [0], fun o => binary false o, .tsum⟩,
  ⟨-102, .V, [1, 2], setI, [0, 1], [0], fun o => binary false o, .tcon⟩,
  ⟨-101, .V, [2], setI, [0], [0], fun o => { unary with c := .i, extra := -13 ≤ o.c && o.c ≤ 13 }, .tmap⟩,
  ⟨-100, .V, [1, 2], setI, [-1, 0, 1], [0], fun _ => unary, .tcnt⟩,
  ⟨-99, .V, [1, 2], setI, [0], [0], fun _ => unary, .tlz⟩,
  ⟨-98, .V, [2], setW, [0], [0], fun o => { plain false with c := .i, extra := 1 ≤ o.c && o.c ≤ 27 }, .text⟩]

/-- The forms of R171, piece 3. -/
def entries3 : List Entry := [
  ⟨-97, .V, [2], setW, [0], [0], fun o => { plain false with c := .i, extra := 1 ≤ o.c && o.c ≤ 27, dRead := true }, .tins⟩,
  ⟨-96, .V, [1, 2, 3], setJ, [0, 1], [0, 1, 2], fun o => { binary false o with d := .p, extra := (o.f != 1 || o.len == 2) && subX o }, .cmp⟩,
  ⟨-95, .V, [2], setAll, anyField, [0], fun _ => ternary false, .sel⟩,
  ⟨-94, .V, [1, 2], setAll, [0], [0], fun _ => unary, .mov⟩,
  ⟨-94, .V, [1, 2], [.t27, .tf27], [1], [0], fun _ => { d := .r, a := .k }, .movBc⟩,
  ⟨-94, .V, [1, 2], [.st27, .stf27], [-1], [0], fun _ => { d := .k, a := .v }, .movK⟩,
  ⟨-93, .V, [2, 3], setAll, [0], [0], fun o => { d := .r, c := .i, extra := o.len == 3 || setI.contains o.et }, .movi⟩,
  ⟨-92, .V, [2], [.t9, .tf9], [0], [0], fun _ => ternary true, .pack⟩,
  ⟨-91, .V, [2], [.t9, .tf9], [0], [0, 1, 2], fun _ => unary, .unpack⟩,
  ⟨-90, .V, [2], setW, anyField, [0, 1, 2], fun o => { d := .r, gr := o.f == -4, extra := (o.x == 0 || o.f == 3 || o.f == 4) && !(o.et.scalar && (o.f == 0 || o.f == 2 || o.f == -4)) }, .idx⟩,
  ⟨-89, .K, [2], [.st27], [0, 1, 2], [0], fun _ => { d := .k, a := .k, b := .k, dRead := false }, .lget⟩,
  ⟨-88, .K, [2], [.st27], [0, 1, 2], [0], fun _ => { d := .k, a := .k, b := .k, dRead := true }, .lput⟩]

/-- The forms of R171, piece 4. DESIGN CHOICE, log entry 37: VOTE, for which R233 lists no element types, takes all five vector types. -/
def entries4 : List Entry := [
  ⟨-87, .V, [2], [.t1, .t27], [0], [0], fun _ => { d := .v, a := .v, gr := true }, .trx⟩,
  ⟨-86, .V, [2], setVec, [0, 1, -1], [0], fun o => { d := if o.f == 0 then .v else .p, a := .p, gr := true }, .vote⟩,
  ⟨-85, .V, [2], setG, [0, 1, -1], [0], fun o => { d := .v, a := .v, gr := true, sat := o.f == 0 }, .gred⟩,
  ⟨-84, .V, [2], setG, [0, 1, -1], [0, 1], fun o => { d := .v, a := .v, gr := true, sat := o.f == 0 }, .gscan⟩,
  ⟨-83, .V, [2], [.t27], [0, 1], [0], fun o => { d := .v, a := .v, b := if o.f == 0 then .z else .v, gr := true, sat := o.f == 1 }, .hist⟩,
  ⟨-82, .V, [2], [.t1, .t9, .tf9], [0], [0], fun _ => unary, .bsum⟩,
  ⟨-81, .V, [1, 2, 3], setFL, [0], [0], fun _ => plain true, .fadd⟩,
  ⟨-80, .V, [1, 2, 3], setFL, [0], [0], fun _ => plain true, .fsub⟩,
  ⟨-79, .V, [1, 2, 3], setFL, [0], [0], fun _ => plain true, .fmul⟩,
  ⟨-75, .V, [1, 2, 3], setFL, [0], [0], fun _ => plain false, .fmin⟩,
  ⟨-74, .V, [1, 2, 3], setFL, [0], [0], fun _ => plain false, .fmax⟩,
  ⟨-78, .V, [2], setFL, [0], [0], fun _ => ternary true, .ffma⟩]

/-- The forms of R171, piece 5. -/
def entries5 : List Entry := [
  ⟨-77, .V, [2], setFL, [0], [0], fun _ => ternary true, .fadd3⟩,
  ⟨-76, .V, [2], setFL, [0, 1], [0], fun o => { ternary true with c := if o.f == 0 then .z else .r, moreV := if o.et == .tf27 then [o.a + 1, o.a + 2, o.b + 1, o.b + 2] else [], moreK := [o.a + 1, o.a + 2, o.b + 1, o.b + 2], extra := o.et != .stf27 || (o.a ≤ -43 && o.b ≤ -43) }, .fdot3⟩,
  ⟨-73, .V, [1, 2], setFL, [0], [0], fun _ => unary, .fabs⟩,
  ⟨-72, .V, [1, 2, 3], setFL, [0, 1, -1], [0, 1, 2], fun o => { plain false with d := .p, extra := subX o }, .fcmp⟩,
  ⟨-71, .V, [2], setFL, [0], [0], fun _ => unary, .fclass⟩,
  ⟨-70, .V, [2], setFL, [0, 1], [0], fun o => binary true o, .fscl⟩,
  ⟨-69, .V, [2], setFL, [0, 1], [0], fun _ => unary, .fxp⟩,
  ⟨-68, .V, [2], setFL, [0, 1, -1], [0], fun _ => unary, .frnd⟩,
  ⟨-67, .S, [1, 2], setFL, [0], [0], fun _ => { unary with sat := true, la := true }, .rcp⟩,
  ⟨-66, .S, [1, 2], setFL, [0], [0], fun _ => { unary with sat := true, la := true }, .rsq⟩,
  ⟨-65, .S, [1, 2], setFL, [0], [0], fun _ => { unary with sat := true, la := true }, .sqrt⟩,
  ⟨-64, .S, [1, 2], setFL, [0], [0], fun _ => { unary with sat := true, la := true }, .exp⟩]

/-- The forms of R171, piece 6. -/
def entries6 : List Entry := [
  ⟨-63, .S, [1, 2], setFL, [0], [0], fun _ => { unary with sat := true, la := true }, .log⟩,
  ⟨-62, .S, [1, 2], setFL, [0], [0], fun _ => { unary with sat := true, la := true }, .sin⟩,
  ⟨-61, .S, [1, 2], setFL, [0], [0], fun _ => { unary with sat := true, la := true }, .cos⟩,
  ⟨-60, .S, [1, 2], setFL, [0], [0], fun _ => { unary with sat := true, la := true }, .tanh⟩,
  ⟨-59, .S, [1, 2], setFL, [0], [0], fun _ => { unary with sat := true, la := true }, .sigm⟩,
  ⟨-58, .V, [2], setCV, [0, 3], [0, 1, -1, 2], fun o => convert o (o.et.per) (cvtPer o.x) (!((o.et == .t9 && o.x == -1) || ((o.et == .t27 || o.et == .st27) && o.x == 0))), .cvt⟩,
  ⟨-57, .V, [2], setCV, [0, 3, 1, 4], formatCodes, fun o => { convert o (if trit o.f 0 = 1 then 1 else o.et.per) 1 (trit o.f 0 != 1 || (o.et == .t27 && o.b != 0 && o.b != o.x && -4 ≤ o.b && o.b ≤ 4)) with b := if trit o.f 0 = 1 then .i else .z }, .cvtb⟩,
  ⟨-56, .V, [2], setCV, [0, 3], formatCodes, fun o => convert o 1 (o.et.per) true, .cvtf⟩,
  ⟨-55, .M, [2], setVec, [0, 1, 3, 4], anyField, fun o => { convert o (if trit o.f 0 = 1 then 3 else 1) (if o.x == 0 then o.et.per else 1) ((o.x == 0 || o.et == .t27) && (o.et != .t1 || trit o.f 0 = 1)) with b := .v, sat := false, ext := false, moreV := (convert o (if trit o.f 0 = 1 then 3 else 1) (if o.x == 0 then o.et.per else 1) true).moreV ++ [o.b + 1] }, .quant⟩,
  ⟨-54, .V, [2], setVec, [0, 1], [0, 1], fun o => { convert o o.et.per (if o.x == 0 then 1 else 3) (o.et != .t1 || o.x == 1) with b := if o.f == 0 then .r else .z, c := if o.f == 0 then .z else .i, ma := true }, .dquant⟩,
  ⟨-53, .V, [2], [.t27], [0], [0], fun _ => { d := .v, a := .v, b := .v }, .draw⟩,
  ⟨-41, .M, [1, 2, 3], setAll, anyField, [0, 1], fun o => { d := .r, a := .r, b := ixUse o, c := .i, keepB := true, la := true }, .ld⟩]

/-- The forms of R171, piece 7. -/
def entries7 : List Entry := [
  ⟨-40, .M, [1, 2, 3], setAll, anyField, [0, 1], fun o => { d := .r, a := .r, b := ixUse o, c := .i, keepB := true, dRead := true, dWrite := false, extra := o.x == 0 || spOf o.f != 0 }, .st⟩,
  ⟨-39, .M, [2], setVec, [0, -3, 3], [0], fun _ => { d := .v, a := .k, c := .i, la := true }, .ldx⟩,
  ⟨-38, .M, [2], setVec, [0, -3, 3], [0], fun _ => { d := .v, a := .k, c := .i, dRead := true, dWrite := false }, .stx⟩,
  ⟨-37, .M, [2], [.t27], [-1, 0, 1], [0], fun o => { a := .v, b := ixUse o, c := .i }, .pref⟩,
  ⟨-37, .M, [2], [.t27], [-1, 0, 1], [1], fun o => { a := .v, b := ixUse o, c := .i }, .prefHome⟩,
  ⟨-36, .M, [2], [.t27], [-1, 0, 1], [0], fun o => { a := .v, b := ixUse o, c := .i }, .clineZero⟩,
  ⟨-36, .M, [2], [.t27], [-1, 0, 1], [1], fun o => { a := .v, b := ixUse o, c := .i }, .clineEvict⟩,
  ⟨-35, .E, [2], [.t27], [0], [0], fun _ => { d := .v, a := .v, c := .i }, .copyIn⟩,
  ⟨-34, .E, [2], [.t27], [0], [0], fun _ => { d := .v, a := .v, c := .i }, .copyOut⟩,
  ⟨-33, .E, [2], [.t27], [0], [0], fun _ => { d := .v, a := .v, c := .i }, .copyBin⟩,
  ⟨-32, .E, [2], [.t27], [0], [0], fun _ => { d := .v, a := .v, c := .i }, .copyPeer⟩,
  ⟨-31, .E, [2], [.t27], [0], [0], fun _ => { d := .v, a := .v, c := .i }, .copyCab⟩]

/-- The forms of R171, piece 8. -/
def entries8 : List Entry := [
  ⟨-30, .E, [2], setG, [1], [0, 1], fun _ => { d := .v, a := .v, b := .v, c := .z, sat := false, extra := true }, .xfNeg⟩,
  ⟨-30, .E, [2], [.t9, .t27], [2], [0, 1], fun o => { d := .v, a := .v, b := .v, c := .i, sat := true, extra := -26 ≤ o.c && o.c ≤ 26 }, .xfShift⟩,
  ⟨-30, .E, [2], setG, [3], [0, 1], fun _ => { d := .v, a := .v, b := .v, c := .z, sat := false, extra := true }, .xfZero⟩,
  ⟨-30, .E, [2], setG, [4], [0, 1], fun _ => { d := .v, a := .v, b := .v, c := .v, sat := false, extra := true }, .xfFill⟩,
  ⟨-30, .E, [2], setG, [-1], [0, 1], fun o => { d := .v, a := .v, b := .v, c := .v, sat := false, moreV := [o.c + 1], extra := true }, .xfClamp⟩,
  ⟨-30, .E, [2], setG, [-2], [0, 1], fun _ => { d := .v, a := .v, b := .v, c := .z, sat := true, extra := true }, .xfCvt⟩,
  ⟨-30, .E, [2], setG, [-3], [0, 1], fun _ => { d := .v, a := .v, b := .v, c := .i, sat := true, extra := true }, .xfRq⟩,
  ⟨-30, .M, [2], setG, [1], [3, 4], fun _ => { d := .z, a := .v, b := .v, c := .z, sat := true, la := false }, .xfAcc⟩,
  ⟨-30, .M, [2], setG, [2], [3, 4], fun _ => { d := .v, a := .v, b := .v, c := .z, sat := true, la := true }, .xfAdd⟩,
  ⟨-30, .M, [2], setG, [3], [3, 4], fun _ => { d := .v, a := .v, b := .v, c := .z, sat := false, la := true }, .xfMin⟩,
  ⟨-30, .M, [2], setG, [4], [3, 4], fun _ => { d := .v, a := .v, b := .v, c := .z, sat := false, la := true }, .xfMax⟩,
  ⟨-30, .M, [2], setG, [-1], [3, 4], fun _ => { d := .v, a := .v, b := .v, c := .z, sat := false, la := true }, .xfXchg⟩]

/-- The forms of R171, piece 9. -/
def entries9 : List Entry := [
  ⟨-30, .M, [2], setG, [-2], [3, 4], fun _ => { d := .v, a := .v, b := .v, c := .v, sat := false, la := true }, .xfCas⟩,
  ⟨-30, .M, [2], [.t27], [-3], [3, 4], fun _ => { d := .v, a := .v, b := .v, c := .z, sat := false, la := true }, .xfTsum⟩,
  ⟨-29, .K, [2], [.t27], [0, 1], [0], fun o => { d := .v, a := .v, moreV := if o.f == 1 then [o.d + 1, o.d + 2] else [] }, .wait⟩,
  ⟨-28, .K, [2], [.t27], [0], [0], fun _ => { d := .p, a := .v }, .tkt⟩,
  ⟨-27, .E, [2], [.t27], [1], [0], fun _ => { d := .v, a := .v, c := .i }, .collAr⟩,
  ⟨-27, .E, [2], [.t27], [2], [0], fun _ => { d := .v, a := .v, c := .i }, .collRs⟩,
  ⟨-27, .E, [2], [.t27], [3], [0], fun _ => { d := .v, a := .v, c := .i }, .collAg⟩,
  ⟨-27, .E, [2], [.t27], [4], [0], fun _ => { d := .v, a := .v, c := .i }, .collBc⟩,
  ⟨-27, .E, [2], [.t27], [-1], [0], fun _ => { d := .v, a := .v, c := .i }, .collSend⟩,
  ⟨-27, .E, [2], [.t27], [-2], [0], fun _ => { d := .v, a := .v, c := .i }, .collRecv⟩,
  ⟨1, .V, [1], [.t27], [0], [0], fun _ => {}, .nop⟩,
  ⟨2, .K, [2, 3], [.t27], [0], [0], fun _ => { c := .i }, .br⟩]

/-- The forms of R171, piece 10. -/
def entries10 : List Entry := [
  ⟨3, .K, [3], [.t27], [0], [0], fun _ => { a := .p }, .br3⟩,
  ⟨4, .K, [3], [.t27], [0], anyField, fun o => { d := .p, a := .p, b := .p, c := .i, keepB := true, keepC := true, dRead := true, dWrite := false, extra := brmOk o }, .brm⟩,
  ⟨5, .K, [2, 3], [.t27], [0], [0], fun o => { a := if o.len == 3 then .z else .v, c := .i }, .jmp⟩,
  ⟨6, .K, [1], [.t27], [0], [0], fun _ => { a := .v }, .jmpr⟩,
  ⟨7, .K, [2, 3], [.t27], [0, -3], [0], fun _ => { d := .v, c := .i, dRead := true }, .call⟩,
  ⟨8, .K, [1], [.t27], [0, -3], [0], fun _ => { d := .v, a := .v, dRead := true }, .callr⟩,
  ⟨9, .K, [1], [.t27], [0, -3], [0], fun _ => { a := .v, aWrite := true }, .ret⟩,
  ⟨10, .K, [1], [.t27], [0], [0], fun _ => {}, .exit⟩,
  ⟨11, .K, [2], [.t27], [-1, 0, 1], [0, 1], fun o => { d := .g, a := if o.x == 0 then .v else .z }, .part⟩,
  ⟨12, .K, [2], [.t27], [0], [0], fun _ => { gr := true }, .gwait⟩,
  ⟨13, .K, [2], [.t27], [0], [0], fun o => { d := .v, a := .v, b := .v, c := .i, ends := true, moreV := (List.range (o.c + 122).toNat).map (fun (i : Nat) => o.d + (i : Int)) }, .reorder⟩,
  ⟨14, .K, [1], [.t27], [0], [0], fun _ => {}, .yield⟩]

/-- The forms of R171, piece 11. -/
def entries11 : List Entry := [
  ⟨16, .K, [2], setW, [0], [0], fun _ => { d := .r, c := .i }, .feat⟩,
  ⟨17, .K, [1], [.t27], [0], [0], fun o => { d := .v, moreV := [o.d + 1] }, .stamp⟩,
  ⟨31, .M, [2, 3], setAll, [0, 1], [-2, -1, 0, 1], fun _ => { d := .r, a := .r, c := .i, la := true, ext := false }, .lds⟩,
  ⟨32, .M, [2, 3], setAll, [0, -1, 3, -3], [-2, -1, 0, 1], fun o => { d := if o.f == 3 || o.f == -3 then .r else .z, a := .r, b := .r, c := .i, keepB := true, ext := false }, .sts⟩,
  ⟨33, .M, [2], setG, [0, 1, -1, 2], [-2, -1, 0, 1], fun o => { d := .v, a := .v, b := .v, c := .i, la := true, ext := false, sat := o.c == 1 || o.c == 2, moreV := if o.c == -2 then [o.b + 1] else [], extra := [1, 2, 3, 4, -1, -2, -3].contains o.c && (o.c != -3 || o.et == .t27) }, .atom⟩,
  ⟨34, .M, [2], setG, [0, -1], [-2, -1, 0, 1], fun o => { a := .v, b := .v, c := .i, sat := o.c == 1 || o.c == 2, extra := [1, 2, 3, 4, -3].contains o.c && (o.c != -3 || o.et == .t27) }, .red⟩,
  ⟨35, .M, [2], [.t27], [0, 1], [-2, -1, 0, 1], fun _ => { a := .v, b := .v }, .lease⟩,
  ⟨36, .M, [2], [.t27], [0, -1], [-2, -1, 0, 1], fun _ => { d := .p, a := .v }, .unlease⟩,
  ⟨37, .M, [1], [.t27], [0], [0], fun _ => { guard := false }, .publish⟩,
  ⟨38, .M, [2], [.t27], [1, -1, 2], [-2, -1, 0, 1], fun _ => {}, .fence⟩,
  ⟨39, .K, [2], [.t27], [0], [0], fun o => { c := .i, guard := false, extra := 0 ≤ o.c }, .bar⟩,
  ⟨40, .K, [2], [.t27], [0], [0], fun _ => { guard := false }, .cbar⟩]

/-- The forms of R171, piece 12. -/
def entries12 : List Entry := [
  ⟨41, .K, [1], [.t27], [0], [0], fun _ => { guard := false }, .gphase⟩,
  ⟨42, .M, [1], [.t27], [0], [0], fun _ => { guard := false }, .wack⟩,
  ⟨56, .E, [2], [.t27], [0], [0], fun _ => { d := .v, a := .v, c := .i, ext := false }, .mxIssue⟩,
  ⟨57, .E, [2], [.t27], [0], [0, 1], fun _ => { d := .v, c := .i, ext := false }, .mxZero⟩,
  ⟨58, .E, [2], setG, [0], [0, 1], fun _ => { d := .v, a := .v, b := .v, c := .i, ext := false }, .mxLoadc⟩,
  ⟨59, .E, [2], [.tf9, .tf27], [0], [0], fun _ => { d := .v, a := .v, c := .i, ext := false }, .mxScale⟩,
  ⟨60, .E, [2], setG, [0, 1], [0], fun o => { d := .v, a := .v, b := .v, c := .i, ext := false, sat := true, moreV := [o.b + 1] }, .mxDrain⟩,
  ⟨61, .E, [2], [.t27], [0, -3], [0], fun _ => { d := .v, a := .v, c := .i, ext := false }, .mxSpill⟩,
  ⟨62, .E, [2], [.t27], [0, -3], [0], fun _ => { d := .v, a := .v, c := .i, ext := false }, .mxFill⟩,
  ⟨63, .E, [2], [.t27], [0, 1], [0], fun _ => { d := .v, c := .i, ext := false }, .mxQry⟩,
  ⟨71, .K, [2], [.t27], [0], [0], fun _ => { c := .i }, .trap⟩,
  ⟨72, .K, [1], [.t27], [0], [0], fun _ => { guard := false }, .tret⟩]

/-- The forms of R171, piece 13. -/
def entries13 : List Entry := [
  ⟨73, .K, [2], [.st27], [0], [0], fun _ => { d := .k, a := .k, b := .k, guard := false }, .tpcSet⟩,
  ⟨73, .K, [2], [.st27], [1], [0], fun _ => { d := .k, a := .k, b := .k, guard := false }, .tpcAdv⟩,
  ⟨73, .K, [2], [.st27], [-1], [0], fun _ => { d := .k, a := .k, b := .z, guard := false }, .tpcExit⟩,
  ⟨74, .K, [2, 3], [.st27], [0], [0], fun _ => { d := .k, c := .i }, .cwget⟩,
  ⟨75, .K, [2, 3], [.st27], [0], [0], fun _ => { a := .k, c := .i }, .cwset⟩,
  ⟨76, .K, [2], [.st27], [0], [0], fun _ => { a := .k }, .tlbfPage⟩,
  ⟨76, .K, [2], [.st27], [1], [0], fun _ => { a := .z }, .tlbfAs⟩,
  ⟨76, .K, [2], [.st27], [-1], [0], fun _ => { a := .z }, .tlbfAll⟩,
  ⟨77, .K, [2], [.t27], [0], [0], fun _ => { a := .v, b := .v }, .sleep⟩]

/-- The opcode map (R171), with the sub-functions that F and X select. -/
def entries : List Entry :=
  entries1 ++ entries2 ++ entries3 ++ entries4 ++ entries5 ++ entries6 ++ entries7 ++ entries8 ++ entries9 ++ entries10 ++ entries11 ++ entries12 ++ entries13
/-- The entry that an opcode selects with values of F and X. -/
def lookup (op f x : Int) : Option Entry :=
  entries.find? (fun e => e.op == op && e.fs.contains f && e.xs.contains x)

/-- The roles of the fields in an instruction's length (R163, R184). -/
def Form.at (fm : Form) (len : Nat) : Form :=
  if len = 3 then { fm with b := if fm.keepB then fm.b else .z, c := if fm.keepC then fm.c else .z } else fm

/-- A field that names a v register under the element type. -/
def Use.isV (u : Use) (scalar : Bool) : Bool := u == .v || (u == .r && !scalar)

/-- A field value outside the valid range of what it names is reserved (R159). -/
def Use.ok (u : Use) (scalar : Bool) (x : Int) : Bool :=
  match u with
  | .z => x == 0
  | .r => !scalar || x ≤ -41
  | .v | .i => true
  | .k => x ≤ -41
  | .p => -4 ≤ x && x ≤ 4
  | .g => -3 ≤ x && x ≤ 4

/-- A routing field stands only where the form allows it, on a v register source of a two-word vector form;
indexed mode needs a free C (R147, R153). -/
def routeLegal (r : Route) (allowed : Bool) (u c : Use) (o : Opnd) : Bool :=
  match r with
  | .none => true
  | r => allowed && o.len == 2 && u.isV o.et.scalar && !o.et.scalar && (match r with | .idx _ => c == .z | _ => true)

/-- Indexed routing on A or B: C names a v register (R148). -/
def Opnd.indexed (o : Opnd) : Bool :=
  (match o.ma with | .idx _ => true | _ => false) || (match o.mb with | .idx _ => true | _ => false)

/-- An operand is routed (R148). -/
def Opnd.routed (o : Opnd) : Bool := o.ma != .none || o.mb != .none

/-- No field holds a reserved value (code 5): the rules of R144–R165 and of the instruction's own description.
The three causes of R153 that depend on a group's size are decided at the group register. -/
def Entry.legal (e : Entry) (o : Opnd) : Bool :=
  let fm := (e.form o).at o.len
  let sc := o.et.scalar
  e.lens.contains o.len && e.ets.contains o.et && e.fs.contains o.f && e.xs.contains o.x
  && (o.gc != .always || o.gp == 4) && (o.gc == .always || fm.guard)
  && (!o.sat || fm.sat)
  && (o.la == 0 || (fm.la && fm.d.isV sc))
  && ((o.xr == 1 && o.xc == 1) || (fm.ext && !sc && fm.d.isV sc))
  && (o.gr == 0 || fm.gr || o.routed)
  && fm.d.ok sc o.d && fm.a.ok sc o.a && fm.b.ok sc o.b && (fm.c.ok sc o.c || o.indexed)
  && routeLegal o.ma fm.ma fm.a fm.c o && routeLegal o.mb fm.mb fm.b fm.c o
  && fm.extra

/-- Decodes one instruction that is no PAIR from its fields (R158–R173). -/
def decodeOne (op : Int) (o : Option Opnd) (zeroWord : Bool) : Except Reject Instr :=
  if op = 0 then .error (if zeroWord then .allZero else .unassigned)
  else if (-26 ≤ op ∧ op ≤ -1) ∨ 78 ≤ op then .error .higherLevel
  else if !(entries.any (fun e => e.op == op)) then .error .unassigned
  else match o with
    | none => .error .reservedField
    | some o =>
      match lookup op o.f o.x with
      | none => .error .reservedField
      | some e => if e.legal o then .ok (e.build o) else .error .reservedField

/-- The header of a PAIR (R167): L = +, OP = +15, every other trit 0. -/
def pairHeader : Word := .ofInt 46

/-- An inner word of a PAIR, decoded as a one-word instruction whatever its L holds (R167): the opcode, the operands
and the L trit. -/
def decodeInner (w : Word) : Except Reject (Int × Opnd × Int) :=
  let r := unpack1 w
  let op : Int := (r.op : Int) - 121
  if op = 15 then .error .reservedField
  else
    let o := mkOpnd op 1 r none .zero
    match decodeOne op o (w == .zero) with
    | .error e => .error e
    | .ok _ => match o with
      | none => .error .reservedField
      | some o => .ok (op, o, (r.l : Int) - 1)

/-- Decodes the instruction whose words stand first in the list, which ends at the fetch block (R155–R174). A PAIR's inner
words are checked in order (R167). -/
def decode (ws : List Word) : Except Reject Instr :=
  match ws with
  | [] => .error .straddle
  | w1 :: rest =>
    let r := unpack1 w1
    let op : Int := (r.op : Int) - 121
    if rest.length < r.l then .error .straddle
    else if op = 15 then
      match rest with
      | a :: b :: _ =>
        if w1 ≠ pairHeader then .error .reservedField
        else match decodeInner a, decodeInner b with
          | .ok (op1, o1, l1), .ok (op2, o2, l2) => .ok (.pair op1 o1 l1 op2 o2 l2)
          | .error e, _ => .error e
          | .ok _, .error f => .error f
      | _ => .error .reservedField
    else
      match r.l, rest with
      | 0, _ => decodeOne op (mkOpnd op 1 r none .zero) (w1 == .zero)
      | 1, w2 :: _ => decodeOne op (mkOpnd op 2 r (some (unpack2 w2)) .zero) (w1 == .zero)
      | 2, w2 :: w3 :: _ => decodeOne op (mkOpnd op 3 r (some (unpack2 w2)) w3) (w1 == .zero)
      | _, _ => .error .straddle

/-! ### Encoding -/

/-- The major opcode and the operands of an instruction that is no PAIR; `none` for a PAIR and for an event. -/
def Instr.parts : Instr → Option (Int × Opnd)
  | .add o => some (-121, o)
  | .sub o => some (-120, o)
  | .neg o => some (-119, o)
  | .abs o => some (-118, o)
  | .sgn o => some (-117, o)
  | .mul o => some (-116, o)
  | .mulh o => some (-115, o)
  | .mad o => some (-114, o)
  | .div o => some (-113, o)
  | .mod o => some (-112, o)
  | .min o => some (-111, o)
  | .max o => some (-110, o)
  | .clamp o => some (-109, o)
  | .shl o => some (-108, o)
  | .shr o => some (-107, o)
  | .rot o => some (-106, o)
  | .tmin o => some (-105, o)
  | .tmax o => some (-104, o)
  | .tsum o => some (-103, o)
  | .tcon o => some (-102, o)
  | .tmap o => some (-101, o)
  | .tcnt o => some (-100, o)
  | .tlz o => some (-99, o)
  | .text o => some (-98, o)
  | .tins o => some (-97, o)
  | .cmp o => some (-96, o)
  | .sel o => some (-95, o)
  | .mov o => some (-94, o)
  | .movBc o => some (-94, o)
  | .movK o => some (-94, o)
  | .movi o => some (-93, o)
  | .pack o => some (-92, o)
  | .unpack o => some (-91, o)
  | .idx o => some (-90, o)
  | .lget o => some (-89, o)
  | .lput o => some (-88, o)
  | .trx o => some (-87, o)
  | .vote o => some (-86, o)
  | .gred o => some (-85, o)
  | .gscan o => some (-84, o)
  | .hist o => some (-83, o)
  | .bsum o => some (-82, o)
  | .fadd o => some (-81, o)
  | .fsub o => some (-80, o)
  | .fmul o => some (-79, o)
  | .ffma o => some (-78, o)
  | .fadd3 o => some (-77, o)
  | .fdot3 o => some (-76, o)
  | .fmin o => some (-75, o)
  | .fmax o => some (-74, o)
  | .fabs o => some (-73, o)
  | .fcmp o => some (-72, o)
  | .fclass o => some (-71, o)
  | .fscl o => some (-70, o)
  | .fxp o => some (-69, o)
  | .frnd o => some (-68, o)
  | .rcp o => some (-67, o)
  | .rsq o => some (-66, o)
  | .sqrt o => some (-65, o)
  | .exp o => some (-64, o)
  | .log o => some (-63, o)
  | .sin o => some (-62, o)
  | .cos o => some (-61, o)
  | .tanh o => some (-60, o)
  | .sigm o => some (-59, o)
  | .cvt o => some (-58, o)
  | .cvtb o => some (-57, o)
  | .cvtf o => some (-56, o)
  | .quant o => some (-55, o)
  | .dquant o => some (-54, o)
  | .draw o => some (-53, o)
  | .ld o => some (-41, o)
  | .st o => some (-40, o)
  | .ldx o => some (-39, o)
  | .stx o => some (-38, o)
  | .pref o => some (-37, o)
  | .prefHome o => some (-37, o)
  | .clineZero o => some (-36, o)
  | .clineEvict o => some (-36, o)
  | .copyIn o => some (-35, o)
  | .copyOut o => some (-34, o)
  | .copyBin o => some (-33, o)
  | .copyPeer o => some (-32, o)
  | .copyCab o => some (-31, o)
  | .xfNeg o => some (-30, o)
  | .xfShift o => some (-30, o)
  | .xfZero o => some (-30, o)
  | .xfFill o => some (-30, o)
  | .xfClamp o => some (-30, o)
  | .xfCvt o => some (-30, o)
  | .xfRq o => some (-30, o)
  | .xfAcc o => some (-30, o)
  | .xfAdd o => some (-30, o)
  | .xfMin o => some (-30, o)
  | .xfMax o => some (-30, o)
  | .xfXchg o => some (-30, o)
  | .xfCas o => some (-30, o)
  | .xfTsum o => some (-30, o)
  | .wait o => some (-29, o)
  | .tkt o => some (-28, o)
  | .collAr o => some (-27, o)
  | .collRs o => some (-27, o)
  | .collAg o => some (-27, o)
  | .collBc o => some (-27, o)
  | .collSend o => some (-27, o)
  | .collRecv o => some (-27, o)
  | .nop o => some (1, o)
  | .br o => some (2, o)
  | .br3 o => some (3, o)
  | .brm o => some (4, o)
  | .jmp o => some (5, o)
  | .jmpr o => some (6, o)
  | .call o => some (7, o)
  | .callr o => some (8, o)
  | .ret o => some (9, o)
  | .exit o => some (10, o)
  | .part o => some (11, o)
  | .gwait o => some (12, o)
  | .reorder o => some (13, o)
  | .yield o => some (14, o)
  | .feat o => some (16, o)
  | .stamp o => some (17, o)
  | .lds o => some (31, o)
  | .sts o => some (32, o)
  | .atom o => some (33, o)
  | .red o => some (34, o)
  | .lease o => some (35, o)
  | .unlease o => some (36, o)
  | .publish o => some (37, o)
  | .fence o => some (38, o)
  | .wack o => some (42, o)
  | .bar o => some (39, o)
  | .cbar o => some (40, o)
  | .gphase o => some (41, o)
  | .mxIssue o => some (56, o)
  | .mxZero o => some (57, o)
  | .mxLoadc o => some (58, o)
  | .mxScale o => some (59, o)
  | .mxDrain o => some (60, o)
  | .mxSpill o => some (61, o)
  | .mxFill o => some (62, o)
  | .mxQry o => some (63, o)
  | .trap o => some (71, o)
  | .tret o => some (72, o)
  | .tpcSet o => some (73, o)
  | .tpcAdv o => some (73, o)
  | .tpcExit o => some (73, o)
  | .cwget o => some (74, o)
  | .cwset o => some (75, o)
  | .tlbfPage o => some (76, o)
  | .tlbfAs o => some (76, o)
  | .tlbfAll o => some (76, o)
  | .sleep o => some (77, o)
  | _ => none

/-- The words of an opcode with operands (R155, R158, R161). -/
def Opnd.words (op : Int) (o : Opnd) : List Word :=
  let w1 := pack1 (o.raw1 op ((o.len : Int) - 2))
  if o.len = 1 then [w1] else if o.len = 2 then [w1, pack2 o.raw2] else [w1, pack2 o.raw2, o.w3]

/-- The words of an instruction; `none` for an event, which has no encoding. -/
def encode (i : Instr) : Option (List Word) :=
  match i with
  | .pair op1 o1 l1 op2 o2 l2 => some [pairHeader, pack1 (o1.raw1 op1 l1), pack1 (o2.raw1 op2 l2)]
  | i => i.parts.map (fun p => p.2.words p.1)

/-- The 64-bit two's-complement value of a word in host form (R378); log entry 15. -/
def Word.ofHost (n : Nat) : Option Word :=
  let x : Int := if n < 2 ^ 63 then n else (n : Int) - 2 ^ 64
  if -3812798742493 ≤ x ∧ x ≤ 3812798742493 then some (.ofInt x) else none

/-- The instruction the decoder reads from the table's numbering of bits: each word is 64 bits in host form (R378),
the first word lowest, and every bit above is 0; log entry 15. -/
def decodeTableWord (_nbits w : Nat) : Option Instr := do
  let a ← Word.ofHost (w % 2 ^ 64)
  let b ← Word.ofHost (w / 2 ^ 64 % 2 ^ 64)
  let c ← Word.ofHost (w / 2 ^ 128 % 2 ^ 64)
  match decode [a, b, c] with
  | .ok i => some i
  | .error _ => none

end Sys2Proof
end

