-- ==== Sys2Proof/Machine/Float.lean ====
section
/-! DEFINITION. Ternary floating formats: exact values, classes, rounding (R23–R34), and the exact float operations (R251–R257). -/

namespace Sys2Proof

/-- An exact rational value `num / den`; `den` is not 0. -/
structure Q where
  num : Int
  den : Nat
deriving DecidableEq, Repr

/-- The integer `x`. -/
def Q.ofInt (x : Int) : Q := ⟨x, 1⟩

/-- m × 3^e (R26). -/
def Q.tern (m e : Int) : Q :=
  if 0 ≤ e then ⟨m * ((3 ^ e.toNat : Nat) : Int), 1⟩ else ⟨m, 3 ^ (-e).toNat⟩

def Q.add (a b : Q) : Q :=
  if a.den = b.den then ⟨a.num + b.num, a.den⟩ else ⟨a.num * b.den + b.num * a.den, a.den * b.den⟩
def Q.neg (a : Q) : Q := ⟨-a.num, a.den⟩
def Q.sub (a b : Q) : Q := a.add b.neg
def Q.mul (a b : Q) : Q := ⟨a.num * b.num, a.den * b.den⟩
def Q.lt (a b : Q) : Bool := a.num * b.den < b.num * a.den
def Q.eq (a b : Q) : Bool := a.num * b.den == b.num * a.den
def Q.abs (a : Q) : Q := ⟨a.num.natAbs, a.den⟩
/-- The sign of a − b (−1, 0, +1). -/
def Q.cmp (a b : Q) : Int := sgn (a.num * b.den - b.num * a.den)
/-- a × 3^k (R19). -/
def Q.scale3 (a : Q) (k : Int) : Q :=
  if 0 ≤ k then ⟨a.num * ((3 ^ k.toNat : Nat) : Int), a.den⟩ else ⟨a.num, a.den * 3 ^ (-k).toNat⟩
/-- The greatest integer not above `a`. -/
def Q.floor (a : Q) : Int := a.num / (a.den : Int)

/-- A ternary floating format: P significand trits, ew exponent trits, extreme exponent emax (R24, R25, R277). -/
structure FFmt where
  P : Nat
  ew : Nat
  emax : Int
deriving DecidableEq, Repr

/-- tf9 (R24). -/
def tf9F : FFmt := ⟨6, 3, 13⟩
/-- tf27 (R25). -/
def tf27F : FFmt := ⟨22, 5, 121⟩
/-- The accumulator of an extended tile (R277). -/
def extF : FFmt := ⟨72, 9, 9841⟩

/-- The value of an encoding: finite, an infinity (negative when the flag is true), or NaN (R27). -/
inductive FVal where
  | fin (q : Q)
  | inf (neg : Bool)
  | nan
deriving DecidableEq, Repr

/-- The classes of R27, with the sign of the significand. -/
inductive FClass where
  | canonZero | otherZero | normal (neg : Bool) | subnormal (neg : Bool) | unnormal (neg : Bool)
  | infinity (neg : Bool) | canonNaN | otherNaN
deriving DecidableEq, Repr

/-- The exponent field of an encoding. -/
def FFmt.expo (f : FFmt) (x : Int) : Int := field x (f.P + f.ew - 1) f.P
/-- The significand field as an integer, d0 at trit P−1. -/
def FFmt.sig (f : FFmt) (x : Int) : Int := wrap f.P x

/-- The class of an encoding (R27). -/
def FFmt.classify (f : FFmt) (x : Int) : FClass :=
  let e := f.expo x
  let m := f.sig x
  if trit m (f.P - 1) ≠ 0 then .normal (m < 0)
  else if e = f.emax then
    if m = ((3 ^ (f.P - 2) : Nat) : Int) then .infinity false
    else if m = -((3 ^ (f.P - 2) : Nat) : Int) then .infinity true
    else if m = ((3 ^ (f.P - 6) : Nat) : Int) then .canonNaN else .otherNaN
  else if m = 0 then if x = 0 then .canonZero else .otherZero
  else if e = -f.emax then .subnormal (m < 0) else .unnormal (m < 0)

/-- The value of an encoding; an unnormal or a zero of any form at its value (R26, R28). -/
def FFmt.decode (f : FFmt) (x : Int) : FVal :=
  match f.classify x with
  | .infinity n => .inf n
  | .canonNaN | .otherNaN => .nan
  | .canonZero | .otherZero => .fin ⟨0, 1⟩
  | .normal _ | .subnormal _ | .unnormal _ => .fin (Q.tern (f.sig x) (f.expo x - (f.P - 1 : Int)))

/-- The canonical NaN (R27): d5 is trit P − 6. -/
def FFmt.cnan (f : FFmt) : Int := f.emax * ((3 ^ f.P : Nat) : Int) + ((3 ^ (f.P - 6) : Nat) : Int)
/-- ±∞ (R27). -/
def FFmt.cinf (f : FFmt) (neg : Bool) : Int :=
  f.emax * ((3 ^ f.P : Nat) : Int) + (if neg then -1 else 1) * ((3 ^ (f.P - 2) : Nat) : Int)
/-- The largest finite value of a sign (R29, R31). -/
def FFmt.top (f : FFmt) (neg : Bool) : Int :=
  f.emax * ((3 ^ f.P : Nat) : Int) + (if neg then -1 else 1) * maxv f.P
/-- The largest finite magnitude as a value (R29). -/
def FFmt.topQ (f : FFmt) : Q := Q.tern (maxv f.P) (f.emax - f.P + 1)

/-- The exponent E with |x| in [0.5, 1.5) × 3^E of a non-zero value (R27). -/
def Q.expo (x : Q) : Int :=
  let g : Int := (tlen x.num : Int) - tlen x.den
  let below := fun (e : Int) => ((Q.scale3 ⟨2 * (x.num.natAbs : Int), x.den⟩ (-(e + 1))).lt ⟨1, 1⟩)
  if below (g - 1) then g - 1 else if below g then g else g + 1

/-- A magnitude q × 3^ex of the target's grid. -/
structure Pt where
  q : Int
  ex : Int
deriving DecidableEq, Repr

def Pt.val (p : Pt) : Q := Q.tern p.q p.ex

/-- The exponent of the last place of the significands around |x|: that of the format's least exponent where |x| is below
1.5 × 3^Emin, since the subnormals and the normals of exponent Emin share one grid (R29). -/
def FFmt.place (f : FFmt) (x : Q) : Int := max x.abs.expo (-f.emax) - f.P + 1

/-- The two neighbours of the magnitude |x| among the P-trit normal significands with an exponent unbounded above and,
up to 1.5 × 3^Emin, the multiples of 3^(Emin−P+1); the first is not above |x| and the second is above it (R30, R40). -/
def FFmt.neighbours (f : FFmt) (x : Q) : Pt × Pt :=
  let ex := f.place x
  let k := (x.abs.scale3 (-ex)).floor
  let top := maxv f.P                               -- + + … +
  let least := (((3 ^ (f.P - 1) + 1) / 2 : Nat) : Int)   -- + − … −
  let normal := -f.emax - f.P + 1 < ex
  (if normal ∧ k < least then ⟨top, ex - 1⟩ else ⟨k, ex⟩, if k = top then ⟨least, ex + 1⟩ else ⟨k + 1, ex⟩)

/-- A value is a terminating ternary value: its reduced denominator is a power of 3. -/
def Q.terminates (x : Q) : Bool :=
  let d := x.den / Nat.gcd x.num.natAbs x.den
  3 ^ (Nat.log2 d + 1) % d == 0

/-- |x| truncated by R18 at the last place of its significand: the nearest multiple, with no tie. -/
def FFmt.truncate (f : FFmt) (x : Q) : Pt :=
  let ex := f.place x
  ⟨((x.abs.scale3 (-ex)).add ⟨1, 2⟩).floor, ex⟩

/-- How a result is rounded: to nearest for ternary values, to nearest with the ties of R36 for binary ones,
or stochastically with a random word (R30, R36, R40). -/
inductive RMode where
  | tern
  | bin
  | stoch (r : Int)
deriving DecidableEq, Repr

/-- Chooses between the neighbours lo ≤ |x| < hi (R36, R40): true for hi.
`loEven` and `hiEven` say that the neighbour's last digit is 0. -/
def pickHi (mode : RMode) (a lo hi : Q) (loEven hiEven : Bool) : Bool :=
  match mode with
  | .stoch r =>
    -- u < f × 3^27 with f = (a − lo) / (hi − lo)
    let u : Int := r + 3812798742493
    ((Q.ofInt u).mul (hi.sub lo)).lt ((a.sub lo).mul (Q.ofInt 7625597484987))
  | _ =>
    let c := ((a.sub lo).sub (hi.sub a))
    if c.num > 0 then true else if c.num < 0 then false
    else if loEven then false else hiEven

/-- The magnitude to which a non-zero value is rounded (R30). DEDUCED, log entry 39: a terminating ternary value just above
0.5 × 3^E is truncated by R18, which keeps the exponent E, also where the top significand of exponent E − 1 lies nearer; the largest
relative error of R29 is reached there. In the mode of binary sources R36 rounds to nearest there, also where the value terminates
(DESIGN CHOICE, log entry 39: R30 and R36 do not say which goes first). -/
def FFmt.pick (f : FFmt) (mode : RMode) (x : Q) : Pt :=
  if mode = .tern ∧ x.terminates = true then f.truncate x
  else
    let (lo, hi) := f.neighbours x
    if (lo.val).eq x.abs then lo
    else if pickHi mode x.abs lo.val hi.val (lo.q % 3 == 0) (hi.q % 3 == 0) then hi else lo

/-- Rounds an exact value to the encoding of a ternary float (R30, R31). -/
def FFmt.round (f : FFmt) (sat : Bool) (mode : RMode) (x : Q) : Int :=
  if x.num = 0 then 0 else
  let neg := x.num < 0
  let p := f.pick mode x
  if p.q = 0 then 0 else
  let e := p.ex + f.P - 1
  if e > f.emax then if sat then f.top neg else f.cinf neg
  else e * ((3 ^ f.P : Nat) : Int) + (if neg then -p.q else p.q)

/-- Delivers a value: rounded when finite, an infinity unchanged, the canonical NaN (R28, R31, R251). -/
def FFmt.deliver (f : FFmt) (sat : Bool) (mode : RMode) : FVal → Int
  | .fin q => f.round sat mode q
  | .inf n => f.cinf n
  | .nan => f.cnan

/-- Rounds an exact value to the nearest integer (R30, R36), or stochastically (R40). -/
def roundInt (mode : RMode) (x : Q) : Int :=
  let a := x.abs
  let lo := a.floor
  let r := if (Q.ofInt lo).eq a then lo
           else if pickHi mode a (.ofInt lo) (.ofInt (lo + 1)) (lo % 3 == 0) ((lo + 1) % 3 == 0)
                then lo + 1 else lo
  if x.num < 0 then -r else r

/-- Delivers a value as an n-trit integer: rounded, then wrapped or saturated; NaN gives 0 and ±∞ the extreme of its sign
(R37, R267). -/
def deliverInt (n : Nat) (s : Bool) (mode : RMode) : FVal → Int
  | .fin q => narrow n s (roundInt mode q)
  | .inf neg => if neg then -(maxv n) else maxv n
  | .nan => 0

namespace FVal

def isNan : FVal → Bool | .nan => true | _ => false
def isZero : FVal → Bool | .fin q => q.num == 0 | _ => false
/-- The sign of a value that is not NaN. -/
def sign : FVal → Int | .fin q => sgn q.num | .inf n => if n then -1 else 1 | .nan => 0

def neg : FVal → FVal
  | .fin q => .fin q.neg
  | .inf n => .inf (!n)
  | .nan => .nan

/-- The product with the specials of R251. -/
def mul (a b : FVal) : FVal :=
  match a, b with
  | .nan, _ | _, .nan => .nan
  | .fin p, .fin q => .fin (p.mul q)
  | a, b => if a.sign * b.sign = 0 then .nan else .inf (a.sign * b.sign < 0)

/-- The sum of two terms with the specials of R251. -/
def add (a b : FVal) : FVal :=
  match a, b with
  | .nan, _ | _, .nan => .nan
  | .fin p, .fin q => .fin (p.add q)
  | .inf m, .inf n => if m = n then .inf m else .nan
  | .inf m, .fin _ | .fin _, .inf m => .inf m

/-- The exact sum of a list of terms (R251). -/
def sum (l : List FVal) : FVal := l.foldl add (.fin ⟨0, 1⟩)

/-- The order −∞ < finite < +∞ of R255, for values that are not NaN. -/
def cmp (a b : FVal) : Int :=
  match a, b with
  | .fin p, .fin q => p.cmp q
  | .inf m, .inf n => if m = n then 0 else if m then -1 else 1
  | .inf m, _ => if m then -1 else 1
  | _, .inf n => if n then 1 else -1
  | _, _ => 0

/-- FMIN (R254). -/
def min (a b : FVal) : FVal := if a.isNan || b.isNan then .nan else if cmp a b ≤ 0 then a else b
/-- FMAX (R254). -/
def max (a b : FVal) : FVal := if a.isNan || b.isNan then .nan else if cmp a b ≥ 0 then a else b
def abs (a : FVal) : FVal := match a with | .fin q => .fin q.abs | .inf _ => .inf false | .nan => .nan
/-- a × 3^k (R41). -/
def scale3 (a : FVal) (k : Int) : FVal := match a with | .fin q => .fin (q.scale3 k) | x => x

end FVal

/-- FADD3's rounding of three terms (R252), with an overflow choice. -/
def fadd3 (f : FFmt) (s : Bool) (a b c : Int) : Int :=
  f.deliver s .tern (FVal.sum [f.decode a, f.decode b, f.decode c])

/-- The conversion of a tf9 element to tf27, which keeps the prefix of a NaN (R34). -/
def widen9 (x : Int) : Int :=
  match tf9F.decode x with
  | .nan => 121 * ((3 ^ 22 : Nat) : Int) + tf9F.sig x * ((3 ^ 16 : Nat) : Int)
  | v => tf27F.deliver false .tern v

/-- The conversion of a tf27 word to tf9 (R34). -/
def narrowTo9 (s : Bool) (x : Int) : Int := tf9F.deliver s .tern (tf27F.decode x)

end Sys2Proof
end

