-- ==== Sys2Proof/Config.lean ====
section
/-! DEFINITION. What the implementation fixes, and the free values: constants with no body, of which nothing can be proved. -/

namespace Sys2Proof

/-- The value of a special function whose interval does not decide at the greatest precision tried.
R259 shows this never arises; log entry 34. -/
opaque Config.sfuOpen : Nat → Int → Nat → Int

/-- Free choice number `i`: which pending step comes next, and the other choices the spec leaves open; log entry 3. -/
opaque Config.choice : Nat → Nat

/-- Byte `k` of draw number `i` of the conditioned entropy source (R454); log entry 32. -/
opaque Config.entropy : Nat → Nat → BitVec 8

/-- A selector to which no table of the spec gives a word is that of a stamp control word (R399); log entry 22. -/
opaque Config.stampWord : Int → Bool

/-- Reading number `i` of the package's power sensors: PWR and the joules that ENERGY gains (R445); log entry 14. -/
opaque Config.reading : Nat → Int

/-- The digest that the boot extends into MEAS0, MEAS2 and MEAS3: the spec names what is hashed and not its bytes (R453). The first
argument numbers the item, the others are its contents; log entry 35. -/
opaque Config.bootDigest : Nat → List Int → List (BitVec 8) → List (BitVec 8)

/-- Word `i` of line number `k` that the device writes into a shadow pool, whose layout the spec does not give (R390); log entry 7. -/
opaque Config.poolWord : Nat → Nat → Int

/-- Reading of sensor `i` at a cycle: IRAIL of the four dies, TEMP of the four dies, and the power U of what is no core (R460); log
entry 9. -/
opaque Config.sensor : Nat → Nat → Int

/-- The stepping of FEAT word 0, "from 1" (R176); log entry 13. -/
def Config.stepping : Int := 1

end Sys2Proof
end

