-- ==== Sys2Proof/Machine/Image.lean ====
section
/-! DEFINITION. What the binary shell stores: the Reed–Solomon check, TP5 images of T-lines and B-lines, compressed
images, and HBM as a sparse list of bytes (R45–R57, R107). -/

namespace Sys2Proof.Machine

/-! ### GF(2^8) and the check of R53 -/

/-- Doubling modulo 0x11D (R53). -/
def gfDouble (a : Nat) : Nat := if a < 128 then 2 * a else (2 * a) ^^^ 0x11D

/-- The product in GF(2^8), bit by bit of `b`. -/
def gfMulFrom (a b : Nat) : Nat → Nat
  | 0 => 0
  | k + 1 => (if b % 2 = 1 then a else 0) ^^^ gfMulFrom (gfDouble a) (b / 2) k

def gfMul (a b : Nat) : Nat := gfMulFrom a b 8

/-- a^k. -/
def gfPow (a : Nat) : Nat → Nat
  | 0 => 1
  | k + 1 => gfMul a (gfPow a k)

/-- The inverse a^254. -/
def gfInv (a : Nat) : Nat := gfPow a 254

/-- α^k. -/
def gfAlpha : Nat → Nat
  | 0 => 1
  | k + 1 => gfDouble (gfAlpha k)

/-- Multiplies a polynomial (highest degree first) by (x − α^k). -/
def rsTimes (p : List Nat) (k : Nat) : List Nat :=
  List.zipWith (fun a b => a ^^^ b) (p ++ [0]) (0 :: p.map (gfMul (gfAlpha k)))

/-- The generator's coefficients below the leading 1, highest degree first (R53). -/
def rsGen : List Nat := (((List.range 12).foldl rsTimes [1])).drop 1

/-- The 12 check bytes of the data bytes (R53). -/
def rsCheck (data : List Nat) : List Nat :=
  data.foldl (fun rem d =>
    let fb := d ^^^ rem.headD 0
    if fb = 0 then rem.drop 1 ++ [0]
    else List.zipWith (fun a g => a ^^^ gfMul g fb) (rem.drop 1 ++ [0]) rsGen) (List.replicate 12 0)

/-- The value of a polynomial, highest degree first. -/
def gfEval (p : List Nat) (x : Nat) : Nat := p.foldl (fun acc c => gfMul acc x ^^^ c) 0

/-- The twelve syndromes of a codeword. -/
def rsSyndromes (c : List Nat) : List Nat := (List.range 12).map (fun i => gfEval c (gfAlpha i))

/-- Berlekamp and Massey's iteration over the syndromes: the locator, lowest degree first, and its length. -/
def rsLocator (syn : List Nat) : List Nat × Nat :=
  let r := (List.range 12).foldl (fun (st : List Nat × List Nat × Nat × Nat × Nat) n =>
    let (c, b, l, m, bd) := st
    let d := (List.range (l + 1)).foldl (fun acc i => acc ^^^ gfMul (c.getD i 0) (syn.getD (n - i) 0)) 0
    if d = 0 then (c, b, l, m + 1, bd)
    else
      let k := gfMul d (gfInv bd)
      let t := List.replicate m 0 ++ b.map (gfMul k)
      let len := max c.length t.length
      let c' := (List.range len).map (fun i => c.getD i 0 ^^^ t.getD i 0)
      if 2 * l ≤ n then (c', c, n + 1 - l, 1, d) else (c', b, l, m + 1, bd)) ([1], [1], 0, 1, 1)
  (r.1, r.2.2.1)

/-- Corrects up to six erroneous bytes (R53): the codeword and the number of corrections. -/
def rsCorrect (c : List Nat) : Option (List Nat × Nat) :=
  let syn := rsSyndromes c
  if syn.all (· == 0) then some (c, 0)
  else
    let (loc, l) := rsLocator syn
    let n := c.length
    let ev := fun (x : Nat) => gfEval loc.reverse x
    let bad := (List.range n).filter (fun k => ev (gfInv (gfAlpha (n - 1 - k))) == 0)
    if l > 6 ∨ bad.length ≠ l then none
    else
      let omega := (List.range 12).map (fun i =>
        (List.range (i + 1)).foldl (fun acc j => acc ^^^ gfMul (loc.getD j 0) (syn.getD (i - j) 0)) 0)
      let deriv := (List.range loc.length).map (fun i => if i % 2 = 0 then loc.getD (i + 1) 0 else 0)
      let fixed := (List.range n).map (fun k =>
        if bad.contains k then
          let x := gfAlpha (n - 1 - k)
          let xi := gfInv x
          c.getD k 0 ^^^ gfMul x (gfMul (gfEval omega.reverse xi) (gfInv (gfEval deriv.reverse xi)))
        else c.getD k 0)
      if (rsSyndromes fixed).all (· == 0) then some (fixed, l) else none

/-! ### Digits of a line -/

/-- The unbalanced digits of a word, trit [0] first. -/
def wordDigits (w : Word) : List Nat := (List.range 27).map (fun i => w.num / 3 ^ i % 3)

/-- The number of a list of digits, the first least significant. -/
def digitsNat (l : List Nat) : Nat := l.foldr (fun d acc => d + 3 * acc) 0

/-- Cuts a list into groups of n, at most `fuel` of them. -/
def groupsOf {α : Type} (n : Nat) : Nat → List α → List (List α)
  | 0, _ => []
  | fuel + 1, l => if l.isEmpty then [] else l.take n :: groupsOf n fuel (l.drop n)

/-- The 729 digits of a line (R49). -/
def lineDigits (l : Line) : List Nat := (l.w.map wordDigits).flatten

/-- The line of 729 digits. -/
def lineOfDigits (d : List Nat) : Line := ⟨(groupsOf 27 27 d).map (fun g => .ofNum (digitsNat g)), false⟩

/-- The line of zero words. -/
def zeroLine : Line := ⟨List.replicate 27 .zero, false⟩

/-- A poisoned line; its words are not data (R394). -/
def poisonLine : Line := ⟨List.replicate 27 .zero, true⟩

/-- TP5 packing of digits, five to a byte (R51). -/
def tp5 (d : List Nat) : List Nat := (groupsOf 5 200 d).map digitsNat

/-- The digits of a TP5 byte, n of them (R51). -/
def tp5Digits (n b : Nat) : List Nat := (List.range n).map (fun i => b / 3 ^ i % 3)

/-- The two metadata bytes (R52) from POI, FMT, CMP, CGC and DGEN as trits. -/
def metaBytes (poi fmt cmp cgc dgen : Int) : List Nat :=
  [digitsNat ([poi, fmt, cmp, cgc, dgen].map (fun t => (t + 1).toNat)), 121]

/-- Adds the check to data bytes (R53). -/
def withCheck (data : List Nat) : List Nat := data ++ rsCheck data

/-- The image of an uncompressed T-line (R50, R54). -/
def imageT (l : Line) : List Nat :=
  if l.poison then withCheck (metaBytes 1 1 0 0 0 ++ List.replicate 146 255)
  else withCheck (metaBytes 0 1 0 0 0 ++ tp5 (lineDigits l))

/-- The check bytes of the zero T-line's image. -/
def zeroCheck : List Nat := [22, 108, 30, 79, 88, 119, 125, 212, 82, 19, 221, 101]

/-- Byte k of the zero T-line's image (R52). -/
def zeroByte (k : Nat) : Nat :=
  if k = 0 then 124 else if k < 147 then 121 else if k = 147 then 40 else zeroCheck.getD (k - 148) 0

/-! ### B-lines -/

/-- The trits of a B-line of 128 bytes, packed by B3T2 (R57). -/
def lineOfBytes (b : List Nat) : Line :=
  let bits := (b.map (fun x => (List.range 8).map (fun i => x / 2 ^ i % 2))).flatten
  let grp := fun (j : Nat) =>
    let v := bits.getD (3 * j) 0 + 2 * bits.getD (3 * j + 1) 0 + 4 * bits.getD (3 * j + 2) 0
    [v % 3, v / 3]                                   -- v − 4 in two balanced trits has the digits of v
  lineOfDigits (((List.range 341).map grp).flatten ++ [1 + bits.getD 1023 0] ++ List.replicate 46 1)

/-- The 128 bytes of a B-line's trits (R57). -/
def bytesOfLine (l : Line) : List Nat :=
  let d := lineDigits l
  let bits := ((List.range 341).map (fun j =>
      let v := d.getD (2 * j) 1 + 3 * d.getD (2 * j + 1) 1
      [v % 2, v / 2 % 2, v / 4 % 2])).flatten ++ [d.getD 682 1 - 1]
  (groupsOf 8 128 bits).map (fun g => g.foldr (fun b acc => b + 2 * acc) 0)

/-- The image of a B-line (R56). -/
def imageB (l : Line) : List Nat :=
  if l.poison then withCheck (metaBytes 1 (-1) 0 0 0 ++ List.replicate 128 255 ++ List.replicate 18 0)
  else withCheck (metaBytes 0 (-1) 0 0 0 ++ bytesOfLine l ++ List.replicate 18 0)

/-- The zero line of a B-frame (R47). -/
def zeroLineB : Line := lineOfBytes (List.replicate 128 0)

/-! ### Compressed T-lines -/

/-- The 81 trytes of a line. -/
def lineTrytes (l : Line) : List Int := (l.w.map (fun w => [sub9 w.val 0, sub9 w.val 1, sub9 w.val 2])).flatten

/-- The line of 81 trytes. -/
def lineOfTrytes (t : List Int) : Line :=
  ⟨(groupsOf 3 27 t).map (fun g => .ofInt (ofSubs (g.getD 0 0) (g.getD 1 0) (g.getD 2 0))), false⟩

/-- The code of one tryte under a table, as digits (R107). -/
def tryteCode (table : List Int) (t : Int) : List Nat :=
  let digits := fun (n q : Nat) => (List.range n).map (fun i => q / 3 ^ i % 3)
  match table.findIdx? (· == t) with
  | some r =>
    if r < 3 then 1 :: digits 1 r
    else if r < 30 then 2 :: digits 3 (r - 3)
    else if r < 273 then [0, 1] ++ digits 5 (r - 30)
    else [0, 2] ++ digits 9 (t + 9841).toNat
  | none => [0, 2] ++ digits 9 (t + 9841).toNat

/-- The code stream of a line (R107). -/
def codeStream (table : List Int) (l : Line) : List Nat := ((lineTrytes l).map (tryteCode table)).flatten

/-- Decodes one tryte and the rest of the stream (R107). -/
def decodeTryte (table : List Int) (s : List Nat) : Option (Int × List Nat) :=
  let rank := fun (r : Nat) (rest : List Nat) => if r < table.length then some (table.getD r 0, rest) else none
  let q := fun (n : Nat) (l : List Nat) => digitsNat (l.take n)
  match s with
  | 1 :: t => if t.length < 1 then none else rank (q 1 t) (t.drop 1)
  | 2 :: t => if t.length < 3 then none else rank (3 + q 3 t) (t.drop 3)
  | 0 :: 1 :: t => if t.length < 5 then none else rank (30 + q 5 t) (t.drop 5)
  | 0 :: 2 :: t => if t.length < 9 then none else some ((q 9 t : Int) - 9841, t.drop 9)
  | _ => none

/-- Decodes `n` trytes; the rest must be zero padding (R107). -/
def decodeStream (table : List Int) : Nat → List Nat → Option (List Int)
  | 0, s => if s.all (· == 1) then some [] else none
  | n + 1, s => match decodeTryte table s with
    | none => none
    | some (t, rest) => (decodeStream table n rest).map (t :: ·)

/-- The compressed image of a line under the table of a denomination slot; `none` where the stream does not fit (R55). -/
def imageC (table : List Int) (slot : Int) (l : Line) : Option (List Nat) :=
  let s := codeStream table l
  let k : Nat := if s.length ≤ 250 then 2 else if s.length ≤ 410 then 3 else 4
  if s.length > 570 ∨ l.poison then none
  else
    let room : Nat := (32 * k - 14) * 5
    some (withCheck (metaBytes 0 1 1 (Int.ofNat k - 3) slot ++ tp5 (s ++ List.replicate (room - s.length) 1)))

/-! ### Reading an image -/

/-- What the shell delivers for an image (R53–R56, R62). -/
structure Read where
  line : Line
  /-- the image is compressed, with its denomination slot -/
  cmp : Bool
  dgen : Int
  /-- bytes corrected -/
  fixed : Nat
  /-- the read could not be corrected (R62) -/
  bad : Bool
deriving DecidableEq, Repr

/-- An uncorrectable read: the line is delivered poisoned (R62). -/
def Read.uncorrectable : Read := { line := poisonLine, cmp := false, dgen := 0, fixed := 0, bad := true }

/-- The metadata trits POI, FMT, CMP, CGC, DGEN of two bytes, where they are TP5 codes (R51, R52). -/
def metaOf (b0 b1 : Nat) : Option (Int × Int × Int × Int × Int) :=
  if b0 > 242 ∨ b1 > 242 then none
  else
    let d := (tp5Digits 5 b0).map (fun (x : Nat) => (x : Int) - 1)
    let g := fun (i : Nat) => d.getD i 0
    some (g 0, g 1, g 2, g 3, g 4)

/-- A metadata field holds a reserved value (R52). DESIGN CHOICE, log entry 56: so does a CGC or a DGEN other than 0 where CMP is 0. -/
def metaReserved (m : Int × Int × Int × Int × Int) : Bool :=
  let (poi, fmt, cmp, cgc, dgen) := m
  poi == -1 || fmt == 0 || cmp == -1 || (cmp == 0 && (cgc != 0 || dgen != 0))

/-- The metadata names a length of k granules; five is an uncompressed image (R52, R55). -/
def metaGranules (m : Int × Int × Int × Int × Int) : Nat :=
  let (_, _, cmp, cgc, _) := m
  if cmp = 1 then (cgc + 3).toNat else 5

/-- The payload of an uncompressed image: a B-line's raw bytes, or a T-line's groups (R50, R54, R56). -/
def readFull (b : Bool) (c : List Nat) : Option Line :=
  if b then some (lineOfBytes ((c.drop 2).take 128))
  else
    let pay := (c.drop 2).take 146
    if pay.any (· > 242) ∨ c.getD 147 0 > 80 then none
    else some (lineOfDigits (((pay.take 145).map (tp5Digits 5)).flatten ++ tp5Digits 4 (pay.getD 145 0)))

/-- The payload of a compressed image of k granules, with the die's tables (R55, R107). -/
def readCompressed (tables : List (Option (List Int))) (k : Nat) (dgen : Int) (c : List Nat) : Option Line :=
  let pay := (c.drop 2).take (32 * k - 14)
  match tables.getD (dgen + 1).toNat none with
  | none => none
  | some table =>
    if pay.any (· > 242) then none
    else (decodeStream table 81 ((pay.map (tp5Digits 5)).flatten)).map lineOfTrytes

/-- What the shell delivers for a corrected codeword of k granules with its metadata, by the checks of R54: `b` says that the
slot belongs to a B-frame, whose metadata has FMT = −. DESIGN CHOICE, log entry 62: a B-frame's image that says it is compressed is
decoded as a compressed one. -/
def judge (b : Bool) (tables : List (Option (List Int))) (k : Nat) (m : Int × Int × Int × Int × Int) (c : List Nat) (fixed : Nat) : Read :=
  let (poi, fmt, cmp, _, dgen) := m
  if metaReserved m || fmt != (if b then -1 else 1) then .uncorrectable
  else if poi = 1 then { line := poisonLine, cmp := false, dgen := 0, fixed := fixed, bad := false }
  else match (if cmp = 1 then readCompressed tables k dgen c else readFull b c) with
    | some l => { line := l, cmp := cmp == 1, dgen := dgen, fixed := fixed, bad := false }
    | none => .uncorrectable

/-- Decodes a slot's bytes as k granules: `none` where more than six bytes are wrong, or the corrected metadata names another
length (R53, R55; DESIGN CHOICE, log entry 62: this also where the stored metadata was plausible, with no further try). -/
def readAs (b : Bool) (tables : List (Option (List Int))) (c : List Nat) (k : Nat) : Option Read :=
  match rsCorrect (c.take (32 * k)) with
  | none => none
  | some (c', n) => match metaOf (c'.getD 0 255) (c'.getD 1 255) with
    | none => none
    | some m => if metaGranules m = k then some (judge b tables k m c' n) else none

/-- Reads a slot's 160 bytes (R53–R56): granules by CGC, or where the metadata is damaged the first length that qualifies. -/
def readImage (b : Bool) (tables : List (Option (List Int))) (c : List Nat) : Read :=
  let tries := match metaOf (c.getD 0 255) (c.getD 1 255) with
    | some m => if metaReserved m then [5, 4, 3, 2] else [metaGranules m]
    | none => [5, 4, 3, 2]
  (tries.findSome? (readAs b tables c)).getD .uncorrectable

/-! ### HBM -/

/-- What an unlisted address of HBM reads as: the byte of the zero T-line's image (R46, R448 step 6). -/
def hbmDefault (a : Nat) : BitVec 8 := BitVec.ofNat 8 (zeroByte (a % 160))

/-- The byte at an address. -/
def hbmGet (m : List Host.Cell) (a : Nat) : BitVec 8 :=
  match m with
  | [] => hbmDefault a
  | (k, v) :: t => if k = a then v else hbmGet t a

/-- Writes a byte and keeps the canonical form. -/
def hbmPut (m : List Host.Cell) (a : Nat) (v : BitVec 8) : List Host.Cell :=
  match m with
  | [] => if v = hbmDefault a then [] else [(a, v)]
  | (k, u) :: t =>
    if k < a then (k, u) :: hbmPut t a v
    else if k = a then (if v = hbmDefault a then t else (a, v) :: t)
    else if v = hbmDefault a then (k, u) :: t else (a, v) :: (k, u) :: t

/-- Writes bytes from an address on. -/
def hbmPutAll (m : List Host.Cell) (a : Nat) : List Nat → List Host.Cell
  | [] => m
  | b :: t => hbmPutAll (hbmPut m a (BitVec.ofNat 8 b)) (a + 1) t

/-- Addresses strictly rising from `lo` on, and no entry equal to what an unlisted address reads as. -/
def hbmWfFrom (lo : Nat) : List Host.Cell → Bool
  | [] => true
  | (k, v) :: t => lo ≤ k && v != hbmDefault k && hbmWfFrom (k + 1) t

/-- The canonical form of memory. -/
def Memory.wf (m : List Host.Cell) : Bool := hbmWfFrom 0 m

/-- A slot none of whose bytes is listed. -/
def hbmUntouched (m : List Host.Cell) (slot : Nat) : Bool := m.all (fun c => c.1 / 160 != slot)

/-- The 160 bytes of a slot. -/
def hbmSlot (m : List Host.Cell) (slot : Nat) : List Nat :=
  (List.range 160).map (fun k => (hbmGet m (160 * slot + k)).toNat)

end Sys2Proof.Machine
end

