-- ==== Sys2Proof/Machine/State.lean ====
section
/-! DEFINITION. The state of the machine as plain data, its reset value, and the reasons to stop. -/

namespace Sys2Proof.Machine

/-- The reasons for which the machine stops.
The spec's own faults are traps and error events, each a next state, so none of them stands here. -/
inductive Fault where
  /-- Raised by `step` when the machine has asserted THERMTRIP (R461): issue has stopped on every core, and only removing
  power and a cold reset go on. Safe: nothing more happens in the model. -/
  | thermtrip
deriving DecidableEq, Repr

/-- The reasons for which an instruction has no meaning. -/
inductive Refusal where
  /-- Raised by an arm of `exec` whose meaning has not been written. Safe. -/
  | notModelled (mnemonic : String)
deriving DecidableEq, Repr

/-! ### Threads and squads -/

/-- Where a pending register result comes from (R165, R260, R297, R319). -/
inductive WinSrc where
  | load | sfu | serial | query
deriving DecidableEq, Repr

/-- A pending result of a v register (R165, R166, R387): it is written once `left` further instructions have counted and
the data has arrived; a register with `left = 0` and no data is interlocked. `past` counts the instructions since then, so that
`left - past` tells where among the thread's instructions the write stands. -/
structure Win where
  reg : Nat
  val : Word
  left : Nat
  past : Nat := 0
  arrived : Bool
  src : WinSrc
deriving DecidableEq, Repr

/-- What a thread is doing (R347, R368, R386). -/
inductive Run where
  /-- runnable -/
  | ready
  /-- retired by EXIT (R241) -/
  | exited
  /-- parked on a recoverable fault (R86) -/
  | parked
  /-- trapped (R368) -/
  | trapped
  /-- arrived at BAR `i` (R326) -/
  | bar (i : Nat)
  /-- arrived at CBAR (R327) -/
  | cbar
  /-- arrived at GPHASE (R328) -/
  | gphase
  /-- blocked until its publications are acknowledged (PUBLISH, R325) -/
  | ackPub
  /-- blocked until its writes and publications are acknowledged (WACK and the release step, R312, R324) -/
  | ackAll
  /-- blocked at WAIT until the command with this SEQ is complete (R202) -/
  | wait (seq : Nat)
  /-- asleep on a line until a cycle (R380) -/
  | sleep (slot deadline : Nat)
  /-- blocked until a shootdown completes (R379) -/
  | shoot (id : Nat)
  /-- blocked with the other lanes of its ATOM or RED until the release steps of all of them are done (R322) -/
  | ackLanes
  /-- waiting for a LEASE to be granted (R330) -/
  | lease
  /-- its engine issue is stalled until a range-lock entry is freed (R131) -/
  | lock
deriving DecidableEq, Repr

/-- A lease record (R330–R334): the line's virtual number n div 81, its slot, the image, and the countdown. -/
structure LeaseRec where
  vline : Nat
  slot : Nat
  /-- the mark of R75 that a commit gives, and what pins the line (R93) -/
  elig : Bool := false
  pin : Option (Nat × Nat) := none
  image : Line
  valid : Bool
  count : Nat
  /-- leased at its home (R112) -/
  atHome : Bool
  /-- granted -/
  granted : Bool
deriving DecidableEq, Repr

/-- A thread (R138, R344). `preds` holds p1 … p8. -/
structure Thread where
  regs : List Word
  preds : List Trit
  pc : Word
  run : Run
  wins : List Win
  /-- the cycle of its launch or of its last YIELD (R351) -/
  age : Nat
  /-- the fault address of a stopped thread, and the words of the instruction at which it stopped or waits (R371, R386) -/
  fault : Word
  instr : List Word
  /-- where it waits again once the fault of a publication for which it parks is resolved (R84) -/
  back : Option Run := none
  leases : List LeaseRec
  /-- publications, and other synchronising writes, not yet acknowledged (R312, R324) -/
  unackPub : Nat
  unackSyn : Nat
  /-- cycles counted at a convergence point (R349) -/
  conv : Nat
deriving DecidableEq, Repr

/-- A queued special-function result (R260): its register in each lane, or a k register's value. -/
structure SfuEntry where
  reg : Nat
  lanes : List Nat
  /-- the value for a k register of the normal bank (false) or the trap bank (true) -/
  k : Option (Bool × Word)
deriving DecidableEq, Repr

/-- A squad (R138, R142, R143): 27 threads, the two k banks, the handler predicates p1 … p8, and g1 … gGSLOT. -/
structure Squad where
  threads : List Thread
  kb : List Word
  tb : List Word
  hp : List Trit
  groups : List (List Word)
  sfuq : List SfuEntry
  /-- k registers of the normal bank (false) or the trap bank (true) that await a serial (R319) -/
  kwait : List (Bool × Nat)
  /-- frozen for a trap handler (R372) -/
  frozen : Bool
deriving DecidableEq, Repr

/-! ### Teams -/

/-- One word of an escrow line: its place, value, writer and stale mark (R301, R83). -/
structure EWord where
  i : Nat
  val : Word
  writer : Nat
  stale : Bool
deriving DecidableEq, Repr

/-- An escrow line, by its virtual line number n div 81, with the translation of its latest store (R301). A line that holds no entry
stays while a publication carries words of it (R306). -/
structure ELine where
  vline : Nat
  /-- the slot of its translation and the eligibility its writes give (R75, R76) -/
  slot : Nat
  elig : Bool
  words : List EWord
  /-- it lies in a B-page (R79) -/
  b : Bool := false
  /-- what pins the line at its home (R93) -/
  pin : Option (Nat × Nat) := none
  /-- it lies in the spill area (R95, R303) -/
  spilled : Bool := false
  /-- its place in the order in which escrow lines enter L1s (R95) -/
  born : Nat := 0
  /-- stored trits in error (R96); log entry 57 -/
  flips : List Nat := []
deriving DecidableEq, Repr

/-- A RED partial of a DET grid (R337): thread, word, kind and value; in program order of first use. -/
structure Part where
  thread : Nat
  va : Word
  /-- the physical address of the word as its latest RED found it; none once a shootdown has named its page (R83) -/
  pa : Option Nat := none
  op : Int
  et : ETy
  val : Word
deriving DecidableEq, Repr

/-- A publication in flight (R306): the lines sent and not yet acknowledged, those that a fault holds back (R84), those whose
translation is under way, those that failed with the reason, and what waits for it. -/
structure Pub where
  id : Nat
  lines : List ELine
  held : List ELine
  again : List ELine
  failed : List (ELine × Refused)
  waiter : PubWaiter
deriving DecidableEq, Repr

/-- A cabinet range of a team, or a range of virtual addresses (by number), from `lo` up to but not including `hi` (R131). -/
structure Rng where
  /-- the team whose cabinet it is; none for a global range -/
  cab : Option Nat
  lo : Int
  hi : Int
  write : Bool
deriving DecidableEq, Repr

/-- An engine or matrix command (R125–R137, R282, R388). -/
structure Cmd where
  seq : Nat
  /-- its place in the order in which commands reach the scoreboards (R133) -/
  born : Nat
  instr : Instr
  /-- the values of v(A), v(B), v(B + 1), v(C) and v(C + 1) that the command took at issue -/
  opa : Word
  opb : Word
  opb1 : Word
  opc : Word
  opc1 : Word
  /-- the descriptor, parameter block or COLL descriptor as read at issue -/
  desc : List Word
  /-- the index list, rank list or index vector as read at issue -/
  list : List Word
  thread : Nat
  ranges : List Rng
  /-- it holds a range-lock entry (R131) -/
  locked : Bool
  begun : Bool
  /-- elements performed (R137), the drawers whose pieces remain (R122), and their place in the order in which pieces come to drawers
  (R120) -/
  done : Nat
  pieces : List Nat
  queued : Nat := 0
  parked : Bool
  fault : Word
  /-- the status with which it ended, before its record is kept -/
  status : Option Nat
  /-- lines sent to a peer, or pulls, not yet answered (R128, R209) -/
  outstanding : Nat
deriving DecidableEq, Repr

/-- A completion record (R201). -/
structure Rec where
  seq : Nat
  status : Nat
  addr : Word
  count : Int
  delivered : Bool
deriving DecidableEq, Repr

/-- A waiting MX.QRY (R297): its place in the tile's order, its tile, whether it clears, and where it delivers. -/
structure Query where
  after : Nat
  tile : Nat
  clear : Bool
  reg : Nat
  dest : List TRef
deriving DecidableEq, Repr

/-- An accumulator (R276–R278): the 81 trits as a balanced value and the tag. -/
structure Acc where
  q : Int
  tag : Int
deriving DecidableEq, Repr

/-- A coffer tile (R275, R279). An accumulator that is not listed is zero and finite. -/
structure Tile where
  ext : Bool
  ovf : Bool
  inx : Bool
  acc : List (Nat × Acc)
deriving DecidableEq, Repr

/-- A trap event (R371, R372). -/
structure TrapEv where
  cause : Nat
  detail : Int
  squad : Nat
  lanes : List Nat
  stamp : Nat
  /-- the address of the trapping instruction -/
  pc : Word
  instr : List Word
  aux : Word
  /-- the fault addresses of its lanes -/
  faults : List (Nat × Word)
deriving DecidableEq, Repr

/-- A handler in progress (R372, R374). -/
structure Handler where
  squad : Nat
  pc : Word
  ev : TrapEv
  run : Run
deriving DecidableEq, Repr

/-- An instruction that a leader squad has executed and its shadow has not (R396): its address, its lanes, the leader before and
after it, the causes and details with which it trapped, and whether it takes an entry of the load-value queue. -/
structure VEntry where
  instr : Instr
  pc : Word
  lanes : List Nat
  pre : Squad
  post : Squad
  traps : List (Nat × Int)
  outside : Bool
  /-- of a handler's instruction, the handler before and after it (R374) -/
  han : Option (Handler × Option Handler) := none
deriving DecidableEq, Repr

/-- The shadow of a squad under VIGIL (R396): its registers, predicates and groups (`vals`), the leader as it stood after the last
instruction that the shadow has executed, the instructions it has yet to execute, and whether it was found to disagree. -/
structure Shadow where
  vals : Squad
  last : Squad
  trail : List VEntry
  diverged : Bool
deriving DecidableEq, Repr

/-- The part of a team that a rollback restores (R390, R392). -/
structure TeamBody where
  squads : List Squad
  /-- cabinet words by tryte address div 3: −256 … −1 the trap-frame row, 0 … the team's rows; 0 where not listed -/
  cab : List (Int × Word)
  tiles : List Tile
  escrow : List ELine
  parts : List Part
  cmds : List Cmd
  recs : List Rec
  queries : List Query
  nseq : Nat
  /-- under VIGIL the shadow of each squad (R396) and of each tile (R299); else none -/
  shadows : List Shadow := []
  shtiles : List Tile := []
deriving DecidableEq, Repr

/-- A resident team (R340–R342, R363). -/
structure Team where
  num : Nat
  grid : Nat
  /-- the linear team index -/
  lin : Nat
  core : Nat
  tslot : Nat
  /-- the first row of its reservation: the trap-frame row, then its cabinet block (R117) -/
  base : Nat
  member : Nat
  crew : Nat
  body : TeamBody
  tvec : Word
  /-- queued trap events in order of entry (R372) -/
  events : List TrapEv
  handler : Option Handler
  pubs : List Pub
  npub : Nat
  /-- barriers whose publication has been sent (R326); 81 stands for CBAR and 82 for GPHASE -/
  closing : List Nat
  /-- ended: its reservation stands until its commands and escrow settle (R342) -/
  ending : Bool
  /-- its issue has stopped for a save (R383) -/
  saving : Bool
  /-- the copy at the opening of the shadow interval, coverage, an irrevocable act, rollbacks (R390–R392) -/
  opened : Option TeamBody
  covered : Bool
  irrevocable : Bool
  rbcnt : Nat
  rbHere : Nat
  /-- the lines of its core's shadow pool that its copies fill (R390) -/
  pool : List Nat := []
deriving DecidableEq, Repr

/-- A saved team (R384): the first line of its image in the save pool, its lines, and what the image holds. -/
structure Saved where
  line : Nat
  lines : Nat
  team : Team
deriving DecidableEq, Repr

/-- The entries of a team that await a DET merge (R335). -/
structure Deferred where
  lin : Nat
  escrow : List ELine
  parts : List Part
deriving DecidableEq, Repr

/-- A word that a merge desk has recorded: its slot and place, its value and the team that it stands for (R335). -/
structure DeskWord where
  slot : Nat
  i : Nat
  val : Word
  lin : Nat
deriving DecidableEq, Repr

/-- A running grid (R356, R363). -/
structure Grid where
  num : Nat
  /-- the graph slot and node that released it; none for one placed from outside -/
  src : Option (Nat × Nat)
  part : Nat
  node : List Word
  nodeAddr : Nat
  next : Nat
  live : Nat
  err : Bool
  killed : Bool
  /-- its place in the order in which grids are released (R364) -/
  rel : Nat := 0
  merging : Bool
  /-- what the merge in progress has recorded (R335) -/
  desk : List DeskWord := []
  deferred : List Deferred
  /-- cores whose instruction cache was invalidated for this grid (R365) -/
  prepared : List Nat
  /-- merge and publication writes not yet acknowledged -/
  unack : Nat
  /-- "save pool full" has been raised for its waiting work (R381) -/
  told : Bool
deriving DecidableEq, Repr

/-! ### Cores and dies -/

/-- A bundle (R345): its core, its threads and its PC; or a trap handler's instruction (R374), or a shadow squad's (R351, R396). -/
structure Bundle where
  core : Nat
  threads : List TRef
  pc : Word
  /-- the team whose handler it is -/
  handler : Option Nat
  /-- the issue cycles it has waited in the pool (R351) -/
  waited : Nat
  /-- the team and the squad whose shadow it is -/
  shadow : Option (Nat × Nat) := none
deriving DecidableEq, Repr

/-- A line of an instruction cache (R157): 27 words at the virtual line n div 81 of a space and level. -/
structure ILine where
  asrec : Nat
  sys : Bool
  vline : Nat
  words : List Word
deriving DecidableEq, Repr

/-- A cached translation (R80): the page of level `level` with number n div 3^(2+5·level), its leaf, its frame format. -/
structure TlbE where
  asrec : Nat
  asn : Int
  gen : Int
  level : Nat
  page : Nat
  pte : Word
  fmt : Nat
deriving DecidableEq, Repr

/-- A core; one that is not listed holds nothing. -/
structure Core where
  num : Nat
  icache : List ILine
  tlb : List TlbE
  /-- the PC table (R344): at most 243 entries of a grid and a PC -/
  pct : List (Nat × Word)
  overflow : List TRef
  pool : List Bundle
  /-- write-backs held in base-delta form, as read (R146), and those of issued instructions of which it is not yet known; log
  entry 30 -/
  rfbd : Nat
  wrote : Nat
  /-- issue withheld by the droop detector (R460) -/
  droop : Bool
deriving DecidableEq, Repr

/-- A cached table entry of the walk cache (R80): its space with its tags, its level and the page it maps, and the word. -/
structure WcE where
  asrec : Nat
  asn : Int
  gen : Int
  level : Nat
  page : Nat
  pte : Word
deriving DecidableEq, Repr

/-- A walk in progress with the requests that joined it (R81). -/
structure Walk where
  req : WalkReq
  joined : List WalkReq
deriving DecidableEq, Repr

/-- The denomination machinery of a die (R108–R110): the tables of slots −, 0, + as ranked tryte values. -/
structure Denom where
  tables : List (Option (List Int))
  active : Option Nat
  counts : List (Int × Nat)
  /-- counting in the sampling window -/
  sampling : Bool
  start : Nat
  n : Nat
  /-- a table that waits for its sweep -/
  ready : Option (List Int)
  sweeping : Bool
deriving DecidableEq, Repr

/-- A die (R80, R103, R108). -/
structure Die where
  tlb : List TlbE
  wcache : List WcE
  walks : List Walk
  missq : List WalkReq
  /-- data accesses whose walk has ended in a stop, which they meet when they are tried again (R81); log entry 5 -/
  walked : List WalkReq
  /-- the snoop filter: a slot homed on another die and the agents that hold it -/
  filter : List (Nat × List Nat)
  denom : Denom
deriving DecidableEq, Repr

/-! ### Lines -/

/-- The states of a line (R97). -/
inductive LSt where
  | M | O | E | S | I | C
deriving DecidableEq, Repr

/-- A request at a home (R98). -/
inductive Req where
  | rds (agent : Nat) (byte : Bool)
  /-- `op` is what a host chiplet then writes into its copy (R104); a core's leaves the line as it is -/
  | rdx (agent : Nat) (byte : Bool) (op : HwOp)
  | upg (agent : Nat) (byte : Bool) (op : HwOp)
  /-- WbD (dirty) or EvC of a copy that waits in the agent's write-back buffer -/
  | back (agent : Nat) (dirty : Bool)
  | hw (r : HwReq)
  | hr (r : HrReq)
deriving DecidableEq, Repr

/-- An open transaction (R92): the request, the agents and dies whose snoop answers are still awaited, the best data so
far and whether an owner supplied it. -/
structure Txn where
  req : Req
  await : List Nat
  awaitDies : List Nat
  supplied : Bool
deriving DecidableEq, Repr

/-- A line present in its home slice with its directory entry (R91), its open transaction and its queue (R92). -/
structure VLine where
  slot : Nat
  st : LSt
  owner : Nat
  sharers : List Nat
  remote : Bool
  vdirty : Bool
  elig : Bool
  /-- pinned for a page of a space: its record and the virtual line (R93) -/
  pin : Option (Nat × Nat)
  /-- leased at its home (R112) -/
  leased : Bool
  line : Line
  /-- stored trits in error, 87 × block + trit (R96); log entry 57 -/
  flips : List Nat
  /-- the denomination slot of a line held compressed -/
  dgen : Int
  txn : Option Txn
  queue : List Req
deriving DecidableEq, Repr

/-- A snoop (R100). -/
inductive Snoop where
  | inv | shr | get
deriving DecidableEq, Repr

/-- A copy in an L1 or a host agent's cache (R94, R97, R111), with its probe queue (R113). -/
structure Copy where
  agent : Nat
  slot : Nat
  st : LSt
  line : Line
  leased : Bool
  probes : List Snoop
  /-- it waits in the write-back buffer for the home (R101) -/
  back : Bool
  /-- stored trits in error (R96) -/
  flips : List Nat
deriving DecidableEq, Repr

/-! ### The rest of the device -/

/-- A graph slot in use (R354, R359). -/
structure Graph where
  slot : Nat
  /-- signals received by a node since its last release -/
  counts : List (Nat × Nat)
  /-- nodes running, and nodes released while an instance runs -/
  running : List Nat
  pending : List Nat
  /-- the end node's order: a run that ends, a slot that has faulted or been emptied -/
  ending : Bool
  /-- running nodes: lines written and not yet acknowledged, and whether a fault parks the node -/
  work : List (Nat × Nat × Bool)
  /-- pending wait-word nodes with the slot of their word's line (R360) -/
  watch : List (Nat × Nat)
  /-- the places of the running nodes in the order of release (R364) -/
  rels : List (Nat × Nat) := []
  /-- the words of the running nodes, as read at their release -/
  lines : List (Nat × List Word) := []
  /-- nodes that still run from a run that was emptied or has faulted: they complete, and signal nothing (R354, R361) -/
  old : List Nat := []
deriving DecidableEq, Repr

/-- Who is parked on a fault-list entry (R86). -/
inductive Parked where
  | thread (t : TRef)
  | handler (team : Nat)
  | cmd (team seq : Nat)
  /-- a publication, with the team thread numbers of the threads that own the entries (R84) -/
  | pub (team pub : Nat) (owners : List Nat)
  | node (slot node : Nat)
  /-- a merge, with the threads that own the contributions held back (R84) -/
  | merge (grid : Nat) (owners : List TRef)
deriving DecidableEq, Repr

/-- A fault posted, or waiting to be posted, for a page of a space (R86, R87). -/
structure FaultPost where
  asrec : Nat
  page : Nat
  kind : Int
  level : Nat
  core : Nat
  /-- the stamp of the first fault -/
  stamp : Nat
  /-- the slot of the entry's line; none while the list is full -/
  entry : Option Nat
  /-- "fault list full" has been raised while it waits -/
  told : Bool
  /-- joiners have changed KIND or CNT, and the entry does not show it yet -/
  late : Bool
  who : List Parked
deriving DecidableEq, Repr

/-- A shootdown in progress (R83). -/
structure Shoot where
  id : Nat
  asrec : Nat
  kind : Int
  page : Word
  by_ : Option TRef
  gen : Int
  /-- writes of the space that were on their way to their homes when it started -/
  waits : List HwReq := []
  /-- leases of lines of the named pages, by thread and virtual line, whose images were to be committed under the old mapping -/
  leases : List (TRef × Nat) := []
deriving DecidableEq, Repr

/-- A staging entry of the image window (R59). -/
structure Stage where
  who : Nat
  slot : Nat
  start : Nat
  bytes : List (Nat × BitVec 8)
deriving DecidableEq, Repr

/-- Who issued a collective: a command of a team, or a graph node (R205, R358). -/
inductive ExWho where
  | cmd (team seq : Nat)
  | node (slot node : Nat)
deriving DecidableEq, Repr

/-- A collective that this device has issued (R207–R210, R408), the oldest first; it stays when it has ended, since a later
request of a member is answered from it (R208). Lines are 27 words of a source, or beyond them of the reduced vector. -/
structure Exch where
  who : ExWho
  /-- the F of R205 and the descriptor -/
  f : Int
  desc : List Word
  ranks : List Nat
  /-- the ordering mode of the issuing grid (R441) -/
  det : Bool
  /-- its place among this device's collectives with its TAG and its list (R208) -/
  kth : Nat
  begun : Bool
  /-- lines asked for, of those it needs -/
  asked : Nat
  /-- lines received, in order of arrival: list position, line, words -/
  got : List (Nat × Nat × List Word)
  /-- reduced lines -/
  res : List (Nat × List Word)
  /-- destination words written -/
  wrote : List Nat
  /-- lines that members have pulled: list position, line -/
  served : List (Nat × Nat)
  ended : Bool
  /-- the report it gives: 8 a mismatch, 13 a failure, 0 none -/
  rep : Nat
deriving DecidableEq, Repr

/-- The non-volatile contents: fuses (R452, R454) and flash (R450, R448). -/
structure NonVol where
  keyHash : List (List (BitVec 8))
  revoked : List Bool
  fwsvn : Nat
  lcs : Int
  devpub : List (BitVec 8)
  /-- the 72 seed bytes; none once blown or before provisioning -/
  seeds : Option (List (BitVec 8))
  /-- the fuses agree with one another (R449) -/
  sound : Bool
  flashA : List (BitVec 8)
  flashB : List (BitVec 8)
  retired : List Nat
  parts : List (Nat × Word)
  rank : Nat
deriving DecidableEq, Repr

/-- A report being signed (R455): the first slot and the bytes 0 … 511. -/
structure Report where
  slot : Nat
  body : List (BitVec 8)
deriving DecidableEq, Repr

/-- An answer to a host's request (R58, R59, R61): the bytes, a completion with the poisoned bit set, or an error response, which
completes as an unsupported request. -/
inductive Answer where
  | data (bytes : List (BitVec 8))
  | poisoned
  | refused
deriving DecidableEq, Repr

/-- An event whose log line has yet to be written: its source and its words (R402). -/
structure LogEv where
  src : Nat
  words : List Word
deriving DecidableEq, Repr

/-- The state of the machine. -/
structure State where
  /-- core cycles since the cold reset (R3) -/
  cycle : Nat
  /-- the stamp of each partition (R399, R447) -/
  stamps : List Nat
  /-- control words that differ from their reset value, by selector (R378, R402, R445) -/
  ctl : List (Nat × Word)
  /-- HBM image bytes at 160 × slot + byte that differ from the zero T-line's image (R45, R50) -/
  hbm : List Host.Cell
  /-- frame formats other than 00 (R46) -/
  frames : List (Nat × Nat)
  /-- retirement scores other than 0 (R398) -/
  scores : List (Nat × Nat)
  /-- lines present in their home slices (R90, R91) -/
  vlines : List VLine
  /-- requests at homes that wait for a way of their set, in order of arrival (R90) -/
  fillq : List (Nat × Option (Nat × Nat) × Req)
  /-- serial counters that have advanced, by vault (R320) -/
  serials : List (Nat × Nat)
  /-- L1 copies (agents 0 … 323) and the host chiplets' (324, 325) (R94, R104) -/
  copies : List Copy
  dies : List Die
  cores : List Core
  teams : List Team
  nteam : Nat
  /-- escrow lines that have entered L1s (R95) -/
  nline : Nat
  grids : List Grid
  ngrid : Nat
  /-- nodes released (R364) -/
  nrel : Nat
  graphs : List Graph
  /-- the save pool's teams (R384) -/
  saved : List Saved
  posts : List FaultPost
  shoots : List Shoot
  nshoot : Nat
  staging : List Stage
  /-- addresses in the shell's error log (R58, R59, R104) -/
  shellLog : List Nat
  /-- events raised at the present stamp, in order (R399) -/
  logq : List LogEv
  /-- answers to hosts with their requesters (R58, R59, R61) -/
  answers : List (Nat × Answer)
  /-- partitions that are being reset (R447), and whether the frame format table stays (R446) -/
  resets : List (Nat × Bool)
  /-- MSI-X vectors sent (R61, R402) -/
  irqs : List Nat
  /-- every flit sent; those sent and not yet answered; ports down (R407) -/
  sent : List Flit
  flits : List Flit
  down : List Nat
  exch : List Exch
  /-- commands that have reached the scoreboards (R133), and range commands whose pieces have come to their drawers -/
  ncmd : Nat
  nv : NonVol
  report : Option Report
  thermtrip : Bool
  /-- the model's own: pending steps of all agents and outside inputs, oldest first; log entry 2 -/
  agenda : List Instr
  /-- the model's own: bundles issued and not yet performed; log entry 2 -/
  issue : List Bundle
  /-- the model's own: the bundle whose instruction is performed; log entry 2 -/
  cur : Bundle
  /-- the model's own: the counter that the free values are applied to; log entry 3 -/
  tick : Nat
deriving DecidableEq, Repr

/-- The empty bundle. -/
def Bundle.none : Bundle := { core := 0, threads := [], pc := .zero, handler := Option.none, waited := 0 }

/-- A die at reset: caches and filters empty, no denomination table, the default interval (R109, R448 step 7). -/
def Die.reset : Die :=
  { tlb := [], wcache := [], walks := [], missq := [], walked := [], filter := [],
    denom := { tables := [none, none, none], active := none, counts := [], sampling := false, start := 0, n := 22,
               ready := none, sweeping := false } }

/-- A core that holds nothing (R448 step 7). -/
def Core.empty (num : Nat) : Core :=
  { num := num, icache := [], tlb := [], pct := [], overflow := [], pool := [], rfbd := 0, wrote := 0, droop := false }

/-- The non-volatile contents the model starts from; log entry 13. -/
def NonVol.initial : NonVol :=
  { keyHash := List.replicate 4 (List.replicate 32 0), revoked := List.replicate 4 false, fwsvn := 0, lcs := -1,
    devpub := List.replicate 48 0, seeds := none, sound := true, flashA := [], flashB := [],
    retired := [],
    parts := [(0, .ofInt 1), (1, .ofInt 9841), (2, .ofInt 9841), (3, .ofInt 9841), (4, .ofInt 9841), (6, .ofInt 190887432),
              (7, .ofInt 141214768240), (8, .ofInt 141214768240), (9, .ofInt 4), (10, .ofInt 3812798742493)],
    rank := 0 }

/-- The machine right after the cold reset of R448 has completed: memory of zero T-lines, caches empty, no grid. -/
def State.reset : State :=
  { cycle := 0, stamps := List.replicate 9 0, ctl := [], hbm := [], frames := [], scores := [], vlines := [],
    fillq := [], serials := [], copies := [], dies := List.replicate 4 Die.reset, cores := [], teams := [], nteam := 0, nline := 0, grids := [],
    ngrid := 0, nrel := 0, graphs := [], saved := [], posts := [], shoots := [], nshoot := 0, staging := [], shellLog := [], logq := [],
    answers := [], irqs := [], sent := [], flits := [], down := [], exch := [], ncmd := 0, nv := NonVol.initial, resets := [], report := none,
    thermtrip := false, agenda := [], issue := [], cur := Bundle.none, tick := 0 }

end Sys2Proof.Machine
end

