-- ==== Sys2Proof/Machine/Ops.lean ====
section
/-! DEFINITION. The named parts of the state: lists, teams, squads, threads, registers, cores, cabinets, control words;
raising an error event (R399–R402) and a trap (R368–R373). -/

namespace Sys2Proof

/-- The team thread number 27q + l (R340). -/
def TRef.num (r : TRef) : Nat := 27 * r.squad + r.lane

/-- The thread of a team thread number. -/
def TRef.ofNum (team n : Nat) : TRef := ⟨team, n / 27, n % 27⟩

end Sys2Proof

namespace Sys2Proof.Machine

/-! ### Lists -/

/-- Changes element `i` of a list. -/
def modNth {α : Type} (f : α → α) : List α → Nat → List α
  | [], _ => []
  | a :: t, 0 => f a :: t
  | a :: t, i + 1 => a :: modNth f t i

/-- Writes element `i` of a list. -/
def setNth {α : Type} (l : List α) (i : Nat) (a : α) : List α := modNth (fun _ => a) l i

/-- The value at a key. -/
def assocGet {κ α : Type} [DecidableEq κ] (l : List (κ × α)) (k : κ) : Option α :=
  match l with
  | [] => none
  | (j, a) :: t => if j = k then some a else assocGet t k

/-- Removes a key. -/
def assocDel {κ α : Type} [DecidableEq κ] (l : List (κ × α)) (k : κ) : List (κ × α) := l.filter (fun p => p.1 != k)

/-- Writes a key of a list kept in ascending order of natural keys. -/
def natPut {α : Type} (l : List (Nat × α)) (k : Nat) (a : α) : List (Nat × α) :=
  match l with
  | [] => [(k, a)]
  | (j, b) :: t => if j < k then (j, b) :: natPut t k a else if j = k then (k, a) :: t else (k, a) :: (j, b) :: t

/-- Writes a key of a list kept in ascending order of integer keys. -/
def intPut {α : Type} (l : List (Int × α)) (k : Int) (a : α) : List (Int × α) :=
  match l with
  | [] => [(k, a)]
  | (j, b) :: t => if j < k then (j, b) :: intPut t k a else if j = k then (k, a) :: t else (k, a) :: (j, b) :: t

/-- Inserts into a list sorted by a test "not after". -/
def insertBy {α : Type} (le : α → α → Bool) (a : α) : List α → List α
  | [] => [a]
  | b :: t => if le b a then b :: insertBy le a t else a :: b :: t

/-- A stable sort by a test "not after". -/
def sortBy {α : Type} (le : α → α → Bool) (l : List α) : List α := l.foldl (fun acc a => insertBy le a acc) []

/-- The distinct elements, in order of first appearance. -/
def distinct {α : Type} [DecidableEq α] (l : List α) : List α :=
  l.foldl (fun acc a => if acc.contains a then acc else acc ++ [a]) []

/-- Word `i` of a list of words; 0 beyond its end. -/
def wordAt (l : List Word) (i : Nat) : Word := l.getD i .zero

/-- The integer value of word `i`. -/
def intAt (l : List Word) (i : Nat) : Int := (wordAt l i).val

/-! ### Teams, squads, threads -/

/-- The team of a number. -/
def State.team? (s : State) (n : Nat) : Option Team := s.teams.find? (fun t => t.num == n)

/-- Changes a team. -/
def State.modTeam (s : State) (n : Nat) (f : Team → Team) : State :=
  { s with teams := s.teams.map (fun t => if t.num = n then f t else t) }

/-- Changes a team's restorable part. -/
def State.modBody (s : State) (n : Nat) (f : TeamBody → TeamBody) : State :=
  s.modTeam n (fun t => { t with body := f t.body })

/-- Changes a squad. -/
def State.modSquad (s : State) (n q : Nat) (f : Squad → Squad) : State :=
  s.modBody n (fun b => { b with squads := modNth f b.squads q })

/-- Changes a thread. -/
def State.modThread (s : State) (r : TRef) (f : Thread → Thread) : State :=
  s.modSquad r.team r.squad (fun q => { q with threads := modNth f q.threads r.lane })

/-- A squad. -/
def State.squad? (s : State) (n q : Nat) : Option Squad := (s.team? n).bind (fun t => t.body.squads[q]?)

/-- A thread. -/
def State.thread? (s : State) (r : TRef) : Option Thread := (s.squad? r.team r.squad).bind (fun q => q.threads[r.lane]?)

/-- The grid of a number. -/
def State.grid? (s : State) (n : Nat) : Option Grid := s.grids.find? (fun g => g.num == n)

/-- Changes a grid. -/
def State.modGrid (s : State) (n : Nat) (f : Grid → Grid) : State :=
  { s with grids := s.grids.map (fun g => if g.num = n then f g else g) }

/-- Word `i` of a team's grid node (R356); 0 without a grid. -/
def State.gridWord (s : State) (n i : Nat) : Int :=
  match (s.team? n).bind (fun t => s.grid? t.grid) with
  | some g => intAt g.node i
  | none => 0

/-- Registers per thread (R356). -/
def State.regsOf (s : State) (n : Nat) : Int := s.gridWord n 10
/-- Squads per team. -/
def State.squadsOf (s : State) (n : Nat) : Nat := (s.gridWord n 9).toNat
/-- Cabinet rows per team. -/
def State.crowsOf (s : State) (n : Nat) : Int := s.gridWord n 11
/-- Coffer tiles per team. -/
def State.tilesOf (s : State) (n : Nat) : Int := s.gridWord n 12
/-- Barriers per team. -/
def State.nbarOf (s : State) (n : Nat) : Int := s.gridWord n 13
/-- Group registers beyond g0. -/
def State.gslotOf (s : State) (n : Nat) : Int := s.gridWord n 14
/-- The escrow quota Q. -/
def State.quotaOf (s : State) (n : Nat) : Nat := (s.gridWord n 15).toNat
/-- A team of a DET grid (R357). -/
def State.det (s : State) (n : Nat) : Bool := trit (s.gridWord n 17) 0 == 1
/-- A team of a VIGIL grid (R357). -/
def State.vigil (s : State) (n : Nat) : Bool := trit (s.gridWord n 17) 1 == 1
/-- A team of a COMPRESS grid (R357). -/
def State.compress (s : State) (n : Nat) : Bool := trit (s.gridWord n 17) 2 == 1
/-- A team of a cooperative grid (R357). -/
def State.coop (s : State) (n : Nat) : Bool := trit (s.gridWord n 17) 3 == 1
/-- A team at system level (R357). -/
def State.sysLevel (s : State) (n : Nat) : Bool := trit (s.gridWord n 17) 4 == 1
/-- The physical address of a team's address-space record. -/
def State.asrecOf (s : State) (n : Nat) : Nat := (s.gridWord n 21).toNat
/-- The partition of a team. -/
def State.partOf (s : State) (n : Nat) : Nat :=
  match (s.team? n).bind (fun t => s.grid? t.grid) with
  | some g => g.part
  | none => 0
/-- The core of a team. -/
def State.coreOf (s : State) (n : Nat) : Nat := match s.team? n with | some t => t.core | none => 0

/-- Every thread of a team, in ascending thread number. -/
def State.threadsOf (s : State) (n : Nat) : List (TRef × Thread) :=
  match s.team? n with
  | none => []
  | some t =>
    ((t.body.squads.zipIdx).map (fun (q, i) => (q.threads.zipIdx).map (fun (th, l) => ((⟨n, i, l⟩ : TRef), th)))).flatten

/-- Every thread of a team that has not exited. -/
def State.liveThreads (s : State) (n : Nat) : List (TRef × Thread) :=
  (s.threadsOf n).filter (fun p => p.2.run != .exited)

/-- A thread that has exited, or does not exist. -/
def State.exited (s : State) (r : TRef) : Bool :=
  match s.thread? r with
  | some t => t.run == .exited
  | none => true

/-- Sets what a thread is doing. -/
def State.setRun (s : State) (r : TRef) (x : Run) : State := s.modThread r (fun t => { t with run := x })

/-- Sets a thread's PC. -/
def State.setPc (s : State) (r : TRef) (pc : Word) : State := s.modThread r (fun t => { t with pc := pc })

/-! ### Registers -/

/-- Reads a v register as the thread itself reads it (R150); pending results are not in the register. -/
def State.vreg (s : State) (r : TRef) (n : Nat) : Word :=
  match s.thread? r with
  | some t => wordAt t.regs n
  | none => .zero

/-- Writes a v register. -/
def State.setV (s : State) (r : TRef) (n : Nat) (w : Word) : State :=
  s.modThread r (fun t => { t with regs := setNth t.regs n w })

/-- Reads a k register of the normal bank (false) or of the trap bank (true) (R142). -/
def State.kreg (s : State) (n q : Nat) (trapBank : Bool) (k : Nat) : Word :=
  match s.squad? n q with
  | some x => wordAt (if trapBank then x.tb else x.kb) k
  | none => .zero

/-- Writes a k register. -/
def State.setK (s : State) (n q : Nat) (trapBank : Bool) (k : Nat) (w : Word) : State :=
  s.modSquad n q (fun x => if trapBank then { x with tb := setNth x.tb k w } else { x with kb := setNth x.kb k w })

/-- Trit `i` of a predicate file that holds p1 … p8; p0 reads + (R141). -/
def predAt (l : List Trit) (i : Nat) : Trit := if i = 0 then .p else l.getD (i - 1) .z

/-- Writes a predicate file; a write to p0 is discarded (R141). -/
def predPut (l : List Trit) (i : Nat) (t : Trit) : List Trit := if i = 0 then l else setNth l (i - 1) t

/-- Reads a thread's predicate. -/
def State.pred (s : State) (r : TRef) (i : Nat) : Trit :=
  match s.thread? r with
  | some t => predAt t.preds i
  | none => if i = 0 then .p else .z

/-- Writes a thread's predicate. -/
def State.setPred (s : State) (r : TRef) (i : Nat) (x : Trit) : State :=
  s.modThread r (fun t => { t with preds := predPut t.preds i x })

/-- The word of a lane in a group of size n (R143). -/
def groupMake (n num pos : Nat) : Word :=
  .ofInt (2187 + (if n = 3 then -729 else if n = 9 then 0 else 729) + ((num : Int) - 13) * 27 + ((pos : Int) - 13))

/-- The word of a group register in a lane (R143): g0 is constant, and a register that no PART has written holds no group. -/
def State.groupWord (s : State) (n q i lane : Nat) : Int :=
  if i = 0 then (groupMake 27 0 lane).val
  else match s.squad? n q with
    | some x => ((x.groups.getD (i - 1) []).getD lane .zero).val
    | none => 0

/-- A lane is a member of a group (VAL = +). -/
def groupVal (g : Int) : Bool := trit g 7 == 1
/-- The group size n of SZ (R143). -/
def groupSize (g : Int) : Nat := if trit g 6 = -1 then 3 else if trit g 6 = 0 then 9 else 27
/-- The group number (R143). -/
def groupNum (g : Int) : Nat := (field g 5 3 + 13).toNat
/-- The lane's position (R143). -/
def groupPos (g : Int) : Nat := (field g 2 0 + 13).toNat
/-! ### Cores -/

/-- A core; an unlisted one holds nothing. -/
def State.core (s : State) (n : Nat) : Core := (s.cores.find? (fun c => c.num == n)).getD (Core.empty n)

/-- Changes a core. -/
def State.modCore (s : State) (n : Nat) (f : Core → Core) : State :=
  let c := f (s.core n)
  { s with cores := insertBy (fun a b => a.num ≤ b.num) c (s.cores.filter (fun c => c.num != n)) }

/-- The agents beside the cores (0 … 323) and the host chiplets (324, 325): the graph walker on die 0, and the page walker of each
die, which hold lines shared (R88, R354, R360). -/
def graphWalker : Nat := 326
def pageWalker (die : Nat) : Nat := 327 + die

/-- The die of an agent (R2, R91, R104, R354). -/
def agentDie (a : Nat) : Nat :=
  if a < 324 then a / 81 else if a = 325 then 2 else if a < 327 then 0 else (a - 327) % 4

/-- A die. -/
def State.die (s : State) (d : Nat) : Die := s.dies.getD d Die.reset

/-- Changes a die. -/
def State.modDie (s : State) (d : Nat) (f : Die → Die) : State := { s with dies := modNth f s.dies d }

/-- Adds steps at the end of the agenda. -/
def State.later (s : State) (l : List Instr) : State := { s with agenda := s.agenda ++ l }

/-- Adds a step unless it is pending already. -/
def State.laterOnce (s : State) (i : Instr) : State := if s.agenda.contains i then s else s.later [i]

/-- A free choice among n > 0 possibilities, and the state that has made it; log entry 3. -/
def State.choose (s : State) (n : Nat) : State × Nat := ({ s with tick := s.tick + 1 }, Config.choice s.tick % n)

/-- A comparison of VIGIL has failed in a squad: the machine takes it up as a step of its own (R396). -/
def State.vigilFail (s : State) (n q : Nat) : State :=
  (s.modBody n (fun b => { b with shadows := modNth (fun x => { x with diverged := true }) b.shadows q })).laterOnce (.vigilCompare (s.coreOf n) n q)

/-! ### Cabinets (R116, R117) -/

/-- A cabinet word by its tryte address div 3; −256 … −1 is the trap-frame row. -/
def cabGet (c : List (Int × Word)) (i : Int) : Word := (assocGet c i).getD .zero

/-- Writes a cabinet word; a zero word is not listed. -/
def cabPut (c : List (Int × Word)) (i : Int) (w : Word) : List (Int × Word) :=
  if w = .zero then assocDel c i else intPut c i w

/-- Reads a word of a team's cabinet. -/
def State.cab (s : State) (n : Nat) (i : Int) : Word :=
  match s.team? n with
  | some t => cabGet t.body.cab i
  | none => .zero

/-- Writes a word of a team's cabinet. -/
def State.setCab (s : State) (n : Nat) (i : Int) (w : Word) : State :=
  s.modBody n (fun b => { b with cab := cabPut b.cab i w })

/-- The first tryte address beyond a team's allocation (R117). -/
def State.cabEnd (s : State) (n : Nat) : Int := 768 * s.crowsOf n

/-- The team of a crew member's number (R118). DESIGN CHOICE, log entry 61: a team whose threads have all exited is no member any more,
though its reservation may still stand. -/
def State.crewMember (s : State) (n : Nat) (m : Nat) : Option Nat :=
  match s.team? n with
  | none => none
  | some t => (s.teams.find? (fun u => u.grid == t.grid && u.crew == t.crew && u.member == m && !u.ending)).map (·.num)

/-- The members of a team's crew. -/
def State.crewTeams (s : State) (n : Nat) : List Nat :=
  match s.team? n with
  | none => []
  | some t => (s.teams.filter (fun u => u.grid == t.grid && u.crew == t.crew)).map (·.num)

/-! ### Control words -/

/-- Three copies of an action, for the three source groups (R400, R401). -/
def sevDefault (a : Int) : Word := .ofInt (a * 91)

/-- The default severity of an error class (R401). -/
def sevReset (c : Nat) : Word :=
  if [1, 3, 8, 9, 11, 14, 16, 17, 23, 26].contains c then sevDefault 1
  else if [10, 19, 20, 22].contains c then sevDefault (-1)
  else sevDefault 2

/-- The reset value of a control word (R378, R398, R401, R402, R445, R460; log entries 12 to 14).
Measurements are not here: they are set when the boot extends them. -/
def resetWord (sel : Nat) : Word :=
  if sel = 6604 ∨ sel = 824 then .ofInt (-1)               -- ELVEC, SDVEC
  else if sel = 6653 then .ofInt 81                        -- RETTHR
  else if 7291 ≤ sel ∧ sel ≤ 7316 then sevReset (sel - 7290)
  else if sel = 19683 then .ofInt 1                        -- BOOTSTAT
  else if sel = 19684 then .ofInt (-1)                     -- LCS
  else if sel = 20000 then .ofInt 4500                     -- PCAP
  else if sel = 20011 then .ofInt 9000                     -- ILIM
  else if sel = 20014 then .ofInt 100                      -- TLIM
  else if 21000 ≤ sel ∧ sel < 21012 then (assocGet NonVol.initial.parts (sel - 21000)).getD .zero
  else .zero

/-- Reads a control word of device scope. -/
def State.cw (s : State) (sel : Nat) : Word := (assocGet s.ctl sel).getD (resetWord sel)

/-- The value of a control word. -/
def State.cwInt (s : State) (sel : Nat) : Int := (s.cw sel).val

/-- Writes a control word. -/
def State.setCw (s : State) (sel : Nat) (w : Word) : State :=
  { s with ctl := if w = resetWord sel then assocDel s.ctl sel else natPut s.ctl sel w }

/-- Writes a control word's value. -/
def State.setCwInt (s : State) (sel : Nat) (x : Int) : State := s.setCw sel (.ofInt x)

/-- Word f of a partition's description (R457). -/
def State.partWord (s : State) (p f : Nat) : Int := s.cwInt (21000 + 12 * p + f)

/-- The stamp of a partition (R399). -/
def State.stampOf (s : State) (p : Nat) : Nat := s.stamps.getD p 0

/-- Trits [26:0] and [53:27] of a number of 54 trits (R340, R371). -/
def lowWord (x : Nat) : Word := .ofInt (wrap 27 x)
def highWord (x : Nat) : Word := .ofInt (dropTrits 27 x)

/-- The number that no partition has: of what belongs to none. -/
def noPart : Nat := 9

/-- The partition that holds a core; none if none does. -/
def State.partOfCore (s : State) (c : Nat) : Option Nat :=
  (List.range 9).find? (fun p =>
    field (s.partWord p 0) 1 0 == 1 && trit (s.partWord p (1 + c / 81)) (c % 81 / 9) == 1)

/-- The partition that holds a frame; none if none does. -/
def State.partOfFrame (s : State) (f : Nat) : Option Nat :=
  (List.range 9).find? (fun p =>
    field (s.partWord p 0) 1 0 != 0 && s.partWord p 5 ≤ f && (f : Int) < s.partWord p 5 + s.partWord p 6)

/-! ### Error events (R399–R402) -/

/-- An error event: class, source number, address with its kind, detail, the grid and team it names, and a second team. -/
structure Event where
  cls : Nat
  src : Nat
  kind : Int
  addr : Word
  detail : Int
  grid : Option Nat
  lin : Option Nat
  lin2 : Nat

/-- An event with no address and no context. -/
def Event.plain (cls src : Nat) : Event :=
  { cls := cls, src := src, kind := 0, addr := .zero, detail := 0, grid := none, lin := none, lin2 := 0 }

/-- An event about a physical address. -/
def Event.phys (cls src : Nat) (a : Nat) : Event :=
  { Event.plain cls src with kind := -1, addr := .ofInt a }

/-- An event that a team raises (R402). -/
def State.teamEvent (s : State) (cls n : Nat) (kind : Int) (addr : Word) (detail : Int) : Event :=
  match s.team? n with
  | none => { Event.plain cls 0 with kind := kind, addr := addr, detail := detail }
  | some t => { cls := cls, src := t.core, kind := kind, addr := addr, detail := detail, grid := some t.grid,
                lin := some t.lin, lin2 := 0 }

/-- The action of a class for a source (R400). -/
def State.action (s : State) (cls src : Nat) : Int :=
  let w := s.cwInt (7290 + cls)
  let a := if src < 648 ∨ src = 652 ∨ (704 ≤ src ∧ src < 708) then field w 1 0
           else if src < 652 ∨ src = 653 then field w 3 2 else field w 5 4
  if a = 0 ∨ a = 1 ∨ a = 2 ∨ a = -1 ∨ a = -2 then a else 2

/-- The write that a request at a home is, if it is one. -/
def Req.hw? : Req → Option HwReq
  | .hw r => some r
  | _ => none

/-- The writes that are on their way to their homes or wait there: in the agenda, for a way, in a line's queue or transaction. -/
def State.pendingHw (s : State) : List HwReq :=
  s.agenda.filterMap (fun i => match i with | .homeHw r => some r | _ => none)
  ++ s.fillq.filterMap (fun q => q.2.2.hw?)
  ++ (s.vlines.map (fun v => v.queue.filterMap Req.hw? ++ ((v.txn.bind (fun t => t.req.hw?)).map (fun r => [r])).getD [])).flatten

/-- The event log's lines that are written but not yet performed. -/
def State.logsPending (s : State) : Nat := (s.pendingHw.filter (fun r => r.src == .log)).length

/-- Ends a grid's context at once: its teams stop, their escrow is discarded, their reservations are freed, and the grid
completes with error status (R400, R343). -/
def State.killGrid (s : State) (g : Nat) : State :=
  if (s.grid? g).any (fun x => !x.killed) then
    let cores := distinct ((s.teams.filter (fun t => t.grid == g)).map (·.core))
    let s := { s with teams := s.teams.filter (fun t => t.grid != g),
                      saved := s.saved.filter (fun v => v.team.grid != g) }
    let s := cores.foldl (fun s k => s.laterOnce (.rangeLockFree k)) s
    let s := s.modGrid g (fun x => { x with killed := true, err := true, live := 0, deferred := [], merging := false })
    s.laterOnce (.gridCompletion g)
  else s

/-- Writes one log line, or counts it in ELLOST when the log is full (R402). A log whose base is no physical address of the device has its
lines beyond the populated slots, where they are refused (R48). -/
def State.putLog (s : State) (e : LogEv) : State :=
  let size := s.cwInt 6601
  let tail := s.cwInt 6602 + s.logsPending
  if size ≤ 0 ∨ tail - s.cwInt 6603 ≥ size then s.setCwInt 6605 (s.cwInt 6605 + 1)
  else
    let at_ := s.cwInt 6600 / 81 + tail % size
    let slot := if at_ < 0 then 5153960664 else at_.toNat
    s.later [.homeHw { slot := slot, op := .words ((List.range 27).zip e.words), src := .log, elig := some false }]

/-- The events of a stamp are logged in the order of their source numbers; those of one source keep the order in which they were raised
(R399). -/
def State.flushLog (s : State) : State :=
  let l := s.logq
  (sortBy (fun a b => decide (a.src ≤ b.src)) l).foldl State.putLog { s with logq := [] }

/-- An event takes its place in the log, and the interrupt is sent (R402). DESIGN CHOICE, log entry 22: an event that names no grid
carries the stamp of partition 0. -/
def State.logLine (s : State) (e : Event) (act : Int) (interrupt : Bool) : State :=
  let stamp := s.stampOf (match e.grid.bind s.grid? with | some g => g.part | none => 0)
  let node := match e.grid.bind s.grid? with | some g => g.nodeAddr | none => 0
  let words : List Word :=
    [.ofInt e.cls, .ofInt e.src, e.addr, .ofInt e.kind, lowWord stamp, highWord stamp, .ofInt node,
     match e.lin with | some l => lowWord l | none => .ofInt (-1), .ofInt act, .ofInt e.detail,
     match e.lin with | some l => highWord l | none => .zero, lowWord e.lin2, highWord e.lin2] ++ List.replicate 14 .zero
  let s := { s with logq := s.logq ++ [{ src := e.src, words := words }] }
  if interrupt ∧ 0 ≤ s.cwInt 6604 ∧ s.cwInt 6604 ≤ 728 then { s with irqs := s.irqs ++ [(s.cwInt 6604).toNat] } else s

/-- A source of a partition that is being reset: a core of its clusters, its fabric ports and host chiplets (R447). -/
def State.hushed (s : State) (src : Nat) : Bool :=
  (List.range 9).any (fun p => field (s.partWord p 0) 1 0 == -1
    && (if src < 324 then trit (s.partWord p (1 + src / 81)) (src % 81 / 9) == 1
        else if src = 654 ∨ src = 655 then trit (s.partWord p 9) (src - 654) == 1
        else 656 ≤ src && src < 704 && trit (s.partWord p (7 + (src - 656) / 24)) ((src - 656) % 24) == 1))

/-- Raises an event: the severity matrix decides what is done (R400); a partition's sources are not heard while it is being reset
(R447). -/
def State.raise (s : State) (e : Event) : State :=
  let act := if s.hushed e.src then 0 else s.action e.cls e.src
  if act = 0 then s
  else if act = 1 then s.logLine e 1 false
  else if act = 2 then s.logLine e 2 true
  else if act = -1 then
    match e.grid with
    | some g => (s.logLine e (-1) true).killGrid g
    | none => s.logLine e 2 true
  else
    let p := match e.grid.bind s.grid? with
      | some g => some g.part
      | none => if e.src < 324 then s.partOfCore e.src
                else if e.kind = -1 then s.partOfFrame (e.addr.val.toNat / 2187) else none
    match p with
    | some p => (s.logLine e (-2) true).later [.partitionReset p]
    | none => s.logLine e 2 true

/-! ### Traps -/

/-- Why a thread stops in a trap (R369), with the error class that is raised beside it, if any. -/
structure Trap where
  cause : Nat
  detail : Int
  addr : Word
  aux : Word
  cls : Option Nat
deriving DecidableEq, Repr

/-- A trap with no ticket and no error class. -/
def Trap.of (cause : Nat) (detail : Int) (addr : Word) : Trap :=
  { cause := cause, detail := detail, addr := addr, aux := .zero, cls := none }

/-- Why an access does not complete: a trap; a recoverable fault with the rights it needs; or a line or a range that is
busy, so that the instruction is tried again. -/
inductive Stop where
  | trap (t : Trap)
  | recov (perm : Bool) (level : Nat) (va : Word) (acc : Access)
  | busy
deriving DecidableEq, Repr

/-- Events enter the handler in order of stamp, squad, cause and detail (R372). -/
def TrapEv.notAfter (a b : TrapEv) : Bool :=
  if a.stamp ≠ b.stamp then a.stamp < b.stamp
  else if a.squad ≠ b.squad then a.squad < b.squad
  else if a.cause ≠ b.cause then a.cause < b.cause
  else a.detail ≤ b.detail

/-- Queues one trap event: its lanes are trapped and the event waits for the team's handler (R368, R372). -/
def State.queueTrap (s : State) (n : Nat) (e : TrapEv) : State :=
  let s := s.modTeam n (fun t => { t with events := insertBy TrapEv.notAfter e t.events })
  let s := s.modSquad n e.squad (fun q => { q with threads := (q.threads.zipIdx).map (fun (th, l) =>
    match assocGet e.faults l with
    | some a => { th with run := .trapped, fault := a }
    | none => th) })
  s.laterOnce (.trapEntry n)

/-- The groups of an instruction's trapping threads that make one event: one team, squad, cause and detail (R372). -/
def trapKeys (l : List (TRef × Trap)) : List (Nat × Nat × Nat × Int) :=
  let ks := distinct (l.map (fun p => (p.1.team, p.1.squad, p.2.cause, p.2.detail)))
  sortBy (fun a b =>
    if a.1 ≠ b.1 then a.1 < b.1 else if a.2.1 ≠ b.2.1 then a.2.1 < b.2.1
    else if a.2.2.1 ≠ b.2.2.1 then a.2.2.1 < b.2.2.1 else a.2.2.2 ≤ b.2.2.2) ks

/-- Raises the trap of one instruction in its threads: one event for each squad and each pair of cause and detail
(R369–R372), with the instruction's words (R371). The error class that goes with a trap is raised once for each address at which
lanes meet it (R85, R393). -/
def State.raiseTraps (s : State) (l : List (TRef × Trap)) (pc : Word) (words : List Word) : State :=
  (trapKeys l).foldl (fun s k =>
    let mine := l.filter (fun p => (p.1.team, p.1.squad, p.2.cause, p.2.detail) == k)
    let first := (mine.map (·.2)).headD (Trap.of 0 0 .zero)
    let s := (distinct (mine.filterMap (fun p => p.2.cls.map (fun c => (c, p.2.addr))))).foldl
      (fun s e => s.raise (s.teamEvent e.1 k.1 1 e.2 0)) s
    s.queueTrap k.1
      { cause := k.2.2.1, detail := k.2.2.2, squad := k.2.1, lanes := mine.map (·.1.lane), stamp := s.stampOf (s.partOf k.1),
        pc := pc, instr := words, aux := first.aux, faults := mine.map (fun p => (p.1.lane, p.2.addr)) }) s

/-- The trits + at the given places (R371). -/
def maskWord (lanes : List Nat) : Word := .ofInt ((lanes.map (fun l => ((3 ^ l : Nat) : Int))).sum)

/-- Writes line `i` (0 … 2) of a team's trap frame (R371). -/
def State.setFrameLine (s : State) (n i : Nat) (l : List Word) : State :=
  s.modBody n (fun b => { b with cab := ((List.range 27).zip l).foldl (fun c p => cabPut c (-81 + 27 * i + p.1) p.2) b.cab })

/-- Takes the team's next trap event: freezes the squad, writes the frame of R371, switches to the trap bank and the
handler predicates, and sets the handler PC to TVEC (R372). The one place where a trap is entered. -/
def State.enterTrap (s : State) (n : Nat) (t : Team) (e : TrapEv) (rest : List TrapEv) : State :=
  let q := (t.body.squads[e.squad]?)
  let ths := match q with | some q => q.threads | none => []
  let live := (ths.zipIdx).filter (fun (th, _) => th.run != .exited)
  let line0 : List Word :=
    [.ofInt e.cause, .ofInt e.detail, maskWord e.lanes, .ofInt e.squad,
     wordAt e.instr 0, wordAt e.instr 1, wordAt e.instr 2, lowWord e.stamp, highWord e.stamp, e.aux, .ofInt rest.length,
     maskWord (live.map (·.2)), maskWord ((live.filter (fun p => p.1.run == .parked)).map (·.2)),
     maskWord ((live.filter (fun p => p.1.wins.any (fun w => w.left != 0))).map (·.2)), .zero] ++ List.replicate 12 .zero
  let line1 := ths.map (fun th => if th.run = .exited then Word.zero else th.pc)
  let line2 := (ths.zipIdx).map (fun (_, l) => (assocGet e.faults l).getD .zero)
  let s := ((s.setFrameLine n 0 line0).setFrameLine n 1 line1).setFrameLine n 2 line2
  let s := s.modSquad n e.squad (fun q => { q with frozen := true })
  s.modTeam n (fun t => { t with events := rest,
                                 handler := some { squad := e.squad, pc := t.tvec, ev := e, run := .ready } })

end Sys2Proof.Machine
end

