-- ==== Sys2Proof/Machine/Flags.lean ====
section
/-! DEFINITION. Predicates: guard conditions (R160), comparisons (R222, R255), class codes (R256). -/

namespace Sys2Proof.Machine

/-- A guard condition holds of a predicate's trit (R160). -/
def condHolds (c : GCond) (t : Trit) : Bool :=
  match c with
  | .always => true
  | .isPos => t == .p
  | .notPos => t != .p
  | .isZero => t == .z
  | .notZero => t != .z
  | .isNeg => t == .m
  | .notNeg => t != .m

/-- A condition code of R160 on a sign; 4, "never", and −4 never hold (R239, R358). -/
def codeHolds (c x : Int) : Bool :=
  if c = 0 then true
  else if c = 1 then x = 1
  else if c = -1 then x ≠ 1
  else if c = 2 then x = 0
  else if c = -2 then x ≠ 0
  else if c = 3 then x = -1
  else if c = -3 then x ≠ -1
  else false

/-- CMP's trit: the sign of the exact difference (R222). -/
def cmpTrit (a b : Int) : Trit := .ofInt (a - b)

/-- FCMP's trit; `place` is F, the place of NaN (R255). -/
def fcmpTrit (place : Int) (a b : FVal) : Trit :=
  if a.isNan || b.isNan then
    if place = 0 then .z
    else if a.isNan && b.isNan then .z
    else if a.isNan then .ofInt place else .ofInt (-place)
  else .ofInt (a.cmp b)

/-- FCLASS's code of an encoding (R256). -/
def classCode (f : FFmt) (x : Int) : Int :=
  let s := fun (neg : Bool) (k : Int) => if neg then -k else k
  match f.classify x with
  | .canonZero => 0
  | .otherZero => 4
  | .normal n => s n 1
  | .subnormal n => s n 2
  | .unnormal n => s n 3
  | .infinity n => s n 5
  | .canonNaN => 6
  | .otherNaN => -6

end Sys2Proof.Machine
end

