-- ==== Sys2Proof/Machine/Operands.lean ====
section
/-! DEFINITION. Operands: who executes (a lane, a squad, a handler), registers by field, routing, immediates, elements and
block steps (R138–R163, R211–R213). -/

namespace Sys2Proof

/-- The digit d of a position (R148). -/
def digitOf (q d : Nat) : Nat := q / 3 ^ d % 3

/-- The source position of a routing in a group of size n, for the lane at position q; `ix` is the value of the register
that C names (R148). -/
def Route.source (r : Route) (n q : Nat) (ix : Int) : Nat :=
  match r with
  | .none => q
  | .rot a _ => (q + a) % n
  | .rotb a _ => (q + n * 14 - a) % n
  | .bcast b => b
  | .rev _ => n - 1 - q
  | .bfly d up _ =>
    let g := digitOf q d
    q - g * 3 ^ d + ((g + (if up then 1 else 2)) % 3) * 3 ^ d
  | .grot w _ a => w * (q / w) + (((q % w : Nat) + a) % (w : Int)).toNat
  | .tri x y z => 3 * (q / 3) + (if q % 3 = 0 then x else if q % 3 = 1 then y else z)
  | .idx _ => (ix % (n : Int)).toNat

/-- The fill by the reading lane's own value (R151). -/
def Route.own (r : Route) : Bool :=
  match r with
  | .rot _ o | .rotb _ o | .rev o | .bfly _ _ o | .grot _ o _ | .idx o => o
  | _ => false

/-- The cases of R153 that depend on the group size n. -/
def Route.tooBig (r : Route) (n : Nat) : Bool :=
  match r with
  | .bcast b => n ≤ b
  | .bfly d _ _ => n < 3 ^ (d + 1)
  | .grot w _ _ => n < w
  | _ => false

/-- The width of an element in trits. -/
def ETy.width : ETy → Nat
  | .t1 => 1
  | .t9 | .tf9 => 9
  | _ => 27

end Sys2Proof

namespace Sys2Proof.Machine

/-- How an instruction executes: in one lane of a vector bundle, once for a squad (scalar), or in a trap handler (R374). -/
inductive Mode where
  | vec | sca | han
deriving DecidableEq, Repr

/-- One execution of an instruction: its lane (for a squad, the lowest-numbered lane of the bundle) and the threads it
stands for. -/
structure Exec where
  mode : Mode
  t : TRef
  ts : List TRef
deriving DecidableEq, Repr

namespace Exec

/-- The register number of a field value (R159). -/
def num (v : Int) : Nat := (v + 121).toNat

/-- Reads the register that a field names, `k` block steps on (R144, R159, R374). -/
def reg (s : State) (x : Exec) (v : Int) (k : Nat) : Word :=
  match x.mode with
  | .vec => s.vreg x.t (num v + k)
  | .sca => s.kreg x.t.team x.t.squad false (num v)
  | .han => s.kreg x.t.team x.t.squad true (num v)

/-- Writes the register that a field names. -/
def set (s : State) (x : Exec) (v : Int) (k : Nat) (w : Word) : State :=
  match x.mode with
  | .vec => s.setV x.t (num v + k) w
  | .sca => s.setK x.t.team x.t.squad false (num v) w
  | .han => s.setK x.t.team x.t.squad true (num v) w

/-- Reads a field that always names a k register: of the normal bank, or of the trap bank in a handler (R142). -/
def kreg (s : State) (x : Exec) (v : Int) : Word := s.kreg x.t.team x.t.squad (x.mode == .han) (num v)

/-- Writes a field that always names a k register. -/
def setK (s : State) (x : Exec) (v : Int) (w : Word) : State := s.setK x.t.team x.t.squad (x.mode == .han) (num v) w

/-- Reads predicate `i`: the lane's, the lowest lane's of a scalar bundle, or the handler's (R160, R372). -/
def pred (s : State) (x : Exec) (i : Nat) : Trit :=
  match x.mode with
  | .han => match s.squad? x.t.team x.t.squad with
    | some q => predAt q.hp i
    | none => if i = 0 then .p else .z
  | _ => s.pred x.t i

/-- Writes predicate `i`: every thread of a scalar bundle receives it (R222). -/
def setPred (s : State) (x : Exec) (i : Nat) (v : Trit) : State :=
  match x.mode with
  | .han => s.modSquad x.t.team x.t.squad (fun q => { q with hp := predPut q.hp i v })
  | _ => x.ts.foldl (fun s r => s.setPred r i v) s

/-- The guard holds (R160). -/
def guard (s : State) (x : Exec) (o : Opnd) : Bool := condHolds o.gc (x.pred s o.gp)

end Exec

/-- The predicate number of a field value (R141). -/
def predNum (v : Int) : Nat := (v + 4).toNat

/-! ### Routing (R147–R153) -/

/-- The member of a lane's group at a position (R148). -/
def State.member (s : State) (t : TRef) (gr pos : Nat) : Option Nat :=
  let g := s.groupWord t.team t.squad gr t.lane
  (List.range 27).find? (fun l =>
    let h := s.groupWord t.team t.squad gr l
    groupVal h && groupNum h == groupNum g && groupPos h == pos)

/-- Reads a source field, routed or not (R148–R151). -/
def Exec.src (s : State) (x : Exec) (o : Opnd) (r : Route) (v : Int) (k : Nat) : Word :=
  match r with
  | .none => x.reg s v k
  | r =>
    let g := s.groupWord x.t.team x.t.squad o.gr x.t.lane
    let p := r.source (groupSize g) (groupPos g) (x.reg s o.c k).val
    match s.member x.t o.gr p with
    | none => .zero
    | some l =>
      if s.exited { x.t with lane := l } then (if r.own then x.reg s v k else .zero)
      else s.vreg { x.t with lane := l } (Exec.num v + k)

/-- Source A. -/
def Exec.srcA (s : State) (x : Exec) (o : Opnd) (k : Nat) : Word := x.src s o o.ma o.a k

/-! ### Elements (R20, R140, R162, R212) -/

/-- Element `i` of a word. -/
def elemAt (et : ETy) (x : Int) (i : Nat) : Int :=
  match et with
  | .t1 => trit x i
  | .t9 | .tf9 => sub9 x i
  | _ => x

/-- The word of a type's elements. -/
def ofElems (et : ETy) (l : List Int) : Word :=
  match et with
  | .t1 => .ofInt (ofTrits l)
  | .t9 | .tf9 => .ofInt (ofSubs (l.getD 0 0) (l.getD 1 0) (l.getD 2 0))
  | _ => .ofInt (l.headD 0)

/-- Computes each element of the type from the same element of the sources (R20). -/
def mapElems (et : ETy) (f : List Int → Int) (ws : List Word) : Word :=
  ofElems et ((List.range et.per).map (fun i => f (ws.map (fun w => elemAt et w.val i))))

/-- The word that an immediate stands for (R212). -/
def immWord (et : ETy) (c : Int) : Word := ofElems et (List.replicate et.per (wrap et.width c))

/-- Source B, or what stands for it: word 3 (R163), or the immediate of F = +1 (R211, R212). -/
def Exec.srcB (s : State) (x : Exec) (o : Opnd) (imm : Bool) (k : Nat) : Word :=
  if o.len = 3 then o.w3
  else if imm && o.f == 1 then immWord o.et o.c
  else x.src s o o.mb o.b k

/-- Register C, which is never routed. -/
def Exec.srcC (s : State) (x : Exec) (o : Opnd) (k : Nat) : Word := x.reg s o.c k

/-- The block steps r + 9c of an extent, ascending (R144). -/
def blockSteps (o : Opnd) : List Nat :=
  ((List.range o.xc).map (fun c => (List.range o.xr).map (fun r => r + 9 * c))).flatten

/-- The v registers that an instruction names in every block step (R144, R145): its fields' and the further ones. -/
def vregsOf (fm : Form) (o : Opnd) : List Nat :=
  let fm := fm.at o.len
  let sc := o.et.scalar
  let f := fun (u : Use) (v : Int) => if u.isV sc then [Exec.num v] else []
  let base := f fm.d o.d ++ f fm.a o.a ++ f fm.b o.b ++ (if o.indexed then [Exec.num o.c] else f fm.c o.c)
    ++ (if sc then [] else fm.moreV.map Exec.num)
  ((blockSteps o).map (fun k => base.map (· + k))).flatten

/-- The k registers that an instruction names outside a handler. -/
def kregsOf (fm : Form) (o : Opnd) : List Nat :=
  let fm := fm.at o.len
  let f := fun (u : Use) (v : Int) => if u == .k || (u == .r && o.et.scalar) then [Exec.num v] else []
  f fm.d o.d ++ f fm.a o.a ++ f fm.b o.b ++ f fm.c o.c ++ (if o.et.scalar then fm.moreK.map Exec.num else [])

end Sys2Proof.Machine
end

