-- ==== Sys2Proof/Machine/Memory.lean ====
section
/-! DEFINITION. Memory: the shell's reads and writes of HBM, the home slices, the copies of L1s and host agents, and the
transactions of R97–R106, performed whole in one step or opened, answered and closed by steps of their own. -/

namespace Sys2Proof.Machine

/-! ### Homes, slots, frames -/

/-- The home vault of a slot (R89). -/
def homeOf (slot : Nat) : Nat := (7 * (slot % 324) + 13 * (slot / 324) + slot / 104976) % 324
/-- The die of a slot's home. -/
def homeDie (slot : Nat) : Nat := homeOf slot / 81
/-- Slots populated (R45). -/
def slotCount : Nat := 5153960664
/-- Frames populated (R45). -/
def frameCount : Nat := 190887432
/-- The shell die of a slot: stack f mod 12, three stacks a die (R45, R46). -/
def shellOf (slot : Nat) : Nat := slot / 27 % 12 / 3

/-- The format code of a frame: 0 T, 1 B, 2 or 3 retired (R46). -/
def State.frame (s : State) (f : Nat) : Nat := (assocGet s.frames f).getD 0
/-- Sets a frame's code. -/
def State.setFrame (s : State) (f c : Nat) : State :=
  { s with frames := if c = 0 then assocDel s.frames f else natPut s.frames f c }
/-- A slot of a B-frame. -/
def State.isB (s : State) (slot : Nat) : Bool := s.frame (slot / 27) == 1
/-- A slot of a T-frame. -/
def State.isT (s : State) (slot : Nat) : Bool := s.frame (slot / 27) == 0

/-- A line in its home slice. -/
def State.vl (s : State) (slot : Nat) : Option VLine := s.vlines.find? (fun v => v.slot == slot)
/-- Writes a line of a slice. -/
def State.putVl (s : State) (v : VLine) : State :=
  { s with vlines := insertBy (fun a b => a.slot ≤ b.slot) v (s.vlines.filter (fun u => u.slot != v.slot)) }
/-- Removes a line from its slice. -/
def State.dropVl (s : State) (slot : Nat) : State := { s with vlines := s.vlines.filter (fun u => u.slot != slot) }

/-- A copy in an agent's cache. -/
def State.copy (s : State) (a slot : Nat) : Option Copy := s.copies.find? (fun c => c.agent == a && c.slot == slot)
/-- Removes a copy. -/
def State.dropCopy (s : State) (a slot : Nat) : State :=
  { s with copies := s.copies.filter (fun c => !(c.agent == a && c.slot == slot)) }
/-- Writes a copy. -/
def State.putCopy (s : State) (c : Copy) : State :=
  { s with copies := (s.dropCopy c.agent c.slot).copies ++ [c] }
/-- The agents that hold a copy. -/
def State.holders (s : State) (slot : Nat) : List Nat := (s.copies.filter (fun c => c.slot == slot)).map (·.agent)

/-- Why a physical address may not be accessed (R46, R48): class 6 beyond the populated slots, class 5 in a retired frame. -/
def State.physWhy (s : State) (slot : Nat) : Option Nat :=
  if slotCount ≤ slot then some 6 else if 2 ≤ s.frame (slot / 27) then some 5 else none

/-! ### The shell's reads and writes -/

/-- Adds to a frame's retirement score, and advises retirement when it reaches RETTHR (R398). -/
def State.score (s : State) (slot k : Nat) : State :=
  let f := slot / 27
  let old := (assocGet s.scores f).getD 0
  let new := min 9841 (old + k)
  let s := { s with scores := natPut s.scores f new }
  if (old : Int) < s.cwInt 6653 ∧ s.cwInt 6653 ≤ (new : Int) then s.raise (Event.phys 26 653 (2187 * f)) else s

/-- The tables of the die that homes a slot (R106). -/
def State.tablesOf (s : State) (slot : Nat) : List (Option (List Int)) := (s.die (homeDie slot)).denom.tables

/-- What an uncorrectable read or transfer of a slot raises and counts (R62, R63, R398). -/
def State.uncorrectable (s : State) (slot : Nat) : State :=
  (s.raise (Event.phys 2 (648 + shellOf slot) (81 * slot))).score slot 27

/-- The shell reads a slot: the line, corrected or poisoned, with the events and scores of R53, R62 and R398. -/
def State.hbmFetch (s : State) (slot : Nat) : State × Read :=
  if s.isT slot && hbmUntouched s.hbm slot then (s, { line := zeroLine, cmp := false, dgen := 0, fixed := 0, bad := false })
  else
    let r := readImage (s.isB slot) (s.tablesOf slot) (hbmSlot s.hbm slot)
    let s := if r.bad then s.uncorrectable slot
             else if r.fixed ≠ 0 then (s.raise (Event.phys 1 (648 + shellOf slot) (81 * slot))).score slot 1 else s
    (s, r)

/-- The image that a write-back of a line stores, and whether it is compressed (R50, R56, R106). -/
def State.imageOf (s : State) (slot : Nat) (l : Line) (elig : Bool) : List Nat :=
  if s.isB slot then imageB l
  else
    let d := (s.die (homeDie slot)).denom
    match (if elig then d.active else none) with
    | none => imageT l
    | some a => match d.tables.getD a none with
      | none => imageT l
      | some table => (imageC table ((a : Int) - 1) l).getD (imageT l)

/-- Counts the trytes of an eligible T-line that a slice writes back in a sampling window (R109). -/
def State.sample (s : State) (slot : Nat) (l : Line) (elig : Bool) : State :=
  if elig && s.isT slot && (s.die (homeDie slot)).denom.sampling && !l.poison then
    s.modDie (homeDie slot) (fun d => { d with denom := { d.denom with
      counts := (lineTrytes l).foldl (fun c t => intPut c t (min 1594323 ((assocGet c t).getD 0 + 1))) d.denom.counts } })
  else s

/-- The shell writes a line's image with its check (R50, R55, R56). -/
def State.hbmStore (s : State) (slot : Nat) (l : Line) (elig : Bool) : State :=
  { s with hbm := hbmPutAll s.hbm (160 * slot) (s.imageOf slot l elig) }

/-! ### Copies and the directory -/

/-- An owner on some agent holds the line dirty (R97). -/
def State.dirtyCopy (s : State) (slot : Nat) : Option Copy :=
  s.copies.find? (fun c => c.slot == slot && (c.st == .M || c.st == .O))

/-- Removes from the snoop filters every copy of a slot but those of the agents kept (R103). -/
def State.unfilter (s : State) (slot : Nat) (keep : List Nat) : State :=
  { s with dies := s.dies.map (fun d => { d with
      filter := (d.filter.map (fun p => if p.1 = slot then (p.1, p.2.filter keep.contains) else p)).filter
        (fun p => !p.2.isEmpty) }) }

/-- Removes one agent's copy from the directory and the filter (R99: WbD, EvC). -/
def State.leave (s : State) (a slot : Nat) (data : Option Line) : State :=
  let s := s.dropCopy a slot
  let s := s.unfilter slot (s.holders slot)
  match s.vl slot with
  | none => s
  | some v =>
    let rest := s.holders slot
    let v := match data with | some l => { v with line := l, vdirty := true, flips := [] } | none => v
    let v := { v with sharers := v.sharers.filter (· != a) }
    let st := if data.isSome ∨ (v.owner = a ∧ v.st = .E) then (if rest.isEmpty then LSt.I else .S)
              else if rest.isEmpty ∧ v.st = .S then .I else v.st
    s.putVl { v with st := st, remote := v.remote && !rest.isEmpty }

/-! ### Cache blocks (R96) -/

/-- The trits of a block that are in error: a block is 81 data trits, 6 check trits (log entry 57). -/
def blockErrors (flips : List Nat) (b : Nat) : Nat := ((distinct flips).filter (fun p => p / 87 == b)).length

/-- The blocks of a stored line with one wrong trit, which the code corrects (R96). -/
def fixedBlocks (flips : List Nat) : Nat := ((List.range 9).filter (fun b => blockErrors flips b == 1)).length

/-- What the nine blocks of a stored line show (R96). -/
inductive Health where
  | sound
  /-- single errors, corrected -/
  | fixed
  /-- an uncorrectable block -/
  | lost
deriving DecidableEq, Repr

/-- The code of R96 corrects one wrong trit in a block and detects two; `bad` is a block that counts as uncorrectable. -/
def health (flips : List Nat) (bad : Bool) : Health :=
  if bad || (List.range 9).any (fun b => 2 ≤ blockErrors flips b) then .lost
  else if flips.isEmpty then .sound else .fixed

/-- A B-line in a slice holds the pattern + + in a group (R57, R96). -/
def badGroup (l : Line) : Bool := (groupsOf 2 341 (lineDigits l)).any (· == [2, 2])

/-- The source number of an agent (R399). -/
def agentSource (a : Nat) : Nat := if a < 324 then a else if a < 326 then 330 + a else 652

/-- One "cache corrected" event for each block corrected (R96). -/
def State.raiseFixed (s : State) (flips : List Nat) (src slot : Nat) : State :=
  (List.range (fixedBlocks flips)).foldl (fun s _ => s.raise (Event.phys 3 src (81 * slot))) s

/-- A slice reads a line it holds (R96): corrected, refetched from HBM where it is clean, or poisoned where it is dirty. -/
def State.checkVl (s : State) (v : VLine) : State × VLine :=
  match health v.flips (s.isB v.slot && badGroup v.line) with
  | .sound => (s, v)
  | .fixed =>
    let u := { v with flips := [] }
    ((s.raiseFixed v.flips (324 + homeOf v.slot) v.slot).putVl u, u)
  | .lost =>
    let s := s.raiseFixed v.flips (324 + homeOf v.slot) v.slot
    let (s, l) := if v.vdirty then (s, poisonLine) else let (s, r) := s.hbmFetch v.slot; (s, r.line)
    let v := { v with line := l, flips := [] }
    (s.putVl v, v)

/-- An agent reads a copy it holds (R96): corrected, dropped where it is clean, or poisoned where it is dirty; a leased clean copy is
refetched in place. -/
def State.checkCopy (s : State) (c : Copy) : State × Option Copy :=
  match health c.flips false with
  | .sound => (s, some c)
  | .fixed =>
    let u := { c with flips := [] }
    ((s.raiseFixed c.flips (agentSource c.agent) c.slot).putCopy u, some u)
  | .lost =>
    let s := s.raiseFixed c.flips (agentSource c.agent) c.slot
    if c.st = .M ∨ c.st = .O then
      let c := { c with line := poisonLine, flips := [] }
      (s.putCopy c, some c)
    else if c.leased then
      let c := { c with line := ((s.vl c.slot).map (·.line)).getD c.line, flips := [] }
      (s.putCopy c, some c)
    else (s.leave c.agent c.slot none, none)

/-- A dirty line that its blocks show to be lost. -/
def Copy.lostDirty (c : Copy) : Bool := (c.st == .M || c.st == .O) && health c.flips false == .lost

/-- A dirty line that is found uncorrectable as it leaves a cache, and that no lease or escrow owns, is an orphan (R395). -/
def State.orphan (s : State) (lost : Bool) (src slot : Nat) : State :=
  if lost then s.raise (Event.phys 7 src (81 * slot)) else s

/-- The data of the dirty copy of a slot, as its owner supplies it. -/
def State.takeDirty (s : State) (slot : Nat) : State × Option Line :=
  match s.dirtyCopy slot with
  | none => (s, none)
  | some c => match s.checkCopy c with
    | (s, some c) => (s, some c.line)
    | (s, none) => (s, none)

/-- What the walkers do when a line they watch changes or leaves them: fault-list entries and waiting postings (R88, R86), wait-word
nodes (R360). -/
def State.walkerWakes (s : State) (slot : Nat) : List Instr :=
  (if s.posts.any (fun p => p.entry == some slot) then [Instr.faultEntryDone slot] else [])
  ++ (distinct ((s.posts.filter (fun p => p.entry == none && p.asrec / 81 == slot)).map (·.asrec))).map Instr.faultPostingResume
  ++ (s.graphs.map (fun g => (g.watch.filter (fun p => p.2 == slot)).map (fun p => Instr.waitWordNode g.slot p.1))).flatten

/-- A walker that loses its copy of a line that it watches reads the line again (R88, R360). -/
def State.lostWakes (s : State) (slot : Nat) : List Instr :=
  if s.copies.any (fun c => c.slot == slot && 326 ≤ c.agent) then s.walkerWakes slot else []

/-- Invalidates every copy of a slot: the state, and the data that a dirty copy supplied. -/
def State.invalidate (s : State) (slot : Nat) : State × Option Line :=
  let (s, d) := s.takeDirty slot
  (({ s with copies := s.copies.filter (fun c => c.slot != slot) }.unfilter slot []).later (s.lostWakes slot), d)

/-! ### Vault slices -/

/-- A line that the slice may evict: no pin, no transaction or request, no lease at the home or on a copy (R90). -/
def State.evictable (s : State) (v : VLine) : Bool :=
  v.pin.isNone && v.txn.isNone && v.queue.isEmpty && !v.leased && !(s.copies.any (fun c => c.slot == v.slot && c.leased))

/-- Writes a dirty slice line back to HBM (R90, R106). -/
def State.writeBack (s : State) (v : VLine) : State :=
  (s.sample v.slot v.line v.elig).hbmStore v.slot v.line v.elig

/-- Evicts a line: every copy is invalidated first, and dirty data is written back (R90); a dirty line that is found uncorrectable
then is an orphan (R395). -/
def State.evict (s : State) (v : VLine) : State :=
  let s := match s.dirtyCopy v.slot with
    | some c => s.orphan c.lostDirty (agentSource c.agent) v.slot
    | none => s.orphan (v.vdirty && health v.flips (s.isB v.slot && badGroup v.line) == Health.lost) (324 + homeOf v.slot) v.slot
  let (s, d) := s.invalidate v.slot
  let (s, v) := match d with
    | some l => (s, { v with line := l, vdirty := true })
    | none => s.checkVl v
  let s := if v.vdirty then s.writeBack v else s
  s.dropVl v.slot

/-- The lines of a slot's set in its home slice (R90). -/
def State.sameSet (s : State) (slot : Nat) : List VLine :=
  s.vlines.filter (fun v => homeOf v.slot == homeOf slot && v.slot / 324 % 243 == slot / 324 % 243)

/-- A way for a slot in its home slice, evicting a victim by a free choice where its set is full; `none` where the set holds no
eligible victim (R90; log entry 31). -/
def State.roomVault (s : State) (slot : Nat) : Option State :=
  let same := s.sameSet slot
  if same.length < 27 then some s
  else
    let cand := same.filter s.evictable
    if cand.isEmpty then none
    else
      let (s, i) := s.choose cand.length
      match cand[i]? with
      | some v => some (s.evict v)
      | none => none

/-- Makes a line present in its home slice (R90). A fill for a page of HOME = + pins the line, or raises "pin overflow" where nine
lines of its set are pinned (R93). -/
def State.ensure (s : State) (slot : Nat) (pin : Option (Nat × Nat)) : Option (State × VLine) :=
  match s.vl slot with
  | some v => some (s.checkVl v)
  | none => (s.roomVault slot).map (fun s =>
      let (s, r) := s.hbmFetch slot
      let full := pin.isSome && 9 ≤ ((s.sameSet slot).filter (·.pin.isSome)).length
      let s := if full then s.raise (Event.phys 16 (324 + homeOf slot) (81 * slot)) else s
      let v : VLine := { slot := slot, st := if r.cmp then .C else .I, owner := 0, sharers := [], remote := false,
                         vdirty := false, elig := r.cmp, pin := if full then none else pin, leased := false, line := r.line,
                         flips := [], dgen := r.dgen, txn := none, queue := [] }
      (s.putVl v, v))

/-! ### Writes at a home -/

/-- One float or integer combination of the till and the tellers (R123, R321): 1 and 2 add, 3 min, 4 max, −1 exchange,
−3 tritwise sum. -/
def combine (op : Int) (et : ETy) (s : Bool) (x v : Word) : Word :=
  if op = -1 then v
  else if op = -3 then .ofInt (tsum 27 x.val v.val)
  else mapElems et (fun l =>
    let a := l.getD 0 0
    let b := l.getD 1 0
    match et with
    | .tf9 | .tf27 =>
      let f := if et = .tf9 then tf9F else tf27F
      let p := f.decode a
      let q := f.decode b
      if op = 3 then f.deliver false .tern (p.min q)
      else if op = 4 then f.deliver false .tern (p.max q)
      else f.deliver s .tern (p.add q)
    | _ =>
      if op = 3 then min a b else if op = 4 then max a b else narrow et.width s (a + b)) [x, v]

/-- The exact sum of a word and operands, rounded once (R323, operation +2 of float types). -/
def sumOnce (et : ETy) (s : Bool) (x : Word) (vs : List Word) : Word :=
  mapElems et (fun l =>
    let f := if et = .tf9 then tf9F else tf27F
    f.deliver s .tern (FVal.sum (l.map f.decode))) (x :: vs)

/-- A float type. -/
def isFloat : ETy → Bool
  | .tf9 | .tf27 | .stf27 => true
  | _ => false

/-- RED's effect on a word (R322, R323). -/
def applyRed (op : Int) (et : ETy) (s : Bool) (x : Word) (vs : List Word) : Word :=
  if op = 2 && isFloat et then sumOnce et s x vs else vs.foldl (combine op et s) x

/-- Replaces words of a line. -/
def mergeWords (l : List Word) (ws : List (Nat × Word)) : List Word := ws.foldl (fun l p => setNth l p.1 p.2) l

/-- A merge (R99): it writes the words or bytes that the request names; a poisoned line stays poisoned unless all 27 words
are written (R394). DESIGN CHOICE, log entry 56: a host's bytes leave it poisoned, all 128 of them too (R60). -/
def applyHw (op : HwOp) (l : Line) : Line :=
  match op with
  | .words ws =>
    let all := (List.range 27).all (fun i => ws.any (fun p => p.1 == i))
    { w := mergeWords l.w ws, poison := l.poison && !all }
  | .trytes ts =>
    let all := (List.range 81).all (fun i => ts.any (fun p => p.1 == i))
    { lineOfTrytes (ts.foldl (fun l p => setNth l p.1 p.2) (lineTrytes l)) with poison := l.poison && !all }
  | .bytes bs =>
    { lineOfBytes (bs.foldl (fun b p => setNth b p.1 p.2.toNat) (bytesOfLine l)) with poison := l.poison }
  | .red w op et s vals => { l with w := setNth l.w w (applyRed op et s (wordAt l.w w) vals) }
  | .same => l

/-- The next serial of a slot's home (R320). -/
def State.nextSerial (s : State) (slot : Nat) : State × Word :=
  let h := homeOf slot
  let n := ((assocGet s.serials h).getD 0 + 1) % 10460353203
  ({ s with serials := natPut s.serials h n }, .ofInt ((h : Int) * 10460353203 + wrap 21 n))

/-- What a write at a line wakes: sleepers (R380) and walkers. -/
def State.noteWrite (s : State) (slot : Nat) : State :=
  let sleepers := ((s.teams.map (fun t => (s.threadsOf t.num).filter (fun p => match p.2.run with
    | .sleep l _ => l == slot
    | _ => false))).flatten).map (fun p => Instr.sleepWake p.1)
  s.later (sleepers ++ s.walkerWakes slot)

/-- Ends a merge write's wait (R335, R307). -/
def State.mergeAck (s : State) (g : Nat) : State :=
  let last := (s.grid? g).any (fun x => x.unack == 1)
  let ended := (s.grid? g).any (fun x => x.live == 0)
  let s := s.modGrid g (fun x => { x with unack := x.unack - 1 })
  let merging := (s.grid? g).any (·.merging)
  if last then s.laterOnce (if merging then .detMerge g else if ended then .gridCompletion g else .gphaseComplete g) else s

/-- Sends the acknowledgement flit of a line write (R128, R407); `rep` is 13 where the write was refused. -/
def State.peerAck (s : State) (rank : Nat) (tag : Int) (idx rep : Nat) : State :=
  { s with sent := s.sent ++ [{ ty := 3, src := (s.cwInt 6570).toNat, dst := rank, tag := tag, idx := idx, slot := 0,
                                line := zeroLine, mask := [], kth := 0, key := [], sig := [], rep := rep }] }

/-- An error response to a host access: its address is logged (R46, R58, R59, R104). -/
def State.hostError (s : State) (who addr : Nat) (logged : Bool) : State :=
  { s with answers := s.answers ++ [(who, .refused)], shellLog := if logged then s.shellLog ++ [addr] else s.shellLog }

/-- What the completion of a write at the home tells its writer. -/
def State.ackHw (s : State) (src : HwSrc) (serial : Word) : State :=
  match src with
  | .sts t reg => s.later [.stsAcknowledgement t reg { serial := serial }]
  | .red ts => s.later (ts.map (fun t => .stsAcknowledgement t none { serial := serial }))
  | .pub team pub vline => s.later [.publicationAck team pub { vline := vline }]
  | .peer rank tag idx => s.peerAck rank tag idx 0
  | .merge g => s.mergeAck g
  | .log => s.setCwInt 6602 (s.cwInt 6602 + 1)
  | .host _ => s

/-! ### Whole transactions -/

/-- A request for the line has to wait: others are before it at the home, or a lease holds the line at its home or in an L1
(R92, R112, R113). -/
def State.busy (s : State) (slot : Nat) : Bool :=
  s.vlines.any (fun v => v.slot == slot && (v.txn.isSome || v.leased || !v.queue.isEmpty))
  || s.copies.any (fun c => c.slot == slot && c.leased) || s.fillq.any (fun p => p.1 == slot)

/-- The line's data as the slice or a dirty copy holds it. -/
def State.dataOf (s : State) (v : VLine) : Line :=
  match s.dirtyCopy v.slot with
  | some c => c.line
  | none => v.line

/-- The write at the home, once its copies are gone: the merge, the directory, the serial, what it wakes (R99, R320). -/
def State.mergeAt (s : State) (v : VLine) (data : Line) (f : Line → Line) (elig : Option Bool) : State × Word :=
  let s := s.putVl { v with st := .I, owner := 0, sharers := [], remote := false, vdirty := true, line := f data,
                            elig := elig.getD v.elig, dgen := 0 }
  let (s, n) := s.nextSerial v.slot
  (s.noteWrite v.slot, n)

/-- A device unit's own access is refused: beyond the populated slots or in a retired frame no image is touched, and the class of the
address is raised (R46, R48). -/
def State.refuseUnit (s : State) (slot : Nat) : State :=
  match s.physWhy slot with
  | some c => s.raise (Event.phys c (648 + shellOf slot) (81 * slot))
  | none => s

/-- HW performed whole (R98, R99): the state, the line before the write, and the serial; `none` where it has to wait. -/
def State.homeWrite (s : State) (slot : Nat) (f : Line → Line) (elig : Option Bool) (pin : Option (Nat × Nat) := none) :
    Option (State × Line × Word) :=
  if (s.physWhy slot).isSome then some (s.refuseUnit slot, poisonLine, .zero)
  else if s.busy slot then none
  else match s.ensure slot pin with
    | none => none
    | some (s, v) =>
      let (s, d) := s.invalidate slot
      let data := d.getD v.line
      let (s, n) := s.mergeAt v data f elig
      some (s, data, n)

/-- HR performed whole (R98, R99): a read that leaves no copy. -/
def State.homeRead (s : State) (slot : Nat) (pin : Option (Nat × Nat) := none) : Option (State × Line) :=
  if (s.physWhy slot).isSome then some (s.refuseUnit slot, poisonLine)
  else if s.busy slot then none
  else match s.ensure slot pin with
    | none => none
    | some (s, v) =>
      let (s, d) := s.takeDirty slot
      some (s, d.getD v.line)

/-! ### Copies gained (R94, R102, R103) -/

/-- The ways of an L1 set that hold escrow lines (R95; log entry 6). -/
def State.escrowWays (s : State) (core set : Nat) : Nat :=
  ((s.teams.filter (fun t => t.core == core)).map (fun t =>
    (t.body.escrow.filter (fun e => !e.spilled && e.vline % 2187 == set)).length)).sum

/-- The home takes back a copy that an agent gives up (R99: WbD for dirty data, EvC): an agent's copy, read for the last time. -/
def State.takeBack (s : State) (c : Copy) : State :=
  match (s.orphan c.lostDirty (agentSource c.agent) c.slot).checkCopy c with
  | (s, none) => s
  | (s, some c) => s.leave c.agent c.slot (if c.st = .M ∨ c.st = .O then some c.line else none)

/-- Makes an agent give up one of its copies (R94, R103): the home takes it back, or, where requests for the line stand before it, the
WbD or EvC queues behind them, and dirty data waits in the write-back buffer (R92, R101). -/
def State.giveUp (s : State) (c : Copy) : State :=
  let s := s.later (if 326 ≤ c.agent then s.walkerWakes c.slot else [])
  match s.vl c.slot with
  | some v =>
    if v.txn.isSome || !v.queue.isEmpty then
      let dirty := c.st == .M || c.st == .O
      let s := if dirty then s.putCopy { c with back := true }
        else (s.dropCopy c.agent c.slot).unfilter c.slot ((s.dropCopy c.agent c.slot).holders c.slot)
      s.putVl { v with queue := v.queue ++ [.back c.agent dirty] }
    else s.takeBack c
  | none => s.takeBack c

/-- Makes room in a core's L1 set of 9 ways, evicting a copy that is not leased by a free choice; `none` where none may go (R94;
log entry 31). A line needs no room where the agent holds it. -/
def State.roomL1 (s : State) (a slot set : Nat) : Option State :=
  if a ≥ 324 then some s
  else
    let same := s.copies.filter (fun c => c.agent == a && c.slot % 2187 == set && c.slot != slot && !c.back)
    let cand := same.filter (fun c => !c.leased)
    if same.length + s.escrowWays a set < 9 then some s
    else if cand.isEmpty then none
    else
      let (s, i) := s.choose cand.length
      match cand[i]? with
      | some x => some (s.giveUp x)
      | none => none

/-- Enters a remote copy in the snoop filter of its die, of 59,049 sets of 27 ways: to free an entry, the copies that a victim marks
are invalidated, with WbD for dirty data (R102, R103). DESIGN CHOICE, log entry 31: slot s lies in set s mod 59,049, and the victim
is a free choice among the entries that mark no leased copy; `none` where there is none. -/
def State.addFilter (s : State) (a slot : Nat) : Option State :=
  let die := agentDie a
  let f := (s.die die).filter
  let enter := fun (s : State) => s.modDie die (fun d => { d with
    filter := natPut d.filter slot (distinct ((assocGet d.filter slot).getD [] ++ [a])) })
  let same := f.filter (fun p => p.1 % 59049 == slot % 59049)
  if die = homeDie slot then some s
  else if (assocGet f slot).isSome ∨ same.length < 27 then some (enter s)
  else
    let cand := same.filter (fun p => !(s.copies.any (fun x => x.slot == p.1 && p.2.contains x.agent && x.leased)))
    if cand.isEmpty then none
    else
      let (s, i) := s.choose cand.length
      match cand[i]? with
      | some p =>
        let s := (s.copies.filter (fun x => x.slot == p.1 && p.2.contains x.agent)).foldl State.giveUp s
        some (enter (s.modDie die (fun d => { d with filter := assocDel d.filter p.1 })))
      | none => none

/-- Room for a copy that an agent gains, in its cache and in the filter of its die. -/
def State.roomCopy (s : State) (a slot : Nat) : Option State := (s.roomL1 a slot (slot % 2187)).bind (fun s => s.addFilter a slot)

/-- The end of RdS (R99): `supplied` says that the snooped holder gave data, which is the slice line's by now. An agent that holds the
line already keeps its copy. -/
def State.endRds (s : State) (a : Nat) (v : VLine) (supplied : Bool) : Option State :=
  if (s.copy a v.slot).isSome then some s
  else (s.roomCopy a v.slot).map (fun s =>
    let st := match v.st with
      | .M | .O => LSt.O
      | .E => if supplied then .O else .S
      | .I => .E
      | x => x
    let s := s.putCopy { agent := a, slot := v.slot, st := if v.st = .I then .E else .S, line := v.line, leased := false, probes := [],
                         back := false, flips := [] }
    let far := agentDie a != homeDie v.slot
    let demoted := if v.st = .E ∧ !supplied ∧ agentDie v.owner = homeDie v.slot then [v.owner] else []
    s.putVl { v with st := st, owner := if v.st = .I then a else v.owner,
                     sharers := distinct (v.sharers ++ demoted ++ (if far then [] else [a])), remote := v.remote || far })

/-- A core has asked for the line to lease it (R111). -/
def State.leaseWaits (s : State) (core slot : Nat) : Bool :=
  s.teams.any (fun t => t.core == core && (s.threadsOf t.num).any (fun p =>
    p.2.leases.any (fun r => r.slot == slot && !r.granted && !r.atHome)))

/-- The end of RdX or Upg (R99): the requester owns the line, from its own copy where it holds one. A core's copy is marked leased at
the grant (R111); a host chiplet performs the write for which it asked (R94, R104), which is no COMPRESS write (R75). -/
def State.endRdx (s : State) (a : Nat) (v : VLine) (op : HwOp) : Option State :=
  let own := s.copy a v.slot
  let room := if own.isSome then some s else s.roomCopy a v.slot
  room.map (fun s =>
    let c := own.getD { agent := a, slot := v.slot, st := .M, line := v.line, leased := false, probes := [], back := false, flips := [] }
    let s := s.putCopy { c with st := .M, line := applyHw op c.line, leased := c.leased || s.leaseWaits a v.slot, back := false }
    let far := agentDie a != homeDie v.slot
    let s := s.putVl { v with st := .M, owner := a, sharers := if far then [] else [a], remote := far, dgen := 0,
                              elig := v.elig && op == .same }
    if op = .same then s else s.noteWrite v.slot)

/-- RdS performed whole: the line, with a copy left in the agent's cache (R98–R100). -/
def State.readShared (s : State) (a slot : Nat) (pin : Option (Nat × Nat) := none) : Option (State × Line) :=
  let fetch := fun (s : State) =>
    if (s.physWhy slot).isSome then some (s.refuseUnit slot, poisonLine)
    else if s.busy slot then none
    else match s.ensure slot pin with
      | none => none
      | some (s, v) =>
        let (s, d) := s.takeDirty slot
        let s := { s with copies := s.copies.map (fun (c : Copy) => if c.slot = slot then
            { c with st := if c.st = LSt.M ∨ c.st = LSt.O then LSt.O else LSt.S } else c) }
        let v := match d with | some l => { v with line := l, vdirty := true } | none => v
        (s.endRds a v d.isSome).map (fun s => (s, v.line))
  match s.copy a slot with
  | none => fetch s
  | some c => match s.checkCopy c with
    | (s, some c) => some (s, c.line)
    | (s, none) => fetch s

/-! ### Transactions in steps (R92, R99–R103) -/

/-- The snoop that a request sends in a home state; none where the slice answers alone (R99). -/
def snoopOf (req : Req) (st : LSt) : Option Snoop :=
  match req, st with
  | .back .., _ => none
  | _, .I => none
  | _, .S | _, .C => match req with
    | .rdx .. | .upg .. | .hw _ => some .inv
    | _ => none
  | _, .M => match req with
    | .rds .. => some .shr
    | .hr _ => some .get
    | _ => some .inv
  | _, .O => match req with
    | .rds .. | .hr _ => some .get
    | _ => some .inv
  | _, .E => match req with
    | .rds .. => some .shr
    | .hr _ => some .get
    | _ => some .inv

/-- The agent that makes a request, if it is one. -/
def Req.agent : Req → Option Nat
  | .rds a _ | .rdx a .. | .upg a .. | .back a _ => some a
  | _ => none

/-- The frame format that a request goes by: B (true), T (false), or either (R78, R104). -/
def Req.fmt : Req → Option Bool
  | .rds _ b | .rdx _ b _ | .upg _ b _ => some b
  | .back .. => none
  | .hw r => r.fmt
  | .hr r => r.fmt

/-- The step of a snoop. -/
def Snoop.step (a slot : Nat) : Snoop → Instr
  | .inv => .snoopInv a slot
  | .shr => .snoopShr a slot
  | .get => .snoopGet a slot

/-- Why the shell refuses a request (R46, R48, R78, R104): class 6 or 5 by its address, or 0 for a frame of the other format. -/
def State.refusal (s : State) (slot : Nat) (r : Req) : Option Nat :=
  match r with
  | .back .. => none
  | _ => match s.physWhy slot with
    | some c => some c
    | none => match r.fmt with
      | some b => if s.isB slot = b then none else some 0
      | none => none

/-- The trap that a refusal means for a thread's access (R79, R85). -/
def refusedFor (c : Nat) (va : Word) : Refused :=
  if c = 0 then { cause := 8, detail := 0, va := va } else { cause := 9, detail := if c = 5 then 1 else 0, va := va }

/-- The host that makes a request, with the address that the shell's error log takes (R58, R59, R104; DESIGN CHOICE, log entry 56). -/
def Req.host (slot : Nat) : Req → Option (Nat × Nat)
  | .rds a _ | .rdx a .. | .upg a .. => if a = 324 ∨ a = 325 then some (a, 81 * slot) else none
  | .back .. => none
  | .hw r => match r.src with
    | .host who => some (who, match r.op with
      | .bytes l => 128 * slot + ((l.head?).map (·.1)).getD 0
      | _ => 160 * slot)
    | _ => none
  | .hr r => match r.src with
    | .host who image lo _ => some (who, if image then 160 * slot + lo else 128 * slot + lo)
    | .prefetch => none

/-- The source number of a request's error event (R399). -/
def State.reqSource (s : State) (slot : Nat) : Req → Nat
  | .rds a _ | .rdx a .. | .upg a .. | .back a _ => agentSource a
  | .hw r => match r.src with
    | .sts t _ => s.coreOf t.team
    | .red ts => match ts.head? with | some t => s.coreOf t.team | none => 0
    | .pub n _ _ => s.coreOf n
    | .merge _ => 652
    | _ => 648 + shellOf slot
  | .hr _ => 648 + shellOf slot

/-- A request that the shell refuses (R46, R48, R78, R104): a host gets an error response and its address is logged; a device's
request raises the class of its address, and its writer learns of it. No image is read or written. A line of the event log is lost
with the event that its refusal would be: both are counted in ELLOST (log entry 56). -/
def State.refuse (s : State) (slot : Nat) (req : Req) (c : Nat) : State :=
  match req.host slot with
  | some (who, addr) => s.hostError who addr (slot < slotCount)
  | none =>
    let raised := if c = 0 then s else s.raise (Event.phys c (s.reqSource slot req) (81 * slot))
    match req with
    | .hw r => match r.src with
      | .sts t reg => raised.later [.stsAcknowledgement t reg { serial := .zero, no := some (refusedFor c r.va) }]
      | .red ts => raised.later (ts.map (fun t => .stsAcknowledgement t none { serial := .zero, no := some (refusedFor c r.va) }))
      | .pub n id v => raised.later [.publicationAck n id { vline := v, no := some (refusedFor c (.ofNum (81 * v))) }]
      | .peer rank tag idx => raised.peerAck rank tag idx 13
      | .merge g =>
        let s := raised.raise { Event.plain 13 652 with kind := -1, addr := .ofInt (81 * slot), grid := some g }
        (s.modGrid g (fun x => { x with err := true })).mergeAck g
      | .log => s.setCwInt 6605 (s.cwInt 6605 + 2)
      | .host _ => raised
    | _ => raised

/-- What a completed read at the home tells its reader (R59, R61). -/
def State.ackHr (s : State) (src : HrSrc) (slot : Nat) (l : Line) : State :=
  match src with
  | .host who image lo len =>
    let all := if !image then bytesOfLine l else if s.isB slot then imageB l else imageT l
    { s with answers := s.answers ++
      [(who, if l.poison then .poisoned else .data (((all.drop lo).take len).map (BitVec.ofNat 8)))] }
  | .prefetch => s

/-- The WbD or EvC of an agent comes to its turn (R99): a return of dirty data that a snoop has taken meanwhile is discarded (R101). -/
def State.endBack (s : State) (a slot : Nat) (dirty : Bool) : State :=
  match s.copy a slot with
  | none => if dirty then s else s.leave a slot none
  | some c => if c.leased || dirty != (c.st == .M || c.st == .O) then s else s.takeBack c

/-- Ends a transaction whose snoops are answered (R92, R99), with the slice's line read through its check (R96); `none` where an
agent's copy finds no way, so that it stays open. -/
def State.finishTxn (s : State) (v : VLine) (t : Txn) : Option State :=
  let (s, v) := s.checkVl v
  let v := { v with txn := none }
  match t.req with
  | .rds a _ => (s.putVl v).endRds a v t.supplied
  | .rdx a _ op | .upg a _ op => (s.putVl v).endRdx a v op
  | .back a dirty => some ((s.putVl v).endBack a v.slot dirty)
  | .hw r =>
    let (s, n) := s.mergeAt v v.line (applyHw r.op) r.elig
    some (s.ackHw r.src n)
  | .hr r => some ((s.putVl v).ackHr r.src v.slot v.line)

/-- Opens the transaction of the line's next request (R92, R99, R102): its snoops go out. The frame is looked up now, so that a request
held over a change of format is served under the new one (R47, R78). The owner is snooped by name; only sharers of other dies are
reached by broadcast. -/
def State.openTxn (s : State) (v : VLine) (req : Req) : State :=
  match s.refusal v.slot req with
  | some c => (s.putVl v).refuse v.slot req c
  | none =>
    let snoop := if req.agent.any (fun a => (s.copy a v.slot).any (fun c => c.st == .M || c.st == .E)) then none else snoopOf req v.st
    let owned := v.st = .M ∨ v.st = .O ∨ v.st = .E
    let mine := req.agent
    let targets := match snoop with
      | none => []
      | some .inv => (distinct ((if owned then [v.owner] else []) ++ v.sharers)).filter (fun a => some a != mine)
      | some _ => (if owned then [v.owner] else []).filter (fun a => some a != mine)
    let dies := if snoop = some .inv ∧ v.remote ∧ v.st ≠ .M ∧ v.st ≠ .E then (List.range 4).filter (· != homeDie v.slot) else []
    let k := snoop.getD .inv
    (s.putVl { v with txn := some { req := req, await := targets, awaitDies := dies, supplied := false } }).later
      (targets.map (fun a => k.step a v.slot) ++ dies.map (fun d => Instr.snoopFilterBroadcast d v.slot))

/-- Lets a line go on, one request after another in the order of their arrival: a transaction that awaits nothing ends, and the
next request's opens (R92). A line leased at its home keeps its requests waiting (R112). -/
def State.advance : Nat → State → Nat → State
  | 0, s, _ => s
  | fuel + 1, s, slot => match s.vl slot with
    | none => s
    | some v => match v.txn with
      | some t =>
        if !t.await.isEmpty || !t.awaitDies.isEmpty then s
        else match s.finishTxn v t with
          | some s => State.advance fuel s slot
          | none => s.laterOnce (.vaultFill slot)
      | none =>
        if v.leased then s
        else match v.queue with
          | [] => s
          | r :: rest => State.advance fuel (s.openTxn { v with queue := rest } r) slot

/-- Lets a line go on as far as it can. -/
def State.settleTxn (s : State) (slot : Nat) : State :=
  match s.vl slot with
  | some v => State.advance (2 * v.queue.length + 2) s slot
  | none => s

/-- A request arrives at the home (R92): it queues behind those before it; where its set has no way, it waits for one (R90). -/
def State.serve (s : State) (slot : Nat) (pin : Option (Nat × Nat)) (req : Req) : State :=
  match s.refusal slot req with
  | some c => s.refuse slot req c
  | none =>
    let wait := fun (s : State) => ({ s with fillq := s.fillq ++ [(slot, pin, req)] } : State).laterOnce (.vaultFill slot)
    if s.fillq.any (fun p => p.1 == slot) then wait s
    else match s.ensure slot pin with
      | none => wait s
      | some (s, v) => (s.putVl { v with queue := v.queue ++ [req] }).settleTxn slot

/-- An agent answers a snoop from its copy's state (R100): the data it gives, and its copy's next state. A copy in the write-back
buffer is answered from there, and its WbD will be discarded (R101). -/
def State.answerSnoop (s : State) (a slot : Nat) (k : Snoop) : State :=
  match (s.copy a slot).map s.checkCopy with
  | none => s.later [.snoopAnswer a slot none]
  | some (s, none) => s.later [.snoopAnswer a slot none]
  | some (s, some c) =>
    let dirty := c.st = .M ∨ c.st = .O
    let data := if dirty then some c.line else none
    let s := match k with
      | .inv => ((s.dropCopy a slot).unfilter slot ((s.dropCopy a slot).holders slot)).later (if 326 ≤ a then s.walkerWakes slot else [])
      | .shr => s.putCopy { c with st := if dirty then .O else .S }
      | .get => s.putCopy c
    -- data in the write-back buffer leaves it: the slice has it now
    let s := if c.back && dirty then (s.dropCopy a slot).unfilter slot ((s.dropCopy a slot).holders slot) else s
    s.later [.snoopAnswer a slot data]

/-- A snoop arrives: for a leased copy it waits in the probe queue (R113). -/
def State.snoop (s : State) (a slot : Nat) (k : Snoop) : State :=
  match s.copy a slot with
  | some c => if c.leased then s.putCopy { c with probes := c.probes ++ [k] } else s.answerSnoop a slot k
  | none => s.answerSnoop a slot k

/-- A lease commit marks the line with its writer's eligibility (R75). -/
def State.markElig (s : State) (slot : Nat) (elig : Bool) : State :=
  match s.vl slot with
  | some v => s.putVl { v with elig := elig }
  | none => s

/-- Ends a lease on a copy: the probes are answered in order from the copy's new state (R114). A commit gives the image with its
mark. -/
def State.endLeaseCopy (s : State) (a slot : Nat) (image : Option (Line × Bool)) : State :=
  match s.copy a slot with
  | none => s
  | some c =>
    let c' := match image with
      | some l => { c with leased := false, probes := [], line := l.1, st := .M, flips := [] }
      | none => { c with leased := false, probes := [] }
    let s := match image with | some l => s.markElig slot l.2 | none => s
    c.probes.foldl (fun s k => s.answerSnoop a slot k) (s.putCopy c')

/-- Ends a lease at the home: the image of a commit is merged into the slice, and the next request is served (R112, R114). -/
def State.endLeaseHome (s : State) (slot : Nat) (image : Option (Line × Bool)) : State :=
  match s.vl slot with
  | none => s
  | some v =>
    let v := { v with leased := false }
    let v := match image with | some l => { v with line := l.1, elig := l.2, vdirty := true, dgen := 0, flips := [] } | none => v
    (s.putVl v).settleTxn slot

end Sys2Proof.Machine
end

