-- ==== Sys2Proof/Machine/Xlate.lean ====
section
/-! DEFINITION. Address translation (R65–R82), rights and formats (R73–R79), and the fault list (R85–R88). -/

namespace Sys2Proof

/-- An access needs write rights. -/
def Access.writes (a : Access) : Bool := a == .write || a == .readWrite || a == .evict

/-- An access that leaves the page's AD trit alone: PREF and CLINE.evict, which change no architected value (R192, R193; DESIGN CHOICE,
log entry 42). -/
def Access.quiet (a : Access) : Bool := a == .prefetch || a == .evict

/-- A thread's own synchronising write to the line is not yet performed (R309, R319). -/
def HwSrc.ofThread (x : HwSrc) (t : TRef) : Bool :=
  match x with
  | .sts u _ => u == t
  | .red ts => ts.contains t
  | _ => false

/-- The words of a line that a write names. -/
def HwOp.touches (op : HwOp) (i : Nat) : Bool :=
  match op with
  | .words ws => ws.any (fun p => p.1 == i)
  | .trytes ts => ts.any (fun p => p.1 / 3 == i)
  | .red w _ _ _ _ => w == i
  | .bytes _ => true
  | .same => false

end Sys2Proof

namespace Sys2Proof.Machine

/-! ### Page-table entries (R69, R70) -/

def pteFrame (w : Word) : Int := field w.val 26 7
def pteHome (w : Word) : Int := trit w.val 6
def pteCe (w : Word) : Int := trit w.val 5
def pteAd (w : Word) : Int := trit w.val 4
def pteUs (w : Word) : Int := trit w.val 3
def pteLt (w : Word) : Int := trit w.val 2
def pteVp (w : Word) : Int := field w.val 1 0

/-- Trytes in a page of level L (R71). -/
def pageSpan (l : Nat) : Nat := 3 ^ (2 + 5 * l)

/-- Where the next table of a table entry lies (R68, R69). -/
def pteTable (w : Word) : Nat := 2187 * (pteFrame w).toNat + 729 * (pteCe w + 1).toNat

/-- The reasons for which a walk stops (R72, R458). -/
inductive WalkWhy where
  | notPresent | bad | format | retired | range | poison | busy
deriving DecidableEq, Repr

/-- The checks of one entry, in the order of R72. -/
def State.checkPte (s : State) (part : Nat) (w : Word) (level : Nat) : Option WalkWhy :=
  let leaf := pteLt w = 1
  let frame := pteFrame w
  let span : Int := if leaf then ((3 ^ (5 * level - 5) : Nat) : Int) else 1
  let base := s.partWord part 5
  if pteVp w = 0 then some .notPresent
  else if pteVp w ≤ -2 ∨ pteLt w = 0 ∨ (leaf ∧ (pteUs w = 0 ∨ pteCe w = -1)) ∨ (leaf ∧ level = 5) ∨ (¬leaf ∧ level = 1)
      ∨ frame < 0 ∨ frame % span ≠ 0 ∨ (frameCount : Int) < frame + span then some .bad
  else if frame < base ∨ base + s.partWord part 6 < frame + span then some .range
  else if leaf then none
  else if s.frame frame.toNat = 1 then some .format
  else if s.frame frame.toNat ≥ 2 then some .retired
  else none

/-- A leaf found by a walk: its word, level and physical address, and the format of its first frame. -/
structure Leaf where
  pte : Word
  level : Nat
  at_ : Nat
  fmt : Nat
deriving DecidableEq, Repr

/-- A word of a line at its home, read at system scope, and whether the line is poisoned; `none` where it has to wait. -/
def State.homeWord (s : State) (pa : Nat) : Option (State × Word × Bool) :=
  (s.homeRead (pa / 81)).map (fun p => (p.1, wordAt p.2.w (pa % 81 / 3), p.2.poison))

/-- The walk cache's word of a table entry, under the space's number (R80). -/
def State.wcGet (s : State) (die : Nat) (asn : Int) (level page : Nat) : Option Word :=
  ((s.die die).wcache.find? (fun e => e.asn == asn && e.level == level && e.page == page)).map (·.pte)

/-- Keeps a level-4 to level-2 table entry in the walk cache of 729 (R80). -/
def State.wcPut (s : State) (die : Nat) (e : WcE) : State :=
  s.modDie die (fun d => { d with wcache := (d.wcache ++ [e]).drop (d.wcache.length + 1 - 729) })

/-- What a walk goes by: its die, its space with the number and the generation that the record holds, its partition, its address. -/
structure WalkCtx where
  die : Nat
  asrec : Nat
  asn : Int
  gen : Int
  part : Nat
  va : Word

/-- The walk from a table of level `l` downwards (R71, R72). DESIGN CHOICE, log entry 58: a poisoned table line stops it. -/
def State.walkFrom (k : WalkCtx) : Nat → State → Nat → State × Except (WalkWhy × Nat) Leaf
  | 0, s, _ => (s, .error (.bad, 1))
  | l + 1, s, table =>
    let page := k.va.num / pageSpan (l + 1)
    let pa := table + 3 * (page % 243)
    let held := s.wcGet k.die k.asn (l + 1) page
    let r := match held with
      | some w => some (s, w, false)
      | none => s.homeWord pa
    match r with
    | none => (s, .error (.busy, l + 1))
    | some (s, w, poisoned) =>
      if poisoned then (s, .error (.poison, l + 1))
      else match s.checkPte k.part w (l + 1) with
        | some e => (s, .error (e, l + 1))
        | none =>
          if pteLt w = 1 then (s, .ok { pte := w, level := l + 1, at_ := pa, fmt := s.frame (pteFrame w).toNat })
          else
            let s := if held.isSome then s
              else s.wcPut k.die { asrec := k.asrec, asn := k.asn, gen := k.gen, level := l + 1, page := page, pte := w }
            State.walkFrom k l s (pteTable w)

/-- The context of an access: its core (324 for the graph walker), its address-space record, its partition, its level. -/
structure Ctx where
  core : Nat
  asrec : Nat
  part : Nat
  sys : Bool
deriving DecidableEq, Repr

/-- The context of a team (R82, R357). -/
def State.ctxOf (s : State) (n : Nat) : Ctx :=
  { core := s.coreOf n, asrec := s.asrecOf n, part := s.partOf n, sys := s.sysLevel n }

/-- The die of a context's walker (R81). DESIGN CHOICE, log entry 5: die 0's walker makes the walks of what no core runs, the nodes of
graphs and the merge of a DET grid. -/
def Ctx.die (c : Ctx) : Nat := c.core / 81 % 4

/-- A line of a T-frame at a physical address, read at its home (R82): the stop of an address that may not be read (R46, R48, R79). -/
def State.physRead (s : State) (slot : Nat) : State × Except WalkWhy Line :=
  match s.physWhy slot with
  | some c => (s, .error (if c = 6 then .range else .retired))
  | none =>
    if s.isB slot then (s, .error .format)
    else match s.homeRead slot with
      | none => (s, .error .busy)
      | some (s, l) => (s, if l.poison then .error .poison else .ok l)

/-- A whole walk (R72, R82): ROOT first, as the level-5 entry; with the record's words 1 and 3. DESIGN CHOICE, log entry 58: a poisoned
record stops it. -/
def State.walk (s : State) (c : Ctx) (va : Word) : State × Except (WalkWhy × Nat) (Leaf × Int × Int) :=
  match s.physRead (c.asrec / 81) with
  | (s, .error e) => (s, .error (e, 5))
  | (s, .ok l) => match s.checkPte c.part (wordAt l.w 0) 5 with
    | some e => (s, .error (e, 5))
    | none =>
      let r := State.walkFrom { die := c.die, asrec := c.asrec, asn := intAt l.w 1, gen := intAt l.w 3, part := c.part, va := va } 4 s
        (pteTable (wordAt l.w 0))
      (r.1, r.2.map (fun f => (f, intAt l.w 1, intAt l.w 3)))

/-! ### Translation -/

/-- The coherent value of a line at this moment, without what its reading raises (`State.sawLine`): what the device knows of a record (R80), and of the list
entries it watches (R88). -/
def State.lineNow (s : State) (slot : Nat) : Line :=
  match s.vl slot with
  | some v => s.dataOf v
  | none => if slot < slotCount then (s.hbmFetch slot).2.line else zeroLine

/-- What the reading of a line that its slice does not hold raises and counts (R53, R62). -/
def State.sawLine (s : State) (slot : Nat) : State :=
  if (s.vl slot).isSome ∨ slotCount ≤ slot then s else (s.hbmFetch slot).1

/-- The address-space number of a record (R82). -/
def State.asnOf (s : State) (asrec : Nat) : Int := intAt (s.lineNow (asrec / 81)).w 1

/-- A translated address: the physical tryte address, the HOME trit, the CE trit, and what pins its line (R93). -/
structure Xl where
  pa : Nat
  home : Int
  ce : Bool
  pin : Option (Nat × Nat)
deriving DecidableEq, Repr

/-- The slot of a translated address. -/
def Xl.slot (x : Xl) : Nat := x.pa / 81

/-- A cached translation of an address under its space's number, in the core's TLB or the die's shared one (R80). -/
def State.tlbGet (s : State) (c : Ctx) (va : Word) : Option TlbE :=
  let asn := s.asnOf c.asrec
  let hit := fun (e : TlbE) => e.asn == asn && e.page == va.num / pageSpan e.level
  match (if c.core < 324 then (s.core c.core).tlb.find? hit else none) with
  | some e => some e
  | none => (s.die c.die).tlb.find? hit

/-- Puts an entry into a list in place of an older one of its page, and of the oldest that share its set where that is full. -/
def tlbKeep (ways : Nat) (set : TlbE → Nat) (l : List TlbE) (e : TlbE) : List TlbE :=
  let l := l.filter (fun x => !(x.asn == e.asn && x.level == e.level && x.page == e.page))
  let same := l.filter (fun x => set x == set e)
  (if same.length < ways then l else match same.head? with | some x => l.erase x | none => l) ++ [e]

/-- Keeps a translation in both TLBs (R80): the core's of 243 entries, and the die's of 2,187 sets of 9 ways. DESIGN CHOICE, log
entry 31: a page lies in set page mod 2,187, and the oldest entry gives way. -/
def State.tlbPut (s : State) (c : Ctx) (e : TlbE) : State :=
  let s := if c.core < 324 then s.modCore c.core (fun k => { k with tlb := tlbKeep 243 (fun _ => 0) k.tlb e }) else s
  s.modDie c.die (fun d => { d with tlb := tlbKeep 9 (fun x => x.page % 2187) d.tlb e })

/-- The rights of R73 that VP and US give. -/
def rightsOk (c : Ctx) (w : Word) (a : Access) : Bool :=
  let vp := pteVp w
  let r := 1 ≤ vp
  let x := vp = 3 ∨ vp = 4 ∨ vp = -1
  let wr := vp = 2 ∨ vp = 4
  (c.sys || pteUs w != -1) && (match a with
    | .fetch => decide x
    | .read | .prefetch => decide r
    | .write | .evict => decide wr
    | .readWrite => decide r && decide wr)

/-- The trap of a physical-address stop (R85), with its error class. -/
def physTrap (retired : Bool) (va : Word) : Trap :=
  { Trap.of 9 (if retired then 1 else 0) va with cls := some (if retired then 5 else 6) }

/-- The poison-consumption trap (R393). -/
def poisonTrap (va : Word) : Trap := { Trap.of 11 0 va with cls := some 8 }

/-- What a stopped walk does to the access (R85). -/
def WalkWhy.stop (e : WalkWhy) (level : Nat) (va : Word) (a : Access) : Stop :=
  match e with
  | .notPresent => .recov false level va a
  | .bad => .trap (Trap.of 7 level va)
  | .format => .trap (Trap.of 8 0 va)
  | .retired => .trap (physTrap true va)
  | .range => .trap (physTrap false va)
  | .poison => .trap (poisonTrap va)
  | .busy => .busy

/-- The checks of R85's second and third kinds, for a leaf held with its page's format; `b` asks for a B-page (R78, R79). -/
def State.checkLeaf (s : State) (c : Ctx) (va : Word) (a : Access) (b : Bool) (l : Leaf) : Except Stop Xl :=
  let pa := 2187 * (pteFrame l.pte).toNat + va.num % pageSpan l.level
  let now := s.frame (pa / 2187)
  if l.fmt ≥ 2 ∨ now ≥ 2 then .error (.trap (physTrap true va))
  else if l.fmt ≠ (if b then 1 else 0) ∨ now ≠ l.fmt then .error (.trap (Trap.of 8 0 va))
  else if !rightsOk c l.pte a then .error (.recov true l.level va a)
  else .ok { pa := pa, home := pteHome l.pte, ce := pteCe l.pte == 1,
             pin := if pteHome l.pte = 1 then some (c.asrec, va.num / 81) else none }

/-- The AD trit is as the access needs it (R76). -/
def adOk (w : Word) (a : Access) : Bool := a.quiet || pteAd w == 1 || (pteAd w == -1 && !a.writes)

/-- The word with AD brought up to date (R76). -/
def adSet (w : Word) (a : Access) : Word := w.add (((if a.writes then 1 else -1) - pteAd w) * 81)

/-- A walk for an access, all at once (R72–R80): the walk, the format, the rights, AD, and the TLBs. -/
def State.walkNow (s : State) (c : Ctx) (va : Word) (a : Access) (b : Bool) : State × Except Stop Xl :=
  match s.walk c va with
  | (s, .error (e, level)) => (s, .error (e.stop level va a))
  | (s, .ok (l, asn, gen)) =>
    match s.checkLeaf c va a b l with
    | .error e => (s, .error e)
    | .ok x =>
      let new := adSet l.pte a
      let done := if adOk l.pte a then some s
        else (s.homeWrite (l.at_ / 81) (applyHw (.words [(l.at_ % 81 / 3, new)])) (some false)).map (·.1)
      match done with
      | none => (s, .error .busy)
      | some s =>
        let pte := if adOk l.pte a then l.pte else new
        (s.tlbPut c { asrec := c.asrec, asn := asn, gen := gen, level := l.level, page := va.num / pageSpan l.level, pte := pte,
                      fmt := l.fmt }, .ok x)

/-- A walk that a context's access asks for. -/
def Ctx.req (c : Ctx) (va : Word) (a : Access) (b : Bool) : WalkReq :=
  { core := c.core, asrec := c.asrec, part := c.part, sys := c.sys, va := va, acc := a, b := b }

/-- The context of a walk's request. -/
def WalkReq.ctx (w : WalkReq) : Ctx := { core := w.core, asrec := w.asrec, part := w.part, sys := w.sys }

/-- A miss has been sent to the die's walker, and its walk has not ended. -/
def State.walking (s : State) (die : Nat) (w : WalkReq) : Bool :=
  (s.die die).walks.any (fun k => k.req == w || k.joined.contains w) || (s.die die).missq.contains w
  || s.agenda.contains (.tlbMissWalk die w)

/-- Translates an address for an access: TLBs, format, rights (R73–R80). A miss goes to the die's walker, and the access is tried again
once the walk has ended (R81): it then hits, or meets the walk's stop (log entry 5). -/
def State.translate (s : State) (c : Ctx) (va : Word) (a : Access) (b : Bool) : State × Except Stop Xl :=
  let s := s.sawLine (c.asrec / 81)
  let cached := s.tlbGet c va
  let w := c.req va a b
  match (match cached with | some e => if adOk e.pte a then cached else none | none => none) with
  | some e => (s, s.checkLeaf c va a b { pte := e.pte, level := e.level, at_ := 0, fmt := e.fmt })
  | none =>
    if (s.die c.die).walked.contains w then
      (s.modDie c.die (fun d => { d with walked := d.walked.erase w })).walkNow c va a b
    else if s.walking c.die w then (s, .error .busy)
    else (s.later [.tlbMissWalk c.die w], .error .busy)

/-! ### The fault list (R86–R88) -/

/-- KIND of a fault: the rights needed, read, write and execute in trits [2], [1] and [0], and permission in trit [3]
(R87; log entry 16). -/
def faultKind (perm : Bool) (a : Access) : Int :=
  (match a with | .fetch => 1 | .read | .prefetch => 9 | .write | .evict => 3 | .readWrite => 12) + (if perm then 27 else 0)

/-- The tritwise greatest of two KIND words: KIND accumulates over joiners (R87). -/
def kindJoin (a b : Int) : Int := ofTrits ((List.range 4).map (fun i => max (trit a i) (trit b i)))

/-- Writes words of a line at its home; `none` where it has to wait. -/
def State.homePut (s : State) (pa : Nat) (ws : List (Nat × Word)) : Option State :=
  (s.homeWrite (pa / 81) (applyHw (.words ws)) (some false)).map (·.1)

/-- The threads and commands that a list entry counts (R87): of a publication or a merge the threads that it parks, none at the end of
a team or of a grid. -/
def Parked.count : Parked → Nat
  | .pub _ _ owners => owners.length
  | .merge _ owners => owners.length
  | _ => 1

/-- CNT of a fault (R87). -/
def FaultPost.cnt (p : FaultPost) : Int := ((p.who.map Parked.count).sum : Nat)

/-- A fault that cannot be posted waits (R86): "fault list full" is raised once while it does. -/
def State.postWaits (s : State) (p : FaultPost) : State × FaultPost :=
  if p.told then (s, p)
  else (s.raise { Event.plain 15 (if p.core < 324 then p.core else 652) with kind := -1, addr := .ofInt p.asrec }, { p with told := true })

/-- Tries to write the list entry of a fault that waits for one (R86, R87), with the words of the space's record as its home holds them;
the walker then holds the entry's line shared (R88). DESIGN CHOICE, log entry 58: a list that cannot hold an entry (FLSIZE not
positive, FLBASE negative or misaligned, an entry's line that may not be accessed) counts as full, and CORE of a fault that no core
met is 324. -/
def State.postEntry (s : State) (p : FaultPost) : State × FaultPost :=
  match s.physRead (p.asrec / 81) with
  | (s, .error .busy) => (s.laterOnce (.faultPostingResume p.asrec), p)
  | (s, .error _) => s.postWaits p
  | (s, .ok rec) =>
    let w := intAt rec.w
    let slot := (w 4 / 81 + w 7 % w 5).toNat
    if w 5 ≤ 0 ∨ w 5 ≤ w 7 - w 6 ∨ w 4 < 0 ∨ w 4 % 81 ≠ 0 then s.postWaits p
    else match s.physWhy slot with
    | some c =>
      let (s, p) := if p.told then (s, p) else (s.raise (Event.phys c (if p.core < 324 then p.core else 652) (81 * slot)), p)
      s.postWaits p
    | none =>
      if s.isB slot then s.postWaits p
      else
        let line : List Word :=
          [.ofNum (2187 * p.page), wordAt rec.w 1, wordAt rec.w 3, .ofInt p.kind, .ofInt p.level, lowWord p.stamp,
           highWord p.stamp, .ofInt p.core, .ofInt p.cnt] ++ List.replicate 18 .zero
        match s.homePut (81 * slot) ((List.range 27).zip line) with
        | none => (s.laterOnce (.faultPostingResume p.asrec), p)
        | some s => match s.homePut p.asrec [(7, .ofInt (w 7 + 1))] with
          | none => (s.laterOnce (.faultPostingResume p.asrec), p)
          | some s => (((s.readShared (pageWalker (p.core / 81 % 4)) slot).map (·.1)).getD s, { p with entry := some slot, late := false })

/-- Brings KIND and CNT of a posted entry up to its joiners (R87), or tries again where the home is busy. -/
def State.postLate (s : State) (p : FaultPost) : State × FaultPost :=
  match p.late, p.entry with
  | true, some slot => match s.homePut (81 * slot) [(3, .ofInt p.kind), (8, .ofInt p.cnt)] with
    | some s => (((s.readShared (pageWalker (p.core / 81 % 4)) slot).map (·.1)).getD s, { p with late := false })
    | none => (s.laterOnce (.faultPostingResume p.asrec), p)
  | _, _ => (s, p)

/-- A post is open: it waits, or its entry's completion word is zero (R86). -/
def State.postOpen (s : State) (p : FaultPost) : Bool :=
  match p.entry with
  | none => true
  | some slot => wordAt (s.lineNow slot).w 26 == .zero

/-- Posts a recoverable fault, or joins the open entry of its page (R86); an entry whose completion word is no longer zero takes no
joiner (R88). -/
def State.postFault (s : State) (c : Ctx) (perm : Bool) (level : Nat) (va : Word) (a : Access) (who : List Parked) : State :=
  let page := va.num / 2187
  let kind := faultKind perm a
  let s := ((s.posts.filter (fun p => p.asrec == c.asrec && p.page == page)).filterMap (·.entry)).foldl State.sawLine s
  match s.posts.findIdx? (fun p => p.asrec == c.asrec && p.page == page && s.postOpen p) with
  | some i => match s.posts[i]? with
    | some p =>
      let (s, p) := s.postLate { p with kind := kindJoin p.kind kind, who := distinct (p.who ++ who), late := p.entry.isSome }
      { s with posts := setNth s.posts i p }
    | none => s
  | none =>
    let (s, p) := s.postEntry { asrec := c.asrec, page := page, kind := kind, level := level, core := c.core,
                                stamp := s.stampOf c.part, entry := none, told := false, late := false, who := who }
    { s with posts := s.posts ++ [p] }

/-! ### Accesses to a translated line -/

/-- A write of a thread to word `i` of a line is on its way to its home or waits there (R309): accesses to other words are not held
back by it (R310). -/
def State.pendingSyn (s : State) (t : TRef) (slot i : Nat) : Bool :=
  s.pendingHw.any (fun r => r.slot == slot && r.op.touches i && r.src.ofThread t)

/-- A write of a thread to a line is on its way to its home or waits there. -/
def State.pendingLine (s : State) (t : TRef) (slot : Nat) : Bool := s.pendingHw.any (fun r => r.slot == slot && r.src.ofThread t)

/-- Reads a coherent line for a core (R74, R94): through its L1, or at the home for a page of HOME = −. -/
def State.readLine (s : State) (core : Nat) (x : Xl) : Option (State × Line) :=
  if x.home = -1 then s.homeRead x.slot else s.readShared core x.slot x.pin

end Sys2Proof.Machine
end

