-- ==== Sys2Proof/Machine/Cabinet.lean ====
section
/-! DEFINITION. Cabinet addresses and bounds (R116–R119), tickets (R134), range locks (R131, R132), and the stall of
requests into a range teller's words (R122, R199). -/

namespace Sys2Proof.Machine

/-- A place in a cabinet: its team, and the tryte address in that team's allocation. -/
structure CabAt where
  team : Nat
  a : Int
deriving DecidableEq, Repr

/-- The cabinet-bounds trap (R119). -/
def boundsTrap (a : Int) : Trap := Trap.of 3 0 (.ofInt a)

/-- The alignment trap (R369). -/
def alignTrap (a : Word) : Trap := Trap.of 2 0 a

/-- The cabinet place of an address of the .c space, or of the .x space (R117–R119); `hand` says that a trap handler of the
team makes the access. -/
def State.cabAt (s : State) (n : Nat) (x hand : Bool) (a : Int) : Except Trap CabAt :=
  if x then
    if a < 0 then .error (boundsTrap a)
    else match s.crewMember n (a / 4782969).toNat with
      | none => .error (boundsTrap a)
      | some m => if a % 4782969 < s.cabEnd m then .ok ⟨m, a % 4782969⟩ else .error (boundsTrap a)
  else if (0 ≤ a ∧ a < s.cabEnd n) ∨ (hand ∧ -768 ≤ a ∧ a < 0) then .ok ⟨n, a⟩
  else .error (boundsTrap a)

/-- A range of trytes that lies in one allocation (R117–R119, R130): the team and the first address in its allocation. -/
def State.cabRange (s : State) (n : Nat) (x : Bool) (lo hi : Int) : Option CabAt :=
  match s.cabAt n x false lo with
  | .ok c => if c.a + (hi - lo) ≤ s.cabEnd c.team ∧ lo ≤ hi then some c else none
  | .error _ => none

/-! ### Tickets (R134) -/

/-- A team's tag. -/
def tagOf (lin : Nat) : Int := ((lin % 19683 : Nat) : Int) - 9841

/-- The ticket of a command. -/
def ticketOf (lin seq : Nat) : Word := .ofInt (tagOf lin * 387420489 + ((seq : Int) - 193710244))

/-- The ticket of a team's command. -/
def State.ticket (s : State) (n seq : Nat) : Word :=
  match s.team? n with
  | some t => ticketOf t.lin seq
  | none => .zero

/-! ### Range locks (R131, R132) -/

/-- Two ranges share a tryte. -/
def Rng.overlaps (a b : Rng) : Bool := a.cab == b.cab && a.lo < b.hi && b.lo < a.hi

/-- The ticket of the first command whose locked ranges an access falls into (R132): any access into a write range; a store,
a lane teller command or a synchronising access into a read range. -/
def State.lockHit (s : State) (n : Nat) (r : Rng) : Option Word :=
  (s.teams.findSome? (fun t =>
    if r.cab.isNone && t.num != n then none
    else (t.body.cmds.find? (fun c => c.locked && c.ranges.any (fun q => q.overlaps r && (q.write || r.write)))).map
      (fun c => ticketOf t.lin c.seq)))

/-- The range-lock trap (R132, R369). -/
def lockTrap (a : Word) (ticket : Word) : Trap := { Trap.of 4 0 a with aux := ticket }

/-- The range of a global word or line access (R131: by virtual lines). -/
def lineRange (va : Word) (write : Bool) : Rng :=
  { cab := none, lo := 81 * (va.num / 81 : Nat), hi := 81 * (va.num / 81 : Nat) + 81, write := write }

/-- Step 4 of R187 for a global access. -/
def State.checkLock (s : State) (n : Nat) (va : Word) (write : Bool) : Except Trap Unit :=
  match s.lockHit n (lineRange va write) with
  | some t => .error (lockTrap va t)
  | none => .ok ()

/-- Step 4 of R187 for a cabinet access of `size` trytes; `a` is the address as the instruction gives it. -/
def State.checkCabLock (s : State) (n : Nat) (c : CabAt) (size : Int) (a : Int) (write : Bool) : Except Trap Unit :=
  match s.lockHit n { cab := some c.team, lo := c.a, hi := c.a + size, write := write } with
  | some t => .error (lockTrap (.ofInt a) t)
  | none => .ok ()

/-! ### Range teller commands -/

/-- A range command of the tellers (R198). -/
def isRangeXf (i : Instr) : Bool :=
  match i with
  | .xfNeg _ | .xfShift _ | .xfZero _ | .xfFill _ | .xfClamp _ | .xfCvt _ | .xfRq _ => true
  | _ => false

/-- The drawer of a cabinet word (R116): a block of rows begins at drawer 0. -/
def drawerOf (word : Int) : Nat := (word % 128).toNat

/-- A range command of the .x space. -/
def isFarXf (i : Instr) : Bool :=
  match i with
  | .xfNeg o | .xfShift o | .xfZero o | .xfFill o | .xfClamp o | .xfCvt o | .xfRq o => o.x == 1
  | _ => false

/-- A range teller command goes before requests that come later to words of a cabinet range: from its issue, if it is of the .c space,
and in any case while a piece of it waits in the drawer of one of the words (R120, R122, R199). -/
def Cmd.tellsFirst (k : Cmd) (team : Nat) (lo hi : Int) : Bool :=
  isRangeXf k.instr && k.ranges.any (fun r => r.cab == some team && r.lo < hi && lo < r.hi
    && (if k.begun then k.pieces.any (fun d => ((d : Int) - max r.lo lo / 3) % 128 < (min r.hi hi + 2) / 3 - max r.lo lo / 3)
        else !isFarXf k.instr))

/-- A request to the trytes `lo` … `hi` − 1 of a team's cabinet stalls behind range teller commands that came `before` it. -/
def State.tellStalls (s : State) (team : Nat) (lo hi : Int) (before : Team → Cmd → Bool) : Bool :=
  s.teams.any (fun t => t.body.cmds.any (fun k => before t k && k.tellsFirst team lo hi))

/-- A thread's request to a cabinet word stalls (R122, R199). -/
def State.stalled (s : State) (c : CabAt) : Bool := s.tellStalls c.team c.a (c.a + 1) (fun _ _ => true)

/-! ### Words of a cabinet -/

/-- Reads the word that holds an address. -/
def State.cabWord (s : State) (c : CabAt) : Word := s.cab c.team (c.a / 3)

/-- Writes the word that holds an address; a write into another team's cabinet binds both teams (R391). -/
def State.putCabWord (s : State) (n : Nat) (c : CabAt) (w : Word) : State :=
  let s := s.setCab c.team (c.a / 3) w
  if c.team = n then s
  else (s.modTeam n (fun t => { t with irrevocable := true })).modTeam c.team (fun t => { t with irrevocable := true })

/-- Sub-element `i` of a word, put into sub-element 0 of a zero word (R185). -/
def loadTryte (w : Word) (i : Nat) : Word := .ofInt (sub9 w.val i)

/-- Replaces sub-element `i` of a word (R185). -/
def storeTryte (w : Word) (i : Nat) (x : Int) : Word :=
  let g := fun (j : Nat) => if j = i then x else sub9 w.val j
  .ofInt (ofSubs (g 0) (g 1) (g 2))

end Sys2Proof.Machine
end

