-- ==== Sys2Proof/Machine/Escrow.lean ====
section
/-! DEFINITION. Escrow (R301–R305), view (R302), publication (R306, R307, R84), the release step (R312), and what lets a
thread go on: windows (R165, R166), acknowledgements, barriers (R326–R328), exit (R241). -/

namespace Sys2Proof.Machine

/-! ### Escrow lines -/

/-- An escrow line of a team. -/
def State.eline (s : State) (n v : Nat) : Option ELine :=
  (s.team? n).bind (fun t => t.body.escrow.find? (fun e => e.vline == v))

/-- The escrow word of a team (R301). -/
def State.escrowWord (s : State) (n v i : Nat) : Option Word :=
  (s.eline n v).bind (fun e => (e.words.find? (fun w => w.i == i)).map (·.val))

/-- The word that the latest publication in flight carries, or holds back for a fault or for its translation (R302, R84). -/
def State.flightWord (s : State) (n v i : Nat) : Option Word :=
  (s.team? n).bind (fun t => t.pubs.reverse.findSome? (fun p =>
    (p.lines ++ p.held ++ p.again).findSome? (fun e => if e.vline = v then (e.words.find? (fun w => w.i == i)).map (·.val) else none)))

/-- Changes a team's escrow lines of one virtual line. -/
def State.modEline (s : State) (n v : Nat) (f : ELine → ELine) : State :=
  s.modBody n (fun b => { b with escrow := b.escrow.map (fun e => if e.vline = v then f e else e) })

/-- The escrow lines of a core's L1 that lie in a set, with their teams (R95; DESIGN CHOICE, log entry 6: virtual line v lies in set
v mod 2187). -/
def State.setElines (s : State) (core set : Nat) : List (Nat × ELine) :=
  ((s.teams.filter (fun t => t.core == core)).map (fun t =>
    (t.body.escrow.filter (fun e => !e.spilled && e.vline % 2187 == set)).map (fun e => (t.num, e)))).flatten

/-- The oldest of escrow lines. -/
def oldest (l : List (Nat × ELine)) : Option (Nat × ELine) := (sortBy (fun a b => a.2.born ≤ b.2.born) l).head?

/-- Makes room in a core's L1 for one more escrow line of a set (R95): the oldest of three spills, and a copy gives way where the nine
ways are full. False where no copy may go: the line is then held in the spill area (log entry 6). -/
def State.escrowRoom (s : State) (core set : Nat) : State × Bool :=
  let l := s.setElines core set
  let s := if l.length < 3 then s
    else match oldest l with
      | some p => s.modEline p.1 p.2.vline (fun e => { e with spilled := true })
      | none => s
  match s.roomL1 core slotCount set with
  | some s => (s, true)
  | none => (s, false)

/-- Brings a team's escrow line into the L1, as the youngest, where it is new or spilled (R95, R303). -/
def State.residentEline (s : State) (n v : Nat) : State :=
  if (s.eline n v).any (fun e => !e.spilled) then s
  else
    let (s, ok) := s.escrowRoom (s.coreOf n) (v % 2187)
    let k := s.nline
    ({ s with nline := k + 1 } : State).modEline n v (fun e => { e with spilled := !ok, born := k })

/-- Writes an escrow entry under the translation of its store (R301): a line kept in order of its virtual address, words in order of
their place. -/
def putEntry (l : List ELine) (new : ELine) (w : EWord) : List ELine :=
  let old := (l.find? (fun e => e.vline == new.vline)).getD { new with spilled := true }
  let words := insertBy (fun a b => a.i ≤ b.i) w (old.words.filter (fun u => u.i != w.i))
  insertBy (fun a b => a.vline ≤ b.vline) { new with words := words, spilled := old.spilled, born := old.born }
    (l.filter (fun e => e.vline != new.vline))

/-- An ordinary store enters the team's escrow as a write of a thread (R301), in the L1 (R95); `b` says that its page is a B-page. -/
def State.escrowPut (s : State) (n th : Nat) (va : Word) (x : Xl) (b : Bool) (w : Word) : State :=
  let e : EWord := { i := va.num % 81 / 3, val := w, writer := th, stale := false }
  let l : ELine := { vline := va.num / 81, slot := x.slot, elig := x.ce && s.compress n, words := [], b := b, pin := x.pin }
  (s.modBody n (fun b => { b with escrow := putEntry b.escrow l e })).residentEline n (va.num / 81)

/-- Frees the escrow lines that hold no entry and of which no publication carries a word (R306). -/
def State.freeLines (s : State) (n : Nat) : State :=
  s.modTeam n (fun t =>
    let flying := fun (e : ELine) => t.pubs.any (fun p => (p.lines ++ p.held ++ p.again).any (fun x => x.vline == e.vline))
    { t with body := { t.body with escrow := t.body.escrow.filter (fun e => !e.words.isEmpty || flying e) } })

/-- A team's escrow holds an entry of a line. -/
def State.hasEntry (s : State) (n v : Nat) : Bool := (s.eline n v).any (fun e => !e.words.isEmpty)

/-- The lease record of a thread for a line (R330). -/
def State.leaseOf (s : State) (t : TRef) (v : Nat) : Option LeaseRec :=
  (s.thread? t).bind (fun th => th.leases.find? (fun r => r.vline == v && r.granted))

/-- Changes a thread's lease image of a line (R332). -/
def State.setImage (s : State) (t : TRef) (v : Nat) (f : Line → Line) : State :=
  s.modThread t (fun th => { th with leases := th.leases.map (fun r => if r.vline = v then { r with image := f r.image } else r) })

/-- The core reads an escrow line that it holds (R96): corrected, or lost to its team, which rolls back (R392, R395). True where it is
lost. -/
def State.checkEline (s : State) (n v : Nat) : State × Bool :=
  match s.eline n v with
  | none => (s, false)
  | some e => match health e.flips false with
    | .sound => (s, false)
    | .fixed => ((s.raiseFixed e.flips (s.coreOf n) e.slot).modEline n v (fun e => { e with flips := [] }), false)
    | .lost => ((s.raiseFixed e.flips (s.coreOf n) e.slot).laterOnce (.rollback n), true)

/-- view(a) of R302 for a thread, at a translated address; poison stops it (R393), and so does a lost escrow line (R392). -/
def State.view (s : State) (t : TRef) (va : Word) (x : Xl) : State × Except Stop Word :=
  let v := va.num / 81
  let i := va.num % 81 / 3
  match s.leaseOf t v with
  | some r => (s, if r.image.poison then .error (.trap (poisonTrap va)) else .ok (wordAt r.image.w i))
  | none => match s.escrowWord t.team v i with
    | some w => match s.checkEline t.team v with
      | (s, true) => (s, .error (.trap (Trap.of 11 0 va)))
      | (s, false) => (s.residentEline t.team v, .ok w)
    | none => match s.flightWord t.team v i with
      | some w => (s, .ok w)
      | none =>
        if s.pendingSyn t x.slot i then (s, .error .busy)
        else match s.readLine (s.coreOf t.team) x with
          | none => (s, .error .busy)
          | some (s, l) => (s, if l.poison then .error (.trap (poisonTrap va)) else .ok (wordAt l.w i))

/-- An ordinary store of a word: on the thread's lease image where it holds the line (R332), else into escrow. -/
def State.storeWord (s : State) (t : TRef) (va : Word) (x : Xl) (w : Word) : State :=
  if (s.leaseOf t (va.num / 81)).isSome then
    s.setImage t (va.num / 81) (fun l => { l with w := setNth l.w (va.num % 81 / 3) w })
  else s.escrowPut t.team t.num va x false w

/-- The lines a team's escrow lacks among those that a lane's stores need (R304). -/
def State.newLines (s : State) (t : TRef) (vas : List Word) : List Nat :=
  (distinct (vas.map (fun a => a.num / 81))).filter (fun v => (s.eline t.team v).isNone && (s.leaseOf t v).isNone)

/-- The quota check of a lane (R304): the first address whose new line is beyond Q. Lines of which a publication carries words count
(R303, R306). -/
def State.quotaStop (s : State) (t : TRef) (vas : List Word) : Option Word :=
  let held := match s.team? t.team with | some x => x.body.escrow.length | none => 0
  let room := s.quotaOf t.team - held
  match (s.newLines t vas)[room]? with
  | none => none
  | some v => vas.find? (fun a => a.num / 81 == v)

/-- The escrow-quota trap (R304). -/
def quotaTrap (va : Word) : Trap := Trap.of 12 0 va

/-- Marks a team's interval irrevocable (R391). -/
def State.irrevocable (s : State) (n : Nat) : State := s.modTeam n (fun t => { t with irrevocable := true })

/-- Marks the intervals of the teams of threads irrevocable (R391). -/
def State.irrevocableAll (s : State) (l : List TRef) : State := (distinct (l.map (·.team))).foldl State.irrevocable s

/-! ### Windows and completion (R165, R166) -/

/-- The place of a pending write among those of one register: its position, then the order of the instructions (R165). -/
def Win.before (w : Win) (i : Nat) (u : Win) (j : Nat) : Bool :=
  if w.past ≠ u.past then decide (u.past < w.past) else decide (i < j)

/-- A pending write whose window has ended stands first among those of its register (R165). -/
def winFirst (l : List Win) (w : Win) (i : Nat) : Bool :=
  w.left == 0 && l.zipIdx.all (fun p => p.1.reg != w.reg || p.1.left != 0 || !p.1.before p.2 w i)

/-- Applies the windows that have ended and whose data has arrived, in the order in which their writes stand; a later write of a
register waits behind an earlier one (R165). -/
def settleWins : Nat → List Word → List Win → List Word × List Win
  | 0, regs, l => (regs, l)
  | fuel + 1, regs, l => match l.zipIdx.find? (fun p => p.1.arrived && winFirst l p.1 p.2) with
    | none => (regs, l)
    | some p => settleWins fuel (setNth regs p.1.reg p.1.val) (l.eraseIdx p.2)

/-- Settles a thread's windows. -/
def Thread.settle (t : Thread) : Thread :=
  let p := settleWins t.wins.length t.regs t.wins
  { t with regs := p.1, wins := p.2 }

/-- One instruction counts towards the first `k` windows of a thread (R165). -/
def Thread.count (t : Thread) (k : Nat) : Thread :=
  Thread.settle { t with wins := (t.wins.take k).map (fun w => if w.left = 0 then { w with past := w.past + 1 } else { w with left := w.left - 1 }) ++ t.wins.drop k }

/-- A thread completes its instruction: the PC, its windows, and the end of its time at a convergence point. -/
def State.finish (s : State) (t : TRef) (pc : Word) (k : Nat) : State :=
  s.modThread t (fun th => Thread.count { th with pc := pc, conv := 0, instr := [] } k)

/-- A blocked thread's instruction, whose words it holds, completes, and the thread is runnable again. -/
def State.release (s : State) (t : TRef) : State :=
  match s.thread? t with
  | none => s
  | some th => (s.finish t (th.pc.add (3 * (th.instr.length : Int))) th.wins.length).setRun t .ready

/-- The lanes that wait with a thread at an ATOM or RED of its bundle: threads of its core and grid at its PC (R322). -/
def State.laneMates (s : State) (t : TRef) : List (TRef × Thread) :=
  match s.team? t.team, s.thread? t with
  | some x, some th =>
    ((s.teams.filter (fun u => u.core == x.core && u.grid == x.grid)).map (fun u =>
      (s.threadsOf u.num).filter (fun p => p.2.run == .ackLanes && p.2.pc == th.pc))).flatten
  | _, _ => []

/-- Lanes whose release steps are all done go on together (R322). -/
def State.wakeLanes (s : State) (t : TRef) : State :=
  let l := s.laneMates t
  if l.all (fun p => p.2.unackSyn == 0 && p.2.unackPub == 0) then l.foldl (fun s p => s.setRun p.1 .ready) s else s

/-- A thread with nothing left to be acknowledged goes on (R312, R324), and lanes that waited for it do (R322). -/
def State.wakeAcked (s : State) (t : TRef) : State :=
  match s.thread? t with
  | none => s
  | some th =>
    if th.unackSyn ≠ 0 ∨ th.unackPub ≠ 0 then s
    else if th.run = .ackAll then s.setRun t .ready
    else s.wakeLanes t

/-- Data arrives for a register's first pending result of a source (R165). -/
def State.arrive (s : State) (t : TRef) (reg : Nat) (src : WinSrc) (v : Option Word) : State :=
  s.modThread t (fun th =>
    match th.wins.findIdx? (fun w => w.reg == reg && w.src == src && !w.arrived) with
    | none => th
    | some i => Thread.settle { th with wins := modNth (fun w => { w with arrived := true, val := v.getD w.val }) th.wins i })

/-! ### Barriers (R326–R328) -/

/-- The entry of `closing` for a barrier run state, and the waiter of its publication. -/
def barCode (r : Run) : Option (Nat × PubWaiter) :=
  match r with
  | .bar i => some (i, .bar i)
  | .cbar => some (81, .cbar)
  | .gphase => some (82, .gphase)
  | _ => none

/-- The step that completes a barrier. -/
def State.barStep (s : State) (n : Nat) (r : Run) : List Instr :=
  match s.team? n with
  | none => []
  | some t => match r with
    | .bar i => [.barrierComplete n i]
    | .cbar => [.cbarComplete t.grid t.crew]
    | .gphase => [.gphaseComplete t.grid]
    | _ => []

/-- A saved team lies in the scope of a barrier of a team: its crew's for CBAR, its grid's for GPHASE (R327, R328). -/
def barrierScope (r : Run) (t u : Team) : Bool :=
  match r with
  | .cbar => u.grid == t.grid && u.crew == t.crew
  | .gphase => u.grid == t.grid
  | _ => false

/-- Every live thread of the teams is in one run state, and there is one; beyond one team, none of the barrier's teams is saved. -/
def State.allAt (s : State) (teams : List Nat) (r : Run) : Bool :=
  let l := (teams.map s.liveThreads).flatten
  let wide := match r with | .bar _ => false | _ => true
  let here := s.teams.filter (fun t => teams.contains t.num)
  let away := here.any (·.saving) || s.saved.any (fun v => here.any (fun t => barrierScope r t v.team))
  !l.isEmpty && l.all (fun p => p.2.run == r) && !(wide && away)

/-- The resident teams of a grid. -/
def State.gridTeams (s : State) (g : Nat) : List Nat := (s.teams.filter (fun t => t.grid == g)).map (·.num)

/-- The teams whose threads a barrier waits for. -/
def State.scopeTeams (s : State) (n : Nat) (r : Run) : List Nat :=
  match r with
  | .bar _ => [n]
  | .cbar => s.crewTeams n
  | .gphase => match s.team? n with | some t => s.gridTeams t.grid | none => []
  | _ => []

/-! ### Publication (R306, R307) -/

/-- An entry belongs to the set of a publication. -/
def PubSetHas (p : PubSet) (v : Nat) (w : EWord) : Bool :=
  match p with
  | .team => true
  | .thread th => w.writer == th
  | .line u => u == v

/-- The virtual address of word i of a virtual line. -/
def lineVa (v i : Nat) : Word := .ofNum (81 * v + 3 * i)

/-- A grid of a team takes a publication fault at its end (R84). -/
def State.pubEndFault (s : State) (n : Nat) (va : Word) : State :=
  let s := s.raise (s.teamEvent 13 n 1 va 0)
  match s.team? n with
  | some t => s.modGrid t.grid (fun g => { g with err := true })
  | none => s

/-- The publication of a number in flight. -/
def State.pub? (s : State) (n id : Nat) : Option Pub := (s.team? n).bind (fun t => t.pubs.find? (fun p => p.id == id))

/-- Changes a publication in flight. -/
def State.modPub (s : State) (n id : Nat) (f : Pub → Pub) : State :=
  s.modTeam n (fun t => { t with pubs := t.pubs.map (fun p => if p.id = id then f p else p) })

/-- No line: in a publication's step it stands for its pending translations and its parked threads (R84). -/
def noLine : Nat := 94143178827

/-- The team threads that park or trap for a line of a publication (R84): its owning threads, where they publish. DESIGN CHOICE, log
entry 52: where one thread publishes (PUBLISH, a release, LEASE), it is that thread. -/
def pubOwners (w : PubWaiter) (e : ELine) : List Nat :=
  match w with
  | .thread t => [t.num]
  | _ => distinct (e.words.map (·.writer))

/-- The address that a failed or faulting entry shows for a team thread (R84): its first word of the line, or the line's. -/
def entryVa (e : ELine) (th : Nat) : Word :=
  lineVa e.vline (((e.words.find? (fun w => w.writer == th)).map (·.i)).getD (((e.words.head?).map (·.i)).getD 0))

/-- The trap of a line whose fresh walk stops at publication (R84, R85). R84 names the bad-entry and format faults; DESIGN CHOICE, log
entry 52: a stop by a retired frame, by range or by poison takes the same cause, and its error class is raised as at any access. -/
def pubRefused (t : Trap) : Refused := { cause := 10, detail := 0, va := t.addr }

/-- Sends a line of a publication: one HW with its words (R306). -/
def State.sendLine (s : State) (n id : Nat) (e : ELine) : State :=
  (s.modPub n id (fun p => { p with lines := p.lines ++ [e] })).later
    [.homeHw { slot := e.slot, op := .words (e.words.map (fun u => (u.i, u.val))), src := .pub n id e.vline, elig := some e.elig,
               va := lineVa e.vline 0, pin := e.pin, fmt := some e.b }]

/-- Publishes a line (R306): as its stores found it, or translated afresh where an entry is stale, and then sent, held for a fault, kept
until its walk has ended, or given up (R84). -/
def State.publishLine (s : State) (n id : Nat) (w : PubWaiter) (e : ELine) : State :=
  if e.words.all (fun u => !u.stale) then s.sendLine n id e
  else match s.translate (s.ctxOf n) (lineVa e.vline 0) .write e.b with
  | (s, .ok x) => s.sendLine n id { e with slot := x.slot, elig := x.ce && s.compress n, pin := x.pin,
                                           words := e.words.map (fun u => { u with stale := false }) }
  | (s, .error (.recov perm level va a)) =>
    ((s.modPub n id (fun p => { p with held := p.held ++ [e] })).postFault (s.ctxOf n) perm level va a
      [.pub n id (if w = .teamEnd then [] else pubOwners w e)]).laterOnce
      (.publicationAck n id { vline := noLine })
  | (s, .error .busy) => (s.modPub n id (fun p => { p with again := p.again ++ [e] })).laterOnce (.publicationAck n id { vline := noLine })
  | (s, .error (.trap t)) =>
    let s := match t.cls with | some c => s.raise (s.teamEvent c n 1 t.addr 0) | none => s
    s.modPub n id (fun p => { p with failed := p.failed ++ [(e, pubRefused t)] })

/-- Parks the threads that own held lines of a publication, where they wait for it (R84). -/
def State.parkOwners (s : State) (n id : Nat) : State :=
  match s.pub? n id with
  | none => s
  | some p =>
    p.held.foldl (fun s e => (pubOwners p.waiter e).foldl (fun s th => s.modThread (TRef.ofNum n th) (fun t =>
      match t.run with
      | .bar _ | .cbar | .gphase | .ackPub | .ackAll | .ackLanes => { t with back := some t.run, run := .parked, fault := entryVa e th }
      | _ => t)) s) s

/-- The threads that own held lines of a publication wait for it again (R84). -/
def State.unparkOwners (s : State) (n id : Nat) : State :=
  match s.pub? n id with
  | none => s
  | some p =>
    p.held.foldl (fun s e => (pubOwners p.waiter e).foldl (fun s th => s.modThread (TRef.ofNum n th) (fun t =>
      match t.run, t.back with
      | .parked, some r => { t with run := r, back := none }
      | _, _ => t)) s) s

/-- Publishes the kept lines of a publication again (R84). -/
def State.retryLines (s : State) (n id : Nat) (l : List ELine) : State :=
  match s.pub? n id with
  | none => s
  | some p => l.foldl (fun s e => s.publishLine n id p.waiter e) s

/-- The traps of a publication's failed lines (R84): one for each owning thread, by its first failed line. -/
def pubTraps (n : Nat) (w : PubWaiter) (failed : List (ELine × Refused)) : List (TRef × Trap) :=
  let owners := distinct ((failed.map (fun p => pubOwners w p.1)).flatten)
  owners.filterMap (fun th => (failed.find? (fun p => (pubOwners w p.1).contains th)).map (fun p =>
    (TRef.ofNum n th, Trap.of p.2.cause p.2.detail (entryVa p.1 th))))

/-- Ends a publication with failed lines (R84): their owning threads trap at the instruction at which they wait, in one event for each
squad, cause and detail; a barrier will publish again when they arrive again. Owners that have exited, and a team's end, leave
the fault to the grid. -/
def State.failPub (s : State) (n : Nat) (w : PubWaiter) (failed : List (ELine × Refused)) : State :=
  match w with
  | .teamEnd => failed.foldl (fun s p => s.pubEndFault n (lineVa p.1.vline 0)) s
  | _ =>
    let code := match w with | .bar i => some i | .cbar => some 81 | .gphase => some 82 | _ => none
    let s := s.modTeam n (fun t => { t with closing := t.closing.filter (fun c => some c != code) })
    let l := pubTraps n w failed
    let s := (l.filter (fun p => s.exited p.1)).foldl (fun s p => s.pubEndFault n p.2.addr) s
    let live := l.filter (fun p => !s.exited p.1)
    let at_ := fun (r : TRef) => match s.thread? r with | some th => (th.pc, th.instr) | none => (Word.zero, [])
    (distinct (live.map (fun p => at_ p.1))).foldl (fun s k =>
      s.raiseTraps (live.filter (fun p => at_ p.1 == k)) k.1 k.2) s

/-- A publication that has nothing left completes, and what waits for it goes on (R306). -/
def State.settlePub (s : State) (n id : Nat) : State :=
  match s.pub? n id with
  | none => s
  | some p =>
    if !p.lines.isEmpty || !p.held.isEmpty || !p.again.isEmpty then s
    else
      let s := (s.modTeam n (fun t => { t with pubs := t.pubs.filter (fun q => q.id != id) })).freeLines n
      let s := if p.failed.isEmpty then s else s.failPub n p.waiter p.failed
      match p.waiter with
      | .thread t =>
        let s := s.modThread t (fun th => { th with unackPub := th.unackPub - 1 })
        match s.thread? t with
        | none => s
        | some th => if th.unackPub = 0 ∧ th.run = .ackPub then s.release t else s.wakeAcked t
      | .bar i => (s.barStep n (.bar i)).foldl State.laterOnce s
      | .cbar => (s.barStep n .cbar).foldl State.laterOnce s
      | .gphase => (s.barStep n .gphase).foldl State.laterOnce s
      | .teamEnd => s.laterOnce (.teamEnd n)

/-- Sends the lines that a fault held back, once it is resolved (R84). -/
def State.retryHeld (s : State) (n id : Nat) : State :=
  match s.pub? n id with
  | none => s
  | some p => (((s.unparkOwners n id).modPub n id (fun q => { q with held := [] })).retryLines n id p.held).settlePub n id

/-- Begins a publication of a set of entries (R306): their mask trits clear as they are sent, and a line stays while words of it are on
their way. -/
def State.startPublication (s : State) (n : Nat) (set : PubSet) (w : PubWaiter) : State :=
  match s.team? n with
  | none => s
  | some t =>
    let lost := fun (e : ELine) => health e.flips false == Health.lost
    let s := (t.body.escrow.filter (fun e => e.words.any (PubSetHas set e.vline))).foldl (fun s e => (s.checkEline n e.vline).1) s
    let pick := fun (keep : Bool) (e : ELine) => { e with words := e.words.filter (fun u => PubSetHas set e.vline u == keep) }
    let chosen := (t.body.escrow.map (pick true)).filter (fun e => !e.words.isEmpty)
    let id := t.npub
    let pub : Pub := { id := id, lines := [], held := [], again := chosen.filter lost, failed := [], waiter := w }
    let s := s.modTeam n (fun t => { t with npub := id + 1, pubs := t.pubs ++ [pub],
                                            body := { t.body with escrow := t.body.escrow.map (pick false) } })
    let s := match w with
      | .thread r => s.modThread r (fun th => { th with unackPub := th.unackPub + 1 })
      | _ => s
    (((chosen.filter (fun e => !lost e)).foldl (fun s e => s.publishLine n id w e) s).freeLines n).settlePub n id

/-- An acknowledgement of a publication's line, or its refusal (R306, R78); with no line, its threads park and the lines whose walks were
under way are tried again (R84). -/
def State.ackPub (s : State) (n id vline : Nat) (no : Option Refused) : State :=
  if vline = noLine then
    let again := match s.pub? n id with | some p => p.again | none => []
    (((((s.parkOwners n id).modPub n id (fun p => { p with again := [] })).retryLines n id again).freeLines n)).settlePub n id
  else
    let s := s.modPub n id (fun p => { p with
      lines := p.lines.filter (fun e => e.vline != vline),
      failed := p.failed ++ (match no with | some r => (p.lines.filter (fun e => e.vline == vline)).map (fun e => (e, r)) | none => []) })
    (s.freeLines n).settlePub n id

/-- A thread has unpublished entries of its own. -/
def State.hasEntries (s : State) (t : TRef) : Bool :=
  match s.team? t.team with
  | some x => x.body.escrow.any (fun e => e.words.any (fun w => w.writer == t.num))
  | none => false

/-- The release step of R312 at a scope (−2 is team): publishes the thread's entries under FLOW and waits for every
acknowledgement. True once nothing is waited for. -/
def State.releaseStep (s : State) (t : TRef) (scope : Int) : State × Bool :=
  let s' := if scope ≠ -2 ∧ s.det t.team = false ∧ s.hasEntries t then
      (s.irrevocable t.team).startPublication t.team (.thread t.num) (.thread t) else s
  match s'.thread? t with
  | none => (s', true)
  | some th =>
    if (scope ≠ -2 ∧ th.unackPub ≠ 0) ∨ th.unackSyn ≠ 0 then (s'.setRun t .ackAll, false) else (s', true)

/-! ### Arrival at barriers -/

/-- Looks whether a barrier is complete but for its publication (R326–R328): the publication goes out under FLOW, and under
DET a GPHASE calls the merge desks. -/
def State.settleBarrier (s : State) (n : Nat) (r : Run) : State :=
  match barCode r with
  | none => s
  | some (code, w) =>
    let teams := s.scopeTeams n r
    if !s.allAt teams r then s
    else if s.det n then
      match r, s.team? n with
      | .gphase, some t => s.laterOnce (.detMerge t.grid)
      | _, _ => (s.barStep n r).foldl State.laterOnce s
    else
      let closed := fun (s : State) => teams.all (fun m => (s.team? m).any (fun t => t.closing.contains code && !t.pubs.any (fun p => p.waiter == w)))
      if closed s then (s.barStep n r).foldl State.laterOnce s
      else teams.foldl (fun s m =>
        if (s.team? m).any (fun t => t.closing.contains code) then s
        else (s.modTeam m (fun t => { t with closing := t.closing ++ [code] })).startPublication m .team w) s

/-- Looks at every barrier where a thread of the team's grid waits: called at arrivals and exits. -/
def State.settleBarriers (s : State) (n : Nat) : State :=
  match s.team? n with
  | none => s
  | some t =>
    (s.gridTeams t.grid).foldl (fun s m =>
      (distinct (((s.liveThreads m).map (·.2.run)).filter (fun r => (barCode r).isSome))).foldl
        (fun s r => s.settleBarrier m r) s) s

/-- A new shadow interval opens for a team (R390). -/
def State.openInterval (s : State) (n : Nat) : State :=
  s.modTeam n (fun t => { t with opened := some t.body, covered := true, irrevocable := false, rbHere := 0, pool := [] })

/-! ### The end of a lease and of a thread -/

/-- Ends a lease record of a thread that is not committed (R114, R331, R334). -/
def State.dropLease (s : State) (t : TRef) (r : LeaseRec) : State :=
  if !r.granted || !r.valid then s
  else if r.atHome then s.endLeaseHome r.slot none
  else s.endLeaseCopy (s.coreOf t.team) r.slot none

/-- Some record of the core's threads stands for a leased copy: it waits for its grant, or it holds the line (R111, R330). -/
def State.leaseStands (s : State) (core slot : Nat) (atHome : Bool) : Bool :=
  s.teams.any (fun t => (atHome || t.core == core) && (s.threadsOf t.num).any (fun p =>
    p.2.leases.any (fun r => r.slot == slot && r.atHome == atHome && (r.valid || !r.granted) && (r.granted || !atHome))))

/-- Ends the leases of lines whose records are gone: of teams that have ended, been saved or rolled back (R334, R343). -/
def State.sweepLeases (s : State) : State :=
  let s := (s.copies.filter (fun c => c.leased && !s.leaseStands c.agent c.slot false)).foldl
    (fun s c => s.endLeaseCopy c.agent c.slot none) s
  (s.vlines.filter (fun v => v.leased && !s.leaseStands 0 v.slot true)).foldl (fun s v => s.endLeaseHome v.slot none) s

/-- A thread exits (R241). -/
def State.exitThread (s : State) (t : TRef) : State :=
  let leases := match s.thread? t with | some th => th.leases | none => []
  let s := leases.foldl (fun s r => s.dropLease t r) s
  s.modThread t (fun th => { th with run := .exited, wins := [], leases := [], conv := 0, instr := [] })

/-- After exits: barriers settle, and a team whose last thread has retired ends (R342). -/
def State.afterExit (s : State) (n : Nat) : State :=
  if (s.team? n).isSome && (s.liveThreads n).isEmpty then
    (s.modTeam n (fun t => { t with ending := true })).laterOnce (.teamEnd n)
  else s.settleBarriers n

end Sys2Proof.Machine
end

