-- ==== Sys2Proof/Machine/Issue.lean ====
section
/-! DEFINITION. How an instruction is performed: the checks before it (R139, R145, R150–R153, R173, R348, R350, R374), its
guard (R160), its body, and what follows (R155, R165, R368); parking (R86), the return from a trap (R377) and handler faults
(R373). -/

namespace Sys2Proof

/-- The threads that must be present in one issue (R348). -/
inductive Scope where
  | none | squad | group | team
deriving DecidableEq, Repr

/-- The scope of an instruction as a convergence point (R348). -/
def Instr.scope (i : Instr) : Scope :=
  match i with
  | .trx _ | .vote _ | .gred _ | .gscan _ | .hist _ | .gwait _ => .group
  | .part _ => .squad
  | .reorder _ | .quant _ => .team
  | i => match i.parts with
    | some (_, o) => if o.et.scalar then .squad else if o.routed then .group else .none
    | Option.none => .none

/-- An instruction that a trap handler may execute (R374). -/
def Instr.handlerOk (i : Instr) : Bool :=
  match i with
  | .br _ | .br3 _ | .brm _ | .jmp _ | .jmpr _ | .nop _ | .wait _ | .tkt _ | .feat _ | .stamp _ | .lget _ | .lput _ | .tret _
  | .tpcSet _ | .tpcAdv _ | .tpcExit _ | .cwget _ | .cwset _ | .tlbfPage _ | .tlbfAs _ | .tlbfAll _ => true
  | i => match i.parts with
    | some (_, o) => o.et.scalar
    | Option.none => false

/-- The lane-count rule of one-word and longer instructions: the trytes of an instruction (R155). -/
def Instr.trytes (i : Instr) : Int :=
  match i with
  | .pair .. => 9
  | i => match i.parts with
    | some (_, o) => 3 * (o.len : Int)
    | Option.none => 0

end Sys2Proof

namespace Sys2Proof.Machine

/-! ### Traps -/

/-- Ends a trap handler (R377): the lanes of MASK exit or resume at their frame PCs, and the squad is unfrozen.
`all` marks every lane of MASK to exit (R373). -/
def State.tret (s : State) (n : Nat) (h : Handler) (all : Bool) : State :=
  let xmask := (s.cab n (-81 + 14)).val
  let s := s.modTeam n (fun t => { t with handler := none })
  let s := s.modSquad n h.squad (fun q => { q with frozen := false })
  let s := h.ev.lanes.foldl (fun s l =>
    let t : TRef := ⟨n, h.squad, l⟩
    if all ∨ trit xmask l = 1 then s.exitThread t
    else
      let pc := s.cab n (-54 + l)
      if !pc.aligned then
        (s.setPc t pc).raiseTraps [(t, alignTrap pc)] pc []
      else
        let k := match s.thread? t with | some th => th.wins.length | none => 0
        let s := if pc = h.ev.pc then s.setPc t pc else s.finish t pc k
        s.setRun t .ready) s
  let s := s.afterExit n
  if (s.team? n).any (fun t => !t.events.isEmpty) then s.laterOnce (.trapEntry n) else s

/-- An instruction of the handler traps or may not stand there (R373): the event of class "handler fault", then TRET with every
lane of MASK marked to exit, unless the action has ended the context. -/
def State.handlerFault (s : State) (n : Nat) : State :=
  let s := s.raise (s.teamEvent 20 n 0 .zero 0)
  match s.team? n with
  | none => s
  | some t => match t.handler with
    | some h => s.tret n h true
    | none => s

/-- Raises the error class that goes with a team's trap, where there is one (R85, R393). -/
def State.raiseClass (s : State) (n : Nat) (t : Trap) : State :=
  match t.cls with
  | some c => s.raise (s.teamEvent c n 1 t.addr 0)
  | none => s

/-- Changes the handler of a team. -/
def State.modHandler (s : State) (n : Nat) (f : Handler → Handler) : State :=
  s.modTeam n (fun t => { t with handler := t.handler.map f })

/-! ### Effects -/

/-- What a body did: the state, the executions that trap, those that do not complete, and those that go elsewhere. -/
structure Eff where
  s : State
  traps : List (Exec × Trap)
  stay : List Exec
  goto : List (Exec × Word)

/-- An effect with nothing but a state. -/
def Eff.of (s : State) : Eff := { s := s, traps := [], stay := [], goto := [] }

/-- The effect of an instruction in the executions whose guard holds. -/
def Body : Type := State → List Exec → Eff

/-- Parks an execution on a recoverable fault (R86, R374). -/
def State.park (s : State) (x : Exec) (c : Ctx) (perm : Bool) (level : Nat) (va : Word) (a : Access) : State :=
  match x.mode with
  | .han => (s.postFault c perm level va a [.handler x.t.team]).modHandler x.t.team (fun h => { h with run := .parked })
  | _ =>
    let s := s.postFault c perm level va a (x.ts.map Parked.thread)
    x.ts.foldl (fun s t => s.modThread t (fun th => { th with run := .parked, fault := va })) s

/-- An execution stops: it traps, parks or waits. -/
def Eff.stop (e : Eff) (x : Exec) (k : Stop) : Eff :=
  match k with
  | .trap t => { e with traps := e.traps ++ [(x, t)] }
  | .recov perm level va a => { e with s := e.s.park x (e.s.ctxOf x.t.team) perm level va a, stay := e.stay ++ [x] }
  | .busy => { e with stay := e.stay ++ [x] }

/-- Runs a body on one execution after another. -/
def eachExec (f : Eff → Exec → Eff) : Body := fun s xs => xs.foldl f (Eff.of s)

/-- An execution waits for a line or a range, so that it is tried again: it has stopped without a trap and is not parked. -/
def Eff.waits (e : Eff) : Bool :=
  e.stay.any (fun x => x.ts.any (fun t => (e.s.thread? t).any (fun th => th.run == .ready)))

/-- Runs a body on one execution after another in the order of their lanes: one that waits holds back those after it, so that what
lanes of one bundle do to one word is done in that order (R124, R190, R322). -/
def inOrder (f : Eff → Exec → Eff) : Body :=
  eachExec (fun e x => if e.waits then { e with stay := e.stay ++ [x] } else f e x)

/-! ### Bundles -/

/-- The executions of the current bundle for an instruction (R374, R345, R348). A handler's is named by the lowest lane of its
event; log entry 18. -/
def State.execs (s : State) (scalar : Bool) : List Exec :=
  match s.cur.handler with
  | some n => match (s.team? n).bind (·.handler) with
    | some h => [{ mode := .han, t := ⟨n, h.squad, h.ev.lanes.foldl min 26⟩, ts := [] }]
    | none => []
  | none =>
    if scalar then
      (distinct (s.cur.threads.map (fun t => (t.team, t.squad)))).map (fun k =>
        let ts := s.cur.threads.filter (fun t => (t.team, t.squad) == k)
        let lane := (ts.map (·.lane)).foldl min 26
        { mode := .sca, t := ⟨k.1, k.2, lane⟩, ts := ts })
    else s.cur.threads.map (fun t => { mode := .vec, t := t, ts := [t] })

/-- A group register holds some group; then its size (R143). -/
def State.groupSizeOf (s : State) (n q gr : Nat) : Option Nat :=
  ((List.range 27).find? (fun l => groupVal (s.groupWord n q gr l))).map (fun l => groupSize (s.groupWord n q gr l))

/-- The causes of R173 that depend on the team or on a group register: 5 for a size (R153), 7 and 8 for registers. -/
def State.dynCode (s : State) (fm : Form) (o : Opnd) (x : Exec) (limit8 : Bool) : Option Nat :=
  let n := x.t.team
  let v := vregsOf fm o
  let size := s.groupSizeOf n x.t.squad o.gr
  if o.routed && size.any (fun k => o.ma.tooBig k || o.mb.tooBig k) then some 5
  else if v.any (fun r => 242 < r) then some 7
  else if v.any (fun (r : Nat) => (if x.mode = .han then 81 else s.regsOf n) ≤ (r : Int))
      || (o.gr : Int) > s.gslotOf n || (fm.d == .g && o.d + 4 > s.gslotOf n) || limit8 then some 8
  else none

/-- A register of the instruction is interlocked: a pending result whose window has ended and whose data has not arrived
(R165, R260), or a queued result or a serial of a k register. -/
def State.interlocked (s : State) (fm : Form) (o : Opnd) (x : Exec) : Bool :=
  let v := vregsOf fm o
  let ks := kregsOf fm o
  let bank := x.mode == .han
  let busyV := fun (t : TRef) => (s.thread? t).any (fun th => th.wins.any (fun w => (w.left == 0 || (fm.ends && !w.arrived)) && v.contains w.reg))
  (x.ts.any busyV)
  || (o.routed && (List.range 27).any (fun l => busyV { x.t with lane := l } && !s.exited { x.t with lane := l }))
  || (s.squad? x.t.team x.t.squad).any (fun q =>
      let named := ks ++ (if bank then v else [])
      q.sfuq.any (fun e => (match e.k with | some (b, _) => b == bank | none => false) && named.contains e.reg)
      || q.kwait.any (fun w => w.1 == bank && named.contains w.2))

/-- Every live thread of the scope of a thread is in the bundle (R152, R348). -/
def State.converged (s : State) (sc : Scope) (gr : Nat) (t : TRef) : Bool :=
  let has := fun (u : TRef) => s.cur.threads.contains u || s.exited u
  match sc with
  | .none => true
  | .squad => (List.range 27).all (fun l => has { t with lane := l })
  | .team => (s.liveThreads t.team).all (fun p => has p.1)
  | .group =>
    let g := s.groupWord t.team t.squad gr t.lane
    !groupVal g || (List.range 27).all (fun l =>
      let h := s.groupWord t.team t.squad gr l
      !(groupVal h && groupNum h == groupNum g) || has { t with lane := l })

/-- The executions that meet cause 9: they read their group and are in none (R153). -/
def State.outside (s : State) (sc : Scope) (o : Opnd) (x : Exec) : Bool :=
  x.mode == .vec && sc == .group && !groupVal (s.groupWord x.t.team x.t.squad o.gr x.t.lane)

/-- What follows a body: traps enter, executions that complete advance or go to their targets, windows count (R155, R165,
R368). `before` gives each thread's windows before the instruction. -/
def State.conclude (s : State) (i : Instr) (all : List Exec) (e : Eff) : State :=
  let words := (encode i).getD []
  let pc := s.cur.pc
  let next := pc.add i.trytes
  match s.cur.handler with
  | some n =>
    if !e.traps.isEmpty then (e.traps.foldl (fun s p => s.raiseClass n p.2) e.s).handlerFault n
    else if !e.stay.isEmpty then e.s
    else e.s.modHandler n (fun h => { h with pc := ((e.goto.head?).map (·.2)).getD next })
  | none =>
    let wins := fun (t : TRef) => match s.thread? t with | some th => th.wins.length | none => 0
    let done := all.filter (fun x => !(e.traps.any (fun p => p.1 == x)) && !e.stay.contains x)
    let s1 := done.foldl (fun s' x =>
      let dest := match e.goto.find? (fun p => p.1 == x) with | some p => p.2 | none => next
      x.ts.foldl (fun s' t => if s'.exited t then s' else s'.finish t dest (wins t)) s') e.s
    let s2 := e.stay.foldl (fun s' x => x.ts.foldl (fun s' t => s'.modThread t (fun th => { th with instr := words })) s') s1
    -- the frame PC of TRAP is the next instruction (R369)
    let s3 := e.traps.foldl (fun s' p => if p.2.cause = 16 then p.1.ts.foldl (fun s' t => s'.setPc t next) s' else s') s2
    s3.raiseTraps ((e.traps.map (fun p => p.1.ts.map (fun t => (t, p.2)))).flatten) pc words

/-- Every thread of the bundle takes the illegal-instruction trap (R173, R174); in a handler it is a handler fault (R373). -/
def State.illegal (s : State) (code : Nat) (words : List Word) : State :=
  match s.cur.handler with
  | some n => s.handlerFault n
  | none => s.raiseTraps (s.cur.threads.map (fun t => (t, Trap.of 1 code .zero))) s.cur.pc words

/-- A register index beyond what the instruction's own description allows raises code 8 (R326). -/
def State.limit8 (s : State) (i : Instr) (n : Nat) : Bool :=
  match i with
  | .bar o => s.nbarOf n ≤ o.c
  | _ => false

/-- The threads of the bundle cannot issue the instruction together now: one is interlocked, or its scope is not converged. -/
def State.holdsBack (s : State) (i : Instr) (fm : Form) (o : Opnd) (xs : List Exec) : Bool :=
  xs.any (fun x => s.interlocked fm o x)
  || (s.cur.handler.isNone && s.cur.threads.any (fun t => !s.converged i.scope o.gr t))

/-- Performs an instruction for the current bundle. -/
def perform (i : Instr) (o : Opnd) (fm : Form) (body : Body) (s : State) : Host.Outcome State Fault Refusal :=
  let sc := i.scope
  let xs := s.execs o.et.scalar
  let words := (encode i).getD []
  if s.cur.handler.isSome && !i.handlerOk then .next (s.illegal 5 words)
  else match xs.findSome? (fun x => s.dynCode fm o x (s.limit8 i x.t.team)) with
    | some c => .next (s.illegal c words)
    | none =>
      if s.holdsBack i fm o xs then .next s
      else
        let live := xs.filter (fun x => x.guard s o)
        let out := live.filter (fun x => s.outside sc o x)
        let e := body s (live.filter (fun x => !s.outside sc o x))
        .next (s.conclude i xs { e with traps := e.traps ++ out.map (fun x => (x, Trap.of 1 9 .zero)) })

/-! ### Bodies of register instructions -/

/-- Writes given registers: field value and block step, after every execution has read (R144). DESIGN CHOICE, log entry 63: where the
registers of two elements of a block overlap, the later element's word stands. -/
def writeAll (w : List (Exec × Int × Nat × Word)) (s : State) : State :=
  w.foldl (fun t p => p.1.set t p.2.1 p.2.2.1 p.2.2.2) s

/-- A body that computes, in each execution and block step, the words of its destination registers. -/
def wordsBody (o : Opnd) (f : State → Exec → Nat → List Word) : Body := fun s xs =>
  let w := (xs.map (fun x => ((blockSteps o).map (fun k =>
    ((f s x k).zipIdx).map (fun p => (x, o.d + (p.2 : Int), k, p.1)))).flatten)).flatten
  Eff.of (writeAll w s)

/-- A body that computes one word for D. -/
def wordBody (o : Opnd) (f : State → Exec → Nat → Word) : Body := wordsBody o (fun s x k => [f s x k])

/-- A body that computes one trit for the predicate D. -/
def tritBody (o : Opnd) (f : State → Exec → Trit) : Body := fun s xs =>
  Eff.of ((xs.map (fun x => (x, f s x))).foldl (fun t p => p.1.setPred t (predNum o.d) p.2) s)

/-- Delivers a result that LA may delay: at once, or at the end of its window (R165). -/
def Exec.deliver (s : State) (x : Exec) (o : Opnd) (k : Nat) (w : Word) : State :=
  if o.la = 0 ∨ x.mode ≠ .vec then x.set s o.d k w
  else
    let reg := Exec.num o.d + k
    let win : Win := { reg := reg, val := w, left := o.la, arrived := false, src := .load }
    (s.modThread x.t (fun th => { th with wins := th.wins ++ [win] })).later [.loadDataReturn x.t reg]

/-- The body that changes nothing. -/
def noBody : Body := fun s _ => Eff.of s

end Sys2Proof.Machine
end

