-- ==== Sys2Proof/Machine/Int.lean ====
section
/-! DEFINITION. The integer, tritwise and movement instructions (R211–R230). -/

namespace Sys2Proof.Machine

/-! ### Shared bodies -/

/-- One element function of A. -/
def elem1 (o : Opnd) (f : Int → Int) : Body :=
  wordBody o (fun s x k => mapElems o.et (fun l => f (l.getD 0 0)) [x.srcA s o k])

/-- One element function of A and the second operand, which may be the immediate (R211). -/
def elem2 (o : Opnd) (f : Int → Int → Int) : Body :=
  wordBody o (fun s x k => mapElems o.et (fun l => f (l.getD 0 0) (l.getD 1 0)) [x.srcA s o k, x.srcB s o true k])

/-- One element function of A, B and the register C. -/
def elem3 (o : Opnd) (f : Int → Int → Int → Int) : Body :=
  wordBody o (fun s x k => mapElems o.et (fun l => f (l.getD 0 0) (l.getD 1 0) (l.getD 2 0))
    [x.srcA s o k, x.srcB s o false k, x.srcC s o k])

/-- The exact result narrowed to the type: wrapped, or saturated where SAT = + (R216). -/
def fit (o : Opnd) (e : Int) : Int := narrow o.et.width o.sat e

/-! ### Arithmetic (R215–R217) -/

/-- ADD. -/
def bodyAdd (o : Opnd) : Body := elem2 o (fun a b => fit o (a + b))
/-- ADD: its execution. -/
def execAdd (o : Opnd) (s : State) := perform (.add o) o (binary true o) (bodyAdd o) s
/-- SUB. -/
def bodySub (o : Opnd) : Body := elem2 o (fun a b => fit o (a - b))
/-- SUB: its execution. -/
def execSub (o : Opnd) (s : State) := perform (.sub o) o (binary true o) (bodySub o) s
/-- NEG. -/
def bodyNeg (o : Opnd) : Body := elem1 o (fun a => -a)
/-- NEG: its execution. -/
def execNeg (o : Opnd) (s : State) := perform (.neg o) o unary (bodyNeg o) s
/-- ABS. -/
def bodyAbs (o : Opnd) : Body := elem1 o (fun a => a.natAbs)
/-- ABS: its execution. -/
def execAbs (o : Opnd) (s : State) := perform (.abs o) o unary (bodyAbs o) s
/-- SGN. -/
def bodySgn (o : Opnd) : Body := elem1 o sgn
/-- SGN: its execution. -/
def execSgn (o : Opnd) (s : State) := perform (.sgn o) o unary (bodySgn o) s
/-- MUL. -/
def bodyMul (o : Opnd) : Body := elem2 o (fun a b => fit o (a * b))
/-- MUL: its execution. -/
def execMul (o : Opnd) (s : State) := perform (.mul o) o (binary true o) (bodyMul o) s
/-- MULH: the part of the exact product above the wrapped one. -/
def bodyMulh (o : Opnd) : Body := 
  elem2 o (fun a b => (a * b - wrap o.et.width (a * b)) / ((3 ^ o.et.width : Nat) : Int))
/-- MULH: its execution. -/
def execMulh (o : Opnd) (s : State) := perform (.mulh o) o (binary false o) (bodyMulh o) s
/-- MAD. -/
def execMad (o : Opnd) (s : State) := perform (.mad o) o (ternary true) (elem3 o (fun a b m => fit o (a * b + m))) s
/-- DIV: the nearest integer to the quotient; 0 for a zero divisor (R217). -/
def divQ (a b : Int) : Int := if b = 0 then 0 else divNearest a b
/-- DIV. -/
def bodyDiv (o : Opnd) : Body := elem2 o divQ
/-- DIV: its execution. -/
def execDiv (o : Opnd) (s : State) := perform (.div o) o (binary false o) (bodyDiv o) s
/-- MOD: a for a zero divisor (R217). -/
def bodyMod (o : Opnd) : Body := elem2 o (fun a b => a - b * divQ a b)
/-- MOD: its execution. -/
def execMod (o : Opnd) (s : State) := perform (.mod o) o (binary false o) (bodyMod o) s
/-- MIN. -/
def bodyMin (o : Opnd) : Body := elem2 o min
/-- MIN: its execution. -/
def execMin (o : Opnd) (s : State) := perform (.min o) o (binary false o) (bodyMin o) s
/-- MAX. -/
def bodyMax (o : Opnd) : Body := elem2 o max
/-- MAX: its execution. -/
def execMax (o : Opnd) (s : State) := perform (.max o) o (binary false o) (bodyMax o) s
/-- CLAMP. -/
def execClamp (o : Opnd) (s : State) := perform (.clamp o) o (ternary false) (elem3 o (fun a b m => min (max a b) m)) s

/-! ### Shifts (R218) -/

/-- The exact result of a shift by any amount: beyond twice the width nothing but the sign of the amount matters (R218). -/
def shiftExact (n : Nat) (a k : Int) : Int := shift3 a (max (-(2 * (n : Int))) (min (2 * (n : Int)) k))
/-- SHL. -/
def bodyShl (o : Opnd) : Body := elem2 o (fun a k => fit o (shiftExact o.et.width a k))
/-- SHL: its execution. -/
def execShl (o : Opnd) (s : State) := perform (.shl o) o (binary true o) (bodyShl o) s
/-- SHR. -/
def bodyShr (o : Opnd) : Body := elem2 o (fun a k => fit o (shiftExact o.et.width a (-k)))
/-- SHR: its execution. -/
def execShr (o : Opnd) (s : State) := perform (.shr o) o (binary true o) (bodyShr o) s
/-- ROT. -/
def bodyRot (o : Opnd) : Body := elem2 o (fun a k => rotTrits o.et.width (k % (o.et.width : Int)).toNat a)
/-- ROT: its execution. -/
def execRot (o : Opnd) (s : State) := perform (.rot o) o (binary false o) (bodyRot o) s

/-! ### Tritwise (R219–R221) -/

/-- TMIN. -/
def bodyTmin (o : Opnd) : Body := elem2 o (fun a b => zipTrits o.et.width min a b)
/-- TMIN: its execution. -/
def execTmin (o : Opnd) (s : State) := perform (.tmin o) o (binary false o) (bodyTmin o) s
/-- TMAX. -/
def bodyTmax (o : Opnd) : Body := elem2 o (fun a b => zipTrits o.et.width max a b)
/-- TMAX: its execution. -/
def execTmax (o : Opnd) (s : State) := perform (.tmax o) o (binary false o) (bodyTmax o) s
/-- TSUM. -/
def bodyTsum (o : Opnd) : Body := elem2 o (fun a b => tsum o.et.width a b)
/-- TSUM: its execution. -/
def execTsum (o : Opnd) (s : State) := perform (.tsum o) o (binary false o) (bodyTsum o) s
/-- TCON. -/
def bodyTcon (o : Opnd) : Body := 
  elem2 o (fun a b => zipTrits o.et.width (fun x y => if x = y then x else 0) a b)
/-- TCON: its execution. -/
def execTcon (o : Opnd) (s : State) := perform (.tcon o) o (binary false o) (bodyTcon o) s
/-- The rules of TMAP's fields (R220). -/
def tmapForm (o : Opnd) : Form := { unary with c := .i, extra := -13 ≤ o.c && o.c ≤ 13 }
/-- TMAP: trit t becomes trit [t + 1] of C (R220). -/
def execTmap (o : Opnd) (s : State) :=
  perform (.tmap o) o (tmapForm o) (elem1 o (mapTrits o.et.width (fun t => trit o.c (t + 1).toNat))) s
/-- TCNT. -/
def bodyTcnt (o : Opnd) : Body := elem1 o (fun a => wrap o.et.width ((trits o.et.width a).count o.f))
/-- TCNT: its execution. -/
def execTcnt (o : Opnd) (s : State) := perform (.tcnt o) o unary (bodyTcnt o) s
/-- TLZ. -/
def bodyTlz (o : Opnd) : Body := elem1 o (fun a => (o.et.width - tlen a : Nat))
/-- TLZ: its execution. -/
def execTlz (o : Opnd) (s : State) := perform (.tlz o) o unary (bodyTlz o) s
/-- TEXT (R221). -/
def textOf (a p : Int) (w : Nat) : Int :=
  if 0 ≤ p ∧ p ≤ 26 then ofTrits ((List.range w).map (fun i => if p.toNat + i ≤ 26 then trit a (p.toNat + i) else 0)) else 0
/-- TINS (R221). -/
def tinsOf (d a p : Int) (w : Nat) : Int :=
  if 0 ≤ p ∧ p ≤ 26 then
    ofTrits ((List.range 27).map (fun i => if p.toNat ≤ i ∧ i < p.toNat + w then trit a (i - p.toNat) else trit d i))
  else d
/-- The rules of the fields of TEXT and TINS (R221). -/
def textForm (o : Opnd) (d : Bool) : Form := { plain false with c := .i, extra := 1 ≤ o.c && o.c ≤ 27, dRead := d }
/-- TEXT. -/
def execText (o : Opnd) (s : State) :=
  perform (.text o) o (textForm o false)
    (wordBody o (fun s x k => .ofInt (textOf (x.srcA s o k).val (x.srcB s o false k).val o.c.toNat))) s
/-- TINS. -/
def execTins (o : Opnd) (s : State) :=
  perform (.tins o) o (textForm o true)
    (wordBody o (fun s x k => .ofInt (tinsOf (x.reg s o.d k).val (x.srcA s o k).val (x.srcB s o false k).val o.c.toNat))) s

/-! ### Comparison, selection, movement (R222–R227) -/

/-- The element that X selects for a comparison (R222, R255). -/
def cmpElem (o : Opnd) (w : Word) : Int := elemAt o.et w.val o.x.toNat
/-- The rules of CMP's fields (R222). -/
def cmpForm (o : Opnd) : Form := { binary false o with d := .p, extra := (o.f != 1 || o.len == 2) && subX o }
/-- CMP. -/
def bodyCmp (o : Opnd) : Body := 
  tritBody o (fun s x => cmpTrit (cmpElem o (x.srcA s o 0)) (cmpElem o (x.srcB s o true 0)))
/-- CMP: its execution. -/
def execCmp (o : Opnd) (s : State) := perform (.cmp o) o (cmpForm o) (bodyCmp o) s
/-- SEL (R223). -/
def execSel (o : Opnd) (s : State) :=
  perform (.sel o) o (ternary false) (wordBody o (fun s x k =>
    match x.pred s (predNum o.f) with
    | .p => x.srcA s o k
    | .z => x.srcB s o false k
    | .m => x.srcC s o k)) s
/-- MOV (R224). -/
def bodyMov (o : Opnd) : Body := wordBody o (fun s x k => x.srcA s o k)
/-- MOV: its execution. -/
def execMov (o : Opnd) (s : State) := perform (.mov o) o unary (bodyMov o) s
/-- MOV.BC: a k register into every lane (R224). -/
def bodyMovBc (o : Opnd) : Body := wordBody o (fun s x _ => x.kreg s o.a)
/-- MOV.BC: its execution. -/
def execMovBc (o : Opnd) (s : State) := perform (.movBc o) o { d := .r, a := .k } (bodyMovBc o) s
/-- MOV.K: the v register of the bundle's lowest lane (R224); in a handler the field names a trap-bank register (R374). -/
def execMovK (o : Opnd) (s : State) :=
  perform (.movK o) o { d := .k, a := .v }
    (wordBody o (fun s x k => if x.mode = .han then x.reg s o.a k else s.vreg x.t (Exec.num o.a))) s
/-- The rules of MOVI's fields (R225). -/
def moviForm (o : Opnd) : Form := { d := .r, c := .i, extra := o.len == 3 || setI.contains o.et }
/-- MOVI (R225). -/
def execMovi (o : Opnd) (s : State) :=
  perform (.movi o) o (moviForm o) (wordBody o (fun _ _ _ => if o.len = 3 then o.w3 else immWord o.et o.c)) s
/-- PACK's sub-element of a word (R226). -/
def packElem (o : Opnd) (w : Word) : Int := if o.et = .t9 then narrow 9 o.sat w.val else narrowTo9 o.sat w.val
/-- PACK. -/
def execPack (o : Opnd) (s : State) :=
  perform (.pack o) o (ternary true) (wordBody o (fun s x k =>
    .ofInt (ofSubs (packElem o (x.srcA s o k)) (packElem o (x.srcB s o false k)) (packElem o (x.srcC s o k))))) s
/-- UNPACK (R226). -/
def execUnpack (o : Opnd) (s : State) :=
  perform (.unpack o) o unary (wordBody o (fun s x k =>
    let e := sub9 (x.srcA s o k).val o.x.toNat
    .ofInt (if o.et = .t9 then e else widen9 e))) s
/-- BSUM's result on a word (R227). -/
def bsumOf (et : ETy) (x : Int) : Int :=
  match et with
  | .t1 => (trits 27 x).sum
  | .t9 => sub9 x 0 + sub9 x 1 + sub9 x 2
  | _ => tf27F.deliver false .tern (FVal.sum ((List.range 3).map (fun i => tf9F.decode (sub9 x i))))
/-- BSUM. -/
def execBsum (o : Opnd) (s : State) :=
  perform (.bsum o) o unary (wordBody o (fun s x k => .ofInt (bsumOf o.et (x.srcA s o k).val))) s

/-! ### Thread descriptors, other lanes (R228–R230) -/

/-- The value of IDX (R228). -/
def idxOf (s : State) (x : Exec) (o : Opnd) : Int :=
  let n := x.t.team
  let lin : Int := match s.team? n with | some t => t.lin | none => 0
  let dim := fun (a b c : Int) => if o.x = 0 then a else if o.x = 1 then b else c
  let gx := s.gridWord n 6
  let gy := s.gridWord n 7
  if o.f = 0 then x.t.lane
  else if o.f = 1 then x.t.squad
  else if o.f = 2 then x.t.num
  else if o.f = 3 then dim (lin % gx) (lin / gx % gy) (lin / gx / gy)
  else if o.f = 4 then dim gx gy (s.gridWord n 8)
  else if o.f = -1 then 27 * s.gridWord n 9
  else if o.f = -2 then s.coreOf n
  else if o.f = -3 then (match s.team? n with | some t => t.member | none => 0)
  else
    let g := s.groupWord n x.t.squad o.gr x.t.lane
    if groupVal g then groupPos g else -1
/-- The rules of IDX's fields (R228). -/
def idxForm (o : Opnd) : Form :=
  { d := .r, gr := o.f == -4, extra := (o.x == 0 || o.f == 3 || o.f == 4) && !(o.et.scalar && (o.f == 0 || o.f == 2 || o.f == -4)) }
/-- IDX. -/
def execIdx (o : Opnd) (s : State) := perform (.idx o) o (idxForm o) (wordBody o (fun s x _ => .ofInt (idxOf s x o))) s

/-- The thread that LGET and LPUT reach, where the lane exists and has not exited (R230). -/
def reachLane (s : State) (x : Exec) (lane : Int) : Option TRef :=
  let t : TRef := { x.t with lane := lane.toNat }
  if 0 ≤ lane ∧ lane ≤ 26 ∧ s.exited t = false then some t else none
/-- A result is still queued, or has not arrived, for the register that LGET or LPUT names (R230). -/
def reachWaits (s : State) (x : Exec) (f lane num : Int) : Bool :=
  (s.squad? x.t.team x.t.squad).any (fun q =>
    if f = 0 then
      q.sfuq.any (fun e => e.k.isNone && e.reg == num.toNat && e.lanes.contains lane.toNat)
      || (reachLane s x lane).any (fun t => (s.thread? t).any (fun th => th.wins.any (fun w => w.left == 0 && w.reg == num.toNat)))
    else f == 2 && (q.sfuq.any (fun e => (match e.k with | some (b, _) => !b | none => false) && e.reg == num.toNat)
      || q.kwait.contains (false, num.toNat)))
/-- The value that LGET reads; 0 where nothing is reached (R229, R230). -/
def lgetOf (s : State) (x : Exec) (f lane num : Int) : Word :=
  if f = 2 then (if 0 ≤ num ∧ num ≤ 80 then s.kreg x.t.team x.t.squad false num.toNat else .zero)
  else match reachLane s x lane with
    | none => .zero
    | some t =>
      if f = 0 then (if 0 ≤ num ∧ num < s.regsOf t.team then s.vreg t num.toNat else .zero)
      else if 0 ≤ num ∧ num ≤ 8 then .ofInt (s.pred t num.toNat).val else .zero
/-- LPUT's write (R229, R230). -/
def lputTo (s : State) (x : Exec) (f lane num : Int) (w : Word) : State :=
  if f = 2 then (if 0 ≤ num ∧ num ≤ 80 then s.setK x.t.team x.t.squad false num.toNat w else s)
  else match reachLane s x lane with
    | none => s
    | some t =>
      if f = 0 then (if 0 ≤ num ∧ num < s.regsOf t.team then s.setV t num.toNat w else s)
      else if 0 ≤ num ∧ num ≤ 8 then s.setPred t num.toNat (.ofInt (trit w.val 0)) else s
/-- LGET. -/
def execLget (o : Opnd) (s : State) :=
  perform (.lget o) o { d := .k, a := .k, b := .k } (eachExec (fun e x =>
    let lane := (x.reg e.s o.a 0).val
    let num := (x.reg e.s o.b 0).val
    if reachWaits e.s x o.f lane num then { e with stay := e.stay ++ [x] }
    else { e with s := x.set e.s o.d 0 (lgetOf e.s x o.f lane num) })) s
/-- LPUT. -/
def execLput (o : Opnd) (s : State) :=
  perform (.lput o) o { d := .k, a := .k, b := .k, dRead := true } (eachExec (fun e x =>
    let lane := (x.reg e.s o.a 0).val
    let num := (x.reg e.s o.b 0).val
    if reachWaits e.s x o.f lane num then { e with stay := e.stay ++ [x] }
    else { e with s := lputTo e.s x o.f lane num (x.reg e.s o.d 0) })) s

end Sys2Proof.Machine
end

