-- ==== Sys2Proof/Machine/Group.lean ====
section
/-! DEFINITION. The group collectives (R231–R235) and group registers (R242, R243). -/

namespace Sys2Proof.Machine

/-- The lanes of a lane's group with their positions, in ascending position (R143). -/
def State.groupLanes (s : State) (t : TRef) (gr : Nat) : List (Nat × Nat) :=
  let g := s.groupWord t.team t.squad gr t.lane
  let l := (List.range 27).filter (fun l =>
    let h := s.groupWord t.team t.squad gr l
    groupVal h && groupNum h == groupNum g)
  sortBy (fun a b => a.2 ≤ b.2) (l.map (fun l => (l, groupPos (s.groupWord t.team t.squad gr l))))

/-- The values that the members which have not exited contribute, with their positions (R231). -/
def State.contrib (s : State) (t : TRef) (gr : Nat) (f : TRef → Int) : List (Nat × Int) :=
  ((s.groupLanes t gr).filter (fun p => !s.exited { t with lane := p.1 })).map (fun p => (p.2, f { t with lane := p.1 }))

/-- The position and size of a lane in its group. -/
def State.myPos (s : State) (t : TRef) (gr : Nat) : Nat := groupPos (s.groupWord t.team t.squad gr t.lane)
def State.mySize (s : State) (t : TRef) (gr : Nat) : Nat := groupSize (s.groupWord t.team t.squad gr t.lane)

/-- TRX (R232). -/
def execTrx (o : Opnd) (s : State) :=
  perform (.trx o) o { d := .v, a := .v, gr := true } (wordBody o (fun s x k =>
    let q := s.myPos x.t o.gr
    let c := s.contrib x.t o.gr (fun t => trit (s.vreg t (Exec.num o.a + k)).val q)
    let own := (x.reg s o.a k).val
    .ofInt (ofTrits ((List.range 27).map (fun j =>
      if j < s.mySize x.t o.gr then (assocGet c j).getD 0 else trit own j))))) s

/-- The rules of VOTE's fields (R233). -/
def voteForm (o : Opnd) : Form := { d := if o.f == 0 then .v else .p, a := .p, gr := true }
/-- VOTE (R233). -/
def execVote (o : Opnd) (s : State) :=
  let preds := fun (s : State) (x : Exec) => s.contrib x.t o.gr (fun t => (s.pred t (predNum o.a)).val)
  let bal := wordBody o (fun s x _ =>
    .ofInt (ofTrits ((List.range 27).map (fun j => (assocGet (preds s x) j).getD 0))))
  let any := tritBody o (fun s x => .ofInt (((preds s x).map (·.2)).foldl max (-1)))
  let all := tritBody o (fun s x => .ofInt (((preds s x).map (·.2)).foldl min 1))
  perform (.vote o) o (voteForm o) (if o.f = 0 then bal else if o.f = 1 then any else all) s

/-- The float format of a float type. -/
def fmtOf (et : ETy) : FFmt := if et = .tf9 then tf9F else tf27F

/-- The reduction of R234 over elements of a type: F 0 sum, +1 max, −1 min; the identity for an empty list. -/
def reduce (et : ETy) (f : Int) (sat : Bool) (l : List Int) : Int :=
  if isFloat et then
    let m := fmtOf et
    if f = 0 then m.deliver sat .tern (FVal.sum (l.map m.decode))
    else if f = 1 then m.deliver false .tern ((l.map m.decode).foldl FVal.max (.inf true))
    else m.deliver false .tern ((l.map m.decode).foldl FVal.min (.inf false))
  else if f = 0 then narrow et.width sat l.sum
  else if f = 1 then l.foldl max (-(maxv et.width))
  else l.foldl min (maxv et.width)

/-- The word that reduces, element by element, the words of the positions kept. -/
def State.groupReduce (s : State) (x : Exec) (o : Opnd) (k : Nat) (keep : Nat → Bool) : Word :=
  let words := (s.contrib x.t o.gr (fun t => (s.vreg t (Exec.num o.a + k)).val)).filter (fun p => keep p.1)
  ofElems o.et ((List.range o.et.per).map (fun i => reduce o.et o.f o.sat (words.map (fun p => elemAt o.et p.2 i))))

/-- The rules of the fields of GRED and GSCAN (R234). -/
def gredForm (o : Opnd) : Form := { d := .v, a := .v, gr := true, sat := o.f == 0 }
/-- GRED. -/
def execGred (o : Opnd) (s : State) :=
  perform (.gred o) o (gredForm o) (wordBody o (fun s x k => s.groupReduce x o k (fun _ => true))) s
/-- GSCAN. -/
def execGscan (o : Opnd) (s : State) :=
  perform (.gscan o) o (gredForm o) (wordBody o (fun s x k =>
    let q := s.myPos x.t o.gr
    s.groupReduce x o k (fun p => if o.x = 0 then p ≤ q else p < q))) s

/-- The rules of HIST's fields (R235). -/
def histForm (o : Opnd) : Form := { d := .v, a := .v, b := if o.f == 0 then .z else .v, gr := true, sat := o.f == 1 }
/-- HIST (R235). -/
def execHist (o : Opnd) (s : State) :=
  perform (.hist o) o (histForm o) (wordBody o (fun s x k =>
    let q : Int := s.myPos x.t o.gr
    let lanes := (s.groupLanes x.t o.gr).filter (fun p => !s.exited { x.t with lane := p.1 })
    let hit := lanes.filter (fun p => (s.vreg { x.t with lane := p.1 } (Exec.num o.a + k)).val == q)
    if o.f = 0 then .ofInt (hit.length : Int)
    else .ofInt (narrow 27 o.sat ((hit.map (fun p => (s.vreg { x.t with lane := p.1 } (Exec.num o.b + k)).val)).sum)))) s

/-! ### PART and GWAIT -/

/-- The size that F gives (R242). -/
def partSize (f : Int) : Nat := if f = -1 then 3 else if f = 0 then 9 else 27

/-- The words of a static partition: the groups all of whose lanes take part (R242). -/
def partFix (n : Nat) (takes : Nat → Bool) : List Word :=
  (List.range 27).map (fun l =>
    let base := l / n * n
    if (List.range n).all (fun i => takes (base + i)) then groupMake n (l / n) (l % n) else .zero)

/-- The words of a partition by key: (lane, key) of the lanes that take part, in ascending lane (R242). -/
def partKey (n : Nat) (l : List (Nat × Int)) : List Word :=
  let order := sortBy (fun a b => a.2 ≤ b.2) l
  let keys := distinct (order.map (·.2))
  let runs := (keys.map (fun k => (groupsOf n 27 ((order.filter (fun p => p.2 == k)).map (·.1))).filter (fun r => r.length == n))).flatten
  (List.range 27).map (fun lane =>
    match (runs.zipIdx).find? (fun r => r.1.contains lane) with
    | some (r, g) => groupMake n g (r.idxOf lane)
    | none => .zero)

/-- PART's rules (R242). -/
def partForm (o : Opnd) : Form := { d := .g, a := if o.x == 0 then .v else .z }

/-- PART (R242): it writes the whole register unless the guard fails in every lane. -/
def partBody (o : Opnd) : Body := fun s xs =>
  match xs with
  | [] => Eff.of s
  | x :: _ =>
    let n := partSize o.f
    let takes := fun (l : Nat) => xs.any (fun y => y.t.lane == l)
    let words := if o.x = 1 then partFix n (fun l => takes l || s.exited { x.t with lane := l })
      else partKey n (sortBy (fun a b => a.1 ≤ b.1) (xs.map (fun y => (y.t.lane, (y.reg s o.a 0).val))))
    Eff.of (s.modSquad x.t.team x.t.squad (fun q => { q with groups := setNth q.groups (o.d + 3).toNat words }))

/-- PART. -/
def execPart (o : Opnd) (s : State) := perform (.part o) o (partForm o) (partBody o) s
/-- GWAIT: a convergence point with no other effect (R243). -/
def execGwait (o : Opnd) (s : State) := perform (.gwait o) o { gr := true } noBody s

end Sys2Proof.Machine
end

