-- ==== Sys2Proof/Machine/Sfu.lean ====
section
/-! DEFINITION. The correctly rounded special functions (R258, R259), by interval arithmetic of growing precision. -/

namespace Sys2Proof

/-- The special functions of R258. -/
inductive SfuFn where
  | rcp | rsq | sqrt | exp | log | sin | cos | tanh | sigm
deriving DecidableEq, Repr

/-- An interval [lo, hi] / 2^p in fixed point, p given beside it. -/
structure Ival where
  lo : Int
  hi : Int
deriving DecidableEq, Repr

namespace Ival

/-- The tightest interval about a rational. -/
def ofQ (p : Nat) (q : Q) : Ival :=
  let n := q.num * ((2 ^ p : Nat) : Int)
  let d : Int := q.den
  let f := n / d
  ⟨f, if f * d = n then f else f + 1⟩

def add (a b : Ival) : Ival := ⟨a.lo + b.lo, a.hi + b.hi⟩
def sub (a b : Ival) : Ival := ⟨a.lo - b.hi, a.hi - b.lo⟩
def neg (a : Ival) : Ival := ⟨-a.hi, -a.lo⟩

/-- The product, rounded outwards. -/
def mul (p : Nat) (a b : Ival) : Ival :=
  let s : Int := ((2 ^ p : Nat) : Int)
  let c1 := a.lo * b.lo
  let c2 := a.lo * b.hi
  let c3 := a.hi * b.lo
  let c4 := a.hi * b.hi
  let lo := min (min c1 c2) (min c3 c4)
  let hi := max (max c1 c2) (max c3 c4)
  ⟨lo / s, -((-hi) / s)⟩

/-- The product with an integer. -/
def scale (a : Ival) (k : Int) : Ival := if 0 ≤ k then ⟨a.lo * k, a.hi * k⟩ else ⟨a.hi * k, a.lo * k⟩

/-- The quotient by a positive natural, rounded outwards. -/
def divNat (a : Ival) (k : Nat) : Ival := ⟨a.lo / (k : Int), -((-a.hi) / (k : Int))⟩

/-- The quotient by a positive interval, rounded outwards. -/
def div (p : Nat) (a b : Ival) : Ival :=
  let s : Int := ((2 ^ p : Nat) : Int)
  let fl := fun (x y : Int) => (x * s) / y
  let ce := fun (x y : Int) => -((-(x * s)) / y)
  ⟨min (fl a.lo b.lo) (fl a.lo b.hi), max (ce a.hi b.lo) (ce a.hi b.hi)⟩

/-- Widens by `k` units in the last place. -/
def widen (a : Ival) (k : Nat) : Ival := ⟨a.lo - k, a.hi + k⟩

end Ival

/-- Newton's iteration for the integer square root, from above. -/
def isqrtFrom (n x : Nat) : Nat → Nat
  | 0 => x
  | fuel + 1 => let y := (x + n / x) / 2; if y < x then isqrtFrom n y fuel else x

/-- The integer square root. -/
def isqrt (n : Nat) : Nat :=
  if n = 0 then 0 else let b := Nat.log2 n; isqrtFrom n (2 ^ (b / 2 + 1)) (Nat.log2 (b + 2) + 8)

/-- √q as an interval, for q ≥ 0. -/
def sqrtIval (p : Nat) (q : Q) : Ival :=
  let n := q.num.natAbs * 2 ^ (2 * p) / q.den
  let r := isqrt n
  ⟨r, if r * r = n ∧ n * q.den = q.num.natAbs * 2 ^ (2 * p) then r else r + 1⟩

/-- Adds the terms of a power series: t is the current term, step makes the next one, n counts the terms left. -/
def seriesFrom (step : Nat → Ival → Ival) (sum t : Ival) (i : Nat) : Nat → Ival
  | 0 => sum.widen (2 * (t.lo.natAbs + t.hi.natAbs + 1))
  | fuel + 1 =>
    let s := sum.add t
    if t.lo.natAbs ≤ 2 ∧ t.hi.natAbs ≤ 2 then s.widen 8 else seriesFrom step s (step i t) (i + 1) fuel

/-- e^y for |y| ≤ 1/2 by its series; the terms left out are below the last one kept. -/
def expSmall (p : Nat) (y : Ival) : Ival :=
  seriesFrom (fun i t => (t.mul p y).divNat (i + 1)) ⟨0, 0⟩ ⟨2 ^ p, 2 ^ p⟩ 0 (p + 8)

/-- Squares k times. -/
def squareTimes (p : Nat) (a : Ival) : Nat → Ival
  | 0 => a
  | k + 1 => squareTimes p (a.mul p a) k

/-- e^x for |x| ≤ 2^10. -/
def expIval (p : Nat) (x : Q) : Ival :=
  let k := 12
  squareTimes p (expSmall p (Ival.ofQ p ⟨x.num, x.den * 2 ^ k⟩)) k

/-- atanh t = t + t³/3 + …, for |t| ≤ 1/2. -/
def atanhIval (p : Nat) (t : Ival) : Ival :=
  let t2 := t.mul p t
  (go t2 ⟨0, 0⟩ t 0 (p + 8))
where
  /-- The sum of the terms from the i-th on; `pw` is t^(2i+1). -/
  go (t2 sum pw : Ival) (i : Nat) : Nat → Ival
    | 0 => sum.widen (2 ^ p)
    | fuel + 1 =>
      let s := sum.add (pw.divNat (2 * i + 1))
      if pw.lo.natAbs ≤ 2 ∧ pw.hi.natAbs ≤ 2 then s.widen 8 else go t2 s (pw.mul p t2) (i + 1) fuel

/-- ln x = E ln 3 + 2 atanh((m − 1)/(m + 1)), with x = m × 3^E and m in [0.5, 1.5). -/
def logIval (p : Nat) (x : Q) : Ival :=
  let e := x.expo
  let m := x.scale3 (-e)
  let ln3 := (atanhIval p (Ival.ofQ p ⟨1, 2⟩)).scale 2
  ((atanhIval p (Ival.ofQ p ⟨m.num - m.den, (m.num + m.den).natAbs⟩)).scale 2).add (ln3.scale e)

/-- atan(1/k) by its series. -/
def atanInv (p k : Nat) : Ival :=
  go ⟨0, 0⟩ (Ival.ofQ p ⟨1, k⟩) 0 (p + 8)
where
  /-- The sum of the terms from the i-th on; `pw` is k^−(2i+1). -/
  go (sum pw : Ival) (i : Nat) : Nat → Ival
    | 0 => sum.widen (2 ^ p)
    | fuel + 1 =>
      let t := pw.divNat (2 * i + 1)
      let s := if i % 2 = 0 then sum.add t else sum.sub t
      if pw.hi.natAbs ≤ 2 then s.widen 8 else go s (pw.divNat (k * k)) (i + 1) fuel

/-- π = 16 atan(1/5) − 4 atan(1/239). -/
def piIval (p : Nat) : Ival := ((atanInv p 5).scale 16).sub ((atanInv p 239).scale 4)

/-- The alternating series of sin (odd) or cos (even) for |r| ≤ 1. -/
def sinCosSmall (p : Nat) (r : Ival) (odd : Bool) : Ival :=
  let r2 := (r.mul p r).neg
  let base := if odd then 1 else 0
  seriesFrom (fun i t => (t.mul p r2).divNat ((2 * i + 1 + base) * (2 * i + 2 + base))) ⟨0, 0⟩
    (if odd then r else ⟨2 ^ p, 2 ^ p⟩) 0 (p + 8)

/-- sin x or cos x of any magnitude, reduced exactly against π (R258). -/
def sinCosIval (p : Nat) (x : Q) (sine : Bool) : Ival :=
  let p2 := p + (2 * tlen x.num)                       -- guard bits for the reduction
  let half := (piIval p2).divNat 2
  let xi := Ival.ofQ p2 x
  let k := (2 * xi.lo + half.lo) / (2 * half.lo)        -- the nearest multiple of π/2
  let r := xi.sub (half.scale k)
  let q := (k + if sine then 0 else 1) % 4
  let v := sinCosSmall p2 r (q % 2 == 0)
  let v := if q ≥ 2 then v.neg else v
  ⟨v.lo / ((2 ^ (p2 - p) : Nat) : Int), -((-v.hi) / ((2 ^ (p2 - p) : Nat) : Int))⟩

/-- The interval of a function's value at a finite operand where it is neither special nor out of range. -/
def sfuIval (fn : SfuFn) (p : Nat) (x : Q) : Ival :=
  match fn with
  | .rcp => Ival.ofQ p (if x.num < 0 then ⟨-x.den, x.num.natAbs⟩ else ⟨x.den, x.num.natAbs⟩)
  | .sqrt => sqrtIval p x
  | .rsq => sqrtIval p ⟨x.den, x.num.natAbs⟩
  | .exp => expIval p x
  | .log => logIval p x
  | .sin => sinCosIval p x true
  | .cos => sinCosIval p x false
  | .tanh =>
    let e := expIval p ⟨2 * x.num, x.den⟩
    let one : Ival := ⟨2 ^ p, 2 ^ p⟩
    Ival.div p (e.sub one) (e.add one)
  | .sigm =>
    let e := expIval p x
    Ival.div p e (e.add ⟨2 ^ p, 2 ^ p⟩)

/-- Rounds the value once both ends of its interval round alike, doubling the precision until they do (R30).
R259 shows that no value is a midpoint, so enough precision always decides; past the bound the value is left open. -/
def sfuRound (f : FFmt) (s : Bool) (fn : SfuFn) (x : Q) (p : Nat) : Nat → Int
  | 0 => Config.sfuOpen f.P x.num x.den
  | fuel + 1 =>
    let v := sfuIval fn p x
    let a := f.round s .bin ⟨v.lo, 2 ^ p⟩
    let b := f.round s .bin ⟨v.hi, 2 ^ p⟩
    if a = b then a else sfuRound f s fn x (2 * p) fuel

/-- The exact value where it is rational: RCP, and SQRT and RSQ of squares. -/
def sfuExact (fn : SfuFn) (x : Q) : Option Q :=
  match fn with
  | .rcp => some (if x.num < 0 then ⟨-x.den, x.num.natAbs⟩ else ⟨x.den, x.num.natAbs⟩)
  | .sqrt | .rsq =>
    let n := x.num.natAbs * x.den                      -- x = n / den²
    let r := isqrt n
    if r * r = n then some (if fn = .sqrt then ⟨r, x.den⟩ else ⟨x.den, r⟩) else none
  | _ => none

/-- The result of a special function on an encoding (R258, R259). -/
def sfu (f : FFmt) (s : Bool) (fn : SfuFn) (x : Int) : Int :=
  let one := f.round false .tern (.ofInt 1)
  let big : Q := Q.tern 1 (2 * f.emax)                   -- beyond the largest finite value
  match f.decode x with
  | .nan => f.cnan
  | .inf neg =>
    match fn with
    | .rcp => 0
    | .rsq => if neg then f.cnan else 0
    | .sqrt => if neg then f.cnan else f.cinf false
    | .exp => if neg then 0 else f.cinf false
    | .log => if neg then f.cnan else f.cinf false
    | .sin | .cos => f.cnan
    | .tanh => if neg then f.round false .tern (.ofInt (-1)) else one
    | .sigm => if neg then 0 else one
  | .fin q =>
    if q.num = 0 then
      match fn with
      | .rcp | .rsq => f.cnan
      | .sqrt | .sin | .tanh => 0
      | .exp | .cos => one
      | .log => f.cinf true
      | .sigm => f.round false .bin ⟨1, 2⟩
    else if q.num < 0 ∧ (fn = .rsq ∨ fn = .sqrt ∨ fn = .log) then f.cnan
    else if fn = .log ∧ q.num = (q.den : Int) then 0       -- ln 1 = 0
    else match sfuExact fn q with
      | some v => f.round s .bin v
      | none =>
        -- outside ±600 the exponential is beyond the range on one side and rounds to 0, 1 or −1 on the other
        if (fn = .exp ∨ fn = .tanh ∨ fn = .sigm) ∧ (Q.ofInt 600).lt q.abs then
          let neg := q.num < 0
          match fn with
          | .exp => if neg then 0 else f.round s .tern big
          | .tanh => if neg then f.round false .tern (.ofInt (-1)) else one
          | _ => if neg then 0 else one
        else sfuRound f s fn q 1024 8

end Sys2Proof
end

