-- ==== Sys2Proof/Machine/FloatOps.lean ====
section
/-! DEFINITION. The float and special-function instructions (R249–R261). -/

namespace Sys2Proof.Machine

/-- The value of an element of a float type. -/
def fval (et : ETy) (x : Int) : FVal := (fmtOf et).decode x

/-- Delivers a result in the instruction's format with its SAT (R251, R252). -/
def fput (o : Opnd) (v : FVal) : Int := (fmtOf o.et).deliver o.sat .tern v

/-- One element function of A's value. -/
def flt1 (o : Opnd) (f : FVal → FVal) : Body := elem1 o (fun a => fput o (f (fval o.et a)))

/-- One element function of the values of A and the second operand, with no immediate form (R249). -/
def flt2 (o : Opnd) (f : FVal → FVal → FVal) : Body :=
  wordBody o (fun s x k => mapElems o.et (fun l => fput o (f (fval o.et (l.getD 0 0)) (fval o.et (l.getD 1 0))))
    [x.srcA s o k, x.srcB s o false k])

/-- One element function of the values of A, B and the register C. -/
def flt3 (o : Opnd) (f : FVal → FVal → FVal → FVal) : Body :=
  elem3 o (fun a b m => fput o (f (fval o.et a) (fval o.et b) (fval o.et m)))

/-- FADD. -/
def bodyFadd (o : Opnd) : Body := flt2 o FVal.add
/-- FADD: its execution. -/
def execFadd (o : Opnd) (s : State) := perform (.fadd o) o (plain true) (bodyFadd o) s
/-- FSUB. -/
def bodyFsub (o : Opnd) : Body := flt2 o (fun a b => a.add b.neg)
/-- FSUB: its execution. -/
def execFsub (o : Opnd) (s : State) := perform (.fsub o) o (plain true) (bodyFsub o) s
/-- FMUL. -/
def bodyFmul (o : Opnd) : Body := flt2 o FVal.mul
/-- FMUL: its execution. -/
def execFmul (o : Opnd) (s : State) := perform (.fmul o) o (plain true) (bodyFmul o) s
/-- FFMA: the product is not rounded (R252). -/
def execFfma (o : Opnd) (s : State) := perform (.ffma o) o (ternary true) (flt3 o (fun a b m => (a.mul b).add m)) s
/-- FADD3. -/
def execFadd3 (o : Opnd) (s : State) := perform (.fadd3 o) o (ternary true) (flt3 o (fun a b m => FVal.sum [a, b, m])) s

/-- The rules of FDOT3's fields (R253). -/
def fdot3Form (o : Opnd) : Form :=
  { ternary true with c := if o.f == 0 then .z else .r,
                      moreV := if o.et == .tf27 then [o.a + 1, o.a + 2, o.b + 1, o.b + 2] else [],
                      moreK := [o.a + 1, o.a + 2, o.b + 1, o.b + 2],
                      extra := o.et != .stf27 || (o.a ≤ -43 && o.b ≤ -43) }
/-- The three products of FDOT3 (R253). -/
def fdotTerms (s : State) (x : Exec) (o : Opnd) (k : Nat) : List FVal :=
  (List.range 3).map (fun (i : Nat) =>
    if o.et = .tf9 then
      (tf9F.decode (sub9 (x.src s o o.ma o.a k).val i)).mul (tf9F.decode (sub9 (x.src s o o.mb o.b k).val i))
    else (tf27F.decode (x.src s o o.ma (o.a + (i : Int)) k).val).mul (tf27F.decode (x.src s o o.mb (o.b + (i : Int)) k).val))
/-- FDOT3. -/
def execFdot3 (o : Opnd) (s : State) :=
  perform (.fdot3 o) o (fdot3Form o) (wordBody o (fun s x k =>
    let acc := if o.f = 1 then [tf27F.decode (x.srcC s o k).val] else []
    .ofInt (tf27F.deliver o.sat .tern (FVal.sum (fdotTerms s x o k ++ acc))))) s

/-- FMIN. -/
def bodyFmin (o : Opnd) : Body := flt2 o FVal.min
/-- FMIN: its execution. -/
def execFmin (o : Opnd) (s : State) := perform (.fmin o) o (plain false) (bodyFmin o) s
/-- FMAX. -/
def bodyFmax (o : Opnd) : Body := flt2 o FVal.max
/-- FMAX: its execution. -/
def execFmax (o : Opnd) (s : State) := perform (.fmax o) o (plain false) (bodyFmax o) s
/-- FABS. -/
def bodyFabs (o : Opnd) : Body := flt1 o FVal.abs
/-- FABS: its execution. -/
def execFabs (o : Opnd) (s : State) := perform (.fabs o) o unary (bodyFabs o) s

/-- The rules of FCMP's fields (R255). -/
def fcmpForm (o : Opnd) : Form := { plain false with d := .p, extra := subX o }
/-- FCMP. -/
def bodyFcmp (o : Opnd) : Body := 
  tritBody o (fun s x =>
    fcmpTrit o.f (fval o.et (cmpElem o (x.srcA s o 0))) (fval o.et (cmpElem o (x.srcB s o false 0))))
/-- FCMP: its execution. -/
def execFcmp (o : Opnd) (s : State) := perform (.fcmp o) o (fcmpForm o) (bodyFcmp o) s
/-- FCLASS. -/
def execFclass (o : Opnd) (s : State) := perform (.fclass o) o unary (elem1 o (classCode (fmtOf o.et))) s

/-- A shift count limited to ±900: beyond it every value overflows or vanishes alike (R257, R271). -/
def clampScale (k : Int) : Int := max (-900) (min 900 k)
/-- FSCL (R257). -/
def execFscl (o : Opnd) (s : State) :=
  perform (.fscl o) o (binary true o) (elem2 o (fun a k => fput o ((fval o.et a).scale3 (clampScale k)))) s

/-- FXP.EXP and FXP.SIG on an element (R257). -/
def fxpOf (o : Opnd) (a : Int) : Int :=
  let n := if o.et = .tf9 then 9 else 27
  match fval o.et a with
  | .fin q =>
    if q.num = 0 then (if o.f = 0 then -(maxv n) else 0)
    else if o.f = 0 then q.expo else fput o (.fin (q.scale3 (-q.expo)))
  | v => if o.f = 0 then maxv n else fput o v
/-- FXP. -/
def execFxp (o : Opnd) (s : State) := perform (.fxp o) o unary (elem1 o (fxpOf o)) s

/-- FRND's integer (R257). -/
def frndOf (f : Int) (v : FVal) : FVal :=
  match v with
  | .fin q => .fin (.ofInt (if f = 0 then roundInt .tern q else if f = 1 then -(q.neg.floor) else q.floor))
  | v => v
/-- FRND. -/
def execFrnd (o : Opnd) (s : State) := perform (.frnd o) o unary (flt1 o (frndOf o.f)) s

/-! ### The special-function unit (R258–R261) -/

/-- Entries of a core's result queue in use (R260). -/
def State.sfuUsed (s : State) (core : Nat) : Nat :=
  ((s.teams.filter (fun t => t.core == core)).map (fun t => (t.body.squads.map (fun q => q.sfuq.length)).sum)).sum

/-- Adds an entry to a squad's queue; a later step lands it (R260). -/
def State.queueSfu (s : State) (n q : Nat) (e : SfuEntry) : State :=
  (s.modSquad n q (fun x => { x with sfuq := x.sfuq ++ [e] })).later [.sfuResultLands n q]

/-- The body of a special function: one queue entry for each squad and block step; it waits while no entry is free (R260). -/
def sfuBody (o : Opnd) (fn : SfuFn) : Body := fun s xs =>
  let val := fun (x : Exec) (k : Nat) =>
    mapElems o.et (fun l => sfu (fmtOf o.et) o.sat fn (l.getD 0 0)) [x.srcA s o k]
  let squads := distinct (xs.map (fun x => (x.t.team, x.t.squad)))
  match xs with
  | [] => Eff.of s
  | x0 :: _ =>
    if 81 ≤ s.sfuUsed (s.coreOf x0.t.team) then { Eff.of s with stay := xs }
    else if x0.mode = .vec then
      let open_ := fun (st : State) (k : Nat) (x : Exec) => st.modThread x.t (fun th =>
        { th with wins := th.wins ++ [{ reg := Exec.num o.d + k, val := val x k, left := o.la, arrived := false, src := .sfu }] })
      Eff.of ((blockSteps o).foldl (fun st k =>
        squads.foldl (fun st q => st.queueSfu q.1 q.2
          { reg := Exec.num o.d + k, k := none,
            lanes := (xs.filter (fun x => (x.t.team, x.t.squad) == q)).map (·.t.lane) }) (xs.foldl (fun st x => open_ st k x) st)) s)
    else
      Eff.of (xs.foldl (fun st x => st.queueSfu x.t.team x.t.squad
        { reg := Exec.num o.d, lanes := [], k := some (x.mode == .han, val x 0) }) s)

/-- The rules of a special function's fields (R258). -/
def sfuForm : Form := { unary with sat := true, la := true }
/-- RCP. -/
def bodyRcp (o : Opnd) : Body := sfuBody o .rcp
/-- RCP: its execution. -/
def execRcp (o : Opnd) (s : State) := perform (.rcp o) o sfuForm (bodyRcp o) s
/-- RSQ. -/
def bodyRsq (o : Opnd) : Body := sfuBody o .rsq
/-- RSQ: its execution. -/
def execRsq (o : Opnd) (s : State) := perform (.rsq o) o sfuForm (bodyRsq o) s
/-- SQRT. -/
def bodySqrt (o : Opnd) : Body := sfuBody o .sqrt
/-- SQRT: its execution. -/
def execSqrt (o : Opnd) (s : State) := perform (.sqrt o) o sfuForm (bodySqrt o) s
/-- EXP. -/
def bodyExp (o : Opnd) : Body := sfuBody o .exp
/-- EXP: its execution. -/
def execExp (o : Opnd) (s : State) := perform (.exp o) o sfuForm (bodyExp o) s
/-- LOG. -/
def bodyLog (o : Opnd) : Body := sfuBody o .log
/-- LOG: its execution. -/
def execLog (o : Opnd) (s : State) := perform (.log o) o sfuForm (bodyLog o) s
/-- SIN. -/
def bodySin (o : Opnd) : Body := sfuBody o .sin
/-- SIN: its execution. -/
def execSin (o : Opnd) (s : State) := perform (.sin o) o sfuForm (bodySin o) s
/-- COS. -/
def bodyCos (o : Opnd) : Body := sfuBody o .cos
/-- COS: its execution. -/
def execCos (o : Opnd) (s : State) := perform (.cos o) o sfuForm (bodyCos o) s
/-- TANH. -/
def bodyTanh (o : Opnd) : Body := sfuBody o .tanh
/-- TANH: its execution. -/
def execTanh (o : Opnd) (s : State) := perform (.tanh o) o sfuForm (bodyTanh o) s
/-- SIGM. -/
def bodySigm (o : Opnd) : Body := sfuBody o .sigm
/-- SIGM: its execution. -/
def execSigm (o : Opnd) (s : State) := perform (.sigm o) o sfuForm (bodySigm o) s

/-- SFU_RESULT_LANDS: the oldest queued result of a squad lands (R260, R261). -/
def execSfuResultLands (team squad : Nat) (s : State) : Host.Outcome State Fault Refusal :=
  match (s.squad? team squad).bind (fun q => q.sfuq.head?) with
  | none => .next s
  | some e =>
    let s := s.modSquad team squad (fun q => { q with sfuq := q.sfuq.drop 1 })
    match e.k with
    | some (bank, w) => .next (s.setK team squad bank e.reg w)
    | none => .next (e.lanes.foldl (fun s l => s.arrive ⟨team, squad, l⟩ e.reg .sfu none) s)

/-- LOAD_DATA_RETURN: load data arrives, and is written at the end of its window (R165). -/
def execLoadDataReturn (t : TRef) (reg : Nat) (s : State) : Host.Outcome State Fault Refusal := .next (s.arrive t reg .load none)

end Sys2Proof.Machine
end

