-- ==== Sys2Proof/Machine/Foreign.lean ====
section
/-! DEFINITION. The foreign binary formats and their conversions (R35–R40). -/

namespace Sys2Proof

/-- The foreign formats (R35). -/
inductive Foreign where
  | fp32 | fp16 | bf16 | e4m3 | e5m2 | i8 | u8 | i32
deriving DecidableEq, Repr

/-- The format of a format code of R262. -/
def Foreign.ofCode (c : Int) : Option Foreign :=
  if c = -4 then some .fp32 else if c = -3 then some .fp16 else if c = -2 then some .bf16 else if c = -1 then some .e4m3
  else if c = 1 then some .e5m2 else if c = 2 then some .i8 else if c = 3 then some .u8 else if c = 4 then some .i32 else none

/-- The format of CTL.BFMT (R126). -/
def Foreign.ofBfmt (c : Int) : Option Foreign :=
  if c = 0 then some .fp32 else if c = 1 then some .fp16 else if c = 2 then some .bf16 else if c = 3 then some .e4m3
  else if c = 4 then some .e5m2 else if c = 5 then some .i8 else if c = 6 then some .u8 else if c = 7 then some .i32 else none

/-- The width w in bits (R35). -/
def Foreign.width : Foreign → Nat
  | .fp32 | .i32 => 32
  | .fp16 | .bf16 => 16
  | _ => 8

def Foreign.isFloat : Foreign → Bool
  | .i8 | .u8 | .i32 => false
  | _ => true

/-- Fraction bits (R35). -/
def Foreign.fb : Foreign → Nat
  | .fp32 => 23 | .fp16 => 10 | .bf16 => 7 | .e4m3 => 3 | .e5m2 => 2 | _ => 0
/-- Exponent bias (R35). -/
def Foreign.bias : Foreign → Nat
  | .fp32 => 127 | .fp16 => 15 | .bf16 => 127 | .e4m3 => 7 | .e5m2 => 15 | _ => 0
/-- The pattern of the largest finite magnitude (R35). -/
def Foreign.maxFinite : Foreign → Nat
  | .fp32 => 0x7F7FFFFF | .fp16 => 0x7BFF | .bf16 => 0x7F7F | .e4m3 => 0x7E | .e5m2 => 0x7B
  | .i8 => 127 | .u8 => 255 | .i32 => 2147483647
/-- The canonical NaN with sign 0 (R35). -/
def Foreign.cnan : Foreign → Nat
  | .fp32 => 0x7FC00000 | .fp16 => 0x7E00 | .bf16 => 0x7FC0 | .e4m3 => 0x7F | .e5m2 => 0x7E | _ => 0
/-- The infinity with sign 0, where the format has one (R35). -/
def Foreign.cinf : Foreign → Option Nat
  | .fp32 => some 0x7F800000 | .fp16 => some 0x7C00 | .bf16 => some 0x7F80 | .e5m2 => some 0x7C | _ => none

/-- The sign bit's weight. -/
def Foreign.signBit (f : Foreign) : Nat := 2 ^ (f.width - 1)

/-- A source value with the sign that a binary pattern carries: the value, and whether its sign bit is set. -/
structure BVal where
  v : FVal
  neg : Bool
deriving DecidableEq, Repr

/-- m × 2^e. -/
def Q.bin (m e : Int) : Q :=
  if 0 ≤ e then ⟨m * ((2 ^ e.toNat : Nat) : Int), 1⟩ else ⟨m, 2 ^ (-e).toNat⟩

/-- The value of a pattern, held as its residue modulo 2^w (R35). -/
def Foreign.decode (f : Foreign) (word : Int) : BVal :=
  let p := (word % ((2 ^ f.width : Nat) : Int)).toNat
  match f with
  | .u8 => ⟨.fin (.ofInt p), false⟩
  | .i8 | .i32 =>
    let x : Int := if p ≥ f.signBit then (p : Int) - 2 * f.signBit else p
    ⟨.fin (.ofInt x), x < 0⟩
  | _ =>
    let neg := p ≥ f.signBit
    let mag := p % f.signBit
    if f.cinf = some mag then ⟨.inf neg, neg⟩
    else if mag > f.maxFinite then ⟨.nan, neg⟩
    else
      let e := mag / 2 ^ f.fb
      let frac := mag % 2 ^ f.fb
      let m : Int := if e = 0 then frac else frac + 2 ^ f.fb
      let ex : Int := (if e = 0 then 1 else (e : Int)) - f.bias - f.fb
      ⟨.fin (Q.bin (if neg then -m else m) ex), neg⟩

/-- A ternary value as a source: a zero and a NaN carry sign 0 (R38). -/
def BVal.ofTern (v : FVal) : BVal := ⟨v, v.sign < 0⟩

/-- The greatest e with 2^e ≤ x, for x > 0. -/
def Q.log2 (x : Q) : Int :=
  let g : Int := (Nat.log2 x.num.natAbs : Int) - Nat.log2 x.den
  if (Q.bin 1 g).lt x || (Q.bin 1 g).eq x then g else g - 1

/-- Rounds a magnitude to a magnitude pattern with an unbounded exponent above and gradual underflow below (R36, R38). -/
def Foreign.roundMag (f : Foreign) (mode : RMode) (a : Q) : Nat :=
  let emin : Int := 1 - (f.bias : Int)
  let e := max a.log2 emin
  let unit := e - f.fb
  let k := (Q.mul a (Q.bin 1 (-unit))).floor
  let lo := Q.bin k unit
  let hi := Q.bin (k + 1) unit
  let base : Int := (e - emin) * ((2 ^ f.fb : Nat) : Int)
  let r := if lo.eq a then k
    else if pickHi mode a lo hi (k % 2 == 0) ((k + 1) % 2 == 0) then k + 1 else k
  (base + r).toNat

/-- Rounds a magnitude to an integer with the ties of R36 in binary: the even neighbour. -/
def roundIntBin (mode : RMode) (x : Q) : Int :=
  let a := x.abs
  let lo := a.floor
  let r := if (Q.ofInt lo).eq a then lo
    else if pickHi mode a (.ofInt lo) (.ofInt (lo + 1)) (lo % 2 == 0) ((lo + 1) % 2 == 0)
      then lo + 1 else lo
  if x.num < 0 then -r else r

/-- The pattern of a value in a foreign format (R36, R38, R39). DESIGN CHOICE, log entry 39: a finite value of negative sign that
underflows to zero gives the zero of its sign, for a ternary source too, as R39 says of e5m2 sources. -/
def Foreign.encode (f : Foreign) (s : Bool) (mode : RMode) (b : BVal) : Int :=
  if f.isFloat then
    let sg : Nat := if b.neg then f.signBit else 0
    let excess : Nat := if s then f.maxFinite else (f.cinf.getD f.cnan)
    match b.v with
    | .nan => (sg + f.cnan : Nat)
    | .inf _ => (sg + excess : Nat)
    | .fin q =>
      if q.num = 0 then sg else
      let m := f.roundMag mode q.abs
      (sg + (if m > f.maxFinite then excess else m) : Nat)
  else
    let lo : Int := match f with | .u8 => 0 | _ => -(f.signBit : Int)
    let hi : Int := f.maxFinite
    let x := match b.v with
      | .nan => 0
      | .inf n => if n then lo else hi
      | .fin q => max lo (min hi (roundIntBin mode q))
    x % ((2 ^ f.width : Nat) : Int)

end Sys2Proof
end

