-- ==== Sys2Proof/Machine/ConvOps.lean ====
section
/-! DEFINITION. Conversions, quantisation and random words (R262–R272). -/

namespace Sys2Proof.Machine

/-! ### Elements over registers (R263–R265) -/

/-- Element j of the source side: c elements to a word, from the register named on. -/
def Exec.elemOf (s : State) (x : Exec) (v : Int) (k : Nat) (et : ETy) (c j : Nat) : Int :=
  elemAt et (x.reg s (v + (j / c : Nat)) k).val (j % c)

/-- The rounding of element j (R265). -/
def convMode (s : State) (x : Exec) (o : Opnd) (k j : Nat) (plainMode : RMode) : RMode :=
  if trit o.f 1 = 1 then .stoch (x.reg s (o.c + (j : Int)) k).val else plainMode

/-- The destination words of N converted elements, c to a word (R263). -/
def destWords (et : ETy) (c : Nat) (l : List Int) : List Word := (groupsOf c 27 l).map (fun g => ofElems et g)

/-- A body that converts N elements one by one. -/
def convBody (o : Opnd) (cs cd : Nat) (dst : ETy) (f : State → Exec → Nat → Nat → Int) : Body :=
  wordsBody o (fun s x k => destWords dst cd ((List.range (max cs cd)).map (fun j => f s x k j)))

/-- Delivers a value in a ternary type (R267). -/
def ternTo (dst : ETy) (sat : Bool) (mode : RMode) (v : FVal) : Int :=
  if isFloat dst then (fmtOf dst).deliver sat mode v else deliverInt dst.width sat mode v

/-- The value of an element of any ternary type. -/
def ternVal (et : ETy) (x : Int) : FVal := if isFloat et then (fmtOf et).decode x else .fin (.ofInt x)

/-! ### CVT, CVTF, CVTB (R266, R267) -/

/-- CVT's target type (R266). -/
def cvtTarget (x : Int) : ETy := if x = 0 then .t27 else if x = 1 then .tf27 else if x = -1 then .t9 else .tf9
/-- The rules of CVT's fields. -/
def cvtForm (o : Opnd) : Form :=
  convert o (o.et.per) (cvtPer o.x) (!((o.et == .t9 && o.x == -1) || ((o.et == .t27 || o.et == .st27) && o.x == 0)))
/-- CVT on one element (R267): tf9 to tf27 keeps the prefix of a NaN (R34). -/
def cvtElem (o : Opnd) (mode : RMode) (x : Int) : Int :=
  if o.et = .tf9 ∧ cvtTarget o.x = .tf27 then widen9 x else ternTo (cvtTarget o.x) o.sat mode (ternVal o.et x)
/-- CVT. -/
def execCvt (o : Opnd) (s : State) :=
  perform (.cvt o) o (cvtForm o) (convBody o o.et.per (cvtPer o.x) (cvtTarget o.x)
    (fun s x k j => cvtElem o (convMode s x o k j .tern) (x.elemOf s o.a k o.et o.et.per j))) s

/-- The rules of CVTB's fields. -/
def cvtbForm (o : Opnd) : Form :=
  { convert o (if trit o.f 0 = 1 then 1 else o.et.per) 1
      (trit o.f 0 != 1 || (o.et == .t27 && o.b != 0 && o.b != o.x && -4 ≤ o.b && o.b ≤ 4)) with
    b := if trit o.f 0 = 1 then .i else .z }
/-- CVTB on one element: a ternary value or a pattern of the format B (R38, R39). -/
def cvtbElem (o : Opnd) (mode : RMode) (x : Int) : Int :=
  match Foreign.ofCode o.x with
  | none => 0
  | some f =>
    if trit o.f 0 = 1 then
      match Foreign.ofCode o.b with
      | some g => f.encode o.sat mode (g.decode x)
      | none => 0
    else f.encode o.sat mode (BVal.ofTern (ternVal o.et x))
/-- CVTB. -/
def execCvtb (o : Opnd) (s : State) :=
  let cs := if trit o.f 0 = 1 then 1 else o.et.per
  perform (.cvtb o) o (cvtbForm o) (convBody o cs 1 .t27
    (fun s x k j => cvtbElem o (convMode s x o k j .bin) (x.elemOf s o.a k o.et cs j))) s

/-- CVTF on one pattern (R37, R39). -/
def cvtfElem (o : Opnd) (mode : RMode) (x : Int) : Int :=
  match Foreign.ofCode o.x with
  | none => 0
  | some f => ternTo o.et o.sat mode (f.decode x).v
/-- CVTF. -/
def execCvtf (o : Opnd) (s : State) :=
  perform (.cvtf o) o (convert o 1 o.et.per true) (convBody o 1 o.et.per o.et
    (fun s x k j => cvtfElem o (convMode s x o k j .bin) (x.elemOf s o.a k .t27 1 j))) s

/-! ### QUANT (R42–R44, R268–R270) -/

/-- The rules of QUANT's fields (R268). -/
def quantForm (o : Opnd) : Form :=
  let cs := if trit o.f 0 = 1 then 3 else 1
  let cd := if o.x == 0 then o.et.per else 1
  { convert o cs cd ((o.x == 0 || o.et == .t27) && (o.et != .t1 || trit o.f 0 = 1)) with
    b := .v, sat := false, ext := false, moreV := (convert o cs cd true).moreV ++ [o.b + 1] }

/-- The target's top T (R43). -/
def quantTop (o : Opnd) : Q :=
  if o.x = 0 then (if isFloat o.et then (fmtOf o.et).topQ else .ofInt (maxv o.et.width))
  else match Foreign.ofCode o.x with
    | some f => (match (f.decode (f.maxFinite : Int)).v with | .fin q => q | _ => .ofInt 0)
    | none => .ofInt 0

/-- An element's value beyond ±T; an infinity is (R43; log entry 17). -/
def quantOver (top : Q) (v : FVal) : Bool :=
  match v with
  | .fin q => top.lt q.abs
  | .inf _ => true
  | .nan => false

/-- Converts a scaled value with T as a hard limit (R43). -/
def quantPut (o : Opnd) (mode : RMode) (v : FVal) : Int :=
  let top := quantTop o
  let v := if quantOver top v then .fin (if v.sign < 0 then top.neg else top) else v
  if o.x = 0 then ternTo o.et true mode v
  else match Foreign.ofCode o.x with
    | some f => f.encode true mode (BVal.ofTern v)
    | none => 0

/-- A delivered element is zero or subnormal (R43). -/
def quantTiny (o : Opnd) (x : Int) : Bool :=
  if o.x = 0 then
    if isFloat o.et then
      match (fmtOf o.et).classify x with
      | .canonZero | .otherZero | .subnormal _ => true
      | _ => false
    else x == 0
  else match Foreign.ofCode o.x with
    | some f => if f.isFloat then x % (f.signBit : Int) < 2 ^ f.fb else x == 0
    | none => false

/-- What one contribution puts into the record (R43): the generation, the largest magnitude, and for a shift s the numbers of
elements given ±T or NaN, and of non-zero elements that became zero or subnormal. -/
structure Contribution where
  gen : Int
  amax : FVal
  counts : Int → Nat × Nat

/-- The largest s with H × 3^(s + margin) ≤ T, for H > 0 (R43). -/
def shiftFor (h top : Q) (margin : Int) : Int :=
  -- 3^t ≤ T / H exactly when H × 3^t ≤ T
  let r : Q := ⟨top.num * h.den, top.den * h.num.toNat⟩
  let e := r.expo
  (if (h.scale3 e).num * top.den ≤ top.num * (h.scale3 e).den then e else e - 1) - margin

/-- The record after a contribution, and whether EXC left 0 (R43, R44). -/
def quantUpdate (o : Opnd) (c : Contribution) (l : List Word) : List Word × Bool :=
  let gen := intAt l 13
  if c.gen < gen then (l, false)
  else
    let top := quantTop o
    let l := if gen < c.gen then
        let h := (l.take 9).map (fun w => tf27F.decode w.val)
        let hs := (tf27F.decode (intAt l 9)) :: h.take 8
        let best := hs.foldl FVal.max (.fin (.ofInt 0))
        let margin := max 0 (min 9 (field (intAt l 10) 17 9))
        let shift := match best with
          | .fin q => if 0 < q.num then shiftFor q top margin else field (intAt l 10) 8 0
          | _ => field (intAt l 10) 8 0
        let l := [wordAt l 9] ++ l.take 8 ++ [Word.zero] ++ l.drop 10
        let w := setField (setField (intAt l 10) 18 18 0) 8 0 shift
        setNth (setNth l 10 (.ofInt w)) 13 (.ofInt c.gen)
      else l
    let s := field (intAt l 10) 8 0
    let cur := FVal.max (tf27F.decode (intAt l 9)) c.amax
    let l := setNth l 9 (.ofInt (tf27F.deliver false .tern cur))
    let exc := trit (intAt l 10) 18
    let (nsat, nufl) := c.counts s
    let small := match c.amax with
      | .fin q => 0 < q.num && (q.scale3 (s + 9)).lt top
      | _ => false
    if 0 < nsat then
      (setNth (setNth l 10 (.ofInt (setField (intAt l 10) 18 18 1))) 11 (.ofInt (intAt l 11 + nsat)), exc == 0)
    else if small then
      let l := if exc = 0 then setNth l 10 (.ofInt (setField (intAt l 10) 18 18 (-1))) else l
      (setNth l 12 (.ofInt (intAt l 12 + nufl)), exc == 0)
    else (l, false)

/-- The source elements of a lane (R263, R268). -/
def quantElems (s : State) (x : Exec) (o : Opnd) : List FVal :=
  let cs := if trit o.f 0 = 1 then 3 else 1
  let cd := if o.x = 0 then o.et.per else 1
  let et := if trit o.f 0 = 1 then ETy.tf9 else .tf27
  (List.range (max cs cd)).map (fun j => fval et (x.elemOf s o.a 0 et cs j))

/-- The contribution of the lanes of one pair (record, G) (R269). -/
def contribution (s : State) (o : Opnd) (gen : Int) (xs : List Exec) : Contribution :=
  let elems := (xs.map (fun x => ((quantElems s x o).zipIdx).map (fun p => (p.1, convMode s x o 0 p.2
    (if o.x = 0 then .tern else .bin))))).flatten
  { gen := gen
    amax := ((elems.map (·.1)).filter (fun v => !v.isNan)).foldl (fun m v => FVal.max m v.abs) (.fin (.ofInt 0))
    counts := fun shift =>
      let scaled := elems.map (fun p => (p.1.scale3 shift, p.2))
      ((scaled.filter (fun p => quantOver (quantTop o) p.1 || p.1.isNan)).length,
       (scaled.filter (fun p => !p.1.isZero && !p.1.isNan && quantTiny o (quantPut o p.2 p.1))).length) }

/-- Step 1 of R269 for one record, after those before it: alignment, range locks, translation, and a free and sound line. -/
def quantCheck (n : Nat) (st : State × Except Stop (List (Word × Xl))) (va : Word) : State × Except Stop (List (Word × Xl)) :=
  match st.2 with
  | .error e => (st.1, .error e)
  | .ok l =>
    if !va.lineAligned then (st.1, .error (.trap (alignTrap va)))
    else match st.1.checkLock n va true with
      | .error t => (st.1, .error (.trap t))
      | .ok _ => match st.1.translate (st.1.ctxOf n) va .readWrite false with
        | (s, .error e) => (s, .error e)
        | (s, .ok x) =>
          if s.busy x.slot then (s, .error .busy)
          else match s.homeRead x.slot x.pin with
            | none => (s, .error .busy)
            | some (s, line) => if line.poison then (s, .error (.trap (poisonTrap va))) else (s, .ok (l ++ [(va, x)]))

/-- The lanes `mine` of a pair of record and generation contribute `c` to the record, after the pairs before it: the state, the shift
of each lane, and the lanes that trap for the record's first excess (R44). -/
def quantStep (o : Opnd) (n : Nat) (xl : List (Word × Xl)) (mine : Word × Int → List Exec) (c : Word × Int → Contribution)
    (acc : State × List (Exec × Int) × List Exec) (p : Word × Int) : State × List (Exec × Int) × List Exec :=
  match assocGet xl p.1 with
  | none => acc
  | some x =>
    match acc.1.homeWrite x.slot (fun l => { l with w := (quantUpdate o (c p) l.w).1 }) (some (x.ce && acc.1.compress n)) x.pin with
    | none => acc
    | some (st, before, _) =>
      let (after, hit) := quantUpdate o (c p) before.w
      let shift := field (intAt after 10) 8 0
      let st := if hit then st.raise (st.teamEvent 14 n 1 p.1 0) else st
      let trp := hit && trit (st.cwInt 7304) 6 == 1
      (st, acc.2.1 ++ (mine p).map (fun x => (x, shift)), if trp then acc.2.2 ++ mine p else acc.2.2)

/-- The registers that each lane writes with its record's shift. -/
def quantWords (o : Opnd) (s : State) (shifts : List (Exec × Int)) : List (Exec × Int × Nat × Word) :=
  (shifts.map (fun p =>
    let x := p.1
    let vals := ((quantElems s x o).zipIdx).map (fun q =>
      quantPut o (convMode s x o 0 q.2 (if o.x = 0 then .tern else .bin)) (q.1.scale3 p.2))
    let cd := if o.x = 0 then o.et.per else 1
    ((destWords (if o.x = 0 then o.et else .t27) cd vals).zipIdx).map (fun q => (x, o.d + (q.2 : Int), 0, q.1)))).flatten

/-- The pair of record and generation that a lane names. -/
def quantKey (s : State) (o : Opnd) (x : Exec) : Word × Int := (x.reg s o.b 0, (x.reg s (o.b + 1) 0).val)

/-- The lanes of a pair. -/
def quantMine (s : State) (o : Opnd) (xs : List Exec) (p : Word × Int) : List Exec := xs.filter (fun x => quantKey s o x == p)

/-- QUANT: checks, record updates, conversions (R269). A failed check stops every present thread of the team. -/
def quantBody (o : Opnd) : Body := fun s xs =>
  let all := s.execs false
  let stop := fun (s : State) (k : Stop) => match k with
    | .trap t => ({ Eff.of s with traps := all.map (fun x => (x, t)) } : Eff)
    | .busy => { Eff.of s with stay := all }
    | .recov perm level va a => match all with
      | [] => Eff.of s
      | x :: _ => { Eff.of (s.park { x with ts := all.map (·.t) } (s.ctxOf x.t.team) perm level va a) with stay := all }
  match xs with
  | [] => Eff.of s
  | x0 :: _ =>
    let n := x0.t.team
    match (distinct (xs.map (fun x => x.reg s o.b 0))).foldl (quantCheck n) (s, .ok []) with
    | (s', .error e) => stop s' e
    | (s', .ok xl) =>
      let mine := quantMine s o xs
      let r := (distinct (xs.map (quantKey s o))).foldl (quantStep o n xl mine (fun p => contribution s o p.2 (mine p)))
        (s'.irrevocable n, [], [])
      { Eff.of (writeAll (quantWords o s r.2.1) r.1) with traps := r.2.2.map (fun x => (x, Trap.of 16 14 .zero)) }

/-- QUANT. -/
def execQuant (o : Opnd) (s : State) := perform (.quant o) o (quantForm o) (quantBody o) s

/-! ### DQUANT and DRAW (R271, R272) -/

/-- The rules of DQUANT's fields (R271). -/
def dquantForm (o : Opnd) : Form :=
  { convert o o.et.per (if o.x == 0 then 1 else 3) (o.et != .t1 || o.x == 1) with
    b := if o.f == 0 then .r else .z, c := if o.f == 0 then .z else .i, ma := true }
/-- DQUANT. -/
def execDquant (o : Opnd) (s : State) :=
  let dst := if o.x = 0 then ETy.tf27 else .tf9
  let cd := if o.x = 0 then 1 else 3
  perform (.dquant o) o (dquantForm o) (convBody o o.et.per cd dst (fun s x k j =>
    let sh := if o.f = 0 then (x.reg s o.b k).val else o.c
    let w := (x.src s o o.ma (o.a + ((j / o.et.per : Nat) : Int)) k).val
    (fmtOf dst).deliver o.sat .tern ((ternVal o.et (elemAt o.et w (j % o.et.per))).scale3 (clampScale (-sh))))) s

/-- DRAW's word (R272). -/
def drawOf (key : List Int) (b : Int) : Int :=
  (List.range 9).foldl (fun a (i : Nat) =>
    let a := wrap 27 (a * 1234567891 + key.getD (i % 5) 0 + (i : Int))
    let a := tsum 27 a (rotTrits 27 13 a)
    tsum 27 a (rotTrits 27 5 a)) b
/-- DRAW. -/
def execDraw (o : Opnd) (s : State) :=
  perform (.draw o) o { d := .v, a := .v, b := .v } (wordBody o (fun s x k =>
    let dim := fun (d : Int) => idxOf s x { o with f := 3, x := d }
    .ofInt (drawOf [(x.reg s o.a k).val, dim 0, dim 1, dim 2, x.t.num] (x.reg s o.b k).val))) s

end Sys2Proof.Machine
end

