-- ==== Sys2Proof/Machine/Sha.lean ====
section
/-! DEFINITION. SHA-256 (R451, R453) and SHA-512 of FIPS 180-4, and CRC-32 of IEEE 802.3 (R407). -/

namespace Sys2Proof.Machine

/-- What SHA-256 and SHA-512 of FIPS 180-4 differ in: the bits of a word, the rounds, and the rotations and shifts of the four
functions. -/
structure ShaPar where
  bits : Nat
  rounds : Nat
  big0 : List Nat
  big1 : List Nat
  small0 : List Nat
  small1 : List Nat
deriving DecidableEq, Repr

namespace ShaPar

/-- SHA-256. -/
def sha256 : ShaPar :=
  { bits := 32, rounds := 64, big0 := [2, 13, 22], big1 := [6, 11, 25], small0 := [7, 18, 3], small1 := [17, 19, 10] }
/-- SHA-512. -/
def sha512 : ShaPar :=
  { bits := 64, rounds := 80, big0 := [28, 34, 39], big1 := [14, 18, 41], small0 := [1, 8, 7], small1 := [19, 61, 6] }

/-- The sum modulo 2^32, or 2^64. -/
def add (p : ShaPar) (a b : Nat) : Nat := (a + b) % 2 ^ p.bits
/-- Rotation to the right by k. -/
def rotr (p : ShaPar) (a k : Nat) : Nat := (a >>> k) ||| ((a <<< (p.bits - k)) % 2 ^ p.bits)
/-- Three rotations. -/
def mixed (p : ShaPar) (l : List Nat) (a : Nat) : Nat := (l.map (p.rotr a)).foldl (· ^^^ ·) 0
/-- Two rotations and a shift. -/
def shifted (p : ShaPar) (l : List Nat) (a : Nat) : Nat := p.mixed (l.take 2) a ^^^ (a >>> l.getD 2 0)

end ShaPar

/-- The greatest root `r` with `r ^ k ≤ n`, found bit by bit from the top. -/
def rootFrom (k n : Nat) (r : Nat) : Nat → Nat
  | 0 => r
  | b + 1 => rootFrom k n (if (r + 2 ^ b) ^ k ≤ n then r + 2 ^ b else r) b

/-- The primes below 410: the first 80. -/
def shaPrimes : List Nat := (List.range 410).filter (fun p => 2 ≤ p && (List.range p).all (fun d => d < 2 || p % d != 0))

/-- The first bits of the fractional part of the k-th root of `p`. -/
def rootFraction (bits k p : Nat) : Nat := rootFrom k (p * 2 ^ (bits * k)) 0 (bits + 5) % 2 ^ bits

/-- The round constants: from the cube roots of the first primes. -/
def ShaPar.consts (p : ShaPar) : List Nat := (shaPrimes.take p.rounds).map (rootFraction p.bits 3)

/-- The initial hash value: from the square roots of the first 8 primes. -/
def ShaPar.init (p : ShaPar) : List Nat := (shaPrimes.take 8).map (rootFraction p.bits 2)

/-- Big-endian bytes of a number, n of them. -/
def bigEndian (n x : Nat) : List Nat := ((List.range n).map (fun i => x / 256 ^ i % 256)).reverse
/-- Little-endian bytes of a number, n of them. -/
def littleEndian (n x : Nat) : List Nat := (List.range n).map (fun i => x / 256 ^ i % 256)
/-- The number of big-endian bytes. -/
def ofBigEndian (l : List Nat) : Nat := l.foldl (fun a b => 256 * a + b) 0
/-- The number of little-endian bytes. -/
def ofLittleEndian (l : List Nat) : Nat := l.foldr (fun b a => b + 256 * a) 0

/-- Extends the message schedule; the list is held newest first. -/
def ShaPar.schedule (p : ShaPar) (w : List Nat) : Nat → List Nat
  | 0 => w
  | n + 1 =>
    let g := fun i => w.getD (i - 1) 0
    p.schedule (p.add (p.add (g 16) (p.shifted p.small0 (g 15))) (p.add (g 7) (p.shifted p.small1 (g 2))) :: w) n

/-- One round. -/
def ShaPar.round (p : ShaPar) (h : List Nat) (kw : Nat) : List Nat :=
  match h with
  | [a, b, c, d, e, f, g, hh] =>
    let ch := (e &&& f) ^^^ ((2 ^ p.bits - 1 - e) &&& g)
    let t1 := p.add (p.add hh (p.mixed p.big1 e)) (p.add ch kw)
    let mj := (a &&& b) ^^^ (a &&& c) ^^^ (b &&& c)
    [p.add t1 (p.add (p.mixed p.big0 a) mj), a, b, c, p.add d t1, e, f, g]
  | h => h

/-- One block of sixteen words; `k` holds the round constants. -/
def ShaPar.block (p : ShaPar) (k h b : List Nat) : List Nat :=
  let n := p.bits / 8
  let w := (List.range 16).map (fun i => ofBigEndian ((b.drop (n * i)).take n))
  let ws := (p.schedule w.reverse (p.rounds - 16)).reverse
  List.zipWith p.add h ((List.zipWith p.add k ws).foldl p.round h)

/-- Hashes blocks, at most `fuel` of them. -/
def ShaPar.blocks (p : ShaPar) (k h m : List Nat) : Nat → List Nat
  | 0 => h
  | fuel + 1 => if m.isEmpty then h else p.blocks k (p.block k h (m.take (2 * p.bits))) (m.drop (2 * p.bits)) fuel

/-- The hash of bytes: a message is padded to whole blocks and ends with its length in bits. -/
def ShaPar.hash (p : ShaPar) (m : List Nat) : List Nat :=
  let n := m.length
  let size := 2 * p.bits
  let len := p.bits / 4
  let padded := m ++ [0x80] ++ List.replicate ((2 * size - 1 - len - n % size) % size) 0 ++ bigEndian len (8 * n)
  ((p.blocks p.consts p.init padded (n / size + 2)).map (bigEndian (p.bits / 8))).flatten

/-- SHA-256 of bytes. -/
def sha256N (m : List Nat) : List Nat := ShaPar.sha256.hash m
/-- SHA-512 of bytes. -/
def sha512N (m : List Nat) : List Nat := ShaPar.sha512.hash m

/-- SHA-256 of bytes. -/
def sha256 (m : List (BitVec 8)) : List (BitVec 8) := (sha256N (m.map BitVec.toNat)).map (BitVec.ofNat 8)

/-- CRC-32 of IEEE 802.3 over bytes (R407). -/
def crc32 (m : List Nat) : Nat :=
  (m.foldl (fun c b =>
    (List.range 8).foldl (fun c _ => if c % 2 = 1 then (c / 2) ^^^ 0xEDB88320 else c / 2) (c ^^^ b)) 4294967295) ^^^ 4294967295

end Sys2Proof.Machine
end

