-- ==== Sys2Proof/Machine/Load.lean ====
section
/-! DEFINITION. Loads, stores, line forms, prefetch and line control (R183–R193), and the checks of R187 that other accesses
share. -/

namespace Sys2Proof.Machine

/-- A place that an access has found: a global word or a cabinet place. -/
inductive Place where
  | glob (va : Word) (x : Xl)
  | cab (c : CabAt)
deriving DecidableEq, Repr

/-- The effective address of an execution and block step (R184). -/
def eaOf (s : State) (x : Exec) (o : Opnd) (k : Nat) : Word :=
  let index := if ixOf o.f = 0 then 0 else (x.reg s o.b k).val * (if ixOf o.f = 1 then 1 else 3)
  .ofInt ((x.reg s o.a k).val + index + (if o.len = 3 then o.w3.val else o.c))

/-- Steps 2 to 5 of R187 for one element of a cabinet access: alignment, bounds, range locks, and the stall of R199.
`word` asks for a word, otherwise a tryte; `sp` is the space trit of R183. -/
def State.findCab (s : State) (x : Exec) (sp : Int) (word write : Bool) (a : Int) : Except Stop CabAt :=
  if word ∧ a % 3 ≠ 0 then .error (.trap (alignTrap (.ofInt a)))
  else match s.cabAt x.t.team (sp == 1) (x.mode == .han) a with
    | .error t => .error (.trap t)
    | .ok c => match s.checkCabLock x.t.team c (if word then 3 else 1) a write with
      | .error t => .error (.trap t)
      | .ok () => if s.stalled c then .error .busy else .ok c

/-- Steps 2 to 5 of R187 for one element of a global access, all but the quota. -/
def State.findGlob (s : State) (n : Nat) (acc : Access) (word : Bool) (va : Word) : State × Except Stop Xl :=
  if word && !va.aligned then (s, .error (.trap (alignTrap va)))
  else match s.checkLock n va acc.writes with
    | .error t => (s, .error (.trap t))
    | .ok () => s.translate (s.ctxOf n) va acc false

/-- Steps 2 to 5 of R187 for one element of LD and ST. -/
def State.findPlace (s : State) (x : Exec) (sp : Int) (acc : Access) (word : Bool) (va : Word) : State × Except Stop Place :=
  if sp = 0 then
    match s.findGlob x.t.team acc word va with
    | (s, .ok l) => (s, .ok (.glob va l))
    | (s, .error e) => (s, .error e)
  else match s.findCab x sp word acc.writes va.val with
    | .ok c => (s, .ok (.cab c))
    | .error e => (s, .error e)

/-- Steps 2 to 5 of R187 for the elements of a lane, one element after another: the places, or the first failing element's
stop. -/
def State.findAll (f : State → Nat → State × Except Stop Place) : List Nat → State → State × Except Stop (List (Nat × Place))
  | [], s => (s, .ok [])
  | k :: l, s => match f s k with
    | (s, .error e) => (s, .error e)
    | (s, .ok p) => match State.findAll f l s with
      | (s, .ok ps) => (s, .ok ((k, p) :: ps))
      | (s, .error e) => (s, .error e)

/-- Reads a place: the view of a global word, or the drawer's word; step 6 of R187 is in the view. -/
def State.readPlace (s : State) (x : Exec) (p : Place) : State × Except Stop Word :=
  match p with
  | .glob va l => s.view x.t va l
  | .cab c => (s, .ok (s.cabWord c))

/-- Reads the places of a lane in order. -/
def State.readAll (x : Exec) : List (Nat × Place) → State → State × Except Stop (List (Nat × Place × Word))
  | [], s => (s, .ok [])
  | (k, p) :: l, s => match s.readPlace x p with
    | (s, .error e) => (s, .error e)
    | (s, .ok w) => match State.readAll x l s with
      | (s, .ok ws) => (s, .ok ((k, p, w) :: ws))
      | (s, .error e) => (s, .error e)

/-- What a load delivers of a word (R185, R189). -/
def loadPart (tryte : Bool) (p : Place) (w : Word) : Word :=
  if !tryte then w
  else loadTryte w (match p with | .glob va _ => va.num % 3 | .cab c => (c.a % 3).toNat)

/-- The effect of a load in one lane whose elements have the given finder (R189). -/
def loadLane (o : Opnd) (tryte : Bool) (f : Exec → State → Nat → State × Except Stop Place) (e : Eff) (x : Exec) : Eff :=
  match State.findAll (f x) (blockSteps o) e.s with
  | (s, .error k) => { e with s := s }.stop x k
  | (s, .ok ps) => match State.readAll x ps s with
    | (s, .error k) => { e with s := s }.stop x k
    | (s, .ok ws) => { e with s := ws.foldl (fun s w => x.deliver s o w.1 (loadPart tryte w.2.1 w.2.2)) s }

/-- The virtual addresses of a lane's global places. -/
def globVas (ps : List (Nat × Place)) : List Word :=
  ps.filterMap (fun p => match p.2 with | .glob va _ => some va | .cab _ => none)

/-- Writes a word, or sub-element 0 of it, to a place (R185, R190). -/
def State.writePlace (s : State) (x : Exec) (tryte : Bool) (p : Place) (w : Word) : State :=
  match p with
  | .glob va l => s.storeWord x.t va l w
  | .cab c =>
    s.putCabWord x.t.team c (if tryte then storeTryte (s.cabWord c) (c.a % 3).toNat (sub9 w.val 0) else w)

/-- The effect of a store in one lane (R190), with the quota check of R187. -/
def storeLane (o : Opnd) (tryte : Bool) (f : Exec → State → Nat → State × Except Stop Place) (e : Eff) (x : Exec) : Eff :=
  match State.findAll (f x) (blockSteps o) e.s with
  | (s, .error k) => { e with s := s }.stop x k
  | (s, .ok ps) => match s.quotaStop x.t (globVas ps) with
    | some va => { e with s := s }.stop x (.trap (quotaTrap va))
    | none => { e with s := ps.foldl (fun s p => s.writePlace x tryte p.2 (x.reg s o.d p.1)) s }

/-- The places of LD and ST (R184, R185). -/
def ldPlace (o : Opnd) (acc : Access) (x : Exec) (s : State) (k : Nat) : State × Except Stop Place :=
  s.findPlace x (spOf o.f) acc (o.x == 0) (eaOf s x o k)

/-- The rules of the fields of LD and ST (R188). DESIGN CHOICE, log entry 37: no routing modifier may stand on an instruction whose A is
a v register that gives an address. -/
def ldForm (o : Opnd) : Form := { d := .r, a := .r, b := ixUse o, c := .i, keepB := true, la := true }
def stForm (o : Opnd) : Form :=
  { d := .r, a := .r, b := ixUse o, c := .i, keepB := true, dRead := true, dWrite := false, extra := o.x == 0 || spOf o.f != 0 }

/-- LD (R189). -/
def bodyLd (o : Opnd) : Body := eachExec (loadLane o (o.x == 1) (ldPlace o .read))
/-- LD: its execution. -/
def execLd (o : Opnd) (s : State) := perform (.ld o) o (ldForm o) (bodyLd o) s
/-- ST (R190). -/
def bodySt (o : Opnd) : Body := inOrder (storeLane o (o.x == 1) (ldPlace o .write))
/-- ST: its execution. -/
def execSt (o : Opnd) (s : State) := perform (.st o) o (stForm o) (bodySt o) s

/-! ### Line forms (R191) -/

/-- The places of LDX and STX: the base of a global line form is line-aligned. -/
def ldxPlace (o : Opnd) (acc : Access) (x : Exec) (s : State) (k : Nat) : State × Except Stop Place :=
  let base := x.kreg s o.a
  if spOf o.f = 0 ∧ base.lineAligned = false then (s, .error (.trap (alignTrap base)))
  else s.findPlace x (spOf o.f) acc true (base.add (81 * (o.c + (k : Int)) + 3 * (x.t.lane : Int)))

/-- The rules of their fields. -/
def ldxForm : Form := { d := .v, a := .k, c := .i, la := true }
def stxForm : Form := { d := .v, a := .k, c := .i, dRead := true, dWrite := false }

/-- LDX. -/
def execLdx (o : Opnd) (s : State) := perform (.ldx o) o ldxForm (eachExec (loadLane o false (ldxPlace o .read))) s
/-- STX. -/
def execStx (o : Opnd) (s : State) := perform (.stx o) o stxForm (inOrder (storeLane o false (ldxPlace o .write))) s

/-! ### PREF and CLINE (R192, R193) -/

/-- The rules of the fields of PREF and CLINE. -/
def lineForm (o : Opnd) : Form := { a := .v, b := ixUse o, c := .i }

/-- The line of PREF, where every check of R187 passes, its poison among them: a prefetch changes no architected value, so a line that
fails is left alone (R192). -/
def quietPlace (s : State) (x : Exec) (o : Opnd) : State × Except Stop Xl :=
  match s.findGlob x.t.team .prefetch false (eaOf s x o 0) with
  | (s, .ok l) => (s, if (s.lineNow l.slot).poison then .error (.trap (poisonTrap (eaOf s x o 0))) else .ok l)
  | r => r

/-- A prefetch of one execution: it asks for the line, does nothing where a check fails, and waits for its walk (R192). -/
def quiet (o : Opnd) (ask : Exec → Xl → State → State) (e : Eff) (x : Exec) : Eff :=
  match quietPlace e.s x o with
  | (s, .ok l) => { e with s := ask x l s }
  | (s, .error .busy) => { e with s := s, stay := e.stay ++ [x] }
  | (s, .error _) => { e with s := s }

/-- PREF: the line is asked for by RdS for the L1; a page of HOME = − makes no L1 copy (R74). -/
def askL1 (x : Exec) (l : Xl) (s : State) : State :=
  if l.home = -1 ∨ (s.copy (s.coreOf x.t.team) l.slot).isSome then s
  else s.later [.homeRds (s.coreOf x.t.team) { slot := l.slot, pin := l.pin }]
/-- PREF: its execution. -/
def execPref (o : Opnd) (s : State) := perform (.pref o) o (lineForm o) (eachExec (quiet o askL1)) s

/-- PREF.home: the line is filled into its home slice by HR. -/
def askHome (_ : Exec) (l : Xl) (s : State) : State := s.later [.homeHr { slot := l.slot, src := .prefetch, pin := l.pin }]
/-- PREF.home: its execution. -/
def execPrefHome (o : Opnd) (s : State) := perform (.prefHome o) o (lineForm o) (eachExec (quiet o askHome)) s

/-- CLINE.zero: 27 stores of the canonical zero, checked as a store of the line's first word. -/
def execClineZero (o : Opnd) (s : State) :=
  perform (.clineZero o) o (lineForm o) (inOrder (fun e x =>
    let n := (eaOf e.s x o 0).num / 81
    let va := lineVa n 0
    match e.s.findGlob x.t.team .write true va with
    | (s, .error k) => { e with s := s }.stop x k
    | (s, .ok l) =>
      match s.quotaStop x.t [va] with
      | some a => { e with s := s }.stop x (.trap (quotaTrap a))
      | none =>
        let s := if (s.leaseOf x.t n).isSome then s.setImage x.t n (fun _ => zeroLine) else s
        { e with s := (List.range 27).foldl (fun s i =>
            s.storeWord x.t (lineVa n i) { l with pa := 81 * l.slot + 3 * i } .zero) s })) s

/-- The core's copy of a line goes into the write-back buffer, from which WbD or EvC takes it to its home (R101, R193). The spec does not
say what becomes of a leased copy: DESIGN CHOICE, log entry 42, it stays. -/
def State.evictCopy (s : State) (core slot : Nat) : State :=
  match s.copy core slot with
  | some c =>
    if c.leased || c.back then s
    else (s.putCopy { c with back := true }).laterOnce (if c.st = .M ∨ c.st = .O then .homeWbd core slot else .homeEvc core slot)
  | none => s

/-- CLINE.evict (R193): the core's copy is given back by WbD or EvC; where its translation fails, for want of the write right (R73) or
otherwise, nothing is done. DESIGN CHOICE, log entry 42: a copy that a lease holds stays. -/
def execClineEvict (o : Opnd) (s : State) :=
  perform (.clineEvict o) o (lineForm o) (eachExec (fun e x =>
    match e.s.translate (e.s.ctxOf x.t.team) (eaOf e.s x o 0) .evict false with
    | (s, .ok l) => { e with s := s.evictCopy (s.coreOf x.t.team) l.slot }
    | (s, .error .busy) => { e with s := s, stay := e.stay ++ [x] }
    | (s, .error _) => { e with s := s })) s

end Sys2Proof.Machine
end

