-- ==== Sys2Proof/Machine/Control.lean ====
section
/-! DEFINITION. Control instructions: transfers, calls, exit, REORDER, NOP, YIELD, FEAT, STAMP (R236–R241, R244–R248). -/

namespace Sys2Proof.Machine

/-! ### Transfers (R236–R239) -/

/-- An execution goes to a target that a register or a word gives; a target that is not word-aligned traps (R236). -/
def Eff.jump (e : Eff) (x : Exec) (dest : Word) : Eff :=
  if dest.aligned then { e with goto := e.goto ++ [(x, dest)] } else e.stop x (.trap (alignTrap dest))

/-- A relative target: words from the address of the instruction (R236). -/
def State.relative (s : State) (off : Int) : Word := s.cur.pc.add (3 * off)

/-- An execution goes to a relative target. -/
def Eff.branch (e : Eff) (x : Exec) (off : Int) : Eff := { e with goto := e.goto ++ [(x, e.s.relative off)] }

/-- The offset of BR and CALL: C, or word 3 (R237). -/
def offsetOf (o : Opnd) : Int := if o.len = 3 then o.w3.val else o.c

/-- BR (R238): the guard is its condition. -/
def execBr (o : Opnd) (s : State) := perform (.br o) o { c := .i } (eachExec (fun e x => e.branch x (offsetOf o))) s

/-- BR3 (R238). -/
def execBr3 (o : Opnd) (s : State) :=
  perform (.br3 o) o { a := .p } (eachExec (fun e x =>
    match x.pred e.s (predNum o.a) with
    | .m => e.branch x (field o.w3.val 13 0)
    | .z => e
    | .p => e.branch x (field o.w3.val 26 14))) s

/-- The pairs of BRM: predicate, condition, offset (R239). -/
def brmPairs (o : Opnd) : List (Int × Int × Int) :=
  [(o.d, field o.c 1 0, field o.w3.val 8 0), (o.a, field o.c 3 2, field o.w3.val 17 9), (o.b, o.x, field o.w3.val 26 18)]
/-- The rules of BRM's fields. -/
def brmForm (o : Opnd) : Form :=
  { d := .p, a := .p, b := .p, c := .i, keepB := true, keepC := true, dRead := true, dWrite := false, extra := brmOk o }
/-- BRM (R239): the first pair whose condition holds. -/
def execBrm (o : Opnd) (s : State) :=
  perform (.brm o) o (brmForm o) (eachExec (fun e x =>
    match (brmPairs o).find? (fun p => codeHolds p.2.1 (x.pred e.s (predNum p.1)).val) with
    | some p => e.branch x p.2.2
    | none => e)) s

/-- The rules of JMP's fields. -/
def jmpForm (o : Opnd) : Form := { a := if o.len == 3 then .z else .v, c := .i }
/-- JMP (R238). -/
def execJmp (o : Opnd) (s : State) :=
  perform (.jmp o) o (jmpForm o) (eachExec (fun e x =>
    e.jump x (if o.len = 3 then o.w3 else (x.reg e.s o.a 0).add o.c))) s
/-- JMPR (R238). -/
def bodyJmpr (o : Opnd) : Body := eachExec (fun e x => e.jump x (x.reg e.s o.a 0))
/-- JMPR: its execution. -/
def execJmpr (o : Opnd) (s : State) := perform (.jmpr o) o { a := .v } (bodyJmpr o) s

/-! ### Calls (R240) -/

/-- The pushes of a call: its stack pointers, one for each block step, each of which has found its place. -/
def pushAll (o : Opnd) (x : Exec) (back : Word) (l : List (Nat × Word × Place)) (s : State) : State :=
  l.foldl (fun s p => x.set (s.writePlace x false p.2.2 back) o.d p.1 p.2.1) s

/-- A call: the target is read before any write, the return address is pushed as ST stores it, the stack pointer and the PC
follow; `size` is how many trytes on the return address lies. An extent pushes it on each of its stacks (R144). -/
def callBody (o : Opnd) (size : Int) (target : State → Exec → Word) : Body := inOrder (fun e x =>
  let dest := target e.s x
  let sp := fun (k : Nat) => (x.reg e.s o.d k).add (-3)
  if !dest.aligned then e.stop x (.trap (alignTrap dest))
  else match State.findAll (fun s k => s.findPlace x (spOf o.f) .write true (sp k)) (blockSteps o) e.s with
    | (s, .error k) => { e with s := s }.stop x k
    | (s, .ok ps) => match s.quotaStop x.t (globVas ps) with
      | some va => { e with s := s }.stop x (.trap (quotaTrap va))
      | none =>
        { e with s := pushAll o x (s.cur.pc.add size) (ps.map (fun p => (p.1, sp p.1, p.2))) s, goto := e.goto ++ [(x, dest)] })

/-- CALL. -/
def execCall (o : Opnd) (s : State) :=
  perform (.call o) o { d := .v, c := .i, dRead := true }
    (callBody o (3 * o.len) (fun s _ => s.relative (offsetOf o))) s
/-- CALLR; inside a PAIR the return address follows the PAIR. -/
def bodyCallr (o : Opnd) (size : Int) : Body := callBody o size (fun s x => x.reg s o.a 0)
/-- CALLR: its execution. -/
def execCallr (o : Opnd) (s : State) := perform (.callr o) o { d := .v, a := .v, dRead := true } (bodyCallr o 3) s

/-- RET: the word is read as LD reads it and checked as a target. -/
def bodyRet (o : Opnd) : Body := eachExec (fun e x =>
  let sp := x.reg e.s o.a 0
  match e.s.findPlace x (spOf o.f) .read true sp with
  | (s, .error k) => { e with s := s }.stop x k
  | (s, .ok p) => match s.readPlace x p with
    | (s, .error k) => { e with s := s }.stop x k
    | (s, .ok w) =>
      if w.aligned then { e with s := x.set s o.a 0 (sp.add 3), goto := e.goto ++ [(x, w)] }
      else { e with s := s }.stop x (.trap (alignTrap w)))
/-- RET: its execution. -/
def execRet (o : Opnd) (s : State) := perform (.ret o) o { a := .v, aWrite := true } (bodyRet o) s

/-! ### EXIT (R241) -/

/-- EXIT: the threads exit, then what waits for them goes on. -/
def bodyExit : Body := fun s xs =>
  let ts := (xs.map (·.ts)).flatten
  let s := ts.foldl (fun s t => s.exitThread t) s
  Eff.of ((distinct (ts.map (·.team))).foldl (fun s n => s.afterExit n) s)
/-- EXIT: its execution. -/
def execExit (o : Opnd) (s : State) := perform (.exit o) o {} bodyExit s

/-! ### REORDER (R244, R245) -/

/-- The registers of REORDER's range, `k` block steps on. -/
def reorderRange (o : Opnd) (k : Nat) : List Nat := (List.range (o.c + 122).toNat).map (fun i => Exec.num o.d + i + k)

/-- Ends every open window on a register of a range, writing each pending result at once (R245): the data has arrived. -/
def Thread.endWins (t : Thread) (r : List Nat) : Thread :=
  { t with regs := (t.wins.filter (fun w => r.contains w.reg)).foldl (fun regs w => setNth regs w.reg w.val) t.regs,
           wins := t.wins.filter (fun w => !r.contains w.reg) }

/-- The rules of REORDER's fields. -/
def reorderForm (o : Opnd) : Form :=
  { d := .v, a := .v, b := .v, c := .i, ends := true, moreV := (List.range (o.c + 122).toNat).map (fun (i : Nat) => o.d + (i : Int)) }

/-- What one block step of REORDER moves: for each live thread, the words of its range and the thread they come from. -/
def State.reorderMoves (s : State) (o : Opnd) (live : List TRef) (k : Nat) : List (TRef × TRef × List Word) :=
  let order := sortBy (fun a b => a.2 ≤ b.2) (live.map (fun t => (t, (s.vreg t (Exec.num o.a + k)).val)))
  live.zip (order.map (fun q => (q.1, (reorderRange o k).map (fun r => s.vreg q.1 r))))

/-- One thread's part of a move: the range, and then the origin (R245). -/
def State.reorderPut (s : State) (o : Opnd) (k : Nat) (m : TRef × TRef × List Word) : State :=
  (((reorderRange o k).zip m.2.2).foldl (fun s w => s.setV m.1 w.1 w.2) s).setV m.1 (Exec.num o.b + k) (.ofInt (m.2.1.num : Int))

/-- REORDER: every thread of the team that has not exited takes part; a thread whose guard fails is not written
(log entry 19). Of an extent every step reads before any writes (R144). -/
def bodyReorder (o : Opnd) : Body := fun s xs =>
  match xs with
  | [] => Eff.of s
  | x :: _ =>
    let live := (s.liveThreads x.t.team).map (·.1)
    let s := live.foldl (fun s t => s.modThread t (fun th => th.endWins (((blockSteps o).map (reorderRange o)).flatten))) s
    let moves := (blockSteps o).map (fun k => (k, (s.reorderMoves o live k).filter (fun m => xs.any (fun y => y.t == m.1))))
    Eff.of (moves.foldl (fun s p => p.2.foldl (fun s m => s.reorderPut o p.1 m) s) s)
/-- REORDER: its execution. -/
def execReorder (o : Opnd) (s : State) := perform (.reorder o) o (reorderForm o) (bodyReorder o) s

/-! ### NOP, YIELD, FEAT, STAMP (R246–R248) -/

/-- NOP (R246). -/
def execNop (o : Opnd) (s : State) := perform (.nop o) o {} noBody s

/-- YIELD (R246): the age becomes the current cycle. -/
def bodyYield : Body := fun s xs =>
  Eff.of (((xs.map (·.ts)).flatten).foldl (fun s t => s.modThread t (fun th => { th with age := s.cycle })) s)
/-- YIELD: its execution. -/
def execYield (o : Opnd) (s : State) := perform (.yield o) o {} bodyYield s

/-- The enabled cores of a partition (R457). -/
def State.coresOf (s : State) (p : Nat) : List Nat :=
  (List.range 324).filter (fun c => trit (s.partWord p (1 + c / 81)) (c % 81 / 9) == 1)

/-- A partition holds a fabric port (R457). -/
def State.hasPort (s : State) (p : Nat) : Bool :=
  (List.range 24).any (fun i => trit (s.partWord p 7) i == 1 || trit (s.partWord p 8) i == 1)

/-- The feature words (R176). -/
def State.feature (s : State) (p : Nat) (i : Int) : Word :=
  let at_ := fun (on : Bool) (k : Nat) => if on then ((3 ^ k : Nat) : Int) else 0
  if i = 0 then .ofInt (729 * 387420489 + Config.stepping * 19683 + 3)
  else if i = 1 then
    .ofInt (797161 + at_ true 15 + at_ (s.hasPort p) 13 + at_ (trit (s.partWord p 9) 0 == 1 || trit (s.partWord p 9) 1 == 1) 14)
  else if i = 2 then .ofInt (((s.coresOf p).length : Int) * 387420489 + 2187 * 19683 + 243)
  else if i = 3 then .ofInt (9 * 387420489 + 27 * 19683 + 243)
  else .zero

/-- FEAT (R247). -/
def execFeat (o : Opnd) (s : State) :=
  perform (.feat o) o { d := .r, c := .i } (wordBody o (fun s x _ => s.feature (s.partOf x.t.team) o.c)) s

/-- STAMP (R248): the stamp is read once. -/
def bodyStamp (o : Opnd) : Body :=
  wordsBody o (fun s x _ =>
    let t := s.stampOf (s.partOf x.t.team)
    [lowWord t, highWord t])
/-- STAMP: its execution. -/
def execStamp (o : Opnd) (s : State) := perform (.stamp o) o { d := .v, moreV := [o.d + 1] } (bodyStamp o) s

end Sys2Proof.Machine
end

