-- ==== Sys2Proof/Machine/Sync.lean ====
section
/-! DEFINITION. Synchronising accesses, leases, publication, fences and barriers (R311–R337). -/

namespace Sys2Proof.Machine

/-! ### What they share -/

/-- The mode-violation trap (R329). -/
def modeTrap : Trap := Trap.of 14 0 .zero

/-- The executions that run after those that violate the mode have trapped (R329). -/
def underMode (bad : State → Exec → Bool) (b : Body) : Body := fun s xs =>
  let e := b s (xs.filter (fun x => !bad s x))
  { e with traps := (xs.filter (bad s)).map (fun x => (x, modeTrap)) ++ e.traps }

/-- Not allowed under DET (R329). -/
def notDet (s : State) (x : Exec) : Bool := s.det x.t.team

/-- The release step of an execution at a scope (R312); true once it may go on. A handler waits without a thread. -/
def State.releaseExec (s : State) (x : Exec) (scope : Int) : State × Bool :=
  match x.mode with
  | .han =>
    let old := match s.thread? x.t with | some th => th.run | none => .exited
    let (s, ok) := s.releaseStep x.t scope
    (s.setRun x.t old, ok)
  | _ => x.ts.foldl (fun p t => let r := p.1.releaseStep t scope; (r.1, p.2 && r.2)) (s, true)

/-- Releases for each execution, where the instruction is a release: those that may go on, those that wait. -/
def State.releaseAll (s : State) (rel : Bool) (scope : Int) (xs : List Exec) : State × List Exec × List Exec :=
  if !rel then (s, xs, [])
  else xs.foldl (fun p x =>
    let r := p.1.releaseExec x scope
    if r.2 then (r.1, p.2.1 ++ [x], p.2.2) else (r.1, p.2.1, p.2.2 ++ [x])) (s, [], [])

/-- The checks of R318 for a synchronising access: alignment, range locks as a synchronising access, translation. -/
def State.findSync (s : State) (n : Nat) (acc : Access) (word : Bool) (va : Word) : State × Except Stop Xl :=
  if word && !va.aligned then (s, .error (.trap (alignTrap va)))
  else match s.checkLock n va true with
    | .error t => (s, .error (.trap t))
    | .ok () => s.translate (s.ctxOf n) va acc false

/-- The address of LDS and STS (R318). -/
def syncAddr (s : State) (x : Exec) (o : Opnd) : Word := (x.reg s o.a 0).add (if o.len = 3 then o.w3.val else o.c)

/-- The mark of R75 that a team's writes give. -/
def State.eligOf (s : State) (n : Nat) (x : Xl) : Option Bool := some (x.ce && s.compress n)

/-- The word of a line that an address names. -/
def wordOf (va : Word) : Nat := va.num % 81 / 3

/-- A synchronising write of a thread is on its way (R312, R324). -/
def State.synSent (s : State) (t : TRef) : State := s.modThread t (fun th => { th with unackSyn := th.unackSyn + 1 })

/-! ### LDS and STS (R319) -/

/-- The word at the home, or on the thread's lease image (R319, R332); poison stops it (R393). -/
def State.homeView (s : State) (t : TRef) (va : Word) (x : Xl) : State × Except Stop Word :=
  let get := fun (l : Line) => if l.poison then Except.error (Stop.trap (poisonTrap va)) else .ok (wordAt l.w (wordOf va))
  match s.leaseOf t (va.num / 81) with
  | some r => (s, get r.image)
  | none =>
    if s.pendingSyn t x.slot (wordOf va) then (s, .error .busy)
    else match s.homeRead x.slot x.pin with
      | none => (s, .error .busy)
      | some (s, l) => (s, get l)

/-- The rules of LDS's fields (R317). -/
def ldsForm : Form := { d := .r, a := .r, c := .i, la := true, ext := false }
/-- LDS. -/
def bodyLds (o : Opnd) : Body := underMode notDet (eachExec (fun e x =>
  let va := syncAddr e.s x o
  match e.s.findSync x.t.team .read true va with
  | (s, .error k) => { e with s := s }.stop x k
  | (s, .ok l) => match s.homeView x.t va l with
    | (s, .error k) => { e with s := s }.stop x k
    | (s, .ok w) => { e with s := x.deliver s o 0 w }))
/-- LDS: its execution. -/
def execLds (o : Opnd) (s : State) := perform (.lds o) o ldsForm (bodyLds o) s

/-- A serial is asked for (R316). -/
def wantsSerial (o : Opnd) : Bool := o.f == 3 || o.f == -3
/-- Opens the interlock of a serial's register (R319). -/
def State.awaitSerial (s : State) (x : Exec) (o : Opnd) : State :=
  if x.mode = .vec then
    let w : Win := { reg := Exec.num o.d, val := .zero, left := 0, arrived := false, src := .serial }
    s.modThread x.t (fun th => { th with wins := th.wins ++ [w] })
  else
    s.modSquad x.t.team x.t.squad (fun q => { q with kwait := q.kwait ++ [(x.mode == .han, Exec.num o.d)] })
/-- The register number by which an acknowledgement finds where its serial goes: a v register, or beyond 242 a k register of
the normal bank, or beyond 323 of the trap bank. -/
def serialReg (x : Exec) (o : Opnd) : Nat :=
  match x.mode with
  | .vec => Exec.num o.d
  | .sca => 243 + Exec.num o.d
  | .han => 324 + Exec.num o.d
/-- What STS.T returns on a lease image (R320). -/
def imageSerial : Word := .ofInt (-10460353203)

/-- The rules of STS's fields (R317). -/
def stsForm (o : Opnd) : Form :=
  { d := if o.f == 3 || o.f == -3 then .r else .z, a := .r, b := .r, c := .i, keepB := true, ext := false }
/-- STS in one execution: its release step, and then its write, at the home or on the thread's lease image (R319, R332). -/
def stsOne (o : Opnd) (e : Eff) (x : Exec) : Eff :=
  let va := syncAddr e.s x o
  match e.s.findSync x.t.team .write true va with
  | (s, .error k) => { e with s := s }.stop x k
  | (s, .ok l) =>
    match (if o.f = -1 ∨ o.f = -3 then s.releaseExec x o.x else (s, true)) with
    | (s, false) => { e with s := s, stay := e.stay ++ [x] }
    | (s, true) =>
      let v := x.reg s o.b 0
      if (s.leaseOf x.t (va.num / 81)).isSome then
        let s := (s.irrevocable x.t.team).storeWord x.t va l v
        { e with s := if wantsSerial o then x.set s o.d 0 imageSerial else s }
      else
        let s := (s.irrevocable x.t.team).synSent x.t
        let s := if wantsSerial o then s.awaitSerial x o else s
        let r : HwReq := { slot := l.slot, op := .words [(wordOf va, v)],
                           src := .sts x.t (if wantsSerial o then some (serialReg x o) else none), elig := s.eligOf x.t.team l,
                           va := va, pin := l.pin }
        { e with s := s.later [.homeHw r] }
/-- STS. -/
def bodySts (o : Opnd) : Body := underMode notDet (eachExec (stsOne o))
/-- STS: its execution. -/
def execSts (o : Opnd) (s : State) := perform (.sts o) o (stsForm o) (bodySts o) s

/-- Delivers a serial where its acknowledgement names it. -/
def State.putSerial (s : State) (t : TRef) (reg : Nat) (serial : Word) : State :=
  if reg < 243 then s.arrive t reg .serial (some serial)
  else
    let bank := decide (324 ≤ reg)
    let k := if bank then reg - 324 else reg - 243
    (s.modSquad t.team t.squad (fun q => { q with kwait := q.kwait.erase (bank, k) })).setK t.team t.squad bank k serial

/-- A serial that never comes: its register keeps its value. -/
def State.dropSerial (s : State) (t : TRef) (reg : Nat) : State :=
  if reg < 243 then
    s.modThread t (fun th =>
      let i := (th.wins.findIdx? (fun w => w.reg == reg && w.src == .serial && !w.arrived)).getD th.wins.length
      Thread.settle { th with wins := th.wins.eraseIdx i })
  else
    let bank := decide (324 ≤ reg)
    let k := if bank then reg - 324 else reg - 243
    s.modSquad t.team t.squad (fun q => { q with kwait := q.kwait.erase (bank, k) })

/-- A thread that may take a trap for a write that it has posted: one that runs or waits. -/
def Run.trappable : Run → Bool
  | .exited | .parked | .trapped => false
  | _ => true

/-- A posted write that the shell has refused (R46, R48, R78) traps its thread where it stands, with the address of the write; a thread
that cannot trap leaves it to the error event (DESIGN CHOICE, log entry 58). -/
def State.refusedWrite (s : State) (t : TRef) (reg : Option Nat) (r : Refused) : State :=
  let s := match reg with | some k => s.dropSerial t k | none => s
  match s.thread? t with
  | some th => if th.run.trappable then s.raiseTraps [(t, Trap.of r.cause r.detail r.va)] th.pc th.instr else s
  | none => s

/-- STS_ACKNOWLEDGEMENT (R319): the serial is delivered if asked for, and a thread that waits for its acknowledgements goes on
once none is left. -/
def execStsAcknowledgement (t : TRef) (reg : Option Nat) (reply : WriteReply) (s : State) :
    Host.Outcome State Fault Refusal :=
  let s := match reply.no, reg with
    | some r, _ => s.refusedWrite t reg r
    | none, some r => s.putSerial t r reply.serial
    | none, none => s
  let s := s.modThread t (fun th => { th with unackSyn := th.unackSyn - 1 })
  let s := s.wakeAcked t
  .next (if (s.team? t.team).any (fun (x : Team) => x.ending) then s.laterOnce (.teamEnd t.team) else s)

/-! ### ATOM and RED (R321–R323, R337) -/

/-- A lane of an atomic operation: its execution, address, translation, operand and comparand. -/
structure AtomLane where
  x : Exec
  va : Word
  at_ : Xl
  v : Word
  c : Word
deriving DecidableEq, Repr

/-- One operation on a word (R321). -/
def atomOp (op : Int) (et : ETy) (sat : Bool) (w v c : Word) : Word :=
  if op = -2 then (if w = c then v else w) else combine op et sat w v

/-- The lanes of one transaction in ascending order: the old value of each, and the word's new value (R322, R323). -/
def atomRun (op : Int) (et : ETy) (sat : Bool) (w : Word) (l : List AtomLane) : List Word × Word :=
  if op = 2 ∧ isFloat et then
    let vs := l.map (·.v)
    ((List.range l.length).map (fun i => if i = 0 then w else sumOnce et sat w (vs.take i)), sumOnce et sat w vs)
  else l.foldl (fun p a => (p.1 ++ [p.2], atomOp op et sat p.2 a.v a.c)) ([], w)

/-- The lanes that pass R318, with their operands; the others stop. -/
def State.atomLanes (o : Opnd) (xs : List Exec) (s : State) : Eff × List AtomLane :=
  xs.foldl (fun p x =>
    let va := x.reg p.1.s o.a 0
    match p.1.s.findSync x.t.team .readWrite true va with
    | (s, .error k) => (({ p.1 with s := s } : Eff).stop x k, p.2)
    | (s, .ok l) => ({ p.1 with s := s },
        p.2 ++ [{ x := x, va := va, at_ := l, v := x.reg s o.b 0, c := if o.c = -2 then x.reg s (o.b + 1) 0 else .zero }]))
    (Eff.of s, [])

/-- The lanes that act: all that pass, once every release step is done and no lane waits for its translation, so that the lanes of one
word are one transaction (R322): lanes that have released wait with those that have not. -/
def atomRelease (rel : Bool) (scope : Int) (p : Eff × List AtomLane) : Eff × List AtomLane :=
  if p.1.waits then ({ p.1 with stay := p.1.stay ++ p.2.map (·.x) }, [])
  else
    let r := p.1.s.releaseAll rel scope (p.2.map (·.x))
    if r.2.2.isEmpty then ({ p.1 with s := r.1 }, p.2)
    else ({ p.1 with s := p.2.foldl (fun s a => s.setRun a.x.t .ackLanes) r.1, stay := p.1.stay ++ p.2.map (·.x) }, [])

/-- The distinct words that lanes name. -/
def atomWords (l : List AtomLane) : List Nat := distinct (l.map (fun a => a.at_.pa))

/-- An atomic operation on a lane's own lease image (R332); poison stops an ATOM. -/
def atomImage (o : Opnd) (ret : Bool) (e : Eff) (a : AtomLane) : Eff :=
  match e.s.leaseOf a.x.t (a.va.num / 81) with
  | none => e
  | some r =>
    if r.image.poison && ret then e.stop a.x (.trap (poisonTrap a.va))
    else
      let old := wordAt r.image.w (wordOf a.va)
      let s := e.s.setImage a.x.t (a.va.num / 81) (fun l => { l with w := setNth l.w (wordOf a.va) (atomOp o.c o.et o.sat old a.v a.c) })
      let s := s.irrevocable a.x.t.team
      { e with s := if ret then a.x.deliver s o 0 old else s }

/-- One ATOM transaction at the home of a word (R322). -/
def atomHome (o : Opnd) (e : Eff) (l : List AtomLane) : Eff :=
  match l with
  | [] => e
  | a :: _ =>
    let slot := a.at_.slot
    if l.any (fun b => e.s.pendingSyn b.x.t slot (wordOf a.va)) then { e with stay := e.stay ++ l.map (·.x) }
    else match e.s.homeRead slot a.at_.pin with
      | none => { e with stay := e.stay ++ l.map (·.x) }
      | some (s, line) =>
        if line.poison then l.foldl (fun e b => e.stop b.x (.trap (poisonTrap b.va))) { e with s := s }
        else
          let r := atomRun o.c o.et o.sat (wordAt line.w (wordOf a.va)) l
          match s.homeWrite slot (fun x => { x with w := setNth x.w (wordOf a.va) r.2 }) (s.eligOf a.x.t.team a.at_) a.at_.pin with
          | none => { e with s := s, stay := e.stay ++ l.map (·.x) }
          | some (s, _, _) => { e with s := (l.zip r.1).foldl (fun s p => p.1.x.deliver s o 0 p.2) (s.irrevocableAll (l.map (·.x.t))) }

/-- The rules of ATOM's fields (R317, R321). -/
def atomForm (o : Opnd) : Form :=
  { d := .v, a := .v, b := .v, c := .i, la := true, ext := false, sat := o.c == 1 || o.c == 2,
    moreV := if o.c == -2 then [o.b + 1] else [],
    extra := [1, 2, 3, 4, -1, -2, -3].contains o.c && (o.c != -3 || o.et == .t27) }
/-- ATOM. -/
def bodyAtom (o : Opnd) : Body := underMode notDet (fun s xs =>
  let (e, l) := atomRelease (o.f == -1 || o.f == 2) o.x (s.atomLanes o xs)
  let held := fun (a : AtomLane) => (e.s.leaseOf a.x.t (a.va.num / 81)).isSome
  let mine := l.filter held
  let rest := l.filter (fun a => !held a)
  let e := mine.foldl (atomImage o true) e
  (atomWords rest).foldl (fun e w => atomHome o e (rest.filter (fun a => a.at_.pa == w))) e)
/-- ATOM: its execution. -/
def execAtom (o : Opnd) (s : State) := perform (.atom o) o (atomForm o) (bodyAtom o) s

/-- RED's partial of a DET grid: one for each thread, word and kind, in program order of first use (R337). Two addresses of one word
name one partial; where a shootdown has kept two of them apart, the RED is added to the first, and the merge joins them. -/
def addPart (o : Opnd) (l : List Part) (th : Nat) (va : Word) (pa : Nat) (v : Word) : List Part :=
  let op := if o.c = 2 then 1 else o.c
  let same := fun (p : Part) => p.thread == th && (p.va == va || p.pa == some pa) && p.op == op && p.et == o.et
  match l.findIdx? same with
  | some i => modNth (fun p => { p with val := combine op o.et false p.val v, pa := some pa }) l i
  | none => l ++ [{ thread := th, va := va, pa := some pa, op := op, et := o.et, val := v }]

/-- RED's request for one word (R322): the thread does not wait. -/
def redHome (o : Opnd) (s : State) (l : List AtomLane) : State :=
  match l with
  | [] => s
  | a :: _ =>
    let s := l.foldl (fun s b => s.synSent b.x.t) (s.irrevocableAll (l.map (·.x.t)))
    s.later [.homeHw { slot := a.at_.slot, op := .red (wordOf a.va) o.c o.et o.sat (l.map (·.v)),
                       src := .red (l.map (·.x.t)), elig := s.eligOf a.x.t.team a.at_, va := a.va, pin := a.at_.pin }]

/-- The rules of RED's fields (R317, R321). -/
def redForm (o : Opnd) : Form :=
  { a := .v, b := .v, c := .i, sat := o.c == 1 || o.c == 2,
    extra := [1, 2, 3, 4, -3].contains o.c && (o.c != -3 || o.et == .t27) }
/-- RED: under FLOW a request for each word, under DET a partial (R322, R337). -/
def bodyRed (o : Opnd) : Body := underMode (fun s x => s.det x.t.team && (o.sat || o.f == -1)) (fun s xs =>
  let (e, l) := atomRelease (o.f == -1) o.x (s.atomLanes o xs)
  let held := fun (a : AtomLane) => (e.s.leaseOf a.x.t (a.va.num / 81)).isSome
  let e := (l.filter held).foldl (atomImage o false) e
  let rest := l.filter (fun a => !held a)
  let det := rest.filter (fun a => e.s.det a.x.t.team)
  let flow := rest.filter (fun a => !e.s.det a.x.t.team)
  let s := det.foldl (fun s a => s.modBody a.x.t.team (fun b => { b with parts := addPart o b.parts a.x.t.num a.va a.at_.pa a.v })) e.s
  { e with s := (atomWords flow).foldl (fun s w => redHome o s (flow.filter (fun a => a.at_.pa == w))) s })
/-- RED: its execution. -/
def execRed (o : Opnd) (s : State) := perform (.red o) o (redForm o) (bodyRed o) s

/-! ### Leases (R330–R334) -/

/-- The lease trap (R369): 1 count, 2 order, 3 duration. -/
def leaseTrap (detail : Int) (v : Nat) : Trap := Trap.of 13 detail (lineVa v 0)

/-- Lease records of a core (R330). -/
def State.coreLeases (s : State) (core : Nat) : Nat :=
  ((s.teams.filter (fun t => t.core == core)).map (fun t => ((s.threadsOf t.num).map (fun p => p.2.leases.length)).sum)).sum

/-- Asks for a lease of a line that the thread may take: the entries of the line are published first, then the line is
acquired, and the grant follows as a step of its own (R330, R111, R112). -/
def leaseAsk (e : Eff) (x : Exec) (v : Nat) (l : Xl) (d : Int) : Eff :=
  let n := x.t.team
  let s := e.s
  if 27 ≤ s.coreLeases (s.coreOf n) then { e with stay := e.stay ++ [x] }
  else if s.hasEntry n v then
    { e with s := (s.setRun x.t .ackAll).startPublication n (.line v) (.thread x.t), stay := e.stay ++ [x] }
  else if (s.thread? x.t).any (fun th => th.unackPub != 0) then { e with s := s.setRun x.t .ackAll, stay := e.stay ++ [x] }
  else if s.pendingLine x.t l.slot then { e with stay := e.stay ++ [x] }
  else
    let home := l.home == -1
    let r : LeaseRec := { vline := v, slot := l.slot, elig := l.ce && s.compress n, pin := l.pin, image := zeroLine, valid := true, count := d.toNat, atHome := home, granted := false }
    let s := s.modThread x.t (fun th => { th with run := .lease, leases := th.leases ++ [r] })
    let have_ := (s.copy (s.coreOf n) l.slot).any (fun c => (c.st == .M || c.st == .E) && !c.back)
    let s := if home then s else match s.copy (s.coreOf n) l.slot with
      | some c => if have_ then s.putCopy { c with leased := true } else s
      | none => s
    { e with s := s.later ((if home || have_ then [] else [.homeRdx (s.coreOf n) { slot := l.slot, pin := l.pin }]) ++ [.leaseGrant x.t]), stay := e.stay ++ [x] }

/-- LEASE (R330). -/
def bodyLease (o : Opnd) : Body := underMode notDet (eachExec (fun e x =>
  let va := x.reg e.s o.a 0
  let d := (x.reg e.s o.b 0).val
  let v := va.num / 81
  match e.s.findSync x.t.team .readWrite false va with
  | (s, .error k) => { e with s := s }.stop x k
  | (s, .ok l) =>
    let mine := match s.thread? x.t with | some th => th.leases | none => []
    if 3 ≤ mine.length then { e with s := s }.stop x (.trap (leaseTrap 1 v))
    else if mine.any (fun r => v ≤ r.vline) then { e with s := s }.stop x (.trap (leaseTrap 2 v))
    else if d < 1 ∨ 729 < d then { e with s := s }.stop x (.trap (leaseTrap 3 v))
    else leaseAsk { e with s := s } x v l d))
/-- LEASE: its execution. -/
def execLease (o : Opnd) (s : State) := perform (.lease o) o { a := .v, b := .v } (bodyLease o) s

/-- A thread of the core holds a line by a lease that has been granted and is valid (R111). -/
def State.leaseTaken (s : State) (core slot : Nat) : Bool :=
  s.teams.any (fun t => t.core == core && (s.threadsOf t.num).any (fun p =>
    p.2.leases.any (fun r => r.slot == slot && r.granted && r.valid && !r.atHome)))

/-- The line is the lease's to take: at the home nothing is open, or the core owns its copy, which no lease holds (R111, R112). -/
def State.leaseReady (s : State) (core : Nat) (r : LeaseRec) : Bool :=
  if r.atHome then !s.busy r.slot
  else (s.copy core r.slot).any (fun c => (c.st == .M || c.st == .E) && !c.back) && !s.leaseTaken core r.slot

/-- The shell refuses the frame of a lease's line (R78, R79): 0 for a frame of the other format, else the class of the address. -/
def State.leaseBar (s : State) (slot : Nat) : Option Nat :=
  match s.physWhy slot with
  | some c => some c
  | none => if s.isB slot then some 0 else none

/-- A lease that the shell has refused traps its thread at the LEASE and leaves no record (R78, R79); at the home its error class is
raised as well, which a refused RdX raises by itself (R46). -/
def State.refuseLease (s : State) (t : TRef) (r : LeaseRec) (c : Nat) : State :=
  let s := s.modThread t (fun th => { th with leases := th.leases.filter (fun q => q != r) })
  let no := refusedFor c (lineVa r.vline 0)
  let cls := if r.atHome && c != 0 then some c else none
  match s.thread? t with
  | some th => s.raiseTraps [(t, { Trap.of no.cause no.detail no.va with cls := cls })] th.pc th.instr
  | none => s

/-- Marks the line leased and gives its coherent content; `none` where it is not there to take (R111, R112). A line leased at its home
leaves every cache. -/
def State.takeLease (s : State) (core : Nat) (r : LeaseRec) : Option (State × Line) :=
  if r.atHome then
    (s.ensure r.slot r.pin).map (fun p =>
      let (s, d) := p.1.invalidate r.slot
      let v := { p.2 with st := .I, owner := 0, sharers := [], remote := false, leased := true }
      let v := match d with | some l => { v with line := l, vdirty := true, flips := [] } | none => v
      (s.putVl v, v.line))
  else
    match (s.copy core r.slot).map s.checkCopy with
    | some (s, some c) => some (s.putCopy { c with leased := true }, c.line)
    | _ => none

/-- LEASE_GRANT (R111): the copy is marked leased, the image is taken, the countdown starts, and the thread goes on; until then
the line is asked for again. -/
def execLeaseGrant (t : TRef) (s : State) : Host.Outcome State Fault Refusal :=
  let core := s.coreOf t.team
  match (s.thread? t).bind (fun th => th.leases.find? (fun r => !r.granted)) with
  | none => .next s
  | some r => match s.leaseBar r.slot with
    | some c => .next (s.refuseLease t r c)
    | none =>
    if !s.leaseReady core r then
      let ask : Instr := .homeRdx core { slot := r.slot, pin := r.pin }
      let asked := r.atHome || s.agenda.contains ask || s.busy r.slot
      .next (s.later ((if asked then [] else [ask]) ++ [.leaseGrant t]))
    else match s.takeLease core r with
    | none => .next (s.later [.leaseGrant t])
    | some (s, l) =>
      let s := s.modThread t (fun th => { th with leases := th.leases.map (fun q => if q = r then { q with image := l, granted := true } else q) })
      .next (s.release t)

/-- LEASE_EXPIRY (R331): the lease becomes invalid, and the probes are answered from the copy as it was before. -/
def execLeaseExpiry (t : TRef) (line : Nat) (s : State) : Host.Outcome State Fault Refusal :=
  match s.leaseOf t line with
  | none => .next s
  | some r =>
    if !r.valid || r.count != 0 then .next s
    else
      let s := s.dropLease t r
      .next (s.modThread t (fun th => { th with leases := th.leases.map (fun q => if q = r then { q with valid := false } else q) }))

/-- Commits or discards a lease (R333): the predicate, the image, the record. A commit clears the line's poison (R394). -/
def endLease (o : Opnd) (s : State) (x : Exec) (r : LeaseRec) : State :=
  let s := if r.valid then
      let image : Line := { r.image with poison := false }
      let s := (s.irrevocable x.t.team).noteWrite r.slot
      if r.atHome then s.endLeaseHome r.slot (some (image, r.elig)) else s.endLeaseCopy (s.coreOf x.t.team) r.slot (some (image, r.elig))
    else s
  let s := x.setPred s (predNum o.d) (if r.valid then .p else .m)
  s.modThread x.t (fun th => { th with leases := th.leases.filter (fun q => q.vline != r.vline) })

/-- UNLEASE (R333). -/
def bodyUnlease (o : Opnd) : Body := underMode notDet (eachExec (fun e x =>
  let va := x.reg e.s o.a 0
  match e.s.leaseOf x.t (va.num / 81) with
  | none => { e with s := x.setPred e.s (predNum o.d) .z }
  | some _ => match e.s.findSync x.t.team .readWrite false va with
    | (s, .error k) => { e with s := s }.stop x k
    | (s, .ok _) => match (if o.f = -1 then s.releaseExec x o.x else (s, true)) with
      | (s, false) => { e with s := s, stay := e.stay ++ [x] }
      | (s, true) => match s.leaseOf x.t (va.num / 81) with
        | some r => { e with s := endLease o s x r }
        | none => { e with s := s }))
/-- UNLEASE: its execution. -/
def execUnlease (o : Opnd) (s : State) := perform (.unlease o) o { d := .p, a := .v } (bodyUnlease o) s

/-! ### Publication and fences (R324, R325) -/

/-- FENCE (R324): its release part is the release step; loads are performed in program order, so an acquire has nothing left
to hold back (log entry 4). -/
def bodyFence (o : Opnd) : Body := fun s xs =>
  let r := s.releaseAll (o.f == -1 || o.f == 2) o.x xs
  { Eff.of r.1 with stay := r.2.2 }
/-- FENCE: its execution. -/
def execFence (o : Opnd) (s : State) := perform (.fence o) o {} (bodyFence o) s

/-- WACK (R324). -/
def bodyWack : Body := eachExec (fun e x =>
  if (e.s.thread? x.t).any (fun th => th.unackPub != 0 || th.unackSyn != 0) then
    { e with s := e.s.setRun x.t .ackAll, stay := e.stay ++ [x] }
  else e)
/-- WACK: its execution. -/
def execWack (o : Opnd) (s : State) := perform (.wack o) o { guard := false } bodyWack s

/-- PUBLISH (R325): under FLOW the thread's entries are sent, and it blocks until they are acknowledged. -/
def bodyPublish (words : List Word) : Body := eachExec (fun e x =>
  let n := x.t.team
  if e.s.det n then e
  else if !e.s.hasEntries x.t then e
  else
    let s := (e.s.irrevocable n).modThread x.t (fun th => { th with run := .ackPub, instr := words })
    { e with s := s.startPublication n (.thread x.t.num) (.thread x.t), stay := e.stay ++ [x] })
/-- PUBLISH: its execution. -/
def execPublish (o : Opnd) (s : State) :=
  perform (.publish o) o { guard := false } (bodyPublish ((encode (.publish o)).getD [])) s

/-- PUBLICATION (R306): a set of entries is sent. -/
def execPublication (team : Nat) (set : PubSet) (waiter : PubWaiter) (s : State) : Host.Outcome State Fault Refusal :=
  .next (s.startPublication team set waiter)
/-- PUBLICATION_ACK (R306). -/
def execPublicationAck (team pub : Nat) (reply : LineReply) (s : State) : Host.Outcome State Fault Refusal :=
  .next (s.ackPub team pub reply.vline reply.no)

/-! ### Barriers (R326–R328) -/

/-- Threads arrive at a barrier and wait (R326–R328). -/
def arriveBody (r : Run) (words : List Word) : Body := fun s xs =>
  let s := xs.foldl (fun s x => s.modThread x.t (fun th => { th with run := r, instr := words })) s
  let s := (distinct (xs.map (fun x => x.t.team))).foldl (fun s n => s.settleBarrier n r) s
  { Eff.of s with stay := xs }

/-- The rules of BAR's fields. -/
def barForm (o : Opnd) : Form := { c := .i, guard := false, extra := 0 ≤ o.c }
/-- BAR (R326). -/
def execBar (o : Opnd) (s : State) :=
  perform (.bar o) o (barForm o) (arriveBody (.bar o.c.toNat) ((encode (.bar o)).getD [])) s
/-- CBAR (R327). -/
def execCbar (o : Opnd) (s : State) := perform (.cbar o) o { guard := false } (arriveBody .cbar ((encode (.cbar o)).getD [])) s
/-- GPHASE (R328); outside a cooperative grid it is a mode violation (R329). -/
def bodyGphase (words : List Word) : Body := underMode (fun s x => !s.coop x.t.team) (arriveBody .gphase words)
/-- GPHASE: its execution. -/
def execGphase (o : Opnd) (s : State) := perform (.gphase o) o { guard := false } (bodyGphase ((encode (.gphase o)).getD [])) s

/-- Every thread at a barrier of the teams goes on; BAR and GPHASE open a shadow interval (R326–R328, R390). -/
def State.passBarrier (s : State) (teams : List Nat) (r : Run) (interval : Bool) : State :=
  match barCode r with
  | none => s
  | some (code, _) =>
    let l := ((teams.map s.liveThreads).flatten).filter (fun p => p.2.run == r)
    let s := l.foldl (fun s p => s.release p.1) s
    let s := teams.foldl (fun s n => s.modTeam n (fun t => { t with closing := t.closing.filter (· != code) })) s
    if interval then teams.foldl (fun s n => s.openInterval n) s else s

/-- A publication that teams sent for a barrier is still unacknowledged. -/
def State.pubWaits (s : State) (teams : List Nat) (w : PubWaiter) : Bool :=
  s.teams.any (fun t => teams.contains t.num && t.pubs.any (fun p => p.waiter == w))

/-- A barrier completes once every live thread of its scope has arrived and every publication for it is acknowledged: the
teams, where it does. -/
def State.barrierDone (s : State) (n : Nat) (r : Run) : Option (List Nat) :=
  match barCode r with
  | none => none
  | some (code, w) =>
    let teams := s.scopeTeams n r
    let sent := (s.det n && r != .gphase) || teams.all (fun m => (s.team? m).any (fun t => t.closing.contains code))
    if s.allAt teams r && sent && !s.pubWaits teams w then some teams else none

/-- BARRIER_COMPLETE (R326). -/
def execBarrierComplete (team bar : Nat) (s : State) : Host.Outcome State Fault Refusal :=
  match s.barrierDone team (.bar bar) with
  | some teams => .next (s.passBarrier teams (.bar bar) true)
  | none => .next s
/-- CBAR_COMPLETE (R327): cabinet accesses are performed as they issue, so none is outstanding. -/
def execCbarComplete (grid crew : Nat) (s : State) : Host.Outcome State Fault Refusal :=
  match s.teams.find? (fun t => t.grid == grid && t.crew == crew) with
  | none => .next s
  | some t => match s.barrierDone t.num .cbar with
    | some teams => .next (s.passBarrier teams .cbar false)
    | none => .next s
/-- A grid's merge has been made and all its writes are acknowledged (R328, R335). -/
def State.merged (s : State) (g : Nat) : Bool :=
  (s.grid? g).any (fun x => !x.merging && x.unack == 0 && x.deferred.isEmpty)
/-- GPHASE_COMPLETE (R328). -/
def execGphaseComplete (grid : Nat) (s : State) : Host.Outcome State Fault Refusal :=
  match s.teams.find? (fun t => t.grid == grid) with
  | none => .next s
  | some t =>
    if s.det t.num && !s.merged grid then .next s
    else match s.barrierDone t.num .gphase with
      | some teams => .next (s.passBarrier teams .gphase true)
      | none => .next s

end Sys2Proof.Machine
end

