-- ==== Sys2Proof/Machine/Ctl.lean ====
section
/-! DEFINITION. The control words (R378, R402, R445) with what their writes do: graph slots (R354–R361), shootdowns (R83), frame
commands (R397), measurements and reports (R453–R456). -/

namespace Sys2Proof.Machine

/-! ### Graph slots (R354–R361) -/

/-- The running partition that holds a graph slot (R457, R458); log entry 53 where none does. -/
def State.partOfSlot (s : State) (g : Nat) : Nat :=
  ((List.range 9).find? (fun p => field (s.partWord p 0) 1 0 == 1 && trit (s.partWord p 10) g == 1)).getD noPart

/-- STATE of a graph slot. -/
def State.graphState (s : State) (g : Nat) : Int := s.cwInt (731 + 3 * g)

/-- A graph slot in use. -/
def State.graph? (s : State) (g : Nat) : Option Graph := s.graphs.find? (fun x => x.slot == g)

/-- Changes a graph slot. -/
def State.modGraph (s : State) (g : Nat) (f : Graph → Graph) : State :=
  { s with graphs := s.graphs.map (fun x => if x.slot = g then f x else x) }

/-- The physical address of a node (R354). -/
def State.nodeAddr (s : State) (g i : Nat) : Nat := (s.cwInt (729 + 3 * g)).toNat + 81 * i

/-- The walker's read of a line at a physical address (R361): the line, or nothing where it lies beyond the populated slots, in a retired
frame or a B-frame, or is poisoned; the class of such an address is raised. Where the home is busy the line's present value is
taken, and what its reading shows is raised all the same. -/
def State.walkerRead (s : State) (slot : Nat) : State × Option (List Word) :=
  match s.physWhy slot with
  | some c => (s.raise (Event.phys c 652 (81 * slot)), none)
  | none =>
    if s.isB slot then (s, none)
    else
      let (s, l) := (s.homeRead slot).getD (s.sawLine slot, s.lineNow slot)
      (s, if l.poison then none else some l.w)

/-- The words of a running node, as read at its release (R355). -/
def State.nodeWords (s : State) (g i : Nat) : List Word := ((s.graph? g).bind (fun x => assocGet x.lines i)).getD []

/-- A physical tryte address that is line-aligned. -/
def physLine (x : Int) : Bool := 0 ≤ x && x % 81 == 0

/-- The words of a list from `i` on are zero. -/
def zeroFrom (l : List Word) (i : Nat) : Bool := (l.drop i).all (· == .zero)

/-- The words of a grid node are in their ranges (R356, R357, R358). -/
def gridNodeOk (l : List Word) : Bool :=
  let g := intAt l
  let inR := fun (i : Nat) (lo hi : Int) => lo ≤ g i && g i ≤ hi
  zeroFrom l 23 && (wordAt l 22 == .zero || (wordAt l 22).aligned) && physLine (g 21) && (wordAt l 20).lineAligned
  && inR 19 1 9 && inR 18 (-4) 4 && field (g 17) 26 5 == 0 && trit (g 17) 0 != 0 && trit (g 17) 1 != 0 && trit (g 17) 2 != 0
  && trit (g 17) 4 != 0 && trit (g 17) 3 != -1 && physLine (g 16) && inR 15 1 6561 && inR 14 0 8 && inR 13 0 81 && inR 12 0 9
  && inR 11 0 2186 && inR 10 9 243 && g 10 % 9 == 0 && inR 9 1 27 && inR 8 1 1594323 && inR 7 1 1594323 && inR 6 1 1594323
  && (wordAt l 5).num % 27 == 0

/-- The words of a node that is no grid node are in their ranges (R358). -/
def otherNodeOk (l : List Word) : Bool :=
  let k := intAt l 0
  let g := intAt l
  if k = 2 then (wordAt l 5).lineAligned && (wordAt l 6).lineAligned && 1 ≤ g 7 && g 7 ≤ 1594323 && physLine (g 8) && zeroFrom l 9
  else if k = 3 then physLine (g 5) && [1, 2, 3, 4, -1, -2].contains (g 6) && physLine (g 7) && zeroFrom l 8
  else if k = 4 ∨ k = -1 then (wordAt l 5).aligned && g 6 == 0 && physLine (g 7) && zeroFrom l 8
  else if k = -2 then
    (wordAt l 5).aligned && physLine (g 7) && [1, -1, 2, -2, 3, -3].contains (g 8) && zeroFrom l 9
  else if k = -3 then (wordAt l 5).aligned && physLine (g 7) && -1 ≤ g 8 && g 8 ≤ 728 && zeroFrom l 9
  else k == -4 && zeroFrom l 5

/-- A node holds no reserved value and no field beyond its limits (R355–R358, R361). -/
def nodeOk (nodes : Int) (l : List Word) : Bool :=
  ([1, 2, 3].all (fun i => -1 ≤ intAt l i && intAt l i < nodes)) && 1 ≤ intAt l 4 && intAt l 4 ≤ 27
  && (if intAt l 0 = 1 then gridNodeOk l else otherNodeOk l)

/-- A graph faults (R361): no further node is released; nodes that run complete. The event names the slot in its address word
and the node in its detail (log entry 21). -/
def State.faultGraph (s : State) (g : Nat) (node : Int) : State :=
  if s.graphState g = -1 then s
  else
    let s := s.setCwInt (731 + 3 * g) (-1)
    let s := s.modGraph g (fun x => { x with counts := [], pending := [], ending := false, old := x.running })
    s.raise { Event.plain 18 652 with addr := .ofInt g, detail := node }

/-- The step of a node's kind (R355). -/
def nodeStep (g i : Nat) (k : Int) : Instr :=
  if k = 1 then .gridNode g i else if k = 2 then .copyNode g i else if k = 3 then .collectiveNode g i
  else if k = 4 then .conditionNode g i else if k = -1 then .whileNode g i else if k = -2 then .waitWordNode g i
  else if k = -3 then .signalNode g i else .endNode g i

/-- Releases a node (R359): while its previous instance runs, it waits; a node that holds a reserved value faults the graph,
and so does one whose line cannot be read (log entry 21). The run ends with the release of an end node. -/
def State.releaseNode (s : State) (g i : Nat) : State :=
  match s.graph? g with
  | none => s
  | some x =>
    if s.graphState g ≠ 1 ∨ x.ending then s
    else if x.running.contains i then s.modGraph g (fun x => { x with pending := x.pending ++ [i] })
    else
      match s.walkerRead (s.nodeAddr g i / 81) with
      | (s, none) => s.faultGraph g i
      | (s, some l) =>
        if !nodeOk (s.cwInt (730 + 3 * g)) l then s.faultGraph g i
        else
          let k := s.nrel
          (({ s with nrel := k + 1 } : State).modGraph g (fun x => { x with
            running := x.running ++ [i], lines := natPut x.lines i l, rels := natPut x.rels i k, ending := intAt l 0 == -4 })).later
              [nodeStep g i (intAt l 0)]

/-- A write of +1 to STATE (R354). -/
def State.armGraph (s : State) (g : Nat) : State :=
  if s.graphState g = 1 then s
  else
    let old := (s.graph? g).getD { slot := g, counts := [], running := [], pending := [], ending := false, work := [], watch := [] }
    let x := { old with counts := [], pending := [], ending := false, old := old.running }
    let s : State := { s.setCwInt (731 + 3 * g) 1 with graphs := insertBy (fun a b => a.slot ≤ b.slot) x (s.graphs.filter (fun y => y.slot != g)) }
    let base := s.cwInt (729 + 3 * g)
    let nodes := s.cwInt (730 + 3 * g)
    if base < 0 ∨ base % 81 ≠ 0 ∨ nodes < 1 ∨ 6561 < nodes then s.faultGraph g (-1) else s.releaseNode g 0

/-- A write of 0 to STATE (R354): nodes that run complete, and no further node is released. -/
def State.emptyGraph (s : State) (g : Nat) : State :=
  (s.setCwInt (731 + 3 * g) 0).modGraph g (fun x => { x with counts := [], pending := [], ending := false, old := x.running })

/-! ### Shootdowns (R83) -/

/-- The address-space records that a shootdown names: one, or every one that a context or a cache holds (R83). -/
def State.shootSpaces (s : State) (asrec : Nat) (kind : Int) : List Nat :=
  if kind ≠ 3 then [asrec]
  else distinct (s.grids.map (fun g => (intAt g.node 21).toNat) ++ ((s.dies.map (fun d => d.tlb.map (·.asrec))).flatten)
    ++ ((s.dies.map (fun d => d.wcache.map (·.asrec))).flatten) ++ ((s.cores.map (fun c => c.tlb.map (·.asrec))).flatten))

/-- A cached page of a space, or a virtual line, is named by a shootdown. -/
def shootHits (spaces : List Nat) (kind : Int) (page : Word) (asrec lo span : Nat) : Bool :=
  spaces.contains asrec && (kind != 1 || (lo < (page.num / 2187 + 1) * 2187 && page.num / 2187 * 2187 < lo + span))

/-- Marks the escrow entries in the named pages stale (R83). -/
def staleLines (hit : Nat → Bool) (l : List ELine) : List ELine :=
  l.map (fun e => if hit (81 * e.vline) then { e with words := e.words.map (fun w => { w with stale := true }) } else e)

/-- Starts a shootdown (R83, steps 1 to 3): GEN rises, caches lose the named pages and their lines their pins (R93), escrow entries in
them become stale, wherever they are held, and the writes on their way to them are noted. The state and its number, or nothing
where a record's home is busy. -/
def State.startShoot (s : State) (asrec : Nat) (kind : Int) (page : Word) (by_ : Option TRef) : Option (State × Nat) :=
  let spaces := s.shootSpaces asrec kind
  let bumped := spaces.foldl (fun (o : Option State) a => o.bind (fun s =>
    (s.homeWrite (a / 81) (fun l => { l with w := setNth l.w 3 ((wordAt l.w 3).add 1) }) (some false)).map (·.1))) (some s)
  bumped.map (fun s =>
    let keep := fun (e : TlbE) => !shootHits spaces kind page e.asrec (e.page * pageSpan e.level) (pageSpan e.level)
    let keepW := fun (e : WcE) => !shootHits spaces kind page e.asrec (e.page * pageSpan e.level) (pageSpan e.level)
    let keepI := fun (b : ILine) => !shootHits spaces kind page b.asrec (81 * b.vline) 81
    let recOf := fun (g : Nat) => match s.grid? g with | some x => (intAt x.node 21).toNat | none => 0
    let hit := fun (gs : List Nat) (va : Word) => gs.any (fun g => shootHits spaces kind page (recOf g) (va.num / 81 * 81) 81)
    let stale := fun (g : Nat) => staleLines (fun lo => hit [g] (.ofNum lo))
    let unplaced := fun (g : Nat) (l : List Part) => l.map (fun p => if hit [g] p.va then { p with pa := none } else p)
    let body := fun (g : Nat) (b : TeamBody) => { b with escrow := stale g b.escrow, parts := unplaced g b.parts }
    let team := fun (t : Team) => { t with body := body t.grid t.body, opened := t.opened.map (body t.grid) }
    let leased := (s.teams.map (fun t => ((s.threadsOf t.num).map (fun p =>
      (p.2.leases.filter (fun r => (r.valid || !r.granted) && hit [t.grid] (lineVa r.vline 0))).map (fun r => (p.1, r.vline)))).flatten)).flatten
    let id := s.nshoot
    let gen := intAt (s.lineNow (asrec / 81)).w 3
    let mine := fun (r : HwReq) => match r.src with
      | .sts t _ => hit ((s.team? t.team).map (·.grid)).toList r.va
      | .red ts => hit ((ts.filterMap (fun t => s.team? t.team)).map (·.grid)) r.va
      | .pub n _ _ => hit ((s.team? n).map (·.grid)).toList r.va
      | .merge g => hit [g] r.va
      | _ => false
    ({ s with
        cores := s.cores.map (fun c => { c with tlb := c.tlb.filter keep, icache := c.icache.filter keepI }),
        dies := s.dies.map (fun d => { d with tlb := d.tlb.filter keep, wcache := d.wcache.filter keepW }),
        vlines := s.vlines.map (fun v => { v with pin := v.pin.filter (fun p => !shootHits spaces kind page p.1 (81 * p.2) 81) }),
        teams := s.teams.map team,
        saved := s.saved.map (fun v => { v with team := team v.team }),
        grids := s.grids.map (fun g => { g with deferred := g.deferred.map (fun d => { d with escrow := stale g.num d.escrow, parts := unplaced g.num d.parts }) }),
        shoots := s.shoots ++ [{ id := id, asrec := asrec, kind := kind, page := page, by_ := by_, gen := gen,
                                 waits := s.pendingHw.filter mine, leases := leased }],
        nshoot := id + 1 }, id))

/-- SDREC names a record: a line-aligned physical address of a T-slot (R82, R378). -/
def State.recordOk (s : State) (x : Int) : Bool := physLine x && x / 81 < slotCount && s.isT (x / 81).toNat

/-- A shootdown through SDOP (R378): refused where SDREC names no valid record. -/
def State.sdopStart (s : State) (kind : Int) : State :=
  let r := s.cwInt 820
  if !s.recordOk r then (s.setCwInt 823 (-1)).setCwInt 822 0
  else match s.startShoot r.toNat kind (s.cw 821) none with
    | some (s, _) => s
    | none => s.later [if kind = 1 then .sdopPage else if kind = 2 then .sdopSpace else .sdopEverySpace]

/-! ### Measurements and reports (R453–R456) -/

/-- The bytes of 32-bit items, most significant first (R445). -/
def State.itemBytes (s : State) (sel n : Nat) : List (BitVec 8) :=
  ((List.range n).map (fun i => (bigEndian 4 (s.cwInt (sel + i)).toNat).map (BitVec.ofNat 8))).flatten

/-- Writes bytes as 32-bit items. -/
def State.setItems (s : State) (sel : Nat) (b : List (BitVec 8)) : State :=
  (List.range (b.length / 4)).foldl (fun s i =>
    s.setCwInt (sel + i) (ofBigEndian (((b.drop (4 * i)).take 4).map BitVec.toNat))) s

/-- Extends a measurement with a digest (R453). -/
def State.extend (s : State) (n : Nat) (d : List (BitVec 8)) : State :=
  s.setItems (19690 + 8 * n) (sha256 (s.itemBytes (19690 + 8 * n) 8 ++ d))

/-- A write of +1 to EXTGO (R453). -/
def State.extGo (s : State) : State :=
  let n := s.cwInt 19800
  if 4 ≤ n ∧ n ≤ 8 then s.extend n.toNat (s.itemBytes 19801 8) else s

/-- Little-endian bytes of a number. -/
def leBytes (n : Nat) (x : Int) : List (BitVec 8) :=
  (littleEndian n (x % ((256 ^ n : Nat) : Int)).toNat).map (BitVec.ofNat 8)

/-- Bytes 0 … 511 of a report (R456). -/
def State.reportBody (s : State) : List (BitVec 8) :=
  [0x4E, 0x54, 0x44, 0x41] ++ leBytes 2 1 ++ leBytes 2 729 ++ leBytes 2 Config.stepping ++ leBytes 2 (s.cwInt 19684)
  ++ leBytes 4 (s.cwInt 19685) ++ sha256 s.nv.devpub ++ s.itemBytes 19780 8
  ++ ((List.range 9).map (fun n => s.itemBytes (19690 + 8 * n) 8)).flatten
  ++ leBytes 8 (s.stampOf 0) ++ leBytes 8 (s.cwInt 19791 + 1) ++ List.replicate 128 0

/-- A write of +1 to ATTGO (R455); `p` is the partition of a writer that is a context. The stamp is partition 0's
(log entry 22). -/
def State.attGo (s : State) (p : Option Nat) : State :=
  if s.cwInt 19790 = 1 then s
  else
    let a := s.cwInt 19788
    let lcs := s.cwInt 19684
    let mine := fun (f : Nat) => match p with | none => true | some q => s.partOfFrame f == some q
    let slots := (List.range 131).map (fun i => a.toNat + i)
    if lcs = -1 ∨ lcs = 2 ∨ a < 0 ∨ !(slots.all (fun x => x < slotCount && s.isB x && mine (x / 27))) then s.setCwInt 19790 (-1)
    else
      let body := s.reportBody
      let s := (s.setCwInt 19790 1).setCwInt 19791 (s.cwInt 19791 + 1)
      { s with report := some { slot := a.toNat, body := body } }.later [.attestationReportDone]

/-! ### Reading and writing the words -/

/-- Lines of the save pool in use (R378). -/
def State.saveUsed (s : State) : Nat := (s.saved.map (·.lines)).sum

/-- A word of system access (R378, R402, R445, R453). -/
def sysWord (sel : Int) : Bool :=
  (729 ≤ sel && sel ≤ 811) || (820 ≤ sel && sel ≤ 822) || sel == 824 || sel == 6563 || sel == 6564
  || (6600 ≤ sel && sel ≤ 6605) || (6650 ≤ sel && sel ≤ 6653) || (7291 ≤ sel && sel ≤ 7316)
  || sel == 20000 || sel == 20014 || (19800 ≤ sel && sel ≤ 19809)

/-- A word that a write stores as it is, with the range beyond which the write is ignored (R378, R402, R445). -/
def plainWord (s : State) (sel : Int) (v : Int) : Bool :=
  if 729 ≤ sel ∧ sel ≤ 809 then (sel - 729) % 3 != 2 && s.graphState ((sel - 729) / 3).toNat == 0
  else if sel = 810 ∨ sel = 811 then s.saveUsed == 0
  else if sel = 820 ∨ sel = 821 then s.cwInt 822 == 0
  else if sel = 824 then -1 ≤ v && v ≤ 728
  else if sel = 6563 ∨ sel = 6564 then true
  else if 6600 ≤ sel ∧ sel ≤ 6604 then sel != 6602
  else if sel = 6650 ∨ sel = 6653 then true
  else if 7291 ≤ sel ∧ sel ≤ 7316 then true
  else if 19780 ≤ sel ∧ sel ≤ 19787 then 0 ≤ v && v < 4294967296
  else if sel = 19788 then true
  else if sel = 19800 then 4 ≤ v && v ≤ 8
  else if 19801 ≤ sel ∧ sel ≤ 19808 then 0 ≤ v && v < 4294967296
  else if sel = 20000 then 2200 ≤ v && v ≤ 4500
  else if sel = 20014 then 85 ≤ v && v ≤ 105
  else false

/-- Stores a write to a word that has no behaviour of its own, or ignores it (R378). -/
def State.storeCw (s : State) (sel : Int) (v : Word) : State := if plainWord s sel v.val then s.setCw sel.toNat v else s

/-- The clearing house's command steps (R397). -/
def chStep (op : Int) : Option Instr :=
  if op = 1 then some .chZeroT else if op = 2 then some .chZeroB else if op = 3 then some .chRetire
  else if op = 4 then some .chScrub else if op = -1 then some .chScore else if op = -2 then some .chClear else none

/-- A write to a word of device scope (R378), by a context of partition `p` or by a host. -/
def State.writeCw (s : State) (sel : Int) (v : Word) (p : Option Nat) : State :=
  let x := v.val
  if 729 ≤ sel ∧ sel ≤ 809 ∧ (sel - 729) % 3 = 2 then
    let g := ((sel - 729) / 3).toNat
    if x = 1 then s.armGraph g else if x = 0 then s.emptyGraph g else s
  else if sel = 822 then
    if s.cwInt 822 = 0 ∧ (x = 1 ∨ x = 2 ∨ x = 3) then
      (s.setCw 822 v).later [if x = 1 then .sdopPage else if x = 2 then .sdopSpace else .sdopEverySpace]
    else s
  else if sel = 6651 then
    match chStep x with
    | some i => if s.cwInt 6651 = 0 then (s.setCw 6651 v).later [i] else s
    | none => s
  else if sel = 19789 then (if x = 1 then s.attGo p else s)
  else if sel = 19809 then (if x = 1 then s.extGo else s)
  else s.storeCw sel v

/-- Reads a word of device scope (R378, R402, R445). -/
def State.readCw (s : State) (sel : Int) : Word :=
  if sel < 0 then .zero
  else if sel = 812 then .ofInt s.saveUsed
  else if sel = 6570 ∨ plainWord s sel 0 ∨ sysWord sel ∨ sel = 823 ∨ sel = 19788 ∨ (19683 ≤ sel ∧ sel ≤ 19761)
      ∨ (19762 ≤ sel ∧ sel ≤ 19787) ∨ sel = 19790 ∨ sel = 19791 ∨ (20000 ≤ sel ∧ sel ≤ 20014) ∨ (21000 ≤ sel ∧ sel < 21108) then
    (if sel = 19789 ∨ sel = 19809 then .zero else s.cw sel.toNat)
  else .zero

/-- The device has booted: until then a write at BAR 4 is answered as unsupported, with no effect (R448, R449). -/
def State.ready (s : State) : Bool := s.cwInt 19683 == 1

/-- The requester to which the refusal of a write at BAR 4 goes: the row of such a write names none (DESIGN CHOICE, log entry 22). -/
def barWriter : Nat := 0

/-- A write to a word, where the device has booted; until then it is refused (R449). -/
def State.whenReady (s : State) (sel : Int) (f : State → State) : Host.Outcome State Fault Refusal :=
  .next (if s.ready then f s else s.hostError barWriter (8 * sel).toNat false)

/-- A selector that the tables of the spec give (R378, R402, R445). -/
def listedWord (sel : Int) : Bool :=
  sel == 0 || sel == 1 || sel == 81 || (729 ≤ sel && sel ≤ 812) || (820 ≤ sel && sel ≤ 824) || (6561 ≤ sel && sel ≤ 6653)
  || (7291 ≤ sel && sel ≤ 7316) || (19683 ≤ sel && sel ≤ 20014) || (21000 ≤ sel && sel < 21108)

/-- A stamp control word (R399). DESIGN CHOICE, log entry 22: no table gives it a selector. -/
def stampWord (sel : Int) : Bool := !listedWord sel && Config.stampWord sel

/-- CONTROL_WORD_WRITE (R378): a write, as a host makes it at BAR 4, to a word that has no behaviour of its own. One of a stamp control
word draws an error response, and its address is logged (R399). -/
def execControlWordWrite (sel : Int) (value : Word) (s : State) : Host.Outcome State Fault Refusal :=
  s.whenReady sel (fun s => if stampWord sel then s.hostError barWriter (8 * sel).toNat true else s.storeCw sel value)
/-- EXTGO (R453). -/
def execExtgo (s : State) : Host.Outcome State Fault Refusal := s.whenReady 19809 State.extGo
/-- ATTGO (R455). -/
def execAttgo (writer : Option Nat) (s : State) : Host.Outcome State Fault Refusal := s.whenReady 19789 (fun s => s.attGo writer)
/-- GRAPH_ARM (R354). -/
def execGraphArm (slot : Nat) (s : State) : Host.Outcome State Fault Refusal :=
  s.whenReady (731 + 3 * (slot : Int)) (fun s => if slot < 27 then s.armGraph slot else s)
/-- GRAPH_EMPTY (R354). -/
def execGraphEmpty (slot : Nat) (s : State) : Host.Outcome State Fault Refusal :=
  s.whenReady (731 + 3 * (slot : Int)) (fun s => if slot < 27 then s.emptyGraph slot else s)
/-- A write of an operation to SDOP (R378): it is ignored while one runs; SDOP shows the operation until it has completed. -/
def State.sdopWrite (s : State) (kind : Int) : State :=
  if s.cwInt 822 = 0 ∨ (s.cwInt 822 = kind ∧ !s.shoots.any (fun x => x.by_.isNone)) then (s.setCwInt 822 kind).sdopStart kind else s

/-- SDOP_PAGE (R378). -/
def execSdopPage (s : State) : Host.Outcome State Fault Refusal := s.whenReady 822 (fun s => s.sdopWrite 1)
/-- SDOP_SPACE (R378). -/
def execSdopSpace (s : State) : Host.Outcome State Fault Refusal := s.whenReady 822 (fun s => s.sdopWrite 2)
/-- SDOP_EVERY_SPACE (R378). -/
def execSdopEverySpace (s : State) : Host.Outcome State Fault Refusal := s.whenReady 822 (fun s => s.sdopWrite 3)

/-- SHOOTDOWN (R83): it starts, or is tried again while a record's home is busy. -/
def execShootdown (asrec : Nat) (kind : Int) (page : Word) (by_ : Option TRef) (s : State) : Host.Outcome State Fault Refusal :=
  match s.startShoot asrec kind page by_ with
  | some (s, _) => .next s
  | none => .next (s.later [.shootdown asrec kind page by_])

/-- A write to a named page under an older generation is not yet performed (R83): one on its way to its home, or one on the image of a
lease that may still commit. -/
def State.shootWaits (s : State) (x : Shoot) : Bool :=
  x.waits.any s.pendingHw.contains
  || x.leases.any (fun k => (s.thread? k.1).any (fun th => th.leases.any (fun r => r.vline == k.2 && (r.valid || !r.granted))))

/-- The squad or handler that a shootdown blocks goes on (R379). -/
def State.endShootWait (s : State) (id : Nat) (t : TRef) : State :=
  let s := (s.threadsOf t.team).foldl (fun s p => if p.2.run = .shoot id then s.release p.1 else s) s
  s.modHandler t.team (fun h => if h.run = .shoot id then { h with run := .ready, pc := h.pc.add 6 } else h)

/-- SHOOTDOWN_COMPLETE (R83): once its stores are acknowledged it completes and is reported; SDOP returns to 0, SDSTAT is +1, and
SDVEC's interrupt is sent (R378). -/
def execShootdownComplete (id : Nat) (s : State) : Host.Outcome State Fault Refusal :=
  match s.shoots.find? (fun x => x.id == id) with
  | none => .next s
  | some x =>
    if s.shootWaits x then .next s
    else
      let s := { s with shoots := s.shoots.filter (fun y => y.id != id) }
      match x.by_ with
      | some t => .next (s.endShootWait id t)
      | none =>
        let s := (s.setCwInt 822 0).setCwInt 823 1
        .next (if 0 ≤ s.cwInt 824 then { s with irqs := s.irqs ++ [(s.cwInt 824).toNat] } else s)

end Sys2Proof.Machine
end

