-- ==== Sys2Proof/Machine/System.lean ====
section
/-! DEFINITION. Software traps, the handler's instructions, control words, shootdowns and sleep (R374–R380). -/

namespace Sys2Proof.Machine

/-- The privilege trap (R369): 1 outside a handler, 2 at user level. -/
def privTrap (detail : Int) : Trap := Trap.of 17 detail .zero

/-- TRAP (R376). -/
def execTrap (o : Opnd) (s : State) :=
  perform (.trap o) o { c := .i } (eachExec (fun e x => e.stop x (.trap (Trap.of 16 o.c .zero)))) s

/-! ### TRET and TPC (R377) -/

/-- TRET: it waits for the queued results of the handler, then the trapped lanes exit or resume. -/
def bodyTret : Body := eachExec (fun e x =>
  match x.mode, (e.s.team? x.t.team).bind (·.handler) with
  | .han, some h =>
    let waits := (e.s.squad? x.t.team h.squad).any (fun q =>
      q.sfuq.any (fun f => f.k.any (·.1)) || q.kwait.any (·.1))
    if waits then { e with stay := e.stay ++ [x] } else { e with s := e.s.tret x.t.team h false, stay := e.stay ++ [x] }
  | _, _ => e.stop x (.trap (privTrap 1)))
/-- TRET: its execution. -/
def execTret (o : Opnd) (s : State) := perform (.tret o) o { guard := false } bodyTret s

/-- TPC on a lane of the frame: k(D) receives the lane's frame PC, and the frame changes by `f`; 0 and no change for a lane
outside MASK. -/
def tpcBody (o : Opnd) (f : Eff → Exec → Nat → Word → Eff) : Body := eachExec (fun e x =>
  match x.mode, (e.s.team? x.t.team).bind (·.handler) with
  | .han, some h =>
    let lane := (x.reg e.s o.a 0).val
    if 0 ≤ lane ∧ lane ≤ 26 ∧ h.ev.lanes.contains lane.toNat = true then
      let pc := e.s.cab x.t.team (-54 + lane)
      let e' := f e x lane.toNat pc
      { e' with s := x.set e'.s o.d 0 pc }
    else { e with s := x.set e.s o.d 0 .zero }
  | _, _ => e.stop x (.trap (privTrap 1)))

/-- Sets a lane's frame PC; a misaligned one is a handler fault. -/
def setFramePc (e : Eff) (x : Exec) (lane : Nat) (pc : Word) : Eff :=
  if pc.aligned then { e with s := e.s.setCab x.t.team (-54 + (lane : Int)) pc } else e.stop x (.trap (alignTrap pc))

/-- The rules of TPC's fields (R375). -/
def tpcForm (b : Bool) : Form := { d := .k, a := .k, b := if b then .k else .z, guard := false }
/-- TPC.SET. -/
def execTpcSet (o : Opnd) (s : State) :=
  perform (.tpcSet o) o (tpcForm true) (tpcBody o (fun e x l _ => setFramePc e x l (x.reg e.s o.b 0))) s
/-- TPC.ADV. -/
def execTpcAdv (o : Opnd) (s : State) :=
  perform (.tpcAdv o) o (tpcForm true) (tpcBody o (fun e x l pc => setFramePc e x l (pc.add (3 * (x.reg e.s o.b 0).val)))) s
/-- TPC.EXIT. -/
def execTpcExit (o : Opnd) (s : State) :=
  perform (.tpcExit o) o (tpcForm false) (tpcBody o (fun e x l _ =>
    let m := (e.s.cab x.t.team (-81 + 14)).val
    { e with s := e.s.setCab x.t.team (-81 + 14) (.ofInt (setField m l l 1)) })) s

/-! ### Control words (R378) -/

/-- The selector of CWGET and CWSET. -/
def selOf (o : Opnd) : Int := if o.len = 3 then o.w3.val else o.c + 121

/-- A team's shadow coverage holds (R390, R402). -/
def State.shadowOk (s : State) (n : Nat) : Bool := (s.team? n).any (·.covered)

/-- Reads a word for a context: those of its team and core, then those of the device. RFBD counts those of the write-backs since that are
held in base-delta form, a free choice (R146, log entry 30). -/
def State.contextWord (s : State) (n : Nat) (sel : Int) : State × Word :=
  if sel = 0 then (s, match s.team? n with | some t => t.tvec | none => .zero)
  else if sel = 1 then (s, match s.team? n with | some t => .ofInt (t.events.length : Int) | none => .zero)
  else if sel = 81 then
    let k := s.coreOf n
    let (s, d) := s.choose ((s.core k).wrote + 1)
    (s.modCore k (fun c => { c with rfbd := c.rfbd + d, wrote := 0 }), .ofInt (((s.core k).rfbd + d : Nat) : Int))
  else if sel = 6561 then (s, .ofInt (if s.shadowOk n then 1 else -1))
  else if sel = 6562 then (s, match s.team? n with | some t => .ofInt (t.rbcnt : Int) | none => .zero)
  else (s, s.readCw sel)

/-- A context may not name the word (R378). -/
def State.noAccess (s : State) (x : Exec) (sel : Int) : Bool := sysWord sel && !s.sysLevel x.t.team

/-- CWGET. -/
def execCwget (o : Opnd) (s : State) :=
  perform (.cwget o) o { d := .k, c := .i } (eachExec (fun e x =>
    if e.s.noAccess x (selOf o) then e.stop x (.trap (privTrap 2))
    else
      let (s, w) := e.s.contextWord x.t.team (selOf o)
      { e with s := x.set s o.d 0 w })) s

/-- CWSET: a misaligned TVEC is ignored. -/
def execCwset (o : Opnd) (s : State) :=
  perform (.cwset o) o { a := .k, c := .i } (eachExec (fun e x =>
    let v := x.reg e.s o.a 0
    let n := x.t.team
    if e.s.noAccess x (selOf o) then e.stop x (.trap (privTrap 2))
    else if selOf o = 0 then
      (if v = .zero ∨ v.aligned = true then { e with s := e.s.modTeam n (fun t => { t with tvec := v }) } else e)
    else { e with s := e.s.writeCw (selOf o) v (some (e.s.partOf n)) })) s

/-! ### TLBF (R379) -/

/-- TLBF: the shootdown starts, and the squad or the handler is blocked until it completes. -/
def tlbfBody (kind : Int) (page : State → Exec → Word) : Body := eachExec (fun e x =>
  let n := x.t.team
  if !e.s.sysLevel n then e.stop x (.trap (privTrap 2))
  else match e.s.startShoot (e.s.asrecOf n) kind (page e.s x) (some x.t) with
    | none => { e with stay := e.stay ++ [x] }
    | some (s, id) =>
      let s := match x.mode with
        | .han => s.modHandler n (fun h => { h with run := .shoot id })
        | _ => x.ts.foldl (fun s t => s.setRun t (.shoot id)) s
      { e with s := s.laterOnce (.shootdownComplete id), stay := e.stay ++ [x] })

/-- TLBF.PAGE. -/
def execTlbfPage (o : Opnd) (s : State) :=
  perform (.tlbfPage o) o { a := .k } (tlbfBody 1 (fun s x => x.reg s o.a 0)) s
/-- TLBF.AS. -/
def execTlbfAs (o : Opnd) (s : State) := perform (.tlbfAs o) o {} (tlbfBody 2 (fun _ _ => .zero)) s
/-- TLBF.ALL. -/
def execTlbfAll (o : Opnd) (s : State) := perform (.tlbfAll o) o {} (tlbfBody 3 (fun _ _ => .zero)) s

/-! ### SLEEP (R380) -/

/-- SLEEP: steps 2, 5 and 6 of R187, then the thread sleeps on the line until a cycle. -/
def bodySleep (o : Opnd) : Body := eachExec (fun e x =>
  let va := x.reg e.s o.a 0
  let limit := (x.reg e.s o.b 0).val
  if limit < 1 ∨ 14348907 < limit then e.stop x (.trap (Trap.of 1 5 .zero))
  else if !va.aligned then e.stop x (.trap (alignTrap va))
  else match e.s.translate (e.s.ctxOf x.t.team) va .read false with
    | (s, .error k) => { e with s := s }.stop x k
    | (s, .ok l) =>
      if (s.lineNow l.slot).poison then { e with s := s }.stop x (.trap (poisonTrap va))
      else { e with s := s.setRun x.t (.sleep l.slot (s.cycle + limit.toNat)), stay := e.stay ++ [x] })
/-- SLEEP: its execution. -/
def execSleep (o : Opnd) (s : State) := perform (.sleep o) o { a := .v, b := .v } (bodySleep o) s

/-- SLEEP_WAKE (R380): the thread goes on after its SLEEP. -/
def execSleepWake (t : TRef) (s : State) : Host.Outcome State Fault Refusal :=
  match s.thread? t with
  | some th => match th.run with
    | .sleep _ _ => .next (s.release t)
    | _ => .next s
  | none => .next s

end Sys2Proof.Machine
end

