-- ==== Sys2Proof/Machine/Engine.lean ====
section
/-! DEFINITION. What engine and matrix commands share: issue (R194, R201, R131), tickets and records (R134–R136, R201), the
scoreboard (R133), stops inside a command (R137, R370), WAIT and TKT (R202, R203). -/

namespace Sys2Proof.Machine

/-! ### Commands of a team -/

/-- A live command of a team. -/
def State.cmd? (s : State) (n seq : Nat) : Option Cmd :=
  (s.team? n).bind (fun t => t.body.cmds.find? (fun c => c.seq == seq))

/-- Changes a live command. -/
def State.modCmd (s : State) (n seq : Nat) (f : Cmd → Cmd) : State :=
  s.modBody n (fun b => { b with cmds := b.cmds.map (fun c => if c.seq = seq then f c else c) })

/-- The team thread that issued a command. -/
def Cmd.issuer (c : Cmd) (n : Nat) : TRef := TRef.ofNum n c.thread

/-- A command that has not yet ended. -/
def Cmd.live (c : Cmd) : Bool := c.status.isNone

/-- A new command of a lane: what is not given is as before its beginning. -/
def Cmd.fresh (i : Instr) (th : Nat) : Cmd :=
  { seq := 0, born := 0, instr := i, opa := .zero, opb := .zero, opb1 := .zero, opc := .zero, opc1 := .zero, desc := [], list := [],
    thread := th, ranges := [], locked := false, begun := false, done := 0, pieces := [], parked := false, fault := .zero,
    status := none, outstanding := 0 }

/-- The status with which a stop ends a command (R136, R304). -/
def stopStatus (t : Trap) : Nat :=
  if t.cause = 7 then 2 else if t.cause = 8 then 3 else if t.cause = 9 then 4 else if t.cause = 11 then 5 else 12

/-- Changes a live command of a saved team. -/
def State.modSavedCmd (s : State) (n seq : Nat) (f : Cmd → Cmd) : State :=
  { s with saved := s.saved.map (fun v => if v.team.num = n then
      { v with team := { v.team with body := { v.team.body with cmds := v.team.body.cmds.map (fun c => if c.seq = seq then f c else c) } } }
    else v) }

/-- A command ends with a status and a fault address; its completion is a step of its own (R135), which a saved team's command takes
when it is restored (R208). -/
def State.endCmd (s : State) (n seq st : Nat) (addr : Word) : State :=
  let f := fun (c : Cmd) => { c with status := some st, fault := addr, parked := false }
  ((s.modSavedCmd n seq f).modCmd n seq f).laterOnce (.engineCommandComplete n seq)

/-- A stop inside a command (R137, R370): a recoverable fault parks it with its progress, a busy line leaves it as it is, and
any other ends it. -/
def State.stopCmd (s : State) (n seq : Nat) (k : Stop) : State :=
  match k with
  | .trap t =>
    (s.raiseClass n t).endCmd n seq (stopStatus t) t.addr
  | .recov perm level va a =>
    (s.postFault (s.ctxOf n) perm level va a [.cmd n seq]).modCmd n seq (fun c => { c with parked := true, fault := va })
  | .busy => s

/-! ### Records (R201) -/

/-- A record that may be replaced. -/
def Rec.free (r : Rec) : Bool := r.status == 0 || r.delivered

/-- Keeps a record; beyond 243 the oldest that may be replaced goes. -/
def keepRec (l : List Rec) (r : Rec) : List Rec :=
  let l := l.filter (fun q => q.seq != r.seq) ++ [r]
  if l.length ≤ 243 then l
  else match l.findIdx? Rec.free with
    | some i => l.eraseIdx i
    | none => l

/-- A team's engine issue stalls: 243 records wait to be delivered. -/
def State.recsFull (s : State) (n : Nat) : Bool :=
  (s.team? n).any (fun t => 243 ≤ (t.body.recs.filter (fun r => !r.free)).length)

/-! ### Ranges and the scoreboard (R130–R133) -/

/-- The ranges of virtual lines that hold the trytes `lo` … `hi` − 1, numbered as R65 numbers them, modulo 3^27. -/
def globRanges (lo hi : Int) (write : Bool) : List Rng :=
  let m : Int := 7625597484987
  let a := lo / 81 * 81
  let b := (hi + 80) / 81 * 81
  if m ≤ b - a then [{ cab := none, lo := 0, hi := m, write := write }]
  else
    let a' := a % m
    let b' := a' + (b - a)
    if b' ≤ m then [{ cab := none, lo := a', hi := b', write := write }]
    else [{ cab := none, lo := a', hi := m, write := write }, { cab := none, lo := 0, hi := b' - m, write := write }]

/-- The cores whose range-lock tables a command takes an entry in: of each cabinet it touches, else of its own team (R131). -/
def State.lockCores (s : State) (n : Nat) (c : Cmd) : List Nat :=
  let l := distinct ((c.ranges.filterMap (·.cab)).map s.coreOf)
  if l.isEmpty then [s.coreOf n] else l

/-- The entries of a core's range-lock table in use. -/
def State.locksUsed (s : State) (core : Nat) : Nat :=
  (s.teams.map (fun t => (t.body.cmds.filter (fun c => c.locked && (s.lockCores t.num c).contains core)).length)).sum

/-- Range teller commands of a core that are not complete. -/
def State.tellersUsed (s : State) (core : Nat) : Nat :=
  (s.teams.map (fun t => if t.core = core then (t.body.cmds.filter (fun c => isRangeXf c.instr)).length else 0)).sum

/-- A copy command gathers by an index list (R126); a sparse MX.ISSUE has no global side. -/
def Cmd.gathers (c : Cmd) : Bool :=
  match c.instr with
  | .copyIn _ | .copyOut _ | .copyBin _ | .copyPeer _ => trit (intAt c.desc 10) 1 == 1
  | _ => false

/-- A gathering command writes its global side. -/
def Cmd.gatherWrites (c : Cmd) : Bool :=
  match c.instr with
  | .copyOut _ | .copyPeer _ => true
  | .copyBin _ => trit (intAt c.desc 10) 2 == -1
  | _ => false

/-- Two ranges of commands of two teams share a tryte: global ones where the teams' address space is one. -/
def State.rangesMeet (s : State) (n m : Nat) (a b : Rng) : Bool :=
  a.overlaps b && (a.cab.isSome || n == m || s.asrecOf n == s.asrecOf m)

/-- Two commands hold overlapping ranges of which one writes (R133); a gathering command's global side overlaps every global
range. -/
def State.cmdsMeet (s : State) (n m : Nat) (a b : Cmd) : Bool :=
  a.ranges.any (fun p => b.ranges.any (fun q => s.rangesMeet n m p q && (p.write || q.write)))
  || (a.gathers && b.ranges.any (fun q => q.cab.isNone && (a.gatherWrites || q.write)))
  || (b.gathers && a.ranges.any (fun p => p.cab.isNone && (b.gatherWrites || p.write)))
  || (a.gathers && b.gathers && (a.gatherWrites || b.gatherWrites))

/-- The scoreboard holds a command back: an earlier command of the core overlaps it and is not complete (R133). -/
def State.scoreboardWaits (s : State) (n : Nat) (c : Cmd) : Bool :=
  s.teams.any (fun t => t.core == s.coreOf n && t.body.cmds.any (fun d => d.born < c.born && s.cmdsMeet n t.num c d))

/-! ### Issue (R194) -/

/-- What the checks at issue decide for one lane (R462): a refusal, a command that is complete at once with a status, or a
command. -/
inductive Plan where
  | refuse (t : Trap)
  /-- the words that it reads at issue lie in a range teller command's range (R199) -/
  | hold
  | null (status : Nat)
  | go (c : Cmd)

/-- Draws a team's next SEQ (R134). -/
def State.takeSeq (s : State) (n : Nat) : State × Nat :=
  let k := match s.team? n with | some t => t.body.nseq | none => 0
  (s.modBody n (fun b => { b with nseq := (k + 1) % 387420489 }), k)

/-- The stall of a lane's command: no free range-lock entry, or no room for a range teller command (R131, R133). -/
def State.noEntry (s : State) (n : Nat) (c : Cmd) : Bool :=
  if isRangeXf c.instr then 27 ≤ s.tellersUsed (s.coreOf n)
  else c.locked && (s.lockCores n c).any (fun k => 81 ≤ s.locksUsed k)

/-- Enters a command: its ticket goes to D, `k` block steps on, and the scoreboard has it. -/
def State.enterCmd (s : State) (x : Exec) (o : Opnd) (k : Nat) (c : Cmd) : State :=
  let n := x.t.team
  let (s, seq) := s.takeSeq n
  let s := x.set s o.d k (s.ticket n seq)
  let s := s.modBody n (fun b => { b with cmds := b.cmds ++ [{ c with seq := seq, born := s.ncmd }] })
  ({ s with ncmd := s.ncmd + 1 } : State).laterOnce (.scoreboardStart n seq)

/-- A ticket that is already complete. -/
def State.enterNull (s : State) (x : Exec) (o : Opnd) (k status : Nat) : State :=
  let n := x.t.team
  let (s, seq) := s.takeSeq n
  let s := x.set s o.d k (s.ticket n seq)
  s.modBody n (fun b => { b with recs := keepRec b.recs { seq := seq, status := status, addr := .zero, count := 0, delivered := false } })

/-- What the issue of a lane's commands comes to. -/
inductive Issued where
  | done (s : State)
  | trap (s : State) (t : Trap)
  | wait (r : Run)

/-- The commands of one lane, one for each block step (R144, R194): `plan` reads registers in the state before them, and `post`
follows the entry of a command. A lane enters none of them until all can be entered. -/
def issueLane (o : Opnd) (plan : State → State → Exec → Nat → Plan) (post : State → Nat → Nat → State) (s0 : State) (x : Exec) :
    List Nat → State → Issued
  | [], s => .done s
  | k :: ks, s =>
    if s.recsFull x.t.team then .wait .ready
    else match plan s0 s x k with
      | .refuse t => .trap s t
      | .hold => .wait .ready
      | .null st => issueLane o plan post s0 x ks (s.enterNull x o k st)
      | .go c =>
        if s.noEntry x.t.team c then .wait .lock
        else
          let seq := match s.team? x.t.team with | some t => t.body.nseq | none => 0
          issueLane o plan post s0 x ks (post (s.enterCmd x o k c) x.t.team seq)

/-- Issue in lanes ascending (R194): a refusal traps its own lane; a lane that has to wait holds back the lanes after it. -/
def issueBody (o : Opnd) (plan : State → State → Exec → Nat → Plan) (post : State → Nat → Nat → State) : Body := fun s xs =>
  (xs.foldl (fun (p : Eff × Option Run) x =>
    let e := p.1
    let hold := fun (r : Run) => (({ e with s := e.s.setRun x.t r, stay := e.stay ++ [x] } : Eff), some r)
    match p.2 with
    | some r => hold r
    | none => match issueLane o plan post e.s x (blockSteps o) e.s with
      | .done s => ({ e with s := s }, none)
      | .trap s t => (({ e with s := s } : Eff).stop x (.trap t), none)
      | .wait r => hold r) (Eff.of s, none)).1

/-- The descriptor trap (R129, R369). -/
def descTrap (d : Int) : Trap := Trap.of 5 0 (.ofInt d)

/-- The line-aligned line of the team's cabinet that an engine instruction names by v(A) + 81 × C, or its address where the
line is misaligned or out of bounds (R125, R196, R206, R284); registers are read in `s0`. -/
def State.cabLine (s0 s : State) (x : Exec) (o : Opnd) (k : Nat) : Int × Option (List Word) :=
  let d := ((x.reg s0 o.a k).add (81 * o.c)).val
  (d, if d % 81 ≠ 0 then none
      else (s.cabRange x.t.team false d (d + 81)).map (fun c => (List.range 27).map (fun (i : Nat) => s.cab c.team (c.a / 3 + (i : Int)))))

/-- A lane's read of cabinet words at issue has to wait (R199). -/
def State.heldWords (s : State) (n : Nat) (lo hi : Int) : Bool := s.tellStalls n lo hi (fun _ _ => true)

/-- Words of a team's cabinet from an address on. -/
def State.cabWords (s : State) (c : CabAt) (k : Nat) : List Word := (List.range k).map (fun (i : Nat) => s.cab c.team (c.a / 3 + (i : Int)))

/-! ### WAIT and TKT (R202, R203) -/

/-- TTAG and SEQ of a ticket (R134). -/
def ticketTag (t : Word) : Int := field t.val 26 18
def ticketSeq (t : Word) : Nat := (field t.val 17 0 + 193710244).toNat

/-- The ticket is not of the team's tag. -/
def State.foreignTicket (s : State) (n : Nat) (t : Word) : Bool :=
  (s.team? n).all (fun x => ticketTag t != tagOf x.lin)

/-- The kept record of a ticket. -/
def State.rec? (s : State) (n seq : Nat) : Option Rec :=
  (s.team? n).bind (fun t => t.body.recs.find? (fun r => r.seq == seq))

/-- Delivers a record to D, or to D, D + 1 and D + 2. -/
def deliverRec (o : Opnd) (s : State) (x : Exec) (k st : Nat) (addr : Word) (count : Int) : State :=
  let s := x.set s o.d k (.ofInt (st : Int))
  if o.f = 1 then x.set (x.set s (o.d + 1) k addr) (o.d + 2) k (.ofInt count) else s

/-- Delivers what is known of a complete ticket, and marks its record delivered (R202). -/
def waitOne (o : Opnd) (x : Exec) (s : State) (k : Nat) (t : Word) : State :=
  let n := x.t.team
  let seq := ticketSeq t
  if s.foreignTicket n t then deliverRec o s x k 7 .zero 0
  else match s.rec? n seq with
    | some r =>
      let s := s.modBody n (fun b => { b with recs := b.recs.map (fun q => if q.seq = seq then { q with delivered := true } else q) })
      deliverRec o s x k r.status r.addr r.count
    | none => deliverRec o s x k 0 .zero (-1)

/-- Blocks an execution at its WAIT. -/
def State.blockWait (s : State) (x : Exec) (seq : Nat) : State :=
  match x.mode with
  | .han => s.modHandler x.t.team (fun h => { h with run := .wait seq })
  | _ => x.ts.foldl (fun s t => s.setRun t (.wait seq)) s

/-- A ticket of the team that is not complete (R134). -/
def State.incomplete (s : State) (n : Nat) (t : Word) : Bool := !s.foreignTicket n t && (s.cmd? n (ticketSeq t)).isSome

/-- The rules of WAIT's fields. -/
def waitForm (o : Opnd) : Form := { d := .v, a := .v, moreV := if o.f == 1 then [o.d + 1, o.d + 2] else [] }
/-- WAIT (R202): it blocks while one of its tickets is incomplete. -/
def bodyWait (o : Opnd) : Body := eachExec (fun e x =>
  let ts := (blockSteps o).map (fun k => (k, x.reg e.s o.a k))
  match ts.find? (fun p => e.s.incomplete x.t.team p.2) with
  | some p => { e with s := e.s.blockWait x (ticketSeq p.2), stay := e.stay ++ [x] }
  | none => { e with s := ts.foldl (fun s p => waitOne o x s p.1 p.2) e.s })
/-- WAIT: its execution. -/
def execWait (o : Opnd) (s : State) := perform (.wait o) o (waitForm o) (bodyWait o) s

/-- TKT's trit (R203). -/
def State.ticketTrit (s : State) (n : Nat) (t : Word) : Trit :=
  if s.foreignTicket n t then .m
  else if (s.cmd? n (ticketSeq t)).isSome then .z
  else match s.rec? n (ticketSeq t) with
    | some r => if r.status = 0 then .p else .m
    | none => .p
/-- TKT (R203). -/
def execTkt (o : Opnd) (s : State) :=
  perform (.tkt o) o { d := .p, a := .v } (tritBody o (fun s x => s.ticketTrit x.t.team (x.reg s o.a 0))) s

/-! ### Completion (R135, R201, R202) -/

/-- Wakes the threads and the handler of a team that wait for a command. -/
def State.wakeWait (s : State) (n seq : Nat) : State :=
  let s := (s.threadsOf n).foldl (fun s p => if p.2.run = .wait seq then s.setRun p.1 .ready else s) s
  s.modHandler n (fun h => if h.run = .wait seq then { h with run := .ready } else h)

/-- The stalled engine issues that a freed entry of a core lets go on (R131). -/
def State.freeIssues (s : State) (core : Nat) : State :=
  let near := fun (t : Team) => s.teams.any (fun u => u.grid == t.grid && u.crew == t.crew && u.core == core)
  (s.teams.filter near).foldl (fun s t =>
    (s.threadsOf t.num).foldl (fun s p => if p.2.run = .lock then s.setRun p.1 .ready else s) s) s

/-- The stalled issues of cores whose entries have gone are tried again (R131). -/
def State.entriesFree (s : State) (cores : List Nat) : State := cores.foldl (fun s k => s.laterOnce (.rangeLockFree k)) s

/-- The cores in which a team's commands hold a range-lock entry or a place in the scoreboard. -/
def State.entryCores (s : State) (n : Nat) : List Nat :=
  match s.team? n with
  | none => []
  | some t => if t.body.cmds.isEmpty then [] else distinct (s.coreOf n :: (t.body.cmds.map (s.lockCores n)).flatten)

/-- RANGE_LOCK_FREE (R131). -/
def execRangeLockFree (core : Nat) (s : State) : Host.Outcome State Fault Refusal := .next (s.freeIssues core)

/-- An ended command leaves the team: its record is kept, its entry is freed, and what waits for it goes on. -/
def State.completeCmd (s : State) (n : Nat) (c : Cmd) (st : Nat) : State :=
  let r : Rec := { seq := c.seq, status := st, addr := if st = 0 then .zero else c.fault, count := (c.done : Int), delivered := false }
  let cores := if isRangeXf c.instr then [s.coreOf n] else if c.locked then s.lockCores n c else []
  let s := s.modBody n (fun b => { b with cmds := b.cmds.filter (fun d => d.seq != c.seq), recs := keepRec b.recs r })
  let s := (s.wakeWait n c.seq).entriesFree cores
  if (s.team? n).any (·.ending) then s.laterOnce (.teamEnd n) else s

end Sys2Proof.Machine
end

