-- ==== Sys2Proof/Machine/Copy.lean ====
section
/-! DEFINITION. The copy engine: descriptors and their refusals (R125–R130, R462), issue (R195–R197), and the elements of a
command (R127, R128, R137, R301, R338). -/

namespace Sys2Proof.Machine

/-- The five copy commands (R127). -/
inductive CopyKind where
  | cin | cout | bin | peer | cab
deriving DecidableEq, Repr

/-- A copy command's descriptor (R125, R126) with its index list. -/
structure CopyD where
  kind : CopyKind
  w : List Word
  list : List Int
deriving DecidableEq, Repr

namespace CopyD

def gbase (d : CopyD) : Nat := (wordAt d.w 0).num
def gofs (d : CopyD) : Int := intAt d.w 1
def cbase (d : CopyD) : Int := intAt d.w 2
def cbase2 (d : CopyD) : Int := intAt d.w 3
def nel (d : CopyD) : Int := intAt d.w 4
def nrow (d : CopyD) : Int := intAt d.w 5
def ges (d : CopyD) : Int := intAt d.w 6
def grs (d : CopyD) : Int := intAt d.w 7
def crs (d : CopyD) : Int := intAt d.w 8
def idx (d : CopyD) : Int := intAt d.w 9
def ctl (d : CopyD) : Int := intAt d.w 10
def peer (d : CopyD) : Int := intAt d.w 11
def tryte (d : CopyD) : Bool := trit d.ctl 0 == -1
def gath (d : CopyD) : Bool := trit d.ctl 1 == 1
def dir (d : CopyD) : Int := trit d.ctl 2
def sat (d : CopyD) : Bool := trit d.ctl 8 == 1
def ttyp (d : CopyD) : Int := field d.ctl 7 6
def fmt (d : CopyD) : Option Foreign := Foreign.ofBfmt (field d.ctl 5 3)
/-- Bytes of a binary element (R127). -/
def bytes (d : CopyD) : Nat := match d.fmt with | some f => f.width / 8 | none => 1
/-- The packed side's elements are trytes (R127). -/
def packedTryte (d : CopyD) : Bool := if d.kind = .bin then d.ttyp == 1 || d.ttyp == 3 else d.tryte
/-- Trytes of an element of the packed side. -/
def psize (d : CopyD) : Int := if d.packedTryte then 1 else 3
/-- Trytes, or bytes for a binary side, of an element of the strided side. -/
def ssize (d : CopyD) : Int := if d.kind = .bin then d.bytes else if d.tryte then 1 else 3
/-- The base of the strided side: a number as R65 numbers addresses, a byte offset, or a cabinet address. -/
def sbase (d : CopyD) : Int := match d.kind with | .bin => d.gofs | .cab => d.cbase2 | _ => d.gbase
/-- The packed side is the destination (R127). -/
def packedDst (d : CopyD) : Bool :=
  match d.kind with
  | .cin => true
  | .cout | .peer => false
  | .bin | .cab => d.dir == 1

/-- The offset of row r on the strided side (R127). -/
def rowOff (d : CopyD) (r : Nat) : Int := (if d.gath then d.list.getD r 0 else (r : Int)) * d.grs
/-- Where element e of row r lies on the strided side, and on the packed side (R127). -/
def strided (d : CopyD) (r e : Nat) : Int := d.sbase + d.rowOff r + (e : Int) * d.ges
def packed (d : CopyD) (r e : Nat) : Int := d.cbase + (r : Int) * d.crs + (e : Int) * d.psize

/-- From the least to beyond the greatest tryte of elements of a size, with the offsets of rows and of elements. -/
def bounds (base : Int) (rows : List Int) (last size : Int) : Int × Int :=
  (base + rows.foldl min (rows.headD 0) + min 0 last, base + rows.foldl max (rows.headD 0) + max 0 last + size)
/-- The bounding range of the packed side (R130). -/
def packedRange (d : CopyD) : Int × Int := bounds d.cbase [0, (d.nrow - 1) * d.crs] ((d.nel - 1) * d.psize) d.psize
/-- The bounding range of the strided side (R130). -/
def stridedRange (d : CopyD) : Int × Int :=
  let rows := if d.gath then d.list.map (· * d.grs) else [0, (d.nrow - 1) * d.grs]
  bounds d.sbase rows ((d.nel - 1) * d.ges) d.ssize
/-- The range of the index list (R130). -/
def listRange (d : CopyD) : Int × Int := (d.idx, d.idx + 3 * d.nrow)

/-- The values that R129 refuses, but for the overlap. -/
def refused (d : CopyD) : Bool :=
  let mul := fun (x k : Int) => x % k == 0
  !(zeroFrom d.w 12) || field d.ctl 26 9 != 0
  || (d.kind != .bin && trit d.ctl 0 == 1) || trit d.ctl 1 == -1
  || ((d.kind == .bin || d.kind == .cab) && d.dir == 0)
  || (d.kind == .bin && (trit d.ctl 8 == -1 || d.ttyp < 0 || d.fmt.isNone || d.gofs < 0 || !mul d.gbase 81))
  || (d.kind == .peer && (d.peer < 0 || 2186 < d.peer))
  || d.nel < 0 || 6561 < d.nel || d.nrow < 0 || 59049 < d.nrow
  || (d.kind != .bin && trit d.ctl 0 == 0 && !(mul d.sbase 3 && mul d.ges 3 && mul d.grs 3))
  || (!d.packedTryte && !(mul d.cbase 3 && mul d.crs 3))
  || (d.gath && !mul d.idx 3)
  || (d.kind == .bin && !(mul d.gofs d.bytes && mul d.ges d.bytes && mul d.grs d.bytes))

end CopyD

/-- A cabinet address of COPY.CAB: from 3^14 on it can only be of the .x space (R118; log entry 24). -/
def farAddress (a : Int) : Bool := 4782969 ≤ a

/-- A cabinet side of a command: its bounding range, whether it may be of the .x space, and whether the command writes it. -/
structure CabSide where
  range : Int × Int
  far : Bool
  write : Bool
deriving DecidableEq, Repr

/-- A cabinet side of a copy command, where it lies in an allocation. -/
def State.copyRange (s : State) (n : Nat) (r : CabSide) : Option CabAt :=
  s.cabRange n (r.far && farAddress r.range.1) r.range.1 r.range.2

/-- The range-lock entry of a cabinet side. -/
def cabRng (c : CabAt) (r : Int × Int) (write : Bool) : Rng := { cab := some c.team, lo := c.a, hi := c.a + (r.2 - r.1), write := write }

/-- The global range of a copy command (R131): none for a gathering command; COPY.PEER's is the range it names at the peer. -/
def CopyD.globalRanges (d : CopyD) : List Rng :=
  let r := d.stridedRange
  match d.kind with
  | .cin | .cout | .peer => if d.gath then [] else globRanges r.1 r.2 (!d.packedDst)
  | .bin =>
    if d.gath then []
    else globRanges (d.gbase + 81 * (r.1 / 128)) (d.gbase + 81 * ((r.2 - 1) / 128) + 81) (!d.packedDst)
  | .cab => []

/-- A cabinet range of COPY.CAB as the .x space numbers it (R118): a range of the team's own cabinet lies in its member's part. -/
def State.crewRange (s : State) (n : Nat) (r : Int × Int) : Int × Int :=
  if farAddress r.1 then r
  else
    let base : Int := 4782969 * (((s.team? n).map (·.member)).getD 0 : Nat)
    (base + r.1, base + r.2)

/-- The two cabinet sides of COPY.CAB overlap (R129), wherever they lie (R462). -/
def State.sidesMeet (s : State) (n : Nat) (d : CopyD) : Bool :=
  let a := s.crewRange n d.packedRange
  let b := s.crewRange n d.stridedRange
  d.kind == .cab && a.1 < b.2 && b.1 < a.2

/-- The bounding ranges in the order of R130: the packed side, the other cabinet side, the index list, which is of the .c space (R125). -/
def CopyD.cabSides (d : CopyD) (listKnown : Bool) : List CabSide :=
  let far := d.kind == .cab
  [⟨d.packedRange, far, d.packedDst⟩] ++ (if far ∧ listKnown then [⟨d.stridedRange, far, !d.packedDst⟩] else [])
  ++ (if d.gath then [⟨d.listRange, false, false⟩] else [])

/-- Moves nothing (R129). -/
def CopyD.empty (d : CopyD) : Bool := d.nel == 0 || d.nrow == 0

/-- COPY's checks at issue in the order of R462, and its command (R196, R197). -/
def copyPlan (i : Instr) (o : Opnd) (kind : CopyKind) (s0 s : State) (x : Exec) (k : Nat) : Plan :=
  let n := x.t.team
  match State.cabLine s0 s x o k with
  | (a, none) => .refuse (boundsTrap a)
  | (a, some w) =>
    if s.heldWords n a (a + 81) then .hold
    else
    let d0 : CopyD := { kind := kind, w := w, list := [] }
    if d0.refused then .refuse (descTrap a)
    else
      let at_ := if d0.gath ∧ !d0.empty then s.cabRange n false d0.listRange.1 d0.listRange.2 else none
      let words := match at_ with | some c => s.cabWords c d0.nrow.toNat | none => []
      let d : CopyD := { d0 with list := words.map Word.val }
      let known := !d.gath || at_.isSome
      if d0.gath && !d0.empty && s.heldWords n d0.listRange.1 d0.listRange.2 then .hold
      else if !d.empty && known && s.sidesMeet n d then .refuse (descTrap a)
      else if d.empty then .null (if kind = .peer ∧ !(s.hasPort (s.partOf n)) then 6 else 0)
      else match (d.cabSides known).find? (fun r => (s.copyRange n r).isNone) with
        | some r => .refuse (boundsTrap r.range.1)
        | none =>
          if kind = .peer ∧ !(s.hasPort (s.partOf n)) then .null 6
          else
            let sides := (d.cabSides known).filterMap (fun r => (s.copyRange n r).map (fun c => cabRng c r.range r.write))
            .go { Cmd.fresh i x.t.num with desc := w, list := words, ranges := sides ++ d.globalRanges, locked := true }

/-- The rules of COPY's fields (R195). -/
def copyForm : Form := { d := .v, a := .v, c := .i }
/-- A COPY's body. -/
def copyBody (i : Instr) (o : Opnd) (kind : CopyKind) : Body := issueBody o (copyPlan i o kind) (fun s _ _ => s)
/-- COPY.IN. -/
def execCopyIn (o : Opnd) (s : State) := perform (.copyIn o) o copyForm (copyBody (.copyIn o) o .cin) s
/-- COPY.OUT. -/
def execCopyOut (o : Opnd) (s : State) := perform (.copyOut o) o copyForm (copyBody (.copyOut o) o .cout) s
/-- COPY.BIN. -/
def execCopyBin (o : Opnd) (s : State) := perform (.copyBin o) o copyForm (copyBody (.copyBin o) o .bin) s
/-- COPY.PEER. -/
def execCopyPeer (o : Opnd) (s : State) := perform (.copyPeer o) o copyForm (copyBody (.copyPeer o) o .peer) s
/-- COPY.CAB. -/
def execCopyCab (o : Opnd) (s : State) := perform (.copyCab o) o copyForm (copyBody (.copyCab o) o .cab) s

/-! ### Global elements (R301, R338) -/

/-- An engine's read of a word: an ordinary load of the issuing thread (R338). -/
def State.engineRead (s : State) (t : TRef) (va : Word) (b : Bool) : State × Except Stop Word :=
  match s.translate (s.ctxOf t.team) va .read b with
  | (s, .error e) => (s, .error e)
  | (s, .ok x) => s.view t va x

/-- The team's escrow has no room for a new line (R304). -/
def State.escrowFull (s : State) (n : Nat) (va : Word) : Bool :=
  (s.eline n (va.num / 81)).isNone && (s.team? n).any (fun t => s.quotaOf n ≤ t.body.escrow.length)

/-- An engine's write of words of one line into escrow as writes of the issuing thread (R301, R304); `f` makes the words from
what the thread sees. -/
def State.engineWrite (s : State) (t : TRef) (va : Word) (b : Bool) (f : State → Xl → State × Except Stop (List (Nat × Word))) :
    State × Except Stop Unit :=
  match s.translate (s.ctxOf t.team) va .write b with
  | (s, .error e) => (s, .error e)
  | (s, .ok x) =>
    if s.escrowFull t.team va then (s, .error (.trap (quotaTrap va)))
    else match f s x with
      | (s, .error e) => (s, .error e)
      | (s, .ok ws) => (ws.foldl (fun s w => s.escrowPut t.team t.num (lineVa (va.num / 81) w.1) x b w.2) s, .ok ())

/-- An engine's write of a whole word. -/
def State.engineWriteWord (s : State) (t : TRef) (va v : Word) : State × Except Stop Unit :=
  s.engineWrite t va false (fun s _ => (s, .ok [(wordOf va, v)]))

/-- An engine's write of one tryte: the word's others as the thread sees them (R301). -/
def State.engineWriteTryte (s : State) (t : TRef) (va : Word) (v : Int) : State × Except Stop Unit :=
  s.engineWrite t va false (fun s x =>
    match s.view t (lineVa (va.num / 81) (wordOf va)) x with
    | (s, .error e) => (s, .error e)
    | (s, .ok w) => (s, .ok [(wordOf va, storeTryte w (va.num % 3) v)]))

/-- The 128 bytes of a B-page's line as the issuing thread sees them (R57, R79). -/
def State.engineBytes (s : State) (t : TRef) (vline : Nat) (x : Xl) : State × Except Stop (List Nat) :=
  let r := (List.range 27).foldl (fun (p : State × Except Stop (List Word)) i =>
    match p.2 with
    | .error e => (p.1, .error e)
    | .ok l => match p.1.view t (lineVa vline i) x with
      | (s, .error e) => (s, .error e)
      | (s, .ok w) => (s, .ok (l ++ [w]))) (s, .ok [])
  match r with
  | (s, .error e) => (s, .error e)
  | (s, .ok l) => (s, .ok (bytesOfLine ⟨l, false⟩))

/-- The words of a B-line that hold bits of the bytes b … b + k − 1 (R57). -/
def wordsOfBytes (b k : Nat) : List Nat :=
  distinct (((List.range (8 * k)).map (fun i =>
    let bit := 8 * b + i
    if bit = 1023 then [682 / 27] else [2 * (bit / 3) / 27, (2 * (bit / 3) + 1) / 27])).flatten)

/-! ### Elements (R127) -/

/-- The element type of TTYP (R126); none for a raw pattern. -/
def ttypTy (x : Int) : Option ETy :=
  if x = 1 then some .t9 else if x = 2 then some .t27 else if x = 3 then some .tf9 else if x = 4 then some .tf27 else none

/-- A pattern as the element that COPY.BIN delivers (R127, R36, R37). -/
def CopyD.toTern (d : CopyD) (p : Int) : Int :=
  match ttypTy d.ttyp, d.fmt with
  | some et, some f => ternTo et d.sat .bin (f.decode p).v
  | _, _ => p
/-- An element as the pattern that COPY.BIN delivers (R127, R36, R38). -/
def CopyD.toPattern (d : CopyD) (x : Int) : Int :=
  match d.fmt with
  | none => 0
  | some f => match ttypTy d.ttyp with
    | some et => f.encode d.sat .bin (BVal.ofTern (ternVal et x))
    | none => x % ((2 ^ f.width : Nat) : Int)

/-- The cabinet place of an element; bounds were checked at issue. DESIGN CHOICE, log entry 61: where the member whose cabinet it names has
ended since, the element acts on no word. -/
def State.elemAt (s : State) (n : Nat) (a : Int) : CabAt :=
  match s.cabAt n (farAddress a) false a with
  | .ok c => c
  | .error _ => ⟨n, a⟩
/-- Reads a cabinet element: a word's value or a tryte. -/
def State.readElem (s : State) (n : Nat) (a : Int) (tryte : Bool) : Int :=
  let c := s.elemAt n a
  if tryte then sub9 (s.cabWord c).val (c.a % 3).toNat else (s.cabWord c).val
/-- Writes a cabinet element. -/
def State.writeElem (s : State) (n : Nat) (a : Int) (tryte : Bool) (v : Int) : State :=
  let c := s.elemAt n a
  s.putCabWord n c (if tryte then storeTryte (s.cabWord c) (c.a % 3).toNat v else .ofInt v)

/-- Byte `i` of a B-page's byte offset: its virtual line and its place in it (R79). -/
def CopyD.byteLine (d : CopyD) (off : Int) : Nat × Nat :=
  ((((d.gbase / 81 : Nat) + off / 128) % 94143178827).toNat, (off % 128).toNat)

/-- One element of COPY.BIN (R127): little-endian bytes (log entry 25). -/
def State.binElem (s : State) (t : TRef) (d : CopyD) (off pk : Int) : State × Except Stop Unit :=
  let (line, b) := d.byteLine off
  let k := d.bytes
  if d.dir = 1 then
    match s.translate (s.ctxOf t.team) (lineVa line 0) .read true with
    | (s, .error e) => (s, .error e)
    | (s, .ok x) => match s.engineBytes t line x with
      | (s, .error e) => (s, .error e)
      | (s, .ok l) =>
        let p := ((l.drop b).take k).foldr (fun (y acc : Nat) => y + 256 * acc) 0
        (s.writeElem t.team pk d.packedTryte (d.toTern (p : Int)), .ok ())
  else
    let p := (littleEndian k (d.toPattern (s.readElem t.team pk d.packedTryte)).toNat)
    s.engineWrite t (lineVa line 0) true (fun s x =>
      match s.engineBytes t line x with
      | (s, .error e) => (s, .error e)
      | (s, .ok l) =>
        let new := lineOfBytes (l.take b ++ p ++ l.drop (b + k))
        (s, .ok ((wordsOfBytes b k).map (fun i => (i, wordAt new.w i)))))

/-- One element of a copy command that stays on the device (R127, R301, R338). -/
def State.copyElem (s : State) (t : TRef) (d : CopyD) (r e : Nat) : State × Except Stop Unit :=
  let so := d.strided r e
  let pk := d.packed r e
  let va := Word.ofNum (so % 7625597484987).toNat
  match d.kind with
  | .cin => match s.engineRead t va false with
    | (s, .error k) => (s, .error k)
    | (s, .ok w) => (s.writeElem t.team pk d.tryte (if d.tryte then sub9 w.val (va.num % 3) else w.val), .ok ())
  | .cout =>
    let v := s.readElem t.team pk d.tryte
    if d.tryte then s.engineWriteTryte t va v else s.engineWriteWord t va (.ofInt v)
  | .bin => s.binElem t d so pk
  | .cab =>
    let src := if d.packedDst then so else pk
    let dst := if d.packedDst then pk else so
    (s.writeElem t.team dst d.tryte (s.readElem t.team src d.tryte), .ok ())
  | .peer => (s, .ok ())

/-- The elements from `i` on, at most `fuel` of them, to the first that stops (R137). -/
def State.copyRun (t : TRef) (d : CopyD) (seq : Nat) : Nat → State → Nat → State × Option Stop
  | 0, s, _ => (s, none)
  | fuel + 1, s, i =>
    match s.copyElem t d (i / d.nel.toNat) (i % d.nel.toNat) with
    | (s, .error k) => (s, some k)
    | (s, .ok ()) => State.copyRun t d seq fuel (s.modCmd t.team seq (fun c => { c with done := i + 1 })) (i + 1)

/-- The trytes that COPY.PEER sends, by virtual line: the tryte's place and its value, in the order of its elements (R127). -/
def State.peerTrytes (s : State) (n : Nat) (d : CopyD) : List (Nat × Nat × Int) :=
  ((List.range (d.nel.toNat * d.nrow.toNat)).map (fun i =>
    let r := i / d.nel.toNat
    let e := i % d.nel.toNat
    let num := ((d.strided r e) % 7625597484987).toNat
    let v := s.readElem n (d.packed r e) d.tryte
    if d.tryte then [(num / 81, num % 81, v)]
    else (List.range 3).map (fun j => (num / 81, num % 81 + j, sub9 v j)))).flatten

/-- The line-write flits of COPY.PEER, one for each line (R128, R407). DESIGN CHOICE, log entry 28: GBASE's line number is the slot that
is written at the peer, with no translation; the flits' TAG is the count of the device's commands at the issue, so that no two commands
share one, and the lines are numbered in the order in which the elements first touch them. -/
def State.peerFlits (s : State) (n seq : Nat) (d : CopyD) : List Flit :=
  let ts := s.peerTrytes n d
  let tag := (Word.ofInt (((s.cmd? n seq).map (·.born)).getD 0 : Nat)).val
  (distinct (ts.map (·.1))).zipIdx.map (fun p =>
    let mine := ts.filter (fun t => t.1 == p.1)
    { ty := 0, src := (s.cwInt 6570).toNat, dst := d.peer.toNat, tag := tag, idx := p.2, slot := p.1,
      line := lineOfTrytes (mine.foldl (fun l t => setNth l t.2.1 t.2.2) (List.replicate 81 0)),
      mask := distinct (mine.map (·.2.1)), kth := 0, key := [], sig := [], rep := 0, owner := some (n, seq) })

/-- Sends flits: each stays in flight until it is answered (R407). -/
def State.sendFlits (s : State) (l : List Flit) : State := { s with sent := s.sent ++ l, flits := s.flits ++ l }

/-- A copy command's kind. -/
def copyKindOf (i : Instr) : Option CopyKind :=
  match i with
  | .copyIn _ => some .cin
  | .copyOut _ => some .cout
  | .copyBin _ => some .bin
  | .copyPeer _ => some .peer
  | .copyCab _ => some .cab
  | _ => none

/-- Performs a copy command from where it stands (R127, R137). The index list of a command with a global side is read as it
begins; log entry 26. DESIGN CHOICE, log entry 28: COPY.PEER counts its elements as done when it sends them. -/
def State.runCopy (s : State) (n : Nat) (c : Cmd) (kind : CopyKind) : State :=
  let d0 : CopyD := { kind := kind, w := c.desc, list := c.list.map Word.val }
  let list := if d0.gath ∧ kind ≠ .cab then
      (match s.cabRange n false d0.listRange.1 d0.listRange.2 with | some a => s.cabWords a d0.nrow.toNat | none => c.list)
    else c.list
  let s := s.modCmd n c.seq (fun k => { k with begun := true, list := if c.begun then k.list else list })
  let d : CopyD := { d0 with list := (if c.begun then c.list else list).map Word.val }
  let total := d.nel.toNat * d.nrow.toNat
  if kind = .peer then
    if c.begun then s.endCmd n c.seq 0 .zero
    else
      let l := s.peerFlits n c.seq d
      ((s.irrevocable n).modCmd n c.seq (fun k => { k with done := total, outstanding := l.length })).sendFlits l
  else
    match State.copyRun (c.issuer n) d c.seq (total - c.done) s c.done with
    | (s, some k) => s.stopCmd n c.seq k
    | (s, none) => s.endCmd n c.seq 0 .zero

end Sys2Proof.Machine
end

