-- ==== Sys2Proof/Machine/Teller.lean ====
section
/-! DEFINITION. Tellers: the commands of XF over a cabinet range (R122, R123, R199) and on one word for each lane (R124, R200). -/

namespace Sys2Proof.Machine

/-! ### Effects on an element (R123) -/

/-- The range commands. -/
inductive Tell where
  | neg | shift (k : Int) | zero | fill (v : Word) | clamp (lo hi : Word) | cvt | rq (k : Int)
deriving DecidableEq, Repr

/-- The type that convert delivers (R123). -/
def cvtOf (et : ETy) : ETy :=
  match et with
  | .t27 => .tf27
  | .tf27 => .t27
  | .t9 => .tf9
  | _ => .t9

/-- One element of a range command (R123): float results are canonical. -/
def tellElem (t : Tell) (et : ETy) (sat : Bool) (l : List Int) : Int :=
  let x := l.getD 0 0
  let lo := l.getD 1 0
  let hi := l.getD 2 0
  let f := fmtOf et
  match t with
  | .neg => if isFloat et then f.deliver false .tern (f.decode x).neg else -x
  | .shift k => if 0 ≤ k then narrow et.width sat (x * ((3 ^ k.toNat : Nat) : Int)) else dropTrits (-k).toNat x
  | .zero | .fill _ => x
  | .clamp _ _ =>
    if isFloat et then f.deliver false .tern (((f.decode x).max (f.decode lo)).min (f.decode hi)) else min (max x lo) hi
  | .cvt => ternTo (cvtOf et) sat .tern (ternVal et x)
  | .rq k => ternTo et sat .tern ((ternVal et x).scale3 k)

/-- One word of a range command (R199): zero and fill write the whole word. -/
def tellWord (t : Tell) (et : ETy) (sat : Bool) (w : Word) : Word :=
  match t with
  | .zero => .zero
  | .fill v => v
  | .clamp lo hi => mapElems et (tellElem t et sat) [w, lo, hi]
  | .cvt => mapElems et (tellElem t et sat) [w]
  | t => mapElems et (tellElem t et sat) [w]

/-- The range command of an instruction with its operands as taken at issue (R198). -/
def tellOf (c : Cmd) : Option (Tell × Opnd) :=
  match c.instr with
  | .xfNeg o => some (.neg, o)
  | .xfShift o => some (.shift o.c, o)
  | .xfZero o => some (.zero, o)
  | .xfFill o => some (.fill c.opc, o)
  | .xfClamp o => some (.clamp c.opc c.opc1, o)
  | .xfCvt o => some (.cvt, o)
  | .xfRq o => some (.rq o.c, o)
  | _ => none

/-! ### Range commands (R199) -/

/-- A range command whose C is an immediate: a shift, or a requantization's scale (R198, R388). -/
def rangeImmediate (i : Instr) : Bool :=
  match i with
  | .xfShift _ | .xfRq _ => true
  | _ => false

/-- The checks of a range command at issue, and its command. A .x range is checked once against the range locks, as a write. -/
def xfPlan (i : Instr) (o : Opnd) (s0 s : State) (x : Exec) (k : Nat) : Plan :=
  let n := x.t.team
  let a := (x.reg s0 o.a k).val
  let w := (x.reg s0 o.b k).val
  if a % 3 ≠ 0 then .refuse (alignTrap (.ofInt a))
  else if w < 0 then .refuse (boundsTrap a)
  else if w = 0 then .null 0
  else match s.cabRange n (o.x == 1) a (a + 3 * w) with
    | none => .refuse (boundsTrap a)
    | some c =>
      let cmd : Cmd := { Cmd.fresh i x.t.num with
        opa := x.reg s0 o.a k, opb := x.reg s0 o.b k, opc := if rangeImmediate i then .ofInt o.c else x.reg s0 o.c k, opc1 := x.reg s0 (o.c + 1) k,
        ranges := [{ cab := some c.team, lo := c.a, hi := c.a + 3 * w, write := true }] }
      if o.x = 1 then
        match s.checkCabLock n c (3 * w) a true with
        | .error t => .refuse t
        | .ok () => .go cmd
      else .go cmd

/-- The rules of the fields of XF's range forms (R198): `c` is what C holds. -/
def xfForm (c : Use) (sat : Bool) : Form := { d := .v, a := .v, b := .v, c := c, sat := sat }
/-- A range command's body. -/
def xfBody (i : Instr) (o : Opnd) : Body := issueBody o (xfPlan i o) (fun s _ _ => s)
/-- XF.NEG. -/
def execXfNeg (o : Opnd) (s : State) := perform (.xfNeg o) o (xfForm .z false) (xfBody (.xfNeg o) o) s
/-- XF.SHIFT. -/
def execXfShift (o : Opnd) (s : State) :=
  perform (.xfShift o) o { xfForm .i true with extra := -26 ≤ o.c && o.c ≤ 26 } (xfBody (.xfShift o) o) s
/-- XF.ZERO. -/
def execXfZero (o : Opnd) (s : State) := perform (.xfZero o) o (xfForm .z false) (xfBody (.xfZero o) o) s
/-- XF.FILL. -/
def execXfFill (o : Opnd) (s : State) := perform (.xfFill o) o (xfForm .v false) (xfBody (.xfFill o) o) s
/-- XF.CLAMP: lo in v(C), hi in v(C + 1). -/
def execXfClamp (o : Opnd) (s : State) :=
  perform (.xfClamp o) o { xfForm .v false with moreV := [o.c + 1] } (xfBody (.xfClamp o) o) s
/-- XF.CVT. -/
def execXfCvt (o : Opnd) (s : State) := perform (.xfCvt o) o (xfForm .z true) (xfBody (.xfCvt o) o) s
/-- XF.RQ. -/
def execXfRq (o : Opnd) (s : State) := perform (.xfRq o) o (xfForm .i true) (xfBody (.xfRq o) o) s

/-- The drawers that a range of words meets. -/
def drawersOf (lo hi : Int) : List Nat :=
  let k := ((hi - lo) / 3).toNat
  if 128 ≤ k then List.range 128 else (List.range k).map (fun (i : Nat) => drawerOf (lo / 3 + (i : Int)))

/-- A range command begins: its pieces enter the queues of their drawers together (R122). -/
def State.beginTell (s : State) (n : Nat) (c : Cmd) : State :=
  match c.ranges with
  | [] => s.endCmd n c.seq 0 .zero
  | r :: _ =>
    let pieces := drawersOf r.lo r.hi
    let core := match r.cab with | some m => s.coreOf m | none => s.coreOf n
    let s := s.modCmd n c.seq (fun k => { k with begun := true, pieces := pieces, queued := s.ncmd })
    ({ s with ncmd := s.ncmd + 1 } : State).later (pieces.map (fun d => .drawerRequest core d))

/-- The commands of all teams in the order in which their pieces came to the drawers (R120). -/
def State.allCmds (s : State) : List (Nat × Cmd) :=
  sortBy (fun a b => a.2.queued ≤ b.2.queued) ((s.teams.map (fun t => t.body.cmds.map (fun c => (t.num, c)))).flatten)

/-- One piece of a range command: the words of the drawer, ascending (R122, R123). -/
def State.tellPiece (s : State) (n : Nat) (c : Cmd) (drawer : Nat) : State :=
  match tellOf c, c.ranges with
  | some (t, o), r :: _ => match r.cab with
    | some m =>
      let words := ((List.range ((r.hi - r.lo) / 3).toNat).map (fun (i : Nat) => r.lo / 3 + (i : Int))).filter (fun w => drawerOf w == drawer)
      let s := words.foldl (fun s w => s.putCabWord n ⟨m, 3 * w⟩ (tellWord t o.et o.sat (s.cab m w))) s
      let rest := c.pieces.erase drawer
      let s := s.modCmd n c.seq (fun k => { k with pieces := rest, done := k.done + words.length })
      if rest.isEmpty then s.endCmd n c.seq 0 .zero else s
    | none => s
  | _, _ => s

/-- A command's words lie in a cabinet of a core. -/
def State.tellsOn (s : State) (core : Nat) (c : Cmd) : Bool :=
  c.ranges.any (fun r => match r.cab with | some m => s.coreOf m == core | none => false)

/-- DRAWER_REQUEST (R120): the drawer performs its oldest request, the piece of a range command. -/
def execDrawerRequest (core drawer : Nat) (s : State) : Host.Outcome State Fault Refusal :=
  match s.allCmds.find? (fun p => isRangeXf p.2.instr && p.2.pieces.contains drawer && s.tellsOn core p.2) with
  | some (n, c) => .next (s.tellPiece n c drawer)
  | none => .next s

/-! ### Lane commands (R200) -/

/-- The new word of a lane command (R123): exchange and compare-exchange act on the whole word. -/
def xfApply (op : Int) (et : ETy) (sat : Bool) (w v c : Word) : Word :=
  if op = 2 then combine 1 et sat w v else atomOp op et sat w v c

/-- The place of one element of a lane command (R200). -/
def xfPlace (o : Opnd) (x : Exec) (s : State) (k : Nat) : State × Except Stop Place :=
  match s.findCab x (if o.x = 4 then 1 else -1) true true (x.reg s o.a k).val with
  | .ok c => (s, .ok (.cab c))
  | .error r => (s, .error r)

/-- One element of a lane command: the word takes its new value from the operands v and c, and D the old one where `ret` asks
for it. -/
def xfElem (o : Opnd) (op : Int) (ret : Bool) (x : Exec) (s : State) (k : Nat) (p : Place) (v c : Word) : State :=
  match p with
  | .cab at_ =>
    let old := s.cabWord at_
    let s := s.putCabWord x.t.team at_ (xfApply op o.et o.sat old v c)
    if ret then x.deliver s o k old else s
  | .glob _ _ => s

/-- A lane command in one lane: every element is checked, then performed in order. -/
def xfLane (o : Opnd) (op : Int) (ret : Bool) (e : Eff) (x : Exec) : Eff :=
  match State.findAll (xfPlace o x) (blockSteps o) e.s with
  | (s, .error k) => { e with s := s }.stop x k
  | (s, .ok ps) =>
    let ops := ps.map (fun p => (p.1, p.2, x.reg s o.b p.1, x.reg s o.c p.1))
    { e with s := ops.foldl (fun s p => xfElem o op ret x s p.1 p.2.1 p.2.2.1 p.2.2.2) s }

/-- The rules of the fields of XF's lane forms (R198). -/
def xfLaneForm (sat : Bool) (c : Use) (d : Use) : Form := { d := d, a := .v, b := .v, c := c, sat := sat, la := d == .v }
/-- XF.ACC. -/
def execXfAcc (o : Opnd) (s : State) := perform (.xfAcc o) o (xfLaneForm true .z .z) (inOrder (xfLane o 1 false)) s
/-- XF.ADD. -/
def execXfAdd (o : Opnd) (s : State) := perform (.xfAdd o) o (xfLaneForm true .z .v) (inOrder (xfLane o 2 true)) s
/-- XF.MIN. -/
def execXfMin (o : Opnd) (s : State) := perform (.xfMin o) o (xfLaneForm false .z .v) (inOrder (xfLane o 3 true)) s
/-- XF.MAX. -/
def execXfMax (o : Opnd) (s : State) := perform (.xfMax o) o (xfLaneForm false .z .v) (inOrder (xfLane o 4 true)) s
/-- XF.XCHG. -/
def execXfXchg (o : Opnd) (s : State) := perform (.xfXchg o) o (xfLaneForm false .z .v) (inOrder (xfLane o (-1) true)) s
/-- XF.CAS. -/
def execXfCas (o : Opnd) (s : State) := perform (.xfCas o) o (xfLaneForm false .v .v) (inOrder (xfLane o (-2) true)) s
/-- XF.TSUM. -/
def execXfTsum (o : Opnd) (s : State) := perform (.xfTsum o) o (xfLaneForm false .z .v) (inOrder (xfLane o (-3) true)) s

end Sys2Proof.Machine
end

