-- ==== Sys2Proof/Machine/Walker.lean ====
section
/-! DEFINITION. The graph walker's own accesses, and the end of a node (R358–R361). -/

namespace Sys2Proof.Machine

/-- The context of a node's accesses: the walker's, under the node's address-space record, at system level (R358; log
entry 27). -/
def State.nodeCtx (s : State) (slot : Nat) (asrec : Int) : Ctx :=
  { core := 324, asrec := asrec.toNat, part := s.partOfSlot slot, sys := true }

/-- The line of a translated address at a node, at its home or, where the walker keeps watch on it, in the walker's cache (R360). -/
def State.nodeLoad (s : State) (x : Xl) (watch : Bool) : Option (State × Line) :=
  if watch then s.readShared graphWalker x.slot x.pin else s.homeRead x.slot x.pin

/-- Reads the line of an address at system scope, with its translation. -/
def State.nodeReadAt (s : State) (c : Ctx) (va : Word) (watch : Bool) : State × Except Stop (Xl × List Word) :=
  match s.translate c va .read false with
  | (s, .error e) => (s, .error e)
  | (s, .ok x) => match s.nodeLoad x watch with
    | none => (s, .error .busy)
    | some (s, l) => (s, if l.poison then .error (.trap (poisonTrap va)) else .ok (x, l.w))

/-- Reads the line of an address at system scope. -/
def State.nodeReadLine (s : State) (c : Ctx) (va : Word) : State × Except Stop (List Word) :=
  let r := s.nodeReadAt c va false
  (r.1, r.2.map (·.2))

/-- Reads a word at system scope. -/
def State.nodeRead (s : State) (c : Ctx) (va : Word) : State × Except Stop Word :=
  let r := s.nodeReadAt c va false
  (r.1, r.2.map (fun p => wordAt p.2 (wordOf va)))

/-- Writes words of the line of an address at its home, as a system-scope release. -/
def State.nodeWrite (s : State) (c : Ctx) (va : Word) (ws : List (Nat × Word)) : State × Except Stop Unit :=
  match s.translate c va .write false with
  | (s, .error e) => (s, .error e)
  | (s, .ok x) => match s.homeWrite x.slot (applyHw (.words ws)) (some false) x.pin with
    | none => (s, .error .busy)
    | some (s, _, _) => (s, .ok ())

/-- A node no longer runs: a release that waited for it takes place, and an end node that waits for it goes on (R359). -/
def State.nodeOff (s : State) (slot node : Nat) : State :=
  let again := (s.graph? slot).any (fun g => g.pending.contains node)
  let s := s.modGraph slot (fun g => { g with running := g.running.erase node, work := g.work.filter (fun w => w.1 != node),
                                              watch := g.watch.filter (fun w => w.1 != node),
                                              lines := assocDel g.lines node, rels := assocDel g.rels node,
                                              old := g.old.erase node })
  let s := if again then (s.modGraph slot (fun g => { g with pending := g.pending.erase node })).releaseNode slot node else s
  match s.graph? slot with
  | some g => if g.ending then s.laterOnce (.endNode slot 0) else s
  | none => s

/-- What is done of a running node's work, and whether it is parked. -/
def State.nodeWork (s : State) (slot node : Nat) : Nat × Bool :=
  ((s.graph? slot).bind (fun g => (g.work.find? (fun w => w.1 == node)).map (fun w => (w.2.1, w.2.2)))).getD (0, false)

/-- Records it. -/
def State.setNodeWork (s : State) (slot node k : Nat) (parked : Bool) : State :=
  s.modGraph slot (fun g => { g with work := g.work.filter (fun w => w.1 != node) ++ [(node, k, parked)] })

/-- A node that runs, and is not parked. -/
def State.nodeRuns (s : State) (slot node : Nat) : Bool :=
  (s.graph? slot).any (fun g => g.running.contains node) && !(s.nodeWork slot node).2

/-- A stop of a node's access (R361): a recoverable fault parks the node, a busy line is tried again, any other faults the
graph. -/
def State.stopNode (s : State) (slot node : Nat) (c : Ctx) (again : Instr) (k : Stop) : State :=
  match k with
  | .trap t =>
    let s := match t.cls with
      | some cl => s.raise { Event.plain cl 652 with kind := 1, addr := t.addr }
      | none => s
    (s.faultGraph slot node).nodeOff slot node
  | .recov perm level va a =>
    (s.postFault c perm level va a [.node slot node]).setNodeWork slot node (s.nodeWork slot node).1 true
  | .busy => s.laterOnce again

/-- The successors of a node that stand in it (R355). -/
def nodeSuccs (l : List Word) : List Int := [intAt l 1, intAt l 2, intAt l 3]

end Sys2Proof.Machine
end

