-- ==== Sys2Proof/Machine/Coll.lean ====
section
/-! DEFINITION. Collectives: descriptors and their refusals (R205, R206), what each member reads, reduces and writes (R207, R210,
R403, R408), matching and reports (R208), and the pulls (R209). -/

namespace Sys2Proof

/-- One level of the fan-in-3 tree (R403). -/
def level3 (add : Int → Int → Int → Int) : List Int → List Int
  | a :: b :: c :: t => add a b c :: level3 add t
  | _ => []

/-- The tree from its leaves, at most `fuel` levels (R403). -/
def treeFrom (add : Int → Int → Int → Int) : Nat → List Int → Int
  | 0, l => l.headD 0
  | fuel + 1, l => match l with
    | [x] => x
    | l => treeFrom add fuel (level3 add l)

/-- The least power of three that is not below N. -/
def pow3From (n : Nat) : Nat → Nat → Nat
  | 0, m => m
  | fuel + 1, m => if m < n then pow3From n fuel (3 * m) else m

/-- The fan-in-3 tree of a sequence of encodings (R403). -/
def tree3 (f : FFmt) (sat : Bool) (l : List Int) : Int :=
  let m := pow3From l.length l.length 1
  if m ≤ 1 then f.deliver sat .tern (f.decode (l.headD 0))
  else treeFrom (fadd3 f sat) l.length (l ++ List.replicate (m - l.length) 0)

end Sys2Proof

namespace Sys2Proof.Machine

/-! ### The descriptor (R205) -/

namespace Exch

def sbase (e : Exch) : Nat := (wordAt e.desc 1).num
def dbase (e : Exch) : Nat := (wordAt e.desc 2).num
/-- Words of a block. -/
def count (e : Exch) : Nat := (intAt e.desc 3).toNat
def ctl (e : Exch) : Int := intAt e.desc 4
def root (e : Exch) : Nat := (intAt e.desc 7).toNat
def tag (e : Exch) : Int := intAt e.desc 8
def red (e : Exch) : Int := field e.ctl 2 1
def sat (e : Exch) : Bool := trit e.ctl 5 == 1
/-- The element type of TYPE. -/
def et (e : Exch) : ETy :=
  let t := field e.ctl 4 3
  if t = 0 then .t27 else if t = 1 then .tf27 else if t = -1 then .t9 else .tf9
/-- Members. -/
def n (e : Exch) : Nat := e.ranks.length
/-- The list position of a rank. -/
def posOf (e : Exch) (rank : Nat) : Nat := e.ranks.findIdx (· == rank)
/-- A reduction: AR or RS. -/
def reduces (e : Exch) : Bool := e.f == 1 || e.f == 2
/-- The words of a source (R207). -/
def srcWords (e : Exch) : Nat := if e.f = 2 then e.n * e.count else e.count
/-- The lines of a source. -/
def lines (e : Exch) : Nat := (e.srcWords + 26) / 27
/-- The position that reduces line i: block b = i div 27 of 729 words is reduced at b mod NRANK (R408). -/
def reducer (e : Exch) (i : Nat) : Nat := i / 27 % e.n
/-- Position j needs line i of the reduced vector. -/
def wanted (e : Exch) (j i : Nat) : Bool := e.f == 1 || (27 * i < (j + 1) * e.count && j * e.count < 27 * i + 27)

/-- What position p pulls: the position that has it, and the line (R207, R408). Line lines + i is line i of the reduced
vector. -/
def needs (e : Exch) (p : Nat) : List (Nat × Nat) :=
  let ls := List.range e.lines
  let others := (List.range e.n).filter (· != p)
  if e.reduces then
    ((ls.filter (fun i => e.reducer i == p)).map (fun i => others.map (fun j => (j, i)))).flatten
    ++ (ls.filter (fun i => e.reducer i != p && e.wanted p i)).map (fun i => (e.reducer i, e.lines + i))
  else if e.f = 3 then (others.map (fun j => ls.map (fun i => (j, i)))).flatten
  else if e.f = 4 then (if p = e.posOf e.root then [] else ls.map (fun i => (e.posOf e.root, i)))
  else if e.f = -2 then ls.map (fun i => (0, i))
  else []

/-- What the other members pull from position p (R209). -/
def serves (e : Exch) (p : Nat) : List (Nat × Nat) :=
  (((List.range e.n).filter (fun j => j != p)).map (fun j =>
    ((if e.f = -1 then { e with f := -2 } else e).needs j).filterMap (fun q => if q.1 = p then some (j, q.2) else none))).flatten

/-- The words of the destination: where each comes from, by position, line and word (R207). -/
def units (e : Exch) (p : Nat) : List (Nat × Nat × Nat × Nat) :=
  let at_ := fun (j i : Nat) => (j, i / 27, i % 27)
  if e.f = 1 then (List.range e.count).map (fun d => (d, e.reducer (d / 27), e.lines + d / 27, d % 27))
  else if e.f = 2 then (List.range e.count).map (fun d =>
    let g := p * e.count + d
    (d, e.reducer (g / 27), e.lines + g / 27, g % 27))
  else if e.f = 3 then (List.range (e.n * e.count)).map (fun d => (d, at_ (d / e.count) (d % e.count)))
  else if e.f = 4 then (List.range e.count).map (fun d => (d, at_ (e.posOf e.root) d))
  else if e.f = -2 then (List.range e.count).map (fun d => (d, at_ 0 d))
  else []

/-- What every exchange carries of the issuer's F, COUNT, TYPE, RED, SAT and ROOT (R208): a send and its receive carry one F, and
ROOT is BC's. -/
def sig (e : Exch) : List Int :=
  [if e.f = -2 then -1 else e.f, (e.count : Int), field e.ctl 4 3, e.red, trit e.ctl 5, if e.f = 4 then (e.root : Int) else 0]

/-- The list that matches collectives: the rank list, or the pair of a send (R208). -/
def key (e : Exch) : List Int := (if e.f < 0 then [-1] else []) ++ e.ranks.map (fun (r : Nat) => (r : Int))

end Exch

/-- This device's rank (R406). -/
def State.rank (s : State) : Nat := (s.cwInt 6570).toNat

/-- Source and destination words of a collective of NRANK members (R207). -/
def collLens (f nrank count : Int) : Int × Int :=
  (if f = -2 then 0 else if f = 2 then nrank * count else count,
   if f = -1 then 0 else if f = 3 then nrank * count else count)

/-- Two ranges of words of the virtual space, from two addresses, share a word; addresses are modulo 3^27. -/
def spansMeet (a la b lb : Int) : Bool :=
  let m : Int := 7625597484987
  0 < la && 0 < lb && ((b - a) % m < 3 * la || (a - b) % m < 3 * lb)

/-- A pair: SEND or RECV. -/
def isPair (f : Int) : Bool := f < 0

/-- The values of a descriptor that R206 refuses, but for the rank list's. -/
def collRefused (f : Int) (w : List Word) (rank : Int) : Bool :=
  let ctl := intAt w 4
  let nrank := if isPair f then 2 else intAt w 6
  let lens := collLens f nrank (intAt w 3)
  intAt w 0 != 0 || !zeroFrom w 9 || field ctl 26 6 != 0 || trit ctl 0 != 0 || trit ctl 5 == -1
  || !([0, 1, -1, 2].contains (field ctl 4 3)) || !([0, 1, -1].contains (field ctl 2 1))
  || (f != 1 && f != 2 && field ctl 2 1 != 0)
  || nrank < 1 || 2187 < nrank || intAt w 3 < 0 || 14348907 < intAt w 3
  || !(wordAt w 1).aligned || !(wordAt w 2).aligned
  || ((f == 4 || isPair f) && (intAt w 7 < 0 || 2186 < intAt w 7))
  || (isPair f && intAt w 7 == rank)
  || spansMeet (wordAt w 1).num lens.1 (wordAt w 2).num lens.2

/-- A rank list that R206 refuses. -/
def listRefused (f : Int) (w : List Word) (ranks : List Int) (rank : Int) : Bool :=
  ranks.any (fun r => r < 0 || 2186 < r) || (distinct ranks).length != ranks.length || !ranks.contains rank
  || (f == 4 && !ranks.contains (intAt w 7))

/-- COLL's checks at issue in the order of R462, and its command (R206, R207, R197). The rank list is the command's list. -/
def collPlan (i : Instr) (o : Opnd) (s0 s : State) (x : Exec) (k : Nat) : Plan :=
  let n := x.t.team
  let rank : Int := s.rank
  match State.cabLine s0 s x o k with
  | (a, none) => .refuse (boundsTrap a)
  | (a, some w) =>
    if s.heldWords n a (a + 81) then .hold
    else if collRefused o.f w rank then .refuse (descTrap a)
    else
      let rl := intAt w 5
      let nrank := (intAt w 6).toNat
      let lens := collLens o.f (nrank : Int) (intAt w 3)
      let cmd : Cmd := { Cmd.fresh i x.t.num with desc := w, locked := true, ranges :=
          (if lens.1 = 0 then [] else globRanges (wordAt w 1).num ((wordAt w 1).num + 3 * lens.1) false)
          ++ (if lens.2 = 0 then [] else globRanges (wordAt w 2).num ((wordAt w 2).num + 3 * lens.2) true) }
      if isPair o.f then
        let other : Int := intAt w 7
        if intAt w 3 = 0 then .null 0
        else if !(s.hasPort (s.partOf n)) then .null 6
        else .go { cmd with list := if o.f = -1 then [.ofInt rank, .ofInt other] else [.ofInt other, .ofInt rank] }
      else if rl % 3 ≠ 0 then .refuse (boundsTrap rl)
      else match s.cabRange n false rl (rl + 3 * nrank) with
        | none => .refuse (boundsTrap rl)
        | some c =>
          let ranks := s.cabWords c nrank
          if s.heldWords n rl (rl + 3 * nrank) then .hold
          else
          if listRefused o.f w (ranks.map Word.val) rank then .refuse (descTrap a)
          else if intAt w 3 = 0 then .null 0
          else if 1 < nrank ∧ !(s.hasPort (s.partOf n)) then .null 6
          else .go { cmd with list := ranks }

/-- Enters a collective: its place among those with its TAG and list is fixed as it issues (R208). -/
def State.openExch (s : State) (who : ExWho) (f : Int) (desc : List Word) (ranks : List Nat) (det : Bool) : State :=
  let e : Exch := { who := who, f := f, desc := desc, ranks := ranks, det := det, kth := 0, begun := false, asked := 0, got := [],
                    res := [], wrote := [], served := [], ended := false, rep := 0 }
  let kth := (s.exch.filter (fun q => q.tag == e.tag && q.key == e.key)).length
  { s with exch := s.exch ++ [{ e with kth := kth }] }

/-- The collective of a command, once its ticket is drawn. -/
def collPost (o : Opnd) (s : State) (n seq : Nat) : State :=
  match s.cmd? n seq with
  | some c => s.openExch (.cmd n seq) o.f c.desc (c.list.map (fun w => w.val.toNat)) (s.det n)
  | none => s

/-- The rules of COLL's fields (R205). -/
def collForm : Form := { d := .v, a := .v, c := .i }
/-- A COLL's body. -/
def collBody (i : Instr) (o : Opnd) : Body := issueBody o (collPlan i o) (collPost o)
/-- COLL.AR. -/
def execCollAr (o : Opnd) (s : State) := perform (.collAr o) o collForm (collBody (.collAr o) o) s
/-- COLL.RS. -/
def execCollRs (o : Opnd) (s : State) := perform (.collRs o) o collForm (collBody (.collRs o) o) s
/-- COLL.AG. -/
def execCollAg (o : Opnd) (s : State) := perform (.collAg o) o collForm (collBody (.collAg o) o) s
/-- COLL.BC. -/
def execCollBc (o : Opnd) (s : State) := perform (.collBc o) o collForm (collBody (.collBc o) o) s
/-- COLL.SEND. -/
def execCollSend (o : Opnd) (s : State) := perform (.collSend o) o collForm (collBody (.collSend o) o) s
/-- COLL.RECV. -/
def execCollRecv (o : Opnd) (s : State) := perform (.collRecv o) o collForm (collBody (.collRecv o) o) s

/-! ### Exchanges -/

/-- Changes the live collective of an issuer. -/
def State.modExch (s : State) (who : ExWho) (f : Exch → Exch) : State :=
  { s with exch := s.exch.map (fun e => if e.who = who ∧ !e.ended then f e else e) }

/-- The live collective of an issuer. -/
def State.exch? (s : State) (who : ExWho) : Option Exch := s.exch.find? (fun e => e.who == who && !e.ended)

/-- The report that a status leaves behind (R208). -/
def repOf (st : Nat) : Nat := if st = 0 then 0 else if st = 8 then 8 else 13

/-- Closes the record of a collective that has ended. -/
def State.closeExch (s : State) (who : ExWho) (st : Nat) : State :=
  s.modExch who (fun e => { e with ended := true, rep := repOf st, got := [], res := [] })

/-- A collective ends with a status: the command with it, a node with its completion or with a graph fault (R208, R361). -/
def State.endExch (s : State) (who : ExWho) (st : Nat) : State :=
  let s := s.closeExch who st
  match who with
  | .cmd n seq => s.endCmd n seq st .zero
  | .node g i => if st = 0 then s.later [.nodeComplete g i (nodeSuccs (s.nodeWords g i))] else (s.faultGraph g i).nodeOff g i

/-- The context of a node's collective. -/
def State.collCtx (s : State) (g i : Nat) : Ctx := s.nodeCtx g (intAt (s.nodeWords g i) 7)

/-- A stop of a collective's access: its issuer parks, is tried again, or fails and reports (R208). -/
def State.stopExch (s : State) (who : ExWho) (k : Stop) : State :=
  let s := match k with
    | .trap t => s.closeExch who (stopStatus t)
    | _ => s
  match who with
  | .cmd n seq => s.stopCmd n seq k
  | .node g i => s.stopNode g i (s.collCtx g i) (.collectiveNode g i) k

/-- Reads a word of the source as the issuer sees it (R209). -/
def State.collRead (s : State) (who : ExWho) (va : Word) : State × Except Stop Word :=
  match who with
  | .cmd n seq => match s.cmd? n seq with
    | some c => s.engineRead (c.issuer n) va false
    | none => (s, .error .busy)
  | .node g i => s.nodeRead (s.collCtx g i) va

/-- Writes a word of the destination (R209, R358). -/
def State.collWrite (s : State) (who : ExWho) (va v : Word) : State × Except Stop Unit :=
  match who with
  | .cmd n seq => match s.cmd? n seq with
    | some c => s.engineWriteWord (c.issuer n) va v
    | none => (s, .error .busy)
  | .node g i => s.nodeWrite (s.collCtx g i) va [(wordOf va, v)]

/-- Reads the words of a line of the own source. -/
def State.collLine (s : State) (e : Exch) (i : Nat) : State × Except Stop (List Word) :=
  (List.range (min 27 (e.srcWords - 27 * i))).foldl (fun (p : State × Except Stop (List Word)) j =>
    match p.2 with
    | .error k => (p.1, .error k)
    | .ok l => match p.1.collRead e.who (.ofNum (e.sbase + 3 * (27 * i + j))) with
      | (s, .error k) => (s, .error k)
      | (s, .ok w) => (s, .ok (l ++ [w]))) (s, .ok [])

/-! ### Reduction (R210) -/

/-- One element's reduction: contributions in list order under DET, in order of arrival under FLOW. -/
def reduceElem (e : Exch) (l : List Int) : Int :=
  let f := fmtOf e.et
  if isFloat e.et then
    if e.red = 0 then
      (if e.det then tree3 f e.sat l
       else l.foldl (fun a x => f.deliver e.sat .tern ((f.decode a).add (f.decode x))) 0)
    else
      let vs := l.map f.decode
      f.deliver false .tern (vs.foldl (if e.red = 1 then FVal.min else FVal.max) (vs.headD .nan))
  else if e.red = 0 then narrow e.et.width e.sat (l.foldl (· + ·) 0)
  else l.foldl (if e.red = 1 then min else max) (l.headD 0)

/-- One line's reduction, word by word. -/
def reduceLine (e : Exch) (ls : List (List Word)) : List Word :=
  (List.range ((ls.headD []).length)).map (fun j => mapElems e.et (reduceElem e) (ls.map (fun l => wordAt l j)))

/-- A line that position j has sent. -/
def Exch.gotLine (e : Exch) (j i : Nat) : Option (List Word) := (e.got.find? (fun g => g.1 == j && g.2.1 == i)).map (·.2.2)

/-- Reduces line i at its position once every contribution is there. Under FLOW the own contribution arrives at a free choice
among the others (log entry 28). -/
def State.reduceAt (s : State) (e : Exch) (p i : Nat) : State × Except Stop Unit :=
  let others := e.got.filter (fun g => g.2.1 == i)
  if others.length + 1 < e.n ∨ e.res.any (fun r => r.1 == i) then (s, .ok ())
  else match s.collLine e i with
    | (s, .error k) => (s, .error k)
    | (s, .ok own) =>
      let (s, at_) := s.choose e.n
      let order :=
        if e.det then (List.range e.n).map (fun j => if j = p then own else (e.gotLine j i).getD [])
        else
          let l := others.map (·.2.2)
          l.take at_ ++ [own] ++ l.drop at_
      (s.modExch e.who (fun q => { q with res := q.res ++ [(i, reduceLine e order)] }), .ok ())

/-- The value of a word of the destination, if it is there. -/
def State.unitValue (s : State) (e : Exch) (p : Nat) (u : Nat × Nat × Nat × Nat) : State × Except Stop (Option Word) :=
  let (_, j, i, w) := u
  if j = p then
    if e.lines ≤ i ∧ e.reduces then (s, .ok ((e.res.find? (fun r => r.1 == i - e.lines)).map (fun r => wordAt r.2 w)))
    else match s.collRead e.who (.ofNum (e.sbase + 3 * (27 * i + w))) with
      | (s, .error k) => (s, .error k)
      | (s, .ok v) => (s, .ok (some v))
  else (s, .ok ((e.gotLine j i).map (fun l => wordAt l w)))

/-- Writes a word of the destination that is there and not yet written (R209). -/
def State.writeUnit (s : State) (who : ExWho) (p : Nat) (u : Nat × Nat × Nat × Nat) : State × Except Stop Unit :=
  match s.exch? who with
  | none => (s, .ok ())
  | some e =>
    if e.wrote.contains u.1 then (s, .ok ())
    else match s.unitValue e p u with
      | (s, .error k) => (s, .error k)
      | (s, .ok none) => (s, .ok ())
      | (s, .ok (some v)) => match s.collWrite who (.ofNum (e.dbase + 3 * u.1)) v with
        | (s, .error k) => (s, .error k)
        | (s, .ok ()) =>
          let s := s.modExch who (fun q => { q with wrote := q.wrote ++ [u.1] })
          (match who with
            | .cmd n seq => s.modCmd n seq (fun c => { c with done := c.done + 1 })
            | .node _ _ => s, .ok ())

/-- Runs actions until one stops. -/
def runAll {α : Type} (f : State → α → State × Except Stop Unit) : List α → State → State × Except Stop Unit
  | [], s => (s, .ok ())
  | a :: t, s => match f s a with
    | (s, .error k) => (s, .error k)
    | (s, .ok ()) => runAll f t s

/-- A pull request for a line of a member's source or reduced vector (R209). -/
def pullFlit (e : Exch) (me : Nat) (q : Nat × Nat) : Flit :=
  { ty := 1, src := me, dst := e.ranks.getD q.1 0, tag := e.tag, idx := q.2, slot := 0, line := zeroLine, mask := [], kth := e.kth,
    key := e.key, sig := e.sig, rep := 0 }

/-- The block of 729 words of a position that a pull belongs to (R408): those of the reduced vector beside those of the source. -/
def Exch.blockOf (e : Exch) (q : Nat × Nat) : Nat × Nat :=
  (q.1, if e.reduces && e.lines ≤ q.2 then e.lines + (q.2 - e.lines) / 27 else q.2 / 27)

/-- The blocks in flight: of a line asked for and not yet here (R408). -/
def Exch.flying (e : Exch) (p : Nat) : List (Nat × Nat) :=
  distinct ((((e.needs p).take e.asked).filter (fun q => (e.gotLine q.1 q.2).isNone)).map e.blockOf)

/-- The pulls that come next while at most 81 blocks are in flight (R408). -/
def Exch.roomFor (e : Exch) : List (Nat × Nat) → List (Nat × Nat) → List (Nat × Nat)
  | _, [] => []
  | fly, q :: t =>
    if fly.contains (e.blockOf q) then q :: e.roomFor fly t
    else if fly.length < 81 then q :: e.roomFor (e.blockOf q :: fly) t
    else []

/-- Asks for further lines while buffer room frees: at most 81 blocks are in flight (R408). -/
def State.askMore (s : State) (who : ExWho) : State :=
  match s.exch? who with
  | none => s
  | some e =>
    let p := e.posOf s.rank
    let more := e.roomFor (e.flying p) ((e.needs p).drop e.asked)
    (s.modExch who (fun q => { q with asked := q.asked + more.length })).sendFlits (more.map (pullFlit e s.rank))

/-- A collective goes on as far as it can: it asks, reduces, writes, and ends once its destination is written and every member
has pulled all that it needs (R209). -/
def State.advanceExch (s : State) (who : ExWho) : State :=
  let s := (s.modExch who (fun e => { e with begun := true })).askMore who
  match s.exch? who with
  | none => s
  | some e =>
    let p := e.posOf s.rank
    let mine := if e.reduces then (List.range e.lines).filter (fun i => e.reducer i == p) else []
    match runAll (fun s i => match s.exch? who with | some e => s.reduceAt e p i | none => (s, .ok ())) mine s with
    | (s, .error k) => s.stopExch who k
    | (s, .ok ()) => match runAll (fun s u => s.writeUnit who p u) (e.units p) s with
      | (s, .error k) => s.stopExch who k
      | (s, .ok ()) => match s.exch? who with
        | none => s
        | some e => if e.wrote.length = (e.units p).length ∧ (e.serves p).all e.served.contains = true then s.endExch who 0 else s

/-! ### Pulls (R208, R209) -/

/-- The collective that a flit belongs to: the k-th with its TAG and its list. -/
def State.exchOf (s : State) (f : Flit) : Option Exch :=
  s.exch.find? (fun e => e.kth == f.kth && e.tag == f.tag && e.key == f.key)

/-- The issuer of a collective cannot answer now: it has not begun, is parked or saved, or has just ended. -/
def State.exchWaits (s : State) (e : Exch) : Bool :=
  match e.who with
  | .cmd n seq => match s.cmd? n seq with
    | some c => !c.begun || c.parked || !c.live
    | none => s.saved.any (fun v => v.team.num == n)
  | .node g i => !e.begun || (s.nodeWork g i).2

/-- The issuer of a collective is gone: its context was killed. -/
def State.exchLost (s : State) (e : Exch) : Bool :=
  match e.who with
  | .cmd n seq => (s.cmd? n seq).isNone && !(s.saved.any (fun v => v.team.num == n))
  | .node g i => !(s.graph? g).any (fun x => x.running.contains i)

/-- The answer to a pull request: a line, or a report (R208, R407). -/
def pullAnswer (e : Exch) (f : Flit) (l : List Word) (rep : Nat) : Flit :=
  { f with ty := 2, src := f.dst, dst := f.src, line := ⟨l ++ List.replicate (27 - l.length) .zero, false⟩, sig := e.sig, rep := rep }

/-- Sends an answer. -/
def State.answerPull (s : State) (e : Exch) (f : Flit) (l : List Word) (rep : Nat) : State :=
  { s with sent := s.sent ++ [pullAnswer e f l rep] }

/-- Serves a line to a member: it has pulled from this device's source (R391). -/
def State.serveLine (s : State) (e : Exch) (f : Flit) (l : List Word) : State :=
  let s := s.answerPull e f l 0
  let s := s.modExch e.who (fun q => { q with served := q.served ++ [(e.posOf f.src, f.idx)] })
  (match e.who with | .cmd n _ => s.irrevocable n | .node _ _ => s).advanceExch e.who

/-- A flit arrives: one with a bad CRC is retried on its link, with the event of its port; another has its effect (R401, R407). -/
def State.arrives (s : State) (f : Flit) (again : Flit → Instr) (act : Host.Outcome State Fault Refusal) : Host.Outcome State Fault Refusal :=
  match f.bad with
  | some port => .next ((s.raise (Event.plain 23 (656 + port))).later [again { f with bad := none }])
  | none => act

/-- PULL_REQUEST (R209): the line is read as the issuing team sees it now; a request to which nothing is issued yet waits. -/
def execPullRequest (f : Flit) (s : State) : Host.Outcome State Fault Refusal :=
  s.arrives f .pullRequest <| match s.exchOf f with
  | none => .next (s.later [.pullRequest f])
  | some e =>
    if e.ended then .next (if e.rep = 0 ∧ e.sig = f.sig then s else s.answerPull e f [] (if e.rep = 0 then 8 else e.rep))
    else if s.exchLost e then .next (s.answerPull e f [] 13)
    else if e.sig ≠ f.sig ∨ f.rep = 8 then .next ((s.endExch e.who 8).answerPull e f [] 8)
    else if s.exchWaits e then .next (s.later [.pullRequest f])
    else if e.reduces && e.lines ≤ f.idx then
      match e.res.find? (fun r => r.1 == f.idx - e.lines) with
      | some r => .next (s.serveLine e f r.2)
      | none => .next (s.later [.pullRequest f])
    else match s.collLine e f.idx with
      | (s, .ok l) => .next (s.serveLine e f l)
      | (s, .error k) => .next ((s.stopExch e.who k).later [.pullRequest f])

/-- A flit in flight is answered by another. -/
def Flit.answers (a q : Flit) : Bool :=
  q.dst == a.src && q.tag == a.tag && q.idx == a.idx && (if a.ty = 2 then q.ty == 1 && q.kth == a.kth && q.key == a.key else q.ty == 0)

/-- PULL_DATA (R408): a report or a disagreement ends the collective; a line is kept, reduced or written. -/
def execPullData (f : Flit) (s : State) : Host.Outcome State Fault Refusal :=
  s.arrives f .pullData <|
  let s := { s with flits := s.flits.filter (fun q => !Flit.answers f q) }
  match s.exchOf f with
  | none => .next s
  | some e =>
    if e.ended || s.exchLost e then .next s
    else if f.rep = 8 ∨ f.sig ≠ e.sig then .next (s.endExch e.who 8)
    else if f.rep ≠ 0 then .next (s.endExch e.who 13)
    else
      let j := e.posOf f.src
      if !((e.needs (e.posOf s.rank)).contains (j, f.idx)) || (e.gotLine j f.idx).isSome then .next s
      else
        let s := s.modExch e.who (fun q => { q with got := q.got ++ [(j, f.idx, f.line.w)] })
        .next (if s.exchWaits e then s else s.advanceExch e.who)

end Sys2Proof.Machine
end

