-- ==== Sys2Proof/Machine/Sched.lean ====
section
/-! DEFINITION. The machine between its steps: launching a team (R138, R341), instruction fetch (R157), which pending step may
come next, and the passing of a cycle. -/

namespace Sys2Proof.Machine

/-! ### Launch -/

/-- A new thread (R138, R341). -/
def Thread.launch (regs : Nat) (pc : Word) (age : Nat) : Thread :=
  { regs := List.replicate regs .zero, preds := List.replicate 8 .z, pc := pc, run := .ready, wins := [], age := age,
    fault := .zero, instr := [], leases := [], unackPub := 0, unackSyn := 0, conv := 0 }

/-- The preset k registers (R341) of squad q of the team with linear index `lin`. -/
def presets (node : List Word) (lin member q : Nat) : List Word :=
  let gx := (intAt node 6).toNat
  let gy := (intAt node 7).toNat
  [wordAt node 20, .ofInt (lin % gx), .ofInt (lin / gx % gy), .ofInt (lin / gx / gy), wordAt node 6, wordAt node 7, wordAt node 8,
   .ofInt q, wordAt node 9, lowWord lin, .ofInt member, highWord lin] ++ List.replicate 69 .zero

/-- A new squad (R138, R143). -/
def Squad.launch (node : List Word) (lin member q age : Nat) : Squad :=
  { threads := List.replicate 27 (Thread.launch (intAt node 10).toNat (wordAt node 5) age), kb := presets node lin member q,
    tb := List.replicate 81 .zero, hp := List.replicate 8 .z,
    groups := List.replicate (intAt node 14).toNat (List.replicate 27 .zero), sfuq := [], kwait := [], frozen := false }

/-- A new coffer tile (R275). -/
def Tile.zero : Tile := { ext := false, ovf := false, inx := false, acc := [] }

/-- A shadow that stands where its leader stands (R396). -/
def Shadow.of (q : Squad) : Shadow := { vals := q, last := q, trail := [], diverged := false }

/-- Under VIGIL each squad and each tile of a team has a shadow, built from its leader (R396, R299, R384). -/
def TeamBody.shadowed (b : TeamBody) (vigil : Bool) : TeamBody :=
  if vigil then { b with shadows := b.squads.map Shadow.of, shtiles := b.tiles } else b

/-- A grid node asks for VIGIL (R357). -/
def nodeVigil (node : List Word) : Bool := trit (intAt node 17) 1 == 1

/-- A new team's restorable part: its cabinet zero (R117), its tiles zero (R275). -/
def TeamBody.launch (node : List Word) (lin member age : Nat) : TeamBody :=
  TeamBody.shadowed
    { squads := (List.range (intAt node 9).toNat).map (fun q => Squad.launch node lin member q age), cab := [],
      tiles := List.replicate (intAt node 12).toNat Tile.zero, escrow := [], parts := [], cmds := [], recs := [], queries := [],
      nseq := 0 } (nodeVigil node)

/-- A new team (R341, R363); its shadow interval opens (R390). -/
def Team.launch (num grid lin core tslot base member crew age : Nat) (node : List Word) : Team :=
  let b := TeamBody.launch node lin member age
  { num := num, grid := grid, lin := lin, core := core, tslot := tslot, base := base, member := member, crew := crew, body := b,
    tvec := .zero, events := [], handler := none, pubs := [], npub := 0, closing := [], ending := false, saving := false,
    opened := some b, covered := true, irrevocable := false, rbcnt := 0, rbHere := 0 }

/-! ### Fetch -/

/-- The words from an address to the end of its fetch block, where the core's instruction cache holds it (R156, R157). -/
def State.fetch (s : State) (core asrec : Nat) (sys : Bool) (pc : Word) : Option (List Word) :=
  ((s.core core).icache.find? (fun b => b.asrec == asrec && b.sys == sys && b.vline == pc.num / 81)).map
    (fun b => (b.words.drop (pc.num % 81 / 3)).take (9 - pc.num % 27 / 3))

/-- The instruction of fetched words: the decoded one, or the illegal-instruction step with its code and the words that the
frame records (R156, R173). -/
def fetched (ws : List Word) : Instr :=
  match decode ws with
  | .ok i => i
  | .error e => .illegalInstruction e.code (ws.take (((ws.headD .zero).bits 1 3) + 1))

/-- A thread may issue: runnable, at the address, its squad not frozen, its team not stopped for a save (R347, R372, R383). -/
def State.atPc (s : State) (t : TRef) (pc : Word) : Bool :=
  (s.thread? t).any (fun th => th.run == .ready && th.pc == pc)
  && (s.squad? t.team t.squad).any (fun q => !q.frozen) && (s.team? t.team).any (fun x => !x.saving)

/-- An issued bundle that issues in one cycle with another: of a team's other squad, at the same address (R348). -/
def Bundle.mate (a b : Bundle) : Bool :=
  a.core == b.core && a.pc == b.pc && a.handler.isNone && b.handler.isNone && a.shadow.isNone && b.shadow.isNone
  && a.threads.any (fun t => b.threads.any (fun u => t.team == u.team))

/-- The issued bundle as it now stands, with the instruction at its address; `none` where nothing is left to issue. The bundles of a
convergence point of the whole team are performed together (R348). -/
def State.takeBundle (s : State) (b : Bundle) : Option (State × Instr) :=
  let b : Bundle := { b with threads := b.threads.filter (fun t => s.atPc t b.pc) }
  let team : Option Nat := match b.handler with
    | some n => if (s.team? n).any (fun t => t.handler.any (fun h => h.run == .ready && h.pc == b.pc)) then some n else none
    | none => (b.threads.head?).map (·.team)
  match team with
  | none => none
  | some n => (s.fetch b.core (s.asrecOf n) (s.sysLevel n) b.pc).map (fun ws =>
      let i := fetched ws
      if i.scope = .team then
        let mates := s.issue.filter b.mate
        ({ s with cur := { b with threads := b.threads ++ ((mates.map (·.threads)).flatten).filter (fun t => s.atPc t b.pc) },
                  issue := s.issue.filter (fun x => !mates.contains x) }, i)
      else ({ s with cur := b }, i))

/-! ### Pending steps -/

/-- The team whose request to a home this is; none for the requests of others. -/
def teamOfHw (x : HwSrc) : Option Nat :=
  match x with
  | .sts t _ => some t.team
  | .red ts => (ts.head?).map (·.team)
  | .pub n _ _ => some n
  | _ => none

/-- Two pending steps that must keep their order: writes of one team to one line (R309, R318, R319), requests of one drawer
(R120), and the lines of the event log. -/
def ordered (a b : Instr) : Bool :=
  match a, b with
  | .homeHw r, .homeHw q =>
    (r.slot == q.slot && (teamOfHw r.src).isSome && teamOfHw r.src == teamOfHw q.src) || (r.src == .log && q.src == .log)
  | .drawerRequest c d, .drawerRequest e f => c == e && d == f
  | _, _ => false

/-- The places in the agenda of the steps that may come next. -/
def eligible (l : List Instr) : List Nat :=
  (List.range l.length).filter (fun i => match l[i]? with
    | some x => !((l.take i).any (fun y => ordered y x))
    | none => false)

/-! ### A cycle -/

/-- The steps that a thread's clocks call for: the end of a lease (R331), of a sleep (R380). -/
def clockSteps (now : Nat) (t : TRef) (th : Thread) : List Instr :=
  (th.leases.filter (fun r => r.granted && r.valid && r.count == 1)).map (fun r => Instr.leaseExpiry t r.vline)
  ++ (match th.run with | .sleep _ d => if d ≤ now then [Instr.sleepWake t] else [] | _ => [])

/-- The steps that a die's sampling calls for (R109). DESIGN CHOICE, log entry 59: the first re-sampling interval begins 3^n cycles after
the reset. -/
def sampleSteps (now d : Nat) (x : Denom) : List Instr :=
  (if now % 3 ^ x.n = 0 then [Instr.resamplingInterval { die := d, n := x.n }] else [])
  ++ (if x.sampling ∧ now = x.start + 3 ^ 16 then [Instr.samplingWindowEnd d] else [])

/-- The steps of the governor and of the firmware's power loop (R460): every 81 cycles, and every 1 ms (2,100,000 cycles), with what the
sensors read. -/
def powerSteps (now : Nat) : List Instr :=
  (if now % 81 = 0 then [Instr.governorTick ((List.range 4).map (Config.sensor now)) ((List.range 4).map (fun d => Config.sensor now (4 + d)))]
   else [])
  ++ (if now % 2100000 = 0 then [Instr.ilimUpdate (Config.sensor now 8)] else [])

/-- Cores whose issue is withheld in this cycle by the governor or by their droop detectors (R445, R460). -/
def State.throttled (s : State) : Nat :=
  if ((s.cycle % 9 : Nat) : Int) < s.cwInt 20012 then 324
  else (s.cores.filter (fun c => c.droop && s.cycle % 9 != 8)).length

/-- The steps that the passing of a cycle calls for. -/
def State.cycleSteps (s : State) : List Instr :=
  let now := s.cycle + 1
  let threads := (s.teams.map (fun t => s.liveThreads t.num)).flatten
  let cores := distinct (s.teams.map (·.core))
  (threads.map (fun p => clockSteps now p.1 p.2)).flatten
  ++ (if s.thermtrip then [] else
      (if now % 3 = 0 then cores.map Instr.bundlerRound else []) ++ cores.map Instr.issueSelection)
  ++ (s.grids.filter (fun g => !g.killed && g.next < (intAt g.node 6 * intAt g.node 7 * intAt g.node 8).toNat)).map
      (fun g => Instr.teamPlacement g.num)
  ++ (s.teams.map (fun t => (t.body.cmds.filter (fun c => !c.parked && c.status.isNone && c.pieces.isEmpty
        && c.outstanding == 0)).map (fun c => Instr.scoreboardStart t.num c.seq))).flatten
  ++ (s.teams.filter (·.saving)).map (fun t => Instr.teamSave t.num)
  ++ (s.teams.filter (·.ending)).map (fun t => Instr.teamEnd t.num)
  ++ s.saved.zipIdx.map (fun p => Instr.teamRestore p.2)
  ++ s.shoots.map (fun x => Instr.shootdownComplete x.id)
  ++ (s.staging.filter (fun g => g.start + 2100000 ≤ now)).map (fun g => Instr.imageStagingTimeout g.who g.slot)
  ++ (s.dies.zipIdx.map (fun p => sampleSteps now p.2 p.1.denom)).flatten
  ++ powerSteps now

/-- One core cycle passes (R3): the stamps of 21 cycles are 10 ns (R399), the countdowns of leases fall (R331), withheld core-cycles are
counted (R445), and the events of a stamp that ends are logged (R399). -/
def State.nextCycle (s : State) : State :=
  let steps := s.cycleSteps
  let ns := (s.cycle + 1) * 10 / 21 - s.cycle * 10 / 21
  let run := fun (th : Thread) => { th with leases := th.leases.map (fun r => if r.granted then { r with count := r.count - 1 } else r) }
  let squad := fun (q : Squad) => { q with threads := q.threads.map run }
  let team := fun (t : Team) => { t with body := { t.body with squads := t.body.squads.map squad } }
  let s := if ns = 0 then s else s.flushLog
  let s := if s.throttled = 0 then s else s.setCwInt 20013 (s.cwInt 20013 + s.throttled)
  let s := { s with cycle := s.cycle + 1, stamps := s.stamps.map (fun x => (x + ns) % 3 ^ 54), teams := s.teams.map team }
  steps.foldl (fun s i => s.laterOnce i) s

/-! ### The first instruction -/

/-- A grid node with room for every instruction: one team of one squad, 81 registers, 9 cabinet rows, a tile, 9 barriers, 8
group slots, a quota of 27 lines, FLOW, PLAIN, RAW, cooperative, system level; log entry 11. -/
def probeNode (pc : Word) : List Word :=
  [.ofInt 1, .ofInt (-1), .ofInt (-1), .ofInt (-1), .ofInt 1, pc, .ofInt 1, .ofInt 1, .ofInt 1, .ofInt 1, .ofInt 81, .ofInt 9,
   .ofInt 1, .ofInt 9, .ofInt 8, .ofInt 27, .zero, .ofInt (81 + 27 - 9 - 3 - 1), .zero, .ofInt 1, .zero, .zero, .zero, .zero,
   .zero, .zero, .zero]

/-- The words stored where core 0 fetches its next instruction: a resident team whose threads stand there, its block in the
instruction cache, its bundle issued, and nothing else pending; log entry 11. -/
def State.place (s : State) (ws : List Word) : State :=
  let pc := Word.ofNum 27
  let node := probeNode pc
  let n := s.nteam
  let g : Grid := { num := s.ngrid, src := none, part := 0, node := node, nodeAddr := 0, next := 1, live := 1, err := false,
                    killed := false, merging := false, deferred := [], prepared := [0], unack := 0, told := false }
  let t := Team.launch n s.ngrid 0 0 0 0 0 0 s.cycle node
  let b : Bundle := { core := 0, threads := (List.range 27).map (fun l => ⟨n, 0, l⟩), pc := pc, handler := none, waited := 0 }
  let k : ILine := { asrec := 0, sys := true, vline := 0, words := List.replicate 9 .zero ++ ws ++ List.replicate (18 - ws.length) .zero }
  let s := { s with teams := s.teams ++ [t], grids := s.grids ++ [g], nteam := n + 1, ngrid := s.ngrid + 1, agenda := [],
                    issue := [b] }
  s.modCore 0 (fun c => { c with icache := k :: c.icache.filter (fun b => !(b.asrec == 0 && b.sys && b.vline == 0)) })

end Sys2Proof.Machine
end

