-- ==== Sys2Proof/Machine/Matrix.lean ====
section
/-! DEFINITION. The matrix engine and the coffer: accumulators and tiles (R275–R279), parameter blocks and their refusals
(R284, R285, R288, R462), the eight instructions (R280–R283) and what each command does (R286–R297). -/

namespace Sys2Proof.Machine

/-! ### Accumulators and tiles (R275–R279) -/

/-- The value of an accumulator of an extended or a fixed tile (R276–R278). -/
def Acc.value (ext : Bool) (a : Acc) : FVal :=
  if a.tag = 1 then .inf false
  else if a.tag = -1 then .inf true
  else if a.tag = 2 then .nan
  else if ext then .fin (Q.tern (extF.sig a.q) (extF.expo a.q - 71))
  else .fin ((Q.ofInt a.q).scale3 (-36))

/-- The accumulator that takes a value, and whether the value was clamped (R276–R278): the nearest multiple of 3^−36 in a fixed
tile, round72 in an extended one. -/
def Acc.ofValue (ext : Bool) (v : FVal) : Acc × Bool :=
  match v with
  | .nan => (⟨0, 2⟩, false)
  | .inf neg => (⟨0, if neg then -1 else 1⟩, false)
  | .fin q =>
    if ext then (⟨extF.round true .tern q, 0⟩, extF.round true .tern q != extF.round false .tern q)
    else
      let x := roundInt .tern (q.scale3 36)
      (⟨sat 81 x, 0⟩, sat 81 x != x)

/-- An accumulator of a tile, by 27i + j. -/
def Tile.get (t : Tile) (k : Nat) : Acc := (assocGet t.acc k).getD ⟨0, 0⟩

/-- The value of an accumulator of a tile. -/
def Tile.value (t : Tile) (k : Nat) : FVal := (t.get k).value t.ext

/-- A tile of a kind that takes new accumulators, each with whether it was clamped; the flags only rise. -/
def Tile.put (t : Tile) (ext : Bool) (f : Nat → Acc × Bool) : Tile :=
  let l := (List.range 729).map (fun k => (k, f k))
  { ext := ext, ovf := t.ovf || l.any (fun p => p.2.2), inx := t.inx,
    acc := (l.filter (fun p => p.2.1 != ⟨0, 0⟩)).map (fun p => (p.1, p.2.1)) }

/-- Every accumulator zero and finite; the kind and the flags stay. -/
def Tile.clear (t : Tile) : Tile := { t with acc := [] }

/-- A tile's state word (R279). -/
def Tile.word (t : Tile) : Word :=
  .ofInt ((if t.ext then 1 else 0) + (if t.ovf then 3 else 0) + (if t.inx then 9 else 0)
    + (if t.acc.any (fun p => p.2.tag != 0) then 27 else 0))

/-- The words of a tile's spill image (R295). -/
def Tile.image (t : Tile) : List Word :=
  let tag := fun (w : Nat) => ofTrits ((List.range 27).map (fun p => trit (t.get ((27 * w + p) / 2)).tag ((27 * w + p) % 2)))
  let part := fun (i : Nat) =>
    let a := t.get (i / 3)
    if a.tag = 0 then field a.q (27 * (i % 3) + 26) (27 * (i % 3)) else 0
  [t.word] ++ List.replicate 26 .zero ++ (List.range 54).map (fun w => .ofInt (tag w))
    ++ (List.range 2187).map (fun i => .ofInt (part i))

/-- The tile of a spill image; none where the image is invalid (R296). -/
def Tile.ofImage (l : List Word) : Option Tile :=
  let s := intAt l 0
  let tag := fun (k : Nat) =>
    let at_ := fun (b : Nat) => trit (intAt l (27 + b / 27)) (b % 27)
    at_ (2 * k) + 3 * at_ (2 * k + 1)
  if field s 26 4 ≠ 0 ∨ !((l.take 27).drop 1).all (· == .zero) ∨ trit s 0 = -1 ∨ trit s 1 = -1 ∨ trit s 2 = -1
      ∨ (List.range 729).any (fun k => !([0, 1, -1, 2] : List Int).contains (tag k)) then none
  else
    let ext := trit s 0 == 1
    let raw := fun (k : Nat) => intAt l (81 + 3 * k) + intAt l (82 + 3 * k) * ((3 ^ 27 : Nat) : Int)
      + intAt l (83 + 3 * k) * ((3 ^ 54 : Nat) : Int)
    let t := Tile.put Tile.zero ext (fun k => Acc.ofValue ext (Acc.value ext ⟨raw k, tag k⟩))
    some { t with ovf := trit s 1 == 1, inx := trit s 2 == 1 }

/-- A tile of a team (R275). -/
def State.tile (s : State) (n i : Nat) : Tile :=
  match s.team? n with
  | some t => t.body.tiles.getD i Tile.zero
  | none => Tile.zero

/-- A tile takes a new value, and under VIGIL its shadow what `f` makes of the shadow (R299). -/
def State.setTile (s : State) (n i : Nat) (t : Tile) (f : Tile → Tile) : State :=
  s.modBody n (fun b => { b with tiles := setNth b.tiles i t, shtiles := modNth f b.shtiles i })

/-- A tile and its shadow agree (R299). -/
def State.tilesAgree (s : State) (n i : Nat) : Bool :=
  (s.team? n).all (fun t => (t.body.shtiles[i]?).all (fun u => u == t.body.tiles.getD i Tile.zero))

/-! ### The parameter block (R284, R285) -/

/-- The types of A and B, whether the tile is extended, and whether sparsity is allowed, for a MODE (R273). -/
def mxMode (m : Int) : Option (ETy × ETy × Bool × Bool) :=
  if m = 0 then some (.tf9, .tf9, false, true)
  else if m = 1 then some (.t9, .t9, false, true)
  else if m = 2 then some (.t1, .tf9, false, false)
  else if m = 3 then some (.tf9, .t1, false, true)
  else if m = 4 then some (.t1, .t1, false, false)
  else if m = -1 then some (.tf27, .tf27, true, false)
  else none

/-- A parameter block and the rows of A that its tile rows take. -/
structure MxP where
  w : List Word
  rows : List Int
deriving DecidableEq, Repr

namespace MxP

def abase (p : MxP) : Int := intAt p.w 0
def ast (p : MxP) : Int := intAt p.w 1
def aidx (p : MxP) : Int := intAt p.w 2
def bbase (p : MxP) : Int := intAt p.w 3
def bst (p : MxP) : Int := intAt p.w 4
def kdep (p : MxP) : Nat := (intAt p.w 5).toNat
def ctl (p : MxP) : Int := intAt p.w 6
def mbase (p : MxP) : Int := intAt p.w 7
def mst (p : MxP) : Int := intAt p.w 8
def cbase (p : MxP) : Int := intAt p.w 9
def cst (p : MxP) : Int := intAt p.w 10
def tile (p : MxP) : Int := field p.ctl 2 0 + 13
def mode (p : MxP) : ETy × ETy × Bool × Bool := (mxMode (field p.ctl 5 3)).getD (.t27, .t27, false, false)
def ta (p : MxP) : ETy := p.mode.1
def tb (p : MxP) : ETy := p.mode.2.1
def ext (p : MxP) : Bool := p.mode.2.2.1
def spar (p : MxP) : Int := field p.ctl 8 6
def idxm (p : MxP) : Bool := trit p.ctl 9 == 1
def acc (p : MxP) : Int := field p.ctl 11 10
/-- The type of the C source (R285). -/
def ctyp (p : MxP) : ETy :=
  let c := field p.ctl 13 12
  if c = 0 then .t27 else if c = 1 then .tf27 else if c = -1 then .t9 else .tf9
/-- The group g and what it keeps, n (R287). -/
def group (p : MxP) : Nat × Nat :=
  if p.spar = 1 then (3, 1) else if p.spar = 2 then (3, 2) else if p.spar = 3 then (9, 3) else if p.spar = 4 then (9, 6) else (1, 1)
/-- Metadata trits of a group. -/
def metaPer (p : MxP) : Nat := if p.group.1 = 9 then 6 else 1
/-- Elements that a row of A holds. -/
def kept (p : MxP) : Nat := p.kdep * p.group.2 / p.group.1
/-- Metadata trits of a row. -/
def metaTrits (p : MxP) : Nat := p.kdep / p.group.1 * p.metaPer

/-- The values that R288 refuses. -/
def refused (p : MxP) : Bool :=
  let ctyp := field p.ctl 13 12
  !((p.w.drop 11).all (· == .zero)) || field p.ctl 26 14 != 0 || (mxMode (field p.ctl 5 3)).isNone
  || p.spar < 0 || 4 < p.spar || trit p.ctl 9 == -1 || !([0, 1, -1] : List Int).contains p.acc
  || !([0, 1, -1, 2] : List Int).contains ctyp || (ctyp != 0 && p.acc != -1)
  || intAt p.w 5 < 27 || 19683 < intAt p.w 5 || intAt p.w 5 % 27 != 0
  || ([0, 1, 2, 3, 4, 7, 8, 9, 10] : List Nat).any (fun i => intAt p.w i % 3 != 0)
  || (p.spar != 0 && !p.mode.2.2.2)

end MxP

/-- Trytes of `k` packed elements (R286). -/
def packedSize (et : ETy) (k : Nat) : Int := 3 * (((k + et.per - 1) / et.per : Nat) : Int)

/-- From the least to beyond the greatest tryte of rows of a size. -/
def rowBounds (base : Int) (offs : List Int) (size : Int) : Int × Int :=
  (base + offs.foldl min (offs.headD 0), base + offs.foldl max (offs.headD 0) + size)

/-- The bounding ranges of an operation in the order of R288, once its rows are known: the A rows named, their metadata, B, the index
vector, and the C source. -/
def MxP.ranges (p : MxP) : List (Int × Int) :=
  let named := p.rows.filter (0 ≤ ·)
  (if named.isEmpty then [] else
    [rowBounds p.abase (named.map (· * p.ast)) (packedSize p.ta p.kept)]
    ++ (if p.spar = 0 then [] else [rowBounds p.mbase (named.map (· * p.mst)) (packedSize .t1 p.metaTrits)]))
  ++ [rowBounds p.bbase [0, ((p.kdep : Int) - 1) * p.bst] (packedSize p.tb 27)]
  ++ (if p.idxm then [(p.aidx, p.aidx + 81)] else [])
  ++ (if p.acc = -1 then [rowBounds p.cbase [0, 26 * p.cst] (packedSize p.ctyp 27)] else [])

/-! ### Elements (R286, R287) -/

/-- `k` elements of a type packed from a cabinet address, at their values. -/
def State.packed (s : State) (n : Nat) (a : Int) (et : ETy) (k : Nat) : List FVal :=
  ((List.range ((k + et.per - 1) / et.per)).map (fun (w : Nat) =>
    (List.range et.per).map (fun e => ternVal et (Sys2Proof.Machine.elemAt et (s.cab n (a / 3 + (w : Int))).val e)))).flatten.take k

/-- Places the kept elements of a group; the others are zero. -/
def expandGroup (keep : List Nat) (g : Nat) (vals : List FVal) : List FVal :=
  (List.range g).map (fun x => match keep.findIdx? (· == x) with
    | some i => vals.getD i (.fin ⟨0, 1⟩)
    | none => .fin ⟨0, 1⟩)

/-- The kept positions of a group by its metadata; none where they are not ascending (R287). -/
def keptOf (spar : Int) (g : Nat) (m : List Int) : Option (List Nat) :=
  if g = 3 then
    let q := (m.headD 0 + 1).toNat
    some (if spar = 1 then [q] else (List.range 3).filter (· != q))
  else
    let p := (List.range 3).map (fun i => (m.getD (2 * i) 0 + 3 * m.getD (2 * i + 1) 0 + 4).toNat)
    if p.getD 0 0 < p.getD 1 0 ∧ p.getD 1 0 < p.getD 2 0 then
      some (if spar = 3 then p else (List.range 9).filter (fun x => !p.contains x))
    else none

/-- The expanded elements of a tile row; none where its metadata is invalid (R286, R287). -/
def State.rowOf (s : State) (n : Nat) (p : MxP) (r : Int) : Option (List FVal) :=
  if r < 0 then some (List.replicate p.kdep (.fin ⟨0, 1⟩))
  else
    let vals := s.packed n (p.abase + r * p.ast) p.ta p.kept
    if p.spar = 0 then some vals
    else
      let at_ := p.mbase + r * p.mst
      let mt := fun (t : Nat) => trit (s.cab n (at_ / 3 + ((t / 27 : Nat) : Int))).val (t % 27)
      let (g, k) := p.group
      (List.range (p.kdep / g)).foldl (fun o h => o.bind (fun l =>
        (keptOf p.spar g ((List.range p.metaPer).map (fun i => mt (p.metaPer * h + i)))).map (fun keep =>
          l ++ expandGroup keep g ((vals.drop (k * h)).take k)))) (some [])

/-! ### Effects (R289–R294) -/

/-- Loads a tile from the cabinet (R292). -/
def State.loadTile (s : State) (n : Nat) (t : Tile) (a st : Int) (et : ETy) (ext : Bool) : Tile :=
  let rows := (List.range 27).map (fun (i : Nat) => s.packed n (a + (i : Int) * st) et 27)
  let v := fun (k : Nat) => (rows.getD (k / 27) []).getD (k % 27) (.fin ⟨0, 1⟩)
  let t' := t.put ext (fun k => Acc.ofValue ext (v k))
  let inexact := fun (k : Nat) => match v k, t'.value k with
    | .fin x, .fin y => !x.eq y
    | _, _ => false
  { t' with inx := t.inx || (List.range 729).any inexact }

/-- The terms a[i][k] × b[k][j] of one accumulator, ascending in k: a zero element of A contributes none (R278). -/
def mxTerms (a : List FVal) (b : List (List FVal)) (j : Nat) : List FVal :=
  ((a.zip b).filter (fun p => !p.1.isZero)).map (fun p => p.1.mul (p.2.getD j (.fin ⟨0, 1⟩)))

/-- One accumulator's new content (R289): in a fixed tile one exact sum, clamped once; in an extended tile one rounded step for
each term. -/
def mxAcc (ext : Bool) (old : Acc) (terms : List FVal) : Acc × Bool :=
  if ext then
    terms.foldl (fun p x =>
      let r := Acc.ofValue true ((p.1.value true).add x)
      (r.1, p.2 || r.2)) (old, false)
  else Acc.ofValue false (FVal.sum (old.value false :: terms))

/-- MX.ISSUE's effect: the tile, or the status that stops it (R289). -/
def State.issueTile (s : State) (n : Nat) (p : MxP) (t : Tile) : Except Nat Tile :=
  if p.acc = 0 ∧ t.ext ≠ p.ext then .error 10
  else match p.rows.mapM (s.rowOf n p) with
    | none => .error 9
    | some a =>
      let t := if p.acc = 1 then { t.clear with ext := p.ext }
        else if p.acc = -1 then s.loadTile n t p.cbase p.cst p.ctyp p.ext else t
      let b := (List.range p.kdep).map (fun (k : Nat) => s.packed n (p.bbase + (k : Int) * p.bst) p.tb 27)
      .ok (t.put p.ext (fun k => mxAcc p.ext (t.get k) (mxTerms (a.getD (k / 27) []) b (k % 27))))

/-- MX.SCALE's effect (R293). -/
def Tile.scale (t : Tile) (f : FVal) : Tile := t.put t.ext (fun k => Acc.ofValue t.ext ((t.value k).mul f))

/-- One element that MX.DRAIN delivers (R294). -/
def drainElem (et : ETy) (sat : Bool) (sh : Int) (v : FVal) : Int :=
  if isFloat et then (fmtOf et).deliver sat .tern (v.scale3 sh) else deliverInt et.width sat .tern (v.scale3 sh)

/-- MX.DRAIN's writes (R294). -/
def State.drainTile (s : State) (n : Nat) (t : Tile) (a st : Int) (et : ETy) (sat : Bool) (sh : Int) : State :=
  (List.range 27).foldl (fun s (i : Nat) =>
    (List.range (27 / et.per)).foldl (fun s (w : Nat) =>
      let l := (List.range et.per).map (fun e => drainElem et sat sh (t.value (27 * i + et.per * w + e)))
      s.putCabWord n ⟨n, a + (i : Int) * st + 3 * (w : Int)⟩ (ofElems et l)) s) s

/-! ### Issue (R280, R462) -/

/-- The tile that a matrix command names. -/
def mxTile (c : Cmd) : Option Nat :=
  match c.instr with
  | .mxIssue _ => some (MxP.tile ⟨c.desc, []⟩).toNat
  | .mxZero o | .mxLoadc o | .mxScale o | .mxDrain o | .mxSpill o | .mxFill o => some o.c.toNat
  | _ => none

/-- The tile number is not one of the team's (R275). -/
def State.noTile (s : State) (n : Nat) (t : Int) : Bool := t < 0 || s.tilesOf n ≤ t

/-- The cabinet-bounds trap with the coffer cause (R369). -/
def tileTrap : Trap := Trap.of 3 1 .zero

/-- A command with ranges of the team's own cabinet, or the bounds trap of the first that runs outside it. -/
def State.mxRanged (s : State) (n : Nat) (c : Cmd) (l : List (Int × Int)) (write : Bool) : Plan :=
  match l.find? (fun r => (s.cabRange n false r.1 r.2).isNone) with
  | some r => .refuse (boundsTrap r.1)
  | none => .go { c with locked := true, ranges := c.ranges ++ l.map (fun r => { cab := some n, lo := r.1, hi := r.2, write := write }) }

/-- What the checks of a matrix instruction decide (R284–R296, R462). An index vector that runs outside the allocation names no rows. -/
def mxPlan (i : Instr) (o : Opnd) (s : State) (x : Exec) : Plan :=
  let n := x.t.team
  let a := (x.reg s o.a 0).val
  let st := (x.reg s o.b 0).val
  let cmd : Cmd := { Cmd.fresh i x.t.num with opa := x.reg s o.a 0, opb := x.reg s o.b 0, opb1 := x.reg s (o.b + 1) 0 }
  match i with
  | .mxIssue _ =>
    match State.cabLine s s x o 0 with
    | (d, none) => .refuse (boundsTrap d)
    | (d, some w) =>
      let p0 : MxP := ⟨w, (List.range 27).map (fun (r : Nat) => (r : Int))⟩
      if s.heldWords n d (d + 81) then .hold
      else if p0.refused then .refuse (descTrap d)
      else if s.noTile n p0.tile then .refuse tileTrap
      else if p0.idxm then
        if s.heldWords n p0.aidx (p0.aidx + 81) then .hold
        else
          let l := match s.cabRange n false p0.aidx (p0.aidx + 81) with | some c => s.cabWords c 27 | none => []
          s.mxRanged n { cmd with desc := w, list := l } (MxP.ranges ⟨w, l.map Word.val⟩) false
      else s.mxRanged n { cmd with desc := w, list := p0.rows.map Word.ofInt } p0.ranges false
  | .mxLoadc _ =>
    if a % 3 ≠ 0 ∨ st % 3 ≠ 0 then .refuse (descTrap a)
    else if s.noTile n o.c then .refuse tileTrap
    else s.mxRanged n cmd [rowBounds a [0, 26 * st] (packedSize o.et 27)] false
  | .mxDrain _ =>
    let size := packedSize o.et 27
    if a % 3 ≠ 0 ∨ st % 3 ≠ 0 ∨ (st.natAbs : Int) < size ∨ 9841 < cmd.opb1.val.natAbs then .refuse (descTrap a)
    else if s.noTile n o.c then .refuse tileTrap
    else s.mxRanged n cmd [rowBounds a [0, 26 * st] size] true
  | .mxSpill _ | .mxFill _ =>
    let spill := match i with | .mxSpill _ => true | _ => false
    if o.f = 0 then
      if !cmd.opa.lineAligned then .refuse (alignTrap cmd.opa)
      else if s.noTile n o.c then .refuse tileTrap
      else .go { cmd with locked := true, ranges := globRanges cmd.opa.num (cmd.opa.num + 6804) spill }
    else if a % 81 ≠ 0 then .refuse (boundsTrap a)
    else if s.noTile n o.c then .refuse tileTrap
    else s.mxRanged n cmd [(a, a + 6804)] spill
  | _ => if s.noTile n o.c then .refuse tileTrap else .go cmd

/-- The elected lane: the lowest-numbered (R280). -/
def elected (xs : List Exec) : Option Exec :=
  xs.foldl (fun (b : Option Exec) x => match b with
    | some y => if x.t.lane < y.t.lane then some x else b
    | none => some x) none

/-- A matrix instruction's body (R280): one command for the bundle; every lane receives its ticket, or takes its refusal. -/
def mxBody (i : Instr) (o : Opnd) : Body := fun s xs =>
  match elected xs with
  | none => Eff.of s
  | some x =>
    let n := x.t.team
    let hold := fun (r : Run) =>
      ({ Eff.of (xs.foldl (fun s y => y.ts.foldl (fun s t => s.setRun t r) s) s) with stay := xs } : Eff)
    if s.recsFull n then hold .ready
    else match mxPlan i o s x with
      | .refuse t => { Eff.of s with traps := xs.map (fun y => (y, t)) }
      | .hold | .null _ => hold .ready
      | .go c =>
        if s.noEntry n c then hold .lock
        else
          let (s, seq) := s.takeSeq n
          let s := xs.foldl (fun s y => y.set s o.d 0 (s.ticket n seq)) s
          let s := s.modBody n (fun b => { b with cmds := b.cmds ++ [{ c with seq := seq, born := s.ncmd }] })
          Eff.of (({ s with ncmd := s.ncmd + 1 } : State).laterOnce (.scoreboardStart n seq))

/-- The rules of the fields of a matrix instruction (R281). -/
def mxForm (a b : Use) : Form := { d := .v, a := a, b := b, c := .i, ext := false }
/-- MX.ISSUE. -/
def execMxIssue (o : Opnd) (s : State) := perform (.mxIssue o) o (mxForm .v .z) (mxBody (.mxIssue o) o) s
/-- MX.ZERO. -/
def execMxZero (o : Opnd) (s : State) := perform (.mxZero o) o (mxForm .z .z) (mxBody (.mxZero o) o) s
/-- MX.LOADC. -/
def execMxLoadc (o : Opnd) (s : State) := perform (.mxLoadc o) o (mxForm .v .v) (mxBody (.mxLoadc o) o) s
/-- MX.SCALE. -/
def execMxScale (o : Opnd) (s : State) := perform (.mxScale o) o (mxForm .v .z) (mxBody (.mxScale o) o) s
/-- MX.DRAIN: stride in v(B), shift in v(B + 1). -/
def execMxDrain (o : Opnd) (s : State) :=
  perform (.mxDrain o) o { mxForm .v .v with sat := true, moreV := [o.b + 1] } (mxBody (.mxDrain o) o) s
/-- MX.SPILL. -/
def execMxSpill (o : Opnd) (s : State) := perform (.mxSpill o) o (mxForm .v .z) (mxBody (.mxSpill o) o) s
/-- MX.FILL. -/
def execMxFill (o : Opnd) (s : State) := perform (.mxFill o) o (mxForm .v .z) (mxBody (.mxFill o) o) s

/-! ### The order of a tile (R282, R297) -/

/-- A command waits for its tile: an earlier command or query of the team names it. -/
def State.tileWaits (s : State) (n : Nat) (c : Cmd) : Bool :=
  match mxTile c with
  | none => false
  | some t => (s.team? n).any (fun x =>
      x.body.cmds.any (fun d => d.born < c.born && mxTile d == some t) || x.body.queries.any (fun q => q.after < c.born && q.tile == t))

/-- Delivers the oldest query of a team whose tile no earlier command names any more: the state word goes to its lanes, and a
clearing query clears the flags (R297). -/
def State.answerQuery (s : State) (n : Nat) (q : Query) : State :=
  let busy := (s.team? n).any (fun x => x.body.cmds.any (fun d => d.born < q.after && mxTile d == some q.tile)
    || x.body.queries.any (fun r => r.after < q.after && r.tile == q.tile))
  if busy then s
  else
    let t := s.tile n q.tile
    let clear := fun (t : Tile) => { t with ovf := false, inx := false }
    if !s.tilesAgree n q.tile then s.vigilFail n (((q.dest.head?).map (·.squad)).getD 0)
    else
    let s := q.dest.foldl (fun s r => s.arrive r q.reg .query (some t.word)) s
    let s := if q.clear then s.setTile n q.tile (clear t) clear else s
    s.modBody n (fun b => { b with queries := b.queries.filter (fun r => r != q) })

/-- Delivers every query that can be delivered, in their order. -/
def State.settleQueries (s : State) (n : Nat) : State :=
  match s.team? n with
  | some x => x.body.queries.foldl (fun s q => s.answerQuery n q) s
  | none => s

/-- MX.QRY's body (R297): it takes its place in the tile's order, and D waits for the state word. -/
def bodyMxQry (o : Opnd) : Body := fun s xs =>
  match elected xs with
  | none => Eff.of s
  | some x =>
    let n := x.t.team
    if s.noTile n o.c then { Eff.of s with traps := xs.map (fun y => (y, tileTrap)) }
    else
      let reg := Exec.num o.d
      let win : Win := { reg := reg, val := .zero, left := 0, arrived := false, src := .query }
      let s := xs.foldl (fun s y => s.modThread y.t (fun th => { th with wins := th.wins ++ [win] })) s
      let q : Query := { after := s.ncmd, tile := o.c.toNat, clear := o.f == 1, reg := reg, dest := xs.map (·.t) }
      let s := s.modBody n (fun b => { b with queries := b.queries ++ [q] })
      Eff.of (({ s with ncmd := s.ncmd + 1 } : State).settleQueries n)
/-- MX.QRY: its execution. -/
def execMxQry (o : Opnd) (s : State) := perform (.mxQry o) o (mxForm .z .z) (bodyMxQry o) s

/-! ### Performing a command -/

/-- Ends a matrix command that has changed its tile or its destination: `k` elements are performed. -/
def State.mxDone (s : State) (n : Nat) (c : Cmd) (k : Nat) : State :=
  (s.modCmd n c.seq (fun d => { d with done := k })).endCmd n c.seq 0 .zero

/-- Writes the words of a .g image from `i` on, at most `fuel` of them, to the first that stops (R296, R137). -/
def State.spillRun (t : TRef) (c : Cmd) (img : List Word) : Nat → State → Nat → State × Option Stop
  | 0, s, _ => (s, none)
  | fuel + 1, s, i =>
    match s.engineWriteWord t (c.opa.add (3 * (i : Int))) (wordAt img i) with
    | (s, .error k) => (s, some k)
    | (s, .ok ()) => State.spillRun t c img fuel (s.modCmd t.team c.seq (fun d => { d with done := i + 1 })) (i + 1)

/-- Reads the words of a .g image from `i` on into the command's list, at most `fuel` of them, to the first that stops. -/
def State.fillRun (t : TRef) (c : Cmd) : Nat → State → Nat → State × Option Stop
  | 0, s, _ => (s, none)
  | fuel + 1, s, i =>
    match s.engineRead t (c.opa.add (3 * (i : Int))) false with
    | (s, .error k) => (s, some k)
    | (s, .ok w) => State.fillRun t c fuel (s.modCmd t.team c.seq (fun d => { d with list := d.list ++ [w], done := i + 1 })) (i + 1)

/-- MX.FILL takes its image, or ends with status 11 (R296). -/
def State.takeImage (s : State) (n : Nat) (c : Cmd) (tile : Nat) (l : List Word) : State :=
  match Tile.ofImage l with
  | some t => (s.setTile n tile t (fun _ => t)).mxDone n c 2268
  | none => s.endCmd n c.seq 11 .zero

/-- A command that writes its tile elsewhere compares it with its shadow before (R299). -/
def drainsTile (i : Instr) : Bool :=
  match i with
  | .mxDrain _ | .mxSpill _ => true
  | _ => false

/-- Performs a matrix command, from where it stands (R289–R296), on its tile and under VIGIL on the tile's shadow (R299). -/
def State.runMatrix (s : State) (n : Nat) (c : Cmd) : State :=
  let k := (mxTile c).getD 0
  let t := s.tile n k
  let both := fun (s : State) (f : Tile → Tile) => s.setTile n k (f t) f
  if drainsTile c.instr && !c.begun && !s.tilesAgree n k then s.vigilFail n (c.thread / 27) else
  let s := s.modCmd n c.seq (fun d => { d with begun := true })
  match c.instr with
  | .mxIssue _ =>
    let issue := s.issueTile n ⟨c.desc, c.list.map Word.val⟩
    match issue t with
    | .ok t => (s.setTile n k t (fun u => match issue u with | .ok u => u | .error _ => u)).mxDone n c 729
    | .error e => s.endCmd n c.seq e .zero
  | .mxZero o => (both s (fun _ => { Tile.zero with ext := o.x == 1 })).mxDone n c 729
  | .mxLoadc o => (both s (fun t => s.loadTile n t c.opa.val c.opb.val o.et (o.x == 1))).mxDone n c 729
  | .mxScale o =>
    (both s (fun t => t.scale (ternVal o.et (if o.et = .tf9 then sub9 c.opa.val 0 else c.opa.val)))).mxDone n c 729
  | .mxDrain o =>
    let s := s.drainTile n t c.opa.val c.opb.val o.et o.sat c.opb1.val
    (if o.f = 1 then both s Tile.clear else s).mxDone n c 729
  | .mxSpill o =>
    if o.f ≠ 0 then
      (t.image.zipIdx.foldl (fun s p => s.putCabWord n ⟨n, c.opa.val + 3 * (p.2 : Int)⟩ p.1) s).mxDone n c 2268
    else match State.spillRun (c.issuer n) c t.image (2268 - c.done) s c.done with
      | (s, some e) => s.stopCmd n c.seq e
      | (s, none) => s.endCmd n c.seq 0 .zero
  | .mxFill o =>
    if o.f ≠ 0 then s.takeImage n c k (s.cabWords ⟨n, c.opa.val⟩ 2268)
    else match State.fillRun (c.issuer n) c (2268 - c.list.length) s c.list.length with
      | (s, some e) => s.stopCmd n c.seq e
      | (s, none) => s.takeImage n c k (match s.cmd? n c.seq with | some d => d.list | none => [])
  | _ => s

end Sys2Proof.Machine
end

