-- ==== Sys2Proof/Machine/EngineEv.lean ====
section
/-! DEFINITION. The steps of engine and matrix commands: their beginning (R133, R282), their completion (R135, R201), and the
fabric's answers and failures (R128, R399, R407). -/

namespace Sys2Proof.Machine

/-- A collective (R205). -/
def isColl (i : Instr) : Bool :=
  match i with
  | .collAr _ | .collRs _ | .collAg _ | .collBc _ | .collSend _ | .collRecv _ => true
  | _ => false

/-- A fabric port of a partition is up (R406, R407). -/
def State.portUp (s : State) (p : Nat) (but : Option Nat) : Bool :=
  (List.range 48).any (fun i => trit (s.partWord p (7 + i / 24)) (i % 24) == 1 && !s.down.contains i && some i != but)

/-- Performs a command whose turn it is (R127, R122, R209, R289). -/
def State.runCmd (s : State) (n : Nat) (c : Cmd) : State :=
  if isRangeXf c.instr then (if c.begun then s else s.beginTell n c)
  else if isColl c.instr then
    if 1 < c.list.length ∧ !s.portUp (s.partOf n) none then s.endExch (.cmd n c.seq) 6
    else (s.modCmd n c.seq (fun d => { d with begun := true })).advanceExch (.cmd n c.seq)
  else match copyKindOf c.instr with
    | some k => if k = .peer ∧ !s.portUp (s.partOf n) none then s.endCmd n c.seq 6 .zero else s.runCopy n c k
    | none => s.runMatrix n c

/-- A command's words of a cabinet wait for range teller commands: for their pieces, and for those that have not begun, if another core
issued them, at whatever time, or if they came before it (R120, R122, R199): those of its own core the scoreboard orders. -/
def State.tellHolds (s : State) (n : Nat) (c : Cmd) : Bool :=
  c.ranges.any (fun r => match r.cab with
    | some m => s.tellStalls m r.lo r.hi (fun t k => k.begun || t.core != s.coreOf n || k.born < c.born)
    | none => false)

/-- The cabinets that a command names are those of teams in the pool: it begins when they are restored (R389). -/
def State.cabAway (s : State) (c : Cmd) : Bool :=
  c.ranges.any (fun r => r.cab.any (fun m => s.saved.any (fun v => v.team.num == m)))

/-- A command can be performed now: it is not parked, awaits no piece and no answer, no range teller command goes first, and, if it has
not begun, neither the scoreboard nor its tile nor a save holds it back. -/
def State.cmdReady (s : State) (n : Nat) (c : Cmd) : Bool :=
  c.live && !c.parked && c.pieces.isEmpty && c.outstanding == 0 && !s.cabAway c && !s.tellHolds n c
  && (c.begun || (!s.scoreboardWaits n c && !s.tileWaits n c && !(s.team? n).any (·.saving)))

/-- SCOREBOARD_START (R133): a command that is still held back is tried again. -/
def execScoreboardStart (team seq : Nat) (s : State) : Host.Outcome State Fault Refusal :=
  match s.cmd? team seq with
  | some c => .next (if s.cmdReady team c then s.runCmd team c else s)
  | none => .next s

/-- ENGINE_COMMAND_COMPLETE (R135, R201): the record is kept, and what waits for the command goes on. -/
def execEngineCommandComplete (team seq : Nat) (s : State) : Host.Outcome State Fault Refusal :=
  match s.cmd? team seq with
  | some c => match c.status with
    | some st => .next (((s.closeExch (.cmd team seq) st).completeCmd team c st).settleQueries team)
    | none => .next s
  | none => .next s

/-- FLIT_ACKNOWLEDGEMENT (R407, R128): the oldest flit that it answers is no longer in flight; with its last line a COPY.PEER is
complete. -/
def execFlitAcknowledgement (f : Flit) (s : State) : Host.Outcome State Fault Refusal :=
  s.arrives f .flitAcknowledgement <| match s.flits.find? (fun q => Flit.answers f q) with
  | none => .next s
  | some q =>
    let s := { s with flits := s.flits.erase q }
    match q.owner with
    | none => .next s
    | some (n, seq) => match s.cmd? n seq with
      | none => .next s
      | some c =>
        let s := s.modCmd n seq (fun d => { d with outstanding := d.outstanding - 1 })
        .next (if c.outstanding = 1 then s.endCmd n seq 0 .zero else s)

/-- FLIT_LINE_WRITE (R407, R128): the line's trytes are written at the home as a system-scope release; the acknowledgement
follows the write. -/
def execFlitLineWrite (f : Flit) (s : State) : Host.Outcome State Fault Refusal :=
  s.arrives f .flitLineWrite <|
  let t := lineTrytes f.line
  .next (s.later [.homeHw { slot := f.slot, op := .trytes (f.mask.map (fun i => (i, t.getD i 0))),
                            src := .peer f.src f.tag f.idx, elig := some false }])

/-- TIME_SYNC (R399): a partition's stamp moves forward to a value of the fabric's time domain, and never back. -/
def execTimeSync (partition value : Nat) (s : State) : Host.Outcome State Fault Refusal :=
  .next { s with stamps := modNth (fun x => max x (value % 3 ^ 54)) s.stamps partition }

/-- STAMP_SYNC_LOSS (R399, R401): the event names no source of its own; it is raised as fabric port 0's. -/
def execStampSyncLoss (s : State) : Host.Outcome State Fault Refusal := .next (s.raise (Event.plain 25 656))

/-- The partition that a flit in flight was sent from: that of its command or collective. -/
def State.flitPart (s : State) (f : Flit) : Option Nat :=
  let teamPart := fun (n : Nat) => (((s.teams ++ s.saved.map (·.team)).find? (fun t => t.num == n)).bind (fun t => s.grid? t.grid)).map (·.part)
  match f.owner with
  | some (n, _) => teamPart n
  | none => (s.exchOf f).bind (fun e => match e.who with
    | .cmd n _ => teamPart n
    | .node g _ => some (s.partOfSlot g))

/-- The flits in flight of a partition whose last port went down: their commands and collectives end with status +6 (R407). -/
def State.failFlits (s : State) (p : Nat) : State :=
  let part := fun (t : Team) => match s.grid? t.grid with | some g => g.part | none => 0
  let s := { s with flits := s.flits.filter (fun f => s.flitPart f != some p) }
  let s := (s.teams ++ s.saved.map (·.team)).foldl (fun s t =>
    if part t ≠ p then s
    else (t.body.cmds.filter (fun c => 0 < c.outstanding && !isRangeXf c.instr)).foldl
      (fun s c => ((s.modSavedCmd t.num c.seq (fun d => { d with outstanding := 0 })).modCmd t.num c.seq (fun d => { d with outstanding := 0 })).endCmd
        t.num c.seq 6 .zero) s) s
  s.exch.foldl (fun s e =>
    let mine := match e.who with
      | .cmd n _ => (s.teams ++ s.saved.map (·.team)).any (fun t => t.num == n && part t == p)
      | .node g _ => s.partOfSlot g == p
    if mine && !e.ended && e.got.length < e.asked then s.endExch e.who 6 else s) s

/-- FABRIC_PORT_DOWN (R407): the event; the port's flits in flight are resent through another port of the partition, each of
the flits in flight being the port's by a free choice (log entry 23), or without one their commands fail. -/
def execFabricPortDown (port : Nat) (s : State) : Host.Outcome State Fault Refusal :=
  if s.down.contains port then .next s
  else
    let holder := (List.range 9).find? (fun p => trit (s.partWord p (7 + port / 24)) (port % 24) == 1)
    let s : State := { s with down := s.down ++ [port] }
    let s := s.raise (Event.plain 24 (656 + port))
    match holder with
    | none => .next s
    | some p =>
      if s.portUp p none then
        .next (s.flits.foldl (fun s f =>
          if s.flitPart f ≠ some p then s
          else
            let (s, k) := s.choose 2
            if k = 1 then { s with sent := s.sent ++ [f] } else s) s)
      else .next (s.failFlits p)

end Sys2Proof.Machine
end

