-- ==== Sys2Proof/Machine/Pair.lean ====
section
/-! DEFINITION. PAIR (R167–R169): its pairing rules, and its two inner instructions as one. -/

namespace Sys2Proof.Machine

/-- An inner instruction: its entry in the opcode map, its operands, and its L trit. -/
structure Inner where
  e : Entry
  o : Opnd
  l : Int

namespace Inner

/-- The inner instruction of a PAIR's fields. -/
def of (op : Int) (o : Opnd) (l : Int) : Option Inner := (lookup op o.f o.x).map (fun e => ⟨e, o, l⟩)

/-- Its fields' rules in the one-word form. -/
def form (p : Inner) : Form := (p.e.form p.o).at 1
/-- The field names a v register. -/
def vField (u : Use) (v : Int) : List Nat := if u.isV false then [Exec.num v] else []
/-- The v registers that it reads. -/
def reads (p : Inner) : List Nat :=
  let f := p.form
  vField f.a p.o.a ++ vField f.b p.o.b ++ vField f.c p.o.c ++ (if f.dRead then vField f.d p.o.d else [])
/-- The v registers that it writes. -/
def writes (p : Inner) : List Nat :=
  let f := p.form
  (if f.dWrite then vField f.d p.o.d ++ f.moreV.map Exec.num else []) ++ (if f.aWrite then vField f.a p.o.a else [])
/-- The predicates that it reads: as a guard, in a one-word form. -/
def predReads (p : Inner) : List Nat := if p.o.gc = .always then [] else [p.o.gp]
/-- The predicates that it writes. -/
def predWrites (p : Inner) : List Nat := if p.form.d = .p then [predNum p.o.d] else []
/-- It writes a v register or a predicate that the other reads. -/
def feeds (p q : Inner) : Bool := p.writes.any q.reads.contains || p.predWrites.any q.predReads.contains

end Inner

/-- The pairing rules hold (R167, R168). -/
def pairOk (p q : Inner) : Bool :=
  p.l == -1 && q.l == -1
  && !p.writes.any (fun r => q.writes.any (fun t => r % 3 == t % 3))
  && (distinct (p.reads ++ q.reads)).length ≤ 4
  && (p.e.cls == .V || q.e.cls == .V)
  && !p.feeds q && !q.feeds p

/-- The body of an instruction that has a one-word form; `words` are those of its PAIR. -/
def innerBody (i : Instr) (words : List Word) : Body :=
  match i with
  | .add o => bodyAdd o
  | .sub o => bodySub o
  | .neg o => bodyNeg o
  | .abs o => bodyAbs o
  | .sgn o => bodySgn o
  | .mul o => bodyMul o
  | .mulh o => bodyMulh o
  | .div o => bodyDiv o
  | .mod o => bodyMod o
  | .min o => bodyMin o
  | .max o => bodyMax o
  | .shl o => bodyShl o
  | .shr o => bodyShr o
  | .rot o => bodyRot o
  | .tmin o => bodyTmin o
  | .tmax o => bodyTmax o
  | .tsum o => bodyTsum o
  | .tcon o => bodyTcon o
  | .tcnt o => bodyTcnt o
  | .tlz o => bodyTlz o
  | .cmp o => bodyCmp o
  | .mov o => bodyMov o
  | .movBc o => bodyMovBc o
  | .fadd o => bodyFadd o
  | .fsub o => bodyFsub o
  | .fmul o => bodyFmul o
  | .fmin o => bodyFmin o
  | .fmax o => bodyFmax o
  | .fabs o => bodyFabs o
  | .fcmp o => bodyFcmp o
  | .rcp o => bodyRcp o
  | .rsq o => bodyRsq o
  | .sqrt o => bodySqrt o
  | .exp o => bodyExp o
  | .log o => bodyLog o
  | .sin o => bodySin o
  | .cos o => bodyCos o
  | .tanh o => bodyTanh o
  | .sigm o => bodySigm o
  | .ld o => bodyLd o
  | .st o => bodySt o
  | .jmpr o => bodyJmpr o
  | .callr o => bodyCallr o 9
  | .ret o => bodyRet o
  | .exit _ => bodyExit
  | .yield _ => bodyYield
  | .stamp o => bodyStamp o
  | .publish _ => bodyPublish words
  | .wack _ => bodyWack
  | .gphase _ => bodyGphase words
  | .tret _ => bodyTret
  | _ => noBody

/-- A thread that an instruction leaves blocked but does not perform again: PUBLISH and GPHASE. -/
def blockedOnce (r : Run) : Bool := r == .ackPub || r == .gphase

/-- The body of a PAIR (R169): the one of the two that may trap, park or wait is performed first, and the other in the lanes
where it did not stop. -/
def pairBody (first second : Inner) (words : List Word) : Body := fun s xs =>
  let e := innerBody (first.e.build first.o) words s (xs.filter (fun x => x.guard s first.o))
  let failed := fun (x : Exec) =>
    e.traps.any (fun p => p.1 == x)
    || (e.stay.contains x && !(e.s.thread? x.t).any (fun th => blockedOnce th.run)) || e.s.exited x.t
  let e2 := innerBody (second.e.build second.o) words e.s (xs.filter (fun x => x.guard s second.o && !failed x))
  { s := e2.s, traps := e.traps ++ e2.traps, stay := e.stay ++ e2.stay, goto := e.goto ++ e2.goto }

/-- PAIR: its execution. -/
def execPair (op1 : Int) (o1 : Opnd) (l1 : Int) (op2 : Int) (o2 : Opnd) (l2 : Int) (s : State) : Host.Outcome State Fault Refusal :=
  let i : Instr := .pair op1 o1 l1 op2 o2 l2
  let words := (encode i).getD []
  match Inner.of op1 o1 l1, Inner.of op2 o2 l2 with
  | some p, some q =>
    let xs := s.execs false
    let code := fun (k : Inner) => xs.findSome? (fun x => s.dynCode k.form k.o x false)
    if s.cur.handler.isSome then .next (s.illegal 5 words)
    else if !pairOk p q then .next (s.illegal 6 words)
    else match code p, code q with
      | some c, _ => .next (s.illegal c words)
      | none, some c => .next (s.illegal c words)
      | none, none =>
        if xs.any (fun x => s.interlocked p.form p.o x || s.interlocked q.form q.o x) then .next s
        else
          let body := if q.e.cls = .V then pairBody p q words else pairBody q p words
          .next (s.conclude i xs (body s xs))
  | _, _ => .next (s.illegal 5 words)

end Sys2Proof.Machine
end

