-- ==== Sys2Proof/Machine/Vigil.lean ====
section
/-! DEFINITION. VIGIL (R396): the shadow squads, what they execute, and the points at which a leader waits for its shadow and is
compared with it. DESIGN CHOICE, log entry 43: what counts as coming from outside the squad. -/

namespace Sys2Proof

/-- The instruction itself, or the two of a PAIR. -/
def Instr.inner (i : Instr) : List Instr :=
  match i with
  | .pair op1 o1 _ op2 o2 _ =>
    [(lookup op1 o1.f o1.x).map (fun e => e.build o1), (lookup op2 o2.f o2.x).map (fun e => e.build o2)].filterMap id
  | i => [i]

/-- One instruction whose results come from its squad alone: register arithmetic, the special functions among it, and transfers. -/
def Instr.selfMade (i : Instr) : Bool :=
  match i with
  | .br _ | .br3 _ | .brm _ | .jmp _ | .jmpr _ | .nop _ | .part _ | .gwait _ | .illegalInstruction .. => true
  | i => match i.parts with
    | some (op, o) => (lookup op o.f o.x).any (fun e => -121 ≤ op && op ≤ -53 && (match e.cls with | .V | .S | .K => true | _ => false))
    | none => false

/-- A shadow executes the instruction on its own values; of any other it takes the leader's results (R396). -/
def Instr.inSquad (i : Instr) : Bool := i.inner.all Instr.selfMade

/-- One instruction at which the pair is compared (R396): an entry into escrow, a cabinet write, a synchronising access, a lease, an
engine or matrix issue, the update of a scale record, EXIT, TRAP. -/
def Instr.leaves (i : Instr) : Bool :=
  match i with
  | .st _ | .stx _ | .clineZero _ | .call _ | .callr _ | .xfAcc _ | .xfAdd _ | .xfMin _ | .xfMax _ | .xfXchg _ | .xfCas _ | .xfTsum _
  | .lds _ | .sts _ | .atom _ | .red _ | .lease _ | .unlease _ | .publish _ | .quant _ | .exit _ | .trap _ => true
  | i => match i.parts with
    | some (op, o) => (lookup op o.f o.x).any (fun e => match e.cls with | .E => true | _ => false)
    | none => false

/-- A point of comparison (R396). -/
def Instr.vigilPoint (i : Instr) : Bool := i.inner.any Instr.leaves

end Sys2Proof

namespace Sys2Proof.Machine

/-! ### The values of a squad -/

/-- A squad with the registers, predicates and groups of another. -/
def Squad.withVals (c v : Squad) : Squad :=
  { c with threads := List.zipWith (fun (a b : Thread) => { a with regs := b.regs, preds := b.preds }) c.threads v.threads,
           kb := v.kb, tb := v.tb, hp := v.hp, groups := v.groups }

/-- A list that follows what changed between two others. -/
def followList {α : Type} [DecidableEq α] (a b v : List α) : List α :=
  List.zipWith (fun (p : α × α) x => if p.1 = p.2 then x else p.2) (a.zip b) v

/-- What a leader's values gained between two moments comes to its shadow's. -/
def Squad.follow (v a b : Squad) : Squad :=
  { v with
    threads := List.zipWith (fun (p : Thread × Thread) t =>
      { t with regs := followList p.1.regs p.2.regs t.regs, preds := followList p.1.preds p.2.preds t.preds }) (a.threads.zip b.threads) v.threads,
    kb := followList a.kb b.kb v.kb, tb := followList a.tb b.tb v.tb, hp := followList a.hp b.hp v.hp,
    groups := List.zipWith (fun (p : List Word × List Word) g => followList p.1 p.2 g) (a.groups.zip b.groups) v.groups }

/-! ### Shadows -/

/-- The shadow of a squad. -/
def State.shadow? (s : State) (n q : Nat) : Option Shadow := (s.team? n).bind (fun t => t.body.shadows[q]?)

/-- Changes the shadow of a squad. -/
def State.modShadow (s : State) (n q : Nat) (f : Shadow → Shadow) : State :=
  s.modBody n (fun b => { b with shadows := modNth f b.shadows q })

/-- The shadow has not reached its leader. -/
def State.shadowBehind (s : State) (n q : Nat) : Bool := (s.shadow? n q).any (fun x => !x.trail.isEmpty)

/-- The shadow was found to disagree. -/
def State.shadowBad (s : State) (n q : Nat) : Bool := (s.shadow? n q).any (·.diverged)

/-- The load-value queue of a squad is full: 243 entries (R396). -/
def State.queueFull (s : State) (n q : Nat) : Bool := (s.shadow? n q).any (fun x => 243 ≤ (x.trail.filter (·.outside)).length)

/-- The leader as its shadow, which has reached it, would have it: what has come from outside is the leader's. -/
def State.asShadow (s : State) (n q : Nat) : Option Squad :=
  match s.shadow? n q, s.squad? n q with
  | some x, some l => some (l.withVals (x.vals.follow x.last l))
  | _, _ => none

/-- The squads of the current bundle that have shadows; a handler's is the squad of its event (R374). -/
def State.vigilSquads (s : State) : List (Nat × Nat) :=
  match s.cur.handler with
  | some n => (((s.team? n).bind (·.handler)).map (fun h => (n, h.squad))).toList.filter (fun k => (s.shadow? k.1 k.2).isSome)
  | none => (distinct (s.cur.threads.map (fun t => (t.team, t.squad)))).filter (fun k => (s.shadow? k.1 k.2).isSome)

/-- How an instruction runs: `exec`. -/
abbrev Run1 : Type := Instr → State → Host.Outcome State Fault Refusal

/-- The causes and details of the trap events of a squad that one state has and another has not. -/
def newTraps (n q : Nat) (old new : State) : List (Nat × Int) :=
  let events := fun (s : State) => match s.team? n with | some t => t.events | none => []
  ((events new).filter (fun e => e.squad == q && !(events old).contains e)).map (fun e => (e.cause, e.detail))

/-- At a point of comparison: the instruction does to everything outside the squad, and to where its threads go, what it does when it
runs on the shadow's values (R396). -/
def State.pointAgrees (s : State) (run : Run1) (i : Instr) (out : State) (n q : Nat) : Bool :=
  match s.asShadow n q, s.squad? n q with
  | some h, some l => match run i (s.modSquad n q (fun _ => h)) with
    | .next u => u.modSquad n q (fun x => x.withVals l) == out.modSquad n q (fun x => x.withVals l)
    | _ => false
  | _, _ => true

/-- The handler that the current bundle's instruction belongs to. -/
def State.curHandler (s : State) : Option Handler := s.cur.handler.bind (fun n => (s.team? n).bind (·.handler))

/-- The leader has executed an instruction: its shadow has it to execute. One that changed nothing of the squad, or of its handler, is
still to come. -/
def State.recordTrail (s : State) (i : Instr) (out : State) (n q : Nat) : State :=
  match s.squad? n q, out.squad? n q with
  | some pre, some post =>
    let han := s.curHandler.map (fun h => (h, (out.team? n).bind (·.handler)))
    if pre = post && han.all (fun h => h.2 == some h.1) then out
    else out.modShadow n q (fun x =>
      let last := ((x.trail.getLast?).map (·.post)).getD x.last
      { x with trail := x.trail ++ [{ instr := i, pc := s.cur.pc, lanes := (s.cur.threads.filter (fun t => t.team == n && t.squad == q)).map (·.lane),
                                      pre := pre, post := post, traps := newTraps n q s out, han := han,
                                      outside := !i.inSquad || pre.withVals last != pre }] })
  | _, _ => out

/-- The current bundle's instruction runs under VIGIL (R396): its leader stalls while the load-value queue is full; at a point of
comparison it waits until its shadow has reached it, and a disagreement stops it there. A squad without a shadow runs as it is. -/
def State.vigilRun (run : Run1) (i : Instr) (s : State) : Host.Outcome State Fault Refusal :=
  let ks := s.vigilSquads
  if ks.isEmpty then run i s
  else if ks.any (fun k => s.queueFull k.1 k.2 || (i.vigilPoint && s.shadowBehind k.1 k.2)) then .next s
  else match run i s with
    | .next out =>
      let bad := if i.vigilPoint then ks.filter (fun k => s.shadowBad k.1 k.2 || !s.pointAgrees run i out k.1 k.2) else []
      if bad.isEmpty then .next (ks.foldl (fun t k => s.recordTrail i t k.1 k.2) out)
      else .next (bad.foldl (fun s k => s.vigilFail k.1 k.2) s)
    | o => o

/-- The machine as a shadow finds it for its leader's instruction: the squad as its leader stood, with the shadow's values, no trap event
queued, the handler of the instruction, and no entry of another squad in the special-function queue. -/
def State.shadowScene (s : State) (n q : Nat) (e : VEntry) (v : Squad) : State :=
  let cur : Bundle := { core := s.coreOf n, threads := e.lanes.map (fun l => ⟨n, q, l⟩), pc := e.pc,
                        handler := e.han.map (fun _ => n), waited := 0 }
  let idle := fun (t : Team) => { t with body := { t.body with squads := t.body.squads.map (fun x => { x with sfuq := [] }) } }
  (({ s with cur := cur, teams := s.teams.map idle } : State).modSquad n q (fun _ => e.pre.withVals v)).modTeam n (fun t =>
    { t with events := [], handler := match e.han with | some h => some h.1 | none => t.handler })

/-- What a shadow's execution of an instruction comes to: its squad afterwards, and whether its PCs, its queued special-function
results, its handler and the causes of its traps are its leader's. -/
def State.shadowExec (s : State) (run : Run1) (n q : Nat) (e : VEntry) (v : Squad) : Squad × Bool :=
  if !e.instr.inSquad then (v.follow e.pre e.post, true)
  else
    let s := s.shadowScene n q e v
    match run e.instr s with
    | .next u => match u.squad? n q with
      | some r => (r, r.withVals e.post == e.post && newTraps n q s u == e.traps
          && e.han.all (fun h => (u.team? n).bind (·.handler) == h.2))
      | none => (v, false)
    | _ => (v, false)

/-- A shadow squad issues (R351, R396): it executes its leader's next instruction, with what has come to the leader from outside. -/
def State.shadowRun (run : Run1) (n q : Nat) (s : State) : State :=
  match s.shadow? n q with
  | none => s
  | some x => match x.trail with
    | [] => s
    | e :: rest =>
      let r := s.shadowExec run n q e (x.vals.follow x.last e.pre)
      s.modShadow n q (fun x => { x with vals := r.1, last := e.post, trail := rest, diverged := x.diverged || !r.2 })

/-! ### The shadow pool (R390) -/

/-- The v registers of a squad that differ between two moments. -/
def changedRegs (a b : Squad) : List Nat :=
  distinct ((List.zipWith (fun (x y : Thread) =>
    if x.regs = y.regs then []
    else ((x.regs.zip y.regs).zipIdx).filterMap (fun p => if p.1.1 = p.1.2 then none else some p.2)) a.threads b.threads).flatten)

/-- Lines of the shadow pool that a team's copies fill: one for each squad register, each squad's predicates, each group register,
each cabinet line and each escrow line, three for a k bank, 84 for a tile (R390; log entry 7). -/
def shadowLines (a b : TeamBody) : Nat :=
  let squads := (List.zipWith (fun (x y : Squad) =>
    (changedRegs x y).length
    + (if x.threads.map (·.preds) = y.threads.map (·.preds) then 0 else 1)
    + (if x.kb = y.kb then 0 else 3) + (if x.tb = y.tb then 0 else 3)
    + ((List.range 8).filter (fun g => x.groups.getD g [] != y.groups.getD g [])).length) a.squads b.squads).sum
  let cabLines := if a.cab = b.cab then []
    else distinct ((a.cab ++ b.cab).filterMap (fun p => if cabGet a.cab p.1 = cabGet b.cab p.1 then none else some (p.1 / 27)))
  let tiles := (List.zipWith (fun (x y : Tile) => if x = y then 0 else 84) a.tiles b.tiles).sum
  let esc := if a.escrow = b.escrow then []
    else distinct ((a.escrow ++ b.escrow).filterMap (fun e =>
      if a.escrow.find? (fun x => x.vline == e.vline) = b.escrow.find? (fun x => x.vline == e.vline) then none else some e.vline))
  squads + cabLines.length + tiles + esc.length

/-- The slot of a line of a core's pool: SHBASE + SHLINES × core, in lines; beyond the populated slots where SHBASE is no line's address. -/
def State.poolSlot (s : State) (core k : Nat) : Nat :=
  let base := s.cwInt 6563
  if base < 0 ∨ base % 81 ≠ 0 then slotCount else (base / 81 + s.cwInt 6564 * core).toNat + k

/-- The next lines of a core's pool that no team's copies fill. -/
def State.poolFree (s : State) (core n : Nat) : List Nat :=
  let used := ((s.teams.filter (fun t => t.core == core)).map (·.pool)).flatten
  ((List.range (s.cwInt 6564).toNat).filter (fun k => !used.contains k)).take n

/-- The device copies old contents into a line of the pool, by a layout of its own (log entry 7). -/
def State.poolCopy (s : State) (core : Nat) (k : Nat) : State :=
  let line : Line := { w := (List.range 27).map (fun i => Word.ofInt (Config.poolWord s.tick i)), poison := false }
  { s.hbmStore (s.poolSlot core k) line false with tick := s.tick + 1 }

/-- The first writes of a team since its opening are copied into the pool as they are made (R390): where it is full, or its lines may not
be accessed (R46, R48), the team's coverage lapses until its next opening. -/
def State.copyShadow (s : State) (t : Team) : State :=
  let need := (match t.opened with | some b => shadowLines t.body b | none => 0) - t.pool.length
  if need = 0 then s
  else
    let l := s.poolFree t.core need
    let bad := (l.map (s.poolSlot t.core)).find? (fun x => (s.physWhy x).isSome)
    if l.length < need ∨ bad.isSome then
      let s := match bad with | some x => s.refuseUnit x | none => s
      (s.modTeam t.num (fun t => { t with covered := false, pool := [] })).raise (s.teamEvent 11 t.num 0 .zero 0)
    else (l.foldl (fun s k => s.poolCopy t.core k) s).modTeam t.num (fun t => { t with pool := t.pool ++ l })

/-- Every team's coverage after a step. -/
def State.checkShadows (s : State) : State := (s.teams.filter (·.covered)).foldl State.copyShadow s

/-- A rollback reads a team's copies back from the pool: false where one of its lines is uncorrectable (R392). -/
def State.readPool (s : State) (t : Team) : State × Bool :=
  t.pool.foldl (fun p k =>
    let (s, r) := p.1.hbmFetch (p.1.poolSlot t.core k)
    (s, p.2 && !r.bad)) (s, true)

end Sys2Proof.Machine
end

