-- ==== Sys2Proof/Machine/SchedEv.lean ====
section
/-! DEFINITION. The steps of the scheduler: bundles (R344–R349), issue (R351, R460), instruction fetch and walks (R72, R81, R157),
illegal instructions (R173) and the entry into a trap handler (R372, R373). -/

namespace Sys2Proof

/-- The forms and operands of an instruction; two of a PAIR. -/
def Instr.forms (i : Instr) : List (Form × Opnd) :=
  let one := fun (op : Int) (o : Opnd) => match lookup op o.f o.x with
    | some e => [(e.form o, o)]
    | none => []
  match i with
  | .pair op1 o1 _ op2 o2 _ => one op1 o1 ++ one op2 o2
  | i => match i.parts with
    | some (op, o) => one op o
    | none => []

/-- The vector, scalar, memory and engine slots that an instruction takes (R351): a PAIR takes both vector slots. -/
def Instr.slots (i : Instr) : List Nat :=
  let one := fun (op : Int) (o : Opnd) => match lookup op o.f o.x with
    | some e => match e.cls with
      | .V => if o.et.scalar then [0, 1, 0, 0] else [1, 0, 0, 0]
      | .S => [1, 0, 0, 0]
      | .K => [0, 1, 0, 0]
      | .M => [0, 0, 1, 0]
      | .E => [0, 0, 0, 1]
    | none => [0, 0, 0, 0]
  match i with
  | .pair op1 o1 _ op2 o2 _ => 2 :: (List.zipWith (· + ·) (one op1 o1) (one op2 o2)).drop 1
  | i => match i.parts with
    | some (op, o) => one op o
    | none => [1, 0, 0, 0]

end Sys2Proof

namespace Sys2Proof.Machine

/-! ### Instruction fetch (R157) -/

/-- The context of a core's fetches. -/
def State.fetchCtx (s : State) (core asrec : Nat) (sys : Bool) : Ctx :=
  { core := core, asrec := asrec, part := (s.partOfCore core).getD noPart, sys := sys }

/-- The instruction that the threads of a grid on a core fetch at an address. -/
def State.instrAt (s : State) (core n : Nat) (pc : Word) : Option Instr :=
  (s.fetch core (s.asrecOf n) (s.sysLevel n) pc).map fetched

/-- Asks for the line of a fetch block. -/
def State.wantBlock (s : State) (core asrec : Nat) (sys : Bool) (block : Nat) : State :=
  s.laterOnce (.instructionFetchFill core asrec sys block)

/-- The threads of a core that stand in a fetch block of a space and level, with their PCs. -/
def State.blockThreads (s : State) (core asrec : Nat) (sys : Bool) (block : Nat) : List (TRef × Word) :=
  ((s.teams.filter (fun t => t.core == core && s.asrecOf t.num == asrec && s.sysLevel t.num == sys)).map (fun t =>
    (s.liveThreads t.num).filterMap (fun p =>
      if p.2.run = .ready ∧ p.2.pc.num / 27 = block then some (p.1, p.2.pc) else none))).flatten

/-- The handlers of a core that stand in a fetch block. -/
def State.blockHandlers (s : State) (core asrec : Nat) (sys : Bool) (block : Nat) : List Nat :=
  (s.teams.filter (fun t => t.core == core && s.asrecOf t.num == asrec && s.sysLevel t.num == sys
    && t.handler.any (fun h => h.run == .ready && h.pc.num / 27 == block))).map (·.num)

/-- A fetch that stops: the threads and handlers that stand in the block trap, park, or wait for another try. -/
def State.fetchStop (s : State) (core asrec : Nat) (sys : Bool) (block : Nat) (again : Instr) (k : Stop) : State :=
  let ts := s.blockThreads core asrec sys block
  let hs := s.blockHandlers core asrec sys block
  match k with
  | .busy => s.laterOnce again
  | .recov perm level va a =>
    if ts.isEmpty && hs.isEmpty then s
    else
      let s := s.postFault (s.fetchCtx core asrec sys) perm level va a (ts.map (fun p => Parked.thread p.1) ++ hs.map Parked.handler)
      let s := ts.foldl (fun s p => s.modThread p.1 (fun th => { th with run := .parked, fault := p.2 })) s
      hs.foldl (fun s n => s.modHandler n (fun h => { h with run := .parked })) s
  | .trap t =>
    let s := (distinct (ts.map (·.2))).foldl (fun s pc =>
      s.raiseTraps ((ts.filter (fun p => p.2 == pc)).map (fun p => (p.1, { t with addr := pc }))) pc []) s
    hs.foldl (fun s n => (s.raiseClass n t).handlerFault n) s

/-- Keeps a line in a core's instruction cache of 243 lines (R157). DESIGN CHOICE, log entry 31: the oldest line gives way. -/
def State.keepLine (s : State) (core : Nat) (b : ILine) : State :=
  s.modCore core (fun c =>
    let l := c.icache.filter (fun k => !(k.asrec == b.asrec && k.sys == b.sys && k.vline == b.vline)) ++ [b]
    { c with icache := l.drop (l.length - 243) })

/-- INSTRUCTION_FETCH_FILL (R157): the block's line is read by HR as it is at one moment. -/
def execInstructionFetchFill (core asrec : Nat) (sys : Bool) (block : Nat) (s : State) : Host.Outcome State Fault Refusal :=
  let again : Instr := .instructionFetchFill core asrec sys block
  let va := Word.ofNum (27 * block)
  match s.translate (s.fetchCtx core asrec sys) va .fetch false with
  | (s, .error k) => .next (s.fetchStop core asrec sys block again k)
  | (s, .ok x) => match s.homeRead x.slot x.pin with
    | none => .next (s.laterOnce again)
    | some (s, l) =>
      if l.poison then .next (s.fetchStop core asrec sys block again (.trap (poisonTrap va)))
      else .next (s.keepLine core { asrec := asrec, sys := sys, vline := block / 3, words := l.w })

/-! ### Walks (R72, R81) -/

/-- Two misses are for one page of one space (R81). -/
def samePage (a b : WalkReq) : Bool := a.asrec == b.asrec && a.va.num / 2187 == b.va.num / 2187

/-- Starts or joins a walk, or queues (R81). -/
def Die.miss (d : Die) (w : WalkReq) : Die :=
  if d.walks.any (fun k => samePage k.req w) then
    { d with walks := d.walks.map (fun k => if samePage k.req w then { k with joined := k.joined ++ [w] } else k) }
  else if d.walks.length < 2187 then { d with walks := d.walks ++ [{ req := w, joined := [] }] }
  else { d with missq := d.missq ++ [w] }

/-- TLB_MISS_WALK (R72, R81). -/
def execTlbMissWalk (die : Nat) (w : WalkReq) (s : State) : Host.Outcome State Fault Refusal :=
  .next ((s.modDie die (fun d => d.miss w)).laterOnce (.walkCompletion die))

/-- A request whose walk has come to its end: its translation is filled, or its access will meet the walk's stop when it is tried again
(log entry 5); a busy line is tried again. -/
def State.endWalk (die : Nat) (s : State) (w : WalkReq) : State :=
  if (s.tlbGet (WalkReq.ctx w) w.va).any (fun e => adOk e.pte w.acc) then s
  else match s.walkNow (WalkReq.ctx w) w.va w.acc w.b with
  | (s, .ok _) => s
  | (s, .error .busy) => s.laterOnce (.tlbMissWalk die w)
  | (s, .error _) => s.modDie die (fun d => { d with walked := d.walked ++ [w] })

/-- WALK_COMPLETION (R81): the die's oldest walk returns; its requests go on, and a queued miss takes its slot. -/
def execWalkCompletion (die : Nat) (s : State) : Host.Outcome State Fault Refusal :=
  match (s.die die).walks with
  | [] => .next s
  | k :: rest =>
    let q := (s.die die).missq
    let s := s.modDie die (fun d => { d with walks := rest, missq := [] })
    let s := s.modDie die (fun d => q.foldl Die.miss d)
    let s := (k.req :: k.joined).foldl (State.endWalk die) s
    .next (if (s.die die).walks.isEmpty then s else s.laterOnce (.walkCompletion die))

/-! ### Bundles (R344–R349) -/

/-- A thread's pair of grid and PC (R344). -/
def State.pairOf (s : State) (t : TRef) : Nat × Word :=
  ((match s.team? t.team with | some x => x.grid | none => 0), (match s.thread? t with | some th => th.pc | none => .zero))

/-- The resident threads of a core that have not exited. -/
def State.residents (s : State) (core : Nat) : List TRef :=
  ((s.teams.filter (fun t => t.core == core)).map (fun t => (s.liveThreads t.num).map (·.1))).flatten

/-- The PC table and the overflow queue of a core brought up to its threads' PCs: entries that no thread holds are freed, queued
threads take freed entries first, and a thread that finds the table full joins the queue (R344, R346). -/
def State.retable (s : State) (core : Nat) : State :=
  let ts := s.residents core
  let c := s.core core
  let held := c.pct.filter (fun p => ts.any (fun t => s.pairOf t == p))
  let queued := c.overflow.filter ts.contains
  let r := (queued ++ ts.filter (fun t => !queued.contains t)).foldl (fun (p : List (Nat × Word) × List TRef) t =>
    if p.1.contains (s.pairOf t) then p
    else if p.1.length < 243 then (p.1 ++ [s.pairOf t], p.2)
    else (p.1, p.2 ++ [t])) (held, [])
  s.modCore core (fun c => { c with pct := r.1, overflow := r.2 })

/-- A thread is in a bundle already. -/
def State.bundled (s : State) (core : Nat) (t : TRef) : Bool :=
  (s.core core).pool.any (fun b => b.threads.contains t) || s.issue.any (fun b => b.threads.contains t)

/-- A thread may issue an instruction but for its convergence (R347, R349). -/
def State.present (s : State) (i : Instr) (pc : Word) (t : TRef) : Bool :=
  s.atPc t pc && !s.bundled (s.coreOf t.team) t
  && !i.forms.any (fun f => s.interlocked f.1 f.2 { mode := if f.2.et.scalar then .sca else .vec, t := t, ts := [t] })

/-- The threads of the scope of a thread that have not exited (R348). -/
def State.scopeOf (s : State) (sc : Scope) (gr : Nat) (t : TRef) : List TRef :=
  let live := fun (u : TRef) => !s.exited u
  let squad := (List.range 27).map (fun l => ({ t with lane := l } : TRef))
  match sc with
  | .none => [t]
  | .squad => squad.filter live
  | .team => (s.liveThreads t.team).map (·.1)
  | .group =>
    let g := s.groupWord t.team t.squad gr t.lane
    if !groupVal g then [t]
    else squad.filter (fun u =>
      let h := s.groupWord t.team t.squad gr u.lane
      groupVal h && groupNum h == groupNum g && live u)

/-- One thread for each lane, the lowest team thread number first, until none is left (R345). -/
def laneBundles : Nat → List TRef → List (List TRef)
  | 0, _ => []
  | fuel + 1, l =>
    if l.isEmpty then []
    else
      let now := (List.range 27).filterMap (fun k => l.find? (fun t => t.lane == k))
      now :: laneBundles fuel (l.filter (fun t => !now.contains t))

/-- Puts a bundle into a core's pool. -/
def State.pool (s : State) (core : Nat) (ts : List TRef) (pc : Word) (h : Option Nat) : State :=
  s.modCore core (fun c => { c with pool := c.pool ++ [{ core := core, threads := ts, pc := pc, handler := h, waited := 0 }] })

/-- The convergence count pauses: an absent thread of the scope is parked, trapped or stopped for a save or a handler (R349). -/
def State.paused (s : State) (t : TRef) : Bool :=
  (s.thread? t).any (fun th => th.run == .parked || th.run == .trapped)
  || (s.squad? t.team t.squad).any (·.frozen) || (s.team? t.team).any (·.saving)

/-- A scope that has not converged: three cycles count in its present threads unless an absent one pauses it; at 3^15 they time
out (R349). -/
def State.countScope (s : State) (core : Nat) (pc : Word) (here away : List TRef) : State :=
  if away.any s.paused then s
  else
    let s := here.foldl (fun s t => s.modThread t (fun th => { th with conv := th.conv + 3 })) s
    if here.any (fun t => (s.thread? t).any (fun th => 14348907 ≤ th.conv)) then
      match here with
      | t :: _ => s.laterOnce (.convergenceTimeout core t pc)
      | [] => s
    else s

/-- The group register whose members an instruction needs: g0 for PART. -/
def Instr.scopeGr (i : Instr) : Nat :=
  match i with
  | .part _ => 0
  | i => match i.parts with
    | some (_, o) => o.gr
    | none => 0

/-- The lowest team thread number first (R345). -/
def byNumber (l : List TRef) : List TRef := sortBy (fun a b => decide (a.num ≤ b.num)) l

/-- The bundles of a converged scope: one for each squad (R348). -/
def squadBundles (sc : List TRef) : List (List TRef) :=
  (distinct (sc.map (·.squad))).map (fun q => sc.filter (fun t => t.squad == q))

/-- Forms the bundles of threads that stand at one pair of a grid and a PC; without `form` the time of their scopes is counted only
(R345, R348, R349). -/
def State.bundleEntry (s : State) (core : Nat) (pc : Word) (form : Bool) (ts : List TRef) : State :=
  match ts.find? (fun t => s.atPc t pc) with
  | none => s
  | some t0 =>
    match s.instrAt core t0.team pc with
    | none => s.wantBlock core (s.asrecOf t0.team) (s.sysLevel t0.team) (pc.num / 27)
    | some i =>
      let here := ts.filter (s.present i pc)
      if i.scope = .none then
        if form then (laneBundles here.length (byNumber here)).foldl (fun s b => s.pool core b pc none) s else s
      else
        let scopes := distinct (here.map (s.scopeOf i.scope (Instr.scopeGr i)))
        scopes.foldl (fun s sc =>
          let away := sc.filter (fun t => !here.contains t)
          if away.isEmpty then (if form then (squadBundles sc).foldl (fun s b => s.pool core b pc none) s else s)
          else s.countScope core pc (sc.filter here.contains) away) s

/-- Forms the bundle of a team's handler (R374). -/
def State.bundleHandler (s : State) (core : Nat) (t : Team) : State :=
  match t.handler with
  | some h =>
    if h.run ≠ .ready ∨ t.saving ∨ (s.core core).pool.any (fun b => b.handler == some t.num) ∨ s.issue.any (fun b => b.handler == some t.num)
    then s
    else if (s.instrAt core t.num h.pc).isSome then s.pool core [] h.pc (some t.num)
    else s.wantBlock core (s.asrecOf t.num) (s.sysLevel t.num) (h.pc.num / 27)
  | none => s

/-- Forms the bundles of a team's shadow squads (R351, R396). -/
def State.bundleShadows (s : State) (core : Nat) (t : Team) : State :=
  t.body.shadows.zipIdx.foldl (fun s p =>
    let k := (t.num, p.2)
    let out := (s.core core).pool.any (fun b => b.shadow == some k) || s.issue.any (fun b => b.shadow == some k)
    match p.1.trail with
    | [] => s
    | e :: _ =>
      if out || p.1.diverged || t.saving then s
      else s.modCore core (fun c => { c with pool := c.pool ++
        [{ core := core, threads := [], pc := e.pc, handler := none, waited := 0, shadow := some k }] })) s

/-- BUNDLER_ROUND (R345, R346). -/
def execBundlerRound (core : Nat) (s : State) : Host.Outcome State Fault Refusal :=
  let s := s.retable core
  let s := (s.core core).pct.foldl (fun s p =>
    s.bundleEntry core p.2 true ((s.residents core).filter (fun t => s.pairOf t == p && !(s.core core).overflow.contains t))) s
  let s := match (s.core core).overflow with
    | [] => s
    | t :: rest =>
      let pc := (s.pairOf t).2
      let conv := (s.instrAt core t.team pc).any (fun (i : Instr) => i.scope != Scope.none)
      let at_ := fun (p : Nat × Word) => (t :: rest).filter (fun u => s.pairOf u == p)
      let s := (distinct (rest.map s.pairOf)).foldl (fun (s : State) p => if p = s.pairOf t then s else s.bundleEntry core p.2 false (at_ p)) s
      let s := s.bundleEntry core pc true (if conv then at_ (s.pairOf t) else [t])
      s.modCore core (fun c => { c with overflow := rest ++ [t] })
  .next ((s.teams.filter (fun (t : Team) => t.core == core)).foldl (fun s t => (s.bundleHandler core t).bundleShadows core t) s)

/-- CONVERGENCE_TIMEOUT (R349): every present thread of the scope takes the trap. -/
def execConvergenceTimeout (core : Nat) (t : TRef) (addr : Word) (s : State) : Host.Outcome State Fault Refusal :=
  match s.instrAt core t.team addr with
  | none => .next s
  | some i =>
    let sc := s.scopeOf i.scope (Instr.scopeGr i) t
    let here := sc.filter (s.present i addr)
    if here.length = sc.length then .next s
    else
      let s := here.foldl (fun s u => s.modThread u (fun th => { th with conv := 0 })) s
      .next (s.raiseTraps (here.map (fun u => (u, Trap.of 15 0 .zero))) addr ((encode i).getD []))

/-! ### Issue (R351) -/

/-- What a core may issue in a cycle: two vector slots, a scalar, a memory and an engine slot. -/
def issueSlots : List Nat := [2, 1, 1, 1]

/-- The slots that a bundle takes. -/
def State.bundleSlots (s : State) (b : Bundle) : Option (List Nat) :=
  match b.handler, b.shadow with
  | some _, _ => some [0, 1, 0, 0]
  | none, some (n, q) => ((s.shadow? n q).bind (fun x => x.trail.head?)).map (fun e => e.instr.slots)
  | none, none => (b.threads.head?).bind (fun t => (s.instrAt b.core t.team b.pc).map Instr.slots)

/-- The order of the pool (R351): waited 54 issue cycles, priority, age, entry. -/
def State.before (s : State) (a b : Bundle) : Bool :=
  let team := fun (x : Bundle) => match x.handler, x.shadow with
    | some n, _ => n
    | none, some (n, _) => n
    | none, none => ((x.threads.head?).map (·.team)).getD 0
  let prio := fun (x : Bundle) => s.gridWord (team x) 18
  -- a shadow squad's threads have the ages of its leader's
  let mine : Bundle → List TRef := fun x => match x.shadow with
    | some (n, q) => (((s.shadow? n q).bind (fun y => y.trail.head?)).map (fun (e : VEntry) => e.lanes.map (fun l => (⟨n, q, l⟩ : TRef)))).getD []
    | none => x.threads
  let age : Bundle → Nat := fun x => ((mine x).map (fun t => match s.thread? t with | some th => th.age | none => 0)).foldl min s.cycle
  let entry := fun (x : Bundle) => (s.core x.core).pct.findIdx (fun p => p.2 == x.pc && (s.team? (team x)).any (fun t => t.grid == p.1))
  let old := fun (x : Bundle) => decide (54 ≤ x.waited)
  if old a ≠ old b then old a
  else if prio a ≠ prio b then prio b < prio a
  else if age a ≠ age b then age a < age b
  else entry a ≤ entry b

/-- Issue is withheld from a core in this cycle (R460): by the governor, or by its droop detector, which leaves the last cycle of
every nine open; a machine that has asserted THERMTRIP issues no more (R461). -/
def State.withheld (s : State) (core : Nat) : Bool :=
  s.thermtrip || ((s.cycle % 9 : Nat) : Int) < s.cwInt 20012 || ((s.core core).droop && s.cycle % 9 != 8)

/-- The bundles of the pool that a core issues and those that wait, in order, with the slots that are free. The bundles of a convergence
point of a whole team issue in one cycle (R348): DESIGN CHOICE, log entry 60, those behind the first take no slot. -/
def State.select (s : State) (l : List Bundle) (free : List Nat) : List Bundle × List Bundle × List Nat :=
  l.foldl (fun (p : List Bundle × List Bundle × List Nat) b =>
    match s.bundleSlots b with
    | none => p
    | some k =>
      let whole := (b.threads.head?).any (fun t => (s.instrAt b.core t.team b.pc).any (fun i => decide (i.scope = .team)))
      if whole && p.1.any b.mate then (p.1 ++ [b], p.2.1, p.2.2)
      else if (List.zipWith (fun (x y : Nat) => decide (x ≤ y)) k p.2.2).all id then (p.1 ++ [b], p.2.1, List.zipWith (fun x y => y - x) k p.2.2)
      else (p.1, p.2.1 ++ [{ b with waited := b.waited + 1 }], p.2.2)) ([], [], free)

/-- ISSUE_SELECTION (R351). -/
def execIssueSelection (core : Nat) (s : State) : Host.Outcome State Fault Refusal :=
  if s.withheld core then .next s
  else
    let r := s.select (sortBy s.before (s.core core).pool) issueSlots
    let s := s.modCore core (fun c => { c with pool := r.2.1 })
    .next { s with issue := s.issue ++ r.1 }

/-! ### Illegal instructions and trap entry -/

/-- ILLEGAL_INSTRUCTION (R173). -/
def execIllegalInstruction (code : Nat) (words : List Word) (s : State) : Host.Outcome State Fault Refusal :=
  .next (s.illegal code words)

/-- TRAP_ENTRY (R372): the team's oldest event enters its handler once none is in progress; with TVEC at 0 the event is
unhandled, and unless that ends the context its lanes exit (R373). Under VIGIL it waits until the squad's shadow has reached the trap
and agrees (R396). -/
def execTrapEntry (team : Nat) (s : State) : Host.Outcome State Fault Refusal :=
  match s.team? team with
  | none => .next s
  | some t =>
    match t.handler, t.events with
    | none, e :: rest =>
      if t.saving then .next s
      else if s.shadowBad team e.squad then .next ((s.vigilFail team e.squad).laterOnce (.trapEntry team))
      else if s.shadowBehind team e.squad then .next (s.laterOnce (.trapEntry team))
      else if t.tvec ≠ .zero then .next (s.enterTrap team t e rest)
      else
        let s := s.raise (s.teamEvent 19 team 0 .zero 0)
        if (s.team? team).isNone then .next s
        else
          let s := s.modTeam team (fun t => { t with events := rest })
          .next (s.tret team { squad := e.squad, pc := .zero, ev := e, run := .ready } true)
    | _, _ => .next s

end Sys2Proof.Machine
end

