-- ==== Sys2Proof/Machine/MergeEv.lean ====
section
/-! DEFINITION. The merge of a DET grid (R335–R337) along the fixed tree of R403. -/

namespace Sys2Proof.Machine

/-! ### The tree (R403) over keyed values -/

/-- One node of the tree: the float sum of three children, an absent one being canonical zero; other operations are associative. -/
def treeNode (op : Int) (et : ETy) (l : List (Nat × Word)) : Word :=
  let get := fun (i : Nat) => ((l.find? (fun p => p.1 % 3 == i)).map (·.2)).getD .zero
  if op = 1 && isFloat et then
    mapElems et (fun x => fadd3 (if et = .tf9 then tf9F else tf27F) false (x.getD 0 0) (x.getD 1 0) (x.getD 2 0)) [get 0, get 1, get 2]
  else match l with
    | [] => .zero
    | p :: t => t.foldl (fun a q => combine op et false a q.2) p.2

/-- One level of the tree over values in ascending order of their keys. -/
def treeLevel (op : Int) (et : ETy) (l : List (Nat × Word)) : List (Nat × Word) :=
  (distinct (l.map (·.1 / 3))).map (fun k => (k, treeNode op et (l.filter (fun p => p.1 / 3 == k))))

/-- The tree; a key has at most 54 trits, and a level above the last changes nothing. -/
def keyedTree (op : Int) (et : ETy) (l : List (Nat × Word)) : Word :=
  let r := (List.range 54).foldl (fun l _ => treeLevel op et l) l
  ((r.head?).map (·.2)).getD .zero

/-! ### What the teams contribute -/

/-- A team's contribution: its linear index, its escrow and its partials. -/
structure Contrib where
  lin : Nat
  escrow : List ELine
  parts : List Part

/-- The contributions of a grid's teams in ascending linear team index, of teams that have ended and of those that run. -/
def State.contribs (s : State) (g : Nat) : List Contrib :=
  let ended := match s.grid? g with
    | some x => x.deferred.map (fun d => ({ lin := d.lin, escrow := d.escrow, parts := d.parts } : Contrib))
    | none => []
  let here := (s.teams.filter (fun t => t.grid == g)).map (fun t => ({ lin := t.lin, escrow := t.body.escrow, parts := t.body.parts } : Contrib))
  sortBy (fun a b => a.lin ≤ b.lin) (ended ++ here)

/-- Changes a team's contribution where it stands. -/
def State.modContrib (s : State) (g lin : Nat) (f : List ELine → List ELine) (h : List Part → List Part) : State :=
  let s := s.modGrid g (fun x => { x with deferred := x.deferred.map (fun d =>
    if d.lin = lin then { d with escrow := f d.escrow, parts := h d.parts } else d) })
  { s with teams := s.teams.map (fun t => if t.grid = g ∧ t.lin = lin then
      { t with body := { t.body with escrow := f t.body.escrow, parts := h t.body.parts } } else t) }

/-- The context of a merge's translations: the grid's own. -/
def State.gridCtx (s : State) (g : Nat) : Ctx :=
  match s.grid? g with
  | some x => { core := 324, asrec := (intAt x.node 21).toNat, part := x.part, sys := trit (intAt x.node 17) 4 == 1 }
  | none => { core := 324, asrec := 0, part := 0, sys := true }

/-- COMPRESS of a grid. -/
def State.gridCompress (s : State) (g : Nat) : Bool := (s.grid? g).any (fun x => trit (intAt x.node 17) 2 == 1)

/-- A partial with its word: slot and place; with what its page says of the line. -/
structure Placed where
  lin : Nat
  part : Part
  slot : Nat
  i : Nat
  elig : Bool
  pin : Option (Nat × Nat)

/-- A contribution that cannot be placed, with its team, and why (R84). -/
structure LostLine where
  lin : Nat
  line : ELine
  trap : Trap

/-- The contributions that cannot be placed are discarded (R84): their owners trap at GPHASE where they run, in one event for each squad,
cause and detail; of a team that has ended the grid takes the event. The error class of the stop is raised as at any access (R85). -/
def State.loseLines (s : State) (g : Nat) (l : List LostLine) : State :=
  (distinct (l.map (·.lin))).foldl (fun s lin =>
    let mine := l.filter (fun p => p.lin == lin)
    match s.teams.find? (fun x => x.grid == g && x.lin == lin) with
    | some x =>
      (mine.foldl (fun s p => s.raiseClass x.num p.trap) s).failPub x.num (if x.ending then .teamEnd else .gphase)
        (mine.map (fun p => (p.line, if p.trap.cause = 6 then { cause := 6, detail := p.trap.detail, va := p.trap.addr } else pubRefused p.trap)))
    | none => mine.foldl (fun s p =>
        let e : Event := { cls := 13, src := 652, kind := 1, addr := lineVa p.line.vline 0, detail := 0, grid := some g, lin := some lin, lin2 := 0 }
        let s := match p.trap.cls with | some c => s.raise { e with cls := c } | none => s
        (s.raise e).modGrid g (fun x => { x with err := true })) s) s

/-- A contribution that a recoverable fault holds back (R84), with its team and the fault. -/
structure HeldLine where
  lin : Nat
  line : ELine
  perm : Bool
  level : Nat
  va : Word
  acc : Access

/-- What the translation of the contributions has come to: the state, the partials with their places, what is lost, what a fault holds
back, and whether a walk is under way. -/
structure Fresh where
  s : State
  placed : List Placed
  lost : List LostLine
  held : List HeldLine
  busy : Bool

/-- A contribution whose translation stops. -/
def Fresh.stopped (f : Fresh) (s : State) (lin : Nat) (e : ELine) (k : Stop) : Fresh :=
  match k with
  | .trap t => { f with s := s, lost := f.lost ++ [{ lin := lin, line := e, trap := t }] }
  | .recov perm level va a => { f with s := s, held := f.held ++ [{ lin := lin, line := e, perm := perm, level := level, va := va, acc := a }] }
  | .busy => { f with s := s, busy := true }

/-- Translates a line's stale words afresh (R84, R335). -/
def Fresh.line (g : Nat) (f : Fresh) (p : Nat × ELine) : Fresh :=
  let e := p.2
  if !e.words.any (·.stale) then f
  else match f.s.translate (f.s.gridCtx g) (lineVa e.vline 0) .write e.b with
    | (s, .ok x) =>
      let new := fun (l : ELine) => if l.vline = e.vline then
        { l with slot := x.slot, elig := x.ce && s.gridCompress g, pin := x.pin, words := l.words.map (fun w => { w with stale := false }) } else l
      { f with s := s.modContrib g p.1 (List.map new) id }
    | (s, .error k) => f.stopped s p.1 { e with words := e.words.filter (·.stale) } k

/-- The escrow line that stands for a partial that cannot be placed. -/
def Part.eline (q : Part) : ELine :=
  { vline := q.va.num / 81, slot := 0, elig := false, words := [{ i := wordOf q.va, val := q.val, writer := q.thread, stale := true }] }

/-- Translates a partial (R337). -/
def Fresh.part (g : Nat) (f : Fresh) (q : Nat × Part) : Fresh :=
  match f.s.translate (f.s.gridCtx g) q.2.va .readWrite false with
    | (s, .ok x) =>
      { f with s := s, placed := f.placed ++ [{ lin := q.1, part := q.2, slot := x.slot, i := wordOf q.2.va, elig := x.ce && s.gridCompress g, pin := x.pin }] }
    | (s, .error k) => f.stopped s q.1 q.2.eline k

/-- Brings every contribution that can be placed to its current frame. -/
def State.freshAll (s : State) (g : Nat) : Fresh :=
  let lines := ((s.contribs g).map (fun c => c.escrow.map (fun e => (c.lin, e)))).flatten
  let f := lines.foldl (Fresh.line g) { s := s, placed := [], lost := [], held := [], busy := false }
  let parts := ((f.s.contribs g).map (fun c => c.parts.map (fun q => (c.lin, q)))).flatten
  parts.foldl (Fresh.part g) f

/-! ### The merge (R335–R337) -/

/-- A recorded word of an ordinary store. -/
structure MWord where
  slot : Nat
  i : Nat
  va : Word
  val : Word
  lin : Nat
  elig : Bool
  b : Bool
  pin : Option (Nat × Nat)

/-- The ordinary words of the contributions, in ascending linear team index. -/
def ordinaryWords (l : List Contrib) : List MWord :=
  (l.map (fun c => (c.escrow.map (fun e => (e.words.filter (fun w => !w.stale)).map (fun w =>
    ({ slot := e.slot, i := w.i, va := lineVa e.vline w.i, val := w.val, lin := c.lin, elig := e.elig, b := e.b, pin := e.pin } : MWord)))).flatten)).flatten

/-- A merge desk at work (R335): what it has recorded, the words that it writes, and for every value that differs the word, the team that
stands and the team that is dropped. -/
structure Desk where
  words : List DeskWord
  writes : List MWord
  clash : List (MWord × Nat × Nat)

/-- A word of a team comes to the desk (R335): the first of each word is recorded, and a later one that differs is dropped. A fault may
hold a team's word back (R84): the lowest team's value then stands, as if in ascending order. -/
def Desk.take (d : Desk) (w : MWord) : Desk :=
  let new : DeskWord := { slot := w.slot, i := w.i, val := w.val, lin := w.lin }
  match d.words.find? (fun r => r.slot == w.slot && r.i == w.i) with
  | none => { d with words := d.words ++ [new], writes := d.writes ++ [w] }
  | some r =>
    if r.val = w.val then { d with words := d.words.map (fun x => if x = r then { x with lin := min x.lin w.lin } else x) }
    else if r.lin ≤ w.lin then { d with clash := d.clash ++ [(w, r.lin, w.lin)] }
    else
      { words := d.words.map (fun x => if x = r then new else x),
        writes := d.writes.filter (fun x => !(x.slot == w.slot && x.i == w.i)) ++ [w],
        clash := d.clash ++ [(w, w.lin, r.lin)] }

/-- The words of the teams come to a desk that has recorded some. -/
def recordWords (old : List DeskWord) (l : List MWord) : Desk := l.foldl Desk.take { words := old, writes := [], clash := [] }

/-- The kind of a partial: operation and element type (R337). -/
def Part.kind (p : Part) : Int × ETy := (p.op, p.et)

/-- One thread's partial of a word and a kind: of two that have come to be of one word, by two addresses, the one sum. -/
def threadPartial (k : Int × ETy) (l : List Placed) : Word :=
  match l with
  | [] => .zero
  | p :: t => t.foldl (fun v q => combine k.1 k.2 false v q.part.val) p.part.val

/-- One team's combined partials of a kind: the tree keyed by team thread number. -/
def teamPartial (k : Int × ETy) (l : List Placed) : Word :=
  let threads := sortBy (fun a b => decide (a ≤ b)) (distinct (l.map (·.part.thread)))
  keyedTree k.1 k.2 (threads.map (fun t => (t, threadPartial k (l.filter (fun p => p.part.thread == t)))))

/-- What the partials of one word come to: the standing kind, its value, the standing team, and the teams with a dropped kind. -/
def wordPartials (l : List Placed) : Option ((Int × ETy) × Word × Nat × List Nat) :=
  let first := l.foldl (fun (b : Option Placed) p => match b with
    | none => some p
    | some q => if p.lin < q.lin ∨ (p.lin = q.lin ∧ p.part.thread < q.part.thread) then some p else b) none
  first.map (fun f =>
    let k := f.part.kind
    let mine := l.filter (fun p => p.part.kind == k)
    let teams := sortBy (fun a b => decide (a ≤ b)) (distinct (mine.map (·.lin)))
    let v := keyedTree k.1 k.2 (teams.map (fun t => (t, teamPartial k (mine.filter (fun p => p.lin == t)))))
    let dropped := sortBy (fun a b => decide (a ≤ b)) (distinct ((l.filter (fun p => p.part.kind != k)).map (·.lin)))
    (k, v, f.lin, dropped))

/-- A merge conflict (R336): the standing team and the team whose contribution was dropped. -/
def State.mergeConflict (s : State) (g slot : Nat) (va : Word) (stands dropped : Nat) : State :=
  let s := s.raise { cls := 12, src := 324 + homeOf slot, kind := 1, addr := va, detail := 0, grid := some g, lin := some dropped, lin2 := stands }
  s.modGrid g (fun x => { x with err := true })

/-- The conflicts of a word's partials, and the write that they make (R337). -/
def State.mergePartials (g : Nat) (desk : List DeskWord) (p : State × List HwReq) (l : List Placed) : State × List HwReq :=
  match l with
  | [] => p
  | a :: _ =>
    match desk.find? (fun r => r.slot == a.slot && r.i == a.i) with
    | some r =>
      ((sortBy (fun x y => decide (x ≤ y)) (distinct (l.map (·.lin)))).foldl (fun s t => s.mergeConflict g a.slot a.part.va r.lin t) p.1, p.2)
    | none => match wordPartials l with
      | none => p
      | some (k, v, stands, dropped) =>
        (dropped.foldl (fun s t => s.mergeConflict g a.slot a.part.va stands t) p.1,
         p.2 ++ [{ slot := a.slot, op := .red a.i k.1 k.2 false [v], src := .merge g, elig := some a.elig, va := a.part.va, pin := a.pin }])

/-- One HW for each recorded word (R335). -/
def recordWrites (g : Nat) (l : List MWord) : List HwReq :=
  l.map (fun r => { slot := r.slot, op := .words [(r.i, r.val)], src := .merge g, elig := some r.elig, va := r.va, pin := r.pin,
                    fmt := some r.b })

/-- The merge of the ordinary words that have their places (R335): the conflicts, and the words that the desks write. -/
def State.mergeOrdinary (s : State) (g : Nat) : State × List HwReq :=
  let old := match s.grid? g with | some x => x.desk | none => []
  let d := recordWords old (ordinaryWords (s.contribs g))
  let s := d.clash.foldl (fun s c => s.mergeConflict g c.1.slot c.1.va c.2.1 c.2.2) s
  let stale := fun (l : List ELine) => (l.map (fun e => { e with words := e.words.filter (·.stale) })).filter (fun e => !e.words.isEmpty)
  let s := (s.contribs g).foldl (fun s c => s.modContrib g c.lin stale id) s
  (s.modGrid g (fun x => { x with desk := d.words }), recordWrites g d.writes)

/-- The writes of a merge go out. -/
def State.sendMerge (s : State) (g : Nat) (l : List HwReq) : State :=
  (s.modGrid g (fun x => { x with unack := x.unack + l.length })).later (l.map Instr.homeHw)

/-- What has its place is published while a fault holds contributions back (R84); partials wait for the rest of their word's. -/
def State.mergeMeanwhile (s : State) (g : Nat) : State :=
  let r := s.mergeOrdinary g
  r.1.sendMerge g r.2

/-- The merge of a grid's contributions whose frames are current: conflicts, then one write for each word and each combined
partial. -/
def State.mergeNow (s : State) (g : Nat) (placed : List Placed) : State :=
  let p := s.mergeOrdinary g
  let desk := match p.1.grid? g with | some x => x.desk | none => []
  let words := distinct (placed.map (fun p => (p.slot, p.i)))
  let r := words.foldl (fun p w => State.mergePartials g desk p (placed.filter (fun q => (q.slot, q.i) == w))) (p.1, [])
  let writes := p.2 ++ r.2
  let s := r.1.modGrid g (fun x => { x with deferred := [], merging := false, desk := [] })
  let s := { s with teams := s.teams.map (fun (t : Team) => if t.grid = g then { t with body := { t.body with escrow := [], parts := [] } } else t) }
  let s := s.sendMerge g writes
  if writes.isEmpty then s.laterOnce (if (s.grid? g).any (fun x => x.live == 0) then .gridCompletion g else .gphaseComplete g) else s

/-! ### Contributions that a fault holds back (R84) -/

/-- The running threads that own a held contribution. -/
def State.heldOwners (s : State) (g : Nat) (h : HeldLine) : List TRef :=
  match s.teams.find? (fun x => x.grid == g && x.lin == h.lin && !x.ending) with
  | some x => (distinct (h.line.words.map (·.writer))).map (TRef.ofNum x.num)
  | none => []

/-- A thread that stands at GPHASE parks there for a contribution that it owns. -/
def State.parkAtPhase (s : State) (e : ELine) (r : TRef) : State :=
  s.modThread r (fun t => if t.run = .gphase then { t with back := some t.run, run := .parked, fault := entryVa e r.num } else t)

/-- A thread that parks for a contribution stands at GPHASE again. -/
def State.unparkAtPhase (s : State) (r : TRef) : State :=
  s.modThread r (fun t => match t.run, t.back with
    | .parked, some b => { t with run := b, back := none }
    | _, _ => t)

/-- The faults of held contributions are posted, and their owners park at the GPHASE (R84, R87). -/
def State.parkMerge (s : State) (g : Nat) (l : List HeldLine) : State :=
  l.foldl (fun s h =>
    let owners := s.heldOwners g h
    let s := s.postFault (s.gridCtx g) h.perm h.level h.va h.acc [.merge g owners]
    owners.foldl (State.parkAtPhase · h.line) s) s

/-- Teams whose escrow holds a line that its blocks show to be lost: they roll back before the merge takes it (R96, R392, R395). -/
def State.lostTeams (s : State) (g : Nat) : List Nat :=
  (s.teams.filter (fun t => t.grid == g && t.body.escrow.any (fun e => health e.flips false == Health.lost))).map (·.num)

/-- Every live thread of the grid stands at GPHASE, and the writes of a merge that has been made are acknowledged. -/
def State.phaseStands (s : State) (g : Nat) : Bool :=
  s.allAt (s.gridTeams g) .gphase && (s.grid? g).any (fun x => x.unack == 0)

/-- The merge has been made for the GPHASE at which the grid's teams stand. -/
def State.phaseMerged (s : State) (g : Nat) : Bool :=
  (s.teams.filter (fun t => t.grid == g)).all (fun t => t.closing.contains 82)

/-- DET_MERGE (R335): at GPHASE, or at the grid's end. A recoverable fault of a translation parks the owning threads, while what has its
place is published (R84). A GPHASE whose merge has been made completes (R328); one whose threads a fault of the merge has taken away,
and that stand there again, has a merge of its own. -/
def execDetMerge (grid : Nat) (s : State) : Host.Outcome State Fault Refusal :=
  match s.grid? grid with
  | none => .next s
  | some x =>
    let stands := s.phaseStands grid
    let phase := stands && !s.phaseMerged grid
    let atEnd := x.live == 0 && !x.deferred.isEmpty
    if x.killed || !(phase || atEnd) then .next (if stands && !x.killed then s.laterOnce (.gphaseComplete grid) else s)
    else if !(s.lostTeams grid).isEmpty then .next (((s.lostTeams grid).map Instr.rollback).foldl State.laterOnce s)
    else
      let f := State.freshAll (s.modGrid grid (fun x => { x with merging := true })) grid
      if f.busy then .next (f.s.laterOnce (.detMerge grid))
      else if !f.held.isEmpty then .next (((f.s.mergeMeanwhile grid).loseLines grid f.lost).parkMerge grid f.held)
      else
        let s := if phase then { f.s with teams := f.s.teams.map (fun t => if t.grid = grid then { t with closing := distinct (t.closing ++ [82]) } else t) } else f.s
        .next ((s.mergeNow grid f.placed).loseLines grid f.lost)

end Sys2Proof.Machine
end

