-- ==== Sys2Proof/Machine/FaultEv.lean ====
section
/-! DEFINITION. The fault list's steps (R86, R88), rollback (R390–R392) and the comparison of VIGIL (R396). -/

namespace Sys2Proof.Machine

/-! ### The fault list -/

/-- FAULT_POSTING_RESUME (R86, R87): the faults of a space that wait for an entry are posted, as far as the list has room, and what joiners
have changed is written to posted entries. -/
def execFaultPostingResume (asrec : Nat) (s : State) : Host.Outcome State Fault Refusal :=
  .next ((s.posts.filter (fun p => p.asrec == asrec && (p.entry.isNone || p.late))).foldl (fun s p =>
    let (s, q) := if p.entry.isNone then s.postEntry p else s.postLate p
    { s with posts := s.posts.map (fun x => if x = p then q else x) }) s)

/-- Wakes what is parked on an entry that software has resolved: it performs its access again (R88). -/
def State.wakeParked (s : State) (w : Parked) : State :=
  match w with
  | .thread t => s.modThread t (fun th => if th.run = .parked then { th with run := .ready } else th)
  | .handler n => s.modHandler n (fun h => if h.run = .parked then { h with run := .ready } else h)
  | .cmd n seq => (s.modCmd n seq (fun c => { c with parked := false })).laterOnce (.scoreboardStart n seq)
  | .pub n id _ => s.retryHeld n id
  | .node g i =>
    if (s.graph? g).any (fun x => x.running.contains i) then
      (s.setNodeWork g i (s.nodeWork g i).1 false).laterOnce (nodeStep g i (intAt (s.nodeWords g i) 0))
    else s
  | .merge g owners => (owners.foldl State.unparkAtPhase s).laterOnce (.detMerge g)

/-- A virtual line lies in a page of 3^7 trytes. -/
def ELine.inPage (e : ELine) (page : Nat) : Bool := 81 * e.vline / 2187 == page

/-- The contributions to a merge that lie in a page and have no place yet. -/
def State.lostIn (s : State) (g page : Nat) (t : Trap) : List LostLine :=
  ((s.contribs g).map (fun c =>
    (c.escrow.filter (fun e => e.inPage page && e.words.any (·.stale))).map (fun e =>
      ({ lin := c.lin, line := { e with words := e.words.filter (·.stale) }, trap := t } : LostLine))
    ++ (c.parts.filter (fun p => p.va.num / 2187 == page)).map (fun p => ({ lin := c.lin, line := p.eline, trap := t } : LostLine)))).flatten

/-- Takes the contributions that lie in a page and have no place yet out of a merge. -/
def State.dropIn (s : State) (g page : Nat) : State :=
  let drop := fun (l : List ELine) =>
    (l.map (fun e => if e.inPage page then { e with words := e.words.filter (fun w => !w.stale) } else e)).filter (fun e => !e.words.isEmpty)
  (s.contribs g).foldl (fun s c => s.modContrib g c.lin drop (fun l => l.filter (fun p => p.va.num / 2187 != page))) s

/-- Fails what is parked on an entry that software has given up (R88, R84, R136, R361). -/
def State.failParked (s : State) (kind : Int) (page : Nat) (w : Parked) : State :=
  match w with
  | .thread t =>
    match s.thread? t with
    | some th => if th.run = .parked then s.raiseTraps [(t, Trap.of 6 kind th.fault)] th.pc th.instr else s
    | none => s
  | .handler n => if ((s.team? n).bind (·.handler)).any (fun h => h.run == .parked) then s.handlerFault n else s
  | .cmd n seq =>
    match s.cmd? n seq with
    | some c => if c.parked then (s.closeExch (.cmd n seq) 1).endCmd n seq 1 c.fault else s
    | none => s
  | .pub n id _ =>
    let no : Refused := { cause := 6, detail := kind, va := .zero }
    ((s.unparkOwners n id).modPub n id (fun p => { p with
      held := p.held.filter (fun e => !e.inPage page),
      failed := p.failed ++ (p.held.filter (fun e => e.inPage page)).map (fun e => (e, no)) })).retryHeld n id
  | .node g i =>
    if (s.graph? g).any (fun x => x.running.contains i) then
      let s := { s with grids := s.grids.filter (fun x => !(x.src == some (g, i) && x.live == 0)) }
      ((s.closeExch (.node g i) 1).faultGraph g i).nodeOff g i
    else s
  | .merge g owners =>
    let s := owners.foldl State.unparkAtPhase s
    ((s.dropIn g page).loseLines g (s.lostIn g page (Trap.of 6 kind .zero))).laterOnce (.detMerge g)

/-- FAULT_ENTRY_DONE (R88): software has stored to an entry's DONE; an entry that is not done is held shared again. -/
def execFaultEntryDone (entry : Nat) (s : State) : Host.Outcome State Fault Refusal :=
  let done := (wordAt (s.lineNow entry).w 26).val
  let s := s.sawLine entry
  let mine := s.posts.filter (fun p => p.entry == some entry)
  if done = 0 then
    .next (mine.foldl (fun s p => ((s.readShared (pageWalker (p.core / 81 % 4)) entry).map (·.1)).getD s) s)
  else
    let s := { s with posts := s.posts.filter (fun p => p.entry != some entry) }
    .next (mine.foldl (fun s p => p.who.foldl (fun s w =>
      if 0 < done then s.wakeParked w else s.failParked p.kind p.page w) s) s)

/-! ### Rollback (R390–R392) -/

/-- A thread as recorded at the opening: what has been acknowledged meanwhile stays acknowledged, and of its leases those that
still hold. A serial that has arrived meanwhile is delivered. -/
def rollThread (old new : Thread) : Thread :=
  let held := fun (r : LeaseRec) => new.leases.any (fun q => q.vline == r.vline && q.granted && q.valid)
  let wins := old.wins.map (fun w =>
    if w.src = .serial ∧ !(new.wins.any (fun u => u.reg == w.reg && u.src == .serial)) then { w with arrived := true, val := wordAt new.regs w.reg }
    else w)
  Thread.settle { old with unackPub := new.unackPub, unackSyn := new.unackSyn, wins := wins,
                           leases := old.leases.map (fun r => { r with valid := r.valid && held r }) }

/-- Squads as recorded at the opening. -/
def rollSquad (old new : Squad) : Squad := { old with threads := List.zipWith rollThread old.threads new.threads, frozen := false }

/-- Cancels the collectives of commands issued since the opening; those recorded go on from their recorded progress. -/
def State.rollExch (s : State) (n : Nat) (old : List Cmd) : State :=
  let gone := fun (e : Exch) => match e.who with
    | .cmd m seq => m == n && !e.ended && !old.any (fun c => c.seq == seq)
    | .node _ _ => false
  let back := fun (e : Exch) => match e.who with
    | .cmd m seq => match old.find? (fun c => m == n && c.seq == seq) with
      | some c => if e.ended then e else { e with wrote := e.wrote.take c.done }
      | none => e
    | .node _ _ => e
  { s with exch := (s.exch.filter (fun e => !gone e)).map back }

/-- The steps that recorded results, drawers and commands await again. -/
def rollSteps (n core : Nat) (b : TeamBody) : List Instr :=
  let wins := ((b.squads.zipIdx).map (fun (q, i) => ((q.threads.zipIdx).map (fun (th, l) =>
    (th.wins.filter (fun w => w.src == .load && !w.arrived)).map (fun w => Instr.loadDataReturn ⟨n, i, l⟩ w.reg))).flatten)).flatten
  let sfu := ((b.squads.zipIdx).map (fun p => p.1.sfuq.map (fun _ => Instr.sfuResultLands n p.2))).flatten
  let tell := (b.cmds.map (fun c => c.pieces.map (fun d => Instr.drawerRequest core d))).flatten
  wins ++ sfu ++ tell

/-- The restoring part of a rollback (R392): the copied items, the commands and the PCs of the opening. -/
def State.restoreOpening (s : State) (n : Nat) (t : Team) (b : TeamBody) : State :=
  let s := s.entriesFree (s.entryCores n)
  let lost := (s.threadsOf n).map (fun p => p.2.leases.map (fun r => (p.1, r)))
  let kept := fun (x : TRef) (r : LeaseRec) => (b.squads[x.squad]?).any (fun q =>
    (q.threads[x.lane]?).any (fun th => th.leases.any (fun k => k.vline == r.vline)))
  let s := lost.flatten.foldl (fun s p => if kept p.1 p.2 then s else s.dropLease p.1 p.2) s
  let flying := fun (c : Cmd) => (s.flits.filter (fun f => f.ty == 0 && f.owner == some (n, c.seq))).length
  let pub := fun (p : Pub) => { p with held := [], again := [], failed := [] }
  let cmds := b.cmds.map (fun c => { c with outstanding := if c.begun && !isRangeXf c.instr then flying c else 0, parked := false })
  -- restored escrow lines lie in the spill area until they are used (R95)
  let escrow := b.escrow.map (fun e => { e with spilled := true, flips := [] })
  let body := { b with escrow := escrow, squads := List.zipWith rollSquad b.squads t.body.squads, cmds := cmds }
  let s := (s.modTeam n (fun t => { t with body := body, events := [], handler := none, closing := [], pubs := t.pubs.map pub })).rollExch n b.cmds
  (t.pubs.foldl (fun s p => s.settlePub n p.id) (s.later (rollSteps n t.core body))).sweepLeases

/-- What is lost of a team that cannot roll back (R392): escrow lines that their blocks show to be lost are gone, and what waited for them
goes on. -/
def State.dropLost (s : State) (n : Nat) : State :=
  let keep := fun (l : List ELine) => l.filter (fun e => health e.flips false != Health.lost)
  let s := s.modTeam n (fun t => { t with body := { t.body with escrow := keep t.body.escrow },
                                          pubs := t.pubs.map (fun p => { p with again := keep p.again }) })
  (((s.team? n).map (fun t => t.pubs.map (·.id))).getD []).foldl (fun s id => s.laterOnce (.publicationAck n id { vline := noLine })) s

/-- A team that has ended but whose reservation stands has begun to hand its escrow on: its writes would be made twice (R342, R391). -/
def Team.handedOn (t : Team) : Bool := t.ending && (!t.pubs.isEmpty || t.body.escrow.isEmpty)

/-- A team consumes an uncorrectable error in its own state, or a comparison failed (R392): it rolls back to the opening of its
interval, where that is possible, the pool's own copies are readable, and it has not happened three times. A team whose save has begun
is then saved as it stood at the opening; one whose threads had exited runs again. -/
def State.rollBack (s : State) (n : Nat) : State :=
  match s.team? n with
  | none => s
  | some t =>
    match t.opened with
    | some b =>
      let (s, sound) := s.readPool t
      if !t.covered || t.irrevocable || t.handedOn || !sound then (s.raise (s.teamEvent 10 n 0 .zero 0)).dropLost n
      else if 3 ≤ t.rbHere then (s.raise (s.teamEvent 22 n 0 .zero 0)).dropLost n
      else (s.restoreOpening n t b).modTeam n (fun t => { t with rbcnt := t.rbcnt + 1, rbHere := t.rbHere + 1, ending := false })
    | none => (s.raise (s.teamEvent 10 n 0 .zero 0)).dropLost n

/-- ROLLBACK (R392). -/
def execRollback (team : Nat) (s : State) : Host.Outcome State Fault Refusal := .next (s.rollBack team)

/-- VIGIL_COMPARE (R396): leader and shadow have disagreed at a point, or a tile and its shadow (R299): it is a silent-error detection,
and the team rolls back. -/
def execVigilCompare (core team squad : Nat) (s : State) : Host.Outcome State Fault Refusal :=
  if s.coreOf team = core ∧ s.shadowBad team squad then .next ((s.raise (s.teamEvent 9 team 0 .zero 0)).rollBack team) else .next s

end Sys2Proof.Machine
end

