-- ==== Sys2Proof/Machine/GraphEv.lean ====
section
/-! DEFINITION. The steps of the graph walker: what each kind of node does, and how a node completes (R354–R361). -/

namespace Sys2Proof.Machine

/-- A node's step, where the node is of that kind, runs and is not parked. -/
def State.asNode (s : State) (slot node : Nat) (k : Int) (f : List Word → State) : Host.Outcome State Fault Refusal :=
  .next (if s.nodeRuns slot node && intAt (s.nodeWords slot node) 0 == k then f (s.nodeWords slot node) else s)

/-- A node's own part is done (R359). -/
def State.nodeDone (s : State) (slot node : Nat) (succs : List Int) : State := s.later [.nodeComplete slot node succs]

/-- GRID_NODE (R356): the node is handed to the dispatchers as a grid of its own, after the grid of its previous release has ended
(R359). A grid node that runs again after a stop of its STATW goes on with that write. -/
def execGridNode (slot node : Nat) (s : State) : Host.Outcome State Fault Refusal :=
  s.asNode slot node 1 (fun l =>
    match s.grids.find? (fun g => g.src == some (slot, node)) with
    | some g => s.laterOnce (.gridCompletion g.num)
    | none =>
      let g : Grid := { num := s.ngrid, src := some (slot, node), part := s.partOfSlot slot, node := l,
                        nodeAddr := s.nodeAddr slot node, rel := ((s.graph? slot).bind (fun x => assocGet x.rels node)).getD s.nrel, next := 0, live := 0, err := false, killed := false, merging := false,
                        deferred := [], prepared := [], unack := 0, told := false }
      ({ s with grids := s.grids ++ [g], ngrid := s.ngrid + 1 } : State).later [.teamPlacement g.num])

/-- Copies lines from the `done`-th on until one stops. -/
def State.copyLines (c : Ctx) (slot node : Nat) (src dst : Nat) : Nat → Nat → State → State × Except Stop Unit
  | 0, _, s => (s, .ok ())
  | fuel + 1, done, s =>
    match s.nodeReadLine c (.ofNum (src + 81 * done)) with
    | (s, .error k) => (s, .error k)
    | (s, .ok w) => match s.nodeWrite c (.ofNum (dst + 81 * done)) ((List.range 27).zip w) with
      | (s, .error k) => (s, .error k)
      | (s, .ok ()) => State.copyLines c slot node src dst fuel (done + 1) (s.setNodeWork slot node (done + 1) false)

/-- COPY_NODE (R358): NLINES lines from SRC to DST, each written at its home as a system-scope release. -/
def execCopyNode (slot node : Nat) (s : State) : Host.Outcome State Fault Refusal :=
  s.asNode slot node 2 (fun l =>
    let c := s.nodeCtx slot (intAt l 8)
    let done := (s.nodeWork slot node).1
    match State.copyLines c slot node (wordAt l 5).num (wordAt l 6).num ((intAt l 7).toNat - done) done s with
    | (s, .ok ()) => s.nodeDone slot node (nodeSuccs l)
    | (s, .error k) => s.stopNode slot node c (.copyNode slot node) k)

/-- Reads words at physical addresses, one after another. -/
def State.walkerWords : List Nat → State → State × Option (List Word)
  | [], s => (s, some [])
  | a :: l, s => match s.walkerRead (a / 81) with
    | (s, none) => (s, none)
    | (s, some w) =>
      let r := State.walkerWords l s
      (r.1, r.2.map (fun ws => wordAt w (a % 81 / 3) :: ws))

/-- The rank list of a node's collective (R205, R358): physical words, or the pair of a send (log entry 27); nothing where it cannot be
read. -/
def State.nodeRanks (s : State) (f : Int) (w : List Word) : State × Option (List Int) :=
  let root := intAt w 7
  if f = -1 then (s, some [(s.rank : Int), root])
  else if f = -2 then (s, some [root, (s.rank : Int)])
  else if intAt w 5 < 0 ∨ intAt w 5 % 3 ≠ 0 then (s, none)
  else
    let r := State.walkerWords ((List.range (intAt w 6).toNat).map (fun i => (intAt w 5).toNat + 3 * i)) s
    (r.1, r.2.map (fun l => l.map Word.val))

/-- A node faults its graph and ends (R361). -/
def State.badNode (s : State) (slot node : Nat) : State := (s.faultGraph slot node).nodeOff slot node

/-- Opens a node's collective (R205, R206): a descriptor or a list that cannot be read and values that COLL refuses fault the graph, a
COUNT of zero completes, and a device without a port of its own has status 6 (R408). -/
def State.openNode (s : State) (slot node : Nat) (l : List Word) : State :=
  let f := intAt l 6
  match s.walkerRead ((intAt l 5).toNat / 81) with
  | (s, none) => s.badNode slot node
  | (s, some w) =>
    if collRefused f w s.rank then s.badNode slot node
    else match s.nodeRanks f w with
    | (s, none) => s.badNode slot node
    | (s, some ranks) =>
      if !isPair f && listRefused f w ranks s.rank then s.badNode slot node
      else if intAt w 3 = 0 then s.nodeDone slot node (nodeSuccs l)
      else if 1 < ranks.length && !s.hasPort (s.partOfSlot slot) then s.badNode slot node
      else (s.openExch (.node slot node) f w (ranks.map Int.toNat) false).advanceExch (.node slot node)

/-- COLLECTIVE_NODE (R358): the collective as COLL. -/
def execCollectiveNode (slot node : Nat) (s : State) : Host.Outcome State Fault Refusal :=
  s.asNode slot node 3 (fun l =>
    match s.exch? (.node slot node) with
    | some _ => s.advanceExch (.node slot node)
    | none => s.openNode slot node l)

/-- A node that reads its word once, at system scope, and signals the successors that its sign chooses (R358). -/
def State.signNode (s : State) (slot node : Nat) (k : Int) (pick : List Word → Int → List Int) : Host.Outcome State Fault Refusal :=
  s.asNode slot node k (fun l =>
    let c := s.nodeCtx slot (intAt l 7)
    match s.nodeRead c (wordAt l 5) with
    | (s, .ok w) => s.nodeDone slot node (pick l (Int.sign w.val))
    | (s, .error e) => s.stopNode slot node c (nodeStep slot node k) e)

/-- CONDITION_NODE (R358): signals SUCC0, SUCC1 or SUCC2 as the sign is −, 0 or +. -/
def execConditionNode (slot node : Nat) (s : State) : Host.Outcome State Fault Refusal :=
  s.signNode slot node 4 (fun l g => [intAt l (2 + g).toNat])

/-- WHILE_NODE (R358): signals SUCC0 if the sign is +, else SUCC1. -/
def execWhileNode (slot node : Nat) (s : State) : Host.Outcome State Fault Refusal :=
  s.signNode slot node (-1) (fun l g => [intAt l (if g = 1 then 1 else 2)])

/-- Holds a pending wait-word node's line shared, to be read again when it is written (R360). -/
def State.watchWord (s : State) (slot node line : Nat) : State :=
  s.modGraph slot (fun g => { g with watch := g.watch.filter (fun w => w.1 != node) ++ [(node, line)] })

/-- A node's watch ends: the walker gives its copy back where no other node watches the line. -/
def State.unwatch (s : State) (slot node : Nat) : State :=
  let mine := ((s.graph? slot).bind (fun g => assocGet g.watch node))
  let s := s.modGraph slot (fun g => { g with watch := g.watch.filter (fun x => x.1 != node) })
  match mine with
  | some line =>
    if s.graphs.any (fun g => g.watch.any (fun p => p.2 == line)) || (s.copy graphWalker line).isNone then s
    else s.leave graphWalker line none
  | none => s

/-- WAIT_WORD_NODE (R358, R360): the node completes once sgn(word − VALUE) meets COND; until then the walker holds the word's line
shared. -/
def execWaitWordNode (slot node : Nat) (s : State) : Host.Outcome State Fault Refusal :=
  s.asNode slot node (-2) (fun l =>
    let c := s.nodeCtx slot (intAt l 7)
    let va := wordAt l 5
    match s.nodeReadAt c va true with
    | (s, .error k) => s.stopNode slot node c (.waitWordNode slot node) k
    | (s, .ok (x, w)) =>
      let s := s.watchWord slot node x.slot
      if codeHolds (intAt l 8) (Int.sign (intAt w (wordOf va) - intAt l 6)) then (s.unwatch slot node).nodeDone slot node (nodeSuccs l)
      else s)

/-- SIGNAL_NODE (R358): a system-scope release write of VALUE, then the interrupt. -/
def execSignalNode (slot node : Nat) (s : State) : Host.Outcome State Fault Refusal :=
  s.asNode slot node (-3) (fun l =>
    let c := s.nodeCtx slot (intAt l 7)
    match s.nodeWrite c (wordAt l 5) [(wordOf (wordAt l 5), wordAt l 6)] with
    | (s, .error k) => s.stopNode slot node c (.signalNode slot node) k
    | (s, .ok ()) =>
      let s : State := if 0 ≤ intAt l 8 then { s with irqs := s.irqs ++ [(intAt l 8).toNat] } else s
      s.nodeDone slot node (nodeSuccs l))

/-- The nodes of a slot that run and are no end node. -/
def State.otherNodes (s : State) (slot : Nat) (g : Graph) : List Nat :=
  g.running.filter (fun i => intAt (s.nodeWords slot i) 0 != -4)

/-- END_NODE (R359): the run ends; once every running node has completed, counts and pending releases are cleared and node 0 is
released again. The step is tried as the end node is released and as each running node completes. -/
def execEndNode (slot node : Nat) (s : State) : Host.Outcome State Fault Refusal :=
  .next (match s.graph? slot with
  | none => s
  | some g =>
    let here := g.running.contains node && intAt (s.nodeWords slot node) 0 == -4
    if here && g.old.contains node then s.nodeOff slot node
    else if !g.ending && !here then s
    else if s.graphState slot ≠ 1 then
      s.modGraph slot (fun g => { g with running := if here then g.running.erase node else g.running, ending := false })
    else
      let others := s.otherNodes slot g
      let s := s.modGraph slot (fun g => { g with ending := true, running := others })
      if others.all g.old.contains then
        (s.modGraph slot (fun g => { g with counts := [], pending := [], ending := false })).releaseNode slot 0
      else s)

/-- A signal to a node (R359): it is released at its PREDS-th since its last release, and its count restarts. -/
def State.signalNode (s : State) (slot : Nat) (succ : Int) : State :=
  match s.graph? slot with
  | none => s
  | some g =>
    if succ < 0 ∨ s.graphState slot ≠ 1 ∨ g.ending then s
    else
      let i := succ.toNat
      let n := (assocGet g.counts i).getD 0 + 1
      match s.walkerRead (s.nodeAddr slot i / 81) with
      | (s, none) => s.faultGraph slot i
      | (s, some w) =>
        if intAt w 4 ≤ n then (s.modGraph slot (fun g => { g with counts := assocDel g.counts i })).releaseNode slot i
        else s.modGraph slot (fun g => { g with counts := natPut g.counts i n })

/-- NODE_COMPLETE (R359): the node no longer runs, and each of its successors is signalled; a node left from an earlier run signals
nothing. -/
def execNodeComplete (slot node : Nat) (succs : List Int) (s : State) : Host.Outcome State Fault Refusal :=
  .next (match s.graph? slot with
    | some g =>
      if !g.running.contains node then s
      else
        let s := s.nodeOff slot node
        if g.old.contains node then s else succs.foldl (fun s i => s.signalNode slot i) s
    | none => s)

end Sys2Proof.Machine
end

