-- ==== Sys2Proof/Machine/HomeEv.lean ====
section
/-! DEFINITION. The steps of homes and agents (R98–R105), of slices and shells (R53, R62, R63, R90, R106), and the host's accesses
(R58–R61). -/

namespace Sys2Proof.Machine

/-! ### Requests of agents (R99, R101, R104) -/

/-- The slot lies in a frame of a partition that is being reset: a host's access to it draws an error response, and is logged (R447). -/
def State.inReset (s : State) (slot : Nat) : Bool :=
  (s.partOfFrame (slot / 27)).any (fun p => field (s.partWord p 0) 1 0 == -1)

/-- An agent's request comes to the home; a host chiplet's to a frame of a partition that is being reset draws an error (R104, R447). -/
def State.askHome (s : State) (agent slot : Nat) (pin : Option (Nat × Nat)) (req : Req) : Host.Outcome State Fault Refusal :=
  .next (if (agent = 324 ∨ agent = 325) ∧ s.inReset slot = true then s.hostError agent (81 * slot) true else s.serve slot pin req)

/-- HOME_RDS (R99). -/
def execHomeRds (agent : Nat) (q : AgentReq) (s : State) : Host.Outcome State Fault Refusal :=
  s.askHome agent q.slot q.pin (.rds agent q.byte)
/-- HOME_RDX (R99). -/
def execHomeRdx (agent : Nat) (q : AgentReq) (s : State) : Host.Outcome State Fault Refusal :=
  s.askHome agent q.slot q.pin (.rdx agent (q.byte || q.op.isBytes) q.op)
/-- HOME_UPG (R99). -/
def execHomeUpg (agent : Nat) (q : AgentReq) (s : State) : Host.Outcome State Fault Refusal :=
  s.askHome agent q.slot none (.upg agent (q.byte || q.op.isBytes) q.op)

/-- A returned line (R92, R101): the home takes it back; where requests for the line stand before it, the WbD or EvC queues behind them
and the copy waits in the write-back buffer, from which a snoop may take it. A return of a copy that the agent no longer holds in that
state is discarded. -/
def State.giveBack (s : State) (a slot : Nat) (dirty : Bool) : State :=
  match s.copy a slot with
  | none => s
  | some c => if c.leased || dirty != (c.st == .M || c.st == .O) then s else s.giveUp c

/-- HOME_WBD (R99): dirty data is taken. -/
def execHomeWbd (agent slot : Nat) (s : State) : Host.Outcome State Fault Refusal :=
  .next (s.giveBack agent slot true)
/-- HOME_EVC (R99): a clean copy is no longer present. -/
def execHomeEvc (agent slot : Nat) (s : State) : Host.Outcome State Fault Refusal :=
  .next (s.giveBack agent slot false)
/-- HOME_HW (R99). -/
def execHomeHw (r : HwReq) (s : State) : Host.Outcome State Fault Refusal := .next (s.serve r.slot r.pin (.hw r))
/-- HOME_HR (R99). -/
def execHomeHr (r : HrReq) (s : State) : Host.Outcome State Fault Refusal := .next (s.serve r.slot r.pin (.hr r))

/-! ### Snoops (R100, R102, R103) -/

/-- SNOOP_INV (R100). -/
def execSnoopInv (agent slot : Nat) (s : State) : Host.Outcome State Fault Refusal := .next (s.snoop agent slot .inv)
/-- SNOOP_SHR (R100). -/
def execSnoopShr (agent slot : Nat) (s : State) : Host.Outcome State Fault Refusal := .next (s.snoop agent slot .shr)
/-- SNOOP_GET (R100). -/
def execSnoopGet (agent slot : Nat) (s : State) : Host.Outcome State Fault Refusal := .next (s.snoop agent slot .get)

/-- Changes the open transaction of a line and closes it where nothing is awaited any more. -/
def State.modTxn (s : State) (slot : Nat) (f : VLine → Txn → VLine × Txn) : State :=
  match s.vl slot with
  | some v => match v.txn with
    | some t =>
      let (v, t) := f v t
      (s.putVl { v with txn := some t }).settleTxn slot
    | none => s
  | none => s

/-- SNOOP_FILTER_BROADCAST (R103): a die without the line answers at once; otherwise its marked agents are snooped and awaited. -/
def execSnoopFilterBroadcast (die slot : Nat) (s : State) : Host.Outcome State Fault Refusal :=
  match s.vl slot with
  | none => .next s
  | some v => match v.txn with
    | none => .next s
    | some t =>
      if !t.awaitDies.contains die then .next s
      else
        let marked := ((assocGet (s.die die).filter slot).getD []).filter (fun a => some a != t.req.agent && !t.await.contains a)
        let s := s.later (marked.map (fun a => Instr.snoopInv a slot))
        .next (s.modTxn slot (fun v t => (v, { t with awaitDies := t.awaitDies.erase die, await := t.await ++ marked })))

/-- SNOOP_ANSWER (R102): supplied data is the line's data from now on; the last answer closes the transaction. -/
def execSnoopAnswer (agent slot : Nat) (data : Option Line) (s : State) : Host.Outcome State Fault Refusal :=
  .next (s.modTxn slot (fun v t =>
    if !t.await.contains agent then (v, t)
    else match data with
      | some l => ({ v with line := l, vdirty := true, flips := [] }, { t with await := t.await.erase agent, supplied := true })
      | none => (v, { t with await := t.await.erase agent })))

/-! ### Slices and shells -/

/-- VAULT_FILL (R90): the line becomes present, or the fill waits for an eligible victim; the requests that waited for it go on in the order
of their arrival (R92). -/
def execVaultFill (slot : Nat) (s : State) : Host.Outcome State Fault Refusal :=
  let mine := s.fillq.filter (fun p => p.1 == slot)
  let rest : State := { s with fillq := s.fillq.filter (fun p => p.1 != slot) }
  match s.physWhy slot with
  | some c => .next (mine.foldl (fun s p => s.refuse slot p.2.2 c) rest)
  | none => match s.ensure slot (mine.findSome? (·.2.1)) with
    | none => .next (s.later [.vaultFill slot])
    | some (s, v) =>
      let s : State := { s with fillq := s.fillq.filter (fun p => p.1 != slot) }
      .next ((s.putVl { v with queue := v.queue ++ mine.map (·.2.2) }).settleTxn slot)

/-- VAULT_WRITEBACK (R90, R106): a dirty line that may be evicted is written back as it leaves the slice. -/
def execVaultWriteback (slot : Nat) (s : State) : Host.Outcome State Fault Refusal :=
  match s.vl slot with
  | some v => .next (if s.evictable v && (v.vdirty || (s.dirtyCopy slot).isSome) then s.evict v else s)
  | none => .next s

/-- HBM_READ (R53): the image is checked, with the events and the score of what it shows; an address that may not be accessed raises its
class (R46, R48). -/
def execHbmRead (slot : Nat) (s : State) : Host.Outcome State Fault Refusal :=
  .next (if (s.physWhy slot).isSome then s.refuseUnit slot else (s.hbmFetch slot).1)

/-- HBM_WRITE (R50): the packed image with its check. -/
def execHbmWrite (slot : Nat) (line : Line) (elig : Bool) (s : State) : Host.Outcome State Fault Refusal :=
  .next (if (s.physWhy slot).isSome then s.refuseUnit slot else if line.w.length = 27 then s.hbmStore slot line elig else s)

/-- The transfer of a slot's line that a die link may be carrying (R63). -/
inductive Transfer where
  /-- a fill of a line that its slice lacks -/
  | fill
  /-- the write-back of a dirty line, from the slice or from a copy -/
  | out (v : VLine)
  /-- the refetch of a clean line whose stored blocks are lost (R96) -/
  | refetch (v : VLine)

/-- The transfer that a slot's line can be in (R90, R96). -/
def State.transfer (s : State) (slot : Nat) : Option Transfer :=
  match s.vl slot with
  | none => some .fill
  | some v =>
    if s.evictable v && (v.vdirty || (s.dirtyCopy slot).isSome) then some (.out v)
    else if !v.vdirty && health v.flips (s.isB slot && badGroup v.line) == .lost then some (.refetch v)
    else none

/-- DIE_LINK_FAILURE (R63): the transfer in flight is handled as uncorrectable (R62). A line that was being filled or fetched again comes
to its slice poisoned; of a dirty line on its way out the slot takes a poisoned image (DESIGN CHOICE, log entry 56), and the line leaves
its slice. -/
def execDieLinkFailure (slot : Nat) (s : State) : Host.Outcome State Fault Refusal :=
  if (s.physWhy slot).isSome then .next s
  else
    let failed := (s.raise (Event.phys 4 (648 + shellOf slot) (81 * slot))).uncorrectable slot
    match s.transfer slot with
    | none => .next s
    | some (.out v) =>
      let (s, _) := failed.invalidate slot
      .next ((s.writeBack { v with line := poisonLine }).dropVl slot)
    | some (.refetch v) => .next (failed.putVl { v with line := poisonLine, flips := [] })
    | some .fill => match failed.roomVault slot with
      | some s => .next (s.putVl { slot := slot, st := .I, owner := 0, sharers := [], remote := false, vdirty := false, elig := false,
                                   pin := none, leased := false, line := poisonLine, flips := [], dgen := 0, txn := none, queue := [] })
      | none => .next s

/-! ### The host's windows (R58–R61) -/

/-- The pieces of an access of bytes `off` … by lines of `n` bytes: slot, first byte in it, and the bytes' places in the access. -/
def pieces (n off len : Nat) : List (Nat × Nat × Nat × Nat) :=
  (List.range ((off % n + len + n - 1) / n)).map (fun k =>
    let slot := off / n + k
    let lo := if k = 0 then off % n else 0
    let start := if k = 0 then 0 else k * n - off % n
    (slot, lo, start, min (n - lo) (len - start)))

/-- HOST_BINARY_WRITE (R60): one system-scope release write for each line; a slot that is none of a B-frame draws an error. -/
def execHostBinaryWrite (who off : Nat) (bytes : List (BitVec 8)) (s : State) : Host.Outcome State Fault Refusal :=
  .next (if !s.ready then s.hostError who off false else (pieces 128 off bytes.length).foldl (fun s p =>
    let (slot, lo, start, k) := p
    if slotCount ≤ slot then s.hostError who (128 * slot + lo) false
    else if !s.isB slot || s.inReset slot then s.hostError who (128 * slot + lo) true
    else
      let l := (List.range k).map (fun i => (lo + i, bytes.getD (start + i) 0))
      s.later [.homeHw { slot := slot, op := .bytes l, src := .host who, elig := some false, fmt := some true }]) s)

/-- The bytes of control words as BAR 4 shows them (R378): each word's value in 64-bit two's complement, the low byte first (log
entry 25). A word of a team or of a core reads 0. -/
def State.barBytes (s : State) (off len : Nat) : List (BitVec 8) :=
  (List.range len).map (fun i => BitVec.ofInt 8 ((s.readCw (((off + i) / 8 : Nat) : Int)).val / 256 ^ ((off + i) % 8)))

/-- The words that a device that has not booted answers: BOOTSTAT, LCS and FWSVN (R449). -/
def bootWords (off len : Nat) : Bool := (List.range len).all (fun i => 19683 ≤ (off + i) / 8 && (off + i) / 8 ≤ 19685)

/-- HOST_BINARY_READ: of a B-slot through the binary window, BAR 0 (R58), or of control words at BAR 4 (R61, R378). -/
def execHostBinaryRead (who : Nat) (addr : BarAddr) (len : Nat) (s : State) : Host.Outcome State Fault Refusal :=
  .next (if addr.bar = 4 then
      (if s.ready || bootWords addr.off len then { s with answers := s.answers ++ [(who, .data (s.barBytes addr.off len))] }
       else s.hostError who addr.off false)
    else if !s.ready then s.hostError who addr.off false else (pieces 128 addr.off len).foldl (fun s p =>
    let (slot, lo, _, k) := p
    if slotCount ≤ slot then s.hostError who (128 * slot + lo) false
    else if !s.isB slot || s.inReset slot then s.hostError who (128 * slot + lo) true
    else s.later [.homeHr { slot := slot, src := .host who false lo k, fmt := some true }]) s)

/-- HOST_IMAGE_READ (R59): a T-slot's uncompressed image, or a B-slot's image. -/
def execHostImageRead (who off len : Nat) (s : State) : Host.Outcome State Fault Refusal :=
  .next (if !s.ready then s.hostError who off false else (pieces 160 off len).foldl (fun s p =>
    let (slot, lo, _, k) := p
    if slotCount ≤ slot then s.hostError who (160 * slot + lo) false
    else if 2 ≤ s.frame (slot / 27) || s.inReset slot then s.hostError who (160 * slot + lo) true
    else s.later [.homeHr { slot := slot, src := .host who true lo k, fmt := none }]) s)

/-- A staging entry of a requester. -/
def State.stage? (s : State) (who slot : Nat) : Option Stage := s.staging.find? (fun g => g.who == who && g.slot == slot)

/-- A whole staged image that R59 accepts. -/
def stagedOk (b : List Nat) : Bool :=
  ((b.take 147).drop 2).all (· ≤ 242) && b.getD 147 255 ≤ 80 && metaOf (b.getD 0 255) (b.getD 1 255) == some (0, 1, 0, 0, 0)
  && b.getD 1 255 == 121

/-- The line of a staged image. -/
def stagedLine (b : List Nat) : Line :=
  lineOfDigits ((((b.take 147).drop 2).map (tp5Digits 5)).flatten ++ tp5Digits 4 (b.getD 147 0))

/-- A complete image is checked and written, or discarded (R59). -/
def State.endStage (s : State) (g : Stage) : State :=
  let s := { s with staging := s.staging.filter (fun x => !(x.who == g.who && x.slot == g.slot)) }
  let b := (List.range 160).map (fun i => ((assocGet g.bytes i).getD 0).toNat)
  if !stagedOk b || !s.isT g.slot then s.hostError g.who (160 * g.slot) true
  else s.later [.homeHw { slot := g.slot, op := .words ((List.range 27).zip (stagedLine b).w), src := .host g.who, elig := some false }]

/-- HOST_IMAGE_WRITE (R59): bytes collect in the requester's staging entry for the slot; with 81 entries of the shell die in use a
further slot's write is held back. -/
def execHostImageWrite (who off : Nat) (bytes : List (BitVec 8)) (s : State) : Host.Outcome State Fault Refusal :=
  .next (if !s.ready then s.hostError who off false else (pieces 160 off bytes.length).foldl (fun s p =>
    let (slot, lo, start, k) := p
    let mine := (List.range k).map (fun i => (lo + i, bytes.getD (start + i) 0))
    if slotCount ≤ slot then s.hostError who (160 * slot + lo) false
    else if s.inReset slot then s.hostError who (160 * slot + lo) true
    else
      let full := 81 ≤ (s.staging.filter (fun g => shellOf g.slot == shellOf slot)).length
      match s.stage? who slot with
      | none =>
        if full then s.later [.hostImageWrite who (160 * slot + lo) (mine.map (·.2))]
        else
          let g : Stage := { who := who, slot := slot, start := s.cycle, bytes := mine }
          let s := { s with staging := s.staging ++ [g] }
          if mine.length = 160 then s.endStage g else s
      | some g =>
        let g := { g with bytes := mine.foldl (fun l b => natPut l b.1 b.2) g.bytes }
        let s := { s with staging := s.staging.map (fun x => if x.who = who ∧ x.slot = slot then g else x) }
        if g.bytes.length = 160 then s.endStage g else s) s)

/-- IMAGE_STAGING_TIMEOUT (R59): an image incomplete 1 ms (2,100,000 cycles) after its first byte is discarded. -/
def execImageStagingTimeout (who slot : Nat) (s : State) : Host.Outcome State Fault Refusal :=
  match s.stage? who slot with
  | some g =>
    if g.start + 2100000 ≤ s.cycle then
      .next (({ s with staging := s.staging.filter (fun x => !(x.who == who && x.slot == slot)) } : State).hostError who (160 * slot) true)
    else .next s
  | none => .next s

end Sys2Proof.Machine
end

