-- ==== Sys2Proof/Machine/HouseEv.lean ====
section
/-! DEFINITION. Denomination tables and their sweep (R108–R110), the clearing house's frame commands (R47, R397) and retirement
scores (R398). -/

namespace Sys2Proof.Machine

/-! ### Denominations (R108–R110) -/

/-- Changes a die's denomination machinery. -/
def State.modDenom (s : State) (die : Nat) (f : Denom → Denom) : State := s.modDie die (fun d => { d with denom := f d.denom })

/-- RESAMPLING_INTERVAL (R109): counting starts anew; `n` is the interval's exponent, which firmware sets from 20 to 26. -/
def execResamplingInterval (r : Resampling) (s : State) : Host.Outcome State Fault Refusal :=
  .next (s.modDenom r.die (fun d => { d with counts := [], sampling := true, start := s.cycle, n := if 20 ≤ r.n ∧ r.n ≤ 26 then r.n else d.n }))

/-- The ranks of counted values (R108): descending count, the smaller value first among equals, at most 273. -/
def rankTable (counts : List (Int × Nat)) : List Int :=
  ((sortBy (fun (a b : Int × Nat) => if a.2 ≠ b.2 then b.2 < a.2 else a.1 ≤ b.1) counts).map (·.1)).take 273

/-- SAMPLING_WINDOW_END (R109, R110): the ranks are fixed; a table that comes before the last sweep has finished is discarded with
an event. -/
def execSamplingWindowEnd (die : Nat) (s : State) : Host.Outcome State Fault Refusal :=
  let d := (s.die die).denom
  if !d.sampling then .next s
  else
    let s := s.modDenom die (fun d => { d with sampling := false, counts := [] })
    if d.ready.isSome then .next (s.raise (Event.plain 17 653))
    else .next ((s.modDenom die (fun x => { x with ready := some (rankTable d.counts) })).laterOnce (.denominationSweep die))

/-- The slot after the active one; the slot − before any is active (R110). -/
def Denom.target (d : Denom) : Nat := match d.active with | some a => (a + 1) % 3 | none => 0

/-- The T-slots homed on a die whose image is compressed under a denomination slot. -/
def State.compressedSlots (s : State) (die t : Nat) : List Nat :=
  (distinct (s.hbm.map (fun c => c.1 / 160))).filter (fun slot =>
    homeDie slot == die && s.isT slot
    && (match readImage false (s.tablesOf slot) (hbmSlot s.hbm slot) with
        | r => !r.bad && r.cmp && r.dgen == (t : Int) - 1))

/-- Re-encodes one line: at its home where it is present, else its image (R110); false where its home is busy. -/
def State.sweepSlot (p : State × Bool) (slot : Nat) : State × Bool :=
  let s := p.1
  if (s.vl slot).isSome then
    match s.homeWrite slot (applyHw .same) none with
    | some (s, _, _) => (s, p.2)
    | none => (s, false)
  else
    let (s, r) := s.hbmFetch slot
    (if r.bad then s else ((s.hbmStore slot r.line true).nextSerial slot).1, p.2)

/-- DENOMINATION_SWEEP (R110): every line of the target slot is re-encoded, the target is loaded and becomes active; a busy line is
tried again. -/
def execDenominationSweep (die : Nat) (s : State) : Host.Outcome State Fault Refusal :=
  let d := (s.die die).denom
  match d.ready with
  | none => .next s
  | some table =>
    let t := d.target
    let s := s.modDenom die (fun d => { d with sweeping := true })
    let (s, all) := (s.compressedSlots die t).foldl State.sweepSlot (s, true)
    if all then
      .next (s.modDenom die (fun d => { d with tables := setNth d.tables t (some table), active := some t, ready := none, sweeping := false }))
    else .next (s.later [.denominationSweep die])

/-! ### Frame commands (R47, R397) -/

/-- The frame that CHFRAME names, if there is one. -/
def State.chFrame (s : State) : Option Nat :=
  let f := s.cwInt 6650
  if 0 ≤ f ∧ f < (frameCount : Int) then some f.toNat else none

/-- A frame command finishes: CHOP reads 0, CHSTAT holds its result; no step of it is pending any more. -/
def State.chDone (s : State) (stat : Int) : State :=
  let mine := chStep (s.cwInt 6651)
  (({ s with agenda := s.agenda.filter (fun i => some i != mine) } : State).setCwInt 6651 0).setCwInt 6652 stat

/-- A write of a command to CHOP (R397): it is ignored while another command stands there; what stands there is performed, or tried
again. -/
def State.chWrite (s : State) (op : Int) (f : State → State) : Host.Outcome State Fault Refusal :=
  s.whenReady 6651 (fun s => if s.cwInt 6651 = 0 ∨ s.cwInt 6651 = op then f (s.setCwInt 6651 op) else s)

/-- The 27 slots of a frame. -/
def frameSlots (f : Nat) : List Nat := (List.range 27).map (fun i => 27 * f + i)

/-- The homes write back and invalidate every copy of a frame's lines (R47, step 1); nothing where one of them is busy. -/
def State.emptyFrame (s : State) (f : Nat) : Option State :=
  if (frameSlots f).any s.busy then none
  else some ((frameSlots f).foldl (fun s slot => match s.vl slot with | some v => s.evict v | none => s) s)

/-- A zeroing of a frame to a format (R47, R397), or nothing where a home is busy: it is refused for a retired frame, and every slot
is read back. -/
def State.zeroFrame (s : State) (code : Nat) : Option State :=
  match s.chFrame with
  | none => some (s.chDone (-2))
  | some f =>
    if 2 ≤ s.frame f then some (s.chDone (-2))
    else (s.emptyFrame f).map (fun s =>
      let s := s.setFrame f code
      let s := (frameSlots f).foldl (fun s slot => s.hbmStore slot (if code = 1 then zeroLineB else zeroLine) false) s
      let r := (frameSlots f).foldl (fun (p : State × Bool) slot =>
        let (s, r) := p.1.hbmFetch slot
        (s, p.2 && !r.bad)) (s, true)
      r.1.chDone (if r.2 then 1 else -1))

/-- RETIRE (R397), or nothing where a home is busy. -/
def State.retireFrame (s : State) : Option State :=
  match s.chFrame with
  | none => some (s.chDone (-2))
  | some f => (s.emptyFrame f).map (fun s => (s.setFrame f 2).chDone 1)

/-- SCRUB (R397): every slot is read, and a corrected image is rewritten. -/
def State.scrubFrame (s : State) : State :=
  match s.chFrame with
  | none => s.chDone (-2)
  | some f => ((frameSlots f).foldl (fun s slot =>
      let (s, r) := s.hbmFetch slot
      if r.fixed ≠ 0 ∧ !r.bad then s.hbmStore slot r.line r.cmp else s) s).chDone 1

/-- CH_ZERO_T (R397). -/
def execChZeroT (s : State) : Host.Outcome State Fault Refusal := s.chWrite 1 (fun s => (s.zeroFrame 0).getD (s.laterOnce .chZeroT))
/-- CH_ZERO_B (R397). -/
def execChZeroB (s : State) : Host.Outcome State Fault Refusal := s.chWrite 2 (fun s => (s.zeroFrame 1).getD (s.laterOnce .chZeroB))
/-- CH_RETIRE (R397). -/
def execChRetire (s : State) : Host.Outcome State Fault Refusal := s.chWrite 3 (fun s => s.retireFrame.getD (s.laterOnce .chRetire))
/-- CH_SCRUB (R397). -/
def execChScrub (s : State) : Host.Outcome State Fault Refusal := s.chWrite 4 State.scrubFrame
/-- CH_SCORE (R397). -/
def execChScore (s : State) : Host.Outcome State Fault Refusal :=
  s.chWrite (-1) (fun s => match s.chFrame with
    | none => s.chDone (-2)
    | some f => s.chDone ((assocGet s.scores f).getD 0 : Nat))
/-- CH_CLEAR (R397). -/
def execChClear (s : State) : Host.Outcome State Fault Refusal :=
  s.chWrite (-2) (fun s => match s.chFrame with
    | none => s.chDone (-2)
    | some f => ({ s with scores := assocDel s.scores f } : State).chDone 1)

/-- The slots that a patrol scrub finds to check: those of frames in use that hold anything but the zero T-line (R398). -/
def State.patrolSlots (s : State) : List Nat := (distinct (s.hbm.map (fun c => c.1 / 160))).filter (fun x => s.frame (x / 27) < 2)

/-- A patrol scrub reads every slot, and counts what is corrected and what is not (R398). -/
def State.patrolled (s : State) : State := s.patrolSlots.foldl (fun u x => (u.hbmFetch x).1) s

/-- PATROL_SCRUB_PASS (R398): every slot is read, and at the end of the pass every score is shifted right by one trit. -/
def execPatrolScrubPass (s : State) : Host.Outcome State Fault Refusal :=
  let s := s.patrolled
  .next { s with scores := (s.scores.map (fun p => (p.1, (dropTrits 1 (p.2 : Int)).toNat))).filter (fun p => p.2 != 0) }

end Sys2Proof.Machine
end

