-- ==== Sys2Proof/Machine/PlaceEv.lean ====
section
/-! DEFINITION. Placement (R363–R366), the end of teams and grids (R342, R343), pre-emption (R381, R382), the save image
(R383–R388) and restore (R389). -/

namespace Sys2Proof.Machine

/-! ### Reservations (R363) -/

/-- What a team of a grid node needs of a core: squads, teams, threads, register words, tiles, barriers, group slots. -/
def needs (node : List Word) : List Int :=
  let g := intAt node
  let v : Int := if trit (g 17) 1 = 1 then 2 else 1
  [g 9 * v, 1, 27 * g 9 * v, g 10 * g 9 * v, g 12 * v, g 13, g 14 * g 9]

/-- What a core has of them. -/
def coreHas : List Int := [81, 27, 2187, 6561, 9, 81, 243]

/-- The node of a team's grid. -/
def State.nodeOf (s : State) (t : Team) : List Word := match s.grid? t.grid with | some g => g.node | none => []

/-- A squad retires with its last thread (R342). -/
def Squad.retired (q : Squad) : Bool := q.threads.all (fun th => th.run == .exited)

/-- What a team of a node holds with some of its squads retired: their k banks and group registers are freed (R342). -/
def holds (node : List Word) (retired : Nat) : List Int :=
  let v : Int := if trit (intAt node 17) 1 = 1 then 2 else 1
  List.zipWith (· - ·) (needs node) [v * retired, 0, 0, 0, 0, 0, intAt node 14 * retired]

/-- What the teams of a core have reserved. -/
def State.coreUsed (s : State) (core : Nat) : List Int :=
  (s.teams.filter (fun t => t.core == core)).foldl (fun l t =>
    List.zipWith (· + ·) l (holds (s.nodeOf t) (t.body.squads.filter Squad.retired).length)) (List.replicate 7 0)

/-- The first row of a free contiguous block of rows on a core (R117, R363). -/
def State.freeRows (s : State) (core : Nat) (rows : Nat) : Option Nat :=
  let held := (s.teams.filter (fun t => t.core == core)).map (fun t => (t.base, t.base + (intAt (s.nodeOf t) 11).toNat + 1))
  (sortBy (fun a b => decide (a ≤ b)) (0 :: held.map (·.2))).find? (fun b =>
    b + rows ≤ 2187 && held.all (fun h => h.2 ≤ b || b + rows ≤ h.1))

/-- The first free team slot of a core. -/
def State.freeSlot (s : State) (core : Nat) : Nat :=
  ((List.range 27).find? (fun k => !s.teams.any (fun t => t.core == core && t.tslot == k))).getD 0

/-- A core can reserve all that a team of a node needs at once: then its first row (R363). -/
def State.fitsCore (s : State) (node : List Word) (core : Nat) : Option Nat :=
  let sum := List.zipWith (· + ·) (s.coreUsed core) (needs node)
  if (List.zipWith (fun (x y : Int) => decide (x ≤ y)) sum coreHas).all id then s.freeRows core ((intAt node 11).toNat + 1) else none

/-- The cores of a partition's clusters (R457). -/
def State.partCores (s : State) (p : Nat) : List Nat :=
  (List.range 324).filter (fun c => field (s.partWord p 0) 1 0 == 1 && trit (s.partWord p (1 + c / 81)) (c % 81 / 9) == 1)

/-- A core's instruction cache is invalidated before the first team of a grid runs there (R365). -/
def State.prepare (s : State) (g core : Nat) : State :=
  if (s.grid? g).any (fun x => x.prepared.contains core) then s
  else (s.modCore core (fun c => { c with icache := [] })).modGrid g (fun x => { x with prepared := x.prepared ++ [core] })

/-- Puts a team on a core: a new one, or a saved one with what it holds. -/
abbrev PutTeam : Type := State → Nat → Nat → Nat → State

/-- A new team of a grid (R341, R363): its registers, presets and zero cabinet. -/
def launchOn (g : Grid) (lin : Nat) : PutTeam := fun s core slot base =>
  let crew := (intAt g.node 19).toNat
  let t := Team.launch s.nteam g.num lin core slot base (lin % crew) (lin / crew) s.cycle g.node
  let s := (s.prepare g.num core).modGrid g.num (fun x => { x with next := lin + 1, live := x.live + 1, told := false })
  { s with teams := s.teams ++ [t], nteam := s.nteam + 1 }

/-- Places one team on the first core of a list that fits it. -/
def State.placeFirst (s : State) (node : List Word) (cores : List Nat) (put : PutTeam) : Option State :=
  (cores.findSome? (fun c => (s.fitsCore node c).map (fun b => (c, b)))).map (fun p => put s p.1 (s.freeSlot p.1) p.2)

/-- Places teams one after another on cores of a list; nothing unless all fit. -/
def State.placeAll (s : State) (node : List Word) (cores : List Nat) (l : List PutTeam) : Option State :=
  l.foldl (fun o p => o.bind (fun s => s.placeFirst node cores p)) (some s)

/-- Places a crew in one cluster, or a single team on one core, chosen freely among those that can hold it (R363; log entry 8). -/
def State.placeCrew (s : State) (node : List Word) (cores : List Nat) (l : List PutTeam) : Option State :=
  let groups := if (intAt node 19) ≤ 1 then cores.map (fun c => [c])
    else (distinct (cores.map (· / 9))).map (fun k => cores.filter (fun c => c / 9 == k))
  let ok := groups.filter (fun g => (s.placeAll node g l).isSome)
  if ok.isEmpty then none
  else
    let (s, k) := s.choose ok.length
    s.placeAll node (ok.getD k []) l

/-- The teams of a grid. -/
def Grid.total (g : Grid) : Nat := (intAt g.node 6 * intAt g.node 7 * intAt g.node 8).toNat

/-- A cooperative grid. -/
def Grid.coop (g : Grid) : Bool := trit (intAt g.node 17) 3 == 1

/-- The most teams that the whole device can hold: 27 on each of 324 cores. -/
def teamLimit : Nat := 8748

/-- The crews that a grid places next as one: one crew, or every crew of a cooperative grid (R363, R366). -/
def Grid.unit (g : Grid) : List (List Nat) :=
  let c := (intAt g.node 19).toNat
  let crew := fun (k : Nat) => (List.range c).filterMap (fun i => if k * c + i < g.total then some (k * c + i) else none)
  if g.coop then (List.range ((min g.total (teamLimit + 1) + c - 1) / c)).map crew else [crew (g.next / c)]

/-- Places a grid's next unit, if it fits. -/
def State.placeUnit (s : State) (g : Grid) : Option State :=
  g.unit.foldl (fun o crew => o.bind (fun s => s.placeCrew g.node (s.partCores g.part) (crew.map (launchOn g)))) (some s)

/-- A grid's next unit could never fit on any core of its partition (R363, R366). -/
def State.neverFits (s : State) (g : Grid) : Bool :=
  (g.coop && teamLimit < g.total) || (({ s with teams := [] } : State).placeUnit g).isNone

/-- A grid has teams to place. -/
def Grid.waiting (g : Grid) : Bool := !g.killed && g.next < g.total

/-- The priority of a grid. -/
def Grid.prio (g : Grid) : Int := intAt g.node 18

/-! ### Restore (R389) -/

/-- Takes the words of a list of lines in place of some values, as far as they go. -/
def takeWords (l : List (List Word)) (i : Nat) (old : List Word) : List Word :=
  match l[i]? with
  | some w => (w.zip old).map (·.1) ++ old.drop w.length
  | none => old

/-- The words of consecutive lines in place of a longer list. -/
def takeLines (l : List (List Word)) (i n : Nat) (old : List Word) : List Word :=
  let w := (((l.drop i).take n).flatten).take old.length
  w ++ old.drop w.length

/-- A lane's predicates, as its word of the state line holds them (R386). -/
def statePreds (w : Word) : List Trit := (List.range 8).map (fun i => Trit.ofInt (trit w.val i))

/-- A squad from its lines of an image, which begin with line `i` (R384). -/
def Squad.ofImage (l : List (List Word)) (i regs gslot : Nat) (q : Squad) : Squad :=
  if q.retired then q
  else
    let k := i + regs
    let g := k + 6
    let at_ := fun (j lane : Nat) (old : Word) => ((l[j]?).bind (fun w => w[lane]?)).getD old
    { q with
      kb := takeLines l k 3 q.kb, tb := takeLines l (k + 3) 3 q.tb,
      groups := q.groups.zipIdx.map (fun p => if p.2 < gslot then takeWords l (g + p.2) p.1 else p.1),
      threads := q.threads.zipIdx.map (fun p => { p.1 with
        regs := p.1.regs.zipIdx.map (fun r => if r.2 < regs then at_ (i + r.2) p.2 r.1 else r.1),
        pc := at_ (g + gslot) p.2 p.1.pc,
        preds := statePreds (at_ (g + gslot + 1) p.2 (.ofInt (ofTrits (p.1.preds.map Trit.val)))),
        fault := if p.1.run = .parked ∨ p.1.run = .trapped then at_ (g + gslot + 2) p.2 p.1.fault else p.1.fault }),
      hp := statePreds (at_ (g + gslot + 3) 0 (.ofInt (ofTrits (q.hp.map Trit.val)))) }

/-- The cabinet rows of an image, from its line `i` on (R384). -/
def cabOfImage (l : List (List Word)) (i words : Nat) : List (Int × Word) :=
  (((l.drop i).flatten).take words).zipIdx.foldl (fun c p => cabPut c ((p.2 : Int) - 256) p.1) []

/-- The lookahead results of a team that have yet to apply, in the order in which they will, with their squads and lanes (R387). -/
def TeamBody.pending (b : TeamBody) : List (Nat × Nat × Win) :=
  sortBy (fun x y => x.2.2.left ≤ y.2.2.left) (((b.squads.zipIdx).map (fun (q, i) => ((q.threads.zipIdx).map (fun (th, l) =>
    (th.wins.filter (·.arrived)).map (fun w => (i, l, w)))).flatten)).flatten)

/-- A pending result from its pair of words (R387). -/
def Win.ofImage (d v : Word) (w : Win) : Win :=
  { w with reg := (field d.val 4 0 + 121).toNat, left := (field d.val 6 5 + 4).toNat, val := v }

/-- A list with one element replaced where it first stands. -/
def swapFirst {α : Type} [DecidableEq α] (a b : α) : List α → List α
  | [] => []
  | x :: l => if x = a then b :: l else x :: swapFirst a b l

/-- The pending results of a team from the words of their section, in the order in which they were saved (R387). -/
def TeamBody.pendingOf (l : List Word) (b : TeamBody) (pending : List (Nat × Nat × Win)) : TeamBody :=
  pending.zipIdx.foldl (fun b p => match l[2 * p.2]?, l[2 * p.2 + 1]? with
    | some d, some v => { b with squads := b.squads.modify p.1.1 (fun q => { q with threads := q.threads.modify p.1.2.1 (fun th =>
        { th with wins := swapFirst p.1.2.2 (Win.ofImage d v p.1.2.2) th.wins }) }) }
    | _, _ => b) b

/-- A queued trap event from its line (R384, R371). -/
def TrapEv.ofImage (l : List Word) (e : TrapEv) : TrapEv :=
  if l.length < 11 then e
  else { e with cause := (intAt l 0).toNat, detail := intAt l 1, squad := (intAt l 3).toNat,
                lanes := (List.range 27).filter (fun i => trit (intAt l 2) i == 1),
                instr := e.instr.zipIdx.map (fun p => wordAt l (4 + p.2)),
                stamp := (intAt l 7 + 7625597484987 * intAt l 8).toNat, aux := wordAt l 9 }

/-- A completion record from its words (R384); its ticket names it. -/
def Rec.ofImage (l : List Word) (r : Rec) : Rec :=
  { r with status := (field (intAt l 1) 25 0).toNat, delivered := trit (intAt l 1) 26 == 1, addr := wordAt l 2, count := intAt l 3 }

/-- A team as its image in the pool gives it (R389): registers, PCs, predicates, fault addresses, cabinet rows and tiles; records, pending
results, queued events and the images of lease records; from the header the handler's PC, TVEC and the next SEQ. Its run states, its
commands, which go on while it is away, and its escrow, which lies in the spill area, come with the team (log entry 46). -/
def Team.ofImage (node : List Word) (l : List (List Word)) (t : Team) : Team :=
  let g := fun (i : Nat) => (intAt node i).toNat
  let size := g 10 + g 14 + 10
  let cab := 1 + g 9 * size
  let rows := 256 * (g 11 + 1)
  let tiles := cab + (rows + 26) / 27
  let b := t.body
  let tile := fun (p : Tile × Nat) => (Tile.ofImage (((l.drop (tiles + 84 * p.2)).take 84).flatten)).getD p.1
  let before := l.length - 2 * (((b.squads.map (·.threads)).flatten).map (fun x => x.leases.length)).sum
  let images := (((l.drop before).zipIdx).filter (fun p => p.2 % 2 = 0)).map (·.1)
  let lease := fun (p : List (List Word) × List Squad) (q : Squad) =>
    let r := q.threads.foldl (fun (r : List (List Word) × List Thread) th =>
      let own := (th.leases.zip (r.1 ++ List.replicate th.leases.length [])).map (fun k =>
        if k.2.length = 27 then { k.1 with image := { k.1.image with w := k.2 } } else k.1)
      (r.1.drop th.leases.length, r.2 ++ [{ th with leases := own }])) (p.1, [])
    (r.1, p.2 ++ [{ q with threads := r.2 }])
  let squads := b.squads.zipIdx.map (fun p => Squad.ofImage l (1 + p.2 * size) (g 10) (g 14) p.1)
  let body : TeamBody := { b with squads := (squads.foldl lease (images, [])).2, cab := cabOfImage l cab rows,
                                  tiles := b.tiles.zipIdx.map tile }
  let head := (l.head?).getD []
  let pend := tiles + 84 * g 12
  let evts := pend + (2 * b.pending.length + 26) / 27
  let recs := evts + t.events.length + 2 * (intAt head 12).toNat
  let recWords := ((l.drop recs).map (List.take 25)).flatten
  let body := body.pendingOf ((l.drop pend).flatten) b.pending
  { t with
    tvec := wordAt head 15, handler := t.handler.map (fun h => { h with pc := wordAt head 17 }),
    events := t.events.zipIdx.map (fun p => TrapEv.ofImage ((l[evts + p.2]?).getD []) p.1),
    body := { body with nseq := (intAt head 23).toNat,
                        recs := b.recs.zipIdx.map (fun p => Rec.ofImage ((recWords.drop (5 * p.2)).take 5) p.1) } }

/-- Reads the lines of an image; nothing where one is busy. -/
def State.getLines (s : State) (slot n : Nat) : Option (State × List (List Word)) :=
  (List.range n).foldl (fun o k => o.bind (fun p => (p.1.homeRead (slot + k)).map (fun q => (q.1, p.2 ++ [q.2.w])))) (some (s, []))

/-- A saved team on a core again (R389): parked threads and commands perform their access again, ages are those of now, shadows are built
from their leaders (R384), and commands that ended meanwhile complete (R208). -/
def restoreOn (v : Saved) : PutTeam := fun s core slot base =>
  let t := v.team
  let wake := fun (r : Run) => if r == Run.parked then Run.ready else r
  let thread := fun (th : Thread) => ({ th with age := s.cycle, run := wake th.run } : Thread)
  let flying := fun (c : Cmd) => (s.flits.filter (fun f => f.ty == 0 && f.owner == some (t.num, c.seq))).length
  let cmd := fun (c : Cmd) => ({ c with parked := false, outstanding := if 0 < c.outstanding then flying c else 0 } : Cmd)
  let squads := t.body.squads.map (fun q => ({ q with threads := q.threads.map thread } : Squad))
  let vigil := nodeVigil (s.nodeOf t)
  let body : TeamBody := TeamBody.shadowed { t.body with squads := squads, cmds := t.body.cmds.map cmd } vigil
  let handler := t.handler.map (fun (h : Handler) => ({ h with run := wake h.run } : Handler))
  let t : Team := { t with core := core, tslot := slot, base := base, body := body, handler := handler }
  let s := s.prepare t.grid core
  let s := { s with teams := s.teams ++ [t], saved := s.saved.filter (fun x => x.team.num != t.num) }
  let s := if t.events.isEmpty then s else s.laterOnce (.trapEntry t.num)
  let s := (body.cmds.filter (fun c => !c.live)).foldl (fun s c => s.laterOnce (.engineCommandComplete t.num c.seq)) s
  s.settleBarriers t.num

/-- The saved teams that are restored together with one: its crew, or its cooperative grid (R389, R366). -/
def State.restoredWith (s : State) (v : Saved) (g : Grid) : List Saved :=
  s.saved.filter (fun w => w.team.grid == g.num && (w.team.num == v.team.num || g.coop
    || (1 < intAt g.node 19 && w.team.crew == v.team.crew)))

/-- Restores a saved team with what goes with it, a crew whole in one cluster, if all fit. -/
def State.placeSaved (s : State) (v : Saved) (g : Grid) : Option State :=
  let l := s.restoredWith v g
  (distinct (l.map (fun w => w.team.crew))).foldl (fun (o : Option State) k => o.bind (fun s =>
    s.placeCrew g.node (s.partCores g.part) ((l.filter (fun w => w.team.crew == k)).map restoreOn))) (some s)

/-! ### What a grid places next (R363, R364, R389) -/

/-- The first saved team of a grid. -/
def State.savedOf (s : State) (g : Grid) : Option Saved := s.saved.find? (fun v => v.team.grid == g.num)

/-- Places what a grid has waiting, if it fits: its saved teams ahead of every unplaced one (R389). -/
def State.placeNext (s : State) (g : Grid) : Option State :=
  match s.savedOf g with
  | some v => s.placeSaved v g
  | none => if g.waiting then s.placeUnit g else none

/-- A grid has teams to place or to restore. -/
def State.hasWork (s : State) (g : Grid) : Bool := !g.killed && (g.waiting || (s.savedOf g).isSome)

/-- Some team of the partition has a lower priority than a grid that cannot be placed: it may be pre-empted (R381). -/
def State.callPreempt (s : State) (g : Grid) : State :=
  if s.teams.any (fun t => s.gridWord t.num 18 < g.prio && s.partOf t.num == g.part) then s.laterOnce (.preemption g.num) else s

/-- Another grid of the partition comes first and fits: of higher priority, or of equal priority and released first (R364). -/
def State.outranked (s : State) (g : Grid) : Bool :=
  s.grids.any (fun h => h.num != g.num && h.part == g.part && s.hasWork h
    && (g.prio < h.prio || (h.prio == g.prio && (h.rel < g.rel || (h.rel == g.rel && h.num < g.num)))) && (s.placeNext h).isSome)

/-- TEAM_PLACEMENT (R363–R366): the grid's next team, crew, or the whole cooperative grid is placed where it fits; one that can never
fit faults its graph, and one that waits behind lower priorities calls for pre-emption. Saved teams come first (R389). -/
def execTeamPlacement (grid : Nat) (s : State) : Host.Outcome State Fault Refusal :=
  match s.grid? grid with
  | none => .next s
  | some g =>
    if !g.waiting || s.saved.any (fun v => v.team.grid == grid) || s.outranked g then .next s
    else match s.placeUnit g with
      | some s => .next s
      | none =>
        if s.neverFits g then
          match g.src with
          | some (slot, node) =>
            let s := s.faultGraph slot node
            .next (({ s with grids := s.grids.filter (fun x => x.num != grid || 0 < x.live) } : State).nodeOff slot node)
          | none => .next s
        else .next (s.callPreempt g)

/-! ### The end of teams and grids (R342, R343, R307) -/

/-- Pieces of range commands wait in the drawers of a team's cabinet: they are performed before the cabinet goes (R120, R122). -/
def State.piecesOn (s : State) (n : Nat) : Bool :=
  s.teams.any (fun u => u.body.cmds.any (fun c => !c.pieces.isEmpty && c.ranges.any (fun r => r.cab == some n)))

/-- TEAM_END (R342): once its commands are complete and its escrow is published and acknowledged, or passed to the merge, the team's
reservation is freed. -/
def execTeamEnd (team : Nat) (s : State) : Host.Outcome State Fault Refusal :=
  match s.team? team with
  | none => .next s
  | some t =>
    if !t.ending || !(s.liveThreads team).isEmpty then .next s
    else
      let s := s.settleBarriers team
      if !t.body.cmds.isEmpty || s.piecesOn team || (s.threadsOf team).any (fun p => p.2.unackSyn != 0) || !t.pubs.isEmpty then .next s
      else if !s.det team && !t.body.escrow.isEmpty then .next (s.startPublication team .team .teamEnd)
      else
        let s := if s.det team && !(t.body.escrow.isEmpty && t.body.parts.isEmpty) then
            s.modGrid t.grid (fun g => { g with deferred := g.deferred ++ [{ lin := t.lin, escrow := t.body.escrow, parts := t.body.parts }] })
          else s
        let s := s.modGrid t.grid (fun g => { g with live := g.live - 1 })
        let s := { s with teams := s.teams.filter (fun x => x.num != team) }
        let s := match s.gridTeams t.grid with
          | n :: _ => s.settleBarriers n
          | [] => s
        .next (match s.grid? t.grid with
          | some g => if g.live = 0 ∧ !g.waiting then s.laterOnce (.gridCompletion t.grid) else s
          | none => s)

/-- GRID_COMPLETION (R343, R307, R359): under DET the merge comes first; then the walker writes the status to STATW at system scope as
a release, and the grid's node completes. -/
def execGridCompletion (grid : Nat) (s : State) : Host.Outcome State Fault Refusal :=
  match s.grid? grid with
  | none => .next s
  | some g =>
    let s := if g.killed then s.sweepLeases else s
    if g.live ≠ 0 ∨ g.waiting ∨ g.unack ≠ 0 then .next s
    else if !g.deferred.isEmpty then .next (if g.merging then s else s.laterOnce (.detMerge grid))
    else
      let statw := wordAt g.node 22
      let off := fun (s : State) => ({ s with grids := s.grids.filter (fun x => x.num != grid) } : State)
      let done := fun (s : State) => match g.src with
        | some (slot, node) => (off s).later [.nodeComplete slot node (nodeSuccs g.node)]
        | none => off s
      if statw = .zero then .next (done s)
      else
        let c : Ctx := { core := 324, asrec := (intAt g.node 21).toNat, part := g.part, sys := true }
        match s.nodeWrite c statw [(wordOf statw, .ofInt (if g.err then -1 else 1))] with
        | (s, .ok ()) => .next (done s)
        | (s, .error k) => match g.src with
          | none => .next (off s)
          | some (slot, node) =>
            let s := s.stopNode slot node c (.gridCompletion grid) k
            .next (match k with | .trap _ => off s | _ => s)

/-! ### Pre-emption (R381, R382) -/

/-- Lines of a team's save image (R384). -/
def State.imageSize (s : State) (t : Team) : Nat :=
  let g := fun (i : Nat) => (s.gridWord t.num i).toNat
  let ths := (t.body.squads.map (·.threads)).flatten
  let up := fun (a b : Nat) => (a + b - 1) / b
  1 + g 9 * (g 10 + g 14 + 10) + up (768 * (g 11 + 1)) 81 + 84 * g 12 + up (2 * t.body.pending.length) 27
    + t.events.length + 2 * t.body.cmds.length + up t.body.recs.length 5 + 2 * (ths.map (fun x => x.leases.length)).sum

/-- The teams that must be evicted together with a team: its crew, or its whole cooperative grid (R381). -/
def State.evictedWith (s : State) (t : Team) : List Nat :=
  if s.coop t.num then s.gridTeams t.grid
  else if 1 < s.gridWord t.num 19 then s.crewTeams t.num
  else [t.num]

/-- The candidates of a core for a priority, in order: lowest priority, highest linear index, grid released latest (R381). -/
def State.candidates (s : State) (part core : Nat) (p : Int) : List Team :=
  sortBy (fun a b =>
    let pa := s.gridWord a.num 18
    let pb := s.gridWord b.num 18
    if pa ≠ pb then pa < pb else if a.lin ≠ b.lin then b.lin < a.lin else b.grid ≤ a.grid)
    (s.teams.filter (fun t => t.core == core && s.partOf t.num == part && s.gridWord t.num 18 < p && !t.ending && !t.saving))

/-- Teams that end, or are on their way to the pool, hold nothing that the incoming work has to wait for twice: what they free counts
towards it before any victim is chosen (R382). -/
def State.freed (s : State) : State := { s with teams := s.teams.filter (fun t => !t.ending && !t.saving) }

/-- The fewest candidates in order whose eviction lets a grid's next work fit, with those evicted with them. -/
def State.victims (s : State) (g : Grid) (l : List Team) : Option (List Nat) :=
  (List.range l.length).findSome? (fun k =>
    let gone := distinct (((l.take (k + 1)).map s.evictedWith).flatten)
    let rest := s.freed
    if (({ rest with teams := rest.teams.filter (fun t => !gone.contains t.num) } : State).placeNext g).isSome then some gone else none)

/-- The teams to evict: on the core with the fewest evictions, the lowest number among equals; where no one core suffices, over the
partition's cores in order (log entry 8). -/
def State.victimsFor (s : State) (g : Grid) : Option (List Nat) :=
  let cores := s.partCores g.part
  let per := cores.filterMap (fun c => s.victims g (s.candidates g.part c g.prio))
  let best := per.foldl (fun (b : Option (List Nat)) v => match b with
    | some w => if v.length < w.length then some v else b
    | none => some v) none
  match best with
  | some v => some v
  | none => s.victims g ((cores.map (fun c => s.candidates g.part c g.prio)).flatten)

/-- The first of a number of consecutive lines that none of the images in a pool holds (R384). -/
def poolGap (size : Int) (held : List (Nat × Nat)) (lines : Nat) : Option Nat :=
  (sortBy (fun a b => decide (a ≤ b)) (0 :: held.map (fun h => h.1 + h.2))).find? (fun a =>
    ((a + lines : Nat) : Int) ≤ size && held.all (fun h => h.1 + h.2 ≤ a || a + lines ≤ h.1))

/-- The images in the save pool. -/
def State.poolHeld (s : State) : List (Nat × Nat) := s.saved.map (fun v => (v.line, v.lines))

/-- The first lines of the pool with room for an image. -/
def State.poolPlace (s : State) (lines : Nat) : Option Nat := poolGap (s.cwInt 811) s.poolHeld lines

/-- The save pool can hold the images of some teams beside those in it and on their way to it (R378, R381). -/
def State.poolTakes (s : State) (l : List Team) : Bool :=
  physLine (s.cwInt 810) && ((s.teams.filter (·.saving) ++ l).foldl (fun (o : Option (List (Nat × Nat))) t => o.bind (fun held =>
    (poolGap (s.cwInt 811) held (s.imageSize t)).map (fun a => held ++ [(a, s.imageSize t)]))) (some s.poolHeld)).isSome

/-- PREEMPTION (R381, R382): nothing is evicted where teams that end would free enough, or where the pool cannot hold the images; the
event of a full pool is raised once for each piece of waiting work. -/
def execPreemption (grid : Nat) (s : State) : Host.Outcome State Fault Refusal :=
  match s.grid? grid with
  | none => .next s
  | some g =>
    if !s.hasWork g || (s.freed.placeNext g).isSome then .next s
    else match s.victimsFor g with
      | none => .next s
      | some v =>
        if !s.poolTakes (s.teams.filter (fun t => v.contains t.num)) then
          if g.told then .next s
          else
            let c := ((v.head?).map (fun n => s.coreOf n / 81)).getD 0
            .next ((s.modGrid grid (fun x => { x with told := true })).raise { Event.plain 21 (704 + c) with grid := some grid })
        else .next (v.foldl (fun s n => s.modTeam n (fun t => { t with saving := true })) s)

/-! ### The save image (R384–R388) -/

/-- A line of at most 27 words. -/
def padLine (l : List Word) : List Word := l ++ List.replicate (27 - l.length) .zero

/-- Words cut into lines. -/
def inLines (l : List Word) : List (List Word) := (groupsOf 27 l.length l).map padLine

/-- A lane's word of the state line (R386). -/
def stateWord (th : Thread) : Word :=
  let preds := ofTrits (th.preds.map Trit.val)
  let run : Int := match th.run with
    | .parked => 1
    | .trapped => -1
    | .bar _ | .cbar | .gphase => 2
    | .exited => -2
    | _ => 0
  let bar : Int := match th.run with
    | .bar i => i
    | .cbar => -1
    | .gphase => -2
    | _ => 0
  .ofInt (preds + run * 59049 + bar * 531441)

/-- The lines of a squad (R384). -/
def squadImage (regs gslot : Nat) (q : Squad) : List (List Word) :=
  if q.threads.all (fun th => th.run == .exited) then
    List.replicate (regs + gslot + 9) (padLine []) ++ [padLine [.zero, .ofInt 1]]
  else
    (List.range regs).map (fun r => q.threads.map (fun th => wordAt th.regs r))
    ++ inLines (q.kb.take 81) ++ inLines (q.tb.take 81) ++ (List.range gslot).map (fun i => padLine (q.groups.getD i []))
    ++ [q.threads.map (·.pc), q.threads.map stateWord,
        q.threads.map (fun th => if th.run = .parked ∨ th.run = .trapped then th.fault else .zero),
        padLine [.ofInt (ofTrits (q.hp.map Trit.val))]]

/-- The pending results of a team as pairs of words (R387). -/
def pendingImage (b : TeamBody) : List Word :=
  (b.pending.map (fun (i, l, w) =>
    [Word.ofInt ((w.reg : Int) - 121 + ((w.left : Int) - 4) * 243 + ((l : Int) - 13) * 2187 + ((i : Int) - 13) * 177147), w.val])).flatten

/-- The line of a queued trap event (R384). -/
def eventImage (behind : Nat) (e : TrapEv) : List Word :=
  padLine [.ofInt e.cause, .ofInt e.detail, maskWord e.lanes, .ofInt e.squad, wordAt e.instr 0, wordAt e.instr 1, wordAt e.instr 2,
           lowWord e.stamp, highWord e.stamp, e.aux, .ofInt behind]

/-- The two lines of a command (R388). -/
def cmdImage (lin : Nat) (c : Cmd) : List (List Word) :=
  let w := (encode c.instr).getD []
  [padLine (if isRangeXf c.instr then [c.opa, c.opb, c.opc] else c.desc),
   padLine [ticketOf lin c.seq, wordAt w 0, wordAt w 1, .ofInt c.done, .ofInt (if c.parked then 1 else 0), c.fault, .ofInt c.thread]]

/-- The words of a record (R384). -/
def recImage (lin : Nat) (r : Rec) : List Word :=
  [ticketOf lin r.seq, .ofInt ((r.status : Int) + (if r.delivered then 2541865828329 else 0)), r.addr, .ofInt r.count, .zero]

/-- The lines of a team's leases (R384). -/
def leaseImage (b : TeamBody) : List (List Word) :=
  ((b.squads.zipIdx).map (fun (q, i) => ((q.threads.zipIdx).map (fun (th, l) => ((th.leases.zipIdx).map (fun (r, k) =>
    [r.image.w, padLine [lineVa r.vline 0, .ofInt (27 * (i : Int) + l), .ofInt k]])).flatten)).flatten)).flatten

/-- The header line (R385). -/
def State.headerImage (s : State) (t : Team) : List Word :=
  let g := fun (i : Nat) => Word.ofInt (s.gridWord t.num i)
  let ths := (t.body.squads.map (·.threads)).flatten
  let n := fun (k : Nat) => Word.ofInt (k : Int)
  let stamp := s.stampOf (s.partOf t.num)
  padLine [.ofInt 1, n (match s.grid? t.grid with | some x => x.nodeAddr | none => 0), lowWord t.lin, g 9, g 10, g 11, g 12, g 14, g 13,
    n (s.imageSize t), n t.body.pending.length, n t.events.length, n t.body.cmds.length, n t.body.recs.length,
    n (ths.map (fun x => x.leases.length)).sum, t.tvec,
    match t.handler with | some h => n h.squad | none => .ofInt (-1),
    match t.handler with | some h => h.pc | none => .zero,
    .ofInt (27 * (t.core : Int) + t.tslot), lowWord stamp, highWord stamp, n t.body.escrow.length, highWord t.lin, n t.body.nseq]

/-- A team's save image, line by line (R384). -/
def State.saveImage (s : State) (t : Team) : List (List Word) :=
  let b := t.body
  let g := fun (i : Nat) => (s.gridWord t.num i).toNat
  [s.headerImage t] ++ (b.squads.map (squadImage (g 10) (g 14))).flatten
  ++ inLines ((List.range (256 * (g 11 + 1))).map (fun (j : Nat) => cabGet b.cab ((j : Int) - 256)))
  ++ (b.tiles.map (fun x => inLines x.image)).flatten ++ inLines (pendingImage b)
  ++ t.events.zipIdx.map (fun p => eventImage (t.events.length - 1 - p.2) p.1)
  ++ (b.cmds.map (cmdImage t.lin)).flatten
  ++ (groupsOf 5 b.recs.length b.recs).map (fun r => padLine ((r.map (recImage t.lin)).flatten))
  ++ leaseImage b

/-- Writes lines to consecutive slots at their homes; nothing where one is busy. -/
def State.putLines (s : State) (slot : Nat) (l : List (List Word)) : Option State :=
  (l.zipIdx).foldl (fun o p => o.bind (fun s => s.homePut (81 * (slot + p.2)) ((List.range 27).zip p.1))) (some s)

/-! ### Save and restore (R383, R389) -/

/-- A publication that only a fault holds back: its threads are parked, and it does not hold a save up (R383, R386). -/
def Pub.parked (p : Pub) : Bool := p.lines.isEmpty && p.again.isEmpty && !p.held.isEmpty

/-- Publications of a thread that a fault holds back. -/
def Team.parkedPubs (t : Team) (r : TRef) : Nat := (t.pubs.filter (fun p => p.parked && p.waiter == .thread r)).length

/-- The entries of publications that a fault holds back are escrow entries again, older than what has been stored since; their parked
threads publish them when they perform their instruction again (R86, R389). -/
def State.recallPubs (s : State) (n : Nat) : State :=
  match s.team? n with
  | none => s
  | some t =>
    let back := t.pubs.filter Pub.parked
    let put := fun (l : List ELine) (e : ELine) => e.words.foldl (fun l w =>
      if (l.find? (fun x => x.vline == e.vline)).any (fun x => x.words.any (fun u => u.i == w.i)) then l else putEntry l e w) l
    let codes := back.filterMap (fun p => match p.waiter with | .bar i => some i | .cbar => some 81 | .gphase => some 82 | _ => none)
    let s := back.foldl (fun s p => match p.waiter with
      | .thread r => s.modThread r (fun th => { th with unackPub := th.unackPub - 1 })
      | _ => s) s
    s.modTeam n (fun t => { t with
      pubs := t.pubs.filter (fun p => !p.parked), closing := t.closing.filter (fun c => !codes.contains c),
      body := { t.body with escrow := back.foldl (fun l p => (p.held ++ p.failed.map (·.1)).foldl put l) t.body.escrow } })

/-- A team that is being saved still waits for matrix commands that have begun (R298), for results, acknowledgements or drawers, for a
shootdown of its own (R383, steps 1 and 2), or under VIGIL for its shadows. -/
def State.draining (s : State) (t : Team) : Bool :=
  t.body.squads.any (fun q => !q.sfuq.isEmpty)
  || (s.threadsOf t.num).any (fun p =>
    p.2.wins.any (fun w => !w.arrived && w.src != .query) || p.2.unackPub != t.parkedPubs p.1 || p.2.unackSyn != 0
    || (match p.2.run with | .shoot _ => true | _ => false))
  || t.handler.any (fun h => match h.run with | .shoot _ => true | _ => false)
  || t.pubs.any (fun p => !p.parked) || t.body.cmds.any (fun c => !c.pieces.isEmpty || !c.live || (c.begun && !c.parked && (mxTile c).isSome))
  || t.body.shadows.any (fun x => !x.trail.isEmpty) || s.piecesOn t.num
  || s.issue.any (fun b => b.threads.any (fun x => x.team == t.num))

/-- A thread whose WACK has nothing left to wait for, or which sleeps, is saved past its instruction (R383). -/
def Thread.savedPast (th : Thread) : Bool :=
  match th.run with
  | .sleep _ _ => true
  | .ready => match decode th.instr with
    | .ok (.wack _) => true
    | _ => false
  | _ => false

/-- A thread as it is saved: in WAIT, in an engine issue or in LEASE it performs its instruction again; WACK and SLEEP are past; leases are
invalid, and one that was not granted is gone (R383, R334). -/
def State.saveThread (s : State) (r : TRef) : State :=
  match s.thread? r with
  | none => s
  | some th =>
    let s := th.leases.foldl (fun s l => s.dropLease r l) s
    let s := s.modThread r (fun th => { th with leases := (th.leases.filter (·.granted)).map (fun l => { l with valid := false }) })
    if th.savedPast then s.release r
    else match th.run with
    | .wait _ | .lock | .lease => s.setRun r .ready
    | _ => s.modThread r (fun th => { th with back := none })

/-- TEAM_SAVE (R383): when nothing is in flight any more the image is written and the reservation is freed. A team whose last thread
has exited is not saved (R382). -/
def execTeamSave (team : Nat) (s : State) : Host.Outcome State Fault Refusal :=
  match s.team? team with
  | none => .next s
  | some t =>
    if !t.saving then .next s
    else if t.ending then .next (s.modTeam team (fun t => { t with saving := false }))
    else if s.draining t then .next s
    else
      let s := ((s.threadsOf team).foldl (fun s p => s.saveThread p.1) (s.recallPubs team)).sweepLeases
      let s := s.modHandler team (fun h => match h.run with | .wait _ => { h with run := .ready } | _ => h)
      match s.team? team with
      | none => .next s
      | some t =>
        let lines := s.imageSize t
        let base := s.cwInt 810
        match (if physLine base then s.poolPlace lines else none) with
        | none => .next s
        | some a => match s.putLines (base.toNat / 81 + a) (s.saveImage t) with
          | none => .next s
          | some s =>
            let s := s.entriesFree (s.entryCores team)
            let body := { t.body with escrow := t.body.escrow.map (fun e => { e with spilled := true }), shadows := [], shtiles := [] }
            .next { s with teams := s.teams.filter (fun x => x.num != team),
                           saved := s.saved ++ [{ line := a, lines := lines, team := { t with saving := false, body := body } }] }

/-- Saved teams take what their images in the pool hold (R389); nothing where a line is busy. -/
def State.getImages (s : State) (l : List Saved) : Option State :=
  l.foldl (fun o v => o.bind (fun s =>
    (s.getLines ((s.cwInt 810).toNat / 81 + v.line) v.lines).map (fun p =>
      { p.1 with saved := p.1.saved.map (fun w =>
        if w.team.num = v.team.num then { w with team := w.team.ofImage (s.nodeOf w.team) p.2 } else w) }))) (some s)

/-- TEAM_RESTORE (R389): ahead of every unplaced team of its grid, on any core that meets its reservation; a crew whole in one
cluster, a cooperative grid whole. -/
def execTeamRestore (saved : Nat) (s : State) : Host.Outcome State Fault Refusal :=
  match s.saved[saved]? with
  | none => .next s
  | some v => match s.grid? v.team.grid with
    | none => .next s
    | some g =>
      let l := s.restoredWith v g
      let waits := s.teams.any (fun t => t.grid == g.num && t.saving && (g.coop || t.crew == v.team.crew))
      if waits || s.outranked g then .next s
      else match s.getImages l with
        | none => .next s
        | some u => .next ((u.placeSaved { v with team := ((u.saved.find? (fun w => w.team.num == v.team.num)).map (·.team)).getD v.team } g).getD
            (u.callPreempt g))

end Sys2Proof.Machine
end

