-- ==== Sys2Proof/Machine/Slh.lean ====
section
/-! DEFINITION. SLH-DSA of FIPS 205 with the SHA2 parameter sets that R451 and R454 name: keys, signatures and their verification in the
pure form with an empty context string. The spec names the standard and does not repeat it: PRESUMED, log entry 32. -/

namespace Sys2Proof.Machine

/-- A parameter set: bytes of a node, layers, the height of a layer's trees, the height and the number of the trees of FORS, bytes of the
message digest, and whether the wider hash is used. -/
structure SlhPar where
  n : Nat
  d : Nat
  hp : Nat
  a : Nat
  k : Nat
  m : Nat
  wide : Bool
deriving DecidableEq, Repr

/-- SLH-DSA-SHA2-128s (R450, R451): a public key of 32 bytes, a signature of 7,856. -/
def SlhPar.sha128s : SlhPar := { n := 16, d := 7, hp := 9, a := 12, k := 14, m := 30, wide := false }
/-- SLH-DSA-SHA2-192s (R454, R456): a public key of 48 bytes, a signature of 16,224. -/
def SlhPar.sha192s : SlhPar := { n := 24, d := 7, hp := 9, a := 14, k := 17, m := 39, wide := true }

/-- The address of a hash: layer, tree, type and three words. -/
structure SlhAdr where
  layer : Nat
  tree : Nat
  ty : Nat
  key : Nat
  x : Nat
  y : Nat
deriving DecidableEq, Repr

namespace SlhAdr

/-- The compressed form, of 22 bytes. -/
def bytes (a : SlhAdr) : List Nat :=
  bigEndian 1 a.layer ++ bigEndian 8 a.tree ++ bigEndian 1 a.ty ++ bigEndian 4 a.key ++ bigEndian 4 a.x ++ bigEndian 4 a.y

/-- The same tree's address of another type: 0 a chain, 1 a one-time public key, 2 a tree, 3 a FORS tree, 4 the FORS roots, 5 and 6 the
secrets of a chain and of FORS. -/
def of (a : SlhAdr) (ty key x y : Nat) : SlhAdr := { a with ty := ty, key := key, x := x, y := y }

end SlhAdr

namespace SlhPar

/-- F, PRF, and H and T of the narrow sets. -/
def f (p : SlhPar) (pk : List Nat) (a : SlhAdr) (m : List Nat) : List Nat :=
  (sha256N (pk ++ List.replicate (64 - p.n) 0 ++ a.bytes ++ m)).take p.n

/-- H and T. -/
def t (p : SlhPar) (pk : List Nat) (a : SlhAdr) (m : List Nat) : List Nat :=
  if p.wide then (sha512N (pk ++ List.replicate (128 - p.n) 0 ++ a.bytes ++ m)).take p.n else p.f pk a m

/-- The hash over messages. -/
def h (p : SlhPar) (m : List Nat) : List Nat := if p.wide then sha512N m else sha256N m

/-- The message digest: MGF1 of a hash of the message. -/
def hMsg (p : SlhPar) (r pk root m : List Nat) : List Nat :=
  let seed := r ++ pk ++ p.h (r ++ pk ++ root ++ m)
  (((List.range 2).map (fun i => p.h (seed ++ bigEndian 4 i))).flatten).take p.m

/-- HMAC over the hash over messages, with a key that is shorter than a block. -/
def hmac (p : SlhPar) (key m : List Nat) : List Nat :=
  let block := if p.wide then 128 else 64
  let padded := fun (x : Nat) => (key ++ List.replicate (block - key.length) 0).map (· ^^^ x)
  p.h (padded 0x5C ++ p.h (padded 0x36 ++ m))

/-- The first `c` groups of `b` bits of a string of bytes. -/
def digits (b c : Nat) (m : List Nat) : List Nat :=
  (List.range c).map (fun i => ofBigEndian m / 2 ^ (8 * m.length - b * (i + 1)) % 2 ^ b)

/-! ### One-time signatures -/

/-- Digits of a one-time signature, the checksum's among them. -/
def wotsDigits (p : SlhPar) (m : List Nat) : List Nat :=
  let l := digits 4 (2 * p.n) m
  l ++ digits 4 3 (bigEndian 2 (16 * (l.map (15 - ·)).sum))

/-- A chain from step `i` on. -/
def chain (p : SlhPar) (pk : List Nat) (a : SlhAdr) : Nat → Nat → List Nat → List Nat
  | 0, _, x => x
  | s + 1, i, x => p.chain pk a s (i + 1) (p.f pk { a with y := i } x)

/-- The one-time public key of the ends of its chains. -/
def wotsPk (p : SlhPar) (pk : List Nat) (a : SlhAdr) (key : Nat) (ends : List (List Nat)) : List Nat :=
  p.t pk (a.of 1 key 0 0) ends.flatten

/-- The chains of a one-time key, each driven to a digit. -/
def wotsSign (p : SlhPar) (sk pk : List Nat) (a : SlhAdr) (key : Nat) (ds : List Nat) : List (List Nat) :=
  ds.zipIdx.map (fun q => p.chain pk (a.of 0 key q.2 0) q.1 0 (p.f pk (a.of 5 key q.2 0) sk))

/-- The public key that a one-time signature leads to. -/
def wotsFrom (p : SlhPar) (pk : List Nat) (a : SlhAdr) (key : Nat) (sig : List (List Nat)) (m : List Nat) : List Nat :=
  p.wotsPk pk a key ((p.wotsDigits m).zipIdx.map (fun q => p.chain pk (a.of 0 key q.2 0) (15 - q.1) q.1 (sig.getD q.2 [])))

/-! ### Trees -/

/-- A node of a tree of leaves, at a height and an index. -/
def node (leaf : Nat → List Nat) (join : Nat → Nat → List Nat → List Nat) : Nat → Nat → List Nat
  | 0, i => leaf i
  | z + 1, i => join (z + 1) i (node leaf join z (2 * i) ++ node leaf join z (2 * i + 1))

/-- The path of a leaf: the sibling at each height. -/
def path (leaf : Nat → List Nat) (join : Nat → Nat → List Nat → List Nat) (height i : Nat) : List (List Nat) :=
  (List.range height).map (fun j => node leaf join j ((i / 2 ^ j) ^^^ 1))

/-- The root that a leaf and its path lead to. -/
def climb (join : Nat → Nat → List Nat → List Nat) (i : Nat) (leaf : List Nat) (l : List (List Nat)) : List Nat :=
  l.zipIdx.foldl (fun x q =>
    join (q.2 + 1) (i / 2 ^ (q.2 + 1)) (if i / 2 ^ q.2 % 2 = 0 then x ++ q.1 else q.1 ++ x)) leaf

/-- The joining of two nodes of a layer's tree. -/
def join (p : SlhPar) (pk : List Nat) (a : SlhAdr) (z i : Nat) (m : List Nat) : List Nat := p.t pk (a.of 2 0 z i) m

/-- A leaf of a layer's tree. -/
def leaf (p : SlhPar) (sk pk : List Nat) (a : SlhAdr) (i : Nat) : List Nat :=
  p.wotsPk pk a i (p.wotsSign sk pk a i (List.replicate (2 * p.n + 3) 15))

/-- The address of the tree that layer `j` uses for the leaf `i` of the whole. -/
def tree (p : SlhPar) (i j : Nat) : SlhAdr := { layer := j, tree := i / 2 ^ (p.hp * (j + 1)), ty := 0, key := 0, x := 0, y := 0 }

/-- The leaf of that tree. -/
def leafOf (p : SlhPar) (i j : Nat) : Nat := i / 2 ^ (p.hp * j) % 2 ^ p.hp

/-- The layers' signatures of a root: one-time signature and path, from the lowest layer on. -/
def layers (p : SlhPar) (sk pk : List Nat) (i : Nat) (m : List Nat) : List Nat :=
  ((List.range p.d).foldl (fun (q : List Nat × List Nat) j =>
    let a := p.tree i j
    let k := p.leafOf i j
    let one := p.wotsSign sk pk a k (p.wotsDigits q.2)
    let up := path (p.leaf sk pk a) (p.join pk a) p.hp k
    (q.1 ++ one.flatten ++ up.flatten, climb (p.join pk a) k (p.wotsFrom pk a k one q.2) up)) ([], m)).1

/-- Cuts bytes into nodes. -/
def nodes (p : SlhPar) (count : Nat) (l : List Nat) : List (List Nat) := (List.range count).map (fun i => (l.drop (p.n * i)).take p.n)

/-- The root that the layers' signatures lead to. -/
def layersFrom (p : SlhPar) (pk : List Nat) (i : Nat) (m sig : List Nat) : List Nat :=
  let one := 2 * p.n + 3
  (List.range p.d).foldl (fun m j =>
    let a := p.tree i j
    let k := p.leafOf i j
    let l := p.nodes (one + p.hp) (sig.drop (p.n * (one + p.hp) * j))
    climb (p.join pk a) k (p.wotsFrom pk a k (l.take one) m) (l.drop one)) m

/-! ### FORS -/

/-- The leaves of FORS that a digest selects, numbered through its trees. -/
def picks (p : SlhPar) (md : List Nat) : List Nat := (digits p.a p.k md).zipIdx.map (fun q => q.2 * 2 ^ p.a + q.1)

/-- A secret of FORS. -/
def forsSk (p : SlhPar) (sk pk : List Nat) (a : SlhAdr) (key i : Nat) : List Nat := p.f pk (a.of 6 key 0 i) sk

/-- The joining of two nodes of a FORS tree. -/
def forsJoin (p : SlhPar) (pk : List Nat) (a : SlhAdr) (key z i : Nat) (m : List Nat) : List Nat := p.t pk (a.of 3 key z i) m

/-- A leaf of a FORS tree, of its secret. -/
def forsLeaf (p : SlhPar) (pk : List Nat) (a : SlhAdr) (key i : Nat) (x : List Nat) : List Nat := p.f pk (a.of 3 key 0 i) x

/-- The FORS signature of a digest. -/
def forsSign (p : SlhPar) (sk pk : List Nat) (a : SlhAdr) (key : Nat) (md : List Nat) : List Nat :=
  ((p.picks md).map (fun i =>
    p.forsSk sk pk a key i
    ++ (path (fun j => p.forsLeaf pk a key j (p.forsSk sk pk a key j)) (p.forsJoin pk a key) p.a i).flatten)).flatten

/-- The FORS public key that a signature leads to. -/
def forsFrom (p : SlhPar) (pk : List Nat) (a : SlhAdr) (key : Nat) (md sig : List Nat) : List Nat :=
  p.t pk (a.of 4 key 0 0) (((p.picks md).zipIdx.map (fun q =>
    let l := p.nodes (p.a + 1) (sig.drop (p.n * (p.a + 1) * q.2))
    climb (p.forsJoin pk a key) q.1 (p.forsLeaf pk a key q.1 (l.headD [])) l.tail)).flatten)

/-! ### Keys, signatures, verification -/

/-- The part of a message digest that FORS signs, and the leaf of the whole that signs it. -/
def split (p : SlhPar) (digest : List Nat) : List Nat × Nat :=
  let md := (p.k * p.a + 7) / 8
  let high := (p.hp * (p.d - 1) + 7) / 8
  let t := ofBigEndian ((digest.drop md).take high) % 2 ^ (p.hp * (p.d - 1))
  let l := ofBigEndian (((digest.drop md).drop high).take ((p.hp + 7) / 8)) % 2 ^ p.hp
  (digest.take md, t * 2 ^ p.hp + l)

/-- PK.root of SK.seed and PK.seed. -/
def root (p : SlhPar) (sk pk : List Nat) : List Nat :=
  let a := p.tree 0 (p.d - 1)
  node (p.leaf sk pk a) (p.join pk a) p.hp 0

/-- The pure form of a message with an empty context string. -/
def pure (m : List Nat) : List Nat := [0, 0] ++ m

/-- The signature of a message under SK.seed, SK.prf and PK.seed; `opt` is the randomizer's input. -/
def sign (p : SlhPar) (sk prf pk opt m : List Nat) : List Nat :=
  let r := (p.hmac prf (opt ++ pure m)).take p.n
  let s := p.split (p.hMsg r pk (p.root sk pk) (pure m))
  let a := p.tree s.2 0
  let fors := p.forsSign sk pk a (p.leafOf s.2 0) s.1
  r ++ fors ++ p.layers sk pk s.2 (p.forsFrom pk a (p.leafOf s.2 0) s.1 fors)

/-- Bytes of a signature. -/
def sigLen (p : SlhPar) : Nat := p.n * (1 + p.k * (1 + p.a) + p.d * (p.hp + 2 * p.n + 3))

/-- The signature is one of the message under a public key, PK.seed and PK.root. -/
def verify (p : SlhPar) (pub m sig : List Nat) : Bool :=
  let pk := pub.take p.n
  let r := sig.take p.n
  let s := p.split (p.hMsg r pk (pub.drop p.n) (pure m))
  let a := p.tree s.2 0
  let fors := (sig.drop p.n).take (p.n * p.k * (1 + p.a))
  let rest := sig.drop (p.n + p.n * p.k * (1 + p.a))
  sig.length == p.sigLen && pub.length == 2 * p.n
    && p.layersFrom pk s.2 (p.forsFrom pk a (p.leafOf s.2 0) s.1 fors) rest == pub.drop p.n

end SlhPar

/-- SLH-DSA-SHA2-128s.verify (R451). -/
def slhVerify128 (pub m sig : List (BitVec 8)) : Bool :=
  SlhPar.sha128s.verify (pub.map BitVec.toNat) (m.map BitVec.toNat) (sig.map BitVec.toNat)

/-- SK.seed, SK.prf and PK.seed of 72 seed bytes (R454). -/
def slhSeed (i : Nat) (seeds : List (BitVec 8)) : List Nat := ((seeds.drop (24 * i)).take 24).map BitVec.toNat

/-- The SLH-DSA-SHA2-192s public key of 72 seed bytes (R454): PK.seed as drawn, and PK.root. -/
def slhPublic192 (seeds : List (BitVec 8)) : List (BitVec 8) :=
  (slhSeed 2 seeds ++ SlhPar.sha192s.root (slhSeed 0 seeds) (slhSeed 2 seeds)).map (BitVec.ofNat 8)

/-- The SLH-DSA-SHA2-192s signature of a message under the identity seeds (R455, R456); `opt` is the randomizer's input. -/
def slhSign192 (seeds opt m : List (BitVec 8)) : List (BitVec 8) :=
  (SlhPar.sha192s.sign (slhSeed 0 seeds) (slhSeed 1 seeds) (slhSeed 2 seeds) (opt.map BitVec.toNat) (m.map BitVec.toNat)).map (BitVec.ofNat 8)

end Sys2Proof.Machine
end

