-- ==== Sys2Proof/Machine/PowerEv.lean ====
section
/-! DEFINITION. Power (R459–R461), partitions and resets (R446–R449, R457, R458), the boot (R448–R453), the life cycle and the end of a
report (R454–R456). -/

namespace Sys2Proof.Machine

/-! ### The governor and the droop detectors (R460) -/

/-- Stores readings in consecutive words. -/
def State.setReadings (s : State) (sel : Nat) (l : List Int) : State :=
  (l.take 4).zipIdx.foldl (fun s p => s.setCwInt (sel + p.2) p.1) s

/-- The withheld ninths after a tick (R460). -/
def governed (w i ilim tlim : Int) (temp : List Int) : Int :=
  if ilim - 90 < i || temp.any (fun t => tlim < t) then min (w + 1) 8
  else if i < ilim - 450 && temp.all (fun t => t ≤ tlim - 2) then max (w - 1) 0
  else w

/-- GOVERNOR_TICK (R460): the readings of the four dies come from outside (log entry 14). -/
def execGovernorTick (irail temp : List Int) (s : State) : Host.Outcome State Fault Refusal :=
  let s := (s.setReadings 20003 irail).setReadings 20007 temp
  .next (s.setCwInt 20012 (governed (s.cwInt 20012) (irail.take 4).sum (s.cwInt 20011) (s.cwInt 20014) (temp.take 4)))

/-- ILIM_UPDATE (R460): ILIM is the least of 9,000 and (PCAP − U) / 0.42, rounded down. PWR and ENERGY are readings (log entry 14). -/
def execIlimUpdate (others : Int) (s : State) : Host.Outcome State Fault Refusal :=
  let s := s.setCwInt 20011 (min 9000 ((s.cwInt 20000 - others) * 100 / 42))
  let p := Config.reading s.tick
  let e := Config.reading (s.tick + 1)
  let s := { s with tick := s.tick + 2 }
  .next ((s.setCwInt 20001 (wrap 27 p)).setCwInt 20002 (wrap 27 (s.cwInt 20002 + e)))

/-- DROOP_DETECT (R460). -/
def execDroopDetect (core : Nat) (s : State) : Host.Outcome State Fault Refusal :=
  .next (if core < 324 then s.modCore core (fun c => { c with droop := true }) else s)
/-- LOCAL_SUPPLY_RECOVERY (R460). -/
def execLocalSupplyRecovery (core : Nat) (s : State) : Host.Outcome State Fault Refusal :=
  .next (if core < 324 then s.modCore core (fun c => { c with droop := false }) else s)

/-- THERMTRIP (R461): issue stops on every core. -/
def execThermtrip (_die : Nat) (s : State) : Host.Outcome State Fault Refusal := .next { s with thermtrip := true }

/-! ### Partitions (R447, R457, R458) -/

/-- A partition of the table. -/
abbrev PartTable := List Int

/-- Word f of a partition. -/
def PartTable.at (t : PartTable) (f : Nat) : Int := t.getD f 0

/-- A partition as the table holds it. -/
def State.partTable (s : State) (p : Nat) : PartTable := (List.range 12).map (s.partWord p)

/-- A running partition. -/
def PartTable.running (t : PartTable) : Bool := field (t.at 0) 1 0 == 1

/-- The words keep the fields of R457: reserved trits zero, a legal PSTATE, whole shares of the stacks. -/
def PartTable.ok (t : PartTable) : Bool :=
  let plus := fun (f n : Nat) => field (t.at f) 26 n == 0 && (List.range n).all (fun i => 0 ≤ trit (t.at f) i)
  t.length == 12 && [0, 1, -1].contains (t.at 0) && [1, 2, 3, 4].all (fun f => plus f 9) && plus 7 24 && plus 8 24 && plus 9 2
  && (List.range 27).all (fun i => 0 ≤ trit (t.at 10) i) && t.at 11 == 0
  && (t.at 0 == 0 || (0 ≤ t.at 5 && t.at 5 % 12 == 0 && 12 ≤ t.at 6 && t.at 6 % 12 == 0 && t.at 5 + t.at 6 ≤ (frameCount : Int)))

/-- Two partitions share a cluster, a frame, a port, a host chiplet or a graph slot (R458). -/
def PartTable.share (a b : PartTable) : Bool :=
  let both := fun (f : Nat) => (List.range 27).any (fun i => trit (a.at f) i == 1 && trit (b.at f) i == 1)
  [1, 2, 3, 4, 7, 8, 9, 10].any both || (a.at 5 < b.at 5 + b.at 6 && b.at 5 < a.at 5 + a.at 6)

/-- A table's words are written, unless the partition runs, they break R457, or running partitions would share anything (R458). -/
def State.writePart (s : State) (p : Nat) (t : PartTable) : State :=
  let others := ((List.range 9).filter (fun q => q != p)).map s.partTable
  let clash := t.running && others.any (fun o => o.running && t.share o)
  if 9 ≤ p || (s.partTable p).running || !t.ok || clash then s
  else t.zipIdx.foldl (fun s w => s.setCwInt (21000 + 12 * p + w.2) w.1) s

/-- PARTITION_TABLE_WRITE (R458): only while PSTATE is not +1, and never a table whose running partitions share anything. -/
def execPartitionTableWrite (p : Nat) (words : List Int) (s : State) : Host.Outcome State Fault Refusal := .next (s.writePart p words)

/-- The slots of a partition's frames (R457). -/
def State.partSlot (s : State) (p slot : Nat) : Bool :=
  s.partWord p 5 ≤ ((slot / 27 : Nat) : Int) && ((slot / 27 : Nat) : Int) < s.partWord p 5 + s.partWord p 6

/-- A request to a home that a reset does not end: a host's, a peer's, the event log's. -/
def hwOuter (r : HwReq) : Bool :=
  match r.src with
  | .host _ | .peer _ _ _ | .log => true
  | _ => false

/-- A host's read. -/
def hrOuter (r : HrReq) : Bool :=
  match r.src with
  | .host _ _ _ _ => true
  | _ => false

/-- A pending step that a partition reset ends: what its contexts and caches have under way on its lines (R447, steps 2 to 4). -/
def resetEnds (mine : Nat → Bool) (cores : List Nat) (i : Instr) : Bool :=
  match i with
  | .homeRds _ q | .homeRdx _ q | .homeUpg _ q => mine q.slot
  | .homeWbd _ x | .homeEvc _ x => mine x
  | .snoopInv _ x | .snoopShr _ x | .snoopGet _ x | .snoopFilterBroadcast _ x | .snoopAnswer _ x _ => mine x
  | .vaultFill x | .vaultWriteback x | .hbmWrite x _ _ => mine x
  | .homeHw r => mine r.slot && !hwOuter r
  | .homeHr r => mine r.slot && !hrOuter r
  | .instructionFetchFill c _ _ _ | .tlbMissWalk _ ⟨c, _, _, _, _, _, _⟩ => cores.contains c
  | _ => false

/-- A waiting request that a reset does not end comes to the home again. -/
def Req.outer (q : Req) : Option Instr :=
  match q with
  | .hw r => if hwOuter r then some (.homeHw r) else none
  | .hr r => if hrOuter r then some (.homeHr r) else none
  | _ => none

/-- The requests of others that wait at a line. -/
def VLine.outer (v : VLine) : List Instr :=
  ((match v.txn with | some x => [x.req] | none => []) ++ v.queue).filterMap Req.outer

/-- A pending step's request to a home. -/
def atHome (i : Instr) : Option (Nat × Req) :=
  match i with
  | .homeHw r => some (r.slot, .hw r)
  | .homeHr r => some (r.slot, .hr r)
  | .homeRds a q => some (q.slot, .rds a q.byte)
  | .homeRdx a q => some (q.slot, .rdx a q.byte q.op)
  | .homeUpg a q => some (q.slot, .upg a q.byte q.op)
  | _ => none

/-- The host accesses to a partition's slots that wait, on their way or at their lines, draw error responses and are logged (R447). -/
def State.refuseHosts (s : State) (mine : Nat → Bool) : State :=
  let host := fun (slot : Nat) (q : Req) => if mine slot then q.host slot else none
  let step := fun (i : Instr) => (atHome i).bind (fun p => host p.1 p.2)
  let gone := s.agenda.filterMap step ++ s.fillq.filterMap (fun q => host q.1 q.2.2)
    ++ (s.vlines.map (fun v => v.queue.filterMap (host v.slot))).flatten
  let s := { s with agenda := s.agenda.filter (fun i => (step i).isNone), fillq := s.fillq.filter (fun q => (host q.1 q.2.2).isNone),
                    vlines := s.vlines.map (fun v => { v with queue := v.queue.filter (fun q => (host v.slot q).isNone) }) }
  gone.foldl (fun s g => s.hostError g.1 g.2 true) s

/-- The first steps of a partition's reset (R447): PSTATE is −1, its graph slots are empty, its contexts are killed, and host accesses that
wait for its frames are refused. `keep` says that the frame format table stays (R446). -/
def State.beginReset (s : State) (p : Nat) (keep : Bool) : State :=
  let slots := (List.range 27).filter (fun g => trit (s.partWord p 10) g == 1)
  let s := slots.foldl State.emptyGraph (s.setCwInt (21000 + 12 * p) (-1))
  let s := ((s.grids.filter (fun g => g.part == p)).map (·.num)).foldl State.killGrid s
  ({ s.refuseHosts (s.partSlot p) with resets := s.resets ++ [(p, keep)] } : State).laterOnce (.partitionReset p)

/-- What is left of a partition's contexts is gone. -/
def State.endContexts (s : State) (p : Nat) : State :=
  let slots := (List.range 27).filter (fun g => trit (s.partWord p 10) g == 1)
  let mine := fun (n : Nat) => (s.grid? n).any (fun g => g.part == p)
  { s with graphs := s.graphs.filter (fun g => !slots.contains g.slot), teams := s.teams.filter (fun t => !mine t.grid),
           saved := s.saved.filter (fun v => !mine v.team.grid), grids := s.grids.filter (fun g => g.part != p) }.sweepLeases

/-- Clears a partition's clusters, and its lines in every cache, without write-back (R447, steps 3 and 4). -/
def State.clearCaches (s : State) (p : Nat) : State :=
  let cores := s.coresOf p
  let mine := s.partSlot p
  let walks := fun (l : List Walk) => l.filter (fun w => !cores.contains w.req.core)
  let open_ := (s.vlines.filter (fun v => mine v.slot)).filterMap (fun v => v.txn.bind (fun t => t.req.host v.slot))
  let s := open_.foldl (fun s g => s.hostError g.1 g.2 true) s
  let kept := (((s.vlines.filter (fun v => mine v.slot)).map VLine.outer).flatten
    ++ (s.fillq.filter (fun q => mine q.1)).filterMap (fun q => q.2.2.outer)).filter (fun i =>
      ((atHome i).bind (fun q => q.2.host q.1)).isNone)
  { s with cores := s.cores.filter (fun c => !cores.contains c.num), issue := s.issue.filter (fun b => !cores.contains b.core),
           copies := s.copies.filter (fun c => !mine c.slot && !cores.contains c.agent),
           vlines := s.vlines.filter (fun v => !mine v.slot), fillq := s.fillq.filter (fun q => !mine q.1),
           dies := s.dies.map (fun d => { d with filter := d.filter.filter (fun q => !mine q.1), walks := walks d.walks,
                                                 missq := d.missq.filter (fun w => !cores.contains w.core),
                                                 walked := d.walked.filter (fun w => !cores.contains w.core) }),
           posts := s.posts.filter (fun q => !mine (q.asrec / 81)),
           agenda := s.agenda.filter (fun i => !resetEnds mine cores i) ++ kept }

/-- Applies ZERO.T to every frame of a partition that is not retired (R447, step 5). Where the frame format table stays, a B-frame takes
the zero B-line instead (R446; log entry 36). -/
def State.zeroPart (s : State) (p : Nat) (keep : Bool) : State :=
  let mine := s.partSlot p
  let binary := if keep then (s.frames.filter (fun f => mine (27 * f.1) && f.2 == 1)).map (·.1) else []
  let s := { s with hbm := s.hbm.filter (fun c => !mine (c.1 / 160) || 2 ≤ s.frame (c.1 / 160 / 27)),
                    frames := s.frames.filter (fun f => keep || !mine (27 * f.1) || 2 ≤ f.2) }
  binary.foldl (fun s f => (List.range 27).foldl (fun s i => s.hbmStore (27 * f + i) zeroLineB false) s) s

/-- The remaining steps of a partition's reset (R447, steps 3 to 7). -/
def State.endReset (s : State) (p : Nat) (keep : Bool) : State :=
  let s := ((s.endContexts p).clearCaches p).zeroPart p keep
  let s := { s with resets := s.resets.filter (fun r => r.1 != p), stamps := setNth s.stamps p 0 }
  s.setCwInt (21000 + 12 * p) 1

/-- Some grid of a partition has yet to complete with its error status (R400). -/
def State.completes (s : State) (p : Nat) : Bool :=
  s.grids.any (fun g => g.part == p && s.agenda.contains (.gridCompletion g.num))

/-- PARTITION_RESET (R447): it begins; it ends when the contexts that it kills have completed. A partition that is not in use has
none. -/
def execPartitionReset (p : Nat) (s : State) : Host.Outcome State Fault Refusal :=
  match s.resets.find? (fun r => r.1 == p) with
  | some r => .next (if s.completes p then s.laterOnce (.partitionReset p) else s.endReset p r.2)
  | none => .next (if field (s.partWord p 0) 1 0 = 0 then s else s.beginReset p false)

/-! ### Boot and resets (R446, R448–R453) -/

/-- Bytes of a list from an offset; beyond its end they are those of erased flash, 0xFF. -/
def flashBytes (l : List (BitVec 8)) (off n : Nat) : List (BitVec 8) := (List.range n).map (fun i => l.getD (off + i) 0xFF)

/-- The little-endian integer of flash bytes. -/
def flashInt (l : List (BitVec 8)) (off n : Nat) : Nat := ofLittleEndian ((flashBytes l off n).map BitVec.toNat)

/-- The checks of one slot of the flash (R450, R451). -/
def NonVol.slotOk (v : NonVol) (f : List (BitVec 8)) : Bool :=
  let m := flashBytes f 0 128
  let key := flashInt f 6 2
  let len := flashInt f 12 4
  let zero := fun (off n : Nat) => (flashBytes f off n).all (· == 0)
  m.take 4 == [0x4E, 0x54, 0x44, 0x46] && flashInt f 4 2 == 1 && 1 ≤ len && len ≤ 8388608 && flashInt f 48 1 < 2 && zero 49 3
  && zero 84 44 && key < 4 && !v.revoked.getD key true && v.keyHash[key]? == some (sha256 (flashBytes f 52 32))
  && flashInt f 8 4 ≤ 80 && v.fwsvn ≤ flashInt f 8 4
  && slhVerify128 (flashBytes f 52 32) m (flashBytes f 128 7856)
  && sha256 (flashBytes f 8192 len) == flashBytes f 16 32

/-- The slot that the boot ROM starts: A before B (R451). -/
def NonVol.bootSlot (v : NonVol) : Option (Nat × List (BitVec 8)) :=
  if v.slotOk v.flashA then some (0, v.flashA) else if v.slotOk v.flashB then some (1, v.flashB) else none

/-- The readable fuses (R445). -/
def State.showFuses (s : State) : State :=
  ((s.setCwInt 19684 s.nv.lcs).setCwInt 19685 s.nv.fwsvn).setItems 19762 (s.nv.devpub.take 48)

/-- The machine as power comes on: fuses and flash stand, all else is cleared; no partition is in use (R446, R459). The counter of the
free values goes on. -/
def State.powerOn (s : State) : State :=
  let z := { State.reset with nv := s.nv, tick := s.tick }
  ((List.range 108).foldl (fun z i => z.setCwInt (21000 + i) 0) z).setCwInt 19683 0

/-- The partitions that the flash holds. -/
def NonVol.partTable (v : NonVol) (p : Nat) : PartTable := (List.range 12).map (fun f => ((assocGet v.parts (12 * p + f)).getD .zero).val)

/-- Step 8 of the boot: retirement list, partition table, severity defaults and RANK, each extended into MEAS2; a partition that would share
anything with one before it is refused (R448, R453, R458; log entry 35). -/
def State.bootTables (s : State) : State :=
  let s := s.nv.retired.foldl (fun s f => s.setFrame f 2) s
  let s := (List.range 9).foldl (fun s p => s.writePart p (s.nv.partTable p)) s
  let s := s.setCwInt 6570 s.nv.rank
  let parts := ((List.range 9).map s.partTable).flatten
  [Config.bootDigest 1 parts [], Config.bootDigest 2 ((List.range 26).map (fun c => (sevReset (c + 1)).val)) [],
   Config.bootDigest 3 (s.nv.retired.map (fun (f : Nat) => (f : Int))) [], Config.bootDigest 5 [(s.nv.rank : Int)] []].foldl (fun s d => s.extend 2 d) s

/-- The firmware of an image that has come up raises FWSVN to its own where the image has COMMIT set, and may revoke key slots other than
the one that signed it: which of them is a free choice (R452; log entry 35). -/
def State.fuse (s : State) (f : List (BitVec 8)) : State :=
  let svn := flashInt f 8 4
  let own := flashInt f 6 2
  let (s, k) := s.choose 16
  let revoked := s.nv.revoked.zipIdx.map (fun r => r.1 || (r.2 != own && k / 2 ^ r.2 % 2 == 1))
  let fwsvn := if flashInt f 48 1 = 1 ∧ s.nv.fwsvn < svn then svn else s.nv.fwsvn
  ({ s with nv := { s.nv with fwsvn := fwsvn, revoked := revoked } } : State).showFuses

/-- The boot order of R448. What the trainings and tests of steps 4, 5 and 7, and of step 9, find is a free choice for each (log
entry 35). -/
def State.boot (s : State) : State :=
  let s := s.powerOn.showFuses
  let pub := s.nv.fwsvn :: s.nv.revoked.map (fun b => if b then 1 else 0)
  let s := s.extend 0 (Config.bootDigest 0 (s.nv.lcs :: pub.map (fun (n : Nat) => (n : Int))) s.nv.keyHash.flatten)
  if !s.nv.sound then s.setCwInt 19683 (-2)
  else match s.nv.bootSlot with
    | none => s.setCwInt 19683 (-1)
    | some (i, f) =>
      let s := ((s.setCwInt 19686 i).extend 1 (sha256 (flashBytes f 0 128))).extend 3 (Config.bootDigest 4 [] (flashBytes f 8192 (flashInt f 12 4)))
      let (s, early) := s.choose 2
      if early = 1 then s.setCwInt 19683 (-3)
      else
        let (s, ports) := s.bootTables.choose 2
        if ports = 1 then s.setCwInt 19683 (-3) else (s.setCwInt 19683 1).fuse f

/-- COLD_RESET (R446, R448). -/
def execColdReset (s : State) : Host.Outcome State Fault Refusal := .next s.boot
/-- CORE_RAIL_UNDERVOLTAGE (R459): a cold reset. -/
def execCoreRailUndervoltage (_die : Nat) (s : State) : Host.Outcome State Fault Refusal := .next s.boot

/-- The words of R445 that a function-level reset returns to their defaults (R446; log entry 36). -/
def flrWord (sel : Nat) : Bool :=
  (19780 ≤ sel && sel ≤ 19790) || (19800 ≤ sel && sel ≤ 19809) || (20000 ≤ sel && sel ≤ 20014)

/-- FUNCTION_LEVEL_RESET (R446): every partition in use is reset, the frame format table stays, and the words return to their defaults. A
report in progress ends. -/
def execFunctionLevelReset (s : State) : Host.Outcome State Fault Refusal :=
  let s := (List.range 9).foldl (fun s p =>
    if field (s.partWord p 0) 1 0 = 0 || s.resets.any (fun r => r.1 == p) then s else s.beginReset p true) s
  .next { s with ctl := s.ctl.filter (fun p => !flrWord p.1), report := none }

/-! ### Life cycle and reports (R454–R456) -/

/-- Bytes of the present draw of the entropy source. -/
def State.drawBytes (s : State) (n : Nat) : List (BitVec 8) := (List.range n).map (Config.entropy s.tick)

/-- PROVISIONING (R454): at LCS −1 the 72 seed bytes are drawn, the public key is computed, and LCS becomes 0. DESIGN CHOICE, log entry 32:
the spec gives no step that raises LCS from 0 to +1, and the model's next provisioning does. -/
def execProvisioning (s : State) : Host.Outcome State Fault Refusal :=
  if s.nv.lcs = -1 then
    let seeds := s.drawBytes 72
    .next ({ s with nv := { s.nv with seeds := some seeds, devpub := slhPublic192 seeds, lcs := 0 }, tick := s.tick + 1 } : State).showFuses
  else if s.nv.lcs = 0 then .next ({ s with nv := { s.nv with lcs := 1 } } : State).showFuses
  else .next s

/-- LIFECYCLE_RETURN (R454): LCS rises to +2, and the seeds are gone. -/
def execLifecycleReturn (s : State) : Host.Outcome State Fault Refusal :=
  .next ({ s with nv := { s.nv with lcs := 2, seeds := none } } : State).showFuses

/-- The bytes of a report: its body, the signature, and the zeros of its last slot (R456; log entry 32). -/
def State.reportBytes (s : State) (r : Report) : List (BitVec 8) :=
  let b := r.body ++ slhSign192 (s.nv.seeds.getD []) (s.drawBytes 24) r.body
  (List.range 16768).map (fun i => if i < 16736 then b.getD i 0 else 0)

/-- Writes one line of a report at its home as a system-scope release (R455); nothing where the home is busy. A slot that is no
longer a B-slot takes none of it. -/
def State.reportLine (s : State) (r : Report) (bytes : List (BitVec 8)) (i : Nat) : Option State :=
  if !s.isB (r.slot + i) then some s
  else (s.homeWrite (r.slot + i) (applyHw (.bytes ((List.range 128).map (fun k => (k, bytes.getD (128 * i + k) 0))))) (some false)).map (·.1)

/-- ATTESTATION_REPORT_DONE (R455): the report is written to its 131 slots, and then ATTSTAT becomes +2. -/
def execAttestationReportDone (s : State) : Host.Outcome State Fault Refusal :=
  match s.report with
  | none => .next s
  | some r =>
    let bytes := s.reportBytes r
    match (List.range 131).foldl (fun (o : Option State) i => o.bind (fun s => s.reportLine r bytes i)) (some s) with
    | none => .next (s.laterOnce .attestationReportDone)
    | some s => .next { s.setCwInt 19790 2 with report := none, tick := s.tick + 1 }

end Sys2Proof.Machine
end

