-- ==== Sys2Proof/Machine/Dispatch.lean ====
section
/-! DEFINITION. The dispatch: one arm per constructor of `Instr`. -/

namespace Sys2Proof.Machine

/-- What one step does: the meaning of its instruction or event. -/
def exec (i : Instr) (s : State) : Host.Outcome State Fault Refusal :=
  match i with
  | .add a => Sys2Proof.Machine.execAdd a s
  | .sub a => Sys2Proof.Machine.execSub a s
  | .neg a => Sys2Proof.Machine.execNeg a s
  | .abs a => Sys2Proof.Machine.execAbs a s
  | .sgn a => Sys2Proof.Machine.execSgn a s
  | .mul a => Sys2Proof.Machine.execMul a s
  | .mulh a => Sys2Proof.Machine.execMulh a s
  | .mad a => Sys2Proof.Machine.execMad a s
  | .div a => Sys2Proof.Machine.execDiv a s
  | .mod a => Sys2Proof.Machine.execMod a s
  | .min a => Sys2Proof.Machine.execMin a s
  | .max a => Sys2Proof.Machine.execMax a s
  | .clamp a => Sys2Proof.Machine.execClamp a s
  | .shl a => Sys2Proof.Machine.execShl a s
  | .shr a => Sys2Proof.Machine.execShr a s
  | .rot a => Sys2Proof.Machine.execRot a s
  | .tmin a => Sys2Proof.Machine.execTmin a s
  | .tmax a => Sys2Proof.Machine.execTmax a s
  | .tsum a => Sys2Proof.Machine.execTsum a s
  | .tcon a => Sys2Proof.Machine.execTcon a s
  | .tmap a => Sys2Proof.Machine.execTmap a s
  | .tcnt a => Sys2Proof.Machine.execTcnt a s
  | .tlz a => Sys2Proof.Machine.execTlz a s
  | .text a => Sys2Proof.Machine.execText a s
  | .tins a => Sys2Proof.Machine.execTins a s
  | .cmp a => Sys2Proof.Machine.execCmp a s
  | .sel a => Sys2Proof.Machine.execSel a s
  | .mov a => Sys2Proof.Machine.execMov a s
  | .movBc a => Sys2Proof.Machine.execMovBc a s
  | .movK a => Sys2Proof.Machine.execMovK a s
  | .movi a => Sys2Proof.Machine.execMovi a s
  | .pack a => Sys2Proof.Machine.execPack a s
  | .unpack a => Sys2Proof.Machine.execUnpack a s
  | .idx a => Sys2Proof.Machine.execIdx a s
  | .lget a => Sys2Proof.Machine.execLget a s
  | .lput a => Sys2Proof.Machine.execLput a s
  | .trx a => Sys2Proof.Machine.execTrx a s
  | .vote a => Sys2Proof.Machine.execVote a s
  | .gred a => Sys2Proof.Machine.execGred a s
  | .gscan a => Sys2Proof.Machine.execGscan a s
  | .hist a => Sys2Proof.Machine.execHist a s
  | .bsum a => Sys2Proof.Machine.execBsum a s
  | .fadd a => Sys2Proof.Machine.execFadd a s
  | .fsub a => Sys2Proof.Machine.execFsub a s
  | .fmul a => Sys2Proof.Machine.execFmul a s
  | .ffma a => Sys2Proof.Machine.execFfma a s
  | .fadd3 a => Sys2Proof.Machine.execFadd3 a s
  | .fdot3 a => Sys2Proof.Machine.execFdot3 a s
  | .fmin a => Sys2Proof.Machine.execFmin a s
  | .fmax a => Sys2Proof.Machine.execFmax a s
  | .fabs a => Sys2Proof.Machine.execFabs a s
  | .fcmp a => Sys2Proof.Machine.execFcmp a s
  | .fclass a => Sys2Proof.Machine.execFclass a s
  | .fscl a => Sys2Proof.Machine.execFscl a s
  | .fxp a => Sys2Proof.Machine.execFxp a s
  | .frnd a => Sys2Proof.Machine.execFrnd a s
  | .rcp a => Sys2Proof.Machine.execRcp a s
  | .rsq a => Sys2Proof.Machine.execRsq a s
  | .sqrt a => Sys2Proof.Machine.execSqrt a s
  | .exp a => Sys2Proof.Machine.execExp a s
  | .log a => Sys2Proof.Machine.execLog a s
  | .sin a => Sys2Proof.Machine.execSin a s
  | .cos a => Sys2Proof.Machine.execCos a s
  | .tanh a => Sys2Proof.Machine.execTanh a s
  | .sigm a => Sys2Proof.Machine.execSigm a s
  | .cvt a => Sys2Proof.Machine.execCvt a s
  | .cvtb a => Sys2Proof.Machine.execCvtb a s
  | .cvtf a => Sys2Proof.Machine.execCvtf a s
  | .quant a => Sys2Proof.Machine.execQuant a s
  | .dquant a => Sys2Proof.Machine.execDquant a s
  | .draw a => Sys2Proof.Machine.execDraw a s
  | .ld a => Sys2Proof.Machine.execLd a s
  | .st a => Sys2Proof.Machine.execSt a s
  | .ldx a => Sys2Proof.Machine.execLdx a s
  | .stx a => Sys2Proof.Machine.execStx a s
  | .pref a => Sys2Proof.Machine.execPref a s
  | .prefHome a => Sys2Proof.Machine.execPrefHome a s
  | .clineZero a => Sys2Proof.Machine.execClineZero a s
  | .clineEvict a => Sys2Proof.Machine.execClineEvict a s
  | .copyIn a => Sys2Proof.Machine.execCopyIn a s
  | .copyOut a => Sys2Proof.Machine.execCopyOut a s
  | .copyBin a => Sys2Proof.Machine.execCopyBin a s
  | .copyPeer a => Sys2Proof.Machine.execCopyPeer a s
  | .copyCab a => Sys2Proof.Machine.execCopyCab a s
  | .xfNeg a => Sys2Proof.Machine.execXfNeg a s
  | .xfShift a => Sys2Proof.Machine.execXfShift a s
  | .xfZero a => Sys2Proof.Machine.execXfZero a s
  | .xfFill a => Sys2Proof.Machine.execXfFill a s
  | .xfClamp a => Sys2Proof.Machine.execXfClamp a s
  | .xfCvt a => Sys2Proof.Machine.execXfCvt a s
  | .xfRq a => Sys2Proof.Machine.execXfRq a s
  | .xfAcc a => Sys2Proof.Machine.execXfAcc a s
  | .xfAdd a => Sys2Proof.Machine.execXfAdd a s
  | .xfMin a => Sys2Proof.Machine.execXfMin a s
  | .xfMax a => Sys2Proof.Machine.execXfMax a s
  | .xfXchg a => Sys2Proof.Machine.execXfXchg a s
  | .xfCas a => Sys2Proof.Machine.execXfCas a s
  | .xfTsum a => Sys2Proof.Machine.execXfTsum a s
  | .wait a => Sys2Proof.Machine.execWait a s
  | .tkt a => Sys2Proof.Machine.execTkt a s
  | .collAr a => Sys2Proof.Machine.execCollAr a s
  | .collRs a => Sys2Proof.Machine.execCollRs a s
  | .collAg a => Sys2Proof.Machine.execCollAg a s
  | .collBc a => Sys2Proof.Machine.execCollBc a s
  | .collSend a => Sys2Proof.Machine.execCollSend a s
  | .collRecv a => Sys2Proof.Machine.execCollRecv a s
  | .nop a => Sys2Proof.Machine.execNop a s
  | .br a => Sys2Proof.Machine.execBr a s
  | .br3 a => Sys2Proof.Machine.execBr3 a s
  | .brm a => Sys2Proof.Machine.execBrm a s
  | .jmp a => Sys2Proof.Machine.execJmp a s
  | .jmpr a => Sys2Proof.Machine.execJmpr a s
  | .call a => Sys2Proof.Machine.execCall a s
  | .callr a => Sys2Proof.Machine.execCallr a s
  | .ret a => Sys2Proof.Machine.execRet a s
  | .exit a => Sys2Proof.Machine.execExit a s
  | .part a => Sys2Proof.Machine.execPart a s
  | .gwait a => Sys2Proof.Machine.execGwait a s
  | .reorder a => Sys2Proof.Machine.execReorder a s
  | .yield a => Sys2Proof.Machine.execYield a s
  | .pair a b c d e f => Sys2Proof.Machine.execPair a b c d e f s
  | .feat a => Sys2Proof.Machine.execFeat a s
  | .stamp a => Sys2Proof.Machine.execStamp a s
  | .lds a => Sys2Proof.Machine.execLds a s
  | .sts a => Sys2Proof.Machine.execSts a s
  | .atom a => Sys2Proof.Machine.execAtom a s
  | .red a => Sys2Proof.Machine.execRed a s
  | .lease a => Sys2Proof.Machine.execLease a s
  | .unlease a => Sys2Proof.Machine.execUnlease a s
  | .publish a => Sys2Proof.Machine.execPublish a s
  | .fence a => Sys2Proof.Machine.execFence a s
  | .wack a => Sys2Proof.Machine.execWack a s
  | .bar a => Sys2Proof.Machine.execBar a s
  | .cbar a => Sys2Proof.Machine.execCbar a s
  | .gphase a => Sys2Proof.Machine.execGphase a s
  | .mxIssue a => Sys2Proof.Machine.execMxIssue a s
  | .mxZero a => Sys2Proof.Machine.execMxZero a s
  | .mxLoadc a => Sys2Proof.Machine.execMxLoadc a s
  | .mxScale a => Sys2Proof.Machine.execMxScale a s
  | .mxDrain a => Sys2Proof.Machine.execMxDrain a s
  | .mxSpill a => Sys2Proof.Machine.execMxSpill a s
  | .mxFill a => Sys2Proof.Machine.execMxFill a s
  | .mxQry a => Sys2Proof.Machine.execMxQry a s
  | .trap a => Sys2Proof.Machine.execTrap a s
  | .tret a => Sys2Proof.Machine.execTret a s
  | .tpcSet a => Sys2Proof.Machine.execTpcSet a s
  | .tpcAdv a => Sys2Proof.Machine.execTpcAdv a s
  | .tpcExit a => Sys2Proof.Machine.execTpcExit a s
  | .cwget a => Sys2Proof.Machine.execCwget a s
  | .cwset a => Sys2Proof.Machine.execCwset a s
  | .tlbfPage a => Sys2Proof.Machine.execTlbfPage a s
  | .tlbfAs a => Sys2Proof.Machine.execTlbfAs a s
  | .tlbfAll a => Sys2Proof.Machine.execTlbfAll a s
  | .sleep a => Sys2Proof.Machine.execSleep a s
  | .illegalInstruction a b => Sys2Proof.Machine.execIllegalInstruction a b s
  | .bundlerRound a => Sys2Proof.Machine.execBundlerRound a s
  | .issueSelection a => Sys2Proof.Machine.execIssueSelection a s
  | .convergenceTimeout a b c => Sys2Proof.Machine.execConvergenceTimeout a b c s
  | .loadDataReturn a b => Sys2Proof.Machine.execLoadDataReturn a b s
  | .sfuResultLands a b => Sys2Proof.Machine.execSfuResultLands a b s
  | .stsAcknowledgement a b c => Sys2Proof.Machine.execStsAcknowledgement a b c s
  | .scoreboardStart a b => Sys2Proof.Machine.execScoreboardStart a b s
  | .rangeLockFree a => Sys2Proof.Machine.execRangeLockFree a s
  | .engineCommandComplete a b => Sys2Proof.Machine.execEngineCommandComplete a b s
  | .drawerRequest a b => Sys2Proof.Machine.execDrawerRequest a b s
  | .tlbMissWalk a b => Sys2Proof.Machine.execTlbMissWalk a b s
  | .faultPostingResume a => Sys2Proof.Machine.execFaultPostingResume a s
  | .faultEntryDone a => Sys2Proof.Machine.execFaultEntryDone a s
  | .shootdown a b c d => Sys2Proof.Machine.execShootdown a b c d s
  | .shootdownComplete a => Sys2Proof.Machine.execShootdownComplete a s
  | .publication a b c => Sys2Proof.Machine.execPublication a b c s
  | .publicationAck a b c => Sys2Proof.Machine.execPublicationAck a b c s
  | .barrierComplete a b => Sys2Proof.Machine.execBarrierComplete a b s
  | .cbarComplete a b => Sys2Proof.Machine.execCbarComplete a b s
  | .gphaseComplete a => Sys2Proof.Machine.execGphaseComplete a s
  | .detMerge a => Sys2Proof.Machine.execDetMerge a s
  | .leaseExpiry a b => Sys2Proof.Machine.execLeaseExpiry a b s
  | .sleepWake a => Sys2Proof.Machine.execSleepWake a s
  | .homeRds a b => Sys2Proof.Machine.execHomeRds a b s
  | .homeRdx a b => Sys2Proof.Machine.execHomeRdx a b s
  | .homeUpg a b => Sys2Proof.Machine.execHomeUpg a b s
  | .homeWbd a b => Sys2Proof.Machine.execHomeWbd a b s
  | .homeEvc a b => Sys2Proof.Machine.execHomeEvc a b s
  | .homeHw a => Sys2Proof.Machine.execHomeHw a s
  | .homeHr a => Sys2Proof.Machine.execHomeHr a s
  | .snoopInv a b => Sys2Proof.Machine.execSnoopInv a b s
  | .snoopShr a b => Sys2Proof.Machine.execSnoopShr a b s
  | .snoopGet a b => Sys2Proof.Machine.execSnoopGet a b s
  | .snoopFilterBroadcast a b => Sys2Proof.Machine.execSnoopFilterBroadcast a b s
  | .snoopAnswer a b c => Sys2Proof.Machine.execSnoopAnswer a b c s
  | .vaultFill a => Sys2Proof.Machine.execVaultFill a s
  | .vaultWriteback a => Sys2Proof.Machine.execVaultWriteback a s
  | .hbmRead a => Sys2Proof.Machine.execHbmRead a s
  | .hbmWrite a b c => Sys2Proof.Machine.execHbmWrite a b c s
  | .dieLinkFailure a => Sys2Proof.Machine.execDieLinkFailure a s
  | .hostBinaryWrite a b c => Sys2Proof.Machine.execHostBinaryWrite a b c s
  | .hostBinaryRead a b c => Sys2Proof.Machine.execHostBinaryRead a b c s
  | .hostImageWrite a b c => Sys2Proof.Machine.execHostImageWrite a b c s
  | .imageStagingTimeout a b => Sys2Proof.Machine.execImageStagingTimeout a b s
  | .hostImageRead a b c => Sys2Proof.Machine.execHostImageRead a b c s
  | .resamplingInterval a => Sys2Proof.Machine.execResamplingInterval a s
  | .samplingWindowEnd a => Sys2Proof.Machine.execSamplingWindowEnd a s
  | .denominationSweep a => Sys2Proof.Machine.execDenominationSweep a s
  | .graphArm a => Sys2Proof.Machine.execGraphArm a s
  | .graphEmpty a => Sys2Proof.Machine.execGraphEmpty a s
  | .gridNode a b => Sys2Proof.Machine.execGridNode a b s
  | .copyNode a b => Sys2Proof.Machine.execCopyNode a b s
  | .collectiveNode a b => Sys2Proof.Machine.execCollectiveNode a b s
  | .conditionNode a b => Sys2Proof.Machine.execConditionNode a b s
  | .whileNode a b => Sys2Proof.Machine.execWhileNode a b s
  | .waitWordNode a b => Sys2Proof.Machine.execWaitWordNode a b s
  | .signalNode a b => Sys2Proof.Machine.execSignalNode a b s
  | .endNode a b => Sys2Proof.Machine.execEndNode a b s
  | .nodeComplete a b c => Sys2Proof.Machine.execNodeComplete a b c s
  | .teamPlacement a => Sys2Proof.Machine.execTeamPlacement a s
  | .preemption a => Sys2Proof.Machine.execPreemption a s
  | .teamSave a => Sys2Proof.Machine.execTeamSave a s
  | .teamRestore a => Sys2Proof.Machine.execTeamRestore a s
  | .teamEnd a => Sys2Proof.Machine.execTeamEnd a s
  | .gridCompletion a => Sys2Proof.Machine.execGridCompletion a s
  | .trapEntry a => Sys2Proof.Machine.execTrapEntry a s
  | .rollback a => Sys2Proof.Machine.execRollback a s
  | .vigilCompare a b c => Sys2Proof.Machine.execVigilCompare a b c s
  | .flitLineWrite a => Sys2Proof.Machine.execFlitLineWrite a s
  | .pullRequest a => Sys2Proof.Machine.execPullRequest a s
  | .pullData a => Sys2Proof.Machine.execPullData a s
  | .flitAcknowledgement a => Sys2Proof.Machine.execFlitAcknowledgement a s
  | .timeSync a b => Sys2Proof.Machine.execTimeSync a b s
  | .fabricPortDown a => Sys2Proof.Machine.execFabricPortDown a s
  | .governorTick a b => Sys2Proof.Machine.execGovernorTick a b s
  | .ilimUpdate a => Sys2Proof.Machine.execIlimUpdate a s
  | .droopDetect a => Sys2Proof.Machine.execDroopDetect a s
  | .thermtrip a => Sys2Proof.Machine.execThermtrip a s
  | .coreRailUndervoltage a => Sys2Proof.Machine.execCoreRailUndervoltage a s
  | .partitionReset a => Sys2Proof.Machine.execPartitionReset a s
  | .partitionTableWrite a b => Sys2Proof.Machine.execPartitionTableWrite a b s
  | .attgo a => Sys2Proof.Machine.execAttgo a s
  | .controlWordWrite a b => Sys2Proof.Machine.execControlWordWrite a b s
  | .walkCompletion a => Sys2Proof.Machine.execWalkCompletion a s
  | .instructionFetchFill a b c d => Sys2Proof.Machine.execInstructionFetchFill a b c d s
  | .leaseGrant a => Sys2Proof.Machine.execLeaseGrant a s
  | .localSupplyRecovery a => Sys2Proof.Machine.execLocalSupplyRecovery a s
  | .sdopPage => Sys2Proof.Machine.execSdopPage s
  | .sdopSpace => Sys2Proof.Machine.execSdopSpace s
  | .sdopEverySpace => Sys2Proof.Machine.execSdopEverySpace s
  | .chZeroT => Sys2Proof.Machine.execChZeroT s
  | .chZeroB => Sys2Proof.Machine.execChZeroB s
  | .chRetire => Sys2Proof.Machine.execChRetire s
  | .chScrub => Sys2Proof.Machine.execChScrub s
  | .chScore => Sys2Proof.Machine.execChScore s
  | .chClear => Sys2Proof.Machine.execChClear s
  | .patrolScrubPass => Sys2Proof.Machine.execPatrolScrubPass s
  | .stampSyncLoss => Sys2Proof.Machine.execStampSyncLoss s
  | .coldReset => Sys2Proof.Machine.execColdReset s
  | .functionLevelReset => Sys2Proof.Machine.execFunctionLevelReset s
  | .provisioning => Sys2Proof.Machine.execProvisioning s
  | .attestationReportDone => Sys2Proof.Machine.execAttestationReportDone s
  | .extgo => Sys2Proof.Machine.execExtgo s
  | .lifecycleReturn => Sys2Proof.Machine.execLifecycleReturn s

end Sys2Proof.Machine
end

