-- ==== Sys2Proof/Machine/Tally.lean ====
section
/-! DEFINITION. What the machine does after every step beside the step itself: the write-backs that an instruction made (R146), and the
copies of first writes in the shadow pool (R390). -/

namespace Sys2Proof.Machine

/-- The squads whose registers the current bundle's instruction may write: its threads', or its handler's. -/
def State.curSquads (s : State) : List (Nat × Nat) :=
  match s.cur.handler with
  | some n => (((s.team? n).bind (·.handler)).map (fun h => (n, h.squad))).toList
  | none => distinct (s.cur.threads.map (fun t => (t.team, t.squad)))

/-- The executions of a squad whose guard holds and which have completed by `t`: no thread of them stands at the instruction any more, in
a state in which it may issue it again or waits there. -/
def State.wroteIn (s t : State) (o : Opnd) (k : Nat × Nat) : Bool :=
  (s.execs o.et.scalar).any (fun x => (x.t.team, x.t.squad) == k && x.guard s o
    && x.ts.all (fun r => (t.thread? r).any (fun th => th.run == .exited || th.instr.isEmpty)))

/-- The v registers that an instruction's D names, in every block step. -/
def destRegs (fm : Form) (o : Opnd) : List Nat :=
  let fm := fm.at o.len
  if fm.dWrite && fm.d.isV o.et.scalar then (blockSteps o).map (fun k => Exec.num o.d + k) else []

/-- The write-backs of v registers that an instruction made between two states (R146): the registers of its D in every squad in which it
was carried out, and every register whose value it changed. -/
def State.writeBacks (s : State) (i : Instr) (t : State) : Nat :=
  (s.curSquads.map (fun k =>
    let named := (i.forms.map (fun f => if s.wroteIn t f.2 k then destRegs f.1 f.2 else [])).flatten
    let changed := match s.squad? k.1 k.2, t.squad? k.1 k.2 with
      | some a, some b => changedRegs a b
      | _, _ => []
    (distinct (named ++ changed)).length)).sum

/-- What follows an issued instruction: its write-backs are counted, and first writes are copied. -/
def State.tally (t s : State) (i : Instr) : State :=
  let n := s.writeBacks i t
  (if n = 0 then t else t.modCore s.cur.core (fun c => { c with wrote := c.wrote + n })).checkShadows

/-- What follows an instruction that has been performed. -/
def afterIssue (s : State) (i : Instr) (o : Host.Outcome State Fault Refusal) : Host.Outcome State Fault Refusal :=
  match o with
  | .next t => .next (t.tally s i)
  | o => o

/-- What follows a step of the machine's own. -/
def afterStep (o : Host.Outcome State Fault Refusal) : Host.Outcome State Fault Refusal :=
  match o with
  | .next t => .next t.checkShadows
  | o => o

end Sys2Proof.Machine
end

