-- ==== Sys2Proof/Machine/Step.lean ====
section
/-! DEFINITION. One step of the machine, and the state whose next step runs given words. -/

namespace Sys2Proof.Machine

/-- One step: the next issued bundle is performed, its squads under VIGIL where they have shadows (R396); with none issued, a pending
step of the machine or the passing of a cycle, by a free choice (log entries 2 and 3). After an instruction its write-backs are counted
(R146), and after every step first writes are copied (R390). A machine that has asserted THERMTRIP and has nothing pending stops
(R461). -/
def step (s : State) : Host.Outcome State Fault Refusal :=
  match s.issue with
  | b :: rest =>
    match b.shadow with
    | some (n, q) => .next (State.shadowRun exec n q { s with issue := rest })
    | none =>
      match State.takeBundle { s with issue := rest } b with
      | none => .next { s with issue := rest }
      | some (s', i) => afterIssue s' i (State.vigilRun exec i s')
  | [] =>
    if s.thermtrip && s.agenda.isEmpty then .fault .thermtrip
    else
      let places := eligible s.agenda
      let (s', k) := s.choose (places.length + 1)
      match (places[k]?).bind (fun j => (s.agenda[j]?).map (fun i => (j, i))) with
      | some (j, i) => afterStep (exec i { s' with agenda := s.agenda.eraseIdx j })
      | none => .next s'.nextCycle

/-- `s` with the instruction of the bits of `w` placed where `step` fetches next; each word is 64 bits in host form (R378),
the first lowest, and every bit above is 0; log entries 11 and 15. -/
def State.withFetchWord (s : State) (_nbits w : Nat) : State :=
  s.place [(Word.ofHost (w % 2 ^ 64)).getD .zero, (Word.ofHost (w / 2 ^ 64 % 2 ^ 64)).getD .zero,
           (Word.ofHost (w / 2 ^ 128 % 2 ^ 64)).getD .zero]

end Sys2Proof.Machine
end

