-- ==== Sys2Proof/Safety.lean ====
section
/-! DEFINITION. The terms in which statements speak: safe runs, bundles that may issue an instruction, what a register instruction
writes and what it leaves alone. -/

namespace Sys2Proof

/-- The word that a row of 27 trits spells, the most significant first (R8, R16). -/
def Word.spell (l : List Int) : Word := .ofInt (ofTrits l.reverse)

end Sys2Proof

namespace Sys2Proof.Machine

/-! ### Runs -/

/-- A step answers a next state. -/
def State.goesOn (s : State) : Bool :=
  match step s with
  | .next _ => true
  | _ => false

/-- Memory has its canonical form. -/
def State.memoryOk (s : State) : Bool := Memory.wf s.hbm

/-! ### Bundles that issue -/

/-- The current bundle is one of runnable threads outside a handler, each with its team's v registers, its eight predicates
and its squad's k registers (R138). -/
def State.bundleFits (s : State) : Prop :=
  s.cur.handler = none ∧ s.cur.threads.Nodup ∧ ∀ r ∈ s.cur.threads, ∃ q th, s.squad? r.team r.squad = some q
    ∧ q.threads[r.lane]? = some th ∧ q.kb.length = 81 ∧ th.run = .ready ∧ (th.regs.length : Int) = s.regsOf r.team
    ∧ th.preds.length = 8 ∧ r.lane < 27

/-- The fields of an instruction lie where its form and the decoder want them (R141, R142, R144, R145, R159): a form whose D is
always a v register has a vector type, and one whose D is always a k register a scalar type. -/
def Opnd.fits (fm : Form) (o : Opnd) : Prop :=
  -121 ≤ o.d ∧ 1 ≤ o.xr ∧ o.xr ≤ 9 ∧ 1 ≤ o.xc ∧ o.xc ≤ 3 ∧ (o.et.scalar = true → o.xr = 1 ∧ o.xc = 1)
  ∧ (fm.d = .p → -4 ≤ o.d ∧ o.d ≤ 4) ∧ (∀ k ∈ kregsOf fm o, k < 81)
  ∧ (fm.d = .v → o.et.scalar = false) ∧ (fm.d = .k → o.et.scalar = true)

/-- The current bundle may issue the instruction, and it raises no illegal-instruction trap (R173, R348, R153). -/
def Issues (i : Instr) (o : Opnd) (fm : Form) (s : State) : Prop :=
  s.bundleFits ∧ Opnd.fits fm o ∧ s.holdsBack i fm o (s.execs o.et.scalar) = false
  ∧ (∀ x ∈ s.execs o.et.scalar, s.dynCode fm o x (s.limit8 i x.t.team) = none ∧ s.outside i.scope o x = false)

/-- The executions of the bundle whose guard holds (R160). -/
def State.runs (s : State) (o : Opnd) : List Exec := (s.execs o.et.scalar).filter (fun x => x.guard s o)

/-! ### Registers as an execution names them -/

/-- The register of a number: a v register in a lane, a k register of its bank in a scalar execution. -/
def Exec.cell (s : State) (x : Exec) (n : Nat) : Word :=
  match x.mode with
  | .vec => s.vreg x.t n
  | .sca => s.kreg x.t.team x.t.squad false n
  | .han => s.kreg x.t.team x.t.squad true n

/-- No result that is still to land in the lane names the register (R165). -/
def State.settled (s : State) (x : Exec) (n : Nat) : Prop :=
  x.mode = .vec → ∀ th, s.thread? x.t = some th → ∀ w ∈ th.wins, w.reg ≠ n

/-- The numbered registers that an execution writes in order, where `f` gives the words of each block step from D on (R144). -/
def Exec.outs (s : State) (x : Exec) (o : Opnd) (f : State → Exec → Nat → List Word) : List (Nat × Word) :=
  (blockSteps o).flatMap (fun k => (f s x k).zipIdx.map (fun p =>
    (Exec.num (o.d + (p.2 : Int)) + (if x.mode = .vec then k else 0), p.1)))

/-- The last word that a list gives a register; `none` where it gives none. -/
def lastOut : List (Nat × Word) → Nat → Option Word
  | [], _ => none
  | p :: t, n => (lastOut t n).or (if p.1 = n then some p.2 else none)

/-! ### What follows a body -/

/-- A thread that has not exited completes its instruction: it goes on at an address, and the first `k` windows count (R155, R165). -/
def State.passThread (s : State) (r : TRef) (dest : Word) (k : Nat) : State := if s.exited r then s else s.finish r dest k

/-- The windows of a thread before the instruction. -/
def State.winsOf (s : State) (t : TRef) : Nat := match s.thread? t with | some th => th.wins.length | none => 0

/-- The bundle of `s` completes, from the state `w` that its body leaves: each thread passes the instruction. -/
def State.completed (s w : State) (i : Instr) (scalar : Bool) : State :=
  ((s.execs scalar).flatMap (·.ts)).foldl (fun u r => u.passThread r (s.cur.pc.add i.trytes) (s.winsOf r)) w

/-- What comes of an execution: it passes the instruction, it goes to an address, or it stays at the instruction. -/
inductive After where
  | pass
  | goto (dest : Word)
  | stay
deriving DecidableEq, Repr

/-- The executions that go to an address, and those that stay. -/
def gotoOf (l : List (Exec × After)) : List (Exec × Word) :=
  l.filterMap (fun p => match p.2 with | .goto a => some (p.1, a) | _ => none)
def stayOf (l : List (Exec × After)) : List Exec := l.filterMap (fun p => if p.2 = .stay then some p.1 else none)

/-- The bundle of `s` goes on from the state `w` that its body leaves: an execution that stays keeps the words of its
instruction, every other thread goes to its target or passes the instruction. -/
def State.after (s w : State) (i : Instr) (scalar : Bool) (l : List (Exec × After)) : State :=
  let on := ((s.execs scalar).filter (fun x => !(stayOf l).contains x)).foldl (fun u x =>
    let dest := match (gotoOf l).find? (fun p => p.1 == x) with | some p => p.2 | none => s.cur.pc.add i.trytes
    x.ts.foldl (fun u r => u.passThread r dest (s.winsOf r)) u) w
  (stayOf l).foldl (fun u x => x.ts.foldl (fun u r => u.modThread r (fun th => { th with instr := (encode i).getD [] })) u) on

/-- One execution after another by a rule for one; `none` where the rule does not apply to one of them. -/
def eachDo (g : State → Exec → Option (State × After)) : List Exec → State → Option (State × List (Exec × After))
  | [], s => some (s, [])
  | x :: l, s => (g s x).bind (fun p => (eachDo g l p.1).map (fun q => (q.1, (x, p.2) :: q.2)))

/-- The instruction completes as the rule `g` says wherever it applies to the executions whose guard holds: the next state is
what `g` leaves, and the threads of the bundle go on as it says. -/
def Does (i : Instr) (o : Opnd) (fm : Form) (g : List Exec → State → Option (State × List (Exec × After))) : Prop :=
  ∀ s w l, Issues i o fm s → g (s.runs o) s = some (w, l) → exec i s = .next (s.after w i o.et.scalar l)

/-- No register, no escrow and no cabinet has changed since `s`, no word has been written at a home, where every write takes a
serial (R320), and no copy of a line holds other words, unless they were found lost (R96). -/
def State.unwritten (s w : State) : Prop :=
  w.teams = s.teams ∧ w.grids = s.grids ∧ w.serials = s.serials
  ∧ ∀ c ∈ w.copies, ∃ b ∈ s.copies, c.agent = b.agent ∧ c.slot = b.slot ∧ (c.line = b.line ∨ c.line.poison = true)

/-- The instruction, wherever it may issue, passes each execution or makes it wait at its walk, and what it does before the threads go
on writes no register and no word. -/
def WritesNothing (i : Instr) (o : Opnd) (fm : Form) : Prop :=
  ∀ s, Issues i o fm s → ∃ w l, exec i s = .next (s.after w i o.et.scalar l) ∧ (∀ p ∈ l, p.2 = .pass ∨ p.2 = .stay) ∧ s.unwritten w

/-! ### The rules of single instructions, for one execution or for all that run -/

/-- Every execution passes the instruction, and the state becomes what `f` says. -/
def passAll (f : List Exec → State → State) (xs : List Exec) (s : State) : Option (State × List (Exec × After)) :=
  some (f xs s, xs.map (fun x => (x, .pass)))

/-- LGET: k(D) receives what the lane's register, predicate or k register holds, unless a result for it is still queued (R230). -/
def lgetRule (o : Opnd) (s : State) (x : Exec) : Option (State × After) :=
  let lane := (x.reg s o.a 0).val
  let num := (x.reg s o.b 0).val
  if reachWaits s x o.f lane num then none else some (x.set s o.d 0 (lgetOf s x o.f lane num), .pass)

/-- LPUT: the lane's register, predicate or k register receives k(D) (R230). -/
def lputRule (o : Opnd) (s : State) (x : Exec) : Option (State × After) :=
  let lane := (x.reg s o.a 0).val
  let num := (x.reg s o.b 0).val
  if reachWaits s x o.f lane num then none else some (lputTo s x o.f lane num (x.reg s o.d 0), .pass)

/-- The queue entries and windows that a special function opens, block step after block step: each lane's register is
interlocked with its result, and each squad's queue gains one entry (R260). -/
def sfuStart (o : Opnd) (fn : SfuFn) (xs : List Exec) (s : State) : State :=
  let val := fun (x : Exec) (k : Nat) => mapElems o.et (fun l => sfu (fmtOf o.et) o.sat fn (l.getD 0 0)) [x.srcA s o k]
  if o.et.scalar then
    xs.foldl (fun st x => st.queueSfu x.t.team x.t.squad { reg := Exec.num o.d, lanes := [], k := some (false, val x 0) }) s
  else
    (blockSteps o).foldl (fun st k =>
      (distinct (xs.map (fun x => (x.t.team, x.t.squad)))).foldl (fun st q => st.queueSfu q.1 q.2
          { reg := Exec.num o.d + k, k := none, lanes := (xs.filter (fun x => (x.t.team, x.t.squad) == q)).map (·.t.lane) })
        (xs.foldl (fun st x => st.modThread x.t (fun th => { th with wins := th.wins ++
          [{ reg := Exec.num o.d + k, val := val x k, left := o.la, arrived := false, src := .sfu }] })) st)) s

/-- A special function where its core's queue has a free entry (R260). -/
def sfuRule (o : Opnd) (fn : SfuFn) (xs : List Exec) (s : State) : Option (State × List (Exec × After)) :=
  match xs with
  | [] => some (s, [])
  | x :: _ =>
    if 81 ≤ s.sfuUsed (s.coreOf x.t.team) then none else passAll (sfuStart o fn) xs s

/-- LD and LDX in one lane: every element passes the checks of R187, and each register receives what the lane sees at its address. -/
def loadRule (o : Opnd) (tryte : Bool) (place : Exec → State → Nat → State × Except Stop Place) (s : State) (x : Exec) :
    Option (State × After) :=
  match State.findAll (place x) (blockSteps o) s with
  | (s, .ok ps) => match State.readAll x ps s with
    | (s, .ok ws) => some (ws.foldl (fun s w => x.deliver s o w.1 (loadPart tryte w.2.1 w.2.2)) s, .pass)
    | (_, .error _) => none
  | (_, .error _) => none

/-- ST and STX in one lane: every element passes the checks of R187 and the quota, and each place receives its register. -/
def storeRule (o : Opnd) (tryte : Bool) (place : Exec → State → Nat → State × Except Stop Place) (s : State) (x : Exec) :
    Option (State × After) :=
  match State.findAll (place x) (blockSteps o) s with
  | (s, .ok ps) =>
    if s.quotaStop x.t (globVas ps) = none then some (ps.foldl (fun s p => s.writePlace x tryte p.2 (x.reg s o.d p.1)) s, .pass)
    else none
  | (_, .error _) => none

/-- CLINE.zero in one lane: 27 stores of the zero word (R193). -/
def zeroRule (o : Opnd) (s : State) (x : Exec) : Option (State × After) :=
  let n := (eaOf s x o 0).num / 81
  match s.findGlob x.t.team .write true (lineVa n 0) with
  | (s, .ok l) =>
    if s.quotaStop x.t [lineVa n 0] = none then
      let s := if (s.leaseOf x.t n).isSome then s.setImage x.t n (fun _ => zeroLine) else s
      some ((List.range 27).foldl (fun s i => s.storeWord x.t (lineVa n i) { l with pa := 81 * l.slot + 3 * i } .zero) s, .pass)
    else none
  | (_, .error _) => none

/-- A prefetch in one lane: it asks for the line unless a check of R187 fails, and stays where its walk has to wait (R81, R192). -/
def quietRule (o : Opnd) (ask : State → Exec → Xl → State) (s : State) (x : Exec) : Option (State × After) :=
  some (match quietPlace s x o with
    | (s, .ok l) => (ask s x l, .pass)
    | (s, .error .busy) => (s, .stay)
    | (s, .error _) => (s, .pass))

/-- PREF in one lane: a RdS for the core's L1, unless the page makes no L1 copy or the copy is there (R192). -/
def prefRule (o : Opnd) : State → Exec → Option (State × After) := quietRule o (fun s x l =>
  if l.home = -1 ∨ (s.copy (s.coreOf x.t.team) l.slot).isSome then s
  else s.later [.homeRds (s.coreOf x.t.team) { slot := l.slot, pin := l.pin }])

/-- PREF.home in one lane: an HR that fills the line's home slice (R192). -/
def prefHomeRule (o : Opnd) : State → Exec → Option (State × After) := quietRule o (fun s _ l =>
  s.later [.homeHr { slot := l.slot, src := .prefetch, pin := l.pin }])

/-- CLINE.evict in one lane: the core's copy, where there is one that no lease holds, is given back by WbD or EvC (R193). -/
def evictRule (o : Opnd) (s : State) (x : Exec) : Option (State × After) :=
  let core := s.coreOf x.t.team
  some (match s.translate (s.ctxOf x.t.team) (eaOf s x o 0) .evict false with
    | (s, .ok l) => (match s.copy core l.slot with
      | some c =>
        if c.leased || c.back then s
        else (s.putCopy { c with back := true }).laterOnce (if c.st = .M ∨ c.st = .O then .homeWbd core l.slot else .homeEvc core l.slot)
      | none => s, .pass)
    | (s, .error .busy) => (s, .stay)
    | (s, .error _) => (s, .pass))

/-- An absolute transfer: an aligned target (R236, R238). -/
def jumpRule (target : State → Exec → Word) (s : State) (x : Exec) : Option (State × After) :=
  if (target s x).aligned then some (s, .goto (target s x)) else none

/-- CALL and CALLR in one lane: the target is aligned, the word below the stack pointer v(D) takes the return address, v(D) goes
down by a word, and the PC goes to the target (R240); an extent does so with each of its registers (R144). -/
def callRule (o : Opnd) (size : Int) (target : State → Exec → Word) (s : State) (x : Exec) : Option (State × After) :=
  let dest := target s x
  let sp := fun (k : Nat) => (x.reg s o.d k).add (-3)
  if dest.aligned then
    match State.findAll (fun s k => s.findPlace x (spOf o.f) .write true (sp k)) (blockSteps o) s with
    | (s, .ok ps) =>
      if s.quotaStop x.t (globVas ps) = none then
        some (ps.foldl (fun s p => x.set (s.writePlace x false p.2 (s.cur.pc.add size)) o.d p.1 (sp p.1)) s, .goto dest)
      else none
    | (_, .error _) => none
  else none

/-- RET in one lane: the PC goes to the aligned word at the stack pointer v(A), which goes up by a word (R240). -/
def retRule (o : Opnd) (s : State) (x : Exec) : Option (State × After) :=
  let sp := x.reg s o.a 0
  match s.findPlace x (spOf o.f) .read true sp with
  | (s, .ok p) => match s.readPlace x p with
    | (s, .ok w) => if w.aligned then some (x.set s o.a 0 (sp.add 3), .goto w) else none
    | (_, .error _) => none
  | (_, .error _) => none

/-- CWGET of a word that the context may name (R378). -/
def cwgetRule (o : Opnd) (s : State) (x : Exec) : Option (State × After) :=
  if sysWord (selOf o) ∧ s.sysLevel x.t.team = false then none
  else some (x.set (s.contextWord x.t.team (selOf o)).1 o.d 0 (s.contextWord x.t.team (selOf o)).2, .pass)

/-- CWSET of a word that the context may name: TVEC takes an aligned value, any other word is written as R378 says. -/
def cwsetRule (o : Opnd) (s : State) (x : Exec) : Option (State × After) :=
  let v := x.reg s o.a 0
  if sysWord (selOf o) ∧ s.sysLevel x.t.team = false then none
  else if selOf o = 0 then
    some (if v = .zero ∨ v.aligned = true then s.modTeam x.t.team (fun t => { t with tvec := v }) else s, .pass)
  else some (s.writeCw (selOf o) v (some (s.partOf x.t.team)), .pass)

/-- TLBF at system level: a shootdown starts, and the squad's threads are blocked until it completes (R379). -/
def tlbfRule (kind : Int) (page : State → Exec → Word) (s : State) (x : Exec) : Option (State × After) :=
  if s.sysLevel x.t.team then
    (s.startShoot (s.asrecOf x.t.team) kind (page s x) (some x.t)).map (fun p =>
      ((x.ts.foldl (fun s t => s.setRun t (.shoot p.2)) p.1).laterOnce (.shootdownComplete p.2), .stay))
  else none

/-- SLEEP in one lane: a limit of 1 … 3^15 cycles, an aligned address whose line may be read; the thread sleeps on the line until
its cycle (R380). -/
def sleepRule (o : Opnd) (s : State) (x : Exec) : Option (State × After) :=
  let va := x.reg s o.a 0
  let limit := (x.reg s o.b 0).val
  if 1 ≤ limit ∧ limit ≤ 14348907 ∧ va.aligned = true then
    match s.translate (s.ctxOf x.t.team) va .read false with
    | (s, .ok l) =>
      if (s.lineNow l.slot).poison then none else some (s.setRun x.t (.sleep l.slot (s.cycle + limit.toNat)), .stay)
    | (_, .error _) => none
  else none

/-- WAIT in one lane: with every ticket complete, D receives their records; else the thread blocks on the first that is not
(R202). -/
def waitRule (o : Opnd) (s : State) (x : Exec) : Option (State × After) :=
  let ts := (blockSteps o).map (fun k => (k, x.reg s o.a k))
  some (match ts.find? (fun p => s.incomplete x.t.team p.2) with
    | some p => (s.blockWait x (ticketSeq p.2), .stay)
    | none => (ts.foldl (fun s p => waitOne o x s p.1 p.2) s, .pass))

/-- The commands of one lane's block steps: each passes the checks at issue, finds room, and is entered with its ticket in D; a
command that moves nothing is complete at once (R194). -/
def issueSteps (o : Opnd) (plan : State → State → Exec → Nat → Plan) (post : State → Nat → Nat → State) (s0 : State) (x : Exec) :
    List Nat → State → Option State
  | [], s => some s
  | k :: ks, s =>
    if s.recsFull x.t.team then none
    else match plan s0 s x k with
      | .refuse _ | .hold => none
      | .null st => issueSteps o plan post s0 x ks (s.enterNull x o k st)
      | .go c =>
        if s.noEntry x.t.team c then none
        else
          let seq := match s.team? x.t.team with | some t => t.body.nseq | none => 0
          issueSteps o plan post s0 x ks (post (s.enterCmd x o k c) x.t.team seq)

/-- The issue of an engine or matrix instruction in one lane (R194, R462). -/
def issueRule (o : Opnd) (plan : State → State → Exec → Nat → Plan) (post : State → Nat → Nat → State) (s : State) (x : Exec) :
    Option (State × After) :=
  (issueSteps o plan post s x (blockSteps o) s).map (fun w => (w, .pass))

/-- A lane command of XF: every element is found and free, then each word in order takes its new value, and D its old one where
`ret` asks for it (R200). -/
def xfLaneRule (o : Opnd) (op : Int) (ret : Bool) (s : State) (x : Exec) : Option (State × After) :=
  match State.findAll (xfPlace o x) (blockSteps o) s with
  | (s, .ok ps) =>
    some ((ps.map (fun p => (p.1, p.2, x.reg s o.b p.1, x.reg s o.c p.1))).foldl
      (fun s p => xfElem o op ret x s p.1 p.2.1 p.2.2.1 p.2.2.2) s, .pass)
  | (_, .error _) => none

/-- A matrix instruction whose checks pass: one command of the elected lane, and its ticket in D of every lane (R280). -/
def mxRule (i : Instr) (o : Opnd) (xs : List Exec) (s : State) : Option (State × List (Exec × After)) :=
  match elected xs with
  | none => some (s, [])
  | some x =>
    let n := x.t.team
    if s.recsFull n then none
    else match mxPlan i o s x with
      | .refuse _ | .hold | .null _ => none
      | .go c =>
        if s.noEntry n c then none
        else
          let (s, seq) := s.takeSeq n
          let s := xs.foldl (fun s y => y.set s o.d 0 (s.ticket n seq)) s
          let s := s.modBody n (fun b => { b with cmds := b.cmds ++ [{ c with seq := seq, born := s.ncmd }] })
          some (({ s with ncmd := s.ncmd + 1 } : State).laterOnce (.scoreboardStart n seq), xs.map (fun x => (x, .pass)))

/-- MX.QRY of a tile that the team has: D of every lane is interlocked, and the query takes its place in the tile's order (R297). -/
def queryRule (o : Opnd) (xs : List Exec) (s : State) : Option (State × List (Exec × After)) :=
  match elected xs with
  | none => some (s, [])
  | some x =>
    let n := x.t.team
    if s.noTile n o.c then none
    else
      let win : Win := { reg := Exec.num o.d, val := .zero, left := 0, arrived := false, src := .query }
      let s := xs.foldl (fun s y => s.modThread y.t (fun th => { th with wins := th.wins ++ [win] })) s
      let q : Query := { after := s.ncmd, tile := o.c.toNat, clear := o.f == 1, reg := Exec.num o.d, dest := xs.map (·.t) }
      let s := s.modBody n (fun b => { b with queries := b.queries ++ [q] })
      some (({ s with ncmd := s.ncmd + 1 } : State).settleQueries n, xs.map (fun x => (x, .pass)))

/-! ### Synchronising instructions -/

/-- A rule under a mode that none of the executions violates (R329). -/
def underRule (bad : State → Exec → Bool) (r : List Exec → State → Option (State × List (Exec × After))) (xs : List Exec) (s : State) :
    Option (State × List (Exec × After)) := if xs.any (bad s) then none else r xs s

/-- LDS: the word at the home, or on the thread's lease image, goes to D (R319). -/
def ldsRule (o : Opnd) (s : State) (x : Exec) : Option (State × After) :=
  let va := syncAddr s x o
  match s.findSync x.t.team .read true va with
  | (s, .ok l) => match s.homeView x.t va l with
    | (s, .ok w) => some (x.deliver s o 0 w, .pass)
    | (_, .error _) => none
  | (_, .error _) => none

/-- STS: once its release step waits for nothing, a plain store on the thread's lease image, else a posted write at the home, with D
waiting for its serial where one is asked for (R312, R319, R332). -/
def stsRule (o : Opnd) (s : State) (x : Exec) : Option (State × After) :=
  let va := syncAddr s x o
  match s.findSync x.t.team .write true va with
  | (s, .ok l) =>
    let v := x.reg s o.b 0
    let r := if o.f = -1 ∨ o.f = -3 then s.releaseExec x o.x else (s, true)
    if r.2 then
      if (r.1.leaseOf x.t (va.num / 81)).isSome then
        let s := (r.1.irrevocable x.t.team).storeWord x.t va l v
        some (if wantsSerial o then x.set s o.d 0 imageSerial else s, .pass)
      else
        let s := (r.1.irrevocable x.t.team).synSent x.t
        let s := if wantsSerial o then s.awaitSerial x o else s
        some (s.later [.homeHw { slot := l.slot, op := .words [(wordOf va, v)],
                                 src := .sts x.t (if wantsSerial o then some (serialReg x o) else none),
                                 elig := s.eligOf x.t.team l, va := va, pin := l.pin }], .pass)
    else some (r.1, .stay)
  | (_, .error _) => none

/-- The lanes of an atomic operation, where every one passes R318. -/
def syncLanes (o : Opnd) : List Exec → State → Option (State × List AtomLane)
  | [], s => some (s, [])
  | x :: xs, s =>
    let va := x.reg s o.a 0
    match s.findSync x.t.team .readWrite true va with
    | (s, .ok l) => (syncLanes o xs s).map (fun p => (p.1,
        { x := x, va := va, at_ := l, v := x.reg s o.b 0, c := if o.c = -2 then x.reg s (o.b + 1) 0 else .zero } :: p.2))
    | (_, .error _) => none

/-- The same, once the release step of a release waits for nothing in any lane (R322). -/
def atomReady (o : Opnd) (rel : Bool) (xs : List Exec) (s : State) : Option (State × List AtomLane) :=
  (syncLanes o xs s).bind (fun p =>
    let r := p.1.releaseAll rel o.x (p.2.map (·.x))
    if r.2.2 = [] then some (r.1, p.2) else none)

/-- A list of steps, each of which must apply. -/
def eachOpt {α : Type} (g : State → α → Option State) : List α → State → Option State
  | [], s => some s
  | a :: l, s => (g s a).bind (eachOpt g l)

/-- An atomic operation on a lane's lease image, with the old value for D where `ret` asks for it (R332). -/
def atomImageRule (o : Opnd) (ret : Bool) (s : State) (a : AtomLane) : Option State :=
  match s.leaseOf a.x.t (a.va.num / 81) with
  | none => some s
  | some r =>
    if r.image.poison && ret then none
    else
      let old := wordAt r.image.w (wordOf a.va)
      let s := (s.setImage a.x.t (a.va.num / 81) (fun l => { l with w := setNth l.w (wordOf a.va) (atomOp o.c o.et o.sat old a.v a.c) })).irrevocable
        a.x.t.team
      some (if ret then a.x.deliver s o 0 old else s)

/-- One transaction at the home of a word: its lanes in ascending order, each with the old value it sees (R322, R323). -/
def atomHomeRule (o : Opnd) (s : State) (l : List AtomLane) : Option State :=
  match l with
  | [] => some s
  | a :: _ =>
    if l.any (fun b => s.pendingSyn b.x.t a.at_.slot (wordOf a.va)) then none
    else (s.homeRead a.at_.slot a.at_.pin).bind (fun p =>
      if p.2.poison then none
      else
        let r := atomRun o.c o.et o.sat (wordAt p.2.w (wordOf a.va)) l
        (p.1.homeWrite a.at_.slot (fun x => { x with w := setNth x.w (wordOf a.va) r.2 }) (p.1.eligOf a.x.t.team a.at_) a.at_.pin).map (fun q =>
          (l.zip r.1).foldl (fun s p => p.1.x.deliver s o 0 p.2) (q.1.irrevocableAll (l.map (·.x.t)))))

/-- ATOM: lanes that hold a lease act on their images, the others on one word after another at its home (R322, R332). -/
def atomRule (o : Opnd) (xs : List Exec) (s : State) : Option (State × List (Exec × After)) :=
  (atomReady o (o.f == -1 || o.f == 2) xs s).bind (fun p =>
    let held := fun (a : AtomLane) => (p.1.leaseOf a.x.t (a.va.num / 81)).isSome
    let rest := p.2.filter (fun a => !held a)
    ((eachOpt (atomImageRule o true) (p.2.filter held) p.1).bind
      (eachOpt (fun s w => atomHomeRule o s (rest.filter (fun a => a.at_.pa == w))) (atomWords rest))).map
        (fun w => (w, xs.map (fun x => (x, .pass)))))

/-- RED: on lease images at once; under DET a partial for each thread, word and kind; under FLOW one request for each word
(R322, R332, R337). -/
def redRule (o : Opnd) (xs : List Exec) (s : State) : Option (State × List (Exec × After)) :=
  (atomReady o (o.f == -1) xs s).bind (fun p =>
    let held := fun (a : AtomLane) => (p.1.leaseOf a.x.t (a.va.num / 81)).isSome
    let rest := p.2.filter (fun a => !held a)
    (eachOpt (atomImageRule o false) (p.2.filter held) p.1).map (fun s =>
      let det := rest.filter (fun a => s.det a.x.t.team)
      let flow := rest.filter (fun a => !s.det a.x.t.team)
      let s := det.foldl (fun s a => s.modBody a.x.t.team (fun b => { b with parts := addPart o b.parts a.x.t.num a.va a.at_.pa a.v })) s
      ((atomWords flow).foldl (fun s w => redHome o s (flow.filter (fun a => a.at_.pa == w))) s, xs.map (fun x => (x, .pass)))))

/-- LEASE of a line that the thread may take (R330): with no entry of the line in escrow, no publication and no write of the
thread on its way, and a free record in the core, the record is opened and the line is asked for, or the copy that the core owns is
marked leased. -/
def leaseRule (o : Opnd) (s : State) (x : Exec) : Option (State × After) :=
  let va := x.reg s o.a 0
  let d := (x.reg s o.b 0).val
  let n := x.t.team
  match s.findSync n .readWrite false va with
  | (s, .ok l) => match s.thread? x.t with
    | none => none
    | some th =>
      if 3 ≤ th.leases.length ∨ th.leases.any (fun r => va.num / 81 ≤ r.vline) = true ∨ d < 1 ∨ 729 < d
          ∨ 27 ≤ s.coreLeases (s.coreOf n) ∨ s.hasEntry n (va.num / 81) = true ∨ th.unackPub ≠ 0
          ∨ s.pendingLine x.t l.slot = true then none
      else
        let r : LeaseRec := { vline := va.num / 81, slot := l.slot, elig := l.ce && s.compress n, pin := l.pin, image := zeroLine, valid := true, count := d.toNat,
                              atHome := l.home == -1, granted := false }
        let s := s.modThread x.t (fun th => { th with run := .lease, leases := th.leases ++ [r] })
        let owned := (s.copy (s.coreOf n) l.slot).any (fun c => (c.st == .M || c.st == .E) && !c.back)
        let s := match s.copy (s.coreOf n) l.slot with
          | some c => if l.home != -1 && owned then s.putCopy { c with leased := true } else s
          | none => s
        some (s.later ((if l.home == -1 || owned then [] else [.homeRdx (s.coreOf n) { slot := l.slot, pin := l.pin }]) ++ [.leaseGrant x.t]), .stay)
  | (_, .error _) => none

/-- UNLEASE: with no record p(D) reads 0; else, once its release step waits for nothing, the image is committed where the lease
is still valid, and p(D) says whether it was (R333). -/
def unleaseRule (o : Opnd) (s : State) (x : Exec) : Option (State × After) :=
  let va := x.reg s o.a 0
  match s.leaseOf x.t (va.num / 81) with
  | none => some (x.setPred s (predNum o.d) .z, .pass)
  | some _ => match s.findSync x.t.team .readWrite false va with
    | (s, .ok _) =>
      let r := if o.f = -1 then s.releaseExec x o.x else (s, true)
      if r.2 then (r.1.leaseOf x.t (va.num / 81)).map (fun q => (endLease o r.1 x q, .pass)) else some (r.1, .stay)
    | (_, .error _) => none

/-- FENCE: each execution makes the release step of a release at the scope X, and those with something to wait for stay (R324). -/
def fenceRule (o : Opnd) (xs : List Exec) (s : State) : Option (State × List (Exec × After)) :=
  let r := s.releaseAll (o.f == -1 || o.f == 2) o.x xs
  some (r.1, r.2.1.map (fun x => (x, .pass)) ++ r.2.2.map (fun x => (x, .stay)))

/-- WACK: it passes once the thread has no unacknowledged write or publication (R324). -/
def wackRule (s : State) (x : Exec) : Option (State × After) :=
  some (if (s.thread? x.t).any (fun th => th.unackPub != 0 || th.unackSyn != 0) then (s.setRun x.t .ackAll, .stay) else (s, .pass))

/-- PUBLISH: under DET, or with no entry of its own, nothing; else the thread's entries are sent and it waits (R325). -/
def publishRule (words : List Word) (s : State) (x : Exec) : Option (State × After) :=
  let n := x.t.team
  some (if s.det n || !s.hasEntries x.t then (s, .pass)
    else (((s.irrevocable n).modThread x.t (fun th => { th with run := .ackPub, instr := words })).startPublication n
      (.thread x.t.num) (.thread x.t), .stay))

/-- BAR, CBAR and GPHASE: the threads arrive and wait; the last arrivals let the barrier's publication go (R326–R328). -/
def arriveRule (r : Run) (words : List Word) (xs : List Exec) (s : State) : Option (State × List (Exec × After)) :=
  let s := xs.foldl (fun s x => s.modThread x.t (fun th => { th with run := r, instr := words })) s
  some ((distinct (xs.map (fun x => x.t.team))).foldl (fun s n => s.settleBarrier n r) s, xs.map (fun x => (x, .stay)))

/-! ### Instructions of a team -/

/-- PART: the group register D takes the words of the partition by key or of the static one (R242). -/
def partRule (o : Opnd) (xs : List Exec) (s : State) : State :=
  match xs with
  | [] => s
  | x :: _ =>
    let takes := fun (l : Nat) => xs.any (fun y => y.t.lane == l)
    let words := if o.x = 1 then partFix (partSize o.f) (fun l => takes l || s.exited { x.t with lane := l })
      else partKey (partSize o.f) (sortBy (fun a b => a.1 ≤ b.1) (xs.map (fun y => (y.t.lane, (y.reg s o.a 0).val))))
    s.modSquad x.t.team x.t.squad (fun q => { q with groups := setNth q.groups (o.d + 3).toNat words })

/-- EXIT: the threads exit, and then what waits for them in their teams goes on (R241). -/
def exitRule (xs : List Exec) (s : State) : State :=
  let ts := (xs.map (·.ts)).flatten
  (distinct (ts.map (·.team))).foldl (fun s n => s.afterExit n) (ts.foldl (fun s t => s.exitThread t) s)

/-- REORDER: in each block step the range of registers of the team's live threads, sorted by v(A) as a signed key, stably, and v(B) the
number of the thread that each range came from; every step reads before any writes, and a thread whose guard fails is not written (R245). -/
def reorderRule (o : Opnd) (xs : List Exec) (s : State) : State :=
  match xs with
  | [] => s
  | x :: _ =>
    let live := (s.liveThreads x.t.team).map (·.1)
    let s := live.foldl (fun s t => s.modThread t (fun th => th.endWins ((blockSteps o).map (reorderRange o)).flatten)) s
    let moves := (blockSteps o).map (fun k =>
      let order := sortBy (fun a b => a.2 ≤ b.2) (live.map (fun t => (t, (s.vreg t (Exec.num o.a + k)).val)))
      (k, (live.zip (order.map (fun q => (q.1, (reorderRange o k).map (fun r => s.vreg q.1 r))))).filter
        (fun m => xs.any (fun y => y.t == m.1))))
    moves.foldl (fun s p => p.2.foldl (fun s m =>
      (((reorderRange o p.1).zip m.2.2).foldl (fun s w => s.setV m.1 w.1 w.2) s).setV m.1 (Exec.num o.b + p.1) (.ofInt (m.2.1.num : Int))) s) s

/-! ### QUANT and PAIR -/

/-- The records of a QUANT, where every one is line-aligned, unlocked, translated, free and sound (step 1 of R269). -/
def quantFind (n : Nat) : List Word → State → Option (State × List (Word × Xl))
  | [], s => some (s, [])
  | va :: l, s =>
    if va.lineAligned then
      match s.checkLock n va true, s.translate (s.ctxOf n) va .readWrite false with
      | .ok _, (s, .ok x) =>
        if s.busy x.slot then none
        else (s.homeRead x.slot x.pin).bind (fun p =>
          if p.2.poison then none else (quantFind n l p.1).map (fun q => (q.1, (va, x) :: q.2)))
      | _, _ => none
    else none

/-- The lanes of one pair of record and generation contribute to their record, and take its shift (R42–R44, R269); none where the
record's first excess traps (R44). -/
def quantPair (o : Opnd) (n : Nat) (xl : List (Word × Xl)) (p : Word × Int) (mine : List Exec) (c : Contribution) (s : State) :
    Option (State × List (Exec × Int)) :=
  (assocGet xl p.1).bind (fun x =>
    (s.homeWrite x.slot (fun l => { l with w := (quantUpdate o c l.w).1 }) (some (x.ce && s.compress n)) x.pin).bind (fun r =>
      let u := quantUpdate o c r.2.1.w
      let s := if u.2 then r.1.raise (r.1.teamEvent 14 n 1 p.1 0) else r.1
      if u.2 && trit (s.cwInt 7304) 6 == 1 then none else some (s, mine.map (fun x => (x, field (intAt u.1 10) 8 0)))))

/-- One pair after another. -/
def quantPairs (o : Opnd) (n : Nat) (xl : List (Word × Xl)) (mine : Word × Int → List Exec) (c : Word × Int → Contribution) :
    List (Word × Int) → State → Option (State × List (Exec × Int))
  | [], s => some (s, [])
  | p :: l, s => (quantPair o n xl p (mine p) (c p) s).bind (fun r =>
      (quantPairs o n xl mine c l r.1).map (fun q => (q.1, r.2 ++ q.2)))

/-- QUANT (R268, R269): every record is checked, then each pair of record and generation contributes once, and each lane converts its
elements with its record's shift, as it read its registers. -/
def quantRule (o : Opnd) (xs : List Exec) (s : State) : Option (State × List (Exec × After)) :=
  match xs with
  | [] => some (s, [])
  | x0 :: _ =>
    let n := x0.t.team
    let mine := quantMine s o xs
    (quantFind n (distinct (xs.map (fun x => x.reg s o.b 0))) s).bind (fun f =>
      (quantPairs o n f.2 mine (fun p => contribution s o p.2 (mine p)) (distinct (xs.map (quantKey s o))) (f.1.irrevocable n)).map (fun r =>
        (writeAll (quantWords o s r.2) r.1, xs.map (fun x => (x, .pass)))))

/-- The two instructions of a PAIR, in the order in which they are performed: each in the lanes where its guard holds and the first has
not ended the thread; neither traps nor waits (R169). -/
def pairRule (first second : Inner) (words : List Word) (xs : List Exec) (s : State) : Option (State × List (Exec × After)) :=
  let e := innerBody (first.e.build first.o) words s (xs.filter (fun x => x.guard s first.o))
  let e2 := innerBody (second.e.build second.o) words e.s (xs.filter (fun x => x.guard s second.o && !e.s.exited x.t))
  if e.traps = [] ∧ e.stay = [] ∧ e2.traps = [] ∧ e2.stay = [] then
    some (e2.s, (e.goto ++ e2.goto).map (fun p => (p.1, .goto p.2)))
  else none

/-! ### Traps and their handlers -/

/-- Threads of the current bundle have taken the trap of one instruction (R368–R372): each is trapped with no fault address, goes on
from `pc`, and keeps its registers; its team has queued one event for each squad that has such threads; every other thread is as `u`
has it, and no memory has changed since `s`. -/
def Trapped (s u t : State) (rs : List TRef) (cause : Nat) (detail : Int) (words : List Word) (pc : Word) : Prop :=
  (∀ r th, s.thread? r = some th → r ∈ rs → ∃ th', t.thread? r = some th' ∧ th'.run = .trapped ∧ th'.fault = .zero
      ∧ th'.regs = th.regs ∧ th'.preds = th.preds ∧ th'.pc = pc)
  ∧ (∀ r, r ∉ rs → t.thread? r = u.thread? r)
  ∧ (∀ m tm, s.team? m = some tm → ∃ tm', t.team? m = some tm' ∧ ∀ e, e ∈ tm'.events ↔ e ∈ tm.events ∨ ∃ q,
      (∃ r ∈ rs, r.team = m ∧ r.squad = q) ∧
      e = { cause := cause, detail := detail, squad := q, lanes := (rs.filter (fun r => r.team == m && r.squad == q)).map (·.lane),
            stamp := s.stampOf (s.partOf m), pc := s.cur.pc, instr := words, aux := .zero,
            faults := (rs.filter (fun r => r.team == m && r.squad == q)).map (fun r => (r.lane, .zero)) })
  ∧ { t with teams := s.teams, agenda := s.agenda } = s

/-- The current bundle is the instruction of a team's handler, which may stand there and holds back for nothing (R374). -/
def Handles (i : Instr) (o : Opnd) (fm : Form) (s : State) (n : Nat) (h : Handler) : Prop :=
  s.cur.handler = some n ∧ (s.team? n).bind (·.handler) = some h ∧ i.handlerOk = true
  ∧ s.holdsBack i fm o (s.execs o.et.scalar) = false
  ∧ ∀ x ∈ s.execs o.et.scalar, s.dynCode fm o x (s.limit8 i x.t.team) = none ∧ x.guard s o = true

/-- The one execution of a handler's instruction (R374; log entry 18). -/
def Handler.exec (h : Handler) (n : Nat) : Exec := { mode := .han, t := ⟨n, h.squad, h.ev.lanes.foldl min 26⟩, ts := [] }

/-- The handler goes on behind its instruction. -/
def State.handled (s w : State) (n : Nat) (i : Instr) : State := w.modHandler n (fun h => { h with pc := s.cur.pc.add i.trytes })

/-- A handler's instruction completes as the rule `g` says of its one execution: the handler goes on behind it, at its target, or
stays at it (R374). -/
def DoesHandled (i : Instr) (o : Opnd) (fm : Form) (g : State → Exec → Option (State × After)) : Prop :=
  ∀ s n h w a, Handles i o fm s n h → g s (h.exec n) = some (w, a) →
    exec i s = .next (match a with
      | .pass => s.handled w n i
      | .goto dest => w.modHandler n (fun h => { h with pc := dest })
      | .stay => w)

/-- The threads of a bundle that carry the instruction out trap with cause 17, at its own address, and the others pass it (R369). -/
def TrapsPrivilege (i : Instr) (o : Opnd) (fm : Form) (detail : Int) (denied : State → Exec → Prop) : Prop :=
  ∀ s, Issues i o fm s → (∀ r ∈ s.cur.threads, ∀ th, s.thread? r = some th → th.pc = s.cur.pc) → (∀ x ∈ s.runs o, denied s x) →
    ∃ t, exec i s = .next t ∧ Trapped s (s.completed s i o.et.scalar) t ((s.runs o).flatMap (·.ts)) 17 detail
      ((encode i).getD []) s.cur.pc

/-- The team of an execution is at user level. -/
def atUser (s : State) (x : Exec) : Prop := s.sysLevel x.t.team = false

/-! ### What events do to threads -/

/-- The register result `v` of number `reg` lands in a thread, which is otherwise as before, but for registers with results that were
due already. -/
def Lands (th th' : Thread) (reg : Nat) (v : Word) : Prop :=
  (reg < th.regs.length → wordAt th'.regs reg = v)
  ∧ (∀ n, (∀ w ∈ th.wins, w.reg ≠ n) → wordAt th'.regs n = wordAt th.regs n)
  ∧ th'.pc = th.pc ∧ th'.run = th.run ∧ th'.preds = th.preds ∧ th'.leases = th.leases

/-- A blocked thread goes on behind the instruction whose words it holds (R155). -/
def GoesOn (th th' : Thread) : Prop := th'.run = .ready ∧ th'.pc = th.pc.add (3 * (th.instr.length : Int)) ∧ th'.preds = th.preds

/-- The entries of an escrow line that belong to a set, or those that do not (R306). -/
def ELine.part (e : ELine) (set : PubSet) (keep : Bool) : ELine :=
  { e with words := e.words.filter (fun u => PubSetHas set e.vline u == keep) }

/-- A bundle of a convergence point of a whole team (R348). -/
def State.wholeTeam (s : State) (b : Bundle) : Bool :=
  (b.threads.head?).any (fun t => (s.instrAt b.core t.team b.pc).any (fun i => decide (i.scope = .team)))

/-- The slots of a kind that a bundle takes (R351). -/
def State.slotOf (s : State) (b : Bundle) (i : Nat) : Nat := ((s.bundleSlots b).getD []).getD i 0

/-- A graph slot that has been armed and has not released a node (R354). -/
def State.armed (s : State) (g : Nat) : State :=
  let x := (s.graph? g).getD { slot := g, counts := [], running := [], pending := [], ending := false, work := [], watch := [] }
  let x := { x with counts := [], pending := [], ending := false, old := x.running }
  { s.setCwInt (731 + 3 * g) 1 with graphs := insertBy (fun a b => a.slot ≤ b.slot) x (s.graphs.filter (fun y => y.slot != g)) }

/-- A node is released with the words that the walker has read: it runs, and its step is pending (R359). -/
def State.released (s : State) (g i : Nat) (l : List Word) : State :=
  (({ s with nrel := s.nrel + 1 } : State).modGraph g (fun x => { x with
    running := x.running ++ [i], lines := natPut x.lines i l, rels := natPut x.rels i s.nrel,
    ending := intAt l 0 == -4 })).later [nodeStep g i (intAt l 0)]

/-- A line of a slice that no transaction and no lease holds. -/
def State.idle (s : State) (slot : Nat) (v : VLine) : Prop := s.vl slot = some v ∧ v.txn = none ∧ v.leased = false

/-- Only the named parts of the pending work and the answers to hosts have changed. -/
def OnlyAnswers (s t : State) : Prop := { t with agenda := s.agenda, answers := s.answers, shellLog := s.shellLog } = s

/-! ### Completion and frame -/

/-- Every thread of the bundle stands behind the instruction and runs (R155, R160). -/
def PassedBy (i : Instr) (s t : State) : Prop :=
  ∀ r ∈ s.cur.threads, ∃ th, t.thread? r = some th ∧ th.pc = s.cur.pc.add i.trytes ∧ th.run = .ready

/-- Nothing outside the squads of teams has changed: no memory, no cache, no cabinet, no control word, no other unit. -/
def OnlySquads (s t : State) : Prop :=
  { t with teams := s.teams } = s ∧ ∀ m, (t.team? m).map (fun u => { u with body := { u.body with squads := [] } })
    = (s.team? m).map (fun u => { u with body := { u.body with squads := [] } })

/-- What is left of a squad without its threads and its normal bank. -/
def Squad.rest (q : Squad) : Squad := { q with threads := [], kb := [] }

/-- Of the squads, only threads and the normal bank have changed, and of threads only those of the bundle; these keep what a
register instruction never writes (R160). -/
def OnlyThreads (s t : State) : Prop :=
  OnlySquads s t ∧ (∀ m p, (t.squad? m p).map Squad.rest = (s.squad? m p).map Squad.rest)
  ∧ (∀ r, r ∉ s.cur.threads → t.thread? r = s.thread? r)
  ∧ ∀ r th th', s.thread? r = some th → t.thread? r = some th' → th'.run = th.run ∧ th'.age = th.age ∧ th'.leases = th.leases
      ∧ th'.fault = th.fault ∧ th'.unackPub = th.unackPub ∧ th'.unackSyn = th.unackSyn ∧ th'.regs.length = th.regs.length

/-- The instruction completes and writes, in each execution whose guard holds, the words that `f` gives to D and the registers
behind it, and nothing else but the PC: every other register, every predicate and everything outside the bundle's threads and
squads is as before. -/
def Writes (i : Instr) (o : Opnd) (fm : Form) (f : State → Exec → Nat → List Word) : Prop :=
  ∀ s, Issues i o fm s → ∃ t, exec i s = .next t ∧ PassedBy i s t ∧ OnlyThreads s t
    ∧ (∀ x ∈ s.execs o.et.scalar, ∀ n, s.settled x n →
        x.cell t n = if x ∈ s.runs o then (lastOut (x.outs s o f) n).getD (x.cell s n) else x.cell s n)
    ∧ (∀ r n, t.pred r n = s.pred r n)
    ∧ (o.et.scalar = true → ∀ r th, s.thread? r = some th → th.wins = [] → ∀ n, t.vreg r n = s.vreg r n)
    ∧ (o.et.scalar = false → ∀ m p k, t.kreg m p false k = s.kreg m p false k)

/-- Each element of D is a function of the same element of A (R20). -/
def MapsA (i : Instr) (o : Opnd) (fm : Form) (f : Int → Int) : Prop :=
  Writes i o fm (fun s x k => [mapElems o.et (fun l => f (l.getD 0 0)) [x.srcA s o k]])

/-- Each element of D is a function of the same elements of A and of the second operand: register B, word 3, or where `imm`
holds the immediate of F = + (R20, R211). -/
def MapsAB (i : Instr) (o : Opnd) (fm : Form) (imm : Bool) (f : Int → Int → Int) : Prop :=
  Writes i o fm (fun s x k => [mapElems o.et (fun l => f (l.getD 0 0) (l.getD 1 0)) [x.srcA s o k, x.srcB s o imm k]])

/-- Each element of D is a function of the same elements of A, of B or word 3, and of register C (R20). -/
def MapsABC (i : Instr) (o : Opnd) (fm : Form) (f : Int → Int → Int → Int) : Prop :=
  Writes i o fm (fun s x k => [mapElems o.et (fun l => f (l.getD 0 0) (l.getD 1 0) (l.getD 2 0))
    [x.srcA s o k, x.srcB s o false k, x.srcC s o k]])

/-- The same for an instruction that writes the predicate D: each thread whose guard holds receives the trit that `f` gives its
execution, p0 keeps reading +, and no register changes (R141). -/
def WritesPred (i : Instr) (o : Opnd) (fm : Form) (f : State → Exec → Trit) : Prop :=
  ∀ s, Issues i o fm s → ∃ t, exec i s = .next t ∧ PassedBy i s t ∧ OnlyThreads s t
    ∧ (∀ x ∈ s.execs o.et.scalar, ∀ r ∈ x.ts, ∀ n, t.pred r n =
        if x ∈ s.runs o ∧ n = predNum o.d ∧ n ≠ 0 then f s x else s.pred r n)
    ∧ (∀ r th, s.thread? r = some th → th.wins = [] → ∀ n, t.vreg r n = s.vreg r n)
    ∧ (∀ m p b k, t.kreg m p b k = s.kreg m p b k)

end Sys2Proof.Machine
end

