-- ==== Sys2Proof/WellFormed.lean ====
section
/-! DEFINITION. Well-formed instructions: the terms of `Instr` that some words spell (R155–R173). -/

namespace Sys2Proof

/-- The opcode lies in its field and is no PAIR's (R158, R167). -/
def WellFormed.opcode (op : Int) : Bool := -121 ≤ op && op ≤ 121 && op != 15

/-- The operands lie in their fields, F and X select an instruction, and its form allows them (R144–R165). -/
def WellFormed.operands (op : Int) (o : Opnd) : Bool :=
  o.encodable op && (match lookup op o.f o.x with | some e => e.legal o | none => false)

/-- F and X select this instruction and no other of the same opcode. -/
def WellFormed.selects (op : Int) (o : Opnd) (i : Instr) : Bool :=
  match lookup op o.f o.x with
  | some e => e.build o == i
  | none => false

/-- An inner instruction of a PAIR: a one-word form, with any L trit, for a wrong L is decoded and trapped (R167). -/
def WellFormed.inner (op : Int) (o : Opnd) (l : Int) : Bool :=
  WellFormed.opcode op && WellFormed.operands op o && o.len == 1 && -1 ≤ l && l ≤ 1

/-- An instruction that some words spell; an event is none. -/
def Instr.wellFormed (i : Instr) : Bool :=
  match i with
  | .pair op1 o1 l1 op2 o2 l2 => WellFormed.inner op1 o1 l1 && WellFormed.inner op2 o2 l2
  | i =>
    match i.parts with
    | some (op, o) => WellFormed.opcode op && WellFormed.operands op o && WellFormed.selects op o i
    | none => false

end Sys2Proof
end

