-- ==== Sys2Proof/Certificates/Slice0/Obligations.lean ====
section
/-! DEFINITION. The statements about the machine, for the provers. -/

open Sys2Proof Sys2Proof.Machine

/-! ### Register instructions: result, completion and frame (R160, R215–R272) -/

/-- ADD, SUB, NEG, ABS, SGN, MUL, MULH and MAD complete and write what R215 and R216 give each element, narrowed to its type by
wrap or saturation; nothing else changes but the PC. -/
def Obligations.IntegerArithmetic : Prop := ∀ o : Opnd,
  MapsAB (.add o) o (binary true o) true (fun a b => narrow o.et.width o.sat (a + b))
  ∧ MapsAB (.sub o) o (binary true o) true (fun a b => narrow o.et.width o.sat (a - b))
  ∧ MapsA (.neg o) o unary (fun a => -a)
  ∧ MapsA (.abs o) o unary (fun a => a.natAbs)
  ∧ MapsA (.sgn o) o unary (fun a => if a < 0 then -1 else if a = 0 then 0 else 1)
  ∧ MapsAB (.mul o) o (binary true o) true (fun a b => narrow o.et.width o.sat (a * b))
  ∧ MapsAB (.mulh o) o (binary false o) true (fun a b => (a * b - wrap o.et.width (a * b)) / ((3 ^ o.et.width : Nat) : Int))
  ∧ MapsABC (.mad o) o (ternary true) (fun a b m => narrow o.et.width o.sat (a * b + m))

/-- DIV rounds the exact quotient to the nearest integer q, a tie going to the neighbour whose trit [0] is 0, and if neither has one to
that of smaller magnitude; it gives 0 for a zero divisor. MOD gives a − b × q, so that |MOD| ≤ |b| / 2, and a for a zero divisor (R217).
MIN, MAX and CLAMP compare as integers (R215). Nothing else changes but the PC. -/
def Obligations.IntegerQuotientsAndBounds : Prop := ∀ o : Opnd,
  MapsAB (.div o) o (binary false o) true (fun a b => if b = 0 then 0 else divNearest a b)
  ∧ MapsAB (.mod o) o (binary false o) true (fun a b => a - b * (if b = 0 then 0 else divNearest a b))
  ∧ MapsAB (.min o) o (binary false o) true (fun a b => if a ≤ b then a else b)
  ∧ MapsAB (.max o) o (binary false o) true (fun a b => if a ≤ b then b else a)
  ∧ MapsABC (.clamp o) o (ternary false) (fun a b m => min (max a b) m)
  ∧ ∀ a b q : Int, b ≠ 0 → q = divNearest a b → 2 * (a - b * q).natAbs ≤ b.natAbs
    ∧ (2 * (a - b * q).natAbs = b.natAbs → trit q 0 = 0
      ∨ ∀ r : Int, 2 * (a - b * r).natAbs = b.natAbs → trit r 0 ≠ 0 ∧ q.natAbs ≤ r.natAbs)

/-- SHL, SHR and ROT shift and rotate trits by the second operand (R218), and TMIN, TMAX, TSUM, TCON, TMAP, TCNT and TLZ work
trit by trit (R219, R220); nothing else changes but the PC. -/
def Obligations.ShiftsAndTrits : Prop := ∀ o : Opnd,
  MapsAB (.shl o) o (binary true o) true (fun a k => narrow o.et.width o.sat (shiftExact o.et.width a k))
  ∧ MapsAB (.shr o) o (binary true o) true (fun a k => narrow o.et.width o.sat (shiftExact o.et.width a (-k)))
  ∧ MapsAB (.rot o) o (binary false o) true (fun a k => rotTrits o.et.width (k % (o.et.width : Int)).toNat a)
  ∧ MapsAB (.tmin o) o (binary false o) true (fun a b => zipTrits o.et.width min a b)
  ∧ MapsAB (.tmax o) o (binary false o) true (fun a b => zipTrits o.et.width max a b)
  ∧ MapsAB (.tsum o) o (binary false o) true (fun a b => zipTrits o.et.width (fun x y => wrap 1 (x + y)) a b)
  ∧ MapsAB (.tcon o) o (binary false o) true (fun a b => zipTrits o.et.width (fun x y => if x = y then x else 0) a b)
  ∧ MapsA (.tmap o) o (tmapForm o) (mapTrits o.et.width (fun t => trit o.c (t + 1).toNat))
  ∧ MapsA (.tcnt o) o unary (fun a => wrap o.et.width ((trits o.et.width a).count o.f))
  ∧ MapsA (.tlz o) o unary (fun a => ((o.et.width - tlen a : Nat) : Int))

/-- TEXT and TINS move a field of trits, PACK, UNPACK and BSUM move between words and sub-elements (R221, R226, R227); nothing else
changes but the PC. Where a packed float rests just above 0.5 × 3^E (R30) is the model's choice, log entry 39. -/
def Obligations.FieldsAndSubElements : Prop := ∀ o : Opnd,
  Writes (.text o) o (textForm o false)
    (fun s x k => [.ofInt (textOf (x.srcA s o k).val (x.srcB s o false k).val o.c.toNat)])
  ∧ Writes (.tins o) o (textForm o true)
    (fun s x k => [.ofInt (tinsOf (x.reg s o.d k).val (x.srcA s o k).val (x.srcB s o false k).val o.c.toNat)])
  ∧ Writes (.pack o) o (ternary true) (fun s x k =>
    [.ofInt (ofSubs (packElem o (x.srcA s o k)) (packElem o (x.srcB s o false k)) (packElem o (x.srcC s o k)))])
  ∧ Writes (.unpack o) o unary (fun s x k =>
    [.ofInt (if o.et = .t9 then sub9 (x.srcA s o k).val o.x.toNat else widen9 (sub9 (x.srcA s o k).val o.x.toNat))])
  ∧ Writes (.bsum o) o unary (fun s x k => [.ofInt (bsumOf o.et (x.srcA s o k).val)])

/-- SEL, MOV, MOV.BC, MOV.K and MOVI move words unchanged, and IDX and FEAT deliver the thread's and the device's descriptors
(R223–R225, R228, R247); nothing else changes but the PC. -/
def Obligations.Movement : Prop := ∀ o : Opnd,
  Writes (.sel o) o (ternary false) (fun s x k =>
    [match x.pred s (predNum o.f) with | .p => x.srcA s o k | .z => x.srcB s o false k | .m => x.srcC s o k])
  ∧ Writes (.mov o) o unary (fun s x k => [x.srcA s o k])
  ∧ Writes (.movBc o) o { d := .r, a := .k } (fun s x _ => [s.kreg x.t.team x.t.squad (x.mode == .han) (Exec.num o.a)])
  ∧ Writes (.movK o) o { d := .k, a := .v } (fun s x k => [if x.mode = .han then x.reg s o.a k else s.vreg x.t (Exec.num o.a)])
  ∧ Writes (.movi o) o (moviForm o) (fun _ _ _ => [if o.len = 3 then o.w3 else immWord o.et o.c])
  ∧ Writes (.idx o) o (idxForm o) (fun s x _ => [.ofInt (idxOf s x o)])
  ∧ Writes (.feat o) o { d := .r, c := .i } (fun s x _ => [s.feature (s.partOf x.t.team) o.c])

/-- CMP and FCMP write the sign of the exact difference into the predicate D (R222, R255), TKT the state of a ticket (R203), and VOTE
any and all the greatest and the least of a group's predicates (R233); no register changes. -/
def Obligations.Predicates : Prop := ∀ o : Opnd,
  WritesPred (.cmp o) o (cmpForm o) (fun s x => .ofInt (cmpElem o (x.srcA s o 0) - cmpElem o (x.srcB s o true 0)))
  ∧ WritesPred (.fcmp o) o (fcmpForm o) (fun s x =>
      fcmpTrit o.f (fval o.et (cmpElem o (x.srcA s o 0))) (fval o.et (cmpElem o (x.srcB s o false 0))))
  ∧ WritesPred (.tkt o) o { d := .p, a := .v } (fun s x => s.ticketTrit x.t.team (x.reg s o.a 0))
  ∧ (o.f = 1 → WritesPred (.vote o) o (voteForm o) (fun s x =>
      .ofInt (((s.contrib x.t o.gr (fun t => (s.pred t (predNum o.a)).val)).map (·.2)).foldl max (-1))))
  ∧ (o.f = -1 → WritesPred (.vote o) o (voteForm o) (fun s x =>
      .ofInt (((s.contrib x.t o.gr (fun t => (s.pred t (predNum o.a)).val)).map (·.2)).foldl min 1)))

/-- TRX, VOTE ballot, GRED, GSCAN and HIST give each lane the collective of its group over the members that have not exited (R231–R235);
nothing else changes but the PC. The model's choices in it: log entry 37; where a float rests just above 0.5 × 3^E (R30), log entry 39. -/
def Obligations.GroupCollectives : Prop := ∀ o : Opnd,
  Writes (.trx o) o { d := .v, a := .v, gr := true } (fun s x k =>
    [.ofInt (ofTrits ((List.range 27).map (fun j => if j < s.mySize x.t o.gr then
        (assocGet (s.contrib x.t o.gr (fun t => trit (s.vreg t (Exec.num o.a + k)).val (s.myPos x.t o.gr))) j).getD 0
      else trit (x.reg s o.a k).val j)))])
  ∧ (o.f = 0 → Writes (.vote o) o (voteForm o) (fun s x _ =>
    [.ofInt (ofTrits ((List.range 27).map (fun j =>
      (assocGet (s.contrib x.t o.gr (fun t => (s.pred t (predNum o.a)).val)) j).getD 0)))]))
  ∧ Writes (.gred o) o (gredForm o) (fun s x k => [s.groupReduce x o k (fun _ => true)])
  ∧ Writes (.gscan o) o (gredForm o) (fun s x k =>
    [s.groupReduce x o k (fun p => if o.x = 0 then p ≤ s.myPos x.t o.gr else p < s.myPos x.t o.gr)])
  ∧ Writes (.hist o) o (histForm o) (fun s x k =>
    let hit := ((s.groupLanes x.t o.gr).filter (fun p => !s.exited { x.t with lane := p.1 })).filter
      (fun p => (s.vreg { x.t with lane := p.1 } (Exec.num o.a + k)).val == (s.myPos x.t o.gr : Int))
    [if o.f = 0 then .ofInt (hit.length : Int)
     else .ofInt (narrow 27 o.sat ((hit.map (fun p => (s.vreg { x.t with lane := p.1 } (Exec.num o.b + k)).val)).sum))])

/-- FADD, FSUB, FMUL, FFMA, FADD3 and FDOT3 round the exact value once (R30, R252, R253); nothing else changes but the PC. FMIN, FMAX,
FABS, FCLASS, FSCL, FXP and FRND (R254, R256, R257) complete; nothing else changes but D and the PC. Where a value rests just above
0.5 × 3^E (R30) is the model's choice, log entry 39. -/
def Obligations.FloatInstructions : Prop := ∀ o : Opnd,
  MapsAB (.fadd o) o (plain true) false (fun a b => fput o ((fval o.et a).add (fval o.et b)))
  ∧ MapsAB (.fsub o) o (plain true) false (fun a b => fput o ((fval o.et a).add (fval o.et b).neg))
  ∧ MapsAB (.fmul o) o (plain true) false (fun a b => fput o ((fval o.et a).mul (fval o.et b)))
  ∧ MapsABC (.ffma o) o (ternary true) (fun a b m => fput o (((fval o.et a).mul (fval o.et b)).add (fval o.et m)))
  ∧ MapsABC (.fadd3 o) o (ternary true) (fun a b m => fput o (FVal.sum [fval o.et a, fval o.et b, fval o.et m]))
  ∧ Writes (.fdot3 o) o (fdot3Form o) (fun s x k =>
    [.ofInt (tf27F.deliver o.sat .tern (FVal.sum (fdotTerms s x o k ++ (if o.f = 1 then [tf27F.decode (x.srcC s o k).val] else []))))])
  ∧ MapsAB (.fmin o) o (plain false) false (fun a b => fput o ((fval o.et a).min (fval o.et b)))
  ∧ MapsAB (.fmax o) o (plain false) false (fun a b => fput o ((fval o.et a).max (fval o.et b)))
  ∧ MapsA (.fabs o) o unary (fun a => fput o (fval o.et a).abs)
  ∧ MapsA (.fclass o) o unary (classCode (fmtOf o.et))
  ∧ MapsAB (.fscl o) o (binary true o) true (fun a k => fput o ((fval o.et a).scale3 (clampScale k)))
  ∧ MapsA (.fxp o) o unary (fxpOf o)
  ∧ MapsA (.frnd o) o unary (fun a => fput o (frndOf o.f (fval o.et a)))

/-- CVT, CVTB, CVTF and DQUANT convert each element into the registers from D on (R263–R267, R271), DRAW delivers a counter-based random
word (R272), and STAMP the two words of the partition's stamp (R248); nothing else changes but the PC. The model's choices in it, log entry
39: the zero of negative sign that CVTB gives a negative ternary value that underflows (R36 and R38 are silent), and where a value rests
just above 0.5 × 3^E (R30, R36). Where D's registers of two elements overlap, the later stands, log entry 63. -/
def Obligations.Conversions : Prop := ∀ o : Opnd,
  Writes (.cvt o) o (cvtForm o) (fun s x k => destWords (cvtTarget o.x) (cvtPer o.x)
    ((List.range (max o.et.per (cvtPer o.x))).map (fun j =>
      cvtElem o (convMode s x o k j .tern) (x.elemOf s o.a k o.et o.et.per j))))
  ∧ Writes (.cvtb o) o (cvtbForm o) (fun s x k => destWords .t27 1
    ((List.range (max (if trit o.f 0 = 1 then 1 else o.et.per) 1)).map (fun j =>
      cvtbElem o (convMode s x o k j .bin) (x.elemOf s o.a k o.et (if trit o.f 0 = 1 then 1 else o.et.per) j))))
  ∧ Writes (.cvtf o) o (convert o 1 o.et.per true) (fun s x k => destWords o.et o.et.per
    ((List.range (max 1 o.et.per)).map (fun j => cvtfElem o (convMode s x o k j .bin) (x.elemOf s o.a k .t27 1 j))))
  ∧ Writes (.dquant o) o (dquantForm o) (fun s x k =>
    let dst := if o.x = 0 then ETy.tf27 else .tf9
    destWords dst (if o.x = 0 then 1 else 3) ((List.range (max o.et.per (if o.x = 0 then 1 else 3))).map (fun j =>
      (fmtOf dst).deliver o.sat .tern ((ternVal o.et (elemAt o.et (x.src s o o.ma (o.a + ((j / o.et.per : Nat) : Int)) k).val
        (j % o.et.per))).scale3 (clampScale (-(if o.f = 0 then (x.reg s o.b k).val else o.c)))))))
  ∧ Writes (.draw o) o { d := .v, a := .v, b := .v } (fun s x k =>
    [.ofInt (drawOf [(x.reg s o.a k).val, idxOf s x { o with f := 3, x := 0 }, idxOf s x { o with f := 3, x := 1 },
      idxOf s x { o with f := 3, x := 2 }, x.t.num] (x.reg s o.b k).val)])
  ∧ Writes (.stamp o) o { d := .v, moreV := [o.d + 1] } (fun s x _ =>
    [lowWord (s.stampOf (s.partOf x.t.team)), highWord (s.stampOf (s.partOf x.t.team))])

/-! ### Other instructions: the next state they answer (R183–R334, R376–R380) -/

/-- LGET and LPUT reach a register, a predicate or a k register of a chosen lane (R229, R230). -/
def Obligations.LaneAccess : Prop := ∀ o : Opnd,
  Does (.lget o) o { d := .k, a := .k, b := .k } (eachDo (lgetRule o))
  ∧ Does (.lput o) o { d := .k, a := .k, b := .k, dRead := true } (eachDo (lputRule o))

/-- The nine special functions open an interlock on D with the correctly rounded result and queue it, where the core's queue of 81 entries
has room (R258–R260). The model's choices in it: log entry 34. -/
def Obligations.SpecialFunctions : Prop := ∀ o : Opnd,
  Does (.rcp o) o sfuForm (sfuRule o .rcp) ∧ Does (.rsq o) o sfuForm (sfuRule o .rsq) ∧ Does (.sqrt o) o sfuForm (sfuRule o .sqrt)
  ∧ Does (.exp o) o sfuForm (sfuRule o .exp) ∧ Does (.log o) o sfuForm (sfuRule o .log) ∧ Does (.sin o) o sfuForm (sfuRule o .sin)
  ∧ Does (.cos o) o sfuForm (sfuRule o .cos) ∧ Does (.tanh o) o sfuForm (sfuRule o .tanh) ∧ Does (.sigm o) o sfuForm (sfuRule o .sigm)

/-- LD and LDX deliver what each lane sees at its effective address, word or tryte, in global memory, its cabinet or the crew's (R183–R191,
R302). The model's choices in it: log entries 4, 5 and 40. -/
def Obligations.Loads : Prop := ∀ o : Opnd,
  Does (.ld o) o (ldForm o) (eachDo (loadRule o (o.x == 1) (ldPlace o .read)))
  ∧ Does (.ldx o) o ldxForm (eachDo (loadRule o false (ldxPlace o .read)))

/-- ST, STX and CLINE.zero store into the team's escrow, the thread's lease image or a cabinet at the addresses that `ldPlace` and
`ldxPlace` compute (R183–R193, R301, R332). The model's choices in it: log entries 5, 6 and 40. -/
def Obligations.Stores : Prop := ∀ o : Opnd,
  Does (.st o) o (stForm o) (eachDo (storeRule o (o.x == 1) (ldPlace o .write)))
  ∧ Does (.stx o) o stxForm (eachDo (storeRule o false (ldxPlace o .write)))
  ∧ Does (.clineZero o) o (lineForm o) (eachDo (zeroRule o))

/-- PREF, PREF.home and CLINE.evict ask for a line or give it back, the last only with the right to write (R73), and change no register
and no word of memory, the AD trit of a translation among them (R192, R193). The model's choices in it: a walk makes them wait, log
entry 5; no AD trit is updated, and a leased copy stays, log entry 42. -/
def Obligations.PrefetchAndEvict : Prop := ∀ o : Opnd,
  Does (.pref o) o (lineForm o) (eachDo (prefRule o)) ∧ WritesNothing (.pref o) o (lineForm o)
  ∧ Does (.prefHome o) o (lineForm o) (eachDo (prefHomeRule o)) ∧ WritesNothing (.prefHome o) o (lineForm o)
  ∧ Does (.clineEvict o) o (lineForm o) (eachDo (evictRule o)) ∧ WritesNothing (.clineEvict o) o (lineForm o)

/-- BR, BR3 and BRM go to the word offset of the condition that holds, JMP and JMPR to an aligned address (R236–R239). CALL and CALLR push
the return address and RET pops one, through the stack pointer register (R240). -/
def Obligations.TransfersAndCalls : Prop := ∀ o : Opnd,
  Does (.br o) o { c := .i } (eachDo (fun s _ => some (s, .goto (s.cur.pc.add (3 * (if o.len = 3 then o.w3.val else o.c))))))
  ∧ Does (.br3 o) o { a := .p } (eachDo (fun s x => some (s, match x.pred s (predNum o.a) with
      | .m => .goto (s.cur.pc.add (3 * field o.w3.val 13 0))
      | .z => .pass
      | .p => .goto (s.cur.pc.add (3 * field o.w3.val 26 14)))))
  ∧ Does (.brm o) o (brmForm o) (eachDo (fun s x => some (s,
      match (brmPairs o).find? (fun p => codeHolds p.2.1 (x.pred s (predNum p.1)).val) with
      | some p => .goto (s.cur.pc.add (3 * p.2.2))
      | none => .pass)))
  ∧ Does (.jmp o) o (jmpForm o) (eachDo (jumpRule (fun s x => if o.len = 3 then o.w3 else (x.reg s o.a 0).add o.c)))
  ∧ Does (.jmpr o) o { a := .v } (eachDo (jumpRule (fun s x => x.reg s o.a 0)))
  ∧ Does (.call o) o { d := .v, c := .i, dRead := true }
    (eachDo (callRule o (3 * o.len) (fun s _ => s.cur.pc.add (3 * (if o.len = 3 then o.w3.val else o.c)))))
  ∧ Does (.callr o) o { d := .v, a := .v, dRead := true } (eachDo (callRule o 3 (fun s x => x.reg s o.a 0)))
  ∧ Does (.ret o) o { a := .v, aWrite := true } (eachDo (retRule o))

/-- NOP and GWAIT only advance the PC, YIELD sets the thread's age to the current cycle, PART writes one group register, EXIT ends the
threads and REORDER sorts a range of registers over the team (R241–R246). The model's choices in it: log entries 19 and 37. -/
def Obligations.ThreadControl : Prop := ∀ o : Opnd,
  Does (.nop o) o {} (passAll (fun _ s => s))
  ∧ Does (.gwait o) o { gr := true } (passAll (fun _ s => s))
  ∧ Does (.yield o) o {} (passAll (fun xs s => (xs.flatMap (·.ts)).foldl (fun s t => s.modThread t (fun th => { th with age := s.cycle })) s))
  ∧ Does (.part o) o (partForm o) (passAll (partRule o))
  ∧ Does (.exit o) o {} (passAll exitRule)
  ∧ Does (.reorder o) o (reorderForm o) (passAll (reorderRule o))

/-- CWGET and CWSET read and write control words (R378), and TLBF starts a shootdown and blocks the squad (R379); at user level a word of
system access and TLBF trap with cause 17, detail +2, and outside a handler TRET and TPC with detail +1 (R369). SLEEP puts a thread to
sleep on a line (R380). The model's choices in it: RFBD, log entry 30; when SLEEP's translation is made, log entry 5. -/
def Obligations.SystemInstructions : Prop := ∀ o : Opnd,
  Does (.cwget o) o { d := .k, c := .i } (eachDo (cwgetRule o)) ∧ Does (.cwset o) o { a := .k, c := .i } (eachDo (cwsetRule o))
  ∧ Does (.tlbfPage o) o { a := .k } (eachDo (tlbfRule 1 (fun s x => x.reg s o.a 0)))
  ∧ Does (.tlbfAs o) o {} (eachDo (tlbfRule 2 (fun _ _ => .zero)))
  ∧ Does (.tlbfAll o) o {} (eachDo (tlbfRule 3 (fun _ _ => .zero)))
  ∧ Does (.sleep o) o { a := .v, b := .v } (eachDo (sleepRule o))
  ∧ (sysWord (selOf o) = true → TrapsPrivilege (.cwget o) o { d := .k, c := .i } 2 atUser
    ∧ TrapsPrivilege (.cwset o) o { a := .k, c := .i } 2 atUser)
  ∧ TrapsPrivilege (.tlbfPage o) o { a := .k } 2 atUser ∧ TrapsPrivilege (.tlbfAs o) o {} 2 atUser
  ∧ TrapsPrivilege (.tlbfAll o) o {} 2 atUser
  ∧ TrapsPrivilege (.tret o) o { guard := false } 1 (fun _ _ => True) ∧ TrapsPrivilege (.tpcSet o) o (tpcForm true) 1 (fun _ _ => True)
  ∧ TrapsPrivilege (.tpcAdv o) o (tpcForm true) 1 (fun _ _ => True) ∧ TrapsPrivilege (.tpcExit o) o (tpcForm false) 1 (fun _ _ => True)

/-- WAIT delivers the records of complete tickets and blocks on the first that is not (R202). -/
def Obligations.WaitForTickets : Prop := ∀ o : Opnd, Does (.wait o) o (waitForm o) (eachDo (waitRule o))

/-- The five copy instructions check their descriptor, give D a ticket and enter a command, lane after lane (R194–R197). The model's choices
in it: log entries 24 and 26. -/
def Obligations.CopyIssue : Prop := ∀ o : Opnd,
  Does (.copyIn o) o copyForm (eachDo (issueRule o (copyPlan (.copyIn o) o .cin) (fun s _ _ => s)))
  ∧ Does (.copyOut o) o copyForm (eachDo (issueRule o (copyPlan (.copyOut o) o .cout) (fun s _ _ => s)))
  ∧ Does (.copyBin o) o copyForm (eachDo (issueRule o (copyPlan (.copyBin o) o .bin) (fun s _ _ => s)))
  ∧ Does (.copyPeer o) o copyForm (eachDo (issueRule o (copyPlan (.copyPeer o) o .peer) (fun s _ _ => s)))
  ∧ Does (.copyCab o) o copyForm (eachDo (issueRule o (copyPlan (.copyCab o) o .cab) (fun s _ _ => s)))

/-- The seven range commands of the tellers check their range, give D a ticket and enter a command (R198, R199). The model's choices in it:
log entry 40. -/
def Obligations.RangeTellerIssue : Prop := ∀ o : Opnd,
  Does (.xfNeg o) o (xfForm .z false) (eachDo (issueRule o (xfPlan (.xfNeg o) o) (fun s _ _ => s)))
  ∧ Does (.xfShift o) o { xfForm .i true with extra := -26 ≤ o.c && o.c ≤ 26 } (eachDo (issueRule o (xfPlan (.xfShift o) o) (fun s _ _ => s)))
  ∧ Does (.xfZero o) o (xfForm .z false) (eachDo (issueRule o (xfPlan (.xfZero o) o) (fun s _ _ => s)))
  ∧ Does (.xfFill o) o (xfForm .v false) (eachDo (issueRule o (xfPlan (.xfFill o) o) (fun s _ _ => s)))
  ∧ Does (.xfClamp o) o { xfForm .v false with moreV := [o.c + 1] } (eachDo (issueRule o (xfPlan (.xfClamp o) o) (fun s _ _ => s)))
  ∧ Does (.xfCvt o) o (xfForm .z true) (eachDo (issueRule o (xfPlan (.xfCvt o) o) (fun s _ _ => s)))
  ∧ Does (.xfRq o) o (xfForm .i true) (eachDo (issueRule o (xfPlan (.xfRq o) o) (fun s _ _ => s)))

/-- The seven lane commands of the tellers act on one cabinet word for each lane, and all but XF.ACC return its old value (R200). Where a
float sum rests just above 0.5 × 3^E (R30) is the model's choice, log entry 39. -/
def Obligations.LaneTeller : Prop := ∀ o : Opnd,
  Does (.xfAcc o) o (xfLaneForm true .z .z) (eachDo (xfLaneRule o 1 false))
  ∧ Does (.xfAdd o) o (xfLaneForm true .z .v) (eachDo (xfLaneRule o 2 true))
  ∧ Does (.xfMin o) o (xfLaneForm false .z .v) (eachDo (xfLaneRule o 3 true))
  ∧ Does (.xfMax o) o (xfLaneForm false .z .v) (eachDo (xfLaneRule o 4 true))
  ∧ Does (.xfXchg o) o (xfLaneForm false .z .v) (eachDo (xfLaneRule o (-1) true))
  ∧ Does (.xfCas o) o (xfLaneForm false .v .v) (eachDo (xfLaneRule o (-2) true))
  ∧ Does (.xfTsum o) o (xfLaneForm false .z .v) (eachDo (xfLaneRule o (-3) true))

/-- The six collectives check their descriptor and rank list, give D a ticket and enter a command and its exchange (R205–R208). The model's
choices in it: log entries 37 and 44. -/
def Obligations.CollectiveIssue : Prop := ∀ o : Opnd,
  Does (.collAr o) o collForm (eachDo (issueRule o (collPlan (.collAr o) o) (collPost o)))
  ∧ Does (.collRs o) o collForm (eachDo (issueRule o (collPlan (.collRs o) o) (collPost o)))
  ∧ Does (.collAg o) o collForm (eachDo (issueRule o (collPlan (.collAg o) o) (collPost o)))
  ∧ Does (.collBc o) o collForm (eachDo (issueRule o (collPlan (.collBc o) o) (collPost o)))
  ∧ Does (.collSend o) o collForm (eachDo (issueRule o (collPlan (.collSend o) o) (collPost o)))
  ∧ Does (.collRecv o) o collForm (eachDo (issueRule o (collPlan (.collRecv o) o) (collPost o)))

/-- The matrix instructions enter one command for the bundle, whose ticket every lane receives, and MX.QRY queues a query (R280, R289–R297).
The model's choices in it: log entry 49. -/
def Obligations.MatrixIssue : Prop := ∀ o : Opnd,
  Does (.mxIssue o) o (mxForm .v .z) (mxRule (.mxIssue o) o)
  ∧ Does (.mxZero o) o (mxForm .z .z) (mxRule (.mxZero o) o)
  ∧ Does (.mxLoadc o) o (mxForm .v .v) (mxRule (.mxLoadc o) o)
  ∧ Does (.mxScale o) o (mxForm .v .z) (mxRule (.mxScale o) o)
  ∧ Does (.mxDrain o) o { mxForm .v .v with sat := true, moreV := [o.b + 1] } (mxRule (.mxDrain o) o)
  ∧ Does (.mxSpill o) o (mxForm .v .z) (mxRule (.mxSpill o) o)
  ∧ Does (.mxFill o) o (mxForm .v .z) (mxRule (.mxFill o) o)
  ∧ Does (.mxQry o) o (mxForm .z .z) (queryRule o)

/-- LDS reads at the home, STS posts a write there with its release step and serial (R318–R320), under FLOW. The model's choices in it: log
entries 4, 20 and 29. -/
def Obligations.SynchronisingAccess : Prop := ∀ o : Opnd,
  Does (.lds o) o ldsForm (underRule notDet (eachDo (ldsRule o)))
  ∧ Does (.sts o) o (stsForm o) (underRule notDet (eachDo (stsRule o)))

/-- ATOM performs one read-modify-write for each word at its home and returns old values, RED posts its operands, or keeps a partial under
DET (R321–R323, R337). The model's choices in it: log entries 4, 20 and 29. -/
def Obligations.AtomicOperations : Prop := ∀ o : Opnd,
  Does (.atom o) o (atomForm o) (underRule notDet (atomRule o))
  ∧ Does (.red o) o (redForm o) (underRule (fun s x => s.det x.t.team && (o.sat || o.f == -1)) (redRule o))

/-- LEASE asks for a line under a countdown, and UNLEASE commits or discards its image (R330–R334), under FLOW. The model's choices in it:
log entries 20 and 42. -/
def Obligations.Leases : Prop := ∀ o : Opnd,
  Does (.lease o) o { a := .v, b := .v } (underRule notDet (eachDo (leaseRule o)))
  ∧ Does (.unlease o) o { d := .p, a := .v } (underRule notDet (eachDo (unleaseRule o)))

/-- PUBLISH, FENCE and WACK publish and wait for acknowledgements (R312, R324, R325). The model's choices in it: log entries 4 and 37. -/
def Obligations.FencesAndPublication : Prop := ∀ o : Opnd,
  Does (.publish o) o { guard := false } (eachDo (publishRule ((encode (.publish o)).getD [])))
  ∧ Does (.fence o) o {} (fenceRule o)
  ∧ Does (.wack o) o { guard := false } (eachDo wackRule)

/-- BAR, CBAR and GPHASE hold the arriving threads until their barrier completes (R326–R328); GPHASE needs a cooperative grid. -/
def Obligations.Barriers : Prop := ∀ o : Opnd,
  Does (.bar o) o (barForm o) (arriveRule (.bar o.c.toNat) ((encode (.bar o)).getD []))
  ∧ Does (.cbar o) o { guard := false } (arriveRule .cbar ((encode (.cbar o)).getD []))
  ∧ Does (.gphase o) o { guard := false }
      (underRule (fun s x => !s.coop x.t.team) (arriveRule .gphase ((encode (.gphase o)).getD [])))

/-- QUANT updates each record once for each generation that lanes contribute to it, and delivers the scaled elements (R42–R44, R268–R270).
The model's choices in it: log entry 17. -/
def Obligations.Quantisation : Prop := ∀ o : Opnd, Does (.quant o) o (quantForm o) (quantRule o)

/-- PAIR performs its two one-word instructions as one where the pairing rules hold (R167–R169). The model's choices in it: log entries 37
and 38. -/
def Obligations.PairedInstructions : Prop := ∀ (op1 op2 l1 l2 : Int) (o1 o2 : Opnd) (p q : Inner) (s w : State) (l : List (Exec × After)),
  Inner.of op1 o1 l1 = some p → Inner.of op2 o2 l2 = some q → pairOk p q = true → s.cur.handler = none →
  (∀ x ∈ s.execs false, s.dynCode p.form p.o x false = none ∧ s.dynCode q.form q.o x false = none
    ∧ s.interlocked p.form p.o x = false ∧ s.interlocked q.form q.o x = false) →
  (if q.e.cls = .V then pairRule p q else pairRule q p) ((encode (.pair op1 o1 l1 op2 o2 l2)).getD []) (s.execs false) s = some (w, l) →
  exec (.pair op1 o1 l1 op2 o2 l2) s = .next (s.after w (.pair op1 o1 l1 op2 o2 l2) false l)

/-- An illegal instruction traps every thread of its bundle with cause 1 and its code, at its own address; TRAP traps the threads whose
guard holds with cause 16 and its constant, at the next instruction, and the others pass it (R173, R369–R372, R376). -/
def Obligations.TrapsTaken : Prop :=
  (∀ (code : Nat) (words : List Word) (s : State), s.bundleFits → (∀ r ∈ s.cur.threads, ∀ th, s.thread? r = some th → th.pc = s.cur.pc) →
    ∃ t, exec (.illegalInstruction code words) s = .next t ∧ Trapped s s t s.cur.threads 1 code words s.cur.pc)
  ∧ ∀ (o : Opnd) (s : State), Issues (.trap o) o { c := .i } s →
    ∃ t, exec (.trap o) s = .next t ∧ Trapped s (s.completed s (.trap o) o.et.scalar) t ((s.runs o).flatMap (·.ts)) 16 o.c
      ((encode (.trap o)).getD []) (s.cur.pc.add (Instr.trap o).trytes)

/-- In a handler TRET ends it, and TPC.SET, TPC.ADV and TPC.EXIT read the frame PC of a lane of MASK into k(D) and change the frame; a lane
outside MASK gives 0 (R377). Of the scalar instructions, ADD, MOV, LD and ST work in the trap bank; BR, BR3, BRM, JMP, JMPR, NOP, WAIT,
TKT, FEAT, STAMP, LGET and LPUT, through which alone the normal bank is reached (R142), CWGET, CWSET and TLBF are carried out once, and an
instruction that R374 does not allow, or an illegal one, is a handler fault (R373). The model's choices in it: log entries 18, 5 and 30. -/
def Obligations.HandlerInstructions : Prop := (∀ (o : Opnd) (s : State) (n : Nat) (h : Handler),
  (Handles (.tret o) o { guard := false } s n h →
    (∀ q, s.squad? n h.squad = some q → (∀ f ∈ q.sfuq, ∀ w, f.k ≠ some (true, w)) ∧ ∀ w ∈ q.kwait, w.1 = false) →
    exec (.tret o) s = .next (s.tret n h false))
  ∧ (∀ lane : Nat, ((h.exec n).reg s o.a 0).val = lane → lane ≤ 26 → h.ev.lanes.contains lane = true →
      (Handles (.tpcSet o) o (tpcForm true) s n h → ((h.exec n).reg s o.b 0).aligned = true →
        exec (.tpcSet o) s = .next (s.handled ((h.exec n).set (s.setCab n (-54 + lane) ((h.exec n).reg s o.b 0)) o.d 0 (s.cab n (-54 + lane)))
          n (.tpcSet o)))
      ∧ (Handles (.tpcAdv o) o (tpcForm true) s n h →
          ((s.cab n (-54 + lane)).add (3 * ((h.exec n).reg s o.b 0).val)).aligned = true →
        exec (.tpcAdv o) s = .next (s.handled ((h.exec n).set (s.setCab n (-54 + lane)
          ((s.cab n (-54 + lane)).add (3 * ((h.exec n).reg s o.b 0).val))) o.d 0 (s.cab n (-54 + lane))) n (.tpcAdv o)))
      ∧ (Handles (.tpcExit o) o (tpcForm false) s n h →
        exec (.tpcExit o) s = .next (s.handled ((h.exec n).set (s.setCab n (-67) (.ofInt (setField (s.cab n (-67)).val lane lane 1))) o.d 0
          (s.cab n (-54 + lane))) n (.tpcExit o))))
  ∧ ((((h.exec n).reg s o.a 0).val < 0 ∨ 26 < ((h.exec n).reg s o.a 0).val ∨ h.ev.lanes.contains ((h.exec n).reg s o.a 0).val.toNat = false) →
      (Handles (.tpcSet o) o (tpcForm true) s n h → exec (.tpcSet o) s = .next (s.handled ((h.exec n).set s o.d 0 .zero) n (.tpcSet o)))
      ∧ (Handles (.tpcAdv o) o (tpcForm true) s n h → exec (.tpcAdv o) s = .next (s.handled ((h.exec n).set s o.d 0 .zero) n (.tpcAdv o)))
      ∧ (Handles (.tpcExit o) o (tpcForm false) s n h → exec (.tpcExit o) s = .next (s.handled ((h.exec n).set s o.d 0 .zero) n (.tpcExit o))))
  ∧ (Handles (.add o) o (binary true o) s n h → o.xr = 1 → o.xc = 1 →
    exec (.add o) s = .next (s.handled (s.setK n h.squad true (Exec.num o.d) (mapElems o.et
      (fun l => narrow o.et.width o.sat (l.getD 0 0 + l.getD 1 0)) [(h.exec n).srcA s o 0, (h.exec n).srcB s o true 0])) n (.add o)))
  ∧ (Handles (.mov o) o unary s n h → o.xr = 1 → o.xc = 1 →
    exec (.mov o) s = .next (s.handled (s.setK n h.squad true (Exec.num o.d) ((h.exec n).srcA s o 0)) n (.mov o)))
  ∧ (Handles (.tlbfPage o) o { a := .k } s n h → s.sysLevel n = true → ∀ p, s.startShoot (s.asrecOf n) 1 ((h.exec n).reg s o.a 0)
      (some (h.exec n).t) = some p →
    exec (.tlbfPage o) s = .next ((p.1.modHandler n (fun h => { h with run := .shoot p.2 })).laterOnce (.shootdownComplete p.2)))
  ∧ (Handles (.tlbfAs o) o {} s n h → s.sysLevel n = true → ∀ p, s.startShoot (s.asrecOf n) 2 .zero (some (h.exec n).t) = some p →
    exec (.tlbfAs o) s = .next ((p.1.modHandler n (fun h => { h with run := .shoot p.2 })).laterOnce (.shootdownComplete p.2)))
  ∧ (Handles (.tlbfAll o) o {} s n h → s.sysLevel n = true → ∀ p, s.startShoot (s.asrecOf n) 3 .zero (some (h.exec n).t) = some p →
    exec (.tlbfAll o) s = .next ((p.1.modHandler n (fun h => { h with run := .shoot p.2 })).laterOnce (.shootdownComplete p.2))))
  ∧ (∀ o : Opnd,
    DoesHandled (.lget o) o { d := .k, a := .k, b := .k } (lgetRule o)
    ∧ DoesHandled (.lput o) o { d := .k, a := .k, b := .k, dRead := true } (lputRule o)
    ∧ DoesHandled (.ld o) o (ldForm o) (loadRule o (o.x == 1) (ldPlace o .read))
    ∧ DoesHandled (.st o) o (stForm o) (storeRule o (o.x == 1) (ldPlace o .write))
    ∧ DoesHandled (.cwget o) o { d := .k, c := .i } (cwgetRule o) ∧ DoesHandled (.cwset o) o { a := .k, c := .i } (cwsetRule o)
    ∧ DoesHandled (.wait o) o (waitForm o) (waitRule o)
    ∧ DoesHandled (.tkt o) o { d := .p, a := .v } (fun s x =>
        some (x.setPred s (predNum o.d) (s.ticketTrit x.t.team (x.reg s o.a 0)), .pass))
    ∧ (o.xr = 1 → o.xc = 1 →
      DoesHandled (.feat o) o { d := .r, c := .i } (fun s x => some (x.set s o.d 0 (s.feature (s.partOf x.t.team) o.c), .pass))
      ∧ DoesHandled (.stamp o) o { d := .v, moreV := [o.d + 1] } (fun s x =>
          some (x.set (x.set s o.d 0 (lowWord (s.stampOf (s.partOf x.t.team)))) (o.d + 1) 0 (highWord (s.stampOf (s.partOf x.t.team))), .pass)))
    ∧ DoesHandled (.nop o) o {} (fun s _ => some (s, .pass))
    ∧ DoesHandled (.br o) o { c := .i } (fun s _ => some (s, .goto (s.cur.pc.add (3 * (if o.len = 3 then o.w3.val else o.c)))))
    ∧ DoesHandled (.br3 o) o { a := .p } (fun s x => some (s, match x.pred s (predNum o.a) with
        | .m => .goto (s.cur.pc.add (3 * field o.w3.val 13 0))
        | .z => .pass
        | .p => .goto (s.cur.pc.add (3 * field o.w3.val 26 14))))
    ∧ DoesHandled (.brm o) o (brmForm o) (fun s x => some (s,
        match (brmPairs o).find? (fun p => codeHolds p.2.1 (x.pred s (predNum p.1)).val) with
        | some p => .goto (s.cur.pc.add (3 * p.2.2))
        | none => .pass))
    ∧ DoesHandled (.jmp o) o (jmpForm o) (jumpRule (fun s x => if o.len = 3 then o.w3 else (x.reg s o.a 0).add o.c))
    ∧ DoesHandled (.jmpr o) o { a := .v } (jumpRule (fun s x => x.reg s o.a 0)))
  ∧ (∀ (i : Instr) (op : Int) (o : Opnd) (s : State) (n : Nat), i.parts = some (op, o) → i.handlerOk = false → s.cur.handler = some n →
    exec i s = .next (s.handlerFault n))
  ∧ (∀ (code : Nat) (words : List Word) (s : State) (n : Nat), s.cur.handler = some n →
    exec (.illegalInstruction code words) s = .next (s.handlerFault n))

/-! ### Steps of the machine (rows 154–258 of the opcode table) -/

/-- Results arrive: the oldest queued special-function result of a squad leaves the queue and lands, load data lands at once where no
window is left, and an acknowledgement of a synchronising write lets a thread go on that waited for the last one; lanes that wait together for their release
steps go on together (R165, R260, R319, R322). -/
def Obligations.ResultArrivals : Prop :=
  (∀ (s : State) (n q : Nat) (x : Squad) (e : SfuEntry) (rest : List SfuEntry), s.squad? n q = some x → x.sfuq = e :: rest →
    ∃ t y, exec (.sfuResultLands n q) s = .next t ∧ t.squad? n q = some y ∧ y.sfuq = rest
      ∧ (∀ b w, e.k = some (b, w) → e.reg < (if b then x.tb else x.kb).length → t.kreg n q b e.reg = w)
      ∧ (e.k = none → ∀ l ∈ e.lanes, ∀ th w, s.thread? ⟨n, q, l⟩ = some th → th.wins.filter (fun v => v.reg == e.reg) = [w] →
          w.src = .sfu → w.arrived = false → w.left = 0 → ∃ th', t.thread? ⟨n, q, l⟩ = some th' ∧ Lands th th' e.reg w.val))
  ∧ (∀ (s : State) (r : TRef) (reg : Nat) (th : Thread) (w : Win), s.thread? r = some th →
    th.wins.filter (fun v => v.reg == reg) = [w] → w.src = .load → w.arrived = false → w.left = 0 →
    ∃ t th', exec (.loadDataReturn r reg) s = .next t ∧ t.thread? r = some th' ∧ Lands th th' reg w.val
      ∧ (∀ u, u ≠ r → t.thread? u = s.thread? u) ∧ OnlySquads s t)
  ∧ (∀ (s : State) (r : TRef) (serial : Word) (th : Thread), s.thread? r = some th →
    ∃ t, exec (.stsAcknowledgement r none { serial := serial }) s = .next t
      ∧ (∀ u, u ∉ (s.laneMates r).map (·.1) → u ≠ r → t.thread? u = s.thread? u)
      ∧ (s.laneMates r = [] → t.thread? r = some
          { th with unackSyn := th.unackSyn - 1, run := if th.unackSyn ≤ 1 ∧ th.unackPub = 0 ∧ th.run = .ackAll then .ready else th.run })
      ∧ (th.run = .ackLanes → th.unackSyn = 1 → th.unackPub = 0 →
          (∀ p ∈ s.laneMates r, p.1 ≠ r → p.2.unackSyn = 0 ∧ p.2.unackPub = 0) →
          ∀ p ∈ s.laneMates r, (t.thread? p.1).map (·.run) = some .ready))
  ∧ (∀ (s : State) (r : TRef) (reg : Nat) (serial : Word) (th : Thread) (w : Win), s.thread? r = some th → reg < 243 →
    th.wins.filter (fun v => v.reg == reg) = [w] → w.src = .serial → w.arrived = false → w.left = 0 → reg < th.regs.length →
    ∃ t, exec (.stsAcknowledgement r (some reg) { serial := serial }) s = .next t ∧ t.vreg r reg = serial)

/-- A publication takes the words of its set out of the team's escrow and sends each line to its home; an emptied line stays while its
words are on their way. An acknowledgement ends the wait for its line only, and that of the last line lets the thread go on that waited for
it (R306). -/
def Obligations.Publications : Prop :=
  (∀ (s : State) (n : Nat) (set : PubSet) (w : PubWaiter) (tm : Team), s.team? n = some tm →
    (∀ e ∈ tm.body.escrow, e.flips = [] ∧ ∀ u ∈ e.words, u.stale = false) →
    ∃ t tm', exec (.publication n set w) s = .next t ∧ t.team? n = some tm'
      ∧ (∀ x ∈ tm'.body.escrow, ∃ e ∈ tm.body.escrow, x = e.part set false)
      ∧ (∀ e ∈ tm.body.escrow, e.words ≠ [] → e.part set false ∈ tm'.body.escrow)
      ∧ (∀ e ∈ tm.body.escrow, (e.part set true).words ≠ [] → Instr.homeHw
          { slot := e.slot, op := .words ((e.part set true).words.map (fun u => (u.i, u.val))), src := .pub n tm.npub e.vline,
            elig := some e.elig, va := lineVa e.vline 0, pin := e.pin, fmt := some e.b } ∈ t.agenda)
      ∧ t.hbm = s.hbm ∧ t.vlines = s.vlines ∧ t.copies = s.copies)
  ∧ (∀ (s : State) (r : TRef) (id vline : Nat) (tm : Team) (p : Pub) (th : Thread), s.team? r.team = some tm →
    tm.pubs.find? (fun p => p.id == id) = some p → vline ≠ noLine → p.lines.filter (fun l => l.vline != vline) = [] → p.held = [] →
    p.again = [] → p.failed = [] → p.waiter = .thread r → s.thread? r = some th → th.run = .ackPub → th.unackPub = 1 →
    ∃ t th' tm', exec (.publicationAck r.team id { vline := vline }) s = .next t ∧ t.thread? r = some th' ∧ GoesOn th th' ∧ th'.unackPub = 0
      ∧ (∀ u, u ≠ r → t.thread? u = s.thread? u) ∧ t.team? r.team = some tm' ∧ tm'.pubs = tm.pubs.filter (fun q => q.id != id))
  ∧ (∀ (s : State) (n id vline : Nat) (no : Option Refused) (p : Pub), s.pub? n id = some p → vline ≠ noLine →
    (∃ l ∈ p.lines, l.vline ≠ vline) →
    ∃ t, exec (.publicationAck n id { vline := vline, no := no }) s = .next t ∧ (∀ u, t.thread? u = s.thread? u)
      ∧ t.pub? n id = some { p with
          lines := p.lines.filter (fun l => l.vline != vline),
          failed := p.failed ++ (match no with | some r => (p.lines.filter (fun l => l.vline == vline)).map (fun l => (l, r)) | none => []) })

/-- A barrier that is complete lets every thread of its teams that waits at it go on, and no other (R326–R328). -/
def Obligations.BarrierCompletions : Prop :=
  (∀ (s : State) (n bar : Nat) (teams : List Nat), s.barrierDone n (.bar bar) = some teams →
    ∃ t, exec (.barrierComplete n bar) s = .next t
      ∧ ∀ r th, s.thread? r = some th → ∃ th', t.thread? r = some th' ∧ if r.team ∈ teams ∧ th.run = .bar bar then GoesOn th th' else th' = th)
  ∧ (∀ (s : State) (g crew : Nat) (x : Team) (teams : List Nat), s.teams.find? (fun t => t.grid == g && t.crew == crew) = some x →
    s.barrierDone x.num .cbar = some teams → ∃ t, exec (.cbarComplete g crew) s = .next t
      ∧ ∀ r th, s.thread? r = some th → ∃ th', t.thread? r = some th' ∧ if r.team ∈ teams ∧ th.run = .cbar then GoesOn th th' else th' = th)
  ∧ (∀ (s : State) (g : Nat) (x : Team) (teams : List Nat), s.teams.find? (fun t => t.grid == g) = some x →
    (s.det x.num = true → s.merged g = true) → s.barrierDone x.num .gphase = some teams → ∃ t, exec (.gphaseComplete g) s = .next t
      ∧ ∀ r th, s.thread? r = some th → ∃ th', t.thread? r = some th' ∧ if r.team ∈ teams ∧ th.run = .gphase then GoesOn th th' else th' = th)

/-- A lease is granted on a line that is free for it, with the line's content as its image, and its thread goes on; a line leased at its home
leaves every cache. At count 0 a lease becomes invalid and the line is free again; a sleeping thread that is woken goes on (R111, R112, R330,
R331, R380). -/
def Obligations.LeaseAndSleepSteps : Prop :=
  (∀ (s : State) (r : TRef) (th : Thread) (l : LeaseRec) (v : VLine), s.thread? r = some th → th.leases.find? (fun q => !q.granted) = some l →
    l.atHome = true → s.vl l.slot = some v → s.busy l.slot = false → v.flips = [] → s.physWhy l.slot = none → s.isB l.slot = false →
    (∀ c, s.dirtyCopy l.slot = some c → c.flips = []) →
    ∃ t th', exec (.leaseGrant r) s = .next t ∧ t.thread? r = some th' ∧ GoesOn th th' ∧ (∀ a, t.copy a l.slot = none)
      ∧ t.vl l.slot = some { v with st := .I, owner := 0, sharers := [], remote := false, leased := true, line := s.dataOf v,
                                    vdirty := v.vdirty || (s.dirtyCopy l.slot).isSome }
      ∧ th'.leases = th.leases.map (fun q => if q = l then { q with image := s.dataOf v, granted := true } else q))
  ∧ (∀ (s : State) (r : TRef) (th : Thread) (l : LeaseRec) (c : Copy), s.thread? r = some th → th.leases.find? (fun q => !q.granted) = some l →
    l.atHome = false → s.physWhy l.slot = none → s.isB l.slot = false → s.copy (s.coreOf r.team) l.slot = some c → c.st = .M ∨ c.st = .E →
    c.back = false → s.leaseTaken (s.coreOf r.team) l.slot = false → c.flips = [] →
    ∃ t th', exec (.leaseGrant r) s = .next t ∧ t.thread? r = some th' ∧ GoesOn th th'
      ∧ t.copy (s.coreOf r.team) l.slot = some { c with leased := true }
      ∧ th'.leases = th.leases.map (fun q => if q = l then { q with image := c.line, granted := true } else q))
  ∧ (∀ (s : State) (r : TRef) (line : Nat) (th : Thread) (l : LeaseRec), s.thread? r = some th → s.leaseOf r line = some l →
    l.valid = true → l.count = 0 →
    (∀ c, l.atHome = false → s.copy (s.coreOf r.team) l.slot = some c → c.probes = [] →
      ∃ t, exec (.leaseExpiry r line) s = .next t ∧ t.copy (s.coreOf r.team) l.slot = some { c with leased := false }
        ∧ t.thread? r = some { th with leases := th.leases.map (fun q => if q = l then { q with valid := false } else q) })
    ∧ (∀ v, l.atHome = true → s.vl l.slot = some v → v.txn = none → v.queue = [] →
      ∃ t, exec (.leaseExpiry r line) s = .next t ∧ t.vl l.slot = some { v with leased := false }
        ∧ t.thread? r = some { th with leases := th.leases.map (fun q => if q = l then { q with valid := false } else q) }))
  ∧ (∀ (s : State) (r : TRef) (th : Thread) (slot deadline : Nat), s.thread? r = some th → th.run = .sleep slot deadline →
    ∃ t th', exec (.sleepWake r) s = .next t ∧ t.thread? r = some th' ∧ GoesOn th th' ∧ OnlySquads s t ∧ ∀ u, u ≠ r → t.thread? u = s.thread? u)

/-- ISSUE_SELECTION moves bundles of the pool to issue, by each slot kind no more than the core has (the further bundles of a whole team's
convergence point take none), passes a bundle over only where those before it left too little, and loses nothing of the pool; where issue is
withheld it only counts THROT (R351, R460). BUNDLER_ROUND forms bundles of runnable threads that stand together, a bundle for each runnable
thread whose pair is in the PC table, and asks for the instructions that the core lacks; it changes no register and no memory.
CONVERGENCE_TIMEOUT traps the threads present with cause 15 and no other (R344–R349). The model's choices in it: log entries 7, 45, 50 and
60. -/
def Obligations.Scheduling : Prop :=
  (∀ (s : State) (core : Nat), s.withheld core = false → ∃ t l, exec (.issueSelection core) s = .next t ∧ t.issue = s.issue ++ l
    ∧ (∀ b ∈ l, b ∈ (s.core core).pool ∧ (s.bundleSlots b).isSome)
    ∧ (∀ i, ((l.filter (fun b => !s.wholeTeam b)).map (s.slotOf · i)).sum ≤ issueSlots.getD i 0)
    ∧ (∀ b ∈ (s.core core).pool, (s.bundleSlots b).isSome → b ∈ l ∨ ({ b with waited := b.waited + 1 } ∈ (t.core core).pool
        ∧ ∃ i < 4, issueSlots.getD i 0 < s.slotOf b i + ((l.filter (fun c => s.before c b)).map (s.slotOf · i)).sum))
    ∧ { t with issue := s.issue, cores := s.cores } = s ∧ (∀ k, k ≠ core → t.core k = s.core k)
    ∧ { t.core core with pool := (s.core core).pool } = s.core core)
  ∧ (∀ (s : State) (core : Nat), s.withheld core = true → exec (.issueSelection core) s = .next s)
  ∧ (∀ (s : State) (core : Nat), ∃ t, exec (.bundlerRound core) s = .next t ∧ t.issue = s.issue
    ∧ (∀ b ∈ (t.core core).pool, b ∈ (s.core core).pool ∨ (b.core = core ∧ b.waited = 0 ∧ ∀ r ∈ b.threads, t.atPc r b.pc = true))
    ∧ (∀ x ∈ t.teams, ∃ y ∈ s.teams, x.num = y.num ∧ x.body.cab = y.body.cab
        ∧ x.body.squads.map (fun q => q.threads.map (·.regs)) = y.body.squads.map (fun q => q.threads.map (·.regs)))
    ∧ t.hbm = s.hbm ∧ t.vlines = s.vlines ∧ t.copies = s.copies
    ∧ (∀ (r : TRef) (pc : Word), r ∈ s.residents core → r.lane < 27 → (s.pairOf r).2 = pc →
        (s.core core).pct.contains (s.pairOf r) = true → (s.core core).overflow.contains r = false → s.atPc r pc = true →
        (∀ i, s.instrAt core r.team pc = some i → i.scope = .none → s.present i pc r = true →
          ∃ b ∈ (t.core core).pool, r ∈ b.threads ∧ b.pc = pc ∧ b.core = core)
        ∧ (s.instrAt core r.team pc = none → .instructionFetchFill core (s.asrecOf r.team) (s.sysLevel r.team) (pc.num / 27) ∈ t.agenda)))
  ∧ (∀ (s : State) (core : Nat) (r : TRef) (addr : Word) (i : Instr) (here : List TRef), s.instrAt core r.team addr = some i →
    (s.scopeOf i.scope (Machine.Instr.scopeGr i) r).filter (s.present i addr) = here →
    here.length ≠ (s.scopeOf i.scope (Machine.Instr.scopeGr i) r).length →
    ∃ t, exec (.convergenceTimeout core r addr) s = .next t ∧ { t with teams := s.teams, agenda := s.agenda } = s
      ∧ (∀ u ∈ here, ∀ th, s.thread? u = some th → t.thread? u = some { th with run := .trapped, fault := .zero, conv := 0 })
      ∧ (∀ u, u ∉ here → t.thread? u = s.thread? u)
      ∧ ∀ u ∈ here, ∃ tm, t.team? u.team = some tm ∧ ∃ e ∈ tm.events, e.cause = 15 ∧ e.squad = u.squad ∧ u.lane ∈ e.lanes ∧ e.pc = addr)

/-- A command whose turn it is is performed, and one that is held back is left as it is: a range teller command sends its pieces to their
drawers, MX.ZERO clears its tile and its record counts 729 (R291; the count is the model's choice, log entry 49). A drawer performs the oldest piece that came to it, word by word, and the last piece ends its command. A
command that has ended leaves its team, its record is kept, and threads that wait for it go on; a freed lock entry wakes the stalled issues of
its core (R120–R135, R201, R289). -/
def Obligations.EngineSteps : Prop :=
  (∀ (s : State) (n seq : Nat) (c : Cmd), s.cmd? n seq = some c →
    (s.cmdReady n c = false → exec (.scoreboardStart n seq) s = .next s)
    ∧ (s.cmdReady n c = true → exec (.scoreboardStart n seq) s = .next (s.runCmd n c)
      ∧ (∀ r m, isRangeXf c.instr = true → c.begun = false → c.ranges = [r] → r.cab = some m → ∃ t, exec (.scoreboardStart n seq) s = .next t
        ∧ t.cmd? n seq = some { c with begun := true, pieces := drawersOf r.lo r.hi, queued := s.ncmd }
        ∧ t.agenda = s.agenda ++ (drawersOf r.lo r.hi).map (fun d => .drawerRequest (s.coreOf m) d) ∧ t.ncmd = s.ncmd + 1
        ∧ ∀ m i, t.cab m i = s.cab m i)
      ∧ (∀ o tm, c.instr = .mxZero o → s.team? n = some tm → o.c.toNat < tm.body.tiles.length → ∃ t, exec (.scoreboardStart n seq) s = .next t
        ∧ t.tile n o.c.toNat = { Tile.zero with ext := o.x == 1 } ∧ (∀ k, k ≠ o.c.toNat → t.tile n k = s.tile n k)
        ∧ t.cmd? n seq = some { c with begun := true, done := 729, status := some 0, fault := .zero, parked := false }
        ∧ .engineCommandComplete n seq ∈ t.agenda)))
  ∧ (∀ (s : State) (core drawer n m : Nat) (c : Cmd) (k : Tell) (o : Opnd) (r : Rng) (rest : List Rng),
    s.allCmds.find? (fun p => isRangeXf p.2.instr && p.2.pieces.contains drawer && s.tellsOn core p.2) = some (n, c) → s.cmd? n c.seq = some c →
    tellOf c = some (k, o) → c.ranges = r :: rest → r.cab = some m → (s.team? m).isSome → ∃ t, exec (.drawerRequest core drawer) s = .next t
      ∧ (∀ i : Nat, i < ((r.hi - r.lo) / 3).toNat → drawerOf (r.lo / 3 + i) = drawer →
          t.cab m (r.lo / 3 + i) = tellWord k o.et o.sat (s.cab m (r.lo / 3 + i)))
      ∧ (∀ j w, (j ≠ m ∨ drawerOf w ≠ drawer ∨ w < r.lo / 3 ∨ r.lo / 3 + (r.hi - r.lo) / 3 ≤ w) → t.cab j w = s.cab j w)
      ∧ (t.cmd? n c.seq).map (·.pieces) = some (c.pieces.erase drawer)
      ∧ (c.pieces = [drawer] → (t.cmd? n c.seq).map (·.status) = some (some 0) ∧ .engineCommandComplete n c.seq ∈ t.agenda))
  ∧ (∀ (s : State) (n seq st : Nat) (c : Cmd) (tm : Team), s.team? n = some tm → s.cmd? n seq = some c → c.status = some st →
    ∃ t, exec (.engineCommandComplete n seq) s = .next t ∧ t.cmd? n seq = none
      ∧ (tm.body.recs.length < 243 → t.rec? n seq =
          some { seq := seq, status := st, addr := if st = 0 then .zero else c.fault, count := (c.done : Int), delivered := false })
      ∧ (∀ r th, r.team = n → s.thread? r = some th → ∃ th', t.thread? r = some th' ∧ th'.run = if th.run = .wait seq then .ready else th.run)
      ∧ ∀ m i, t.cab m i = s.cab m i)
  ∧ (∀ (s : State) (core : Nat), ∃ t, exec (.rangeLockFree core) s = .next t ∧ (∀ r th, s.thread? r = some th →
      ∃ th', t.thread? r = some th' ∧ (th' = th ∨ (th.run = .lock ∧ th' = { th with run := .ready }))
        ∧ ∀ tm ∈ s.teams, tm.num = r.team → tm.core = core → th.run = .lock → th'.run = .ready) ∧ OnlySquads s t)

/-- A miss joins the walk of its page, starts one, or queues where all are taken. The die's oldest walk returns its translation to the TLBs,
or leaves its stop for the accesses that asked; a line read at its home is what its core fetches from (R72, R81, R157). The model's choices
in it: log entries 5 and 31. -/
def Obligations.FetchSteps : Prop :=
  (∀ (s : State) (die : Nat) (w : WalkReq), die < s.dies.length → ∃ t, exec (.tlbMissWalk die w) s = .next t
    ∧ { t with dies := s.dies, agenda := s.agenda } = s ∧ .walkCompletion die ∈ t.agenda ∧ (∀ d, d ≠ die → t.die d = s.die d)
    ∧ ((s.die die).walks.any (fun k => samePage k.req w) = true →
        t.die die = { s.die die with walks := (s.die die).walks.map (fun k => if samePage k.req w then { k with joined := k.joined ++ [w] } else k) })
    ∧ ((s.die die).walks.any (fun k => samePage k.req w) = false →
        t.die die = if (s.die die).walks.length < 2187 then { s.die die with walks := (s.die die).walks ++ [{ req := w, joined := [] }] }
          else { s.die die with missq := (s.die die).missq ++ [w] }))
  ∧ (∀ (s s0 s1 : State) (die : Nat) (k : Walk), (s.die die).walks = [k] → k.joined = [] → (s.die die).missq = [] →
    s0 = s.modDie die (fun d => { d with walks := [], missq := [] }) → s0.tlbGet (Machine.WalkReq.ctx k.req) k.req.va = none →
    (∀ x, k.req.core / 81 % 4 = die → s0.walkNow (Machine.WalkReq.ctx k.req) k.req.va k.req.acc k.req.b = (s1, .ok x) →
      ∃ t e, exec (.walkCompletion die) s = .next t ∧ (t.die die).walks = [] ∧ e ∈ (t.die die).tlb ∧ e.asrec = k.req.asrec
        ∧ e.page = k.req.va.num / pageSpan e.level ∧ adOk e.pte k.req.acc = true)
    ∧ (∀ e, e ≠ .busy → s0.walkNow (Machine.WalkReq.ctx k.req) k.req.va k.req.acc k.req.b = (s1, .error e) →
      exec (.walkCompletion die) s = .next (s1.modDie die (fun d => { d with walked := d.walked ++ [k.req] }))))
  ∧ (∀ (s s1 s2 : State) (core asrec block : Nat) (sys : Bool) (x : Xl) (l : Line),
    s.translate (s.fetchCtx core asrec sys) (.ofNum (27 * block)) .fetch false = (s1, .ok x) → s1.homeRead x.slot x.pin = some (s2, l) →
    l.poison = false → ∃ t, exec (.instructionFetchFill core asrec sys block) s = .next t
      ∧ ∀ pc : Word, pc.num / 81 = block / 3 →
        t.fetch core asrec sys pc = some ((l.w.drop (pc.num % 81 / 3)).take (9 - pc.num % 27 / 3)))

/-- A waiting fault is posted in the next entry of its list as its record gives it, and while the list is full "fault list full" is raised once;
DONE > 0 lets what is parked on an entry go on, DONE < 0 fails it: a thread takes the trap of cause 6 with the entry's kind and its fault
address; with DONE at 0 the walker holds the line shared again (R86–R88). The model's choices in it: log entries 16 and 58. -/
def Obligations.FaultListSteps : Prop :=
  (∀ (s s1 : State) (a : Nat) (p : FaultPost) (rec : Line), s.posts.filter (fun q => q.asrec == a && (q.entry.isNone || q.late)) = [p] →
    p.entry = none → s.physRead (a / 81) = (s1, .ok rec) → 0 < intAt rec.w 5 → 0 ≤ intAt rec.w 4 → intAt rec.w 4 % 81 = 0 →
    (intAt rec.w 5 ≤ intAt rec.w 7 - intAt rec.w 6 → p.told = false → ∀ s2,
      s2 = s1.raise { Event.plain 15 (if p.core < 324 then p.core else 652) with kind := -1, addr := .ofInt a } →
      exec (.faultPostingResume a) s = .next { s2 with posts := s2.posts.map (fun x => if x = p then { p with told := true } else x) })
    ∧ (intAt rec.w 7 - intAt rec.w 6 < intAt rec.w 5 → ∀ slot s2 s3 s4, slot = (intAt rec.w 4 / 81 + intAt rec.w 7 % intAt rec.w 5).toNat →
      s1.physWhy slot = none → s1.isB slot = false →
      s1.homePut (81 * slot) ((List.range 27).zip ([.ofNum (2187 * p.page), wordAt rec.w 1, wordAt rec.w 3, .ofInt p.kind, .ofInt p.level,
        lowWord p.stamp, highWord p.stamp, .ofInt p.core, .ofInt p.cnt] ++ List.replicate 18 .zero)) = some s2 →
      s2.homePut a [(7, .ofInt (intAt rec.w 7 + 1))] = some s3 →
      s4 = ((s3.readShared (pageWalker (p.core / 81 % 4)) slot).map (·.1)).getD s3 → exec (.faultPostingResume a) s = .next
        { s4 with posts := s4.posts.map (fun x => if x = p then { p with entry := some slot, late := false } else x) }))
  ∧ (∀ (s u : State) (e : Nat) (p : FaultPost) (r : TRef) (th : Thread), s.sawLine e = u → u.posts.filter (fun p => p.entry == some e) = [p] →
    p.who = [.thread r] → u.thread? r = some th → th.run = .parked →
    (0 < intAt (s.lineNow e).w 26 → ∃ t, exec (.faultEntryDone e) s = .next t ∧ t.thread? r = some { th with run := .ready }
      ∧ t.posts = u.posts.filter (fun p => p.entry != some e))
    ∧ (intAt (s.lineNow e).w 26 < 0 → ∃ t, exec (.faultEntryDone e) s = .next t
      ∧ t.thread? r = some { th with run := .trapped, fault := th.fault } ∧ t.posts = u.posts.filter (fun p => p.entry != some e)
      ∧ ∃ tm, t.team? r.team = some tm ∧ ∃ v ∈ tm.events, v.cause = 6 ∧ v.detail = p.kind ∧ v.faults = [(r.lane, th.fault)] ∧ v.pc = th.pc))
  ∧ (∀ (s u : State) (e : Nat), s.sawLine e = u → intAt (s.lineNow e).w 26 = 0 →
    (u.posts.filter (fun p => p.entry == some e) = [] → exec (.faultEntryDone e) s = .next u)
    ∧ ∀ p, u.posts.filter (fun p => p.entry == some e) = [p] →
      exec (.faultEntryDone e) s = .next (((u.readShared (pageWalker (p.core / 81 % 4)) e).map (·.1)).getD u))

/-- A shootdown takes the named pages out of every core's and die's caches and out of every instruction cache, ends the pins of their lines
and marks their escrow entries stale; when the writes that were on their way are performed it completes: a control-word shootdown sets SDOP
to 0 and SDSTAT to +1 and sends SDVEC's interrupt, and TLBF's threads go on (R83, R93, R378, R379). -/
def Obligations.ShootdownSteps : Prop :=
  (∀ (s t : State) (asrec id : Nat) (kind : Int) (page : Word) (w : Option TRef), s.startShoot asrec kind page w = some (t, id) →
    exec (.shootdown asrec kind page w) s = .next t
      ∧ (∀ c ∈ t.cores, (∀ e ∈ c.tlb, shootHits (s.shootSpaces asrec kind) kind page e.asrec (e.page * pageSpan e.level) (pageSpan e.level) = false)
          ∧ ∀ b ∈ c.icache, shootHits (s.shootSpaces asrec kind) kind page b.asrec (81 * b.vline) 81 = false)
      ∧ (∀ d ∈ t.dies, (∀ e ∈ d.tlb, shootHits (s.shootSpaces asrec kind) kind page e.asrec (e.page * pageSpan e.level) (pageSpan e.level) = false)
          ∧ ∀ e ∈ d.wcache, shootHits (s.shootSpaces asrec kind) kind page e.asrec (e.page * pageSpan e.level) (pageSpan e.level) = false)
      ∧ (∀ v ∈ t.vlines, ∀ p, v.pin = some p → shootHits (s.shootSpaces asrec kind) kind page p.1 (81 * p.2) 81 = false)
      ∧ (∀ x ∈ t.teams, ∀ g, t.grid? x.grid = some g → ∀ e ∈ x.body.escrow,
          shootHits (s.shootSpaces asrec kind) kind page (intAt g.node 21).toNat (81 * (e.vline % 94143178827)) 81 = true →
          ∀ u ∈ e.words, u.stale = true))
  ∧ (∀ (s : State) (asrec : Nat) (kind : Int) (page : Word) (w : Option TRef), s.startShoot asrec kind page w = none →
    exec (.shootdown asrec kind page w) s = .next (s.later [.shootdown asrec kind page w]))
  ∧ (∀ (s : State) (id : Nat) (x : Shoot), s.shoots.find? (fun x => x.id == id) = some x →
    (s.shootWaits x = true → exec (.shootdownComplete id) s = .next s)
    ∧ (s.shootWaits x = false → ∃ t, exec (.shootdownComplete id) s = .next t ∧ t.shoots = s.shoots.filter (fun y => y.id != id)
      ∧ (x.by_ = none → t.cwInt 822 = 0 ∧ t.cwInt 823 = 1 ∧ t.irqs = s.irqs ++ (if 0 ≤ s.cwInt 824 then [(s.cwInt 824).toNat] else []))
      ∧ (∀ r, x.by_ = some r → ∀ u th, u.team = r.team → s.thread? u = some th →
          ∃ th', t.thread? u = some th' ∧ if th.run = .shoot id then GoesOn th th' else th' = th)))
  ∧ (∀ s : State, s.ready = true → ∀ p ∈ [(Instr.sdopPage, (1 : Int)), (.sdopSpace, 2), (.sdopEverySpace, 3)],
    (s.cwInt 822 = 0 ∨ (s.cwInt 822 = p.2 ∧ ∀ x ∈ s.shoots, x.by_ ≠ none) →
      (s.recordOk (s.cwInt 820) = false → ∃ t, exec p.1 s = .next t ∧ t.cwInt 822 = 0 ∧ t.cwInt 823 = -1)
      ∧ (s.recordOk (s.cwInt 820) = true → ∀ t id,
        (s.setCwInt 822 p.2).startShoot (s.cwInt 820).toNat p.2 (s.cw 821) none = some (t, id) → exec p.1 s = .next t))
    ∧ (s.cwInt 822 ≠ 0 → s.cwInt 822 ≠ p.2 ∨ (∃ x ∈ s.shoots, x.by_ = none) → exec p.1 s = .next s))

/-- With no handler of the team in progress, TRAP_ENTRY freezes the squad of the oldest event and enters TVEC with the frame of R371: the
cause, the detail, the mask and the squad, and the PC of each lane (R371, R372); with TVEC at 0 it raises class 19, and where that has not
ended the context the lanes exit (R373). Under VIGIL it waits until the squad's shadow has reached the trap (R396). The model's choices in
it: log entries 41 and 43. -/
def Obligations.TrapEntry : Prop :=
  (∀ (s : State) (n : Nat) (tm : Team) (e : TrapEv) (rest : List TrapEv) (q : Squad), s.team? n = some tm → tm.handler = none →
    tm.events = e :: rest → tm.saving = false → tm.tvec ≠ .zero → s.shadowBad n e.squad = false → s.shadowBehind n e.squad = false →
    tm.body.squads[e.squad]? = some q → q.threads.length = 27 →
    ∃ t tm', exec (.trapEntry n) s = .next t ∧ t.team? n = some tm' ∧ tm'.events = rest
      ∧ tm'.handler = some { squad := e.squad, pc := tm.tvec, ev := e, run := .ready }
      ∧ (t.squad? n e.squad).map (·.frozen) = some true ∧ (t.squad? n e.squad).map (·.threads) = some q.threads
      ∧ t.cab n (-81) = .ofInt e.cause ∧ t.cab n (-80) = .ofInt e.detail ∧ t.cab n (-79) = maskWord e.lanes ∧ t.cab n (-78) = .ofInt e.squad
      ∧ (∀ (l : Nat) (th : Thread), q.threads[l]? = some th → th.run ≠ .exited → t.cab n (-54 + (l : Int)) = th.pc)
      ∧ (∀ l : Nat, l < 27 → t.cab n (-27 + (l : Int)) = (assocGet e.faults l).getD .zero)
      ∧ ∀ i : Int, i < -81 ∨ 0 ≤ i → t.cab n i = s.cab n i)
  ∧ (∀ (s : State) (n : Nat) (tm : Team) (e : TrapEv) (rest : List TrapEv), s.team? n = some tm → tm.handler = none →
    tm.events = e :: rest → tm.saving = false → s.shadowBad n e.squad = false →
    (s.shadowBehind n e.squad = true → exec (.trapEntry n) s = .next (s.laterOnce (.trapEntry n)))
    ∧ (s.shadowBehind n e.squad = false → tm.tvec = .zero → ∀ u, u = s.raise (s.teamEvent 19 n 0 .zero 0) →
      (u.team? n = none → exec (.trapEntry n) s = .next u)
      ∧ (u.team? n ≠ none → exec (.trapEntry n) s = .next ((u.modTeam n (fun t => { t with events := rest })).tret n
        { squad := e.squad, pc := .zero, ev := e, run := .ready } true))))

/-- A home serves a request at once for a line that no agent holds, it takes a returned copy, it snoops an owner, and a request behind an
open transaction waits; a write and a read are performed in the slice, and a request for an address that holds no line in use raises the
class of that address (R46, R48, R92, R98–R101, R320). The model's choices in it: log entries 31 and 52. -/
def Obligations.HomeRequests : Prop := ∀ (s : State) (slot : Nat) (v : VLine) (pin : Option (Nat × Nat)),
  (∀ (r : HrReq) (c : Nat), r.slot = slot → r.src = .prefetch → s.physWhy slot = some c →
    exec (.homeHr r) s = .next (s.raise (Event.phys c (648 + shellOf slot) (81 * slot))))
  ∧ (s.vl slot = some v → v.leased = false → health v.flips (s.isB slot && badGroup v.line) = .sound → (∀ p ∈ s.fillq, p.1 ≠ slot) →
    (v.txn = none → v.queue = [] → ∀ a op byte, (a = 324 ∨ a = 325 → s.inReset slot = false) →
      (s.refusal slot (.rds a byte) = none →
        (v.st = .I → s.copy a slot = none → ∀ s1, (s.putVl v).roomCopy a slot = some s1 → exec (.homeRds a { slot := slot, pin := pin, byte := byte }) s = .next
          ((s1.putCopy { agent := a, slot := slot, st := .E, line := v.line, leased := false, probes := [], back := false, flips := [] }).putVl
            { v with st := .E, owner := a, sharers := distinct (v.sharers ++ (if agentDie a = homeDie slot then [a] else [])),
                     remote := v.remote || agentDie a != homeDie slot }))
        ∧ (v.st = .M → v.owner ≠ a → (∀ c, s.copy a slot = some c → c.st ≠ .M ∧ c.st ≠ .E) → exec (.homeRds a { slot := slot, pin := pin, byte := byte }) s = .next
          ((s.putVl { v with txn := some { req := .rds a byte, await := [v.owner], awaitDies := [], supplied := false } }).later
            [.snoopShr v.owner slot])))
      ∧ (s.refusal slot (.rdx a (byte || op.isBytes) op) = none → v.st = .I → s.copy a slot = none → ∀ s1, (s.putVl v).roomCopy a slot = some s1 →
        ∃ t, exec (.homeRdx a { slot := slot, pin := pin, byte := byte, op := op }) s = .next t
          ∧ t.copy a slot = some { agent := a, slot := slot, st := .M, line := applyHw op v.line, leased := s1.leaseWaits a slot, probes := [],
                                   back := false, flips := [] }
          ∧ (t.vl slot).map (fun u => (u.st, u.owner, u.line)) = some (.M, a, v.line))
      ∧ (s.refusal slot (.upg a (byte || op.isBytes) op) = none → v.st = .S → v.remote = false → (∀ b ∈ v.sharers, b = a) →
        ∀ c, s.copy a slot = some c → c.st = .S →
        ∃ t, exec (.homeUpg a { slot := slot, byte := byte, op := op }) s = .next t ∧ t.hbm = s.hbm
          ∧ t.copy a slot = some { c with st := .M, line := applyHw op c.line, leased := c.leased || s.leaseWaits a slot, back := false }
          ∧ (t.vl slot).map (fun u => (u.st, u.owner)) = some (.M, a))
      ∧ (∀ c, s.copy a slot = some c → c.leased = false → c.flips = [] →
        (c.st = .M ∨ c.st = .O → ∃ t, exec (.homeWbd a slot) s = .next t ∧ t.hbm = s.hbm ∧ t.copy a slot = none
          ∧ (t.vl slot).map (fun u => (u.line, u.vdirty)) = some (c.line, true))
        ∧ (c.st = .E ∨ c.st = .S → ∃ t, exec (.homeEvc a slot) s = .next t ∧ t.hbm = s.hbm ∧ t.copy a slot = none
          ∧ (t.vl slot).map (fun u => (u.line, u.vdirty)) = some (v.line, v.vdirty))))
    ∧ (v.txn = none → v.queue = [] → v.st = .I →
      (∀ r : HwReq, r.slot = slot → s.refusal slot (.hw r) = none → ∃ t, exec (.homeHw r) s = .next t ∧ t.hbm = s.hbm ∧ t.copies = s.copies
        ∧ (t.vl slot).map (fun u => (u.line, u.vdirty)) = some (applyHw r.op v.line, true) ∧ (∀ x, x ≠ slot → t.vl x = s.vl x)
        ∧ ∀ th reg, r.src = .sts th reg → .stsAcknowledgement th reg { serial := (s.nextSerial slot).2 } ∈ t.agenda)
      ∧ ∀ r : HrReq, r.slot = slot → s.refusal slot (.hr r) = none → ∃ t, exec (.homeHr r) s = .next t ∧ t.hbm = s.hbm ∧ t.copies = s.copies
        ∧ (t.vl slot).map (fun u => (u.line, u.vdirty)) = some (v.line, v.vdirty) ∧ (∀ x, x ≠ slot → t.vl x = s.vl x)
        ∧ ∀ who lo len, r.src = .host who false lo len → v.line.poison = false →
            t.answers = s.answers ++ [(who, .data (((bytesOfLine v.line).drop lo).take len |>.map (BitVec.ofNat 8)))])
    ∧ (∀ x, v.txn = some x → (x.await ≠ [] ∨ x.awaitDies ≠ []) →
      (∀ r : HwReq, r.slot = slot → s.refusal slot (.hw r) = none → exec (.homeHw r) s = .next (s.putVl { v with queue := v.queue ++ [.hw r] }))
      ∧ (∀ r : HrReq, r.slot = slot → s.refusal slot (.hr r) = none → exec (.homeHr r) s = .next (s.putVl { v with queue := v.queue ++ [.hr r] }))
      ∧ ∀ a byte, s.refusal slot (.rds a byte) = none → (a = 324 ∨ a = 325 → s.inReset slot = false) →
          exec (.homeRds a { slot := slot, pin := pin, byte := byte }) s = .next (s.putVl { v with queue := v.queue ++ [.rds a byte] })))
  ∧ ∀ a byte op, a = 324 ∨ a = 325 → s.inReset slot = true → ∀ i ∈ [Instr.homeRds a { slot := slot, pin := pin, byte := byte },
      .homeRdx a { slot := slot, pin := pin, byte := byte, op := op }, .homeUpg a { slot := slot, byte := byte, op := op }],
    exec i s = .next (s.hostError a (81 * slot) true)

/-- A snoop takes or changes the copy and is answered with its dirty data, or waits behind a lease; the last answer closes the transaction;
another die's filter adds the agents it marks (R100–R103, R113). A slice takes its line from HBM and writes a dirty line back, HBM holds the
image written, and a read or a die link that fails is counted or leaves the line poisoned (R50, R53, R63, R90). The model's choices in it:
log entries 33, 48, 52 and 56. -/
def Obligations.SnoopsAndSlices : Prop :=
  (∀ (s : State) (a slot : Nat) (c : Copy), s.copy a slot = some c → c.leased = false → c.flips = [] → c.back = false →
    ∀ d, d = (if c.st = .M ∨ c.st = .O then some c.line else none) →
    (∃ t, exec (.snoopInv a slot) s = .next t ∧ t.copy a slot = none
      ∧ t.agenda = s.agenda ++ (if 326 ≤ a then s.walkerWakes slot else []) ++ [.snoopAnswer a slot d])
    ∧ exec (.snoopShr a slot) s = .next ((s.putCopy { c with st := if c.st = .M ∨ c.st = .O then .O else .S }).later [.snoopAnswer a slot d])
    ∧ exec (.snoopGet a slot) s = .next ((s.putCopy c).later [.snoopAnswer a slot d]))
  ∧ (∀ (s : State) (a slot : Nat) (c : Copy), s.copy a slot = some c → c.leased = true →
    exec (.snoopInv a slot) s = .next (s.putCopy { c with probes := c.probes ++ [.inv] })
    ∧ exec (.snoopShr a slot) s = .next (s.putCopy { c with probes := c.probes ++ [.shr] })
    ∧ exec (.snoopGet a slot) s = .next (s.putCopy { c with probes := c.probes ++ [.get] }))
  ∧ (∀ (s : State) (slot : Nat) (v : VLine) (x : Txn), s.vl slot = some v → v.txn = some x →
    (∀ a ∈ x.await, (x.await.erase a ≠ [] ∨ x.awaitDies ≠ []) →
      (∀ l, exec (.snoopAnswer a slot (some l)) s = .next
        (s.putVl { v with line := l, vdirty := true, flips := [], txn := some { x with await := x.await.erase a, supplied := true } }))
      ∧ exec (.snoopAnswer a slot none) s = .next (s.putVl { v with txn := some { x with await := x.await.erase a } }))
    ∧ (∀ a b byte l, x.await = [b] → x.awaitDies = [] → x.req = .rds a byte → v.st = .M → v.queue = [] → s.copy a slot = none →
      (s.isB slot && badGroup l) = false →
      ∀ u s1, u = { v with line := l, vdirty := true, flips := [], txn := none } → (s.putVl u).roomCopy a slot = some s1 →
      exec (.snoopAnswer b slot (some l)) s = .next
        ((s1.putCopy { agent := a, slot := slot, st := .S, line := l, leased := false, probes := [], back := false, flips := [] }).putVl
          { u with st := .O, sharers := distinct (v.sharers ++ (if agentDie a = homeDie slot then [a] else [])),
                   remote := v.remote || agentDie a != homeDie slot }))
    ∧ (∀ die marked, die ∈ x.awaitDies → (marked ≠ [] ∨ x.await ≠ [] ∨ x.awaitDies.erase die ≠ []) →
      marked = ((assocGet (s.die die).filter slot).getD []).filter (fun (a : Nat) => some a != x.req.agent && !x.await.contains a) →
      exec (.snoopFilterBroadcast die slot) s = .next ((s.later (marked.map (fun (a : Nat) => .snoopInv a slot))).putVl
        { v with txn := some { x with awaitDies := x.awaitDies.erase die, await := x.await ++ marked } })))
  ∧ (∀ (s : State) (slot : Nat), s.physWhy slot = none → s.vl slot = none → (s.sameSet slot).length < 27 →
    ((∀ p ∈ s.fillq, p.1 ≠ slot) → ∃ t v, exec (.vaultFill slot) s = .next t ∧ t.vl slot = some v ∧ v.line = (s.hbmFetch slot).2.line
      ∧ v.txn = none ∧ t.hbm = s.hbm)
    ∧ (∀ p req, s.fillq.filter (fun q => q.1 == slot) = [(slot, p, req)] → s.refusal slot req = none →
      (s.isB slot && badGroup (s.hbmFetch slot).2.line) = false →
      (∀ r, req = .hw r → ∃ t, exec (.vaultFill slot) s = .next t ∧ t.fillq = s.fillq.filter (fun q => q.1 != slot) ∧ t.hbm = s.hbm
        ∧ (t.vl slot).map (fun v => (v.line, v.vdirty, v.queue)) = some (applyHw r.op (s.hbmFetch slot).2.line, true, []))
      ∧ (∀ r, req = .hr r → ∃ t, exec (.vaultFill slot) s = .next t ∧ t.fillq = s.fillq.filter (fun q => q.1 != slot) ∧ t.hbm = s.hbm
        ∧ (t.vl slot).map (fun v => (v.line, v.vdirty, v.queue)) = some ((s.hbmFetch slot).2.line, false, [])))
    ∧ ∃ t v, exec (.dieLinkFailure slot) s = .next t ∧ t.vl slot = some v ∧ v.line = poisonLine ∧ t.hbm = s.hbm)
  ∧ (∀ (s : State) (slot : Nat) (v : VLine), s.vl slot = some v → s.evictable v = true → v.vdirty = true → Memory.wf s.hbm = true →
    health v.flips (s.isB slot && badGroup v.line) = .sound → (∀ c ∈ s.copies, c.slot ≠ slot) → v.line.poison = false →
    ∃ t, exec (.vaultWriteback slot) s = .next t ∧ t.vl slot = none
      ∧ ∀ k b, (s.imageOf slot v.line v.elig)[k]? = some b → hbmGet t.hbm (160 * slot + k) = BitVec.ofNat 8 b)
  ∧ (∀ (s : State) (slot : Nat) (v : VLine), s.physWhy slot = none → s.vl slot = some v → s.evictable v = true →
    (v.vdirty = true ∨ (s.dirtyCopy slot).isSome = true) → Memory.wf s.hbm = true →
    ∃ t, exec (.dieLinkFailure slot) s = .next t ∧ t.vl slot = none ∧ (∀ a, t.copy a slot = none)
      ∧ ∀ k b, (s.imageOf slot poisonLine v.elig)[k]? = some b → hbmGet t.hbm (160 * slot + k) = BitVec.ofNat 8 b)
  ∧ (∀ (s : State) (slot c : Nat), s.physWhy slot = some c → ∀ l elig, ∀ i ∈ [Instr.hbmRead slot, .hbmWrite slot l elig],
    exec i s = .next (s.raise (Event.phys c (648 + shellOf slot) (81 * slot))))
  ∧ (∀ (s : State) (slot : Nat) (l : Line) (elig : Bool), s.physWhy slot = none → l.w.length = 27 → Memory.wf s.hbm = true →
    ∃ t, exec (.hbmWrite slot l elig) s = .next t ∧ t.vlines = s.vlines ∧ t.copies = s.copies
      ∧ (∀ k b, (s.imageOf slot l elig)[k]? = some b → hbmGet t.hbm (160 * slot + k) = BitVec.ofNat 8 b)
      ∧ ∀ a, a < 160 * slot ∨ 160 * slot + (s.imageOf slot l elig).length ≤ a → hbmGet t.hbm a = hbmGet s.hbm a)
  ∧ (∀ (s : State) (slot : Nat) (r : Read), s.physWhy slot = none → hbmUntouched s.hbm slot = false →
    readImage (s.isB slot) (s.tablesOf slot) (hbmSlot s.hbm slot) = r →
    (r.bad = false → r.fixed = 0 → exec (.hbmRead slot) s = .next s)
    ∧ (r.bad = true ∨ r.fixed ≠ 0 → ∃ t, exec (.hbmRead slot) s = .next t ∧ t.hbm = s.hbm ∧ t.vlines = s.vlines
      ∧ (assocGet t.scores (slot / 27)).getD 0 = min 9841 ((assocGet s.scores (slot / 27)).getD 0 + if r.bad then 27 else 1)))

/-- An access of a host to a line becomes the request that its home serves; before the boot has ended, beyond memory, or at a frame of
another format it draws an error response; a read at BAR 4 is answered with the words' bytes. The image window collects a line's bytes,
writes a complete image that holds, and gives up after 1 ms (R58–R61, R378). The model's choices in it: log entries 25, 47 and 56. -/
def Obligations.HostWindows : Prop :=
  (∀ (s : State) (who off : Nat) (bytes : List (BitVec 8)) (len : Nat),
    (s.ready = false → ∀ i ∈ [Instr.hostBinaryWrite who off bytes, .hostBinaryRead who { bar := 0, off := off } len, .hostImageWrite who off bytes,
        .hostImageRead who off len], exec i s = .next (s.hostError who off false))
    ∧ (s.ready = true ∨ bootWords off len = true →
      exec (.hostBinaryRead who { bar := 4, off := off } len) s = .next { s with answers := s.answers ++ [(who, .data (s.barBytes off len))] }))
  ∧ (∀ (s : State) (who off : Nat) (bytes : List (BitVec 8)), s.ready = true → bytes ≠ [] → off % 128 + bytes.length ≤ 128 →
    (slotCount ≤ off / 128 → exec (.hostBinaryWrite who off bytes) s = .next (s.hostError who off false)
      ∧ exec (.hostBinaryRead who { bar := 0, off := off } bytes.length) s = .next (s.hostError who off false))
    ∧ (off / 128 < slotCount → s.isB (off / 128) = true → s.inReset (off / 128) = false → exec (.hostBinaryWrite who off bytes) s = .next (s.later [.homeHw
        { slot := off / 128, op := .bytes ((List.range bytes.length).map (fun (i : Nat) => (off % 128 + i, bytes.getD i 0))), src := .host who,
          elig := some false, fmt := some true }])
      ∧ exec (.hostBinaryRead who { bar := 0, off := off } bytes.length) s = .next
        (s.later [.homeHr { slot := off / 128, src := .host who false (off % 128) bytes.length, fmt := some true }]))
    ∧ (off / 128 < slotCount → s.isB (off / 128) = false ∨ s.inReset (off / 128) = true → exec (.hostBinaryWrite who off bytes) s = .next (s.hostError who off true)
      ∧ exec (.hostBinaryRead who { bar := 0, off := off } bytes.length) s = .next (s.hostError who off true)))
  ∧ (∀ (s : State) (who off len : Nat), s.ready = true → 0 < len → off % 160 + len ≤ 160 → off / 160 < slotCount →
    exec (.hostImageRead who off len) s = .next (if s.frame (off / 160 / 27) < 2 ∧ s.inReset (off / 160) = false
      then s.later [.homeHr { slot := off / 160, src := .host who true (off % 160) len, fmt := none }] else s.hostError who off true))
  ∧ (∀ (s : State) (who off : Nat) (bytes : List (BitVec 8)), s.ready = true → bytes ≠ [] → off % 160 + bytes.length ≤ 160 →
    off / 160 < slotCount → s.inReset (off / 160) = false → s.stage? who (off / 160) = none →
    (s.staging.filter (fun (g : Stage) => shellOf g.slot == shellOf (off / 160))).length < 81 →
    (bytes.length < 160 → ∃ t, exec (.hostImageWrite who off bytes) s = .next t ∧ { t with staging := s.staging } = s ∧ t.staging = s.staging ++
      [⟨who, off / 160, s.cycle, (List.range bytes.length).map (fun (i : Nat) => (off % 160 + i, bytes.getD i 0))⟩])
    ∧ (bytes.length = 160 → stagedOk (bytes.map (·.toNat)) = true → s.isT (off / 160) = true →
      exec (.hostImageWrite who off bytes) s = .next (s.later [.homeHw
        { slot := off / 160, op := .words ((List.range 27).zip (stagedLine (bytes.map (·.toNat))).w), src := .host who, elig := some false }])))
  ∧ (∀ (s : State) (who slot : Nat) (g : Stage), s.stage? who slot = some g →
    (s.cycle < g.start + 2100000 → exec (.imageStagingTimeout who slot) s = .next s)
    ∧ (g.start + 2100000 ≤ s.cycle → ∃ t, exec (.imageStagingTimeout who slot) s = .next t ∧ t.stage? who slot = none
      ∧ t.shellLog = s.shellLog ++ [160 * slot] ∧ t.answers = s.answers ++ [(who, .refused)]))

/-- A die counts trytes in a sampling window, ranks them at its end, and makes the new table active once its sweep has re-encoded the lines
of its slot; a table that comes too early is dropped (R108–R110). The clearing house performs its frame commands and answers in CHSTAT, and
a patrol scrub reads every slot and shifts every score by a trit (R47, R397, R398). The model's choices in it: log entries 51 and 59. -/
def Obligations.DenominationsAndFrames : Prop :=
  (∀ (s : State) (die n : Nat), die < s.dies.length → ∃ t, exec (.resamplingInterval { die := die, n := n }) s = .next t ∧ { t with dies := s.dies } = s
    ∧ t.die die = { s.die die with denom :=
        { (s.die die).denom with counts := [], sampling := true, start := s.cycle, n := if 20 ≤ n ∧ n ≤ 26 then n else (s.die die).denom.n } } ∧ ∀ d, d ≠ die → t.die d = s.die d)
  ∧ (∀ (s : State) (die : Nat), (s.die die).denom.sampling = true →
    ((s.die die).denom.ready = none → ∃ t, exec (.samplingWindowEnd die) s = .next t ∧ .denominationSweep die ∈ t.agenda
      ∧ (t.die die).denom = { (s.die die).denom with sampling := false, counts := [], ready := some (rankTable (s.die die).denom.counts) })
    ∧ ((s.die die).denom.ready ≠ none → ∃ t, exec (.samplingWindowEnd die) s = .next t
      ∧ (t.die die).denom = { (s.die die).denom with sampling := false, counts := [] }))
  ∧ (∀ (s : State) (die : Nat) (table : List Int), (s.die die).denom.ready = some table → s.compressedSlots die (s.die die).denom.target = [] →
    ∃ t, exec (.denominationSweep die) s = .next t ∧ t.hbm = s.hbm ∧ t.vlines = s.vlines
      ∧ (∀ d, s.die die = d → (t.die die).denom = { d.denom with tables := setNth d.denom.tables d.denom.target (some table), active := some d.denom.target, ready := none, sweeping := false }))
  ∧ (∀ (s : State) (f : Nat), s.ready = true → s.chFrame = some f → ∀ free : Int → Prop, (∀ op, free op ↔ s.cwInt 6651 = 0 ∨ s.cwInt 6651 = op) →
    (free (-1) → ∃ t, exec Instr.chScore s = .next t ∧ t.cw 6652 = .ofInt ((assocGet s.scores f).getD 0 : Nat) ∧ t.cwInt 6651 = 0 ∧ t.scores = s.scores)
    ∧ (free (-2) → ∃ t, exec .chClear s = .next t ∧ assocGet t.scores f = none ∧ t.cwInt 6652 = 1 ∧ t.cwInt 6651 = 0)
    ∧ (free 4 → ∃ t, exec .chScrub s = .next t ∧ t.cwInt 6652 = 1 ∧ t.cwInt 6651 = 0 ∧ t.frames = s.frames ∧ t.vlines = s.vlines)
    ∧ (free 3 → (frameSlots f).any s.busy = false → ∃ t, exec .chRetire s = .next t ∧ t.frame f = 2 ∧ t.cwInt 6652 = 1 ∧ t.cwInt 6651 = 0
      ∧ ∀ x, x / 27 = f → t.vl x = none)
    ∧ (s.frame f < 2 → (frameSlots f).any s.busy = false → Memory.wf s.hbm = true →
      ∀ i op code l, (i, op, code, l) ∈ [(Instr.chZeroT, (1 : Int), 0, zeroLine), (.chZeroB, 2, 1, zeroLineB)] → free op →
      ∃ t, exec i s = .next t ∧ t.frame f = code ∧ t.cwInt 6651 = 0 ∧ (t.cwInt 6652 = 1 ∨ t.cwInt 6652 = -1)
        ∧ ∀ x, x / 27 = f → t.vl x = none ∧ ∀ k b, (if code = 0 then imageT l else imageB l)[k]? = some b → hbmGet t.hbm (160 * x + k) = BitVec.ofNat 8 b))
  ∧ (∀ s : State, ∀ p ∈ [(Instr.chZeroT, (1 : Int)), (.chZeroB, 2), (.chRetire, 3), (.chScrub, 4), (.chScore, -1), (.chClear, -2)],
    (s.ready = true → s.chFrame = none → s.cwInt 6651 = 0 ∨ s.cwInt 6651 = p.2 →
      ∃ t, exec p.1 s = .next t ∧ t.cwInt 6652 = -2 ∧ t.cwInt 6651 = 0 ∧ t.hbm = s.hbm)
    ∧ (s.ready = true → s.cwInt 6651 ≠ 0 → s.cwInt 6651 ≠ p.2 → exec p.1 s = .next s)
    ∧ (s.ready = false → exec p.1 s = .next (s.hostError barWriter (8 * 6651) false)))
  ∧ (∀ s u : State, s.patrolled = u → (u.scores.map (·.1)).Nodup → ∃ t, exec .patrolScrubPass s = .next t ∧ { t with scores := u.scores } = u
    ∧ ∀ f, (assocGet t.scores f).getD 0 = (dropTrits 1 ((assocGet u.scores f).getD 0 : Nat)).toNat)

/-- An armed graph releases node 0, and a malformed one faults; each kind of node does its work and completes; a completed node signals its
successors, and an end node starts the graph anew once no other node of its run is left; an end node left from an earlier run only ends
(R354–R361). The model's choices in it: log entries 21, 27 and 53. -/
def Obligations.GraphSteps : Prop :=
  (∀ (s : State) (slot : Nat), slot < 27 → s.ready = true →
    (s.graphState slot ≠ 1 → 0 ≤ s.cwInt (729 + 3 * slot) → s.cwInt (729 + 3 * slot) % 81 = 0 → 1 ≤ s.cwInt (730 + 3 * slot) →
      s.cwInt (730 + 3 * slot) ≤ 6561 → (∀ g, s.graph? slot = some g → 0 ∉ g.running) →
      ∀ s1 l, (s.armed slot).walkerRead (s.nodeAddr slot 0 / 81) = (s1, some l) → nodeOk (s.cwInt (730 + 3 * slot)) l = true →
      exec (.graphArm slot) s = .next (s1.released slot 0 l) ∧ (s1.released slot 0 l).graphState slot = 1)
    ∧ (s.graphState slot ≠ 1 → s.cwInt (729 + 3 * slot) % 81 ≠ 0 → ∃ t, exec (.graphArm slot) s = .next t ∧ t.graphState slot = -1)
    ∧ ∃ t, exec (.graphEmpty slot) s = .next t ∧ t.graphState slot = 0 ∧ { t with ctl := s.ctl, graphs := s.graphs } = s
      ∧ t.graph? slot = (s.graph? slot).map (fun (g : Graph) => { g with counts := [], pending := [], ending := false, old := g.running }))
  ∧ (∀ (s : State) (slot node : Nat) (l : List Word), s.nodeRuns slot node = true → s.nodeWords slot node = l →
    (intAt l 0 = 1 → s.grids.find? (fun (g : Grid) => g.src == some (slot, node)) = none → ∃ t g, exec (.gridNode slot node) s = .next t
      ∧ t.grids = s.grids ++ [g] ∧ g.num = s.ngrid ∧ g.src = some (slot, node) ∧ g.part = s.partOfSlot slot ∧ g.node = l ∧ g.next = 0 ∧ g.live = 0
      ∧ .teamPlacement s.ngrid ∈ t.agenda)
    ∧ (intAt l 0 = 2 → ∀ (n : Nat) (c : Ctx) (at_ read : Nat → State) (w : Nat → List Word), intAt l 7 = n → c = s.nodeCtx slot (intAt l 8) →
      (s.nodeWork slot node).1 ≤ n → at_ (s.nodeWork slot node).1 = s →
      (∀ i, (s.nodeWork slot node).1 ≤ i → i < n →
        (at_ i).nodeReadLine c (.ofNum ((wordAt l 5).num + 81 * i)) = (read i, .ok (w i))
        ∧ ∃ u, (read i).nodeWrite c (.ofNum ((wordAt l 6).num + 81 * i)) ((List.range 27).zip (w i)) = (u, .ok ())
          ∧ at_ (i + 1) = u.setNodeWork slot node (i + 1) false) →
      exec (.copyNode slot node) s = .next ((at_ n).later [.nodeComplete slot node (nodeSuccs l)]))
    ∧ (intAt l 0 = 3 → (∀ e, s.exch? (.node slot node) = some e → exec (.collectiveNode slot node) s = .next (s.advanceExch (.node slot node)))
      ∧ (s.exch? (.node slot node) = none → ∀ s1,
        (s.walkerRead ((intAt l 5).toNat / 81) = (s1, none) → exec (.collectiveNode slot node) s = .next ((s1.faultGraph slot node).nodeOff slot node))
        ∧ (∀ w s2 ranks, s.walkerRead ((intAt l 5).toNat / 81) = (s1, some w) → collRefused (intAt l 6) w s1.rank = false →
          s1.nodeRanks (intAt l 6) w = (s2, some ranks) → (isPair (intAt l 6) = false → listRefused (intAt l 6) w ranks s2.rank = false) →
          (intAt w 3 = 0 → exec (.collectiveNode slot node) s = .next (s2.later [.nodeComplete slot node (nodeSuccs l)]))
          ∧ (intAt w 3 ≠ 0 → (ranks.length ≤ 1 ∨ s2.hasPort (s2.partOfSlot slot) = true) → exec (.collectiveNode slot node) s = .next
            ((s2.openExch (.node slot node) (intAt l 6) w (ranks.map Int.toNat) false).advanceExch (.node slot node))))))
    ∧ (intAt l 0 = 4 → ∀ s1 w, s.nodeRead (s.nodeCtx slot (intAt l 7)) (wordAt l 5) = (s1, .ok w) →
      exec (.conditionNode slot node) s = .next (s1.later [.nodeComplete slot node
        [if w.val < 0 then intAt l 1 else if w.val = 0 then intAt l 2 else intAt l 3]]))
    ∧ (intAt l 0 = -1 → ∀ s1 w, s.nodeRead (s.nodeCtx slot (intAt l 7)) (wordAt l 5) = (s1, .ok w) →
      exec (.whileNode slot node) s = .next (s1.later [.nodeComplete slot node [if 0 < w.val then intAt l 1 else intAt l 2]]))
    ∧ (intAt l 0 = -2 → ∀ s1 x w, s.nodeReadAt (s.nodeCtx slot (intAt l 7)) (wordAt l 5) true = (s1, .ok (x, w)) →
      (codeHolds (intAt l 8) (Int.sign (intAt w (wordOf (wordAt l 5)) - intAt l 6)) = true → ∃ t, exec (.waitWordNode slot node) s = .next t
        ∧ t.agenda = s1.agenda ++ [.nodeComplete slot node (nodeSuccs l)] ∧ t.hbm = s1.hbm)
      ∧ (codeHolds (intAt l 8) (Int.sign (intAt w (wordOf (wordAt l 5)) - intAt l 6)) = false →
        exec (.waitWordNode slot node) s = .next (s1.watchWord slot node x.slot)))
    ∧ (intAt l 0 = -3 → ∀ s1, s.nodeWrite (s.nodeCtx slot (intAt l 7)) (wordAt l 5) [(wordOf (wordAt l 5), wordAt l 6)] = (s1, .ok ()) →
      ∃ t, exec (.signalNode slot node) s = .next t ∧ t.agenda = s1.agenda ++ [.nodeComplete slot node (nodeSuccs l)]
        ∧ t.irqs = s1.irqs ++ (if 0 ≤ intAt l 8 then [(intAt l 8).toNat] else []) ∧ t.vlines = s1.vlines))
  ∧ (∀ (s : State) (slot node : Nat) (g : Graph), slot < 27 → s.graph? slot = some g → s.graphState slot = 1 →
    (intAt (s.nodeWords slot node) 0 = -4 → node ∈ g.running →
      (node ∈ g.old → exec (.endNode slot node) s = .next (s.nodeOff slot node))
      ∧ (node ∉ g.old → g.ending = true →
        ((s.otherNodes slot g).all g.old.contains = true → 0 ∉ s.otherNodes slot g → ∀ s1 l,
          (s.modGraph slot (fun x => { x with counts := [], pending := [], ending := false, running := s.otherNodes slot g })).walkerRead
            (s.nodeAddr slot 0 / 81) = (s1, some l) → nodeOk (s.cwInt (730 + 3 * slot)) l = true →
          exec (.endNode slot node) s = .next (s1.released slot 0 l))
        ∧ ((s.otherNodes slot g).all g.old.contains = false →
          exec (.endNode slot node) s = .next (s.modGraph slot (fun x => { x with ending := true, running := s.otherNodes slot g })))))
    ∧ (node ∈ g.running → exec (.nodeComplete slot node [-1, -1, -1]) s = .next (s.nodeOff slot node))
    ∧ (node ∈ g.running → node ∉ g.old → g.ending = false → g.pending = [] → ∀ (i : Nat) s1 l, i ∉ g.running → (∀ c ∈ g.counts, c.1 ≠ i) →
      (s.nodeOff slot node).walkerRead (s.nodeAddr slot i / 81) = (s1, some l) →
      (1 < intAt l 4 → exec (.nodeComplete slot node [(i : Int)]) s = .next (s1.modGraph slot (fun x => { x with counts := natPut x.counts i 1 })))
      ∧ (intAt l 4 = 1 → ∀ s2 l', (s1.modGraph slot (fun x => { x with counts := assocDel x.counts i })).walkerRead (s.nodeAddr slot i / 81)
          = (s2, some l') → nodeOk (s.cwInt (730 + 3 * slot)) l' = true →
        exec (.nodeComplete slot node [(i : Int)]) s = .next (s2.released slot i l'))))

/-- A grid's next team is placed on a core of its partition that can reserve all it needs, with the registers and presets of a launch; a
saved team returns with what it held. PREEMPTION marks the victims, TEAM_SAVE moves a drained team to the save pool, TEAM_END frees an ended
team, and a completed grid leaves, with its status written and its node complete (R341–R343, R363–R366, R381–R389). The model's choices in
it: log entries 8 and 46. -/
def Obligations.PlacementSteps : Prop :=
  (∀ (s t : State) (g : Grid), s.grid? g.num = some g → g.waiting = true → (∀ v ∈ s.saved, v.team.grid ≠ g.num) → s.outranked g = false →
    s.placeUnit g = some t → exec (.teamPlacement g.num) s = .next t
      ∧ (g.coop = false → intAt g.node 19 = 1 → ∃ core slot base, core ∈ s.partCores g.part ∧ s.fitsCore g.node core = some base
        ∧ t.teams = s.teams ++ [Team.launch s.nteam g.num g.next core slot base 0 g.next s.cycle g.node]))
  ∧ (∀ (s : State) (g : Grid) (v : List Nat), s.grid? g.num = some g → s.hasWork g = true → s.freed.placeNext g = none → s.victimsFor g = some v →
    s.poolTakes (s.teams.filter (fun (t : Team) => v.contains t.num)) = true →
    ∃ t, exec (.preemption g.num) s = .next t
      ∧ t.teams = s.teams.map (fun (x : Team) => if x.num ∈ v then { x with saving := true } else x))
  ∧ (∀ (s s1 s2 : State) (n a : Nat) (tm tm1 : Team), s.team? n = some tm → tm.saving = true → tm.ending = false → s.draining tm = false →
    ((s.threadsOf n).foldl (fun (u : State) (p : TRef × Thread) => u.saveThread p.1) (s.recallPubs n)).sweepLeases = s1 → s1.team? n = some tm1 →
    (∀ x ∈ s1.teams, x.num = n → x.handler = none) → physLine (s1.cwInt 810) = true → s1.poolPlace (s1.imageSize tm1) = some a →
    s1.putLines ((s1.cwInt 810).toNat / 81 + a) (s1.saveImage tm1) = some s2 →
    ∃ t, exec (.teamSave n) s = .next t ∧ t.team? n = none
      ∧ t.saved = s2.saved ++ [{ line := a, lines := s1.imageSize tm1, team := { tm1 with saving := false, body := { tm1.body with
          escrow := tm1.body.escrow.map (fun e => { e with spilled := true }), shadows := [], shtiles := [] } } }])
  ∧ (∀ (s u t : State) (k : Nat) (v w : Saved) (g : Grid), s.saved[k]? = some v → s.grid? v.team.grid = some g →
    (∀ x ∈ s.teams, x.saving = false) → s.outranked g = false → s.getImages (s.restoredWith v g) = some u →
    u.saved.find? (fun (x : Saved) => x.team.num == v.team.num) = some w → u.restoredWith { v with team := w.team } g = [w] →
    u.placeCrew g.node (u.partCores g.part) [restoreOn w] = some t → exec (.teamRestore k) s = .next t)
  ∧ (∀ (s : State) (n : Nat) (tm : Team), s.team? n = some tm → tm.ending = true → s.liveThreads n = [] → tm.body.cmds = [] → tm.pubs = [] →
    tm.body.escrow = [] → tm.body.parts = [] → s.piecesOn n = false → (∀ p ∈ s.threadsOf n, p.2.unackSyn = 0) → (∀ x ∈ s.teams, x.grid = tm.grid → x = tm) →
    ∃ t, exec (.teamEnd n) s = .next t ∧ t.teams = s.teams.filter (fun (x : Team) => x.num != n)
      ∧ ∀ g, s.grid? tm.grid = some g → t.grid? tm.grid = some { g with live := g.live - 1 })
  ∧ (∀ (s : State) (g : Grid), s.grid? g.num = some g → g.killed = false → g.live = 0 → g.waiting = false → g.unack = 0 → g.deferred = [] →
    ∀ s1, (wordAt g.node 22 = .zero ∧ s1 = s) ∨ (wordAt g.node 22 ≠ .zero ∧
      s.nodeWrite { core := 324, asrec := (intAt g.node 21).toNat, part := g.part, sys := true } (wordAt g.node 22)
        [(wordOf (wordAt g.node 22), .ofInt (if g.err then -1 else 1))] = (s1, .ok ())) →
      ∃ t, exec (.gridCompletion g.num) s = .next t ∧ t.grids = s1.grids.filter (fun (x : Grid) => x.num != g.num) ∧ t.vlines = s1.vlines
        ∧ t.agenda = s1.agenda ++ (g.src.map (fun (p : Nat × Nat) => Instr.nodeComplete p.1 p.2 (nodeSuccs g.node))).toList)

/-- The merge of a DET grid at its end writes each word that the teams' entries give once, from the first team in order (R335); a rollback
brings back the recorded cabinet, tiles and registers (R392), and a disagreement under VIGIL rolls the team back (R396). The model's choices
in it: log entries 46 and 48. -/
def Obligations.MergeAndRollback : Prop :=
  (∀ (s s1 : State) (g : Grid), s.grid? g.num = some g → g.killed = false → g.live = 0 → g.deferred ≠ [] → s.phaseStands g.num = false →
    s.lostTeams g.num = [] →
    (s.modGrid g.num (fun (x : Grid) => { x with merging := true })).freshAll g.num = { s := s1, placed := [], lost := [], held := [], busy := false } →
    ∀ d, d = recordWords (((s1.grid? g.num).map (·.desk)).getD []) (ordinaryWords (s1.contribs g.num)) → d.clash = [] →
    ∃ t, exec (.detMerge g.num) s = .next t ∧ t.hbm = s1.hbm ∧ t.vlines = s1.vlines
      ∧ (∀ r ∈ recordWrites g.num d.writes, .homeHw r ∈ t.agenda)
      ∧ (∀ x, t.grid? g.num = some x → x.deferred = [] ∧ x.merging = false) ∧ ∀ x ∈ t.teams, x.grid = g.num → x.body.escrow = [])
  ∧ (∀ (s : State) (n : Nat) (tm : Team) (b : TeamBody), s.team? n = some tm → tm.opened = some b → tm.handedOn = false → (s.readPool tm).2 = true →
    tm.covered = true → tm.irrevocable = false → tm.rbHere < 3 → tm.pubs = [] → (∀ p ∈ s.threadsOf n, p.2.leases = []) →
    ∃ t tm', exec (.rollback n) s = .next t ∧ t.team? n = some tm'
      ∧ tm'.rbcnt = tm.rbcnt + 1 ∧ tm'.events = [] ∧ tm'.handler = none ∧ tm'.body.cab = b.cab ∧ tm'.body.tiles = b.tiles
      ∧ tm'.ending = false ∧ tm'.body.escrow = b.escrow.map (fun (e : ELine) => { e with spilled := true, flips := [] }) ∧ tm'.body.recs = b.recs ∧ tm'.body.shadows = b.shadows
      ∧ ∀ (i : Nat) (q q' : Squad), b.squads[i]? = some q → tm.body.squads[i]? = some q' →
          ∃ q'' : Squad, tm'.body.squads[i]? = some q'' ∧ q''.kb = q.kb ∧ q''.groups = q.groups ∧ q''.frozen = false
            ∧ ∀ (l : Nat) (th th' : Thread), q.threads[l]? = some th → q'.threads[l]? = some th' → th.wins = [] →
                ∃ th'' : Thread, q''.threads[l]? = some th'' ∧ th''.regs = th.regs ∧ th''.preds = th.preds ∧ th''.pc = th.pc)
  ∧ (∀ (s : State) (core n q : Nat), (s.shadowBad n q = false ∨ s.coreOf n ≠ core → exec (.vigilCompare core n q) s = .next s)
    ∧ (s.shadowBad n q = true → exec (.vigilCompare (s.coreOf n) n q) s = .next ((s.raise (s.teamEvent 9 n 0 .zero 0)).rollBack n)))

/-- A flit with a bad CRC is retried on its link, with the event of its port. A line of a peer is written at its home and acknowledged; a
pull is answered with the line that its collective holds, or waits; pulled data is kept; an acknowledged line is no longer in flight, and a
command's last one ends it. Stamps never go back; their loss is an event, which its line in the log records. A port that goes down is out of
use, and its partition's flits go through another port or fail (R128, R208, R209, R399, R402, R407, R408). The model's choices in it: log
entries 22, 23 and 48. -/
def Obligations.FabricSteps : Prop :=
  (∀ (s : State) (f : Flit) (port : Nat), f.bad = some port →
    ∀ i ∈ [Instr.flitLineWrite, .pullRequest, .pullData, .flitAcknowledgement], exec (i f) s = .next
      ((s.raise (Event.plain 23 (656 + port))).later [i { f with bad := none }]))
  ∧ (∀ (s : State) (f : Flit), f.bad = none → exec (.flitLineWrite f) s = .next (s.later [.homeHw
      { slot := f.slot, op := .trytes (f.mask.map (fun (i : Nat) => (i, (lineTrytes f.line).getD i 0))), src := .peer f.src f.tag f.idx,
        elig := some false }]))
  ∧ (∀ (s : State) (f : Flit), f.bad = none → (s.exchOf f = none → exec (.pullRequest f) s = .next (s.later [.pullRequest f]))
    ∧ ∀ e, s.exchOf f = some e → e.ended = false → s.exchLost e = false →
      (e.sig = f.sig → f.rep ≠ 8 → s.exchWaits e = false → e.reduces = false → ∀ s1 l, s.collLine e f.idx = (s1, .ok l) →
        exec (.pullRequest f) s = .next (s1.serveLine e f l))
      ∧ (e.sig ≠ f.sig → exec (.pullRequest f) s = .next ((s.endExch e.who 8).answerPull e f [] 8)))
  ∧ (∀ (s s1 : State) (f : Flit), s1 = { s with flits := s.flits.filter (fun q => !Flit.answers f q) } → f.bad = none → ∀ e, s1.exchOf f = some e →
    e.ended = false → s1.exchLost e = false → f.rep ≠ 8 → f.sig = e.sig →
    (f.rep ≠ 0 → exec (.pullData f) s = .next (s1.endExch e.who 13))
    ∧ (f.rep = 0 → (e.posOf f.src, f.idx) ∈ e.needs (e.posOf s.rank) → e.gotLine (e.posOf f.src) f.idx = none →
      ∀ s2, s2 = s1.modExch e.who (fun (q : Exch) => { q with got := q.got ++ [(e.posOf f.src, f.idx, f.line.w)] }) →
      exec (.pullData f) s = .next (if s2.exchWaits e then s2 else s2.advanceExch e.who)))
  ∧ (∀ (s : State) (f q : Flit) (n seq : Nat) (c : Cmd), f.bad = none → s.flits.find? (fun q => Flit.answers f q) = some q → q.owner = some (n, seq) →
    s.cmd? n seq = some c → ∃ t, exec (.flitAcknowledgement f) s = .next t ∧ t.flits = s.flits.erase q
      ∧ (1 < c.outstanding → t.cmd? n seq = some { c with outstanding := c.outstanding - 1 })
      ∧ (c.outstanding = 1 → c.status = none → (t.cmd? n seq).map (·.status) = some (some 0) ∧ .engineCommandComplete n seq ∈ t.agenda))
  ∧ (∀ (s : State) (p value : Nat), p < s.stamps.length → ∃ t, exec (.timeSync p value) s = .next t ∧ { t with stamps := s.stamps } = s
    ∧ t.stampOf p = max (s.stampOf p) (value % 3 ^ 54) ∧ ∀ q, q ≠ p → t.stampOf q = s.stampOf q)
  ∧ (∀ s : State, s.action 25 656 = 2 → s.hushed 656 = false → ∃ t e, exec .stampSyncLoss s = .next t ∧ t.logq = s.logq ++ [e]
    ∧ e.src = 656 ∧ e.words.length = 27 ∧ e.words.take 2 = [.ofInt 25, .ofInt 656]
    ∧ t.irqs = s.irqs ++ (if 0 ≤ s.cwInt 6604 ∧ s.cwInt 6604 ≤ 728 then [(s.cwInt 6604).toNat] else [])
    ∧ { t with logq := s.logq, irqs := s.irqs } = s)
  ∧ (∀ (s : State) (e : LogEv), s.logq = [e] → 0 < s.cwInt 6601 → s.cwInt 6602 + s.logsPending - s.cwInt 6603 < s.cwInt 6601 →
    ∃ r, s.flushLog.agenda = s.agenda ++ [.homeHw r] ∧ s.flushLog.logq = [] ∧ r.src = .log ∧ r.op = .words ((List.range 27).zip e.words)
      ∧ (0 ≤ s.cwInt 6600 → 0 ≤ s.cwInt 6602 →
          r.slot = (s.cwInt 6600 / 81 + (s.cwInt 6602 + s.logsPending) % s.cwInt 6601).toNat))
  ∧ (∀ (s : State) (port p : Nat), port ∉ s.down →
    (List.range 9).find? (fun (p : Nat) => trit (s.partWord p (7 + port / 24)) (port % 24) == 1) = some p →
    ∃ t, exec (.fabricPortDown port) s = .next t ∧ t.down = s.down ++ [port]
      ∧ (({ s with down := s.down ++ [port] } : State).portUp p none = true → t.flits = s.flits ∧ ∀ f ∈ t.sent, f ∈ s.sent ∨ (f ∈ s.flits ∧ s.flitPart f = some p))
      ∧ (({ s with down := s.down ++ [port] } : State).portUp p none = false → t.flits = s.flits.filter (fun f => s.flitPart f != some p)))

/-- The governor withholds one more ninth of the issue cycles while the rails are near their limit or a die is hot, and one less while all
have room; the droop detectors and THERMTRIP stop issue; a thermal trip with nothing pending ends the run (R460, R461). The model's choices
in it: log entries 14 and 50. -/
def Obligations.PowerSteps : Prop :=
  (∀ (s : State) (irail temp : List Int), irail.length = 4 → temp.length = 4 → ∃ t, exec (.governorTick irail temp) s = .next t
    ∧ { t with ctl := s.ctl } = s ∧ (∀ i < 4, t.cw (20003 + i) = .ofInt (irail.getD i 0) ∧ t.cw (20007 + i) = .ofInt (temp.getD i 0))
    ∧ (∀ k, (k < 20003 ∨ 20010 < k) → k ≠ 20012 → t.cw k = s.cw k)
    ∧ (s.cwInt 20011 - 90 < irail.sum ∨ (∃ x ∈ temp, s.cwInt 20014 < x) → t.cw 20012 = .ofInt (min (s.cwInt 20012 + 1) 8))
    ∧ (irail.sum < s.cwInt 20011 - 450 ∧ (∀ x ∈ temp, x ≤ s.cwInt 20014 - 2) → t.cw 20012 = .ofInt (max (s.cwInt 20012 - 1) 0))
    ∧ (irail.sum ≤ s.cwInt 20011 - 90 ∧ (∀ x ∈ temp, x ≤ s.cwInt 20014)
        ∧ (s.cwInt 20011 - 450 ≤ irail.sum ∨ ∃ x ∈ temp, s.cwInt 20014 - 2 < x) → t.cw 20012 = s.cw 20012))
  ∧ (∀ (s : State) (u : Int), ∃ t, exec (.ilimUpdate u) s = .next t ∧ t.cw 20011 = .ofInt (min 9000 ((s.cwInt 20000 - u) * 100 / 42))
    ∧ { t with ctl := s.ctl, tick := s.tick } = s ∧ ∀ k, k ≠ 20001 → k ≠ 20002 → k ≠ 20011 → t.cw k = s.cw k)
  ∧ (∀ (s : State) (core : Nat), core < 324 → (∃ t, exec (.droopDetect core) s = .next t ∧ { t with cores := s.cores } = s
      ∧ t.core core = { s.core core with droop := true } ∧ ∀ k, k ≠ core → t.core k = s.core k)
    ∧ ∃ t, exec (.localSupplyRecovery core) s = .next t ∧ { t with cores := s.cores } = s
      ∧ t.core core = { s.core core with droop := false } ∧ ∀ k, k ≠ core → t.core k = s.core k)
  ∧ (∀ (s : State) (die : Nat), ∃ t, exec (.thermtrip die) s = .next t ∧ t = { s with thermtrip := true }
    ∧ (∀ core, exec (.issueSelection core) t = .next t) ∧ (s.issue = [] → s.agenda = [] → step t = .fault .thermtrip))

/-- A cold reset, also by a core rail's under-voltage, leaves memory zero, no team, no grid and empty caches, keeps the fuses, and reports
how its boot ended. A partition reset kills the partition's contexts and refuses what hosts ask of its frames, and once they have completed
it zeroes its frames; a function-level reset begins one, that keeps the frame format table, for every partition in use, and returns words to
their defaults. A partition is written only while it does not run (R446–R459). The model's choices in it: log entries 35 and 36. -/
def Obligations.ResetSteps : Prop :=
  (∀ (s : State) (die : Nat), exec (.coreRailUndervoltage die) s = exec .coldReset s
    ∧ ∃ t, exec .coldReset s = .next t ∧ t.hbm = [] ∧ t.teams = [] ∧ t.grids = [] ∧ t.vlines = [] ∧ t.copies = [] ∧ t.cores = []
      ∧ t.agenda = [] ∧ t.cycle = 0 ∧ t.nv.devpub = s.nv.devpub ∧ t.nv.seeds = s.nv.seeds ∧ t.nv.lcs = s.nv.lcs ∧ t.nv.keyHash = s.nv.keyHash
      ∧ s.nv.fwsvn ≤ t.nv.fwsvn ∧ (∀ k : Nat, s.nv.revoked.getD k false = true → t.nv.revoked.getD k false = true)
      ∧ (s.nv.sound = false → t.cwInt 19683 = -2) ∧ (s.nv.sound = true → s.nv.bootSlot = none → t.cwInt 19683 = -1)
      ∧ (s.nv.sound = true → s.nv.bootSlot ≠ none → t.cwInt 19683 = 1 ∨ t.cwInt 19683 = -3))
  ∧ (∀ (s : State) (p : Nat), field (s.partWord p 0) 1 0 ≠ 0 → s.resets.find? (fun r => r.1 == p) = none → (s.grids.map (·.num)).Nodup →
    ∃ t, exec (.partitionReset p) s = .next t ∧ t.partWord p 0 = -1 ∧ t.resets = s.resets ++ [(p, false)] ∧ .partitionReset p ∈ t.agenda
      ∧ (∀ g ∈ t.grids, g.part = p → g.killed = true ∧ g.live = 0) ∧ (∀ x ∈ t.teams, ∀ g ∈ t.grids, g.num = x.grid → g.part ≠ p)
      ∧ (∀ g < 27, trit (s.partWord p 10) g = 1 → t.graphState g = 0) ∧ t.hbm = s.hbm ∧ t.frames = s.frames
      ∧ (∀ r who, .homeHw r ∈ t.agenda → r.src = .host who → s.partSlot p r.slot = false)
      ∧ ∀ k, k < 729 ∨ 811 < k → k ≠ 21000 + 12 * p → t.cw k = s.cw k)
  ∧ (∀ (s u : State) (p : Nat) (keep : Bool), s.resets.find? (fun r => r.1 == p) = some (p, keep) →
    (s.completes p = true → exec (.partitionReset p) s = .next (s.laterOnce (.partitionReset p)))
    ∧ (s.completes p = false → u = s.endContexts p → ∃ t, exec (.partitionReset p) s = .next t ∧ t.partWord p 0 = 1
      ∧ (∀ r ∈ t.resets, r.1 ≠ p) ∧ (∀ g ∈ t.grids, g.part ≠ p) ∧ (∀ v ∈ t.vlines, u.partSlot p v.slot = false)
      ∧ (∀ c ∈ t.copies, u.partSlot p c.slot = false) ∧ (∀ g ∈ t.graphs, g.slot < 27 → trit (s.partWord p 10) g.slot ≠ 1)
      ∧ (p < u.stamps.length → t.stampOf p = 0)
      ∧ (keep = false → ∀ f, u.partSlot p (27 * f) = true → u.frame f < 2 → t.frame f = 0)
      ∧ (keep = true → t.frames = u.frames)
      ∧ (∀ a, u.partSlot p (a / 160) = true → (if keep then u.frame (a / 160 / 27) = 0 else u.frame (a / 160 / 27) < 2) →
          hbmGet t.hbm a = hbmDefault a)
      ∧ (∀ a, u.partSlot p (a / 160) = false ∨ 2 ≤ u.frame (a / 160 / 27) → hbmGet t.hbm a = hbmGet u.hbm a)
      ∧ (∀ k, k ≠ 21000 + 12 * p → t.cw k = u.cw k)
      ∧ ((∀ c ∈ s.copies, c.leased = false) → (∀ v ∈ s.vlines, v.leased = false) → u.hbm = s.hbm ∧ u.ctl = s.ctl ∧ u.frames = s.frames)))
  ∧ (∀ (s : State) (p : Nat) (words : List Int), p < 9 →
    ((s.partTable p).running = true → exec (.partitionTableWrite p words) s = .next s)
    ∧ ((s.partTable p).running = false → PartTable.ok words = true →
        (PartTable.running words = true → ∀ q, q < 9 → q ≠ p → (s.partTable q).running = true → PartTable.share words (s.partTable q) = false) →
      ∃ t, exec (.partitionTableWrite p words) s = .next t ∧ { t with ctl := s.ctl } = s
        ∧ (∀ i < 12, t.cw (21000 + 12 * p + i) = .ofInt (words.getD i 0))
        ∧ ∀ k, k < 21000 + 12 * p ∨ 21012 + 12 * p ≤ k → t.cw k = s.cw k))
  ∧ (∀ s : State, ∃ t, exec .functionLevelReset s = .next t ∧ t.report = none ∧ t.nv = s.nv ∧ t.frames = s.frames
    ∧ (∀ k, flrWord k = true → t.cw k = resetWord k)
    ∧ ∀ p < 9, field (s.partWord p 0) 1 0 ≠ 0 → (∀ r ∈ s.resets, r.1 ≠ p) → t.partWord p 0 = -1 ∧ (p, true) ∈ t.resets)

/-- Words of device scope: a write to a word without behaviour stores it, one before the boot has ended or of a stamp control word draws an
error; provisioning draws the seeds once and computes the public key, and a return of the device erases the seeds; EXTGO extends a measurement, and ATTGO starts a report that is written and then reported done (R378, R453–R456). The model's
choices in it: log entries 22 and 32. -/
def Obligations.DeviceWords : Prop :=
  (∀ (s : State) (sel : Int) (v : Word), s.ready = true → 0 ≤ sel →
    (plainWord s sel v.val = true → ∃ t, exec (.controlWordWrite sel v) s = .next t ∧ t.cw sel.toNat = v ∧ { t with ctl := s.ctl } = s
      ∧ ∀ k, k ≠ sel.toNat → t.cw k = s.cw k)
    ∧ (plainWord s sel v.val = false → exec (.controlWordWrite sel v) s = .next (if stampWord sel = true then s.hostError barWriter (8 * sel).toNat true else s)))
  ∧ (∀ (s : State) (sel : Int) (v : Word), s.ready = false → exec (.controlWordWrite sel v) s = .next (s.hostError barWriter (8 * sel).toNat false))
  ∧ (∀ s : State, (s.nv.lcs ≠ -1 → s.nv.lcs ≠ 0 → exec .provisioning s = .next s)
    ∧ (s.nv.lcs = 0 → ∃ t, exec .provisioning s = .next t ∧ t.nv = { s.nv with lcs := 1 } ∧ t.cwInt 19684 = 1)
    ∧ (s.nv.lcs = -1 → ∃ t, exec .provisioning s = .next t ∧ t.nv.lcs = 0 ∧ t.cwInt 19684 = 0 ∧ t.nv.seeds = some (s.drawBytes 72)
      ∧ t.nv.devpub = slhPublic192 (s.drawBytes 72))
    ∧ ∃ t, exec .lifecycleReturn s = .next t ∧ t.nv.lcs = 2 ∧ t.nv.seeds = none ∧ t.cwInt 19684 = 2 ∧ t.nv.devpub = s.nv.devpub)
  ∧ (∀ s : State, s.ready = true → 4 ≤ s.cwInt 19800 → s.cwInt 19800 ≤ 8 → ∃ t, exec .extgo s = .next t
      ∧ t = s.setItems (19690 + 8 * (s.cwInt 19800).toNat) (sha256 (s.itemBytes (19690 + 8 * (s.cwInt 19800).toNat) 8 ++ s.itemBytes 19801 8)))
  ∧ (∀ s : State, s.ready = true → s.cwInt 19790 ≠ 1 →
    (s.cwInt 19684 = -1 ∨ s.cwInt 19684 = 2 → ∃ t, exec (.attgo none) s = .next t ∧ t.cwInt 19790 = -1)
    ∧ (s.cwInt 19684 ≠ -1 → s.cwInt 19684 ≠ 2 → 0 ≤ s.cwInt 19788 →
      (∀ i : Nat, i < 131 → (s.cwInt 19788).toNat + i < slotCount ∧ s.isB ((s.cwInt 19788).toNat + i) = true) →
      ∃ t, exec (.attgo none) s = .next t ∧ t.cwInt 19790 = 1 ∧ t.cw 19791 = .ofInt (s.cwInt 19791 + 1)
        ∧ t.report = some { slot := (s.cwInt 19788).toNat, body := s.reportBody } ∧ .attestationReportDone ∈ t.agenda))
  ∧ (∀ (s s1 : State) (r : Report), s.report = some r →
    (List.range 131).foldl (fun (o : Option State) (i : Nat) => o.bind (fun (u : State) => u.reportLine r (s.reportBytes r) i)) (some s) = some s1 →
    ∃ t, exec .attestationReportDone s = .next t ∧ t.cwInt 19790 = 2 ∧ t.report = none ∧ t.vlines = s1.vlines ∧ t.hbm = s1.hbm)

/-! ### The machine as a whole -/

/-- A step runs the instruction that the fetched words at the bundle's address decode to, one of a whole team with the bundles of its other
squads; words that no instruction spells trap; with nothing issued, a pending step is performed or a cycle passes (R156, R157, R173, R348;
which one is the model's free choice, log entry 2). Beside the step itself only write-backs are counted and, where a team's shadow interval is
covered, first writes are copied to its pool (R146, R390; log entries 7 and 30). A shadow's bundle executes what its leader has executed; a leader's instruction does what
it does without a shadow, and is noted for it, and at a point of comparison it waits for its shadow (R351, R396; log entry 43). -/
def Obligations.StepRunsDecoded : Prop :=
  (∀ (s : State) (b : Bundle) (rest : List Bundle) (r : TRef) (l : List TRef) (ws : List Word), s.issue = b :: rest → b.handler = none →
    b.shadow = none → (∀ tm ∈ s.teams, tm.body.shadows = []) → b.threads.filter (fun t => s.atPc t b.pc) = r :: l →
    s.fetch b.core (s.asrecOf r.team) (s.sysLevel r.team) b.pc = some ws →
    (∀ i ms, decode ws = .ok i → ms = (if i.scope = .team then rest.filter (Bundle.mate { b with threads := r :: l }) else []) →
      ∀ cur, cur = { b with threads := (r :: l) ++ ((ms.map (·.threads)).flatten).filter (fun t => s.atPc t b.pc) } →
      ∀ u, u = { s with issue := rest.filter (fun x => !ms.contains x), cur := cur } → step s = afterIssue u i (exec i u))
    ∧ ∀ e, decode ws = .error e → ∃ w, ∀ u, u = { s with issue := rest, cur := { b with threads := r :: l } } →
      step s = afterIssue u (.illegalInstruction e.code w) (exec (.illegalInstruction e.code w) u))
  ∧ (∀ (s : State) (b : Bundle) (rest : List Bundle) (n : Nat) (h : Handler) (ws : List Word) (i : Instr), s.issue = b :: rest →
    b.handler = some n → b.shadow = none → (s.team? n).bind (·.handler) = some h → h.run = .ready → h.pc = b.pc → b.threads = [] →
    s.fetch b.core (s.asrecOf n) (s.sysLevel n) b.pc = some ws → decode ws = .ok i → i.scope ≠ .team →
    (∀ tm ∈ s.teams, tm.body.shadows = []) → ∀ u, u = { s with issue := rest, cur := b } → step s = afterIssue u i (exec i u))
  ∧ (∀ s : State, s.issue = [] → (s.thermtrip && s.agenda.isEmpty) = false →
    (∃ k i, s.agenda[k]? = some i ∧ step s = afterStep (exec i { s with tick := s.tick + 1, agenda := s.agenda.eraseIdx k }))
    ∨ step s = .next ({ s with tick := s.tick + 1 } : State).nextCycle)
  ∧ (∀ (s : State) (b : Bundle) (rest : List Bundle), s.issue = b :: rest →
    (∀ n q, b.shadow = some (n, q) → step s = .next (State.shadowRun exec n q { s with issue := rest }))
    ∧ (b.shadow = none → ∀ u i, ({ s with issue := rest } : State).takeBundle b = some (u, i) →
      (∀ k ∈ u.vigilSquads, u.queueFull k.1 k.2 = false) →
      (∀ out, i.vigilPoint = false → exec i u = .next out → ∃ w, step s = afterIssue u i (.next w) ∧ { w with teams := out.teams } = out
        ∧ ∀ m, (w.team? m).map (fun x => { x with body := { x.body with shadows := [] } })
          = (out.team? m).map (fun x => { x with body := { x.body with shadows := [] } }))
      ∧ (∀ k ∈ u.vigilSquads, i.vigilPoint = true → u.shadowBehind k.1 k.2 = true → step s = afterIssue u i (.next u))))
  ∧ (∀ (u t : State) (i : Instr), (∀ x ∈ t.teams, x.covered = false) →
    (∃ w, afterIssue u i (.next t) = .next w ∧ { w with cores := t.cores } = t ∧ ∀ k, { w.core k with wrote := (t.core k).wrote } = t.core k)
    ∧ afterStep (.next t) = .next t)

/-- Words written out in the manual decode to the instructions that they stand for: NOP (R246), TRET (R377), PUBLISH, GPHASE and WACK
(R328), TRAP 7 (R376), LD (R190), ADD.sat.t9 v3, v4, 50 (R228), BR3 (R238), EXP.tf9 (R261), MX.ISSUE (R281), STS.rel.t (R320), ATOM.cas
(R422). -/
def Obligations.DecodeWords : Prop :=
  decode [.spell [0, 0, 0, 0, 0, 0, 0, 0, 0, 0, 0, 0, 0, 0, 0, 0, 0, 0, 0, 0, 0, 0, 0, 0, 0, 1, -1]] = .ok (.nop { len := 1, gc := .always, gp := 4, f := 0, d := 0, a := 0, b := 0, x := 0, sat := false, gr := 0, la := 0, xc := 1, xr := 1, et := .t27, mb := .none, ma := .none, c := 0, w3 := .zero })
  ∧ decode [.spell [0, 0, 0, 0, 0, 0, 0, 0, 0, 0, 0, 0, 0, 0, 0, 0, 0, 0, 0, 0, 0, 1, 0, -1, 0, 0, -1]] = .ok (.tret { len := 1, gc := .always, gp := 4, f := 0, d := 0, a := 0, b := 0, x := 0, sat := false, gr := 0, la := 0, xc := 1, xr := 1, et := .t27, mb := .none, ma := .none, c := 0, w3 := .zero })
  ∧ decode [.spell [0, 0, 0, 0, 0, 0, 0, 0, 0, 0, 0, 0, 0, 0, 0, 0, 0, 0, 0, 0, 0, 0, 1, 1, 0, 1, -1]] = .ok (.publish { len := 1, gc := .always, gp := 4, f := 0, d := 0, a := 0, b := 0, x := 0, sat := false, gr := 0, la := 0, xc := 1, xr := 1, et := .t27, mb := .none, ma := .none, c := 0, w3 := .zero })
  ∧ decode [.spell [0, 0, 0, 0, 0, 0, 0, 0, 0, 0, 0, 0, 0, 0, 0, 0, 0, 0, 0, 0, 0, 1, -1, -1, -1, -1, -1]] = .ok (.gphase { len := 1, gc := .always, gp := 4, f := 0, d := 0, a := 0, b := 0, x := 0, sat := false, gr := 0, la := 0, xc := 1, xr := 1, et := .t27, mb := .none, ma := .none, c := 0, w3 := .zero })
  ∧ decode [.spell [0, 0, 0, 0, 0, 0, 0, 0, 0, 0, 0, 0, 0, 0, 0, 0, 0, 0, 0, 0, 0, 1, -1, -1, -1, 0, -1]] = .ok (.wack { len := 1, gc := .always, gp := 4, f := 0, d := 0, a := 0, b := 0, x := 0, sat := false, gr := 0, la := 0, xc := 1, xr := 1, et := .t27, mb := .none, ma := .none, c := 0, w3 := .zero })
  ∧ decode [.spell [0, 0, 0, 0, 0, 0, 0, 0, 0, 0, 0, 0, 0, 0, 0, 0, 0, 0, 0, 0, 0, 1, 0, -1, 0, -1, 0], .spell [0, 0, 0, -1, -1, -1, -1, -1, -1, -1, 0, 0, 0, 0, 0, 0, 0, 0, 0, 0, 0, 0, 0, 0, 1, -1, 1]] = .ok (.trap { len := 2, gc := .always, gp := 4, f := 0, d := 0, a := 0, b := 0, x := 0, sat := false, gr := 0, la := 0, xc := 1, xr := 1, et := .t27, mb := .none, ma := .none, c := 7, w3 := .zero })
  ∧ decode [.spell [0, -1, -1, -1, 0, -1, 1, -1, -1, 0, -1, 0, -1, -1, -1, 0, 0, 0, 0, 0, 0, -1, 1, 1, 1, 1, 0], .spell [0, 0, 0, -1, -1, -1, 1, -1, -1, -1, 0, 0, 0, 0, 0, 0, 0, 0, 0, 0, 0, 0, 0, 0, 1, -1, 0]] = .ok (.ld { len := 2, gc := .always, gp := 4, f := -1, d := -117, a := -111, b := -110, x := 0, sat := false, gr := 0, la := 2, xc := 1, xr := 1, et := .t27, mb := .none, ma := .none, c := 6, w3 := .zero })
  ∧ decode [.spell [0, 1, 0, 0, 0, 0, 0, -1, -1, -1, 0, 0, -1, -1, -1, 0, -1, 0, 0, 0, 0, -1, -1, -1, -1, -1, 0], .spell [0, 0, 1, -1, -1, -1, -1, -1, -1, -1, 0, -1, 0, 0, 0, 0, 0, 0, 0, 0, 0, 0, 1, -1, 0, -1, -1]] = .ok (.add { len := 2, gc := .always, gp := 4, f := 1, d := -118, a := -117, b := 0, x := 0, sat := true, gr := 0, la := 0, xc := 1, xr := 1, et := .t9, mb := .none, ma := .none, c := 50, w3 := .zero })
  ∧ decode [.spell [0, 0, 0, 0, 0, 0, 0, 0, 0, 0, -1, 1, 0, 0, 0, 0, 0, 0, 0, 0, 0, 0, 0, 0, 1, 0, 1], .spell [0, 0, 0, -1, -1, -1, -1, -1, -1, -1, 0, 0, 0, 0, 0, 0, 0, 0, 0, 0, 0, 0, 0, 0, 0, 0, 0], .spell [0, 0, 0, 0, 0, 0, 0, 0, 0, -1, 1, 1, 0, 0, 0, 0, 0, 0, 0, 0, 0, 0, 0, 0, 1, -1, 0]] = .ok (.br3 { len := 3, gc := .always, gp := 4, f := 0, d := 0, a := -2, b := 0, x := 0, sat := false, gr := 0, la := 0, xc := 1, xr := 1, et := .t27, mb := .none, ma := .none, c := 0, w3 := .ofInt (6 - 15 * 4782969) })
  ∧ decode [.spell [0, 0, 0, 0, 0, 0, 0, -1, -1, -1, -1, 1, -1, -1, -1, 1, 1, 0, 0, 0, 0, -1, 1, -1, 0, -1, 0], .spell [0, 0, 1, -1, -1, 0, -1, -1, -1, -1, 1, -1, 0, 0, 0, 0, 0, 0, 0, 0, 0, 0, 0, 0, 0, 0, 0]] = .ok (.exp { len := 2, gc := .always, gp := 4, f := 0, d := -113, a := -119, b := 0, x := 0, sat := true, gr := 0, la := 3, xc := 1, xr := 1, et := .tf9, mb := .none, ma := .none, c := 0, w3 := .zero })
  ∧ decode [.spell [0, 0, 0, 0, 0, 0, 0, -1, -1, 1, -1, 1, -1, -1, -1, 1, -1, 0, 0, 0, 0, 1, -1, 0, 1, -1, 0], .spell [0, 0, 0, -1, -1, -1, -1, -1, -1, -1, 0, 0, 0, 0, 0, 0, 0, 0, 0, 0, 0, 0, 0, 0, 0, 0, 0]] = .ok (.mxIssue { len := 2, gc := .always, gp := 4, f := 0, d := -115, a := -101, b := 0, x := 0, sat := false, gr := 0, la := 0, xc := 1, xr := 1, et := .t27, mb := .none, ma := .none, c := 0, w3 := .zero })
  ∧ decode [.spell [-1, 0, -1, -1, -1, 0, -1, -1, -1, 0, 0, -1, -1, -1, -1, 1, 0, 0, 0, 0, 0, 0, 1, 1, -1, -1, 0], .spell [0, 0, 0, -1, -1, -1, -1, -1, -1, -1, 0, 0, 0, 0, 0, 0, 0, 0, 0, 0, 0, 0, 0, 0, 1, -1, 0]] = .ok (.sts { len := 2, gc := .always, gp := 4, f := -3, d := -114, a := -109, b := -118, x := 0, sat := false, gr := 0, la := 0, xc := 1, xr := 1, et := .t27, mb := .none, ma := .none, c := 6, w3 := .zero })
  ∧ decode [.spell [1, -1, -1, -1, -1, 0, -1, -1, -1, 0, 0, -1, -1, -1, -1, 0, 1, 0, 0, 0, 0, 0, 1, 1, -1, 0, 0], .spell [0, 0, 0, -1, -1, -1, -1, -1, -1, -1, 0, 0, 0, 0, 0, 0, 0, 0, 0, 0, 0, 0, 0, 0, 0, 0, -1]] = .ok (.atom { len := 2, gc := .always, gp := 4, f := 2, d := -116, a := -109, b := -118, x := 0, sat := false, gr := 0, la := 0, xc := 1, xr := 1, et := .t27, mb := .none, ma := .none, c := -1, w3 := .zero })

/-- The machine right after reset: cycle 0, every line of memory a zero T-line in canonical form, all frames of format 00, caches empty, no
team, no grid, graph slots empty, no save pool, RETTHR 81 and the power words at their defaults, BOOTSTAT +1 (R46, R354, R378, R398, R445,
R448, R460). That SDOP and w read 0 is the model's choice (log entries 12 and 14), and so are the fuses and flash (log entry 13). -/
def Obligations.ResetState : Prop :=
  State.reset.cycle = 0 ∧ Memory.wf State.reset.hbm = true ∧ (∀ slot, hbmUntouched State.reset.hbm slot = true) ∧ (∀ f, State.reset.frame f = 0)
  ∧ State.reset.vlines = [] ∧ State.reset.copies = [] ∧ State.reset.cores = [] ∧ State.reset.teams = [] ∧ State.reset.grids = []
  ∧ (∀ d, (State.reset.die d).tlb = [] ∧ (State.reset.die d).wcache = [] ∧ (State.reset.die d).filter = [])
  ∧ (∀ n < 27, State.reset.graphState n = 0) ∧ State.reset.cwInt 810 = 0 ∧ State.reset.cwInt 811 = 0 ∧ State.reset.cwInt 822 = 0
  ∧ State.reset.cwInt 6653 = 81 ∧ State.reset.cwInt 20000 = 4500 ∧ State.reset.cwInt 20014 = 100 ∧ State.reset.cwInt 20012 = 0
  ∧ State.reset.cwInt 19683 = 1 ∧ State.reset.thermtrip = false

/-- Right after reset the severity matrix holds the defaults of R401 for all three source groups: log +1, interrupt +2, kill context −1. -/
def Obligations.SeverityDefaults : Prop := ∀ src : Nat,
  (∀ c ∈ [1, 3, 8, 9, 11, 14, 16, 17, 23, 26], State.reset.action c src = 1)
  ∧ (∀ c ∈ [2, 4, 5, 6, 7, 12, 13, 15, 18, 21, 24, 25], State.reset.action c src = 2)
  ∧ ∀ c ∈ [10, 19, 20, 22], State.reset.action c src = -1

/-- Balanced ternary: a string of n trits has the value Σ a(i) × 3^i, every integer of the range has exactly one such string (R16); dropping
the k lowest trits rounds to the nearest multiple of 3^k, with no tie (R18); an integer result wraps to the one value of its type's range
that is congruent to it modulo 3^n (R21). -/
def Obligations.BalancedTernary : Prop :=
  (∀ l : List Int, (∀ x ∈ l, x = -1 ∨ x = 0 ∨ x = 1) → ofTrits l = ((List.range l.length).map (fun (i : Nat) => l.getD i 0 * 3 ^ i)).sum
    ∧ -(3 ^ l.length - 1) / 2 ≤ ofTrits l ∧ ofTrits l ≤ (3 ^ l.length - 1) / 2 ∧ ∀ i, i < l.length → trit (ofTrits l) i = l.getD i 0)
  ∧ (∀ (n : Nat) (x : Int), -(3 ^ n - 1) / 2 ≤ x → x ≤ (3 ^ n - 1) / 2 → ofTrits ((List.range n).map (fun (i : Nat) => trit x i)) = x)
  ∧ (∀ (k : Nat) (x : Int), 2 * (x - 3 ^ k * dropTrits k x).natAbs + 1 ≤ 3 ^ k)
  ∧ (∀ (n : Nat) (x y : Int), wrap n x = y ↔ (-(3 ^ n - 1) / 2 ≤ y ∧ y ≤ (3 ^ n - 1) / 2 ∧ (3 ^ n : Int) ∣ x - y))
  ∧ (∀ (n : Nat) (x : Int), narrow n false x = wrap n x) ∧ narrow 1 false (1 + 1) = -1

/-- Every well-formed instruction is spelt by the words that the encoder gives, whatever follows them: decoding them gives it back, with every
operand at every value that its fields admit (R155–R173). -/
def Obligations.RoundTrip : Prop := ∀ i : Instr, i.wellFormed = true →
  ∃ ws, encode i = some ws ∧ ∀ rest, decode (ws ++ rest) = .ok i

/-- Every step keeps the canonical form of memory: addresses rising, and no byte listed that reads as an unlisted one. -/
def Obligations.MemoryInvariant : Prop := ∀ s t : State, Memory.wf s.hbm = true → step s = .next t → Memory.wf t.hbm = true
end

