-- ==== Sys2Proof/Laws/Threads.lean ====
section
/-! SUPPORT. Teams, squads and threads: what each update of Machine/Ops.lean does to each reading of it. -/

namespace Sys2Proof.Machine

/-! ### Lists -/

@[simp] theorem modNth_length {α : Type} (f : α → α) (l : List α) (i : Nat) : (modNth f l i).length = l.length := by
  induction l generalizing i with
  | nil => rfl
  | cons a t ih => cases i <;> simp [modNth, ih]

@[simp] theorem modNth_getElem? {α : Type} (f : α → α) (l : List α) (i j : Nat) :
    (modNth f l i)[j]? = if j = i then (l[j]?).map f else l[j]? := by
  induction l generalizing i j with
  | nil => simp [modNth]
  | cons a t ih => cases i <;> cases j <;> simp [modNth, ih]

@[simp] theorem setNth_length {α : Type} (l : List α) (i : Nat) (a : α) : (setNth l i a).length = l.length := by
  simp [setNth]

theorem wordAt_setNth (l : List Word) (i j : Nat) (w : Word) :
    wordAt (setNth l i w) j = if j = i ∧ i < l.length then w else wordAt l j := by
  simp only [wordAt, setNth, List.getD_eq_getElem?_getD, modNth_getElem?]
  by_cases h : j = i
  · subst h
    by_cases hl : j < l.length
    · simp [hl]
    · simp [hl]
  · simp [h]

/-! ### Teams -/

theorem find_map_num (l : List Team) (n m : Nat) (f : Team → Team) (h : ∀ t, (f t).num = t.num) :
    (l.map (fun t => if t.num = n then f t else t)).find? (fun t => t.num == m)
      = if m = n then (l.find? (fun t => t.num == m)).map f else l.find? (fun t => t.num == m) := by
  induction l with
  | nil => simp
  | cons a t ih =>
    rw [List.map_cons, List.find?_cons, List.find?_cons, ih]
    by_cases ha : a.num = n
    · by_cases hm : m = n
      · simp [ha, hm, h]
      · have : (n == m) = false := by simpa using fun e : n = m => hm e.symm
        simp only [ha, hm, if_true, if_false, h, this]
    · by_cases hm : a.num = m
      · have : ¬ m = n := fun e => ha (hm.trans e)
        simp [hm, this]
      · have : (a.num == m) = false := by simpa using hm
        simp only [ha, if_false, this]

/-- A change that keeps team numbers changes the named team and no other. -/
theorem team?_modTeam (s : State) (n m : Nat) (f : Team → Team) (h : ∀ t, (f t).num = t.num) :
    (s.modTeam n f).team? m = if m = n then (s.team? m).map f else s.team? m :=
  find_map_num s.teams n m f h

@[simp] theorem team?_modBody (s : State) (n m : Nat) (f : TeamBody → TeamBody) :
    (s.modBody n f).team? m = if m = n then (s.team? m).map (fun t => { t with body := f t.body }) else s.team? m :=
  team?_modTeam s n m _ (fun _ => rfl)

@[simp] theorem team?_modSquad (s : State) (n q m : Nat) (f : Squad → Squad) :
    (s.modSquad n q f).team? m
      = if m = n then (s.team? m).map (fun t => { t with body := { t.body with squads := modNth f t.body.squads q } })
        else s.team? m :=
  team?_modBody s n m _

/-- A change of one squad changes that squad and no other. -/
@[simp] theorem squad?_modSquad (s : State) (n q m p : Nat) (f : Squad → Squad) :
    (s.modSquad n q f).squad? m p = if m = n ∧ p = q then (s.squad? m p).map f else s.squad? m p := by
  unfold State.squad?
  rw [team?_modSquad]
  by_cases hm : m = n
  · subst hm
    cases s.team? m <;> by_cases hp : p = q <;> simp_all
  · simp [hm]

theorem squad?_modThread (s : State) (r : TRef) (m p : Nat) (f : Thread → Thread) :
    (s.modThread r f).squad? m p
      = if m = r.team ∧ p = r.squad then (s.squad? m p).map (fun q => { q with threads := modNth f q.threads r.lane })
        else s.squad? m p :=
  squad?_modSquad s r.team r.squad m p _

/-- A change of one thread changes that thread and no other. -/
@[simp] theorem thread?_modThread (s : State) (r u : TRef) (f : Thread → Thread) :
    (s.modThread r f).thread? u = if u = r then (s.thread? u).map f else s.thread? u := by
  unfold State.thread?
  rw [squad?_modThread]
  obtain ⟨ut, us, ul⟩ := u
  obtain ⟨rt, rs, rl⟩ := r
  by_cases h : ut = rt ∧ us = rs
  · obtain ⟨rfl, rfl⟩ := h
    cases s.squad? ut us <;> by_cases hl : ul = rl <;> simp_all
  · have : ¬ (ut = rt ∧ us = rs ∧ ul = rl) := fun hc => h ⟨hc.1, hc.2.1⟩
    simp [h, this]

/-! ### What a change of threads leaves alone -/

/-- A team apart from its squads. -/
def Team.bare (t : Team) : Team := { t with body := { t.body with squads := [] } }

@[simp] theorem team?_bare_modSquad (s : State) (n q m : Nat) (f : Squad → Squad) :
    ((s.modSquad n q f).team? m).map Team.bare = (s.team? m).map Team.bare := by
  rw [team?_modSquad]
  by_cases h : m = n
  · cases s.team? m <;> simp [h, Team.bare]
  · simp [h]

@[simp] theorem team?_bare_modThread (s : State) (r : TRef) (m : Nat) (f : Thread → Thread) :
    ((s.modThread r f).team? m).map Team.bare = (s.team? m).map Team.bare := team?_bare_modSquad s _ _ m _

@[simp] theorem modTeam_rest (s : State) (n : Nat) (f : Team → Team) :
    ({ s.modTeam n f with teams := s.teams } : State) = s := rfl

end Sys2Proof.Machine
end

