-- ==== Sys2Proof/Laws/Registers.lean ====
section
/-! SUPPORT. Registers: what a write of a register does to each register, and what completing an instruction does to a
thread. -/

namespace Sys2Proof.Machine

/-! ### One write -/

theorem vreg_modThread (s : State) (r u : TRef) (f : Thread → Thread) (n : Nat) :
    (s.modThread r f).vreg u n
      = if u = r then (match s.thread? u with | some t => wordAt (f t).regs n | none => .zero) else s.vreg u n := by
  unfold State.vreg
  rw [thread?_modThread]
  by_cases h : u = r
  · cases s.thread? u <;> simp [h]
  · simp [h]

/-- A v register after a write of a v register: the word in the register that was written, if the thread has it, and every
other register as before. -/
theorem vreg_setV (s : State) (r u : TRef) (m n : Nat) (w : Word) :
    (s.setV r m w).vreg u n
      = if u = r ∧ n = m ∧ (s.thread? u).any (fun t => m < t.regs.length) then w else s.vreg u n := by
  unfold State.setV
  rw [vreg_modThread]
  by_cases h : u = r
  · subst h
    cases ht : s.thread? u with
    | none => simp [State.vreg, ht]
    | some t => simp [State.vreg, ht, wordAt_setNth]
  · simp [h]

@[simp] theorem kreg_modThread (s : State) (r : TRef) (f : Thread → Thread) (n q : Nat) (b : Bool) (k : Nat) :
    (s.modThread r f).kreg n q b k = s.kreg n q b k := by
  unfold State.kreg
  rw [squad?_modThread]
  by_cases h : n = r.team ∧ q = r.squad
  · cases s.squad? n q <;> simp [h]
  · simp [h]

@[simp] theorem kreg_setV (s : State) (r : TRef) (m : Nat) (w : Word) (n q : Nat) (b : Bool) (k : Nat) :
    (s.setV r m w).kreg n q b k = s.kreg n q b k := kreg_modThread s r _ n q b k

/-- A squad has a k register of a bank. -/
def State.hasK (s : State) (n q : Nat) (b : Bool) (k : Nat) : Bool :=
  (s.squad? n q).any (fun x => k < (if b then x.tb else x.kb).length)

/-- A k register after a write of a k register. -/
theorem kreg_setK (s : State) (n q : Nat) (b : Bool) (k : Nat) (w : Word) (m p : Nat) (c : Bool) (j : Nat) :
    (s.setK n q b k w).kreg m p c j
      = if m = n ∧ p = q ∧ c = b ∧ j = k ∧ s.hasK n q b k then w else s.kreg m p c j := by
  unfold State.setK State.kreg State.hasK
  rw [squad?_modSquad]
  by_cases h : m = n ∧ p = q
  · obtain ⟨rfl, rfl⟩ := h
    cases s.squad? m p with
    | none => simp
    | some x =>
      cases b <;> cases c <;> simp [wordAt_setNth]
  · have : ¬ (m = n ∧ p = q ∧ c = b ∧ j = k ∧ s.hasK n q b k) := fun e => h ⟨e.1, e.2.1⟩
    simp only [State.hasK] at this
    simp only [h, if_false, this]

@[simp] theorem thread?_setK (s : State) (n q : Nat) (b : Bool) (k : Nat) (w : Word) (u : TRef) :
    (s.setK n q b k w).thread? u = s.thread? u := by
  unfold State.setK State.thread?
  rw [squad?_modSquad]
  by_cases h : u.team = n ∧ u.squad = q
  · cases s.squad? u.team u.squad <;> cases b <;> simp [h]
  · simp [h]

/-! ### Many writes -/

/-- The v register that an entry of `writeAll` names. -/
def writeKey (p : Exec × Int × Nat × Word) : TRef × Nat := (p.1.t, Exec.num p.2.1 + p.2.2.1)

/-- The thread has the register. -/
def State.hasV (s : State) (r : TRef) (n : Nat) : Bool := (s.thread? r).any (fun t => n < t.regs.length)

theorem hasV_setV (s : State) (r u : TRef) (m n : Nat) (w : Word) : (s.setV r m w).hasV u n = s.hasV u n := by
  unfold State.hasV State.setV
  rw [thread?_modThread]
  by_cases h : u = r
  · cases s.thread? u <;> simp [h]
  · simp [h]

/-- A v register that no entry names is as before. -/
theorem writeAll_vreg_other (l : List (Exec × Int × Nat × Word)) (s : State) (u : TRef) (n : Nat)
    (hv : ∀ p ∈ l, p.1.mode = .vec) (h : ∀ p ∈ l, writeKey p ≠ (u, n)) : (writeAll l s).vreg u n = s.vreg u n := by
  induction l generalizing s with
  | nil => rfl
  | cons p t ih =>
    have h1 : (Exec.set s p.1 p.2.1 p.2.2.1 p.2.2.2) = s.setV p.1.t (Exec.num p.2.1 + p.2.2.1) p.2.2.2 := by
      simp [Exec.set, hv p (by simp)]
    have h2 := h p (by simp)
    rw [writeAll, List.foldl_cons, h1, ← writeAll, ih _ (fun q hq => hv q (by simp [hq])) (fun q hq => h q (by simp [hq])),
      vreg_setV]
    have : ¬ (u = p.1.t ∧ n = Exec.num p.2.1 + p.2.2.1) := fun e => h2 (by simp [writeKey, e.1, e.2])
    simp only [not_and] at this
    split
    · rename_i e; exact absurd e.2.1 (this e.1)
    · rfl

/-- A v register that one entry names holds that entry's word. -/
theorem writeAll_vreg_mem (l : List (Exec × Int × Nat × Word)) (s : State) (p : Exec × Int × Nat × Word) (hp : p ∈ l)
    (hv : ∀ p ∈ l, p.1.mode = .vec) (hn : (l.map writeKey).Nodup) (hr : s.hasV p.1.t (Exec.num p.2.1 + p.2.2.1) = true) :
    (writeAll l s).vreg p.1.t (Exec.num p.2.1 + p.2.2.1) = p.2.2.2 := by
  induction l generalizing s with
  | nil => simp at hp
  | cons q t ih =>
    have h1 : (Exec.set s q.1 q.2.1 q.2.2.1 q.2.2.2) = s.setV q.1.t (Exec.num q.2.1 + q.2.2.1) q.2.2.2 := by
      simp [Exec.set, hv q (by simp)]
    rw [List.map_cons, List.nodup_cons] at hn
    rw [writeAll, List.foldl_cons, h1, ← writeAll]
    rcases List.mem_cons.1 hp with rfl | hp
    · rw [writeAll_vreg_other t _ _ _ (fun q hq => hv q (by simp [hq]))
        (fun q hq e => hn.1 (by rw [List.mem_map]; exact ⟨q, hq, e⟩)), vreg_setV]
      simpa [State.hasV] using fun e => absurd hr (by simpa [State.hasV] using e)
    · exact ih _ hp (fun q hq => hv q (by simp [hq])) hn.2 (by rw [hasV_setV]; exact hr)

end Sys2Proof.Machine
end

