-- ==== Sys2Proof/Laws/Perform.lean ====
section
/-! SUPPORT. Performing an instruction: when it answers a next state, and what completing does to each thread. -/

namespace Sys2Proof.Machine

/-! ### Windows -/

/-- Applying windows changes no register that none of them names. -/
theorem settleWins_fst (fuel : Nat) (regs : List Word) (l : List Win) (n : Nat) (h : ∀ w ∈ l, w.reg ≠ n) :
    wordAt (settleWins fuel regs l).1 n = wordAt regs n := by
  induction fuel generalizing regs l with
  | zero => rfl
  | succ fuel ih =>
    unfold settleWins
    split
    · rfl
    · rename_i p hp
      rw [ih _ _ (fun w hw => h w (List.mem_of_mem_eraseIdx hw)), wordAt_setNth]
      have : ¬ n = p.1.reg := fun e => h p.1 (List.fst_mem_of_mem_zipIdx (List.mem_of_find?_eq_some hp)) e.symm
      simp [this]

/-- Settling changes no register that no window names. -/
theorem Thread.settle_reg (t : Thread) (n : Nat) (h : ∀ w ∈ t.wins, w.reg ≠ n) :
    wordAt t.settle.regs n = wordAt t.regs n := settleWins_fst _ _ _ n h

@[simp] theorem Thread.settle_pc (t : Thread) : t.settle.pc = t.pc := rfl
@[simp] theorem Thread.settle_run (t : Thread) : t.settle.run = t.run := rfl
@[simp] theorem Thread.settle_preds (t : Thread) : t.settle.preds = t.preds := rfl
@[simp] theorem Thread.settle_age (t : Thread) : t.settle.age = t.age := rfl
@[simp] theorem Thread.settle_fault (t : Thread) : t.settle.fault = t.fault := rfl
@[simp] theorem Thread.settle_leases (t : Thread) : t.settle.leases = t.leases := rfl
@[simp] theorem Thread.settle_unackPub (t : Thread) : t.settle.unackPub = t.unackPub := rfl
@[simp] theorem Thread.settle_unackSyn (t : Thread) : t.settle.unackSyn = t.unackSyn := rfl
@[simp] theorem Thread.count_pc (t : Thread) (k : Nat) : (t.count k).pc = t.pc := rfl
@[simp] theorem Thread.count_run (t : Thread) (k : Nat) : (t.count k).run = t.run := rfl
@[simp] theorem Thread.count_preds (t : Thread) (k : Nat) : (t.count k).preds = t.preds := rfl
@[simp] theorem Thread.count_age (t : Thread) (k : Nat) : (t.count k).age = t.age := rfl
@[simp] theorem Thread.count_fault (t : Thread) (k : Nat) : (t.count k).fault = t.fault := rfl
@[simp] theorem Thread.count_leases (t : Thread) (k : Nat) : (t.count k).leases = t.leases := rfl
@[simp] theorem Thread.count_unackPub (t : Thread) (k : Nat) : (t.count k).unackPub = t.unackPub := rfl
@[simp] theorem Thread.count_unackSyn (t : Thread) (k : Nat) : (t.count k).unackSyn = t.unackSyn := rfl

/-- Counting an instruction changes no register that no window names. -/
theorem Thread.count_reg (t : Thread) (k n : Nat) (h : ∀ w ∈ t.wins, w.reg ≠ n) :
    wordAt (t.count k).regs n = wordAt t.regs n := by
  refine Thread.settle_reg _ n (fun w hw => ?_)
  rcases List.mem_append.1 hw with hw | hw
  · obtain ⟨u, hu, rfl⟩ := List.mem_map.1 hw
    split <;> exact h u (List.mem_of_mem_take hu)
  · exact h w (List.mem_of_mem_drop hw)

theorem settleWins_length (fuel : Nat) (regs : List Word) (l : List Win) : (settleWins fuel regs l).1.length = regs.length := by
  induction fuel generalizing regs l with
  | zero => rfl
  | succ fuel ih => unfold settleWins; split <;> simp [ih]

@[simp] theorem Thread.settle_length (t : Thread) : t.settle.regs.length = t.regs.length := settleWins_length _ _ _
@[simp] theorem Thread.count_length (t : Thread) (k : Nat) : (t.count k).regs.length = t.regs.length := settleWins_length _ _ _

/-! ### Completion of threads -/

/-- What completing does to a thread. -/
def Thread.advance (t : Thread) (dest : Word) (k : Nat) : Thread :=
  if t.run = .exited then t else Thread.count { t with pc := dest, conv := 0, instr := [] } k

theorem thread?_passThread (s : State) (r u : TRef) (dest : Word) (k : Nat) :
    (s.passThread r dest k).thread? u = if u = r then (s.thread? u).map (fun t => t.advance dest k) else s.thread? u := by
  unfold State.passThread State.exited State.finish Thread.advance
  by_cases h : u = r
  · subst h
    cases ht : s.thread? u with
    | none => simp [ht]
    | some t => by_cases hr : t.run = .exited <;> simp [ht, hr]
  · simp only [h, if_false]
    cases s.thread? r with
    | none => rfl
    | some t => by_cases hr : t.run = .exited <;> simp [hr, h]

theorem kreg_passThread (s : State) (r : TRef) (dest : Word) (k n q : Nat) (b : Bool) (j : Nat) :
    (s.passThread r dest k).kreg n q b j = s.kreg n q b j := by
  unfold State.passThread State.finish; split <;> simp

theorem bare_passThread (s : State) (r : TRef) (dest : Word) (k m : Nat) :
    ((s.passThread r dest k).team? m).map Team.bare = (s.team? m).map Team.bare := by
  unfold State.passThread State.finish; split <;> simp

theorem rest_passThread (s : State) (r : TRef) (dest : Word) (k : Nat) (l : List Team) :
    ({ s.passThread r dest k with teams := l } : State) = { s with teams := l } := by
  unfold State.passThread State.finish; split <;> rfl

/-- Completing distinct threads completes each of them once and no other. -/
theorem thread?_foldl_passThread (l : List TRef) (hl : l.Nodup) (dest : Word) (k : TRef → Nat) (s : State) (u : TRef) :
    (l.foldl (fun s r => s.passThread r dest (k r)) s).thread? u
      = if u ∈ l then (s.thread? u).map (fun t => t.advance dest (k u)) else s.thread? u := by
  induction l generalizing s with
  | nil => simp
  | cons r t ih =>
    rw [List.nodup_cons] at hl
    rw [List.foldl_cons, ih hl.2, thread?_passThread]
    by_cases h : u = r
    · subst h; simp [hl.1]
    · simp [h]

theorem kreg_foldl_passThread (l : List TRef) (dest : Word) (k : TRef → Nat) (s : State) (n q : Nat) (b : Bool) (j : Nat) :
    (l.foldl (fun s r => s.passThread r dest (k r)) s).kreg n q b j = s.kreg n q b j := by
  induction l generalizing s with
  | nil => rfl
  | cons r t ih => rw [List.foldl_cons, ih, kreg_passThread]

theorem bare_foldl_passThread (l : List TRef) (dest : Word) (k : TRef → Nat) (s : State) (m : Nat) :
    ((l.foldl (fun s r => s.passThread r dest (k r)) s).team? m).map Team.bare = (s.team? m).map Team.bare := by
  induction l generalizing s with
  | nil => rfl
  | cons r t ih => rw [List.foldl_cons, ih, bare_passThread]

theorem rest_foldl_passThread (l : List TRef) (dest : Word) (k : TRef → Nat) (s : State) (x : List Team) :
    ({ l.foldl (fun s r => s.passThread r dest (k r)) s with teams := x } : State) = { s with teams := x } := by
  induction l generalizing s with
  | nil => rfl
  | cons r t ih => rw [List.foldl_cons, ih, rest_passThread]

/-! ### What follows a body -/

@[simp] theorem raiseTraps_nil (s : State) (pc : Word) (ws : List Word) : s.raiseTraps [] pc ws = s := rfl

/-- Outside a handler, where no execution traps, waits or goes elsewhere, each thread of the bundle completes. -/
theorem conclude_done (s : State) (i : Instr) (all : List Exec) (e : Eff) (h : s.cur.handler = none) (ht : e.traps = [])
    (hs : e.stay = []) (hg : e.goto = []) :
    s.conclude i all e
      = (all.flatMap (·.ts)).foldl (fun s' r => s'.passThread r (s.cur.pc.add i.trytes) (s.winsOf r)) e.s := by
  have hf : all.filter (fun _ => true) = all := List.filter_eq_self.2 (fun _ _ => rfl)
  rw [List.foldl_flatMap]
  simp [State.conclude, h, ht, hs, hg, State.passThread, State.winsOf, hf]
  all_goals rfl

/-- In a handler, where nothing traps or waits, the handler goes on behind the instruction or to its target. -/
theorem conclude_handler (s : State) (i : Instr) (all : List Exec) (e : Eff) (n : Nat) (h : s.cur.handler = some n)
    (ht : e.traps = []) (hs : e.stay = []) :
    s.conclude i all e
      = e.s.modHandler n (fun h => { h with pc := ((e.goto.head?).map (·.2)).getD (s.cur.pc.add i.trytes) }) := by
  simp [State.conclude, h, ht, hs]

/-- An instruction that may issue answers the state of its body and of what follows it. -/
theorem perform_next (i : Instr) (o : Opnd) (fm : Form) (body : Body) (s : State)
    (hh : s.cur.handler = none ∨ i.handlerOk = true)
    (hd : ∀ x ∈ s.execs o.et.scalar, s.dynCode fm o x (s.limit8 i x.t.team) = none)
    (hb : s.holdsBack i fm o (s.execs o.et.scalar) = false)
    (ho : ∀ x ∈ s.execs o.et.scalar, s.outside i.scope o x = false) :
    perform i o fm body s
      = .next (s.conclude i (s.execs o.et.scalar) (body s ((s.execs o.et.scalar).filter (fun x => x.guard s o)))) := by
  have h1 : (s.cur.handler.isSome && !i.handlerOk) = false := by
    rcases hh with h | h <;> simp [h]
  have h2 : (s.execs o.et.scalar).findSome? (fun x => s.dynCode fm o x (s.limit8 i x.t.team)) = none := by
    rw [List.findSome?_eq_none_iff]; exact hd
  have h3 : ∀ l : List Exec, (∀ x ∈ l, x ∈ s.execs o.et.scalar) →
      l.filter (fun x => s.outside i.scope o x) = [] ∧ l.filter (fun x => !s.outside i.scope o x) = l := by
    intro l hl
    constructor
    · rw [List.filter_eq_nil_iff]; intro x hx; simp [ho x (hl x hx)]
    · rw [List.filter_eq_self]; intro x hx; simp [ho x (hl x hx)]
  have h4 := h3 ((s.execs o.et.scalar).filter (fun x => x.guard s o)) (fun x hx => (List.mem_filter.1 hx).1)
  simp only [perform, h1, h2, hb, h4.1, h4.2]
  simp

/-! ### The executions of a bundle -/

theorem execs_vec (s : State) (h : s.cur.handler = none) :
    s.execs false = s.cur.threads.map (fun t => { mode := .vec, t := t, ts := [t] }) := by
  simp [State.execs, h]

theorem execs_vec_ts (s : State) (h : s.cur.handler = none) : (s.execs false).flatMap (·.ts) = s.cur.threads := by
  rw [execs_vec s h, List.flatMap_map]; simp

end Sys2Proof.Machine
end

