-- ==== Sys2Proof/Laws/Writes.lean ====
section
/-! SUPPORT. Register instructions: the bodies that write words or a trit, and what performing them leaves. -/

namespace Sys2Proof.Machine

/-! ### One write of an execution -/

/-- The number that `Exec.set` writes to. -/
def Exec.slot (x : Exec) (v : Int) (k : Nat) : Nat := Exec.num v + (if x.mode = .vec then k else 0)

/-- Two executions write to the same lane or bank. -/
def Exec.same (x y : Exec) : Bool :=
  match x.mode with
  | .vec => x.t == y.t
  | _ => x.t.team == y.t.team && x.t.squad == y.t.squad

/-- The execution's register of a number exists. -/
def Exec.has (s : State) (x : Exec) (n : Nat) : Bool :=
  match x.mode with
  | .vec => s.hasV x.t n
  | .sca => s.hasK x.t.team x.t.squad false n
  | .han => s.hasK x.t.team x.t.squad true n

theorem hasK_setK (s : State) (n q : Nat) (b : Bool) (k : Nat) (w : Word) (m p : Nat) (c : Bool) (j : Nat) :
    (s.setK n q b k w).hasK m p c j = s.hasK m p c j := by
  unfold State.hasK State.setK
  rw [squad?_modSquad]
  by_cases h : m = n ∧ p = q
  · cases s.squad? m p <;> cases b <;> cases c <;> simp [h]
  · simp [h]

theorem hasK_modThread (s : State) (r : TRef) (f : Thread → Thread) (m p : Nat) (c : Bool) (j : Nat) :
    (s.modThread r f).hasK m p c j = s.hasK m p c j := by
  unfold State.hasK
  rw [squad?_modThread]
  by_cases h : m = r.team ∧ p = r.squad
  · cases s.squad? m p <;> simp [h]
  · simp [h]

theorem has_set (s : State) (x y : Exec) (v : Int) (k : Nat) (w : Word) (n : Nat) :
    y.has (x.set s v k w) n = y.has s n := by
  have hV : ∀ (r : TRef) (m p j : Nat) (b : Bool), (s.setK m p b j w).hasV r n = s.hasV r n := by
    intro r m p j b; simp [State.hasV]
  unfold Exec.has Exec.set
  cases x.mode <;> cases y.mode <;> simp only [hasV_setV, hasK_setK, hV] <;> simp only [State.setV, hasK_modThread]

/-- A register after a write of an execution. -/
theorem cell_set (s : State) (x y : Exec) (v : Int) (k : Nat) (w : Word) (n : Nat) (hm : x.mode = y.mode) :
    y.cell (x.set s v k w) n = if x.same y = true ∧ n = x.slot v k ∧ x.has s n = true then w else y.cell s n := by
  obtain ⟨xm, xt, xts⟩ := x
  obtain ⟨ym, yt, yts⟩ := y
  simp only at hm
  subst hm
  cases xm
  · simp only [Exec.cell, Exec.set, vreg_setV, Exec.same, Exec.slot, Exec.has, State.hasV, if_true]
    by_cases h : yt = xt
    · subst h
      by_cases hn : n = Exec.num v + k <;> simp [hn]
    · have : ¬ xt = yt := fun e => h e.symm
      simp [h, this]
  all_goals
    simp only [Exec.cell, Exec.set, kreg_setK, Exec.same, Exec.slot, Exec.has]
    by_cases h1 : yt.team = xt.team <;> by_cases h2 : yt.squad = xt.squad <;> by_cases hn : n = Exec.num v
      <;> simp [h1, h2, hn, eq_comm (a := xt.team), eq_comm (a := xt.squad)]

/-! ### The writes of a body -/

/-- The numbered writes of a list that reach an execution's registers. -/
def hitsOf (y : Exec) (l : List (Exec × Int × Nat × Word)) : List (Nat × Word) :=
  l.filterMap (fun p => if p.1.same y then some (p.1.slot p.2.1 p.2.2.1, p.2.2.2) else none)

theorem cell_writeAll (l : List (Exec × Int × Nat × Word)) (s : State) (y : Exec) (n : Nat)
    (hm : ∀ p ∈ l, p.1.mode = y.mode) (hr : ∀ p ∈ l, p.1.has s (p.1.slot p.2.1 p.2.2.1) = true) :
    y.cell (writeAll l s) n = (lastOut (hitsOf y l) n).getD (y.cell s n) := by
  induction l generalizing s with
  | nil => rfl
  | cons p t ih =>
    rw [writeAll, List.foldl_cons, ← writeAll,
      ih _ (fun q hq => hm q (by simp [hq])) (fun q hq => by rw [has_set]; exact hr q (by simp [hq])),
      cell_set s p.1 y _ _ _ n (hm p (by simp))]
    have hp := hr p (by simp)
    by_cases hs : p.1.same y = true
    · by_cases hn : n = p.1.slot p.2.1 p.2.2.1
      · subst hn
        simp only [hitsOf, List.filterMap_cons, hs, if_true, lastOut]
        cases lastOut _ _ <;> simp [hp]
      · have hn' : ¬ p.1.slot p.2.1 p.2.2.1 = n := fun e => hn e.symm
        simp [hitsOf, hs, lastOut, hn, hn']
    · simp [hitsOf, hs]

/-- The entries of `wordsBody` in one execution. -/
def entriesOf (o : Opnd) (f : State → Exec → Nat → List Word) (s : State) (x : Exec) : List (Exec × Int × Nat × Word) :=
  (blockSteps o).flatMap (fun k => (f s x k).zipIdx.map (fun p => (x, o.d + (p.2 : Int), k, p.1)))

theorem entriesOf_exec (o : Opnd) (f : State → Exec → Nat → List Word) (s : State) (x : Exec) :
    ∀ p ∈ entriesOf o f s x, p.1 = x := by
  intro p hp
  obtain ⟨k, _, hp⟩ := List.mem_flatMap.1 hp
  obtain ⟨q, _, rfl⟩ := List.mem_map.1 hp
  rfl

theorem hitsOf_entriesOf (o : Opnd) (f : State → Exec → Nat → List Word) (s : State) (x y : Exec) :
    hitsOf y (entriesOf o f s x) = if x.same y then x.outs s o f else [] := by
  unfold hitsOf
  by_cases h : x.same y = true
  · simp only [h, if_true, entriesOf, Exec.outs, List.filterMap_flatMap, List.filterMap_map, Function.comp_def]
    congr 1
    funext k
    rw [← List.filterMap_eq_map]
    rfl
  · simp only [h]
    rw [List.filterMap_eq_nil_iff.2]
    · rfl
    · intro p hp
      rw [entriesOf_exec o f s x p hp]
      simp [h]

theorem wordsBody_eq (o : Opnd) (f : State → Exec → Nat → List Word) (s : State) (xs : List Exec) :
    wordsBody o f s xs = Eff.of (writeAll (xs.flatMap (entriesOf o f s)) s) := rfl

/-- The hits of a whole body, where no two of its executions reach the same registers. -/
theorem hitsOf_flatMap (o : Opnd) (f : State → Exec → Nat → List Word) (s : State) (xs : List Exec) (y : Exec)
    (hp : xs.Pairwise (fun a b => a.same b = false)) (hy : ∀ x ∈ xs, x.same y = true → x = y) (hyy : y.same y = true) :
    hitsOf y (xs.flatMap (entriesOf o f s)) = if y ∈ xs then y.outs s o f else [] := by
  induction xs with
  | nil => simp [hitsOf]
  | cons x t ih =>
    rw [List.pairwise_cons] at hp
    have ih := ih hp.2 (fun z hz => hy z (by simp [hz]))
    rw [List.flatMap_cons, hitsOf, List.filterMap_append, ← hitsOf, ← hitsOf, ih, hitsOf_entriesOf]
    by_cases hx : x.same y = true
    · have := hy x (by simp) hx
      subst this
      have : x ∉ t := fun hm => by have := hp.1 x hm; rw [hyy] at this; exact absurd this (by simp)
      simp [hx, this]
    · have hne : ¬ y = x := fun e => hx (e ▸ hyy)
      simp [hx, hne]

/-! ### The executions of a bundle -/

theorem distinct_from {α : Type} [DecidableEq α] (l acc : List α) (h : acc.Nodup) :
    (l.foldl (fun acc a => if acc.contains a then acc else acc ++ [a]) acc).Nodup
      ∧ ∀ a, a ∈ l.foldl (fun acc a => if acc.contains a then acc else acc ++ [a]) acc ↔ a ∈ acc ∨ a ∈ l := by
  induction l generalizing acc with
  | nil => exact ⟨h, by simp⟩
  | cons b t ih =>
    rw [List.foldl_cons]
    by_cases hb : b ∈ acc
    · have hc : acc.contains b = true := by simpa using hb
      simp only [hc, if_true]
      refine ⟨(ih acc h).1, fun a => ?_⟩
      rw [(ih acc h).2, List.mem_cons]
      constructor
      · rintro (h | h) <;> simp [h]
      · rintro (h | rfl | h) <;> simp [*]
    · have hc : acc.contains b = false := by simpa using hb
      have hn : (acc ++ [b]).Nodup := by
        rw [List.nodup_append]
        refine ⟨h, by simp, ?_⟩
        intro x hx y hy e
        rw [List.mem_singleton] at hy
        exact hb (by rw [← hy, ← e]; exact hx)
      simp only [hc]
      refine ⟨(ih _ hn).1, fun a => ?_⟩
      rw [if_neg (by simp), (ih _ hn).2]
      simp [or_assoc]

theorem distinct_nodup {α : Type} [DecidableEq α] (l : List α) : (distinct l).Nodup := (distinct_from l [] .nil).1

@[simp] theorem mem_distinct {α : Type} [DecidableEq α] (l : List α) (a : α) : a ∈ distinct l ↔ a ∈ l :=
  ((distinct_from l [] .nil).2 a).trans (by simp)

/-- The scalar execution of a squad's threads in the bundle. -/
def scaExec (l : List TRef) (k : Nat × Nat) : Exec :=
  let ts := l.filter (fun t => (t.team, t.squad) == k)
  { mode := .sca, t := ⟨k.1, k.2, (ts.map (·.lane)).foldl min 26⟩, ts := ts }

theorem execs_sca (s : State) (h : s.cur.handler = none) :
    s.execs true = (distinct (s.cur.threads.map (fun t => (t.team, t.squad)))).map (scaExec s.cur.threads) := by
  simp [State.execs, h, scaExec]

/-- Two executions of one bundle reach the same registers only if they are one. -/
theorem execs_pairwise (s : State) (h : s.cur.handler = none) (hn : s.cur.threads.Nodup) (b : Bool) :
    (s.execs b).Pairwise (fun x y => x.same y = false) := by
  cases b
  · rw [execs_vec s h, List.pairwise_map]
    exact hn.imp (fun {a b} h => by simpa [Exec.same] using h)
  · rw [execs_sca s h, List.pairwise_map]
    refine (distinct_nodup _).imp (fun {a b} h => ?_)
    obtain ⟨a1, a2⟩ := a
    obtain ⟨b1, b2⟩ := b
    simpa [Exec.same, scaExec] using h

theorem same_refl (x : Exec) : x.same x = true := by unfold Exec.same; cases x.mode <;> simp

theorem execs_same_eq (s : State) (h : s.cur.handler = none) (b : Bool) (x y : Exec)
    (hx : x ∈ s.execs b) (hy : y ∈ s.execs b) (e : x.same y = true) : x = y := by
  cases b
  · rw [execs_vec s h] at hx hy
    obtain ⟨r, _, rfl⟩ := List.mem_map.1 hx
    obtain ⟨u, _, rfl⟩ := List.mem_map.1 hy
    have : r = u := by simpa [Exec.same] using e
    rw [this]
  · rw [execs_sca s h] at hx hy
    obtain ⟨r, _, rfl⟩ := List.mem_map.1 hx
    obtain ⟨u, _, rfl⟩ := List.mem_map.1 hy
    have : r = u := by
      obtain ⟨a1, a2⟩ := r
      obtain ⟨b1, b2⟩ := u
      simpa [Exec.same, scaExec] using e
    rw [this]

/-- The threads of a bundle's executions are the bundle's threads. -/
theorem mem_execs_ts (s : State) (h : s.cur.handler = none) (b : Bool) (r : TRef) :
    r ∈ (s.execs b).flatMap (·.ts) ↔ r ∈ s.cur.threads := by
  cases b
  · rw [execs_vec_ts s h]
  · rw [execs_sca s h, List.mem_flatMap]
    constructor
    · rintro ⟨x, hx, hr⟩
      obtain ⟨k, _, rfl⟩ := List.mem_map.1 hx
      exact (List.mem_filter.1 hr).1
    · intro hr
      refine ⟨scaExec s.cur.threads (r.team, r.squad), List.mem_map.2 ⟨_, ?_, rfl⟩, ?_⟩
      · rw [mem_distinct]; exact List.mem_map.2 ⟨r, hr, rfl⟩
      · exact List.mem_filter.2 ⟨hr, by simp⟩

theorem execs_ts_nodup (s : State) (h : s.cur.handler = none) (hn : s.cur.threads.Nodup) (b : Bool) :
    ((s.execs b).flatMap (·.ts)).Nodup := by
  cases b
  · rw [execs_vec_ts s h]; exact hn
  · rw [execs_sca s h, List.Nodup, List.pairwise_flatMap]
    constructor
    · intro x hx
      obtain ⟨k, _, rfl⟩ := List.mem_map.1 hx
      exact hn.filter _
    · rw [List.pairwise_map]
      refine (distinct_nodup _).imp (fun {a b} hab => ?_)
      intro x hx y hy e
      have h1 := (List.mem_filter.1 hx).2
      have h2 := (List.mem_filter.1 hy).2
      rw [← e] at h2
      simp only [beq_iff_eq] at h1 h2
      exact hab (h1.symm.trans h2)

theorem execs_mode (s : State) (h : s.cur.handler = none) (b : Bool) (x : Exec) (hx : x ∈ s.execs b) :
    x.mode = if b then .sca else .vec := by
  cases b
  · rw [execs_vec s h] at hx
    obtain ⟨r, _, rfl⟩ := List.mem_map.1 hx
    rfl
  · rw [execs_sca s h] at hx
    obtain ⟨r, _, rfl⟩ := List.mem_map.1 hx
    rfl

/-! ### What writes of registers leave alone -/

/-- A thread without the contents of its registers. -/
def Thread.shell (t : Thread) : Thread := { t with regs := List.replicate t.regs.length .zero }

/-- Everything but the contents of registers is the same. -/
def SameShell (s t : State) : Prop :=
  (∀ l, ({ t with teams := l } : State) = { s with teams := l })
  ∧ (∀ m, (t.team? m).map Team.bare = (s.team? m).map Team.bare)
  ∧ (∀ m p, (t.squad? m p).map Squad.rest = (s.squad? m p).map Squad.rest)
  ∧ ∀ r, (t.thread? r).map Thread.shell = (s.thread? r).map Thread.shell

theorem SameShell.refl (s : State) : SameShell s s := ⟨fun _ => rfl, fun _ => rfl, fun _ _ => rfl, fun _ => rfl⟩

/-- A thread without its registers' contents and without its predicates. -/
def Thread.core (t : Thread) : Thread := { t.shell with preds := [] }

/-- Everything but the contents of registers and the predicates is the same. -/
def SameCore (s t : State) : Prop :=
  (∀ l, ({ t with teams := l } : State) = { s with teams := l })
  ∧ (∀ m, (t.team? m).map Team.bare = (s.team? m).map Team.bare)
  ∧ (∀ m p, (t.squad? m p).map Squad.rest = (s.squad? m p).map Squad.rest)
  ∧ ∀ r, (t.thread? r).map Thread.core = (s.thread? r).map Thread.core

theorem SameShell.toCore {s t : State} (h : SameShell s t) : SameCore s t := by
  refine ⟨h.1, h.2.1, h.2.2.1, fun r => ?_⟩
  have := congrArg (Option.map (fun t : Thread => { t with preds := [] })) (h.2.2.2 r)
  rw [Option.map_map, Option.map_map] at this
  exact this

theorem SameShell.trans {s t u : State} (h : SameShell s t) (g : SameShell t u) : SameShell s u :=
  ⟨fun l => (g.1 l).trans (h.1 l), fun m => (g.2.1 m).trans (h.2.1 m), fun m p => (g.2.2.1 m p).trans (h.2.2.1 m p),
   fun r => (g.2.2.2 r).trans (h.2.2.2 r)⟩

theorem sameShell_setV (s : State) (r : TRef) (n : Nat) (w : Word) : SameShell s (s.setV r n w) := by
  refine ⟨fun _ => rfl, fun m => team?_bare_modThread s r m _, fun m p => ?_, fun u => ?_⟩
  · unfold State.setV
    rw [squad?_modThread]
    by_cases h : m = r.team ∧ p = r.squad
    · cases s.squad? m p <;> simp [h, Squad.rest]
    · simp [h]
  · unfold State.setV
    rw [thread?_modThread]
    by_cases h : u = r
    · cases s.thread? u <;> simp [h, Thread.shell]
    · simp [h]

theorem sameShell_setK (s : State) (n q k : Nat) (w : Word) : SameShell s (s.setK n q false k w) := by
  refine ⟨fun _ => rfl, fun m => team?_bare_modSquad s n q m _, fun m p => ?_, fun u => ?_⟩
  · unfold State.setK
    rw [squad?_modSquad]
    by_cases h : m = n ∧ p = q
    · cases s.squad? m p <;> simp [h, Squad.rest]
    · simp [h]
  · rw [thread?_setK]

theorem sameShell_writeAll (l : List (Exec × Int × Nat × Word)) (s : State) (h : ∀ p ∈ l, p.1.mode ≠ .han) :
    SameShell s (writeAll l s) := by
  induction l generalizing s with
  | nil => exact .refl s
  | cons p t ih =>
    rw [writeAll, List.foldl_cons, ← writeAll]
    refine SameShell.trans ?_ (ih _ (fun q hq => h q (by simp [hq])))
    have := h p (by simp)
    unfold Exec.set
    cases hm : p.1.mode
    · exact sameShell_setV _ _ _ _
    · exact sameShell_setK _ _ _ _ _
    · exact absurd hm this

theorem kreg_writeAll_vec (l : List (Exec × Int × Nat × Word)) (s : State) (h : ∀ p ∈ l, p.1.mode = .vec) (m p : Nat)
    (b : Bool) (k : Nat) : (writeAll l s).kreg m p b k = s.kreg m p b k := by
  induction l generalizing s with
  | nil => rfl
  | cons q t ih =>
    rw [writeAll, List.foldl_cons, ← writeAll, ih _ (fun q hq => h q (by simp [hq]))]
    simp [Exec.set, h q (by simp)]

theorem thread?_writeAll_sca (l : List (Exec × Int × Nat × Word)) (s : State) (h : ∀ p ∈ l, p.1.mode = .sca) (r : TRef) :
    (writeAll l s).thread? r = s.thread? r := by
  induction l generalizing s with
  | nil => rfl
  | cons q t ih =>
    rw [writeAll, List.foldl_cons, ← writeAll, ih _ (fun q hq => h q (by simp [hq]))]
    simp [Exec.set, h q (by simp)]

/-! ### After the body: completion of the bundle -/

theorem perform_completed (i : Instr) (o : Opnd) (fm : Form) (body : Body) (s w : State) (h : Issues i o fm s)
    (hw : body s (s.runs o) = Eff.of w) :
    perform i o fm body s = .next (s.completed w i o.et.scalar) := by
  obtain ⟨⟨hh, _, _⟩, _, hb, hd⟩ := h
  rw [perform_next i o fm body s (Or.inl hh) (fun x hx => (hd x hx).1) hb (fun x hx => (hd x hx).2)]
  change Host.Outcome.next (s.conclude i _ (body s (s.runs o))) = _
  rw [hw, conclude_done s i _ _ hh rfl rfl rfl]
  rfl

theorem thread?_completed (s w : State) (i : Instr) (b : Bool) (hf : s.bundleFits) (r : TRef) :
    (s.completed w i b).thread? r
      = if r ∈ s.cur.threads then (w.thread? r).map (fun t => t.advance (s.cur.pc.add i.trytes) (s.winsOf r))
        else w.thread? r := by
  unfold State.completed
  rw [thread?_foldl_passThread _ (execs_ts_nodup s hf.1 hf.2.1 b)]
  simp only [mem_execs_ts s hf.1]

theorem kreg_completed (s w : State) (i : Instr) (b : Bool) (n q : Nat) (c : Bool) (k : Nat) :
    (s.completed w i b).kreg n q c k = w.kreg n q c k := kreg_foldl_passThread _ _ _ _ _ _ _ _

theorem squad?_rest_passThread (s : State) (r : TRef) (dest : Word) (k m p : Nat) :
    ((s.passThread r dest k).squad? m p).map (fun q => { q with threads := [] })
      = (s.squad? m p).map (fun q => { q with threads := [] }) := by
  unfold State.passThread State.finish
  split
  · rfl
  · rw [squad?_modThread]
    by_cases h : m = r.team ∧ p = r.squad
    · cases s.squad? m p <;> simp [h]
    · simp [h]

theorem squad?_rest_completed (s w : State) (i : Instr) (b : Bool) (m p : Nat) :
    ((s.completed w i b).squad? m p).map (fun q => { q with threads := [] })
      = (w.squad? m p).map (fun q => { q with threads := [] }) := by
  unfold State.completed
  generalize (s.execs b).flatMap (·.ts) = l
  induction l generalizing w with
  | nil => rfl
  | cons r t ih => rw [List.foldl_cons, ih, squad?_rest_passThread]

theorem rest_of_threads (a b : Option Squad) (h : a.map (fun q => { q with threads := [] }) = b.map (fun q => { q with threads := [] })) :
    a.map Squad.rest = b.map Squad.rest := by
  cases a <;> cases b <;> simp_all [Squad.rest]

/-- The thread of the bundle, once more. -/
theorem bundle_thread (s : State) (hf : s.bundleFits) (r : TRef) (hr : r ∈ s.cur.threads) :
    ∃ th, s.thread? r = some th ∧ th.run = .ready ∧ (th.regs.length : Int) = s.regsOf r.team ∧ th.preds.length = 8 := by
  obtain ⟨q, th, h1, h2, _, h3, h4, h5, _⟩ := hf.2.2 r hr
  exact ⟨th, by simp [State.thread?, h1, h2], h3, h4, h5⟩

theorem Thread.advance_ready (t : Thread) (dest : Word) (k : Nat) (h : t.run = .ready) :
    t.advance dest k = Thread.count { t with pc := dest, conv := 0, instr := [] } k := by simp [Thread.advance, h]

/-- A completed bundle passes the instruction. -/
theorem passedBy_completed (s w : State) (i : Instr) (b : Bool) (hf : s.bundleFits) (hs : SameCore s w) :
    PassedBy i s (s.completed w i b) := by
  intro r hr
  obtain ⟨th, h1, h2, _⟩ := bundle_thread s hf r hr
  have h3 := hs.2.2.2 r
  rw [h1] at h3
  cases h4 : w.thread? r with
  | none => simp [h4] at h3
  | some u =>
    rw [h4] at h3
    have hu : u.run = .ready := by
      have : u.core.run = th.core.run := by simpa using congrArg Thread.run (Option.some.inj h3)
      exact this.trans h2
    refine ⟨u.advance (s.cur.pc.add i.trytes) (s.winsOf r), ?_, ?_, ?_⟩
    · rw [thread?_completed s w i b hf, if_pos hr, h4]; rfl
    · rw [Thread.advance_ready _ _ _ hu]; rfl
    · rw [Thread.advance_ready _ _ _ hu]; exact hu

/-- A completed bundle changes only threads and the normal bank. -/
theorem onlyThreads_completed (s w : State) (i : Instr) (b : Bool) (hf : s.bundleFits) (hs : SameCore s w)
    (ho : ∀ r, r ∉ s.cur.threads → w.thread? r = s.thread? r) : OnlyThreads s (s.completed w i b) := by
  have hrest : ∀ l, ({ s.completed w i b with teams := l } : State) = { w with teams := l } :=
    fun l => rest_foldl_passThread _ _ _ w l
  have hw : ({ w with teams := s.teams } : State) = s := hs.1 s.teams
  refine ⟨⟨(hrest s.teams).trans hw, fun m => ?_⟩, fun m p => ?_, fun r hr => ?_, fun r th th' h1 h2 => ?_⟩
  · exact (bare_foldl_passThread _ _ _ w m).trans (hs.2.1 m)
  · exact (rest_of_threads _ _ (squad?_rest_completed s w i b m p)).trans (hs.2.2.1 m p)
  · rw [thread?_completed s w i b hf, if_neg hr]; exact ho r hr
  · have h3 := hs.2.2.2 r
    rw [h1] at h3
    cases h4 : w.thread? r with
    | none => simp [h4] at h3
    | some u =>
      rw [h4] at h3
      have hu : u.core = th.core := Option.some.inj h3
      have e : u.run = th.run ∧ u.age = th.age ∧ u.leases = th.leases ∧ u.fault = th.fault ∧ u.unackPub = th.unackPub
          ∧ u.unackSyn = th.unackSyn ∧ u.regs.length = th.regs.length := by
        refine ⟨(congrArg Thread.run hu :), (congrArg Thread.age hu :), (congrArg Thread.leases hu :), (congrArg Thread.fault hu :),
          (congrArg Thread.unackPub hu :), (congrArg Thread.unackSyn hu :), ?_⟩
        simpa [Thread.core, Thread.shell] using congrArg (fun t => t.regs.length) hu
      rw [thread?_completed s w i b hf, h4] at h2
      by_cases hr : r ∈ s.cur.threads
      · rw [if_pos hr] at h2
        have h2 := Option.some.inj h2
        subst h2
        unfold Thread.advance
        by_cases hx : u.run = .exited
        · simpa [hx] using ⟨hx ▸ e.1, e.2⟩
        · simpa [hx] using e
      · rw [if_neg hr] at h2
        have h2 := Option.some.inj h2
        subst h2
        exact e

/-- A predicate after completion. -/
theorem pred_completed (s w : State) (i : Instr) (b : Bool) (hf : s.bundleFits) (r : TRef) (n : Nat) :
    (s.completed w i b).pred r n = w.pred r n := by
  unfold State.pred
  rw [thread?_completed s w i b hf]
  by_cases hr : r ∈ s.cur.threads
  · rw [if_pos hr]
    cases w.thread? r with
    | none => rfl
    | some t => by_cases h : t.run = .exited <;> simp [Thread.advance, h]
  · rw [if_neg hr]

/-- A register that no pending result names, after completion. -/
theorem vreg_completed (s w : State) (i : Instr) (b : Bool) (hf : s.bundleFits) (r : TRef) (n : Nat)
    (h : ∀ th, w.thread? r = some th → ∀ x ∈ th.wins, x.reg ≠ n) :
    (s.completed w i b).vreg r n = w.vreg r n := by
  unfold State.vreg
  rw [thread?_completed s w i b hf]
  by_cases hr : r ∈ s.cur.threads
  · rw [if_pos hr]
    cases ht : w.thread? r with
    | none => rfl
    | some t =>
      by_cases hx : t.run = .exited
      · simp [Thread.advance, hx]
      · simp only [Option.map_some, Thread.advance, hx, if_false]
        exact Thread.count_reg _ _ _ (h t ht)
  · rw [if_neg hr]

theorem SameShell.wins {s w : State} (h : SameShell s w) {r : TRef} {t : Thread} (ht : w.thread? r = some t) :
    ∃ th, s.thread? r = some th ∧ th.wins = t.wins ∧ th.preds = t.preds ∧ th.run = t.run := by
  have h3 := h.2.2.2 r
  rw [ht] at h3
  cases h4 : s.thread? r with
  | none => simp [h4] at h3
  | some u =>
    rw [h4] at h3
    have e : t.shell = u.shell := Option.some.inj h3
    exact ⟨u, rfl, (congrArg Thread.wins e :).symm, (congrArg Thread.preds e :).symm, (congrArg Thread.run e :).symm⟩

theorem SameShell.pred {s w : State} (h : SameShell s w) (r : TRef) (n : Nat) : w.pred r n = s.pred r n := by
  unfold State.pred
  cases ht : w.thread? r with
  | none =>
    have h3 := h.2.2.2 r
    rw [ht] at h3
    cases h4 : s.thread? r with
    | none => rfl
    | some u => simp [h4] at h3
  | some t =>
    obtain ⟨th, h1, _, h2, _⟩ := h.wins ht
    simp [h1, h2]

theorem blockSteps_scalar (o : Opnd) (h : o.xr = 1 ∧ o.xc = 1) : blockSteps o = [0] := by
  simp [blockSteps, h.1, h.2, List.range_succ]

/-- The registers that `f` writes are registers that the form names as its destination. -/
def NamesOuts (fm : Form) (o : Opnd) (f : State → Exec → Nat → List Word) : Prop :=
  ∀ s x, ∀ k ∈ blockSteps o, ∀ j, j < (f s x k).length →
    (o.et.scalar = false → Exec.num (o.d + (j : Int)) + k ∈ vregsOf fm o)
    ∧ (o.et.scalar = true → Exec.num (o.d + (j : Int)) ∈ kregsOf fm o)

theorem ite3_none {α : Type} {a b c : Prop} [Decidable a] [Decidable b] [Decidable c] {x y z : α}
    (h : (if a then some x else if b then some y else if c then some z else none) = none) : ¬a ∧ ¬b ∧ ¬c := by
  by_cases ha : a <;> by_cases hb : b <;> by_cases hc : c <;> simp_all

/-- An execution that raises no code of R173 names registers that the thread has. -/
theorem dynCode_regs (s : State) (fm : Form) (o : Opnd) (x : Exec) (l : Bool) (h : s.dynCode fm o x l = none) (v : Nat)
    (hv : v ∈ vregsOf fm o) : v ≤ 242 ∧ (v : Int) < (if x.mode = .han then 81 else s.regsOf x.t.team) := by
  obtain ⟨_, h7, h8⟩ := ite3_none (by unfold State.dynCode at h; exact h)
  constructor
  · have := fun e => h7 (List.any_eq_true.2 ⟨v, hv, e⟩)
    simpa using this
  · have : ¬ ((if x.mode = .han then 81 else s.regsOf x.t.team) ≤ (v : Int)) := by
      intro e
      apply h8
      have : (vregsOf fm o).any (fun (r : Nat) => decide ((if x.mode = .han then 81 else s.regsOf x.t.team) ≤ (r : Int))) = true :=
        List.any_eq_true.2 ⟨v, hv, by simpa using e⟩
      simp only [this, Bool.true_or]
    omega

/-- Performing a register instruction that may issue: the one statement of what it does. -/
theorem words_writes (i : Instr) (o : Opnd) (fm : Form) (f : State → Exec → Nat → List Word)
    (he : ∀ s, exec i s = perform i o fm (wordsBody o f) s) (hn : Opnd.fits fm o → NamesOuts fm o f) : Writes i o fm f := by
  intro s h
  have hn := hn h.2.1
  have hI := h
  obtain ⟨hf, ho, hb, hd⟩ := h
  let L := (s.runs o).flatMap (entriesOf o f s)
  let w := writeAll L s
  have hsub : ∀ x ∈ s.runs o, x ∈ s.execs o.et.scalar := fun x hx => (List.mem_filter.1 hx).1
  have hmode : ∀ x ∈ s.execs o.et.scalar, x.mode = if o.et.scalar then .sca else .vec := execs_mode s hf.1 _
  have hL : ∀ p ∈ L, p.1 ∈ s.runs o ∧ p ∈ entriesOf o f s p.1 := by
    intro p hp
    obtain ⟨x, hx, hp⟩ := List.mem_flatMap.1 hp
    have e := entriesOf_exec o f s x p hp
    rw [e]; exact ⟨hx, hp⟩
  have hLm : ∀ p ∈ L, p.1.mode = if o.et.scalar then .sca else .vec := fun p hp => hmode _ (hsub _ (hL p hp).1)
  have hshell : SameShell s w := sameShell_writeAll L s (fun p hp => by rw [hLm p hp]; split <;> simp)
  have hthr : ∀ x ∈ s.execs o.et.scalar, ∀ r ∈ x.ts, r ∈ s.cur.threads := fun x hx r hr =>
    (mem_execs_ts s hf.1 o.et.scalar r).1 (List.mem_flatMap.2 ⟨x, hx, hr⟩)
  have hother : ∀ r, r ∉ s.cur.threads → w.thread? r = s.thread? r := by
    intro r hr
    suffices ∀ (l : List (Exec × Int × Nat × Word)) (u : State), (∀ p ∈ l, p ∈ L) → (writeAll l u).thread? r = u.thread? r from
      this L s (fun _ h => h)
    intro l
    induction l with
    | nil => intro u _; rfl
    | cons p t ih =>
      intro u hl
      rw [writeAll, List.foldl_cons, ← writeAll, ih _ (fun q hq => hl q (by simp [hq]))]
      have hp := hl p (by simp)
      have hx := hsub _ (hL p hp).1
      have hm := hLm p hp
      unfold Exec.set
      cases hs : o.et.scalar
      · rw [hs] at hm hx
        simp only [Bool.false_eq_true, if_false] at hm
        rw [hm]
        simp only [State.setV]
        rw [thread?_modThread]
        rw [execs_vec s hf.1] at hx
        obtain ⟨v, hv, e⟩ := List.mem_map.1 hx
        have : ¬ r = p.1.t := fun er => hr (by rw [er, ← e]; exact hv)
        simp [this]
      · rw [hs] at hm
        simp only [if_true] at hm
        rw [hm]
        simp
  have hhas : ∀ p ∈ L, p.1.has s (p.1.slot p.2.1 p.2.2.1) = true := by
    intro p hp
    obtain ⟨hx, hp'⟩ := hL p hp
    have hx := hsub _ hx
    have hm := hLm p hp
    obtain ⟨k, hk, hp'⟩ := List.mem_flatMap.1 hp'
    obtain ⟨q, hq, e⟩ := List.mem_map.1 hp'
    have hq := List.mem_zipIdx hq
    have hj : q.2 < (f s p.1 k).length := by omega
    have hname := hn s p.1 k hk q.2 hj
    have e2 : p.2.1 = o.d + (q.2 : Int) := by rw [← e]
    have e3 : p.2.2.1 = k := by rw [← e]
    unfold Exec.has Exec.slot
    rw [e2, e3, hm]
    cases hs : o.et.scalar
    · simp only [Bool.false_eq_true, if_false, if_true]
      have hv := hname.1 hs
      have hdyn := (hd _ hx).1
      rw [hs, execs_vec s hf.1] at hx
      obtain ⟨r, hr, e⟩ := List.mem_map.1 hx
      obtain ⟨th, h1, _, h2, _⟩ := bundle_thread s hf r hr
      have ht : p.1.t = r := by rw [← e]
      have hm2 : p.1.mode = .vec := by rw [← e]
      have hlt := (dynCode_regs s fm o p.1 _ hdyn _ hv).2
      rw [hm2, ht] at hlt
      simp only [State.hasV, ht, h1, Option.any_some, decide_eq_true_eq]
      have : ((Exec.num (o.d + (q.2 : Int)) + k : Nat) : Int) < s.regsOf r.team := by simpa using hlt
      omega
    · simp only [if_true]
      have hk81 := ho.2.2.2.2.2.2.2.1 _ (hname.2 hs)
      rw [hs, execs_sca s hf.1] at hx
      obtain ⟨c, hc, e⟩ := List.mem_map.1 hx
      rw [mem_distinct] at hc
      obtain ⟨r, hr, ec⟩ := List.mem_map.1 hc
      obtain ⟨sq, th, hq1, _, hq3, _⟩ := hf.2.2 r hr
      have et : p.1.t.team = r.team := by rw [← e, ← ec]; rfl
      have es : p.1.t.squad = r.squad := by rw [← e, ← ec]; rfl
      simp only [State.hasK, et, es, hq1]
      simpa [hq3] using hk81
  have hcell : ∀ y ∈ s.execs o.et.scalar, ∀ n,
      y.cell w n = if y ∈ s.runs o then (lastOut (y.outs s o f) n).getD (y.cell s n) else y.cell s n := by
    intro y hy n
    have h1 := cell_writeAll L s y n (fun p hp => by rw [hLm p hp, hmode y hy]) hhas
    have h2 := hitsOf_flatMap o f s (s.runs o) y ((execs_pairwise s hf.1 hf.2.1 _).filter _)
      (fun x hx e => execs_same_eq s hf.1 _ x y (hsub x hx) hy e) (same_refl y)
    rw [h1, h2]
    by_cases hyr : y ∈ s.runs o
    · simp [hyr]
    · simp [hyr, lastOut]
  refine ⟨s.completed w i o.et.scalar, ?_, passedBy_completed s w i _ hf hshell.toCore,
    onlyThreads_completed s w i _ hf hshell.toCore hother, ?_, ?_, ?_, ?_⟩
  · rw [he s, perform_completed i o fm _ s w hI]
    rw [wordsBody_eq]
  · intro x hx n hset
    rw [← hcell x hx n]
    have hm := hmode x hx
    unfold Exec.cell
    cases hs : o.et.scalar
    · rw [hs] at hm
      simp only [Bool.false_eq_true, if_false] at hm
      rw [hm]
      refine vreg_completed s w i _ hf x.t n (fun th hth v hv => ?_)
      obtain ⟨th', h1, h2, _⟩ := hshell.wins hth
      exact hset hm th' h1 v (h2 ▸ hv)
    · rw [hs] at hm
      simp only [if_true] at hm
      rw [hm]
      exact kreg_completed s w i _ _ _ _ _
  · intro r n
    rw [pred_completed s w i _ hf, hshell.pred]
  · intro hs r th hth hw n
    have hwt : w.thread? r = s.thread? r := by
      refine thread?_writeAll_sca L s (fun p hp => ?_) r
      rw [hLm p hp, hs]; rfl
    rw [vreg_completed s w i _ hf r n (fun th' h' v hv => ?_)]
    · simp [State.vreg, hwt]
    · rw [hwt, hth] at h'
      have := Option.some.inj h'
      subst this
      rw [hw] at hv
      exact absurd hv (by simp)
  · intro hs m p k
    rw [kreg_completed, kreg_writeAll_vec]
    intro p hp
    rw [hLm p hp, hs]; rfl

/-! ### Predicates -/

theorem predAt_predPut (l : List Trit) (i j : Nat) (v : Trit) (h : l.length = 8) (hi : i ≤ 8) :
    predAt (predPut l i v) j = if j = i ∧ j ≠ 0 then v else predAt l j := by
  unfold predPut predAt
  by_cases h0 : i = 0
  · by_cases hj : j = 0 <;> simp [h0, hj]
  · by_cases hj : j = 0
    · simp [hj]
    · simp only [h0, hj, if_false, setNth, List.getD_eq_getElem?_getD, modNth_getElem?]
      by_cases e : j = i
      · subst e
        have : j - 1 < l.length := by omega
        simp [this, hj]
      · have : ¬ j - 1 = i - 1 := by omega
        simp [this, e]

@[simp] theorem predPut_length (l : List Trit) (i : Nat) (v : Trit) : (predPut l i v).length = l.length := by
  unfold predPut; split <;> simp

theorem kreg_setPred (s : State) (r : TRef) (i : Nat) (v : Trit) (m p : Nat) (b : Bool) (k : Nat) :
    (s.setPred r i v).kreg m p b k = s.kreg m p b k := by simp [State.setPred]

theorem thread?_setPred (s : State) (r u : TRef) (i : Nat) (v : Trit) :
    (s.setPred r i v).thread? u = if u = r then (s.thread? u).map (fun t => { t with preds := predPut t.preds i v }) else s.thread? u := by
  unfold State.setPred; rw [thread?_modThread]

theorem sameCore_setPred (s : State) (r : TRef) (i : Nat) (v : Trit) : SameCore s (s.setPred r i v) := by
  refine ⟨fun _ => rfl, fun m => team?_bare_modThread s r m _, fun m p => ?_, fun u => ?_⟩
  · unfold State.setPred
    rw [squad?_modThread]
    by_cases h : m = r.team ∧ p = r.squad
    · cases s.squad? m p <;> simp [h, Squad.rest]
    · simp [h]
  · rw [thread?_setPred]
    by_cases h : u = r
    · cases s.thread? u <;> simp [h, Thread.core, Thread.shell]
    · simp [h]

theorem SameCore.refl (s : State) : SameCore s s := ⟨fun _ => rfl, fun _ => rfl, fun _ _ => rfl, fun _ => rfl⟩

theorem SameCore.trans {s t u : State} (h : SameCore s t) (g : SameCore t u) : SameCore s u :=
  ⟨fun l => (g.1 l).trans (h.1 l), fun m => (g.2.1 m).trans (h.2.1 m), fun m p => (g.2.2.1 m p).trans (h.2.2.1 m p),
   fun r => (g.2.2.2 r).trans (h.2.2.2 r)⟩

/-- Predicate writes in a list of threads. -/
def setPreds (i : Nat) (l : List (TRef × Trit)) (s : State) : State := l.foldl (fun s p => s.setPred p.1 i p.2) s

theorem setPreds_cons (i : Nat) (p : TRef × Trit) (l : List (TRef × Trit)) (s : State) :
    setPreds i (p :: l) s = setPreds i l (s.setPred p.1 i p.2) := rfl

theorem sameCore_setPreds (i : Nat) (l : List (TRef × Trit)) (s : State) : SameCore s (setPreds i l s) := by
  induction l generalizing s with
  | nil => exact .refl s
  | cons p t ih => exact (sameCore_setPred s p.1 i p.2).trans (ih _)

theorem kreg_setPreds (i : Nat) (l : List (TRef × Trit)) (s : State) (m p : Nat) (b : Bool) (k : Nat) :
    (setPreds i l s).kreg m p b k = s.kreg m p b k := by
  induction l generalizing s with
  | nil => rfl
  | cons q t ih => rw [setPreds_cons, ih, kreg_setPred]

theorem thread?_setPreds_other (i : Nat) (l : List (TRef × Trit)) (s : State) (r : TRef) (h : ∀ p ∈ l, p.1 ≠ r) :
    (setPreds i l s).thread? r = s.thread? r := by
  induction l generalizing s with
  | nil => rfl
  | cons p t ih =>
    rw [setPreds_cons, ih _ (fun q hq => h q (by simp [hq])), thread?_setPred, if_neg (fun e => h p (by simp) e.symm)]

theorem thread?_setPreds (i : Nat) (l : List (TRef × Trit)) (s : State) (r : TRef) (v : Trit) (hl : (l.map (·.1)).Nodup)
    (h : (r, v) ∈ l) :
    (setPreds i l s).thread? r = (s.thread? r).map (fun t => { t with preds := predPut t.preds i v }) := by
  induction l generalizing s with
  | nil => simp at h
  | cons p t ih =>
    rw [List.map_cons, List.nodup_cons] at hl
    rw [setPreds_cons]
    rcases List.mem_cons.1 h with e | h
    · subst e
      rw [thread?_setPreds_other i t _ r (fun q hq e => hl.1 (List.mem_map.2 ⟨q, hq, e⟩)), thread?_setPred, if_pos rfl]
    · have : p.1 ≠ r := fun e => hl.1 (e ▸ List.mem_map.2 ⟨_, h, rfl⟩)
      rw [ih _ hl.2 h, thread?_setPred, if_neg (fun e => this e.symm)]

theorem setPred_exec (s : State) (x : Exec) (i : Nat) (v : Trit) (h : x.mode ≠ .han) :
    x.setPred s i v = setPreds i (x.ts.map (fun r => (r, v))) s := by
  unfold Exec.setPred setPreds
  cases hm : x.mode
  · simp [List.foldl_map]
  · simp [List.foldl_map]
  · exact absurd hm h

theorem setPreds_flatMap (i : Nat) (l : List (Exec × Trit)) (s : State) (h : ∀ p ∈ l, p.1.mode ≠ .han) :
    l.foldl (fun t p => p.1.setPred t i p.2) s = setPreds i (l.flatMap (fun p => p.1.ts.map (fun r => (r, p.2)))) s := by
  induction l generalizing s with
  | nil => rfl
  | cons p t ih =>
    rw [List.foldl_cons, ih _ (fun q hq => h q (by simp [hq])), setPred_exec _ _ _ _ (h p (by simp)), List.flatMap_cons]
    simp [setPreds, List.foldl_append]

theorem thread?_some_of_core {s w : State} (h : SameCore s w) {r : TRef} {t : Thread} (ht : w.thread? r = some t) :
    ∃ th, s.thread? r = some th ∧ t.core = th.core := by
  have h3 := h.2.2.2 r
  rw [ht] at h3
  cases h4 : s.thread? r with
  | none => simp [h4] at h3
  | some u => rw [h4] at h3; exact ⟨u, rfl, Option.some.inj h3⟩

theorem sublist_flatMap {α β : Type} (f : α → List β) {a b : List α} (h : a.Sublist b) : (a.flatMap f).Sublist (b.flatMap f) := by
  induction h with
  | slnil => exact .slnil
  | cons x _ ih => rw [List.flatMap_cons]; exact ih.trans (List.sublist_append_right _ _)
  | cons_cons x _ ih => rw [List.flatMap_cons, List.flatMap_cons]; exact List.Sublist.append_left ih _

/-- Performing an instruction that writes a predicate and may issue. -/
theorem trit_writes (i : Instr) (o : Opnd) (fm : Form) (f : State → Exec → Trit)
    (he : ∀ s, exec i s = perform i o fm (tritBody o f) s) (hp : fm.d = .p) : WritesPred i o fm f := by
  intro s h
  have hI := h
  obtain ⟨hf, ho, hb, hd⟩ := h
  have hd8 : predNum o.d ≤ 8 := by
    have := ho.2.2.2.2.2.2.1 hp
    unfold predNum; omega
  let L := (s.runs o).flatMap (fun x => x.ts.map (fun r => (r, f s x)))
  let w := setPreds (predNum o.d) L s
  have hsub : ∀ x ∈ s.runs o, x ∈ s.execs o.et.scalar := fun x hx => (List.mem_filter.1 hx).1
  have hmode : ∀ x ∈ s.execs o.et.scalar, x.mode ≠ .han := fun x hx => by
    rw [execs_mode s hf.1 _ x hx]; split <;> simp
  have hw : tritBody o f s (s.runs o) = Eff.of w := by
    unfold tritBody
    rw [setPreds_flatMap]
    · simp only [List.flatMap_map, w, L]
    · intro p hp
      obtain ⟨x, hx, rfl⟩ := List.mem_map.1 hp
      exact hmode x (hsub x hx)
  have hLn : (L.map (·.1)).Nodup := by
    have : L.map (·.1) = (s.runs o).flatMap (·.ts) := by
      simp only [L, List.map_flatMap, List.map_map, Function.comp_def, List.map_id']
    rw [this]
    exact List.Nodup.sublist (sublist_flatMap _ List.filter_sublist) (execs_ts_nodup s hf.1 hf.2.1 o.et.scalar)
  have hcore : SameCore s w := sameCore_setPreds _ _ _
  have hthr : ∀ x ∈ s.execs o.et.scalar, ∀ r ∈ x.ts, r ∈ s.cur.threads := fun x hx r hr =>
    (mem_execs_ts s hf.1 o.et.scalar r).1 (List.mem_flatMap.2 ⟨x, hx, hr⟩)
  have hother : ∀ r, r ∉ s.cur.threads → w.thread? r = s.thread? r := fun r hr =>
    thread?_setPreds_other _ _ _ _ (fun p hp e => by
      obtain ⟨x, hx, hp⟩ := List.mem_flatMap.1 hp
      obtain ⟨u, hu, rfl⟩ := List.mem_map.1 hp
      exact hr (e ▸ hthr x (hsub x hx) u hu))
  have huniq : ∀ x ∈ s.execs o.et.scalar, ∀ y ∈ s.execs o.et.scalar, ∀ r, r ∈ x.ts → r ∈ y.ts → x = y := by
    intro x hx y hy r hxr hyr
    refine execs_same_eq s hf.1 o.et.scalar x y hx hy ?_
    cases hs : o.et.scalar
    · rw [hs, execs_vec s hf.1] at hx hy
      obtain ⟨a, _, rfl⟩ := List.mem_map.1 hx
      obtain ⟨b, _, rfl⟩ := List.mem_map.1 hy
      simp only [List.mem_singleton] at hxr hyr
      simp [Exec.same, ← hxr, ← hyr]
    · rw [hs, execs_sca s hf.1] at hx hy
      obtain ⟨a, _, rfl⟩ := List.mem_map.1 hx
      obtain ⟨b, _, rfl⟩ := List.mem_map.1 hy
      have h1 := (List.mem_filter.1 hxr).2
      have h2 := (List.mem_filter.1 hyr).2
      simp only [beq_iff_eq] at h1 h2
      have : a = b := h1.symm.trans h2
      simp [Exec.same, scaExec, this]
  refine ⟨s.completed w i o.et.scalar, by rw [he s, perform_completed i o fm _ s w hI hw], passedBy_completed s w i _ hf hcore,
    onlyThreads_completed s w i _ hf hcore hother, ?_, ?_, ?_⟩
  · intro x hx r hr n
    rw [pred_completed s w i _ hf]
    obtain ⟨th, h1, _, _, h8⟩ := bundle_thread s hf r (hthr x hx r hr)
    by_cases hxr : x ∈ s.runs o
    · have hm : (r, f s x) ∈ L := List.mem_flatMap.2 ⟨x, hxr, List.mem_map.2 ⟨r, hr, rfl⟩⟩
      have ht := thread?_setPreds (predNum o.d) L s r _ hLn hm
      have ht' : w.thread? r = some { th with preds := predPut th.preds (predNum o.d) (f s x) } := by
        rw [show w.thread? r = _ from ht, h1]; rfl
      simp only [State.pred, ht', h1, predAt_predPut _ _ _ _ h8 hd8, hxr, true_and]
    · have ht : w.thread? r = s.thread? r := thread?_setPreds_other _ _ _ _ (fun p hp e => by
        obtain ⟨y, hy, hp⟩ := List.mem_flatMap.1 hp
        obtain ⟨u, hu, rfl⟩ := List.mem_map.1 hp
        have e : u = r := e
        subst e
        exact hxr (huniq y (hsub y hy) x hx u hu hr ▸ hy))
      simp [State.pred, ht, hxr]
  · intro r th hth hwn n
    have hw0 : ∀ t, w.thread? r = some t → t.wins = [] ∧ t.regs = th.regs := by
      intro t ht
      by_cases hr : ∃ v, (r, v) ∈ L
      · obtain ⟨v, hv⟩ := hr
        have := thread?_setPreds (predNum o.d) L s r v hLn hv
        rw [show w.thread? r = _ from this, hth] at ht
        have := Option.some.inj ht
        subst this
        exact ⟨hwn, rfl⟩
      · have : w.thread? r = s.thread? r := thread?_setPreds_other _ _ _ _ (fun p hp e => hr ⟨p.2, by rw [← e]; exact hp⟩)
        rw [this, hth] at ht
        have := Option.some.inj ht
        subst this
        exact ⟨hwn, rfl⟩
    rw [vreg_completed s w i _ hf r n (fun t ht x hx => by rw [(hw0 t ht).1] at hx; exact absurd hx (by simp))]
    unfold State.vreg
    cases ht : w.thread? r with
    | none =>
      have := hcore.2.2.2 r
      rw [ht, hth] at this
      simp at this
    | some t => simp [hth, (hw0 t ht).2]
  · intro m p b k
    rw [kreg_completed, kreg_setPreds]

theorem names_r (fm : Form) (o : Opnd) (f : State → Exec → Nat → List Word) (hd : fm.d = .r)
    (hl : ∀ s x k, (f s x k).length = 1) : NamesOuts fm o f := by
  have hd : (fm.at o.len).d = .r := by unfold Form.at; split <;> exact hd
  intro s x k hk j hj
  rw [hl] at hj
  have hj : j = 0 := by omega
  subst hj
  constructor
  · intro hs
    refine List.mem_flatten.2 ⟨_, List.mem_map.2 ⟨k, hk, rfl⟩, List.mem_map.2 ⟨Exec.num o.d, ?_, by simp⟩⟩
    simp [hd, hs, Use.isV]
  · intro hs
    simp [kregsOf, hd, hs]

theorem names_v (fm : Form) (o : Opnd) (f : State → Exec → Nat → List Word) (hd : fm.d = .v) (ho : Opnd.fits fm o)
    (hl : ∀ s x k, (f s x k).length = 1) : NamesOuts fm o f := by
  have hs := ho.2.2.2.2.2.2.2.2.1 hd
  have hd : (fm.at o.len).d = .v := by unfold Form.at; split <;> exact hd
  intro s x k hk j hj
  rw [hl] at hj
  have hj : j = 0 := by omega
  subst hj
  constructor
  · intro hs
    refine List.mem_flatten.2 ⟨_, List.mem_map.2 ⟨k, hk, rfl⟩, List.mem_map.2 ⟨Exec.num o.d, ?_, by simp⟩⟩
    simp [hd, Use.isV]
  · intro h; rw [hs] at h; exact absurd h (by simp)

theorem names_k (fm : Form) (o : Opnd) (f : State → Exec → Nat → List Word) (hd : fm.d = .k) (ho : Opnd.fits fm o)
    (hl : ∀ s x k, (f s x k).length = 1) : NamesOuts fm o f := by
  have hs := ho.2.2.2.2.2.2.2.2.2 hd
  have hd : (fm.at o.len).d = .k := by unfold Form.at; split <;> exact hd
  intro s x k hk j hj
  rw [hl] at hj
  have hj : j = 0 := by omega
  subst hj
  constructor
  · intro h; rw [hs] at h; exact absurd h (by simp)
  · intro _; simp [kregsOf, hd]

/-- A form that names D and further registers from D + 1 on as destinations. -/
theorem names_more (fm : Form) (o : Opnd) (f : State → Exec → Nat → List Word)
    (hd : fm.d = .v ∨ fm.d = .r) (ho : Opnd.fits fm o)
    (hm : ∀ s x k, ∀ j, 0 < j → j < (f s x k).length → o.d + (j : Int) ∈ fm.moreV)
    (hl : o.et.scalar = true → ∀ s x k, (f s x k).length ≤ 1) : NamesOuts fm o f := by
  have hat : (fm.at o.len).d = fm.d ∧ (fm.at o.len).moreV = fm.moreV := by unfold Form.at; split <;> exact ⟨rfl, rfl⟩
  intro s x k hk j hj
  constructor
  · intro hs
    refine List.mem_flatten.2 ⟨_, List.mem_map.2 ⟨k, hk, rfl⟩, List.mem_map.2 ⟨Exec.num (o.d + (j : Int)), ?_, rfl⟩⟩
    rcases Nat.eq_zero_or_pos j with rfl | h0
    · rcases hd with h | h <;> simp [hat.1, h, hs, Use.isV]
    · have := hm s x k j h0 hj
      refine List.mem_append_right _ ?_
      rw [hs, hat.2]
      exact List.mem_map.2 ⟨_, this, rfl⟩
  · intro hs
    have := hl hs s x k
    have hj : j = 0 := by omega
    subst hj
    rcases hd with h | h
    · have := ho.2.2.2.2.2.2.2.2.1 h
      rw [hs] at this
      exact absurd this (by simp)
    · simp [kregsOf, hat.1, h, hs]

/-- A body that writes one word to D, a register of the element type. -/
theorem word_writes (i : Instr) (o : Opnd) (fm : Form) (f : State → Exec → Nat → Word) (he : ∀ s, exec i s = perform i o fm (wordBody o f) s)
    (hd : fm.d = .r) : Writes i o fm (fun s x k => [f s x k]) :=
  words_writes i o fm _ he (fun _ => names_r fm o _ hd (fun _ _ _ => rfl))
/-- The same for a D that is always a v register. -/
theorem word_writes_v (i : Instr) (o : Opnd) (fm : Form) (f : State → Exec → Nat → Word) (he : ∀ s, exec i s = perform i o fm (wordBody o f) s)
    (hd : fm.d = .v) : Writes i o fm (fun s x k => [f s x k]) :=
  words_writes i o fm _ he (fun h => names_v fm o _ hd h (fun _ _ _ => rfl))
/-- The same for a D that is always a k register. -/
theorem word_writes_k (i : Instr) (o : Opnd) (fm : Form) (f : State → Exec → Nat → Word) (he : ∀ s, exec i s = perform i o fm (wordBody o f) s)
    (hd : fm.d = .k) : Writes i o fm (fun s x k => [f s x k]) :=
  words_writes i o fm _ he (fun h => names_k fm o _ hd h (fun _ _ _ => rfl))

theorem groupsOf_length (c : Nat) (hc : 0 < c) (fuel : Nat) (l : List Int) : (groupsOf c fuel l).length ≤ (l.length + c - 1) / c := by
  induction fuel generalizing l with
  | zero => simp [groupsOf]
  | succ n ih =>
    cases l with
    | nil => simp [groupsOf]
    | cons a t =>
      have e1 : (groupsOf c (n + 1) (a :: t)).length = (groupsOf c n ((a :: t).drop c)).length + 1 := by simp [groupsOf]
      rw [e1, List.length_cons]
      have hih := ih ((a :: t).drop c)
      rw [List.length_drop, List.length_cons] at hih
      have e : (t.length + 1 + c - 1) / c = t.length / c + 1 := by
        rw [show t.length + 1 + c - 1 = t.length + c by omega, Nat.add_div_right _ hc]
      rw [e]
      by_cases h : t.length + 1 ≤ c
      · have e : t.length + 1 - c = 0 := by omega
        rw [e] at hih
        have h0 : (0 + c - 1) / c = 0 := Nat.div_eq_of_lt (by omega)
        have := Nat.zero_le (t.length / c)
        rw [h0] at hih
        omega
      · have e2 : t.length + 1 - c + c - 1 = t.length := by omega
        rw [e2] at hih
        omega
/-- The registers that a conversion writes are those its form names (R263, R264). -/
theorem names_convert (o : Opnd) (fm : Form) (cs cd : Nat) (ok : Bool) (dst : ETy) (g : State → Exec → Nat → Nat → Int)
    (hc : 0 < cd) (hd : fm.d = .r) (hm : fm.moreV = (convert o cs cd ok).moreV) (hs : o.et.scalar = true → cs = 1) (hdv : cd ∣ max cs cd)
    (h : Opnd.fits fm o) : NamesOuts fm o (fun s x k => destWords dst cd ((List.range (max cs cd)).map (fun j => g s x k j))) := by
  have hlen : ∀ s x k, (destWords dst cd ((List.range (max cs cd)).map (fun j => g s x k j))).length ≤ max cs cd / cd := by
    intro s x k
    unfold destWords
    rw [List.length_map]
    refine Nat.le_trans (groupsOf_length cd hc _ _) ?_
    rw [List.length_map, List.length_range]
    obtain ⟨m, hm⟩ := hdv
    rw [hm, Nat.mul_div_cancel_left _ hc]
    rw [Nat.div_le_iff_le_mul_add_pred hc]
    omega
  refine names_more fm o _ (.inr hd) h (fun s x k j h0 hj => ?_) (fun he s x k => ?_)
  · have := hlen s x k
    rw [hm]
    simp only [convert, upTo, List.mem_append, List.mem_map, List.mem_range]
    left; right
    exact ⟨j - 1, by omega, by omega⟩
  · have := hlen s x k
    refine Nat.le_trans this ?_
    rw [hs he, Nat.max_eq_right (by omega), Nat.div_self hc]
    all_goals exact Nat.le_refl _
end Sys2Proof.Machine
end

