-- ==== Sys2Proof/Laws/Does.lean ====
section
/-! SUPPORT. Instructions performed by a rule (`Does`): what a body must give for it, and the rules for predicates. -/

namespace Sys2Proof.Machine

/-- The effect that a state and what comes of each execution amount to. -/
def Eff.from (w : State) (l : List (Exec × After)) : Eff := { s := w, traps := [], stay := stayOf l, goto := gotoOf l }

/-- A body that answers the rule's effect makes the instruction complete by the rule. -/
theorem does_of_body (i : Instr) (o : Opnd) (fm : Form) (body : Body) (g : List Exec → State → Option (State × List (Exec × After)))
    (he : ∀ s, exec i s = perform i o fm body s)
    (hb : ∀ s w l, g (s.runs o) s = some (w, l) → body s (s.runs o) = Eff.from w l) : Does i o fm g := by
  intro s w l hI hg
  obtain ⟨⟨hh, _, _⟩, _, hbk, hd⟩ := hI
  have e := hb s w l hg
  unfold State.runs at e
  rw [he s, perform_next i o fm body s (.inl hh) (fun x hx => (hd x hx).1) hbk (fun x hx => (hd x hx).2), e]
  simp only [State.conclude, hh, Eff.from, State.after, List.any_nil, Bool.not_false, Bool.true_and,
    List.map_nil, List.flatten_nil, raiseTraps_nil, List.foldl_nil, State.passThread, State.winsOf]
  all_goals rfl

/-- One execution's rule, added to an effect. -/
def Eff.add (e : Eff) (s : State) (x : Exec) (a : After) : Eff :=
  { e with s := s, stay := e.stay ++ stayOf [(x, a)], goto := e.goto ++ gotoOf [(x, a)] }

theorem eachExec_from (f : Eff → Exec → Eff) (g : State → Exec → Option (State × After))
    (hf : ∀ e x s' a, e.traps = [] → g e.s x = some (s', a) → f e x = e.add s' x a) (xs : List Exec) (e : Eff) (w : State)
    (l : List (Exec × After)) (ht : e.traps = []) (h : eachDo g xs e.s = some (w, l)) :
    xs.foldl f e = { s := w, traps := [], stay := e.stay ++ stayOf l, goto := e.goto ++ gotoOf l } := by
  induction xs generalizing e l with
  | nil =>
    simp only [eachDo, Option.some.injEq, Prod.mk.injEq] at h
    obtain ⟨rfl, rfl⟩ := h
    simp [stayOf, gotoOf, ← ht]
  | cons x t ih =>
    simp only [eachDo] at h
    cases hg : g e.s x with
    | none => simp [hg] at h
    | some p =>
      obtain ⟨s', a⟩ := p
      rw [hg] at h
      simp only [Option.bind_some] at h
      cases hr : eachDo g t s' with
      | none => simp [hr] at h
      | some q =>
        obtain ⟨w', l'⟩ := q
        rw [hr] at h
        simp only [Option.map_some, Option.some.injEq, Prod.mk.injEq] at h
        obtain ⟨rfl, rfl⟩ := h
        rw [List.foldl_cons, hf e x s' a ht hg, ih (e.add s' x a) l' (by simpa [Eff.add] using ht) (by simpa [Eff.add] using hr)]
        simp only [Eff.add, stayOf, gotoOf, List.filterMap_cons, List.filterMap_nil]
        cases a <;> simp

/-- An instruction whose body runs one execution after another completes by the rule of one. -/
theorem each_does (i : Instr) (o : Opnd) (fm : Form) (f : Eff → Exec → Eff) (g : State → Exec → Option (State × After))
    (he : ∀ s, exec i s = perform i o fm (eachExec f) s)
    (hf : ∀ e x s' a, e.traps = [] → g e.s x = some (s', a) → f e x = e.add s' x a) : Does i o fm (eachDo g) :=
  does_of_body i o fm _ _ he (fun s w l h => by
    have := eachExec_from f g hf (s.runs o) (Eff.of s) w l rfl h
    simpa [eachExec, Eff.of, Eff.from] using this)

theorem passes_stay (xs : List Exec) : stayOf (xs.map (fun x => (x, After.pass))) = [] := by
  simp [stayOf]
theorem passes_goto (xs : List Exec) : gotoOf (xs.map (fun x => (x, After.pass))) = [] := by
  simp [gotoOf]
theorem stays_stay (xs : List Exec) : stayOf (xs.map (fun x => (x, After.stay))) = xs := by
  simp [stayOf, Function.comp_def]
theorem stays_goto (xs : List Exec) : gotoOf (xs.map (fun x => (x, After.stay))) = [] := by
  simp [gotoOf]
/-- The effect of a state in which every execution passes. -/
theorem from_pass (w : State) (xs : List Exec) : Eff.from w (xs.map (fun x => (x, After.pass))) = Eff.of w := by
  simp [Eff.from, Eff.of, passes_stay, passes_goto]

/-- The same as `does_of_body` for a body that looks at the mode of its executions. -/
theorem does_of_body_modes (i : Instr) (o : Opnd) (fm : Form) (body : Body) (g : List Exec → State → Option (State × List (Exec × After)))
    (he : ∀ s, exec i s = perform i o fm body s)
    (hb : ∀ s w l, (∀ x ∈ s.runs o, x.mode = if o.et.scalar then .sca else .vec) → g (s.runs o) s = some (w, l) → body s (s.runs o) = Eff.from w l) : Does i o fm g := by
  intro s w l hI hg
  have hm : ∀ x ∈ s.runs o, x.mode = if o.et.scalar then .sca else .vec := fun x hx =>
    execs_mode s hI.1.1 _ x (List.mem_filter.1 hx).1
  have hI' := hI
  obtain ⟨⟨hh, _, _⟩, _, hbk, hd⟩ := hI
  have e := hb s w l hm hg
  unfold State.runs at e
  rw [he s, perform_next i o fm body s (.inl hh) (fun x hx => (hd x hx).1) hbk (fun x hx => (hd x hx).2), e]
  simp only [State.conclude, hh, Eff.from, State.after, List.any_nil, Bool.not_false, Bool.true_and,
    List.map_nil, List.flatten_nil, raiseTraps_nil, List.foldl_nil, State.passThread, State.winsOf]
  all_goals rfl

theorem foldl_congr_mem {α β : Type} (f g : β → α → β) (l : List α) (b : β) (h : ∀ b, ∀ a ∈ l, f b a = g b a) : l.foldl f b = l.foldl g b := by
  induction l generalizing b with
  | nil => rfl
  | cons a t ih => rw [List.foldl_cons, List.foldl_cons, h b a (by simp), ih _ (fun b c hc => h b c (by simp [hc]))]

/-- A body that changes the state and lets every execution pass. -/
theorem pass_all (i : Instr) (o : Opnd) (fm : Form) (body : Body) (f : List Exec → State → State) (he : ∀ s, exec i s = perform i o fm body s)
  (hb : ∀ s xs, body s xs = Eff.of (f xs s)) : Does i o fm (passAll f) := 
  does_of_body _ _ _ _ _ he (fun s w l h => by
    simp only [passAll, Option.some.injEq, Prod.mk.injEq] at h
    obtain ⟨rfl, rfl⟩ := h
    rw [hb]; simp [Eff.of, Eff.from, passes_stay, passes_goto])

/-- A lane whose commands are all entered issues them. -/
theorem issueLane_done (o : Opnd) (plan : State → State → Exec → Nat → Plan) (post : State → Nat → Nat → State) (s0 : State) (x : Exec)
   (ks : List Nat) (s w : State) (h : issueSteps o plan post s0 x ks s = some w) : issueLane o plan post s0 x ks s = .done w := by
  induction ks generalizing s with
  | nil => simp only [issueSteps, Option.some.injEq] at h; subst h; rfl
  | cons k t ih =>
    simp only [issueSteps] at h
    simp only [issueLane]
    split at h
    · exact absurd h (by simp)
    · next h1 =>
      rw [if_neg h1]
      split at h
      · exact absurd h (by simp)
      · exact absurd h (by simp)
      · next h2 => try simp only [h2]
                   exact ih _ h
      · next h2 =>
        try simp only [h2]
        split at h
        · exact absurd h (by simp)
        · next h3 => rw [if_neg h3]; exact ih _ h

/-- Lanes whose commands are all entered issue them one after another. -/
theorem issue_fold (o : Opnd) (plan : State → State → Exec → Nat → Plan) (post : State → Nat → Nat → State) (xs : List Exec) (e : Eff) (w : State)
   (l : List (Exec × After)) (h : eachDo (issueRule o plan post) xs e.s = some (w, l)) :
   (xs.foldl (fun (p : Eff × Option Run) x =>
    let e := p.1
    let hold := fun (r : Run) => (({ e with s := e.s.setRun x.t r, stay := e.stay ++ [x] } : Eff), some r)
    match p.2 with
    | some r => hold r
    | none => match issueLane o plan post e.s x (blockSteps o) e.s with
      | .done s => ({ e with s := s }, none)
      | .trap s t => (({ e with s := s } : Eff).stop x (.trap t), none)
      | .wait r => hold r) (e, none)).1 = { e with s := w } ∧ l = xs.map (fun x => (x, After.pass)) := by
  induction xs generalizing e l with
  | nil => 
    simp only [eachDo, Option.some.injEq, Prod.mk.injEq] at h
    obtain ⟨rfl, rfl⟩ := h
    exact ⟨rfl, rfl⟩
  | cons x t ih =>
    simp only [eachDo, issueRule] at h
    cases hs : issueSteps o plan post e.s x (blockSteps o) e.s with
    | none => simp [hs] at h
    | some s1 =>
      rw [hs] at h
      simp only [Option.map_some, Option.bind_some] at h
      cases hr : eachDo (issueRule o plan post) t s1 with
      | none => simp [hr] at h
      | some q =>
        obtain ⟨w', l'⟩ := q
        rw [hr] at h
        simp only [Option.map_some, Option.some.injEq, Prod.mk.injEq] at h
        obtain ⟨rfl, rfl⟩ := h
        have := ih { e with s := s1 } l' hr
        rw [List.foldl_cons]
        simp only [issueLane_done _ _ _ _ _ _ _ _ hs]
        exact ⟨this.1, by rw [this.2]; rfl⟩

/-- An engine instruction completes by the rule of one lane. -/
theorem issue_does (i : Instr) (o : Opnd) (fm : Form) (plan : State → State → Exec → Nat → Plan) (post : State → Nat → Nat → State)
   (he : ∀ s, exec i s = perform i o fm (issueBody o plan post) s) : Does i o fm (eachDo (issueRule o plan post)) :=
  does_of_body _ _ _ (issueBody o plan post) _ he (fun s w l h => by
    have := issue_fold o plan post (s.runs o) (Eff.of s) w l h
    rw [this.2, from_pass]
    exact this.1)

/-- A body that runs lanes in order: where the rule lets none of them stay, none waits for another. -/
theorem inOrder_from (f : Eff → Exec → Eff) (g : State → Exec → Option (State × After))
    (hf : ∀ e x s' a, e.traps = [] → g e.s x = some (s', a) → f e x = e.add s' x a ∧ a ≠ .stay) (xs : List Exec) (e : Eff) (w : State)
    (l : List (Exec × After)) (ht : e.traps = []) (hs : e.stay = []) (h : eachDo g xs e.s = some (w, l)) :
    xs.foldl (fun e x => if e.waits then { e with stay := e.stay ++ [x] } else f e x) e
      = { s := w, traps := [], stay := [] ++ stayOf l, goto := e.goto ++ gotoOf l } := by
  induction xs generalizing e l with
  | nil =>
    simp only [eachDo, Option.some.injEq, Prod.mk.injEq] at h
    obtain ⟨rfl, rfl⟩ := h
    obtain ⟨s, tr, st, go⟩ := e
    simp only at ht hs; subst ht hs
    simp [stayOf, gotoOf]
  | cons x t ih =>
    simp only [eachDo] at h
    cases hg : g e.s x with
    | none => simp [hg] at h
    | some p =>
      obtain ⟨s', a⟩ := p
      rw [hg] at h
      simp only [Option.bind_some] at h
      cases hr : eachDo g t s' with
      | none => simp [hr] at h
      | some q =>
        obtain ⟨w', l'⟩ := q
        rw [hr] at h
        simp only [Option.map_some, Option.some.injEq, Prod.mk.injEq] at h
        obtain ⟨rfl, rfl⟩ := h
        have hw : e.waits = false := by simp [Eff.waits, hs]
        obtain ⟨h1, h2⟩ := hf e x s' a ht hg
        rw [List.foldl_cons, hw, if_neg Bool.false_ne_true, h1, ih (e.add s' x a) l' (by simpa [Eff.add] using ht)
          (by cases a <;> simp [Eff.add, stayOf, hs] at h2 ⊢) (by simpa [Eff.add] using hr)]
        simp only [Eff.add, stayOf, gotoOf, List.filterMap_cons, List.filterMap_nil]
        cases a <;> simp at h2 ⊢

/-- An instruction whose body runs lanes in order completes by the rule of one. -/
theorem order_does (i : Instr) (o : Opnd) (fm : Form) (f : Eff → Exec → Eff) (g : State → Exec → Option (State × After))
    (he : ∀ s, exec i s = perform i o fm (inOrder f) s)
    (hf : ∀ e x s' a, e.traps = [] → g e.s x = some (s', a) → f e x = e.add s' x a ∧ a ≠ .stay) : Does i o fm (eachDo g) :=
  does_of_body i o fm _ _ he (fun s w l h => by
    have := inOrder_from f g hf (s.runs o) (Eff.of s) w l rfl rfl h
    simpa [inOrder, eachExec, Eff.of, Eff.from] using this)

/-- The same as `eachExec_from`, with a property of every execution. -/
theorem eachExec_from_mem (f : Eff → Exec → Eff) (g : State → Exec → Option (State × After)) (P : Exec → Bool)
    (hf : ∀ e x s' a, P x = true → e.traps = [] → g e.s x = some (s', a) → f e x = e.add s' x a) (xs : List Exec) (hP : ∀ x ∈ xs, P x = true) (e : Eff) (w : State)
    (l : List (Exec × After)) (ht : e.traps = []) (h : eachDo g xs e.s = some (w, l)) :
    xs.foldl f e = { s := w, traps := [], stay := e.stay ++ stayOf l, goto := e.goto ++ gotoOf l } := by
  have h1 : xs.foldl f e = xs.foldl (fun e x => if P x = true then f e x else match g e.s x with | some p => e.add p.1 x p.2 | none => e) e := by
    have := foldl_congr_mem f (fun e x => if P x = true then f e x else match g e.s x with | some p => e.add p.1 x p.2 | none => e) xs e (fun b a ha => by simp [hP a ha])
    exact this
  rw [h1]
  refine eachExec_from _ g (fun e x s' a ht h => ?_) xs e w l ht h
  by_cases hp : P x = true
  · simp only [hp, if_true]; exact hf e x s' a hp ht h
  · simp only [hp]; rw [h]; rfl

/-- A rule under a mode that no execution violates. -/
theorem under_does (i : Instr) (o : Opnd) (fm : Form) (bad : State → Exec → Bool) (body : Body)
    (g : List Exec → State → Option (State × List (Exec × After))) (he : ∀ s, exec i s = perform i o fm (underMode bad body) s)
    (hb : ∀ s xs w l, g xs s = some (w, l) → body s xs = Eff.from w l) : Does i o fm (underRule bad g) :=
  does_of_body _ _ _ (underMode bad body) _ he (fun s w l h => by
    generalize s.runs o = xs at *
    simp only [underRule] at h
    split at h
    · exact absurd h (by simp)
    · next h1 =>
      have h2 : xs.filter (bad s) = [] := by
        rw [List.filter_eq_nil_iff]; intro x hx hb
        exact h1 (List.any_eq_true.2 ⟨x, hx, hb⟩)
      have h3 : xs.filter (fun x => !bad s x) = xs := by
        rw [List.filter_eq_self]; intro x hx
        cases hbx : bad s x
        · rfl
        · exact absurd (List.any_eq_true.2 ⟨x, hx, hbx⟩) h1
      simp only [underMode, h2, h3, hb s xs w l h, Eff.from, List.map_nil, List.nil_append])

/-- The same for a body that runs one execution after another. -/
theorem each_under (i : Instr) (o : Opnd) (fm : Form) (bad : State → Exec → Bool) (f : Eff → Exec → Eff) (g : State → Exec → Option (State × After))
    (he : ∀ s, exec i s = perform i o fm (underMode bad (eachExec f)) s)
    (hf : ∀ e x s' a, e.traps = [] → g e.s x = some (s', a) → f e x = e.add s' x a) : Does i o fm (underRule bad (eachDo g)) :=
  under_does _ _ _ _ _ _ he (fun s xs w l h => by
    have := eachExec_from f g hf xs (Eff.of s) w l rfl h
    simpa [eachExec, Eff.of, Eff.from] using this)

/-- A handler's instruction is concluded with what its body does to the one execution (R374). -/
theorem perform_handled {i : Instr} {o : Opnd} {fm : Form} {s : State} {n : Nat} {h : Handler} (hh : Handles i o fm s n h)
    (b : Body) : perform i o fm b s = .next (s.conclude i [h.exec n] (b s [h.exec n])) := by
  obtain ⟨h1, h2, h3, h4, h5⟩ := hh
  have hx : s.execs o.et.scalar = [h.exec n] := by simp [State.execs, h1, h2, Handler.exec]
  rw [hx] at h4 h5
  obtain ⟨h5, h6⟩ := h5 _ (List.mem_singleton.2 rfl)
  have ho : s.outside i.scope o (h.exec n) = false := by simp [State.outside, Handler.exec]
  simp [perform, h3, hx, h5, h4, h6, ho, -Bool.not_eq_true]

/-- A body that answers the rule's effect makes a handler's instruction complete by the rule. -/
theorem handled_each (i : Instr) (o : Opnd) (fm : Form) (f : Eff → Exec → Eff) (g : State → Exec → Option (State × After))
    (he : ∀ s, exec i s = perform i o fm (eachExec f) s)
    (hf : ∀ e x s' a, e.traps = [] → g e.s x = some (s', a) → f e x = e.add s' x a) : DoesHandled i o fm g := by
  intro s n h w a hh hg
  rw [he, perform_handled hh, eachExec, List.foldl_cons, List.foldl_nil, hf (Eff.of s) _ _ _ rfl hg]
  cases a <;> simp [Eff.add, Eff.of, State.conclude, hh.1, State.handled, stayOf, gotoOf]

end Sys2Proof.Machine
end

