-- ==== Sys2Proof/Laws/State.lean ====
section
/-! SUPPORT. What each update of the state leaves as it was, field by field. -/

namespace Sys2Proof.Machine

/-! later changes only: agenda. -/

@[simp] theorem State.later_cycle (s : State) (l : List Instr) : (s.later l).cycle = s.cycle := rfl
@[simp] theorem State.later_stamps (s : State) (l : List Instr) : (s.later l).stamps = s.stamps := rfl
@[simp] theorem State.later_ctl (s : State) (l : List Instr) : (s.later l).ctl = s.ctl := rfl
@[simp] theorem State.later_hbm (s : State) (l : List Instr) : (s.later l).hbm = s.hbm := rfl
@[simp] theorem State.later_frames (s : State) (l : List Instr) : (s.later l).frames = s.frames := rfl
@[simp] theorem State.later_scores (s : State) (l : List Instr) : (s.later l).scores = s.scores := rfl
@[simp] theorem State.later_vlines (s : State) (l : List Instr) : (s.later l).vlines = s.vlines := rfl
@[simp] theorem State.later_fillq (s : State) (l : List Instr) : (s.later l).fillq = s.fillq := rfl
@[simp] theorem State.later_serials (s : State) (l : List Instr) : (s.later l).serials = s.serials := rfl
@[simp] theorem State.later_copies (s : State) (l : List Instr) : (s.later l).copies = s.copies := rfl
@[simp] theorem State.later_dies (s : State) (l : List Instr) : (s.later l).dies = s.dies := rfl
@[simp] theorem State.later_cores (s : State) (l : List Instr) : (s.later l).cores = s.cores := rfl
@[simp] theorem State.later_teams (s : State) (l : List Instr) : (s.later l).teams = s.teams := rfl
@[simp] theorem State.later_nteam (s : State) (l : List Instr) : (s.later l).nteam = s.nteam := rfl
@[simp] theorem State.later_nline (s : State) (l : List Instr) : (s.later l).nline = s.nline := rfl
@[simp] theorem State.later_grids (s : State) (l : List Instr) : (s.later l).grids = s.grids := rfl
@[simp] theorem State.later_ngrid (s : State) (l : List Instr) : (s.later l).ngrid = s.ngrid := rfl
@[simp] theorem State.later_nrel (s : State) (l : List Instr) : (s.later l).nrel = s.nrel := rfl
@[simp] theorem State.later_graphs (s : State) (l : List Instr) : (s.later l).graphs = s.graphs := rfl
@[simp] theorem State.later_saved (s : State) (l : List Instr) : (s.later l).saved = s.saved := rfl
@[simp] theorem State.later_posts (s : State) (l : List Instr) : (s.later l).posts = s.posts := rfl
@[simp] theorem State.later_shoots (s : State) (l : List Instr) : (s.later l).shoots = s.shoots := rfl
@[simp] theorem State.later_nshoot (s : State) (l : List Instr) : (s.later l).nshoot = s.nshoot := rfl
@[simp] theorem State.later_staging (s : State) (l : List Instr) : (s.later l).staging = s.staging := rfl
@[simp] theorem State.later_shellLog (s : State) (l : List Instr) : (s.later l).shellLog = s.shellLog := rfl
@[simp] theorem State.later_logq (s : State) (l : List Instr) : (s.later l).logq = s.logq := rfl
@[simp] theorem State.later_answers (s : State) (l : List Instr) : (s.later l).answers = s.answers := rfl
@[simp] theorem State.later_irqs (s : State) (l : List Instr) : (s.later l).irqs = s.irqs := rfl
@[simp] theorem State.later_sent (s : State) (l : List Instr) : (s.later l).sent = s.sent := rfl
@[simp] theorem State.later_flits (s : State) (l : List Instr) : (s.later l).flits = s.flits := rfl
@[simp] theorem State.later_down (s : State) (l : List Instr) : (s.later l).down = s.down := rfl
@[simp] theorem State.later_exch (s : State) (l : List Instr) : (s.later l).exch = s.exch := rfl
@[simp] theorem State.later_ncmd (s : State) (l : List Instr) : (s.later l).ncmd = s.ncmd := rfl
@[simp] theorem State.later_nv (s : State) (l : List Instr) : (s.later l).nv = s.nv := rfl
@[simp] theorem State.later_resets (s : State) (l : List Instr) : (s.later l).resets = s.resets := rfl
@[simp] theorem State.later_report (s : State) (l : List Instr) : (s.later l).report = s.report := rfl
@[simp] theorem State.later_thermtrip (s : State) (l : List Instr) : (s.later l).thermtrip = s.thermtrip := rfl
@[simp] theorem State.later_issue (s : State) (l : List Instr) : (s.later l).issue = s.issue := rfl
@[simp] theorem State.later_cur (s : State) (l : List Instr) : (s.later l).cur = s.cur := rfl
@[simp] theorem State.later_tick (s : State) (l : List Instr) : (s.later l).tick = s.tick := rfl

/-! setCw changes only: ctl. -/

@[simp] theorem State.setCw_cycle (s : State) (k : Nat) (w : Word) : (s.setCw k w).cycle = s.cycle := rfl
@[simp] theorem State.setCw_stamps (s : State) (k : Nat) (w : Word) : (s.setCw k w).stamps = s.stamps := rfl
@[simp] theorem State.setCw_hbm (s : State) (k : Nat) (w : Word) : (s.setCw k w).hbm = s.hbm := rfl
@[simp] theorem State.setCw_frames (s : State) (k : Nat) (w : Word) : (s.setCw k w).frames = s.frames := rfl
@[simp] theorem State.setCw_scores (s : State) (k : Nat) (w : Word) : (s.setCw k w).scores = s.scores := rfl
@[simp] theorem State.setCw_vlines (s : State) (k : Nat) (w : Word) : (s.setCw k w).vlines = s.vlines := rfl
@[simp] theorem State.setCw_fillq (s : State) (k : Nat) (w : Word) : (s.setCw k w).fillq = s.fillq := rfl
@[simp] theorem State.setCw_serials (s : State) (k : Nat) (w : Word) : (s.setCw k w).serials = s.serials := rfl
@[simp] theorem State.setCw_copies (s : State) (k : Nat) (w : Word) : (s.setCw k w).copies = s.copies := rfl
@[simp] theorem State.setCw_dies (s : State) (k : Nat) (w : Word) : (s.setCw k w).dies = s.dies := rfl
@[simp] theorem State.setCw_cores (s : State) (k : Nat) (w : Word) : (s.setCw k w).cores = s.cores := rfl
@[simp] theorem State.setCw_teams (s : State) (k : Nat) (w : Word) : (s.setCw k w).teams = s.teams := rfl
@[simp] theorem State.setCw_nteam (s : State) (k : Nat) (w : Word) : (s.setCw k w).nteam = s.nteam := rfl
@[simp] theorem State.setCw_nline (s : State) (k : Nat) (w : Word) : (s.setCw k w).nline = s.nline := rfl
@[simp] theorem State.setCw_grids (s : State) (k : Nat) (w : Word) : (s.setCw k w).grids = s.grids := rfl
@[simp] theorem State.setCw_ngrid (s : State) (k : Nat) (w : Word) : (s.setCw k w).ngrid = s.ngrid := rfl
@[simp] theorem State.setCw_nrel (s : State) (k : Nat) (w : Word) : (s.setCw k w).nrel = s.nrel := rfl
@[simp] theorem State.setCw_graphs (s : State) (k : Nat) (w : Word) : (s.setCw k w).graphs = s.graphs := rfl
@[simp] theorem State.setCw_saved (s : State) (k : Nat) (w : Word) : (s.setCw k w).saved = s.saved := rfl
@[simp] theorem State.setCw_posts (s : State) (k : Nat) (w : Word) : (s.setCw k w).posts = s.posts := rfl
@[simp] theorem State.setCw_shoots (s : State) (k : Nat) (w : Word) : (s.setCw k w).shoots = s.shoots := rfl
@[simp] theorem State.setCw_nshoot (s : State) (k : Nat) (w : Word) : (s.setCw k w).nshoot = s.nshoot := rfl
@[simp] theorem State.setCw_staging (s : State) (k : Nat) (w : Word) : (s.setCw k w).staging = s.staging := rfl
@[simp] theorem State.setCw_shellLog (s : State) (k : Nat) (w : Word) : (s.setCw k w).shellLog = s.shellLog := rfl
@[simp] theorem State.setCw_logq (s : State) (k : Nat) (w : Word) : (s.setCw k w).logq = s.logq := rfl
@[simp] theorem State.setCw_answers (s : State) (k : Nat) (w : Word) : (s.setCw k w).answers = s.answers := rfl
@[simp] theorem State.setCw_irqs (s : State) (k : Nat) (w : Word) : (s.setCw k w).irqs = s.irqs := rfl
@[simp] theorem State.setCw_sent (s : State) (k : Nat) (w : Word) : (s.setCw k w).sent = s.sent := rfl
@[simp] theorem State.setCw_flits (s : State) (k : Nat) (w : Word) : (s.setCw k w).flits = s.flits := rfl
@[simp] theorem State.setCw_down (s : State) (k : Nat) (w : Word) : (s.setCw k w).down = s.down := rfl
@[simp] theorem State.setCw_exch (s : State) (k : Nat) (w : Word) : (s.setCw k w).exch = s.exch := rfl
@[simp] theorem State.setCw_ncmd (s : State) (k : Nat) (w : Word) : (s.setCw k w).ncmd = s.ncmd := rfl
@[simp] theorem State.setCw_nv (s : State) (k : Nat) (w : Word) : (s.setCw k w).nv = s.nv := rfl
@[simp] theorem State.setCw_resets (s : State) (k : Nat) (w : Word) : (s.setCw k w).resets = s.resets := rfl
@[simp] theorem State.setCw_report (s : State) (k : Nat) (w : Word) : (s.setCw k w).report = s.report := rfl
@[simp] theorem State.setCw_thermtrip (s : State) (k : Nat) (w : Word) : (s.setCw k w).thermtrip = s.thermtrip := rfl
@[simp] theorem State.setCw_agenda (s : State) (k : Nat) (w : Word) : (s.setCw k w).agenda = s.agenda := rfl
@[simp] theorem State.setCw_issue (s : State) (k : Nat) (w : Word) : (s.setCw k w).issue = s.issue := rfl
@[simp] theorem State.setCw_cur (s : State) (k : Nat) (w : Word) : (s.setCw k w).cur = s.cur := rfl
@[simp] theorem State.setCw_tick (s : State) (k : Nat) (w : Word) : (s.setCw k w).tick = s.tick := rfl

/-! setCwInt changes only: ctl. -/

@[simp] theorem State.setCwInt_cycle (s : State) (k : Nat) (x : Int) : (s.setCwInt k x).cycle = s.cycle := rfl
@[simp] theorem State.setCwInt_stamps (s : State) (k : Nat) (x : Int) : (s.setCwInt k x).stamps = s.stamps := rfl
@[simp] theorem State.setCwInt_hbm (s : State) (k : Nat) (x : Int) : (s.setCwInt k x).hbm = s.hbm := rfl
@[simp] theorem State.setCwInt_frames (s : State) (k : Nat) (x : Int) : (s.setCwInt k x).frames = s.frames := rfl
@[simp] theorem State.setCwInt_scores (s : State) (k : Nat) (x : Int) : (s.setCwInt k x).scores = s.scores := rfl
@[simp] theorem State.setCwInt_vlines (s : State) (k : Nat) (x : Int) : (s.setCwInt k x).vlines = s.vlines := rfl
@[simp] theorem State.setCwInt_fillq (s : State) (k : Nat) (x : Int) : (s.setCwInt k x).fillq = s.fillq := rfl
@[simp] theorem State.setCwInt_serials (s : State) (k : Nat) (x : Int) : (s.setCwInt k x).serials = s.serials := rfl
@[simp] theorem State.setCwInt_copies (s : State) (k : Nat) (x : Int) : (s.setCwInt k x).copies = s.copies := rfl
@[simp] theorem State.setCwInt_dies (s : State) (k : Nat) (x : Int) : (s.setCwInt k x).dies = s.dies := rfl
@[simp] theorem State.setCwInt_cores (s : State) (k : Nat) (x : Int) : (s.setCwInt k x).cores = s.cores := rfl
@[simp] theorem State.setCwInt_teams (s : State) (k : Nat) (x : Int) : (s.setCwInt k x).teams = s.teams := rfl
@[simp] theorem State.setCwInt_nteam (s : State) (k : Nat) (x : Int) : (s.setCwInt k x).nteam = s.nteam := rfl
@[simp] theorem State.setCwInt_nline (s : State) (k : Nat) (x : Int) : (s.setCwInt k x).nline = s.nline := rfl
@[simp] theorem State.setCwInt_grids (s : State) (k : Nat) (x : Int) : (s.setCwInt k x).grids = s.grids := rfl
@[simp] theorem State.setCwInt_ngrid (s : State) (k : Nat) (x : Int) : (s.setCwInt k x).ngrid = s.ngrid := rfl
@[simp] theorem State.setCwInt_nrel (s : State) (k : Nat) (x : Int) : (s.setCwInt k x).nrel = s.nrel := rfl
@[simp] theorem State.setCwInt_graphs (s : State) (k : Nat) (x : Int) : (s.setCwInt k x).graphs = s.graphs := rfl
@[simp] theorem State.setCwInt_saved (s : State) (k : Nat) (x : Int) : (s.setCwInt k x).saved = s.saved := rfl
@[simp] theorem State.setCwInt_posts (s : State) (k : Nat) (x : Int) : (s.setCwInt k x).posts = s.posts := rfl
@[simp] theorem State.setCwInt_shoots (s : State) (k : Nat) (x : Int) : (s.setCwInt k x).shoots = s.shoots := rfl
@[simp] theorem State.setCwInt_nshoot (s : State) (k : Nat) (x : Int) : (s.setCwInt k x).nshoot = s.nshoot := rfl
@[simp] theorem State.setCwInt_staging (s : State) (k : Nat) (x : Int) : (s.setCwInt k x).staging = s.staging := rfl
@[simp] theorem State.setCwInt_shellLog (s : State) (k : Nat) (x : Int) : (s.setCwInt k x).shellLog = s.shellLog := rfl
@[simp] theorem State.setCwInt_logq (s : State) (k : Nat) (x : Int) : (s.setCwInt k x).logq = s.logq := rfl
@[simp] theorem State.setCwInt_answers (s : State) (k : Nat) (x : Int) : (s.setCwInt k x).answers = s.answers := rfl
@[simp] theorem State.setCwInt_irqs (s : State) (k : Nat) (x : Int) : (s.setCwInt k x).irqs = s.irqs := rfl
@[simp] theorem State.setCwInt_sent (s : State) (k : Nat) (x : Int) : (s.setCwInt k x).sent = s.sent := rfl
@[simp] theorem State.setCwInt_flits (s : State) (k : Nat) (x : Int) : (s.setCwInt k x).flits = s.flits := rfl
@[simp] theorem State.setCwInt_down (s : State) (k : Nat) (x : Int) : (s.setCwInt k x).down = s.down := rfl
@[simp] theorem State.setCwInt_exch (s : State) (k : Nat) (x : Int) : (s.setCwInt k x).exch = s.exch := rfl
@[simp] theorem State.setCwInt_ncmd (s : State) (k : Nat) (x : Int) : (s.setCwInt k x).ncmd = s.ncmd := rfl
@[simp] theorem State.setCwInt_nv (s : State) (k : Nat) (x : Int) : (s.setCwInt k x).nv = s.nv := rfl
@[simp] theorem State.setCwInt_resets (s : State) (k : Nat) (x : Int) : (s.setCwInt k x).resets = s.resets := rfl
@[simp] theorem State.setCwInt_report (s : State) (k : Nat) (x : Int) : (s.setCwInt k x).report = s.report := rfl
@[simp] theorem State.setCwInt_thermtrip (s : State) (k : Nat) (x : Int) : (s.setCwInt k x).thermtrip = s.thermtrip := rfl
@[simp] theorem State.setCwInt_agenda (s : State) (k : Nat) (x : Int) : (s.setCwInt k x).agenda = s.agenda := rfl
@[simp] theorem State.setCwInt_issue (s : State) (k : Nat) (x : Int) : (s.setCwInt k x).issue = s.issue := rfl
@[simp] theorem State.setCwInt_cur (s : State) (k : Nat) (x : Int) : (s.setCwInt k x).cur = s.cur := rfl
@[simp] theorem State.setCwInt_tick (s : State) (k : Nat) (x : Int) : (s.setCwInt k x).tick = s.tick := rfl

/-! modTeam changes only: teams. -/

@[simp] theorem State.modTeam_cycle (s : State) (n : Nat) (f : Team → Team) : (s.modTeam n f).cycle = s.cycle := rfl
@[simp] theorem State.modTeam_stamps (s : State) (n : Nat) (f : Team → Team) : (s.modTeam n f).stamps = s.stamps := rfl
@[simp] theorem State.modTeam_ctl (s : State) (n : Nat) (f : Team → Team) : (s.modTeam n f).ctl = s.ctl := rfl
@[simp] theorem State.modTeam_hbm (s : State) (n : Nat) (f : Team → Team) : (s.modTeam n f).hbm = s.hbm := rfl
@[simp] theorem State.modTeam_frames (s : State) (n : Nat) (f : Team → Team) : (s.modTeam n f).frames = s.frames := rfl
@[simp] theorem State.modTeam_scores (s : State) (n : Nat) (f : Team → Team) : (s.modTeam n f).scores = s.scores := rfl
@[simp] theorem State.modTeam_vlines (s : State) (n : Nat) (f : Team → Team) : (s.modTeam n f).vlines = s.vlines := rfl
@[simp] theorem State.modTeam_fillq (s : State) (n : Nat) (f : Team → Team) : (s.modTeam n f).fillq = s.fillq := rfl
@[simp] theorem State.modTeam_serials (s : State) (n : Nat) (f : Team → Team) : (s.modTeam n f).serials = s.serials := rfl
@[simp] theorem State.modTeam_copies (s : State) (n : Nat) (f : Team → Team) : (s.modTeam n f).copies = s.copies := rfl
@[simp] theorem State.modTeam_dies (s : State) (n : Nat) (f : Team → Team) : (s.modTeam n f).dies = s.dies := rfl
@[simp] theorem State.modTeam_cores (s : State) (n : Nat) (f : Team → Team) : (s.modTeam n f).cores = s.cores := rfl
@[simp] theorem State.modTeam_nteam (s : State) (n : Nat) (f : Team → Team) : (s.modTeam n f).nteam = s.nteam := rfl
@[simp] theorem State.modTeam_nline (s : State) (n : Nat) (f : Team → Team) : (s.modTeam n f).nline = s.nline := rfl
@[simp] theorem State.modTeam_grids (s : State) (n : Nat) (f : Team → Team) : (s.modTeam n f).grids = s.grids := rfl
@[simp] theorem State.modTeam_ngrid (s : State) (n : Nat) (f : Team → Team) : (s.modTeam n f).ngrid = s.ngrid := rfl
@[simp] theorem State.modTeam_nrel (s : State) (n : Nat) (f : Team → Team) : (s.modTeam n f).nrel = s.nrel := rfl
@[simp] theorem State.modTeam_graphs (s : State) (n : Nat) (f : Team → Team) : (s.modTeam n f).graphs = s.graphs := rfl
@[simp] theorem State.modTeam_saved (s : State) (n : Nat) (f : Team → Team) : (s.modTeam n f).saved = s.saved := rfl
@[simp] theorem State.modTeam_posts (s : State) (n : Nat) (f : Team → Team) : (s.modTeam n f).posts = s.posts := rfl
@[simp] theorem State.modTeam_shoots (s : State) (n : Nat) (f : Team → Team) : (s.modTeam n f).shoots = s.shoots := rfl
@[simp] theorem State.modTeam_nshoot (s : State) (n : Nat) (f : Team → Team) : (s.modTeam n f).nshoot = s.nshoot := rfl
@[simp] theorem State.modTeam_staging (s : State) (n : Nat) (f : Team → Team) : (s.modTeam n f).staging = s.staging := rfl
@[simp] theorem State.modTeam_shellLog (s : State) (n : Nat) (f : Team → Team) : (s.modTeam n f).shellLog = s.shellLog := rfl
@[simp] theorem State.modTeam_logq (s : State) (n : Nat) (f : Team → Team) : (s.modTeam n f).logq = s.logq := rfl
@[simp] theorem State.modTeam_answers (s : State) (n : Nat) (f : Team → Team) : (s.modTeam n f).answers = s.answers := rfl
@[simp] theorem State.modTeam_irqs (s : State) (n : Nat) (f : Team → Team) : (s.modTeam n f).irqs = s.irqs := rfl
@[simp] theorem State.modTeam_sent (s : State) (n : Nat) (f : Team → Team) : (s.modTeam n f).sent = s.sent := rfl
@[simp] theorem State.modTeam_flits (s : State) (n : Nat) (f : Team → Team) : (s.modTeam n f).flits = s.flits := rfl
@[simp] theorem State.modTeam_down (s : State) (n : Nat) (f : Team → Team) : (s.modTeam n f).down = s.down := rfl
@[simp] theorem State.modTeam_exch (s : State) (n : Nat) (f : Team → Team) : (s.modTeam n f).exch = s.exch := rfl
@[simp] theorem State.modTeam_ncmd (s : State) (n : Nat) (f : Team → Team) : (s.modTeam n f).ncmd = s.ncmd := rfl
@[simp] theorem State.modTeam_nv (s : State) (n : Nat) (f : Team → Team) : (s.modTeam n f).nv = s.nv := rfl
@[simp] theorem State.modTeam_resets (s : State) (n : Nat) (f : Team → Team) : (s.modTeam n f).resets = s.resets := rfl
@[simp] theorem State.modTeam_report (s : State) (n : Nat) (f : Team → Team) : (s.modTeam n f).report = s.report := rfl
@[simp] theorem State.modTeam_thermtrip (s : State) (n : Nat) (f : Team → Team) : (s.modTeam n f).thermtrip = s.thermtrip := rfl
@[simp] theorem State.modTeam_agenda (s : State) (n : Nat) (f : Team → Team) : (s.modTeam n f).agenda = s.agenda := rfl
@[simp] theorem State.modTeam_issue (s : State) (n : Nat) (f : Team → Team) : (s.modTeam n f).issue = s.issue := rfl
@[simp] theorem State.modTeam_cur (s : State) (n : Nat) (f : Team → Team) : (s.modTeam n f).cur = s.cur := rfl
@[simp] theorem State.modTeam_tick (s : State) (n : Nat) (f : Team → Team) : (s.modTeam n f).tick = s.tick := rfl

/-! modBody changes only: teams. -/

@[simp] theorem State.modBody_cycle (s : State) (n : Nat) (f : TeamBody → TeamBody) : (s.modBody n f).cycle = s.cycle := rfl
@[simp] theorem State.modBody_stamps (s : State) (n : Nat) (f : TeamBody → TeamBody) : (s.modBody n f).stamps = s.stamps := rfl
@[simp] theorem State.modBody_ctl (s : State) (n : Nat) (f : TeamBody → TeamBody) : (s.modBody n f).ctl = s.ctl := rfl
@[simp] theorem State.modBody_hbm (s : State) (n : Nat) (f : TeamBody → TeamBody) : (s.modBody n f).hbm = s.hbm := rfl
@[simp] theorem State.modBody_frames (s : State) (n : Nat) (f : TeamBody → TeamBody) : (s.modBody n f).frames = s.frames := rfl
@[simp] theorem State.modBody_scores (s : State) (n : Nat) (f : TeamBody → TeamBody) : (s.modBody n f).scores = s.scores := rfl
@[simp] theorem State.modBody_vlines (s : State) (n : Nat) (f : TeamBody → TeamBody) : (s.modBody n f).vlines = s.vlines := rfl
@[simp] theorem State.modBody_fillq (s : State) (n : Nat) (f : TeamBody → TeamBody) : (s.modBody n f).fillq = s.fillq := rfl
@[simp] theorem State.modBody_serials (s : State) (n : Nat) (f : TeamBody → TeamBody) : (s.modBody n f).serials = s.serials := rfl
@[simp] theorem State.modBody_copies (s : State) (n : Nat) (f : TeamBody → TeamBody) : (s.modBody n f).copies = s.copies := rfl
@[simp] theorem State.modBody_dies (s : State) (n : Nat) (f : TeamBody → TeamBody) : (s.modBody n f).dies = s.dies := rfl
@[simp] theorem State.modBody_cores (s : State) (n : Nat) (f : TeamBody → TeamBody) : (s.modBody n f).cores = s.cores := rfl
@[simp] theorem State.modBody_nteam (s : State) (n : Nat) (f : TeamBody → TeamBody) : (s.modBody n f).nteam = s.nteam := rfl
@[simp] theorem State.modBody_nline (s : State) (n : Nat) (f : TeamBody → TeamBody) : (s.modBody n f).nline = s.nline := rfl
@[simp] theorem State.modBody_grids (s : State) (n : Nat) (f : TeamBody → TeamBody) : (s.modBody n f).grids = s.grids := rfl
@[simp] theorem State.modBody_ngrid (s : State) (n : Nat) (f : TeamBody → TeamBody) : (s.modBody n f).ngrid = s.ngrid := rfl
@[simp] theorem State.modBody_nrel (s : State) (n : Nat) (f : TeamBody → TeamBody) : (s.modBody n f).nrel = s.nrel := rfl
@[simp] theorem State.modBody_graphs (s : State) (n : Nat) (f : TeamBody → TeamBody) : (s.modBody n f).graphs = s.graphs := rfl
@[simp] theorem State.modBody_saved (s : State) (n : Nat) (f : TeamBody → TeamBody) : (s.modBody n f).saved = s.saved := rfl
@[simp] theorem State.modBody_posts (s : State) (n : Nat) (f : TeamBody → TeamBody) : (s.modBody n f).posts = s.posts := rfl
@[simp] theorem State.modBody_shoots (s : State) (n : Nat) (f : TeamBody → TeamBody) : (s.modBody n f).shoots = s.shoots := rfl
@[simp] theorem State.modBody_nshoot (s : State) (n : Nat) (f : TeamBody → TeamBody) : (s.modBody n f).nshoot = s.nshoot := rfl
@[simp] theorem State.modBody_staging (s : State) (n : Nat) (f : TeamBody → TeamBody) : (s.modBody n f).staging = s.staging := rfl
@[simp] theorem State.modBody_shellLog (s : State) (n : Nat) (f : TeamBody → TeamBody) : (s.modBody n f).shellLog = s.shellLog := rfl
@[simp] theorem State.modBody_logq (s : State) (n : Nat) (f : TeamBody → TeamBody) : (s.modBody n f).logq = s.logq := rfl
@[simp] theorem State.modBody_answers (s : State) (n : Nat) (f : TeamBody → TeamBody) : (s.modBody n f).answers = s.answers := rfl
@[simp] theorem State.modBody_irqs (s : State) (n : Nat) (f : TeamBody → TeamBody) : (s.modBody n f).irqs = s.irqs := rfl
@[simp] theorem State.modBody_sent (s : State) (n : Nat) (f : TeamBody → TeamBody) : (s.modBody n f).sent = s.sent := rfl
@[simp] theorem State.modBody_flits (s : State) (n : Nat) (f : TeamBody → TeamBody) : (s.modBody n f).flits = s.flits := rfl
@[simp] theorem State.modBody_down (s : State) (n : Nat) (f : TeamBody → TeamBody) : (s.modBody n f).down = s.down := rfl
@[simp] theorem State.modBody_exch (s : State) (n : Nat) (f : TeamBody → TeamBody) : (s.modBody n f).exch = s.exch := rfl
@[simp] theorem State.modBody_ncmd (s : State) (n : Nat) (f : TeamBody → TeamBody) : (s.modBody n f).ncmd = s.ncmd := rfl
@[simp] theorem State.modBody_nv (s : State) (n : Nat) (f : TeamBody → TeamBody) : (s.modBody n f).nv = s.nv := rfl
@[simp] theorem State.modBody_resets (s : State) (n : Nat) (f : TeamBody → TeamBody) : (s.modBody n f).resets = s.resets := rfl
@[simp] theorem State.modBody_report (s : State) (n : Nat) (f : TeamBody → TeamBody) : (s.modBody n f).report = s.report := rfl
@[simp] theorem State.modBody_thermtrip (s : State) (n : Nat) (f : TeamBody → TeamBody) : (s.modBody n f).thermtrip = s.thermtrip := rfl
@[simp] theorem State.modBody_agenda (s : State) (n : Nat) (f : TeamBody → TeamBody) : (s.modBody n f).agenda = s.agenda := rfl
@[simp] theorem State.modBody_issue (s : State) (n : Nat) (f : TeamBody → TeamBody) : (s.modBody n f).issue = s.issue := rfl
@[simp] theorem State.modBody_cur (s : State) (n : Nat) (f : TeamBody → TeamBody) : (s.modBody n f).cur = s.cur := rfl
@[simp] theorem State.modBody_tick (s : State) (n : Nat) (f : TeamBody → TeamBody) : (s.modBody n f).tick = s.tick := rfl

/-! modSquad changes only: teams. -/

@[simp] theorem State.modSquad_cycle (s : State) (n q : Nat) (f : Squad → Squad) : (s.modSquad n q f).cycle = s.cycle := rfl
@[simp] theorem State.modSquad_stamps (s : State) (n q : Nat) (f : Squad → Squad) : (s.modSquad n q f).stamps = s.stamps := rfl
@[simp] theorem State.modSquad_ctl (s : State) (n q : Nat) (f : Squad → Squad) : (s.modSquad n q f).ctl = s.ctl := rfl
@[simp] theorem State.modSquad_hbm (s : State) (n q : Nat) (f : Squad → Squad) : (s.modSquad n q f).hbm = s.hbm := rfl
@[simp] theorem State.modSquad_frames (s : State) (n q : Nat) (f : Squad → Squad) : (s.modSquad n q f).frames = s.frames := rfl
@[simp] theorem State.modSquad_scores (s : State) (n q : Nat) (f : Squad → Squad) : (s.modSquad n q f).scores = s.scores := rfl
@[simp] theorem State.modSquad_vlines (s : State) (n q : Nat) (f : Squad → Squad) : (s.modSquad n q f).vlines = s.vlines := rfl
@[simp] theorem State.modSquad_fillq (s : State) (n q : Nat) (f : Squad → Squad) : (s.modSquad n q f).fillq = s.fillq := rfl
@[simp] theorem State.modSquad_serials (s : State) (n q : Nat) (f : Squad → Squad) : (s.modSquad n q f).serials = s.serials := rfl
@[simp] theorem State.modSquad_copies (s : State) (n q : Nat) (f : Squad → Squad) : (s.modSquad n q f).copies = s.copies := rfl
@[simp] theorem State.modSquad_dies (s : State) (n q : Nat) (f : Squad → Squad) : (s.modSquad n q f).dies = s.dies := rfl
@[simp] theorem State.modSquad_cores (s : State) (n q : Nat) (f : Squad → Squad) : (s.modSquad n q f).cores = s.cores := rfl
@[simp] theorem State.modSquad_nteam (s : State) (n q : Nat) (f : Squad → Squad) : (s.modSquad n q f).nteam = s.nteam := rfl
@[simp] theorem State.modSquad_nline (s : State) (n q : Nat) (f : Squad → Squad) : (s.modSquad n q f).nline = s.nline := rfl
@[simp] theorem State.modSquad_grids (s : State) (n q : Nat) (f : Squad → Squad) : (s.modSquad n q f).grids = s.grids := rfl
@[simp] theorem State.modSquad_ngrid (s : State) (n q : Nat) (f : Squad → Squad) : (s.modSquad n q f).ngrid = s.ngrid := rfl
@[simp] theorem State.modSquad_nrel (s : State) (n q : Nat) (f : Squad → Squad) : (s.modSquad n q f).nrel = s.nrel := rfl
@[simp] theorem State.modSquad_graphs (s : State) (n q : Nat) (f : Squad → Squad) : (s.modSquad n q f).graphs = s.graphs := rfl
@[simp] theorem State.modSquad_saved (s : State) (n q : Nat) (f : Squad → Squad) : (s.modSquad n q f).saved = s.saved := rfl
@[simp] theorem State.modSquad_posts (s : State) (n q : Nat) (f : Squad → Squad) : (s.modSquad n q f).posts = s.posts := rfl
@[simp] theorem State.modSquad_shoots (s : State) (n q : Nat) (f : Squad → Squad) : (s.modSquad n q f).shoots = s.shoots := rfl
@[simp] theorem State.modSquad_nshoot (s : State) (n q : Nat) (f : Squad → Squad) : (s.modSquad n q f).nshoot = s.nshoot := rfl
@[simp] theorem State.modSquad_staging (s : State) (n q : Nat) (f : Squad → Squad) : (s.modSquad n q f).staging = s.staging := rfl
@[simp] theorem State.modSquad_shellLog (s : State) (n q : Nat) (f : Squad → Squad) : (s.modSquad n q f).shellLog = s.shellLog := rfl
@[simp] theorem State.modSquad_logq (s : State) (n q : Nat) (f : Squad → Squad) : (s.modSquad n q f).logq = s.logq := rfl
@[simp] theorem State.modSquad_answers (s : State) (n q : Nat) (f : Squad → Squad) : (s.modSquad n q f).answers = s.answers := rfl
@[simp] theorem State.modSquad_irqs (s : State) (n q : Nat) (f : Squad → Squad) : (s.modSquad n q f).irqs = s.irqs := rfl
@[simp] theorem State.modSquad_sent (s : State) (n q : Nat) (f : Squad → Squad) : (s.modSquad n q f).sent = s.sent := rfl
@[simp] theorem State.modSquad_flits (s : State) (n q : Nat) (f : Squad → Squad) : (s.modSquad n q f).flits = s.flits := rfl
@[simp] theorem State.modSquad_down (s : State) (n q : Nat) (f : Squad → Squad) : (s.modSquad n q f).down = s.down := rfl
@[simp] theorem State.modSquad_exch (s : State) (n q : Nat) (f : Squad → Squad) : (s.modSquad n q f).exch = s.exch := rfl
@[simp] theorem State.modSquad_ncmd (s : State) (n q : Nat) (f : Squad → Squad) : (s.modSquad n q f).ncmd = s.ncmd := rfl
@[simp] theorem State.modSquad_nv (s : State) (n q : Nat) (f : Squad → Squad) : (s.modSquad n q f).nv = s.nv := rfl
@[simp] theorem State.modSquad_resets (s : State) (n q : Nat) (f : Squad → Squad) : (s.modSquad n q f).resets = s.resets := rfl
@[simp] theorem State.modSquad_report (s : State) (n q : Nat) (f : Squad → Squad) : (s.modSquad n q f).report = s.report := rfl
@[simp] theorem State.modSquad_thermtrip (s : State) (n q : Nat) (f : Squad → Squad) : (s.modSquad n q f).thermtrip = s.thermtrip := rfl
@[simp] theorem State.modSquad_agenda (s : State) (n q : Nat) (f : Squad → Squad) : (s.modSquad n q f).agenda = s.agenda := rfl
@[simp] theorem State.modSquad_issue (s : State) (n q : Nat) (f : Squad → Squad) : (s.modSquad n q f).issue = s.issue := rfl
@[simp] theorem State.modSquad_cur (s : State) (n q : Nat) (f : Squad → Squad) : (s.modSquad n q f).cur = s.cur := rfl
@[simp] theorem State.modSquad_tick (s : State) (n q : Nat) (f : Squad → Squad) : (s.modSquad n q f).tick = s.tick := rfl

/-! modThread changes only: teams. -/

@[simp] theorem State.modThread_cycle (s : State) (r : TRef) (f : Thread → Thread) : (s.modThread r f).cycle = s.cycle := rfl
@[simp] theorem State.modThread_stamps (s : State) (r : TRef) (f : Thread → Thread) : (s.modThread r f).stamps = s.stamps := rfl
@[simp] theorem State.modThread_ctl (s : State) (r : TRef) (f : Thread → Thread) : (s.modThread r f).ctl = s.ctl := rfl
@[simp] theorem State.modThread_hbm (s : State) (r : TRef) (f : Thread → Thread) : (s.modThread r f).hbm = s.hbm := rfl
@[simp] theorem State.modThread_frames (s : State) (r : TRef) (f : Thread → Thread) : (s.modThread r f).frames = s.frames := rfl
@[simp] theorem State.modThread_scores (s : State) (r : TRef) (f : Thread → Thread) : (s.modThread r f).scores = s.scores := rfl
@[simp] theorem State.modThread_vlines (s : State) (r : TRef) (f : Thread → Thread) : (s.modThread r f).vlines = s.vlines := rfl
@[simp] theorem State.modThread_fillq (s : State) (r : TRef) (f : Thread → Thread) : (s.modThread r f).fillq = s.fillq := rfl
@[simp] theorem State.modThread_serials (s : State) (r : TRef) (f : Thread → Thread) : (s.modThread r f).serials = s.serials := rfl
@[simp] theorem State.modThread_copies (s : State) (r : TRef) (f : Thread → Thread) : (s.modThread r f).copies = s.copies := rfl
@[simp] theorem State.modThread_dies (s : State) (r : TRef) (f : Thread → Thread) : (s.modThread r f).dies = s.dies := rfl
@[simp] theorem State.modThread_cores (s : State) (r : TRef) (f : Thread → Thread) : (s.modThread r f).cores = s.cores := rfl
@[simp] theorem State.modThread_nteam (s : State) (r : TRef) (f : Thread → Thread) : (s.modThread r f).nteam = s.nteam := rfl
@[simp] theorem State.modThread_nline (s : State) (r : TRef) (f : Thread → Thread) : (s.modThread r f).nline = s.nline := rfl
@[simp] theorem State.modThread_grids (s : State) (r : TRef) (f : Thread → Thread) : (s.modThread r f).grids = s.grids := rfl
@[simp] theorem State.modThread_ngrid (s : State) (r : TRef) (f : Thread → Thread) : (s.modThread r f).ngrid = s.ngrid := rfl
@[simp] theorem State.modThread_nrel (s : State) (r : TRef) (f : Thread → Thread) : (s.modThread r f).nrel = s.nrel := rfl
@[simp] theorem State.modThread_graphs (s : State) (r : TRef) (f : Thread → Thread) : (s.modThread r f).graphs = s.graphs := rfl
@[simp] theorem State.modThread_saved (s : State) (r : TRef) (f : Thread → Thread) : (s.modThread r f).saved = s.saved := rfl
@[simp] theorem State.modThread_posts (s : State) (r : TRef) (f : Thread → Thread) : (s.modThread r f).posts = s.posts := rfl
@[simp] theorem State.modThread_shoots (s : State) (r : TRef) (f : Thread → Thread) : (s.modThread r f).shoots = s.shoots := rfl
@[simp] theorem State.modThread_nshoot (s : State) (r : TRef) (f : Thread → Thread) : (s.modThread r f).nshoot = s.nshoot := rfl
@[simp] theorem State.modThread_staging (s : State) (r : TRef) (f : Thread → Thread) : (s.modThread r f).staging = s.staging := rfl
@[simp] theorem State.modThread_shellLog (s : State) (r : TRef) (f : Thread → Thread) : (s.modThread r f).shellLog = s.shellLog := rfl
@[simp] theorem State.modThread_logq (s : State) (r : TRef) (f : Thread → Thread) : (s.modThread r f).logq = s.logq := rfl
@[simp] theorem State.modThread_answers (s : State) (r : TRef) (f : Thread → Thread) : (s.modThread r f).answers = s.answers := rfl
@[simp] theorem State.modThread_irqs (s : State) (r : TRef) (f : Thread → Thread) : (s.modThread r f).irqs = s.irqs := rfl
@[simp] theorem State.modThread_sent (s : State) (r : TRef) (f : Thread → Thread) : (s.modThread r f).sent = s.sent := rfl
@[simp] theorem State.modThread_flits (s : State) (r : TRef) (f : Thread → Thread) : (s.modThread r f).flits = s.flits := rfl
@[simp] theorem State.modThread_down (s : State) (r : TRef) (f : Thread → Thread) : (s.modThread r f).down = s.down := rfl
@[simp] theorem State.modThread_exch (s : State) (r : TRef) (f : Thread → Thread) : (s.modThread r f).exch = s.exch := rfl
@[simp] theorem State.modThread_ncmd (s : State) (r : TRef) (f : Thread → Thread) : (s.modThread r f).ncmd = s.ncmd := rfl
@[simp] theorem State.modThread_nv (s : State) (r : TRef) (f : Thread → Thread) : (s.modThread r f).nv = s.nv := rfl
@[simp] theorem State.modThread_resets (s : State) (r : TRef) (f : Thread → Thread) : (s.modThread r f).resets = s.resets := rfl
@[simp] theorem State.modThread_report (s : State) (r : TRef) (f : Thread → Thread) : (s.modThread r f).report = s.report := rfl
@[simp] theorem State.modThread_thermtrip (s : State) (r : TRef) (f : Thread → Thread) : (s.modThread r f).thermtrip = s.thermtrip := rfl
@[simp] theorem State.modThread_agenda (s : State) (r : TRef) (f : Thread → Thread) : (s.modThread r f).agenda = s.agenda := rfl
@[simp] theorem State.modThread_issue (s : State) (r : TRef) (f : Thread → Thread) : (s.modThread r f).issue = s.issue := rfl
@[simp] theorem State.modThread_cur (s : State) (r : TRef) (f : Thread → Thread) : (s.modThread r f).cur = s.cur := rfl
@[simp] theorem State.modThread_tick (s : State) (r : TRef) (f : Thread → Thread) : (s.modThread r f).tick = s.tick := rfl

/-! modGrid changes only: grids. -/

@[simp] theorem State.modGrid_cycle (s : State) (n : Nat) (f : Grid → Grid) : (s.modGrid n f).cycle = s.cycle := rfl
@[simp] theorem State.modGrid_stamps (s : State) (n : Nat) (f : Grid → Grid) : (s.modGrid n f).stamps = s.stamps := rfl
@[simp] theorem State.modGrid_ctl (s : State) (n : Nat) (f : Grid → Grid) : (s.modGrid n f).ctl = s.ctl := rfl
@[simp] theorem State.modGrid_hbm (s : State) (n : Nat) (f : Grid → Grid) : (s.modGrid n f).hbm = s.hbm := rfl
@[simp] theorem State.modGrid_frames (s : State) (n : Nat) (f : Grid → Grid) : (s.modGrid n f).frames = s.frames := rfl
@[simp] theorem State.modGrid_scores (s : State) (n : Nat) (f : Grid → Grid) : (s.modGrid n f).scores = s.scores := rfl
@[simp] theorem State.modGrid_vlines (s : State) (n : Nat) (f : Grid → Grid) : (s.modGrid n f).vlines = s.vlines := rfl
@[simp] theorem State.modGrid_fillq (s : State) (n : Nat) (f : Grid → Grid) : (s.modGrid n f).fillq = s.fillq := rfl
@[simp] theorem State.modGrid_serials (s : State) (n : Nat) (f : Grid → Grid) : (s.modGrid n f).serials = s.serials := rfl
@[simp] theorem State.modGrid_copies (s : State) (n : Nat) (f : Grid → Grid) : (s.modGrid n f).copies = s.copies := rfl
@[simp] theorem State.modGrid_dies (s : State) (n : Nat) (f : Grid → Grid) : (s.modGrid n f).dies = s.dies := rfl
@[simp] theorem State.modGrid_cores (s : State) (n : Nat) (f : Grid → Grid) : (s.modGrid n f).cores = s.cores := rfl
@[simp] theorem State.modGrid_teams (s : State) (n : Nat) (f : Grid → Grid) : (s.modGrid n f).teams = s.teams := rfl
@[simp] theorem State.modGrid_nteam (s : State) (n : Nat) (f : Grid → Grid) : (s.modGrid n f).nteam = s.nteam := rfl
@[simp] theorem State.modGrid_nline (s : State) (n : Nat) (f : Grid → Grid) : (s.modGrid n f).nline = s.nline := rfl
@[simp] theorem State.modGrid_ngrid (s : State) (n : Nat) (f : Grid → Grid) : (s.modGrid n f).ngrid = s.ngrid := rfl
@[simp] theorem State.modGrid_nrel (s : State) (n : Nat) (f : Grid → Grid) : (s.modGrid n f).nrel = s.nrel := rfl
@[simp] theorem State.modGrid_graphs (s : State) (n : Nat) (f : Grid → Grid) : (s.modGrid n f).graphs = s.graphs := rfl
@[simp] theorem State.modGrid_saved (s : State) (n : Nat) (f : Grid → Grid) : (s.modGrid n f).saved = s.saved := rfl
@[simp] theorem State.modGrid_posts (s : State) (n : Nat) (f : Grid → Grid) : (s.modGrid n f).posts = s.posts := rfl
@[simp] theorem State.modGrid_shoots (s : State) (n : Nat) (f : Grid → Grid) : (s.modGrid n f).shoots = s.shoots := rfl
@[simp] theorem State.modGrid_nshoot (s : State) (n : Nat) (f : Grid → Grid) : (s.modGrid n f).nshoot = s.nshoot := rfl
@[simp] theorem State.modGrid_staging (s : State) (n : Nat) (f : Grid → Grid) : (s.modGrid n f).staging = s.staging := rfl
@[simp] theorem State.modGrid_shellLog (s : State) (n : Nat) (f : Grid → Grid) : (s.modGrid n f).shellLog = s.shellLog := rfl
@[simp] theorem State.modGrid_logq (s : State) (n : Nat) (f : Grid → Grid) : (s.modGrid n f).logq = s.logq := rfl
@[simp] theorem State.modGrid_answers (s : State) (n : Nat) (f : Grid → Grid) : (s.modGrid n f).answers = s.answers := rfl
@[simp] theorem State.modGrid_irqs (s : State) (n : Nat) (f : Grid → Grid) : (s.modGrid n f).irqs = s.irqs := rfl
@[simp] theorem State.modGrid_sent (s : State) (n : Nat) (f : Grid → Grid) : (s.modGrid n f).sent = s.sent := rfl
@[simp] theorem State.modGrid_flits (s : State) (n : Nat) (f : Grid → Grid) : (s.modGrid n f).flits = s.flits := rfl
@[simp] theorem State.modGrid_down (s : State) (n : Nat) (f : Grid → Grid) : (s.modGrid n f).down = s.down := rfl
@[simp] theorem State.modGrid_exch (s : State) (n : Nat) (f : Grid → Grid) : (s.modGrid n f).exch = s.exch := rfl
@[simp] theorem State.modGrid_ncmd (s : State) (n : Nat) (f : Grid → Grid) : (s.modGrid n f).ncmd = s.ncmd := rfl
@[simp] theorem State.modGrid_nv (s : State) (n : Nat) (f : Grid → Grid) : (s.modGrid n f).nv = s.nv := rfl
@[simp] theorem State.modGrid_resets (s : State) (n : Nat) (f : Grid → Grid) : (s.modGrid n f).resets = s.resets := rfl
@[simp] theorem State.modGrid_report (s : State) (n : Nat) (f : Grid → Grid) : (s.modGrid n f).report = s.report := rfl
@[simp] theorem State.modGrid_thermtrip (s : State) (n : Nat) (f : Grid → Grid) : (s.modGrid n f).thermtrip = s.thermtrip := rfl
@[simp] theorem State.modGrid_agenda (s : State) (n : Nat) (f : Grid → Grid) : (s.modGrid n f).agenda = s.agenda := rfl
@[simp] theorem State.modGrid_issue (s : State) (n : Nat) (f : Grid → Grid) : (s.modGrid n f).issue = s.issue := rfl
@[simp] theorem State.modGrid_cur (s : State) (n : Nat) (f : Grid → Grid) : (s.modGrid n f).cur = s.cur := rfl
@[simp] theorem State.modGrid_tick (s : State) (n : Nat) (f : Grid → Grid) : (s.modGrid n f).tick = s.tick := rfl

/-! modCore changes only: cores. -/

@[simp] theorem State.modCore_cycle (s : State) (n : Nat) (f : Core → Core) : (s.modCore n f).cycle = s.cycle := rfl
@[simp] theorem State.modCore_stamps (s : State) (n : Nat) (f : Core → Core) : (s.modCore n f).stamps = s.stamps := rfl
@[simp] theorem State.modCore_ctl (s : State) (n : Nat) (f : Core → Core) : (s.modCore n f).ctl = s.ctl := rfl
@[simp] theorem State.modCore_hbm (s : State) (n : Nat) (f : Core → Core) : (s.modCore n f).hbm = s.hbm := rfl
@[simp] theorem State.modCore_frames (s : State) (n : Nat) (f : Core → Core) : (s.modCore n f).frames = s.frames := rfl
@[simp] theorem State.modCore_scores (s : State) (n : Nat) (f : Core → Core) : (s.modCore n f).scores = s.scores := rfl
@[simp] theorem State.modCore_vlines (s : State) (n : Nat) (f : Core → Core) : (s.modCore n f).vlines = s.vlines := rfl
@[simp] theorem State.modCore_fillq (s : State) (n : Nat) (f : Core → Core) : (s.modCore n f).fillq = s.fillq := rfl
@[simp] theorem State.modCore_serials (s : State) (n : Nat) (f : Core → Core) : (s.modCore n f).serials = s.serials := rfl
@[simp] theorem State.modCore_copies (s : State) (n : Nat) (f : Core → Core) : (s.modCore n f).copies = s.copies := rfl
@[simp] theorem State.modCore_dies (s : State) (n : Nat) (f : Core → Core) : (s.modCore n f).dies = s.dies := rfl
@[simp] theorem State.modCore_teams (s : State) (n : Nat) (f : Core → Core) : (s.modCore n f).teams = s.teams := rfl
@[simp] theorem State.modCore_nteam (s : State) (n : Nat) (f : Core → Core) : (s.modCore n f).nteam = s.nteam := rfl
@[simp] theorem State.modCore_nline (s : State) (n : Nat) (f : Core → Core) : (s.modCore n f).nline = s.nline := rfl
@[simp] theorem State.modCore_grids (s : State) (n : Nat) (f : Core → Core) : (s.modCore n f).grids = s.grids := rfl
@[simp] theorem State.modCore_ngrid (s : State) (n : Nat) (f : Core → Core) : (s.modCore n f).ngrid = s.ngrid := rfl
@[simp] theorem State.modCore_nrel (s : State) (n : Nat) (f : Core → Core) : (s.modCore n f).nrel = s.nrel := rfl
@[simp] theorem State.modCore_graphs (s : State) (n : Nat) (f : Core → Core) : (s.modCore n f).graphs = s.graphs := rfl
@[simp] theorem State.modCore_saved (s : State) (n : Nat) (f : Core → Core) : (s.modCore n f).saved = s.saved := rfl
@[simp] theorem State.modCore_posts (s : State) (n : Nat) (f : Core → Core) : (s.modCore n f).posts = s.posts := rfl
@[simp] theorem State.modCore_shoots (s : State) (n : Nat) (f : Core → Core) : (s.modCore n f).shoots = s.shoots := rfl
@[simp] theorem State.modCore_nshoot (s : State) (n : Nat) (f : Core → Core) : (s.modCore n f).nshoot = s.nshoot := rfl
@[simp] theorem State.modCore_staging (s : State) (n : Nat) (f : Core → Core) : (s.modCore n f).staging = s.staging := rfl
@[simp] theorem State.modCore_shellLog (s : State) (n : Nat) (f : Core → Core) : (s.modCore n f).shellLog = s.shellLog := rfl
@[simp] theorem State.modCore_logq (s : State) (n : Nat) (f : Core → Core) : (s.modCore n f).logq = s.logq := rfl
@[simp] theorem State.modCore_answers (s : State) (n : Nat) (f : Core → Core) : (s.modCore n f).answers = s.answers := rfl
@[simp] theorem State.modCore_irqs (s : State) (n : Nat) (f : Core → Core) : (s.modCore n f).irqs = s.irqs := rfl
@[simp] theorem State.modCore_sent (s : State) (n : Nat) (f : Core → Core) : (s.modCore n f).sent = s.sent := rfl
@[simp] theorem State.modCore_flits (s : State) (n : Nat) (f : Core → Core) : (s.modCore n f).flits = s.flits := rfl
@[simp] theorem State.modCore_down (s : State) (n : Nat) (f : Core → Core) : (s.modCore n f).down = s.down := rfl
@[simp] theorem State.modCore_exch (s : State) (n : Nat) (f : Core → Core) : (s.modCore n f).exch = s.exch := rfl
@[simp] theorem State.modCore_ncmd (s : State) (n : Nat) (f : Core → Core) : (s.modCore n f).ncmd = s.ncmd := rfl
@[simp] theorem State.modCore_nv (s : State) (n : Nat) (f : Core → Core) : (s.modCore n f).nv = s.nv := rfl
@[simp] theorem State.modCore_resets (s : State) (n : Nat) (f : Core → Core) : (s.modCore n f).resets = s.resets := rfl
@[simp] theorem State.modCore_report (s : State) (n : Nat) (f : Core → Core) : (s.modCore n f).report = s.report := rfl
@[simp] theorem State.modCore_thermtrip (s : State) (n : Nat) (f : Core → Core) : (s.modCore n f).thermtrip = s.thermtrip := rfl
@[simp] theorem State.modCore_agenda (s : State) (n : Nat) (f : Core → Core) : (s.modCore n f).agenda = s.agenda := rfl
@[simp] theorem State.modCore_issue (s : State) (n : Nat) (f : Core → Core) : (s.modCore n f).issue = s.issue := rfl
@[simp] theorem State.modCore_cur (s : State) (n : Nat) (f : Core → Core) : (s.modCore n f).cur = s.cur := rfl
@[simp] theorem State.modCore_tick (s : State) (n : Nat) (f : Core → Core) : (s.modCore n f).tick = s.tick := rfl

/-! modDie changes only: dies. -/

@[simp] theorem State.modDie_cycle (s : State) (n : Nat) (f : Die → Die) : (s.modDie n f).cycle = s.cycle := rfl
@[simp] theorem State.modDie_stamps (s : State) (n : Nat) (f : Die → Die) : (s.modDie n f).stamps = s.stamps := rfl
@[simp] theorem State.modDie_ctl (s : State) (n : Nat) (f : Die → Die) : (s.modDie n f).ctl = s.ctl := rfl
@[simp] theorem State.modDie_hbm (s : State) (n : Nat) (f : Die → Die) : (s.modDie n f).hbm = s.hbm := rfl
@[simp] theorem State.modDie_frames (s : State) (n : Nat) (f : Die → Die) : (s.modDie n f).frames = s.frames := rfl
@[simp] theorem State.modDie_scores (s : State) (n : Nat) (f : Die → Die) : (s.modDie n f).scores = s.scores := rfl
@[simp] theorem State.modDie_vlines (s : State) (n : Nat) (f : Die → Die) : (s.modDie n f).vlines = s.vlines := rfl
@[simp] theorem State.modDie_fillq (s : State) (n : Nat) (f : Die → Die) : (s.modDie n f).fillq = s.fillq := rfl
@[simp] theorem State.modDie_serials (s : State) (n : Nat) (f : Die → Die) : (s.modDie n f).serials = s.serials := rfl
@[simp] theorem State.modDie_copies (s : State) (n : Nat) (f : Die → Die) : (s.modDie n f).copies = s.copies := rfl
@[simp] theorem State.modDie_cores (s : State) (n : Nat) (f : Die → Die) : (s.modDie n f).cores = s.cores := rfl
@[simp] theorem State.modDie_teams (s : State) (n : Nat) (f : Die → Die) : (s.modDie n f).teams = s.teams := rfl
@[simp] theorem State.modDie_nteam (s : State) (n : Nat) (f : Die → Die) : (s.modDie n f).nteam = s.nteam := rfl
@[simp] theorem State.modDie_nline (s : State) (n : Nat) (f : Die → Die) : (s.modDie n f).nline = s.nline := rfl
@[simp] theorem State.modDie_grids (s : State) (n : Nat) (f : Die → Die) : (s.modDie n f).grids = s.grids := rfl
@[simp] theorem State.modDie_ngrid (s : State) (n : Nat) (f : Die → Die) : (s.modDie n f).ngrid = s.ngrid := rfl
@[simp] theorem State.modDie_nrel (s : State) (n : Nat) (f : Die → Die) : (s.modDie n f).nrel = s.nrel := rfl
@[simp] theorem State.modDie_graphs (s : State) (n : Nat) (f : Die → Die) : (s.modDie n f).graphs = s.graphs := rfl
@[simp] theorem State.modDie_saved (s : State) (n : Nat) (f : Die → Die) : (s.modDie n f).saved = s.saved := rfl
@[simp] theorem State.modDie_posts (s : State) (n : Nat) (f : Die → Die) : (s.modDie n f).posts = s.posts := rfl
@[simp] theorem State.modDie_shoots (s : State) (n : Nat) (f : Die → Die) : (s.modDie n f).shoots = s.shoots := rfl
@[simp] theorem State.modDie_nshoot (s : State) (n : Nat) (f : Die → Die) : (s.modDie n f).nshoot = s.nshoot := rfl
@[simp] theorem State.modDie_staging (s : State) (n : Nat) (f : Die → Die) : (s.modDie n f).staging = s.staging := rfl
@[simp] theorem State.modDie_shellLog (s : State) (n : Nat) (f : Die → Die) : (s.modDie n f).shellLog = s.shellLog := rfl
@[simp] theorem State.modDie_logq (s : State) (n : Nat) (f : Die → Die) : (s.modDie n f).logq = s.logq := rfl
@[simp] theorem State.modDie_answers (s : State) (n : Nat) (f : Die → Die) : (s.modDie n f).answers = s.answers := rfl
@[simp] theorem State.modDie_irqs (s : State) (n : Nat) (f : Die → Die) : (s.modDie n f).irqs = s.irqs := rfl
@[simp] theorem State.modDie_sent (s : State) (n : Nat) (f : Die → Die) : (s.modDie n f).sent = s.sent := rfl
@[simp] theorem State.modDie_flits (s : State) (n : Nat) (f : Die → Die) : (s.modDie n f).flits = s.flits := rfl
@[simp] theorem State.modDie_down (s : State) (n : Nat) (f : Die → Die) : (s.modDie n f).down = s.down := rfl
@[simp] theorem State.modDie_exch (s : State) (n : Nat) (f : Die → Die) : (s.modDie n f).exch = s.exch := rfl
@[simp] theorem State.modDie_ncmd (s : State) (n : Nat) (f : Die → Die) : (s.modDie n f).ncmd = s.ncmd := rfl
@[simp] theorem State.modDie_nv (s : State) (n : Nat) (f : Die → Die) : (s.modDie n f).nv = s.nv := rfl
@[simp] theorem State.modDie_resets (s : State) (n : Nat) (f : Die → Die) : (s.modDie n f).resets = s.resets := rfl
@[simp] theorem State.modDie_report (s : State) (n : Nat) (f : Die → Die) : (s.modDie n f).report = s.report := rfl
@[simp] theorem State.modDie_thermtrip (s : State) (n : Nat) (f : Die → Die) : (s.modDie n f).thermtrip = s.thermtrip := rfl
@[simp] theorem State.modDie_agenda (s : State) (n : Nat) (f : Die → Die) : (s.modDie n f).agenda = s.agenda := rfl
@[simp] theorem State.modDie_issue (s : State) (n : Nat) (f : Die → Die) : (s.modDie n f).issue = s.issue := rfl
@[simp] theorem State.modDie_cur (s : State) (n : Nat) (f : Die → Die) : (s.modDie n f).cur = s.cur := rfl
@[simp] theorem State.modDie_tick (s : State) (n : Nat) (f : Die → Die) : (s.modDie n f).tick = s.tick := rfl

/-! modGraph changes only: graphs. -/

@[simp] theorem State.modGraph_cycle (s : State) (n : Nat) (f : Graph → Graph) : (s.modGraph n f).cycle = s.cycle := rfl
@[simp] theorem State.modGraph_stamps (s : State) (n : Nat) (f : Graph → Graph) : (s.modGraph n f).stamps = s.stamps := rfl
@[simp] theorem State.modGraph_ctl (s : State) (n : Nat) (f : Graph → Graph) : (s.modGraph n f).ctl = s.ctl := rfl
@[simp] theorem State.modGraph_hbm (s : State) (n : Nat) (f : Graph → Graph) : (s.modGraph n f).hbm = s.hbm := rfl
@[simp] theorem State.modGraph_frames (s : State) (n : Nat) (f : Graph → Graph) : (s.modGraph n f).frames = s.frames := rfl
@[simp] theorem State.modGraph_scores (s : State) (n : Nat) (f : Graph → Graph) : (s.modGraph n f).scores = s.scores := rfl
@[simp] theorem State.modGraph_vlines (s : State) (n : Nat) (f : Graph → Graph) : (s.modGraph n f).vlines = s.vlines := rfl
@[simp] theorem State.modGraph_fillq (s : State) (n : Nat) (f : Graph → Graph) : (s.modGraph n f).fillq = s.fillq := rfl
@[simp] theorem State.modGraph_serials (s : State) (n : Nat) (f : Graph → Graph) : (s.modGraph n f).serials = s.serials := rfl
@[simp] theorem State.modGraph_copies (s : State) (n : Nat) (f : Graph → Graph) : (s.modGraph n f).copies = s.copies := rfl
@[simp] theorem State.modGraph_dies (s : State) (n : Nat) (f : Graph → Graph) : (s.modGraph n f).dies = s.dies := rfl
@[simp] theorem State.modGraph_cores (s : State) (n : Nat) (f : Graph → Graph) : (s.modGraph n f).cores = s.cores := rfl
@[simp] theorem State.modGraph_teams (s : State) (n : Nat) (f : Graph → Graph) : (s.modGraph n f).teams = s.teams := rfl
@[simp] theorem State.modGraph_nteam (s : State) (n : Nat) (f : Graph → Graph) : (s.modGraph n f).nteam = s.nteam := rfl
@[simp] theorem State.modGraph_nline (s : State) (n : Nat) (f : Graph → Graph) : (s.modGraph n f).nline = s.nline := rfl
@[simp] theorem State.modGraph_grids (s : State) (n : Nat) (f : Graph → Graph) : (s.modGraph n f).grids = s.grids := rfl
@[simp] theorem State.modGraph_ngrid (s : State) (n : Nat) (f : Graph → Graph) : (s.modGraph n f).ngrid = s.ngrid := rfl
@[simp] theorem State.modGraph_nrel (s : State) (n : Nat) (f : Graph → Graph) : (s.modGraph n f).nrel = s.nrel := rfl
@[simp] theorem State.modGraph_saved (s : State) (n : Nat) (f : Graph → Graph) : (s.modGraph n f).saved = s.saved := rfl
@[simp] theorem State.modGraph_posts (s : State) (n : Nat) (f : Graph → Graph) : (s.modGraph n f).posts = s.posts := rfl
@[simp] theorem State.modGraph_shoots (s : State) (n : Nat) (f : Graph → Graph) : (s.modGraph n f).shoots = s.shoots := rfl
@[simp] theorem State.modGraph_nshoot (s : State) (n : Nat) (f : Graph → Graph) : (s.modGraph n f).nshoot = s.nshoot := rfl
@[simp] theorem State.modGraph_staging (s : State) (n : Nat) (f : Graph → Graph) : (s.modGraph n f).staging = s.staging := rfl
@[simp] theorem State.modGraph_shellLog (s : State) (n : Nat) (f : Graph → Graph) : (s.modGraph n f).shellLog = s.shellLog := rfl
@[simp] theorem State.modGraph_logq (s : State) (n : Nat) (f : Graph → Graph) : (s.modGraph n f).logq = s.logq := rfl
@[simp] theorem State.modGraph_answers (s : State) (n : Nat) (f : Graph → Graph) : (s.modGraph n f).answers = s.answers := rfl
@[simp] theorem State.modGraph_irqs (s : State) (n : Nat) (f : Graph → Graph) : (s.modGraph n f).irqs = s.irqs := rfl
@[simp] theorem State.modGraph_sent (s : State) (n : Nat) (f : Graph → Graph) : (s.modGraph n f).sent = s.sent := rfl
@[simp] theorem State.modGraph_flits (s : State) (n : Nat) (f : Graph → Graph) : (s.modGraph n f).flits = s.flits := rfl
@[simp] theorem State.modGraph_down (s : State) (n : Nat) (f : Graph → Graph) : (s.modGraph n f).down = s.down := rfl
@[simp] theorem State.modGraph_exch (s : State) (n : Nat) (f : Graph → Graph) : (s.modGraph n f).exch = s.exch := rfl
@[simp] theorem State.modGraph_ncmd (s : State) (n : Nat) (f : Graph → Graph) : (s.modGraph n f).ncmd = s.ncmd := rfl
@[simp] theorem State.modGraph_nv (s : State) (n : Nat) (f : Graph → Graph) : (s.modGraph n f).nv = s.nv := rfl
@[simp] theorem State.modGraph_resets (s : State) (n : Nat) (f : Graph → Graph) : (s.modGraph n f).resets = s.resets := rfl
@[simp] theorem State.modGraph_report (s : State) (n : Nat) (f : Graph → Graph) : (s.modGraph n f).report = s.report := rfl
@[simp] theorem State.modGraph_thermtrip (s : State) (n : Nat) (f : Graph → Graph) : (s.modGraph n f).thermtrip = s.thermtrip := rfl
@[simp] theorem State.modGraph_agenda (s : State) (n : Nat) (f : Graph → Graph) : (s.modGraph n f).agenda = s.agenda := rfl
@[simp] theorem State.modGraph_issue (s : State) (n : Nat) (f : Graph → Graph) : (s.modGraph n f).issue = s.issue := rfl
@[simp] theorem State.modGraph_cur (s : State) (n : Nat) (f : Graph → Graph) : (s.modGraph n f).cur = s.cur := rfl
@[simp] theorem State.modGraph_tick (s : State) (n : Nat) (f : Graph → Graph) : (s.modGraph n f).tick = s.tick := rfl

/-! putVl changes only: vlines. -/

@[simp] theorem State.putVl_cycle (s : State) (v : VLine) : (s.putVl v).cycle = s.cycle := rfl
@[simp] theorem State.putVl_stamps (s : State) (v : VLine) : (s.putVl v).stamps = s.stamps := rfl
@[simp] theorem State.putVl_ctl (s : State) (v : VLine) : (s.putVl v).ctl = s.ctl := rfl
@[simp] theorem State.putVl_hbm (s : State) (v : VLine) : (s.putVl v).hbm = s.hbm := rfl
@[simp] theorem State.putVl_frames (s : State) (v : VLine) : (s.putVl v).frames = s.frames := rfl
@[simp] theorem State.putVl_scores (s : State) (v : VLine) : (s.putVl v).scores = s.scores := rfl
@[simp] theorem State.putVl_fillq (s : State) (v : VLine) : (s.putVl v).fillq = s.fillq := rfl
@[simp] theorem State.putVl_serials (s : State) (v : VLine) : (s.putVl v).serials = s.serials := rfl
@[simp] theorem State.putVl_copies (s : State) (v : VLine) : (s.putVl v).copies = s.copies := rfl
@[simp] theorem State.putVl_dies (s : State) (v : VLine) : (s.putVl v).dies = s.dies := rfl
@[simp] theorem State.putVl_cores (s : State) (v : VLine) : (s.putVl v).cores = s.cores := rfl
@[simp] theorem State.putVl_teams (s : State) (v : VLine) : (s.putVl v).teams = s.teams := rfl
@[simp] theorem State.putVl_nteam (s : State) (v : VLine) : (s.putVl v).nteam = s.nteam := rfl
@[simp] theorem State.putVl_nline (s : State) (v : VLine) : (s.putVl v).nline = s.nline := rfl
@[simp] theorem State.putVl_grids (s : State) (v : VLine) : (s.putVl v).grids = s.grids := rfl
@[simp] theorem State.putVl_ngrid (s : State) (v : VLine) : (s.putVl v).ngrid = s.ngrid := rfl
@[simp] theorem State.putVl_nrel (s : State) (v : VLine) : (s.putVl v).nrel = s.nrel := rfl
@[simp] theorem State.putVl_graphs (s : State) (v : VLine) : (s.putVl v).graphs = s.graphs := rfl
@[simp] theorem State.putVl_saved (s : State) (v : VLine) : (s.putVl v).saved = s.saved := rfl
@[simp] theorem State.putVl_posts (s : State) (v : VLine) : (s.putVl v).posts = s.posts := rfl
@[simp] theorem State.putVl_shoots (s : State) (v : VLine) : (s.putVl v).shoots = s.shoots := rfl
@[simp] theorem State.putVl_nshoot (s : State) (v : VLine) : (s.putVl v).nshoot = s.nshoot := rfl
@[simp] theorem State.putVl_staging (s : State) (v : VLine) : (s.putVl v).staging = s.staging := rfl
@[simp] theorem State.putVl_shellLog (s : State) (v : VLine) : (s.putVl v).shellLog = s.shellLog := rfl
@[simp] theorem State.putVl_logq (s : State) (v : VLine) : (s.putVl v).logq = s.logq := rfl
@[simp] theorem State.putVl_answers (s : State) (v : VLine) : (s.putVl v).answers = s.answers := rfl
@[simp] theorem State.putVl_irqs (s : State) (v : VLine) : (s.putVl v).irqs = s.irqs := rfl
@[simp] theorem State.putVl_sent (s : State) (v : VLine) : (s.putVl v).sent = s.sent := rfl
@[simp] theorem State.putVl_flits (s : State) (v : VLine) : (s.putVl v).flits = s.flits := rfl
@[simp] theorem State.putVl_down (s : State) (v : VLine) : (s.putVl v).down = s.down := rfl
@[simp] theorem State.putVl_exch (s : State) (v : VLine) : (s.putVl v).exch = s.exch := rfl
@[simp] theorem State.putVl_ncmd (s : State) (v : VLine) : (s.putVl v).ncmd = s.ncmd := rfl
@[simp] theorem State.putVl_nv (s : State) (v : VLine) : (s.putVl v).nv = s.nv := rfl
@[simp] theorem State.putVl_resets (s : State) (v : VLine) : (s.putVl v).resets = s.resets := rfl
@[simp] theorem State.putVl_report (s : State) (v : VLine) : (s.putVl v).report = s.report := rfl
@[simp] theorem State.putVl_thermtrip (s : State) (v : VLine) : (s.putVl v).thermtrip = s.thermtrip := rfl
@[simp] theorem State.putVl_agenda (s : State) (v : VLine) : (s.putVl v).agenda = s.agenda := rfl
@[simp] theorem State.putVl_issue (s : State) (v : VLine) : (s.putVl v).issue = s.issue := rfl
@[simp] theorem State.putVl_cur (s : State) (v : VLine) : (s.putVl v).cur = s.cur := rfl
@[simp] theorem State.putVl_tick (s : State) (v : VLine) : (s.putVl v).tick = s.tick := rfl

/-! dropVl changes only: vlines. -/

@[simp] theorem State.dropVl_cycle (s : State) (x : Nat) : (s.dropVl x).cycle = s.cycle := rfl
@[simp] theorem State.dropVl_stamps (s : State) (x : Nat) : (s.dropVl x).stamps = s.stamps := rfl
@[simp] theorem State.dropVl_ctl (s : State) (x : Nat) : (s.dropVl x).ctl = s.ctl := rfl
@[simp] theorem State.dropVl_hbm (s : State) (x : Nat) : (s.dropVl x).hbm = s.hbm := rfl
@[simp] theorem State.dropVl_frames (s : State) (x : Nat) : (s.dropVl x).frames = s.frames := rfl
@[simp] theorem State.dropVl_scores (s : State) (x : Nat) : (s.dropVl x).scores = s.scores := rfl
@[simp] theorem State.dropVl_fillq (s : State) (x : Nat) : (s.dropVl x).fillq = s.fillq := rfl
@[simp] theorem State.dropVl_serials (s : State) (x : Nat) : (s.dropVl x).serials = s.serials := rfl
@[simp] theorem State.dropVl_copies (s : State) (x : Nat) : (s.dropVl x).copies = s.copies := rfl
@[simp] theorem State.dropVl_dies (s : State) (x : Nat) : (s.dropVl x).dies = s.dies := rfl
@[simp] theorem State.dropVl_cores (s : State) (x : Nat) : (s.dropVl x).cores = s.cores := rfl
@[simp] theorem State.dropVl_teams (s : State) (x : Nat) : (s.dropVl x).teams = s.teams := rfl
@[simp] theorem State.dropVl_nteam (s : State) (x : Nat) : (s.dropVl x).nteam = s.nteam := rfl
@[simp] theorem State.dropVl_nline (s : State) (x : Nat) : (s.dropVl x).nline = s.nline := rfl
@[simp] theorem State.dropVl_grids (s : State) (x : Nat) : (s.dropVl x).grids = s.grids := rfl
@[simp] theorem State.dropVl_ngrid (s : State) (x : Nat) : (s.dropVl x).ngrid = s.ngrid := rfl
@[simp] theorem State.dropVl_nrel (s : State) (x : Nat) : (s.dropVl x).nrel = s.nrel := rfl
@[simp] theorem State.dropVl_graphs (s : State) (x : Nat) : (s.dropVl x).graphs = s.graphs := rfl
@[simp] theorem State.dropVl_saved (s : State) (x : Nat) : (s.dropVl x).saved = s.saved := rfl
@[simp] theorem State.dropVl_posts (s : State) (x : Nat) : (s.dropVl x).posts = s.posts := rfl
@[simp] theorem State.dropVl_shoots (s : State) (x : Nat) : (s.dropVl x).shoots = s.shoots := rfl
@[simp] theorem State.dropVl_nshoot (s : State) (x : Nat) : (s.dropVl x).nshoot = s.nshoot := rfl
@[simp] theorem State.dropVl_staging (s : State) (x : Nat) : (s.dropVl x).staging = s.staging := rfl
@[simp] theorem State.dropVl_shellLog (s : State) (x : Nat) : (s.dropVl x).shellLog = s.shellLog := rfl
@[simp] theorem State.dropVl_logq (s : State) (x : Nat) : (s.dropVl x).logq = s.logq := rfl
@[simp] theorem State.dropVl_answers (s : State) (x : Nat) : (s.dropVl x).answers = s.answers := rfl
@[simp] theorem State.dropVl_irqs (s : State) (x : Nat) : (s.dropVl x).irqs = s.irqs := rfl
@[simp] theorem State.dropVl_sent (s : State) (x : Nat) : (s.dropVl x).sent = s.sent := rfl
@[simp] theorem State.dropVl_flits (s : State) (x : Nat) : (s.dropVl x).flits = s.flits := rfl
@[simp] theorem State.dropVl_down (s : State) (x : Nat) : (s.dropVl x).down = s.down := rfl
@[simp] theorem State.dropVl_exch (s : State) (x : Nat) : (s.dropVl x).exch = s.exch := rfl
@[simp] theorem State.dropVl_ncmd (s : State) (x : Nat) : (s.dropVl x).ncmd = s.ncmd := rfl
@[simp] theorem State.dropVl_nv (s : State) (x : Nat) : (s.dropVl x).nv = s.nv := rfl
@[simp] theorem State.dropVl_resets (s : State) (x : Nat) : (s.dropVl x).resets = s.resets := rfl
@[simp] theorem State.dropVl_report (s : State) (x : Nat) : (s.dropVl x).report = s.report := rfl
@[simp] theorem State.dropVl_thermtrip (s : State) (x : Nat) : (s.dropVl x).thermtrip = s.thermtrip := rfl
@[simp] theorem State.dropVl_agenda (s : State) (x : Nat) : (s.dropVl x).agenda = s.agenda := rfl
@[simp] theorem State.dropVl_issue (s : State) (x : Nat) : (s.dropVl x).issue = s.issue := rfl
@[simp] theorem State.dropVl_cur (s : State) (x : Nat) : (s.dropVl x).cur = s.cur := rfl
@[simp] theorem State.dropVl_tick (s : State) (x : Nat) : (s.dropVl x).tick = s.tick := rfl

/-! putCopy changes only: copies. -/

@[simp] theorem State.putCopy_cycle (s : State) (c : Copy) : (s.putCopy c).cycle = s.cycle := rfl
@[simp] theorem State.putCopy_stamps (s : State) (c : Copy) : (s.putCopy c).stamps = s.stamps := rfl
@[simp] theorem State.putCopy_ctl (s : State) (c : Copy) : (s.putCopy c).ctl = s.ctl := rfl
@[simp] theorem State.putCopy_hbm (s : State) (c : Copy) : (s.putCopy c).hbm = s.hbm := rfl
@[simp] theorem State.putCopy_frames (s : State) (c : Copy) : (s.putCopy c).frames = s.frames := rfl
@[simp] theorem State.putCopy_scores (s : State) (c : Copy) : (s.putCopy c).scores = s.scores := rfl
@[simp] theorem State.putCopy_vlines (s : State) (c : Copy) : (s.putCopy c).vlines = s.vlines := rfl
@[simp] theorem State.putCopy_fillq (s : State) (c : Copy) : (s.putCopy c).fillq = s.fillq := rfl
@[simp] theorem State.putCopy_serials (s : State) (c : Copy) : (s.putCopy c).serials = s.serials := rfl
@[simp] theorem State.putCopy_dies (s : State) (c : Copy) : (s.putCopy c).dies = s.dies := rfl
@[simp] theorem State.putCopy_cores (s : State) (c : Copy) : (s.putCopy c).cores = s.cores := rfl
@[simp] theorem State.putCopy_teams (s : State) (c : Copy) : (s.putCopy c).teams = s.teams := rfl
@[simp] theorem State.putCopy_nteam (s : State) (c : Copy) : (s.putCopy c).nteam = s.nteam := rfl
@[simp] theorem State.putCopy_nline (s : State) (c : Copy) : (s.putCopy c).nline = s.nline := rfl
@[simp] theorem State.putCopy_grids (s : State) (c : Copy) : (s.putCopy c).grids = s.grids := rfl
@[simp] theorem State.putCopy_ngrid (s : State) (c : Copy) : (s.putCopy c).ngrid = s.ngrid := rfl
@[simp] theorem State.putCopy_nrel (s : State) (c : Copy) : (s.putCopy c).nrel = s.nrel := rfl
@[simp] theorem State.putCopy_graphs (s : State) (c : Copy) : (s.putCopy c).graphs = s.graphs := rfl
@[simp] theorem State.putCopy_saved (s : State) (c : Copy) : (s.putCopy c).saved = s.saved := rfl
@[simp] theorem State.putCopy_posts (s : State) (c : Copy) : (s.putCopy c).posts = s.posts := rfl
@[simp] theorem State.putCopy_shoots (s : State) (c : Copy) : (s.putCopy c).shoots = s.shoots := rfl
@[simp] theorem State.putCopy_nshoot (s : State) (c : Copy) : (s.putCopy c).nshoot = s.nshoot := rfl
@[simp] theorem State.putCopy_staging (s : State) (c : Copy) : (s.putCopy c).staging = s.staging := rfl
@[simp] theorem State.putCopy_shellLog (s : State) (c : Copy) : (s.putCopy c).shellLog = s.shellLog := rfl
@[simp] theorem State.putCopy_logq (s : State) (c : Copy) : (s.putCopy c).logq = s.logq := rfl
@[simp] theorem State.putCopy_answers (s : State) (c : Copy) : (s.putCopy c).answers = s.answers := rfl
@[simp] theorem State.putCopy_irqs (s : State) (c : Copy) : (s.putCopy c).irqs = s.irqs := rfl
@[simp] theorem State.putCopy_sent (s : State) (c : Copy) : (s.putCopy c).sent = s.sent := rfl
@[simp] theorem State.putCopy_flits (s : State) (c : Copy) : (s.putCopy c).flits = s.flits := rfl
@[simp] theorem State.putCopy_down (s : State) (c : Copy) : (s.putCopy c).down = s.down := rfl
@[simp] theorem State.putCopy_exch (s : State) (c : Copy) : (s.putCopy c).exch = s.exch := rfl
@[simp] theorem State.putCopy_ncmd (s : State) (c : Copy) : (s.putCopy c).ncmd = s.ncmd := rfl
@[simp] theorem State.putCopy_nv (s : State) (c : Copy) : (s.putCopy c).nv = s.nv := rfl
@[simp] theorem State.putCopy_resets (s : State) (c : Copy) : (s.putCopy c).resets = s.resets := rfl
@[simp] theorem State.putCopy_report (s : State) (c : Copy) : (s.putCopy c).report = s.report := rfl
@[simp] theorem State.putCopy_thermtrip (s : State) (c : Copy) : (s.putCopy c).thermtrip = s.thermtrip := rfl
@[simp] theorem State.putCopy_agenda (s : State) (c : Copy) : (s.putCopy c).agenda = s.agenda := rfl
@[simp] theorem State.putCopy_issue (s : State) (c : Copy) : (s.putCopy c).issue = s.issue := rfl
@[simp] theorem State.putCopy_cur (s : State) (c : Copy) : (s.putCopy c).cur = s.cur := rfl
@[simp] theorem State.putCopy_tick (s : State) (c : Copy) : (s.putCopy c).tick = s.tick := rfl

/-! dropCopy changes only: copies. -/

@[simp] theorem State.dropCopy_cycle (s : State) (a x : Nat) : (s.dropCopy a x).cycle = s.cycle := rfl
@[simp] theorem State.dropCopy_stamps (s : State) (a x : Nat) : (s.dropCopy a x).stamps = s.stamps := rfl
@[simp] theorem State.dropCopy_ctl (s : State) (a x : Nat) : (s.dropCopy a x).ctl = s.ctl := rfl
@[simp] theorem State.dropCopy_hbm (s : State) (a x : Nat) : (s.dropCopy a x).hbm = s.hbm := rfl
@[simp] theorem State.dropCopy_frames (s : State) (a x : Nat) : (s.dropCopy a x).frames = s.frames := rfl
@[simp] theorem State.dropCopy_scores (s : State) (a x : Nat) : (s.dropCopy a x).scores = s.scores := rfl
@[simp] theorem State.dropCopy_vlines (s : State) (a x : Nat) : (s.dropCopy a x).vlines = s.vlines := rfl
@[simp] theorem State.dropCopy_fillq (s : State) (a x : Nat) : (s.dropCopy a x).fillq = s.fillq := rfl
@[simp] theorem State.dropCopy_serials (s : State) (a x : Nat) : (s.dropCopy a x).serials = s.serials := rfl
@[simp] theorem State.dropCopy_dies (s : State) (a x : Nat) : (s.dropCopy a x).dies = s.dies := rfl
@[simp] theorem State.dropCopy_cores (s : State) (a x : Nat) : (s.dropCopy a x).cores = s.cores := rfl
@[simp] theorem State.dropCopy_teams (s : State) (a x : Nat) : (s.dropCopy a x).teams = s.teams := rfl
@[simp] theorem State.dropCopy_nteam (s : State) (a x : Nat) : (s.dropCopy a x).nteam = s.nteam := rfl
@[simp] theorem State.dropCopy_nline (s : State) (a x : Nat) : (s.dropCopy a x).nline = s.nline := rfl
@[simp] theorem State.dropCopy_grids (s : State) (a x : Nat) : (s.dropCopy a x).grids = s.grids := rfl
@[simp] theorem State.dropCopy_ngrid (s : State) (a x : Nat) : (s.dropCopy a x).ngrid = s.ngrid := rfl
@[simp] theorem State.dropCopy_nrel (s : State) (a x : Nat) : (s.dropCopy a x).nrel = s.nrel := rfl
@[simp] theorem State.dropCopy_graphs (s : State) (a x : Nat) : (s.dropCopy a x).graphs = s.graphs := rfl
@[simp] theorem State.dropCopy_saved (s : State) (a x : Nat) : (s.dropCopy a x).saved = s.saved := rfl
@[simp] theorem State.dropCopy_posts (s : State) (a x : Nat) : (s.dropCopy a x).posts = s.posts := rfl
@[simp] theorem State.dropCopy_shoots (s : State) (a x : Nat) : (s.dropCopy a x).shoots = s.shoots := rfl
@[simp] theorem State.dropCopy_nshoot (s : State) (a x : Nat) : (s.dropCopy a x).nshoot = s.nshoot := rfl
@[simp] theorem State.dropCopy_staging (s : State) (a x : Nat) : (s.dropCopy a x).staging = s.staging := rfl
@[simp] theorem State.dropCopy_shellLog (s : State) (a x : Nat) : (s.dropCopy a x).shellLog = s.shellLog := rfl
@[simp] theorem State.dropCopy_logq (s : State) (a x : Nat) : (s.dropCopy a x).logq = s.logq := rfl
@[simp] theorem State.dropCopy_answers (s : State) (a x : Nat) : (s.dropCopy a x).answers = s.answers := rfl
@[simp] theorem State.dropCopy_irqs (s : State) (a x : Nat) : (s.dropCopy a x).irqs = s.irqs := rfl
@[simp] theorem State.dropCopy_sent (s : State) (a x : Nat) : (s.dropCopy a x).sent = s.sent := rfl
@[simp] theorem State.dropCopy_flits (s : State) (a x : Nat) : (s.dropCopy a x).flits = s.flits := rfl
@[simp] theorem State.dropCopy_down (s : State) (a x : Nat) : (s.dropCopy a x).down = s.down := rfl
@[simp] theorem State.dropCopy_exch (s : State) (a x : Nat) : (s.dropCopy a x).exch = s.exch := rfl
@[simp] theorem State.dropCopy_ncmd (s : State) (a x : Nat) : (s.dropCopy a x).ncmd = s.ncmd := rfl
@[simp] theorem State.dropCopy_nv (s : State) (a x : Nat) : (s.dropCopy a x).nv = s.nv := rfl
@[simp] theorem State.dropCopy_resets (s : State) (a x : Nat) : (s.dropCopy a x).resets = s.resets := rfl
@[simp] theorem State.dropCopy_report (s : State) (a x : Nat) : (s.dropCopy a x).report = s.report := rfl
@[simp] theorem State.dropCopy_thermtrip (s : State) (a x : Nat) : (s.dropCopy a x).thermtrip = s.thermtrip := rfl
@[simp] theorem State.dropCopy_agenda (s : State) (a x : Nat) : (s.dropCopy a x).agenda = s.agenda := rfl
@[simp] theorem State.dropCopy_issue (s : State) (a x : Nat) : (s.dropCopy a x).issue = s.issue := rfl
@[simp] theorem State.dropCopy_cur (s : State) (a x : Nat) : (s.dropCopy a x).cur = s.cur := rfl
@[simp] theorem State.dropCopy_tick (s : State) (a x : Nat) : (s.dropCopy a x).tick = s.tick := rfl

/-! setFrame changes only: frames. -/

@[simp] theorem State.setFrame_cycle (s : State) (f c : Nat) : (s.setFrame f c).cycle = s.cycle := rfl
@[simp] theorem State.setFrame_stamps (s : State) (f c : Nat) : (s.setFrame f c).stamps = s.stamps := rfl
@[simp] theorem State.setFrame_ctl (s : State) (f c : Nat) : (s.setFrame f c).ctl = s.ctl := rfl
@[simp] theorem State.setFrame_hbm (s : State) (f c : Nat) : (s.setFrame f c).hbm = s.hbm := rfl
@[simp] theorem State.setFrame_scores (s : State) (f c : Nat) : (s.setFrame f c).scores = s.scores := rfl
@[simp] theorem State.setFrame_vlines (s : State) (f c : Nat) : (s.setFrame f c).vlines = s.vlines := rfl
@[simp] theorem State.setFrame_fillq (s : State) (f c : Nat) : (s.setFrame f c).fillq = s.fillq := rfl
@[simp] theorem State.setFrame_serials (s : State) (f c : Nat) : (s.setFrame f c).serials = s.serials := rfl
@[simp] theorem State.setFrame_copies (s : State) (f c : Nat) : (s.setFrame f c).copies = s.copies := rfl
@[simp] theorem State.setFrame_dies (s : State) (f c : Nat) : (s.setFrame f c).dies = s.dies := rfl
@[simp] theorem State.setFrame_cores (s : State) (f c : Nat) : (s.setFrame f c).cores = s.cores := rfl
@[simp] theorem State.setFrame_teams (s : State) (f c : Nat) : (s.setFrame f c).teams = s.teams := rfl
@[simp] theorem State.setFrame_nteam (s : State) (f c : Nat) : (s.setFrame f c).nteam = s.nteam := rfl
@[simp] theorem State.setFrame_nline (s : State) (f c : Nat) : (s.setFrame f c).nline = s.nline := rfl
@[simp] theorem State.setFrame_grids (s : State) (f c : Nat) : (s.setFrame f c).grids = s.grids := rfl
@[simp] theorem State.setFrame_ngrid (s : State) (f c : Nat) : (s.setFrame f c).ngrid = s.ngrid := rfl
@[simp] theorem State.setFrame_nrel (s : State) (f c : Nat) : (s.setFrame f c).nrel = s.nrel := rfl
@[simp] theorem State.setFrame_graphs (s : State) (f c : Nat) : (s.setFrame f c).graphs = s.graphs := rfl
@[simp] theorem State.setFrame_saved (s : State) (f c : Nat) : (s.setFrame f c).saved = s.saved := rfl
@[simp] theorem State.setFrame_posts (s : State) (f c : Nat) : (s.setFrame f c).posts = s.posts := rfl
@[simp] theorem State.setFrame_shoots (s : State) (f c : Nat) : (s.setFrame f c).shoots = s.shoots := rfl
@[simp] theorem State.setFrame_nshoot (s : State) (f c : Nat) : (s.setFrame f c).nshoot = s.nshoot := rfl
@[simp] theorem State.setFrame_staging (s : State) (f c : Nat) : (s.setFrame f c).staging = s.staging := rfl
@[simp] theorem State.setFrame_shellLog (s : State) (f c : Nat) : (s.setFrame f c).shellLog = s.shellLog := rfl
@[simp] theorem State.setFrame_logq (s : State) (f c : Nat) : (s.setFrame f c).logq = s.logq := rfl
@[simp] theorem State.setFrame_answers (s : State) (f c : Nat) : (s.setFrame f c).answers = s.answers := rfl
@[simp] theorem State.setFrame_irqs (s : State) (f c : Nat) : (s.setFrame f c).irqs = s.irqs := rfl
@[simp] theorem State.setFrame_sent (s : State) (f c : Nat) : (s.setFrame f c).sent = s.sent := rfl
@[simp] theorem State.setFrame_flits (s : State) (f c : Nat) : (s.setFrame f c).flits = s.flits := rfl
@[simp] theorem State.setFrame_down (s : State) (f c : Nat) : (s.setFrame f c).down = s.down := rfl
@[simp] theorem State.setFrame_exch (s : State) (f c : Nat) : (s.setFrame f c).exch = s.exch := rfl
@[simp] theorem State.setFrame_ncmd (s : State) (f c : Nat) : (s.setFrame f c).ncmd = s.ncmd := rfl
@[simp] theorem State.setFrame_nv (s : State) (f c : Nat) : (s.setFrame f c).nv = s.nv := rfl
@[simp] theorem State.setFrame_resets (s : State) (f c : Nat) : (s.setFrame f c).resets = s.resets := rfl
@[simp] theorem State.setFrame_report (s : State) (f c : Nat) : (s.setFrame f c).report = s.report := rfl
@[simp] theorem State.setFrame_thermtrip (s : State) (f c : Nat) : (s.setFrame f c).thermtrip = s.thermtrip := rfl
@[simp] theorem State.setFrame_agenda (s : State) (f c : Nat) : (s.setFrame f c).agenda = s.agenda := rfl
@[simp] theorem State.setFrame_issue (s : State) (f c : Nat) : (s.setFrame f c).issue = s.issue := rfl
@[simp] theorem State.setFrame_cur (s : State) (f c : Nat) : (s.setFrame f c).cur = s.cur := rfl
@[simp] theorem State.setFrame_tick (s : State) (f c : Nat) : (s.setFrame f c).tick = s.tick := rfl

/-! choose changes only: tick. -/

@[simp] theorem State.choose_cycle (s : State) (n : Nat) : ((s.choose n).1).cycle = s.cycle := rfl
@[simp] theorem State.choose_stamps (s : State) (n : Nat) : ((s.choose n).1).stamps = s.stamps := rfl
@[simp] theorem State.choose_ctl (s : State) (n : Nat) : ((s.choose n).1).ctl = s.ctl := rfl
@[simp] theorem State.choose_hbm (s : State) (n : Nat) : ((s.choose n).1).hbm = s.hbm := rfl
@[simp] theorem State.choose_frames (s : State) (n : Nat) : ((s.choose n).1).frames = s.frames := rfl
@[simp] theorem State.choose_scores (s : State) (n : Nat) : ((s.choose n).1).scores = s.scores := rfl
@[simp] theorem State.choose_vlines (s : State) (n : Nat) : ((s.choose n).1).vlines = s.vlines := rfl
@[simp] theorem State.choose_fillq (s : State) (n : Nat) : ((s.choose n).1).fillq = s.fillq := rfl
@[simp] theorem State.choose_serials (s : State) (n : Nat) : ((s.choose n).1).serials = s.serials := rfl
@[simp] theorem State.choose_copies (s : State) (n : Nat) : ((s.choose n).1).copies = s.copies := rfl
@[simp] theorem State.choose_dies (s : State) (n : Nat) : ((s.choose n).1).dies = s.dies := rfl
@[simp] theorem State.choose_cores (s : State) (n : Nat) : ((s.choose n).1).cores = s.cores := rfl
@[simp] theorem State.choose_teams (s : State) (n : Nat) : ((s.choose n).1).teams = s.teams := rfl
@[simp] theorem State.choose_nteam (s : State) (n : Nat) : ((s.choose n).1).nteam = s.nteam := rfl
@[simp] theorem State.choose_nline (s : State) (n : Nat) : ((s.choose n).1).nline = s.nline := rfl
@[simp] theorem State.choose_grids (s : State) (n : Nat) : ((s.choose n).1).grids = s.grids := rfl
@[simp] theorem State.choose_ngrid (s : State) (n : Nat) : ((s.choose n).1).ngrid = s.ngrid := rfl
@[simp] theorem State.choose_nrel (s : State) (n : Nat) : ((s.choose n).1).nrel = s.nrel := rfl
@[simp] theorem State.choose_graphs (s : State) (n : Nat) : ((s.choose n).1).graphs = s.graphs := rfl
@[simp] theorem State.choose_saved (s : State) (n : Nat) : ((s.choose n).1).saved = s.saved := rfl
@[simp] theorem State.choose_posts (s : State) (n : Nat) : ((s.choose n).1).posts = s.posts := rfl
@[simp] theorem State.choose_shoots (s : State) (n : Nat) : ((s.choose n).1).shoots = s.shoots := rfl
@[simp] theorem State.choose_nshoot (s : State) (n : Nat) : ((s.choose n).1).nshoot = s.nshoot := rfl
@[simp] theorem State.choose_staging (s : State) (n : Nat) : ((s.choose n).1).staging = s.staging := rfl
@[simp] theorem State.choose_shellLog (s : State) (n : Nat) : ((s.choose n).1).shellLog = s.shellLog := rfl
@[simp] theorem State.choose_logq (s : State) (n : Nat) : ((s.choose n).1).logq = s.logq := rfl
@[simp] theorem State.choose_answers (s : State) (n : Nat) : ((s.choose n).1).answers = s.answers := rfl
@[simp] theorem State.choose_irqs (s : State) (n : Nat) : ((s.choose n).1).irqs = s.irqs := rfl
@[simp] theorem State.choose_sent (s : State) (n : Nat) : ((s.choose n).1).sent = s.sent := rfl
@[simp] theorem State.choose_flits (s : State) (n : Nat) : ((s.choose n).1).flits = s.flits := rfl
@[simp] theorem State.choose_down (s : State) (n : Nat) : ((s.choose n).1).down = s.down := rfl
@[simp] theorem State.choose_exch (s : State) (n : Nat) : ((s.choose n).1).exch = s.exch := rfl
@[simp] theorem State.choose_ncmd (s : State) (n : Nat) : ((s.choose n).1).ncmd = s.ncmd := rfl
@[simp] theorem State.choose_nv (s : State) (n : Nat) : ((s.choose n).1).nv = s.nv := rfl
@[simp] theorem State.choose_resets (s : State) (n : Nat) : ((s.choose n).1).resets = s.resets := rfl
@[simp] theorem State.choose_report (s : State) (n : Nat) : ((s.choose n).1).report = s.report := rfl
@[simp] theorem State.choose_thermtrip (s : State) (n : Nat) : ((s.choose n).1).thermtrip = s.thermtrip := rfl
@[simp] theorem State.choose_agenda (s : State) (n : Nat) : ((s.choose n).1).agenda = s.agenda := rfl
@[simp] theorem State.choose_issue (s : State) (n : Nat) : ((s.choose n).1).issue = s.issue := rfl
@[simp] theorem State.choose_cur (s : State) (n : Nat) : ((s.choose n).1).cur = s.cur := rfl

/-! unfilter changes only: dies. -/

@[simp] theorem State.unfilter_cycle (s : State) (x : Nat) (l : List Nat) : (s.unfilter x l).cycle = s.cycle := rfl
@[simp] theorem State.unfilter_stamps (s : State) (x : Nat) (l : List Nat) : (s.unfilter x l).stamps = s.stamps := rfl
@[simp] theorem State.unfilter_ctl (s : State) (x : Nat) (l : List Nat) : (s.unfilter x l).ctl = s.ctl := rfl
@[simp] theorem State.unfilter_hbm (s : State) (x : Nat) (l : List Nat) : (s.unfilter x l).hbm = s.hbm := rfl
@[simp] theorem State.unfilter_frames (s : State) (x : Nat) (l : List Nat) : (s.unfilter x l).frames = s.frames := rfl
@[simp] theorem State.unfilter_scores (s : State) (x : Nat) (l : List Nat) : (s.unfilter x l).scores = s.scores := rfl
@[simp] theorem State.unfilter_vlines (s : State) (x : Nat) (l : List Nat) : (s.unfilter x l).vlines = s.vlines := rfl
@[simp] theorem State.unfilter_fillq (s : State) (x : Nat) (l : List Nat) : (s.unfilter x l).fillq = s.fillq := rfl
@[simp] theorem State.unfilter_serials (s : State) (x : Nat) (l : List Nat) : (s.unfilter x l).serials = s.serials := rfl
@[simp] theorem State.unfilter_copies (s : State) (x : Nat) (l : List Nat) : (s.unfilter x l).copies = s.copies := rfl
@[simp] theorem State.unfilter_cores (s : State) (x : Nat) (l : List Nat) : (s.unfilter x l).cores = s.cores := rfl
@[simp] theorem State.unfilter_teams (s : State) (x : Nat) (l : List Nat) : (s.unfilter x l).teams = s.teams := rfl
@[simp] theorem State.unfilter_nteam (s : State) (x : Nat) (l : List Nat) : (s.unfilter x l).nteam = s.nteam := rfl
@[simp] theorem State.unfilter_nline (s : State) (x : Nat) (l : List Nat) : (s.unfilter x l).nline = s.nline := rfl
@[simp] theorem State.unfilter_grids (s : State) (x : Nat) (l : List Nat) : (s.unfilter x l).grids = s.grids := rfl
@[simp] theorem State.unfilter_ngrid (s : State) (x : Nat) (l : List Nat) : (s.unfilter x l).ngrid = s.ngrid := rfl
@[simp] theorem State.unfilter_nrel (s : State) (x : Nat) (l : List Nat) : (s.unfilter x l).nrel = s.nrel := rfl
@[simp] theorem State.unfilter_graphs (s : State) (x : Nat) (l : List Nat) : (s.unfilter x l).graphs = s.graphs := rfl
@[simp] theorem State.unfilter_saved (s : State) (x : Nat) (l : List Nat) : (s.unfilter x l).saved = s.saved := rfl
@[simp] theorem State.unfilter_posts (s : State) (x : Nat) (l : List Nat) : (s.unfilter x l).posts = s.posts := rfl
@[simp] theorem State.unfilter_shoots (s : State) (x : Nat) (l : List Nat) : (s.unfilter x l).shoots = s.shoots := rfl
@[simp] theorem State.unfilter_nshoot (s : State) (x : Nat) (l : List Nat) : (s.unfilter x l).nshoot = s.nshoot := rfl
@[simp] theorem State.unfilter_staging (s : State) (x : Nat) (l : List Nat) : (s.unfilter x l).staging = s.staging := rfl
@[simp] theorem State.unfilter_shellLog (s : State) (x : Nat) (l : List Nat) : (s.unfilter x l).shellLog = s.shellLog := rfl
@[simp] theorem State.unfilter_logq (s : State) (x : Nat) (l : List Nat) : (s.unfilter x l).logq = s.logq := rfl
@[simp] theorem State.unfilter_answers (s : State) (x : Nat) (l : List Nat) : (s.unfilter x l).answers = s.answers := rfl
@[simp] theorem State.unfilter_irqs (s : State) (x : Nat) (l : List Nat) : (s.unfilter x l).irqs = s.irqs := rfl
@[simp] theorem State.unfilter_sent (s : State) (x : Nat) (l : List Nat) : (s.unfilter x l).sent = s.sent := rfl
@[simp] theorem State.unfilter_flits (s : State) (x : Nat) (l : List Nat) : (s.unfilter x l).flits = s.flits := rfl
@[simp] theorem State.unfilter_down (s : State) (x : Nat) (l : List Nat) : (s.unfilter x l).down = s.down := rfl
@[simp] theorem State.unfilter_exch (s : State) (x : Nat) (l : List Nat) : (s.unfilter x l).exch = s.exch := rfl
@[simp] theorem State.unfilter_ncmd (s : State) (x : Nat) (l : List Nat) : (s.unfilter x l).ncmd = s.ncmd := rfl
@[simp] theorem State.unfilter_nv (s : State) (x : Nat) (l : List Nat) : (s.unfilter x l).nv = s.nv := rfl
@[simp] theorem State.unfilter_resets (s : State) (x : Nat) (l : List Nat) : (s.unfilter x l).resets = s.resets := rfl
@[simp] theorem State.unfilter_report (s : State) (x : Nat) (l : List Nat) : (s.unfilter x l).report = s.report := rfl
@[simp] theorem State.unfilter_thermtrip (s : State) (x : Nat) (l : List Nat) : (s.unfilter x l).thermtrip = s.thermtrip := rfl
@[simp] theorem State.unfilter_agenda (s : State) (x : Nat) (l : List Nat) : (s.unfilter x l).agenda = s.agenda := rfl
@[simp] theorem State.unfilter_issue (s : State) (x : Nat) (l : List Nat) : (s.unfilter x l).issue = s.issue := rfl
@[simp] theorem State.unfilter_cur (s : State) (x : Nat) (l : List Nat) : (s.unfilter x l).cur = s.cur := rfl
@[simp] theorem State.unfilter_tick (s : State) (x : Nat) (l : List Nat) : (s.unfilter x l).tick = s.tick := rfl

/-! nextSerial changes only: serials. -/

@[simp] theorem State.nextSerial_cycle (s : State) (x : Nat) : ((s.nextSerial x).1).cycle = s.cycle := rfl
@[simp] theorem State.nextSerial_stamps (s : State) (x : Nat) : ((s.nextSerial x).1).stamps = s.stamps := rfl
@[simp] theorem State.nextSerial_ctl (s : State) (x : Nat) : ((s.nextSerial x).1).ctl = s.ctl := rfl
@[simp] theorem State.nextSerial_hbm (s : State) (x : Nat) : ((s.nextSerial x).1).hbm = s.hbm := rfl
@[simp] theorem State.nextSerial_frames (s : State) (x : Nat) : ((s.nextSerial x).1).frames = s.frames := rfl
@[simp] theorem State.nextSerial_scores (s : State) (x : Nat) : ((s.nextSerial x).1).scores = s.scores := rfl
@[simp] theorem State.nextSerial_vlines (s : State) (x : Nat) : ((s.nextSerial x).1).vlines = s.vlines := rfl
@[simp] theorem State.nextSerial_fillq (s : State) (x : Nat) : ((s.nextSerial x).1).fillq = s.fillq := rfl
@[simp] theorem State.nextSerial_copies (s : State) (x : Nat) : ((s.nextSerial x).1).copies = s.copies := rfl
@[simp] theorem State.nextSerial_dies (s : State) (x : Nat) : ((s.nextSerial x).1).dies = s.dies := rfl
@[simp] theorem State.nextSerial_cores (s : State) (x : Nat) : ((s.nextSerial x).1).cores = s.cores := rfl
@[simp] theorem State.nextSerial_teams (s : State) (x : Nat) : ((s.nextSerial x).1).teams = s.teams := rfl
@[simp] theorem State.nextSerial_nteam (s : State) (x : Nat) : ((s.nextSerial x).1).nteam = s.nteam := rfl
@[simp] theorem State.nextSerial_nline (s : State) (x : Nat) : ((s.nextSerial x).1).nline = s.nline := rfl
@[simp] theorem State.nextSerial_grids (s : State) (x : Nat) : ((s.nextSerial x).1).grids = s.grids := rfl
@[simp] theorem State.nextSerial_ngrid (s : State) (x : Nat) : ((s.nextSerial x).1).ngrid = s.ngrid := rfl
@[simp] theorem State.nextSerial_nrel (s : State) (x : Nat) : ((s.nextSerial x).1).nrel = s.nrel := rfl
@[simp] theorem State.nextSerial_graphs (s : State) (x : Nat) : ((s.nextSerial x).1).graphs = s.graphs := rfl
@[simp] theorem State.nextSerial_saved (s : State) (x : Nat) : ((s.nextSerial x).1).saved = s.saved := rfl
@[simp] theorem State.nextSerial_posts (s : State) (x : Nat) : ((s.nextSerial x).1).posts = s.posts := rfl
@[simp] theorem State.nextSerial_shoots (s : State) (x : Nat) : ((s.nextSerial x).1).shoots = s.shoots := rfl
@[simp] theorem State.nextSerial_nshoot (s : State) (x : Nat) : ((s.nextSerial x).1).nshoot = s.nshoot := rfl
@[simp] theorem State.nextSerial_staging (s : State) (x : Nat) : ((s.nextSerial x).1).staging = s.staging := rfl
@[simp] theorem State.nextSerial_shellLog (s : State) (x : Nat) : ((s.nextSerial x).1).shellLog = s.shellLog := rfl
@[simp] theorem State.nextSerial_logq (s : State) (x : Nat) : ((s.nextSerial x).1).logq = s.logq := rfl
@[simp] theorem State.nextSerial_answers (s : State) (x : Nat) : ((s.nextSerial x).1).answers = s.answers := rfl
@[simp] theorem State.nextSerial_irqs (s : State) (x : Nat) : ((s.nextSerial x).1).irqs = s.irqs := rfl
@[simp] theorem State.nextSerial_sent (s : State) (x : Nat) : ((s.nextSerial x).1).sent = s.sent := rfl
@[simp] theorem State.nextSerial_flits (s : State) (x : Nat) : ((s.nextSerial x).1).flits = s.flits := rfl
@[simp] theorem State.nextSerial_down (s : State) (x : Nat) : ((s.nextSerial x).1).down = s.down := rfl
@[simp] theorem State.nextSerial_exch (s : State) (x : Nat) : ((s.nextSerial x).1).exch = s.exch := rfl
@[simp] theorem State.nextSerial_ncmd (s : State) (x : Nat) : ((s.nextSerial x).1).ncmd = s.ncmd := rfl
@[simp] theorem State.nextSerial_nv (s : State) (x : Nat) : ((s.nextSerial x).1).nv = s.nv := rfl
@[simp] theorem State.nextSerial_resets (s : State) (x : Nat) : ((s.nextSerial x).1).resets = s.resets := rfl
@[simp] theorem State.nextSerial_report (s : State) (x : Nat) : ((s.nextSerial x).1).report = s.report := rfl
@[simp] theorem State.nextSerial_thermtrip (s : State) (x : Nat) : ((s.nextSerial x).1).thermtrip = s.thermtrip := rfl
@[simp] theorem State.nextSerial_agenda (s : State) (x : Nat) : ((s.nextSerial x).1).agenda = s.agenda := rfl
@[simp] theorem State.nextSerial_issue (s : State) (x : Nat) : ((s.nextSerial x).1).issue = s.issue := rfl
@[simp] theorem State.nextSerial_cur (s : State) (x : Nat) : ((s.nextSerial x).1).cur = s.cur := rfl
@[simp] theorem State.nextSerial_tick (s : State) (x : Nat) : ((s.nextSerial x).1).tick = s.tick := rfl

/-! noteWrite changes only: agenda. -/

@[simp] theorem State.noteWrite_cycle (s : State) (x : Nat) : (s.noteWrite x).cycle = s.cycle := rfl
@[simp] theorem State.noteWrite_stamps (s : State) (x : Nat) : (s.noteWrite x).stamps = s.stamps := rfl
@[simp] theorem State.noteWrite_ctl (s : State) (x : Nat) : (s.noteWrite x).ctl = s.ctl := rfl
@[simp] theorem State.noteWrite_hbm (s : State) (x : Nat) : (s.noteWrite x).hbm = s.hbm := rfl
@[simp] theorem State.noteWrite_frames (s : State) (x : Nat) : (s.noteWrite x).frames = s.frames := rfl
@[simp] theorem State.noteWrite_scores (s : State) (x : Nat) : (s.noteWrite x).scores = s.scores := rfl
@[simp] theorem State.noteWrite_vlines (s : State) (x : Nat) : (s.noteWrite x).vlines = s.vlines := rfl
@[simp] theorem State.noteWrite_fillq (s : State) (x : Nat) : (s.noteWrite x).fillq = s.fillq := rfl
@[simp] theorem State.noteWrite_serials (s : State) (x : Nat) : (s.noteWrite x).serials = s.serials := rfl
@[simp] theorem State.noteWrite_copies (s : State) (x : Nat) : (s.noteWrite x).copies = s.copies := rfl
@[simp] theorem State.noteWrite_dies (s : State) (x : Nat) : (s.noteWrite x).dies = s.dies := rfl
@[simp] theorem State.noteWrite_cores (s : State) (x : Nat) : (s.noteWrite x).cores = s.cores := rfl
@[simp] theorem State.noteWrite_teams (s : State) (x : Nat) : (s.noteWrite x).teams = s.teams := rfl
@[simp] theorem State.noteWrite_nteam (s : State) (x : Nat) : (s.noteWrite x).nteam = s.nteam := rfl
@[simp] theorem State.noteWrite_nline (s : State) (x : Nat) : (s.noteWrite x).nline = s.nline := rfl
@[simp] theorem State.noteWrite_grids (s : State) (x : Nat) : (s.noteWrite x).grids = s.grids := rfl
@[simp] theorem State.noteWrite_ngrid (s : State) (x : Nat) : (s.noteWrite x).ngrid = s.ngrid := rfl
@[simp] theorem State.noteWrite_nrel (s : State) (x : Nat) : (s.noteWrite x).nrel = s.nrel := rfl
@[simp] theorem State.noteWrite_graphs (s : State) (x : Nat) : (s.noteWrite x).graphs = s.graphs := rfl
@[simp] theorem State.noteWrite_saved (s : State) (x : Nat) : (s.noteWrite x).saved = s.saved := rfl
@[simp] theorem State.noteWrite_posts (s : State) (x : Nat) : (s.noteWrite x).posts = s.posts := rfl
@[simp] theorem State.noteWrite_shoots (s : State) (x : Nat) : (s.noteWrite x).shoots = s.shoots := rfl
@[simp] theorem State.noteWrite_nshoot (s : State) (x : Nat) : (s.noteWrite x).nshoot = s.nshoot := rfl
@[simp] theorem State.noteWrite_staging (s : State) (x : Nat) : (s.noteWrite x).staging = s.staging := rfl
@[simp] theorem State.noteWrite_shellLog (s : State) (x : Nat) : (s.noteWrite x).shellLog = s.shellLog := rfl
@[simp] theorem State.noteWrite_logq (s : State) (x : Nat) : (s.noteWrite x).logq = s.logq := rfl
@[simp] theorem State.noteWrite_answers (s : State) (x : Nat) : (s.noteWrite x).answers = s.answers := rfl
@[simp] theorem State.noteWrite_irqs (s : State) (x : Nat) : (s.noteWrite x).irqs = s.irqs := rfl
@[simp] theorem State.noteWrite_sent (s : State) (x : Nat) : (s.noteWrite x).sent = s.sent := rfl
@[simp] theorem State.noteWrite_flits (s : State) (x : Nat) : (s.noteWrite x).flits = s.flits := rfl
@[simp] theorem State.noteWrite_down (s : State) (x : Nat) : (s.noteWrite x).down = s.down := rfl
@[simp] theorem State.noteWrite_exch (s : State) (x : Nat) : (s.noteWrite x).exch = s.exch := rfl
@[simp] theorem State.noteWrite_ncmd (s : State) (x : Nat) : (s.noteWrite x).ncmd = s.ncmd := rfl
@[simp] theorem State.noteWrite_nv (s : State) (x : Nat) : (s.noteWrite x).nv = s.nv := rfl
@[simp] theorem State.noteWrite_resets (s : State) (x : Nat) : (s.noteWrite x).resets = s.resets := rfl
@[simp] theorem State.noteWrite_report (s : State) (x : Nat) : (s.noteWrite x).report = s.report := rfl
@[simp] theorem State.noteWrite_thermtrip (s : State) (x : Nat) : (s.noteWrite x).thermtrip = s.thermtrip := rfl
@[simp] theorem State.noteWrite_issue (s : State) (x : Nat) : (s.noteWrite x).issue = s.issue := rfl
@[simp] theorem State.noteWrite_cur (s : State) (x : Nat) : (s.noteWrite x).cur = s.cur := rfl
@[simp] theorem State.noteWrite_tick (s : State) (x : Nat) : (s.noteWrite x).tick = s.tick := rfl

/-! ### What the accessors read after an update -/

@[simp] theorem State.later_vl (s : State) (l : List Instr) (x : Nat) : (s.later l).vl x = s.vl x := rfl
@[simp] theorem State.later_copy (s : State) (l : List Instr) (a x : Nat) : (s.later l).copy a x = s.copy a x := rfl
@[simp] theorem State.later_cw (s : State) (l : List Instr) (k : Nat) : (s.later l).cw k = s.cw k := rfl
@[simp] theorem State.later_cwInt (s : State) (l : List Instr) (k : Nat) : (s.later l).cwInt k = s.cwInt k := rfl
@[simp] theorem State.later_frame (s : State) (l : List Instr) (f : Nat) : (s.later l).frame f = s.frame f := rfl
@[simp] theorem State.later_team? (s : State) (l : List Instr) (m : Nat) : (s.later l).team? m = s.team? m := rfl
@[simp] theorem State.later_squad? (s : State) (l : List Instr) (m p : Nat) : (s.later l).squad? m p = s.squad? m p := rfl
@[simp] theorem State.later_thread? (s : State) (l : List Instr) (u : TRef) : (s.later l).thread? u = s.thread? u := rfl
@[simp] theorem State.later_grid? (s : State) (l : List Instr) (m : Nat) : (s.later l).grid? m = s.grid? m := rfl
@[simp] theorem State.later_graph? (s : State) (l : List Instr) (m : Nat) : (s.later l).graph? m = s.graph? m := rfl
@[simp] theorem State.later_die (s : State) (l : List Instr) (m : Nat) : (s.later l).die m = s.die m := rfl
@[simp] theorem State.later_core (s : State) (l : List Instr) (m : Nat) : (s.later l).core m = s.core m := rfl
@[simp] theorem State.later_stampOf (s : State) (l : List Instr) (p : Nat) : (s.later l).stampOf p = s.stampOf p := rfl

@[simp] theorem State.setCw_vl (s : State) (k : Nat) (w : Word) (x : Nat) : (s.setCw k w).vl x = s.vl x := rfl
@[simp] theorem State.setCw_copy (s : State) (k : Nat) (w : Word) (a x : Nat) : (s.setCw k w).copy a x = s.copy a x := rfl
@[simp] theorem State.setCw_frame (s : State) (k : Nat) (w : Word) (f : Nat) : (s.setCw k w).frame f = s.frame f := rfl
@[simp] theorem State.setCw_team? (s : State) (k : Nat) (w : Word) (m : Nat) : (s.setCw k w).team? m = s.team? m := rfl
@[simp] theorem State.setCw_squad? (s : State) (k : Nat) (w : Word) (m p : Nat) : (s.setCw k w).squad? m p = s.squad? m p := rfl
@[simp] theorem State.setCw_thread? (s : State) (k : Nat) (w : Word) (u : TRef) : (s.setCw k w).thread? u = s.thread? u := rfl
@[simp] theorem State.setCw_grid? (s : State) (k : Nat) (w : Word) (m : Nat) : (s.setCw k w).grid? m = s.grid? m := rfl
@[simp] theorem State.setCw_graph? (s : State) (k : Nat) (w : Word) (m : Nat) : (s.setCw k w).graph? m = s.graph? m := rfl
@[simp] theorem State.setCw_die (s : State) (k : Nat) (w : Word) (m : Nat) : (s.setCw k w).die m = s.die m := rfl
@[simp] theorem State.setCw_core (s : State) (k : Nat) (w : Word) (m : Nat) : (s.setCw k w).core m = s.core m := rfl
@[simp] theorem State.setCw_stampOf (s : State) (k : Nat) (w : Word) (p : Nat) : (s.setCw k w).stampOf p = s.stampOf p := rfl

@[simp] theorem State.setCwInt_vl (s : State) (k : Nat) (x : Int) (x' : Nat) : (s.setCwInt k x).vl x' = s.vl x' := rfl
@[simp] theorem State.setCwInt_copy (s : State) (k : Nat) (x : Int) (a x' : Nat) : (s.setCwInt k x).copy a x' = s.copy a x' := rfl
@[simp] theorem State.setCwInt_frame (s : State) (k : Nat) (x : Int) (f : Nat) : (s.setCwInt k x).frame f = s.frame f := rfl
@[simp] theorem State.setCwInt_team? (s : State) (k : Nat) (x : Int) (m : Nat) : (s.setCwInt k x).team? m = s.team? m := rfl
@[simp] theorem State.setCwInt_squad? (s : State) (k : Nat) (x : Int) (m p : Nat) : (s.setCwInt k x).squad? m p = s.squad? m p := rfl
@[simp] theorem State.setCwInt_thread? (s : State) (k : Nat) (x : Int) (u : TRef) : (s.setCwInt k x).thread? u = s.thread? u := rfl
@[simp] theorem State.setCwInt_grid? (s : State) (k : Nat) (x : Int) (m : Nat) : (s.setCwInt k x).grid? m = s.grid? m := rfl
@[simp] theorem State.setCwInt_graph? (s : State) (k : Nat) (x : Int) (m : Nat) : (s.setCwInt k x).graph? m = s.graph? m := rfl
@[simp] theorem State.setCwInt_die (s : State) (k : Nat) (x : Int) (m : Nat) : (s.setCwInt k x).die m = s.die m := rfl
@[simp] theorem State.setCwInt_core (s : State) (k : Nat) (x : Int) (m : Nat) : (s.setCwInt k x).core m = s.core m := rfl
@[simp] theorem State.setCwInt_stampOf (s : State) (k : Nat) (x : Int) (p : Nat) : (s.setCwInt k x).stampOf p = s.stampOf p := rfl

@[simp] theorem State.modTeam_vl (s : State) (n : Nat) (f : Team → Team) (x : Nat) : (s.modTeam n f).vl x = s.vl x := rfl
@[simp] theorem State.modTeam_copy (s : State) (n : Nat) (f : Team → Team) (a x : Nat) : (s.modTeam n f).copy a x = s.copy a x := rfl
@[simp] theorem State.modTeam_cw (s : State) (n : Nat) (f : Team → Team) (k : Nat) : (s.modTeam n f).cw k = s.cw k := rfl
@[simp] theorem State.modTeam_cwInt (s : State) (n : Nat) (f : Team → Team) (k : Nat) : (s.modTeam n f).cwInt k = s.cwInt k := rfl
@[simp] theorem State.modTeam_frame (s : State) (n : Nat) (f : Team → Team) (f' : Nat) : (s.modTeam n f).frame f' = s.frame f' := rfl
@[simp] theorem State.modTeam_grid? (s : State) (n : Nat) (f : Team → Team) (m : Nat) : (s.modTeam n f).grid? m = s.grid? m := rfl
@[simp] theorem State.modTeam_graph? (s : State) (n : Nat) (f : Team → Team) (m : Nat) : (s.modTeam n f).graph? m = s.graph? m := rfl
@[simp] theorem State.modTeam_die (s : State) (n : Nat) (f : Team → Team) (m : Nat) : (s.modTeam n f).die m = s.die m := rfl
@[simp] theorem State.modTeam_core (s : State) (n : Nat) (f : Team → Team) (m : Nat) : (s.modTeam n f).core m = s.core m := rfl
@[simp] theorem State.modTeam_stampOf (s : State) (n : Nat) (f : Team → Team) (p : Nat) : (s.modTeam n f).stampOf p = s.stampOf p := rfl

@[simp] theorem State.modBody_vl (s : State) (n : Nat) (f : TeamBody → TeamBody) (x : Nat) : (s.modBody n f).vl x = s.vl x := rfl
@[simp] theorem State.modBody_copy (s : State) (n : Nat) (f : TeamBody → TeamBody) (a x : Nat) : (s.modBody n f).copy a x = s.copy a x := rfl
@[simp] theorem State.modBody_cw (s : State) (n : Nat) (f : TeamBody → TeamBody) (k : Nat) : (s.modBody n f).cw k = s.cw k := rfl
@[simp] theorem State.modBody_cwInt (s : State) (n : Nat) (f : TeamBody → TeamBody) (k : Nat) : (s.modBody n f).cwInt k = s.cwInt k := rfl
@[simp] theorem State.modBody_frame (s : State) (n : Nat) (f : TeamBody → TeamBody) (f' : Nat) : (s.modBody n f).frame f' = s.frame f' := rfl
@[simp] theorem State.modBody_grid? (s : State) (n : Nat) (f : TeamBody → TeamBody) (m : Nat) : (s.modBody n f).grid? m = s.grid? m := rfl
@[simp] theorem State.modBody_graph? (s : State) (n : Nat) (f : TeamBody → TeamBody) (m : Nat) : (s.modBody n f).graph? m = s.graph? m := rfl
@[simp] theorem State.modBody_die (s : State) (n : Nat) (f : TeamBody → TeamBody) (m : Nat) : (s.modBody n f).die m = s.die m := rfl
@[simp] theorem State.modBody_core (s : State) (n : Nat) (f : TeamBody → TeamBody) (m : Nat) : (s.modBody n f).core m = s.core m := rfl
@[simp] theorem State.modBody_stampOf (s : State) (n : Nat) (f : TeamBody → TeamBody) (p : Nat) : (s.modBody n f).stampOf p = s.stampOf p := rfl

@[simp] theorem State.modSquad_vl (s : State) (n q : Nat) (f : Squad → Squad) (x : Nat) : (s.modSquad n q f).vl x = s.vl x := rfl
@[simp] theorem State.modSquad_copy (s : State) (n q : Nat) (f : Squad → Squad) (a x : Nat) : (s.modSquad n q f).copy a x = s.copy a x := rfl
@[simp] theorem State.modSquad_cw (s : State) (n q : Nat) (f : Squad → Squad) (k : Nat) : (s.modSquad n q f).cw k = s.cw k := rfl
@[simp] theorem State.modSquad_cwInt (s : State) (n q : Nat) (f : Squad → Squad) (k : Nat) : (s.modSquad n q f).cwInt k = s.cwInt k := rfl
@[simp] theorem State.modSquad_frame (s : State) (n q : Nat) (f : Squad → Squad) (f' : Nat) : (s.modSquad n q f).frame f' = s.frame f' := rfl
@[simp] theorem State.modSquad_grid? (s : State) (n q : Nat) (f : Squad → Squad) (m : Nat) : (s.modSquad n q f).grid? m = s.grid? m := rfl
@[simp] theorem State.modSquad_graph? (s : State) (n q : Nat) (f : Squad → Squad) (m : Nat) : (s.modSquad n q f).graph? m = s.graph? m := rfl
@[simp] theorem State.modSquad_die (s : State) (n q : Nat) (f : Squad → Squad) (m : Nat) : (s.modSquad n q f).die m = s.die m := rfl
@[simp] theorem State.modSquad_core (s : State) (n q : Nat) (f : Squad → Squad) (m : Nat) : (s.modSquad n q f).core m = s.core m := rfl
@[simp] theorem State.modSquad_stampOf (s : State) (n q : Nat) (f : Squad → Squad) (p : Nat) : (s.modSquad n q f).stampOf p = s.stampOf p := rfl

@[simp] theorem State.modThread_vl (s : State) (r : TRef) (f : Thread → Thread) (x : Nat) : (s.modThread r f).vl x = s.vl x := rfl
@[simp] theorem State.modThread_copy (s : State) (r : TRef) (f : Thread → Thread) (a x : Nat) : (s.modThread r f).copy a x = s.copy a x := rfl
@[simp] theorem State.modThread_cw (s : State) (r : TRef) (f : Thread → Thread) (k : Nat) : (s.modThread r f).cw k = s.cw k := rfl
@[simp] theorem State.modThread_cwInt (s : State) (r : TRef) (f : Thread → Thread) (k : Nat) : (s.modThread r f).cwInt k = s.cwInt k := rfl
@[simp] theorem State.modThread_frame (s : State) (r : TRef) (f : Thread → Thread) (f' : Nat) : (s.modThread r f).frame f' = s.frame f' := rfl
@[simp] theorem State.modThread_grid? (s : State) (r : TRef) (f : Thread → Thread) (m : Nat) : (s.modThread r f).grid? m = s.grid? m := rfl
@[simp] theorem State.modThread_graph? (s : State) (r : TRef) (f : Thread → Thread) (m : Nat) : (s.modThread r f).graph? m = s.graph? m := rfl
@[simp] theorem State.modThread_die (s : State) (r : TRef) (f : Thread → Thread) (m : Nat) : (s.modThread r f).die m = s.die m := rfl
@[simp] theorem State.modThread_core (s : State) (r : TRef) (f : Thread → Thread) (m : Nat) : (s.modThread r f).core m = s.core m := rfl
@[simp] theorem State.modThread_stampOf (s : State) (r : TRef) (f : Thread → Thread) (p : Nat) : (s.modThread r f).stampOf p = s.stampOf p := rfl

@[simp] theorem State.modGrid_vl (s : State) (n : Nat) (f : Grid → Grid) (x : Nat) : (s.modGrid n f).vl x = s.vl x := rfl
@[simp] theorem State.modGrid_copy (s : State) (n : Nat) (f : Grid → Grid) (a x : Nat) : (s.modGrid n f).copy a x = s.copy a x := rfl
@[simp] theorem State.modGrid_cw (s : State) (n : Nat) (f : Grid → Grid) (k : Nat) : (s.modGrid n f).cw k = s.cw k := rfl
@[simp] theorem State.modGrid_cwInt (s : State) (n : Nat) (f : Grid → Grid) (k : Nat) : (s.modGrid n f).cwInt k = s.cwInt k := rfl
@[simp] theorem State.modGrid_frame (s : State) (n : Nat) (f : Grid → Grid) (f' : Nat) : (s.modGrid n f).frame f' = s.frame f' := rfl
@[simp] theorem State.modGrid_team? (s : State) (n : Nat) (f : Grid → Grid) (m : Nat) : (s.modGrid n f).team? m = s.team? m := rfl
@[simp] theorem State.modGrid_squad? (s : State) (n : Nat) (f : Grid → Grid) (m p : Nat) : (s.modGrid n f).squad? m p = s.squad? m p := rfl
@[simp] theorem State.modGrid_thread? (s : State) (n : Nat) (f : Grid → Grid) (u : TRef) : (s.modGrid n f).thread? u = s.thread? u := rfl
@[simp] theorem State.modGrid_graph? (s : State) (n : Nat) (f : Grid → Grid) (m : Nat) : (s.modGrid n f).graph? m = s.graph? m := rfl
@[simp] theorem State.modGrid_die (s : State) (n : Nat) (f : Grid → Grid) (m : Nat) : (s.modGrid n f).die m = s.die m := rfl
@[simp] theorem State.modGrid_core (s : State) (n : Nat) (f : Grid → Grid) (m : Nat) : (s.modGrid n f).core m = s.core m := rfl
@[simp] theorem State.modGrid_stampOf (s : State) (n : Nat) (f : Grid → Grid) (p : Nat) : (s.modGrid n f).stampOf p = s.stampOf p := rfl

@[simp] theorem State.modCore_vl (s : State) (n : Nat) (f : Core → Core) (x : Nat) : (s.modCore n f).vl x = s.vl x := rfl
@[simp] theorem State.modCore_copy (s : State) (n : Nat) (f : Core → Core) (a x : Nat) : (s.modCore n f).copy a x = s.copy a x := rfl
@[simp] theorem State.modCore_cw (s : State) (n : Nat) (f : Core → Core) (k : Nat) : (s.modCore n f).cw k = s.cw k := rfl
@[simp] theorem State.modCore_cwInt (s : State) (n : Nat) (f : Core → Core) (k : Nat) : (s.modCore n f).cwInt k = s.cwInt k := rfl
@[simp] theorem State.modCore_frame (s : State) (n : Nat) (f : Core → Core) (f' : Nat) : (s.modCore n f).frame f' = s.frame f' := rfl
@[simp] theorem State.modCore_team? (s : State) (n : Nat) (f : Core → Core) (m : Nat) : (s.modCore n f).team? m = s.team? m := rfl
@[simp] theorem State.modCore_squad? (s : State) (n : Nat) (f : Core → Core) (m p : Nat) : (s.modCore n f).squad? m p = s.squad? m p := rfl
@[simp] theorem State.modCore_thread? (s : State) (n : Nat) (f : Core → Core) (u : TRef) : (s.modCore n f).thread? u = s.thread? u := rfl
@[simp] theorem State.modCore_grid? (s : State) (n : Nat) (f : Core → Core) (m : Nat) : (s.modCore n f).grid? m = s.grid? m := rfl
@[simp] theorem State.modCore_graph? (s : State) (n : Nat) (f : Core → Core) (m : Nat) : (s.modCore n f).graph? m = s.graph? m := rfl
@[simp] theorem State.modCore_die (s : State) (n : Nat) (f : Core → Core) (m : Nat) : (s.modCore n f).die m = s.die m := rfl
@[simp] theorem State.modCore_stampOf (s : State) (n : Nat) (f : Core → Core) (p : Nat) : (s.modCore n f).stampOf p = s.stampOf p := rfl

@[simp] theorem State.modDie_vl (s : State) (n : Nat) (f : Die → Die) (x : Nat) : (s.modDie n f).vl x = s.vl x := rfl
@[simp] theorem State.modDie_copy (s : State) (n : Nat) (f : Die → Die) (a x : Nat) : (s.modDie n f).copy a x = s.copy a x := rfl
@[simp] theorem State.modDie_cw (s : State) (n : Nat) (f : Die → Die) (k : Nat) : (s.modDie n f).cw k = s.cw k := rfl
@[simp] theorem State.modDie_cwInt (s : State) (n : Nat) (f : Die → Die) (k : Nat) : (s.modDie n f).cwInt k = s.cwInt k := rfl
@[simp] theorem State.modDie_frame (s : State) (n : Nat) (f : Die → Die) (f' : Nat) : (s.modDie n f).frame f' = s.frame f' := rfl
@[simp] theorem State.modDie_team? (s : State) (n : Nat) (f : Die → Die) (m : Nat) : (s.modDie n f).team? m = s.team? m := rfl
@[simp] theorem State.modDie_squad? (s : State) (n : Nat) (f : Die → Die) (m p : Nat) : (s.modDie n f).squad? m p = s.squad? m p := rfl
@[simp] theorem State.modDie_thread? (s : State) (n : Nat) (f : Die → Die) (u : TRef) : (s.modDie n f).thread? u = s.thread? u := rfl
@[simp] theorem State.modDie_grid? (s : State) (n : Nat) (f : Die → Die) (m : Nat) : (s.modDie n f).grid? m = s.grid? m := rfl
@[simp] theorem State.modDie_graph? (s : State) (n : Nat) (f : Die → Die) (m : Nat) : (s.modDie n f).graph? m = s.graph? m := rfl
@[simp] theorem State.modDie_core (s : State) (n : Nat) (f : Die → Die) (m : Nat) : (s.modDie n f).core m = s.core m := rfl
@[simp] theorem State.modDie_stampOf (s : State) (n : Nat) (f : Die → Die) (p : Nat) : (s.modDie n f).stampOf p = s.stampOf p := rfl

@[simp] theorem State.modGraph_vl (s : State) (n : Nat) (f : Graph → Graph) (x : Nat) : (s.modGraph n f).vl x = s.vl x := rfl
@[simp] theorem State.modGraph_copy (s : State) (n : Nat) (f : Graph → Graph) (a x : Nat) : (s.modGraph n f).copy a x = s.copy a x := rfl
@[simp] theorem State.modGraph_cw (s : State) (n : Nat) (f : Graph → Graph) (k : Nat) : (s.modGraph n f).cw k = s.cw k := rfl
@[simp] theorem State.modGraph_cwInt (s : State) (n : Nat) (f : Graph → Graph) (k : Nat) : (s.modGraph n f).cwInt k = s.cwInt k := rfl
@[simp] theorem State.modGraph_frame (s : State) (n : Nat) (f : Graph → Graph) (f' : Nat) : (s.modGraph n f).frame f' = s.frame f' := rfl
@[simp] theorem State.modGraph_team? (s : State) (n : Nat) (f : Graph → Graph) (m : Nat) : (s.modGraph n f).team? m = s.team? m := rfl
@[simp] theorem State.modGraph_squad? (s : State) (n : Nat) (f : Graph → Graph) (m p : Nat) : (s.modGraph n f).squad? m p = s.squad? m p := rfl
@[simp] theorem State.modGraph_thread? (s : State) (n : Nat) (f : Graph → Graph) (u : TRef) : (s.modGraph n f).thread? u = s.thread? u := rfl
@[simp] theorem State.modGraph_grid? (s : State) (n : Nat) (f : Graph → Graph) (m : Nat) : (s.modGraph n f).grid? m = s.grid? m := rfl
@[simp] theorem State.modGraph_die (s : State) (n : Nat) (f : Graph → Graph) (m : Nat) : (s.modGraph n f).die m = s.die m := rfl
@[simp] theorem State.modGraph_core (s : State) (n : Nat) (f : Graph → Graph) (m : Nat) : (s.modGraph n f).core m = s.core m := rfl
@[simp] theorem State.modGraph_stampOf (s : State) (n : Nat) (f : Graph → Graph) (p : Nat) : (s.modGraph n f).stampOf p = s.stampOf p := rfl

@[simp] theorem State.putVl_copy (s : State) (v : VLine) (a x : Nat) : (s.putVl v).copy a x = s.copy a x := rfl
@[simp] theorem State.putVl_cw (s : State) (v : VLine) (k : Nat) : (s.putVl v).cw k = s.cw k := rfl
@[simp] theorem State.putVl_cwInt (s : State) (v : VLine) (k : Nat) : (s.putVl v).cwInt k = s.cwInt k := rfl
@[simp] theorem State.putVl_frame (s : State) (v : VLine) (f : Nat) : (s.putVl v).frame f = s.frame f := rfl
@[simp] theorem State.putVl_team? (s : State) (v : VLine) (m : Nat) : (s.putVl v).team? m = s.team? m := rfl
@[simp] theorem State.putVl_squad? (s : State) (v : VLine) (m p : Nat) : (s.putVl v).squad? m p = s.squad? m p := rfl
@[simp] theorem State.putVl_thread? (s : State) (v : VLine) (u : TRef) : (s.putVl v).thread? u = s.thread? u := rfl
@[simp] theorem State.putVl_grid? (s : State) (v : VLine) (m : Nat) : (s.putVl v).grid? m = s.grid? m := rfl
@[simp] theorem State.putVl_graph? (s : State) (v : VLine) (m : Nat) : (s.putVl v).graph? m = s.graph? m := rfl
@[simp] theorem State.putVl_die (s : State) (v : VLine) (m : Nat) : (s.putVl v).die m = s.die m := rfl
@[simp] theorem State.putVl_core (s : State) (v : VLine) (m : Nat) : (s.putVl v).core m = s.core m := rfl
@[simp] theorem State.putVl_stampOf (s : State) (v : VLine) (p : Nat) : (s.putVl v).stampOf p = s.stampOf p := rfl

@[simp] theorem State.dropVl_copy (s : State) (x : Nat) (a x' : Nat) : (s.dropVl x).copy a x' = s.copy a x' := rfl
@[simp] theorem State.dropVl_cw (s : State) (x : Nat) (k : Nat) : (s.dropVl x).cw k = s.cw k := rfl
@[simp] theorem State.dropVl_cwInt (s : State) (x : Nat) (k : Nat) : (s.dropVl x).cwInt k = s.cwInt k := rfl
@[simp] theorem State.dropVl_frame (s : State) (x : Nat) (f : Nat) : (s.dropVl x).frame f = s.frame f := rfl
@[simp] theorem State.dropVl_team? (s : State) (x : Nat) (m : Nat) : (s.dropVl x).team? m = s.team? m := rfl
@[simp] theorem State.dropVl_squad? (s : State) (x : Nat) (m p : Nat) : (s.dropVl x).squad? m p = s.squad? m p := rfl
@[simp] theorem State.dropVl_thread? (s : State) (x : Nat) (u : TRef) : (s.dropVl x).thread? u = s.thread? u := rfl
@[simp] theorem State.dropVl_grid? (s : State) (x : Nat) (m : Nat) : (s.dropVl x).grid? m = s.grid? m := rfl
@[simp] theorem State.dropVl_graph? (s : State) (x : Nat) (m : Nat) : (s.dropVl x).graph? m = s.graph? m := rfl
@[simp] theorem State.dropVl_die (s : State) (x : Nat) (m : Nat) : (s.dropVl x).die m = s.die m := rfl
@[simp] theorem State.dropVl_core (s : State) (x : Nat) (m : Nat) : (s.dropVl x).core m = s.core m := rfl
@[simp] theorem State.dropVl_stampOf (s : State) (x : Nat) (p : Nat) : (s.dropVl x).stampOf p = s.stampOf p := rfl

@[simp] theorem State.putCopy_vl (s : State) (c : Copy) (x : Nat) : (s.putCopy c).vl x = s.vl x := rfl
@[simp] theorem State.putCopy_cw (s : State) (c : Copy) (k : Nat) : (s.putCopy c).cw k = s.cw k := rfl
@[simp] theorem State.putCopy_cwInt (s : State) (c : Copy) (k : Nat) : (s.putCopy c).cwInt k = s.cwInt k := rfl
@[simp] theorem State.putCopy_frame (s : State) (c : Copy) (f : Nat) : (s.putCopy c).frame f = s.frame f := rfl
@[simp] theorem State.putCopy_team? (s : State) (c : Copy) (m : Nat) : (s.putCopy c).team? m = s.team? m := rfl
@[simp] theorem State.putCopy_squad? (s : State) (c : Copy) (m p : Nat) : (s.putCopy c).squad? m p = s.squad? m p := rfl
@[simp] theorem State.putCopy_thread? (s : State) (c : Copy) (u : TRef) : (s.putCopy c).thread? u = s.thread? u := rfl
@[simp] theorem State.putCopy_grid? (s : State) (c : Copy) (m : Nat) : (s.putCopy c).grid? m = s.grid? m := rfl
@[simp] theorem State.putCopy_graph? (s : State) (c : Copy) (m : Nat) : (s.putCopy c).graph? m = s.graph? m := rfl
@[simp] theorem State.putCopy_die (s : State) (c : Copy) (m : Nat) : (s.putCopy c).die m = s.die m := rfl
@[simp] theorem State.putCopy_core (s : State) (c : Copy) (m : Nat) : (s.putCopy c).core m = s.core m := rfl
@[simp] theorem State.putCopy_stampOf (s : State) (c : Copy) (p : Nat) : (s.putCopy c).stampOf p = s.stampOf p := rfl

@[simp] theorem State.dropCopy_vl (s : State) (a x : Nat) (x' : Nat) : (s.dropCopy a x).vl x' = s.vl x' := rfl
@[simp] theorem State.dropCopy_cw (s : State) (a x : Nat) (k : Nat) : (s.dropCopy a x).cw k = s.cw k := rfl
@[simp] theorem State.dropCopy_cwInt (s : State) (a x : Nat) (k : Nat) : (s.dropCopy a x).cwInt k = s.cwInt k := rfl
@[simp] theorem State.dropCopy_frame (s : State) (a x : Nat) (f : Nat) : (s.dropCopy a x).frame f = s.frame f := rfl
@[simp] theorem State.dropCopy_team? (s : State) (a x : Nat) (m : Nat) : (s.dropCopy a x).team? m = s.team? m := rfl
@[simp] theorem State.dropCopy_squad? (s : State) (a x : Nat) (m p : Nat) : (s.dropCopy a x).squad? m p = s.squad? m p := rfl
@[simp] theorem State.dropCopy_thread? (s : State) (a x : Nat) (u : TRef) : (s.dropCopy a x).thread? u = s.thread? u := rfl
@[simp] theorem State.dropCopy_grid? (s : State) (a x : Nat) (m : Nat) : (s.dropCopy a x).grid? m = s.grid? m := rfl
@[simp] theorem State.dropCopy_graph? (s : State) (a x : Nat) (m : Nat) : (s.dropCopy a x).graph? m = s.graph? m := rfl
@[simp] theorem State.dropCopy_die (s : State) (a x : Nat) (m : Nat) : (s.dropCopy a x).die m = s.die m := rfl
@[simp] theorem State.dropCopy_core (s : State) (a x : Nat) (m : Nat) : (s.dropCopy a x).core m = s.core m := rfl
@[simp] theorem State.dropCopy_stampOf (s : State) (a x : Nat) (p : Nat) : (s.dropCopy a x).stampOf p = s.stampOf p := rfl

@[simp] theorem State.setFrame_vl (s : State) (f c : Nat) (x : Nat) : (s.setFrame f c).vl x = s.vl x := rfl
@[simp] theorem State.setFrame_copy (s : State) (f c : Nat) (a x : Nat) : (s.setFrame f c).copy a x = s.copy a x := rfl
@[simp] theorem State.setFrame_cw (s : State) (f c : Nat) (k : Nat) : (s.setFrame f c).cw k = s.cw k := rfl
@[simp] theorem State.setFrame_cwInt (s : State) (f c : Nat) (k : Nat) : (s.setFrame f c).cwInt k = s.cwInt k := rfl
@[simp] theorem State.setFrame_team? (s : State) (f c : Nat) (m : Nat) : (s.setFrame f c).team? m = s.team? m := rfl
@[simp] theorem State.setFrame_squad? (s : State) (f c : Nat) (m p : Nat) : (s.setFrame f c).squad? m p = s.squad? m p := rfl
@[simp] theorem State.setFrame_thread? (s : State) (f c : Nat) (u : TRef) : (s.setFrame f c).thread? u = s.thread? u := rfl
@[simp] theorem State.setFrame_grid? (s : State) (f c : Nat) (m : Nat) : (s.setFrame f c).grid? m = s.grid? m := rfl
@[simp] theorem State.setFrame_graph? (s : State) (f c : Nat) (m : Nat) : (s.setFrame f c).graph? m = s.graph? m := rfl
@[simp] theorem State.setFrame_die (s : State) (f c : Nat) (m : Nat) : (s.setFrame f c).die m = s.die m := rfl
@[simp] theorem State.setFrame_core (s : State) (f c : Nat) (m : Nat) : (s.setFrame f c).core m = s.core m := rfl
@[simp] theorem State.setFrame_stampOf (s : State) (f c : Nat) (p : Nat) : (s.setFrame f c).stampOf p = s.stampOf p := rfl

@[simp] theorem State.choose_vl (s : State) (n : Nat) (x : Nat) : ((s.choose n).1).vl x = s.vl x := rfl
@[simp] theorem State.choose_copy (s : State) (n : Nat) (a x : Nat) : ((s.choose n).1).copy a x = s.copy a x := rfl
@[simp] theorem State.choose_cw (s : State) (n : Nat) (k : Nat) : ((s.choose n).1).cw k = s.cw k := rfl
@[simp] theorem State.choose_cwInt (s : State) (n : Nat) (k : Nat) : ((s.choose n).1).cwInt k = s.cwInt k := rfl
@[simp] theorem State.choose_frame (s : State) (n : Nat) (f : Nat) : ((s.choose n).1).frame f = s.frame f := rfl
@[simp] theorem State.choose_team? (s : State) (n : Nat) (m : Nat) : ((s.choose n).1).team? m = s.team? m := rfl
@[simp] theorem State.choose_squad? (s : State) (n : Nat) (m p : Nat) : ((s.choose n).1).squad? m p = s.squad? m p := rfl
@[simp] theorem State.choose_thread? (s : State) (n : Nat) (u : TRef) : ((s.choose n).1).thread? u = s.thread? u := rfl
@[simp] theorem State.choose_grid? (s : State) (n : Nat) (m : Nat) : ((s.choose n).1).grid? m = s.grid? m := rfl
@[simp] theorem State.choose_graph? (s : State) (n : Nat) (m : Nat) : ((s.choose n).1).graph? m = s.graph? m := rfl
@[simp] theorem State.choose_die (s : State) (n : Nat) (m : Nat) : ((s.choose n).1).die m = s.die m := rfl
@[simp] theorem State.choose_core (s : State) (n : Nat) (m : Nat) : ((s.choose n).1).core m = s.core m := rfl
@[simp] theorem State.choose_stampOf (s : State) (n : Nat) (p : Nat) : ((s.choose n).1).stampOf p = s.stampOf p := rfl

@[simp] theorem State.unfilter_vl (s : State) (x : Nat) (l : List Nat) (x' : Nat) : (s.unfilter x l).vl x' = s.vl x' := rfl
@[simp] theorem State.unfilter_copy (s : State) (x : Nat) (l : List Nat) (a x' : Nat) : (s.unfilter x l).copy a x' = s.copy a x' := rfl
@[simp] theorem State.unfilter_cw (s : State) (x : Nat) (l : List Nat) (k : Nat) : (s.unfilter x l).cw k = s.cw k := rfl
@[simp] theorem State.unfilter_cwInt (s : State) (x : Nat) (l : List Nat) (k : Nat) : (s.unfilter x l).cwInt k = s.cwInt k := rfl
@[simp] theorem State.unfilter_frame (s : State) (x : Nat) (l : List Nat) (f : Nat) : (s.unfilter x l).frame f = s.frame f := rfl
@[simp] theorem State.unfilter_team? (s : State) (x : Nat) (l : List Nat) (m : Nat) : (s.unfilter x l).team? m = s.team? m := rfl
@[simp] theorem State.unfilter_squad? (s : State) (x : Nat) (l : List Nat) (m p : Nat) : (s.unfilter x l).squad? m p = s.squad? m p := rfl
@[simp] theorem State.unfilter_thread? (s : State) (x : Nat) (l : List Nat) (u : TRef) : (s.unfilter x l).thread? u = s.thread? u := rfl
@[simp] theorem State.unfilter_grid? (s : State) (x : Nat) (l : List Nat) (m : Nat) : (s.unfilter x l).grid? m = s.grid? m := rfl
@[simp] theorem State.unfilter_graph? (s : State) (x : Nat) (l : List Nat) (m : Nat) : (s.unfilter x l).graph? m = s.graph? m := rfl
@[simp] theorem State.unfilter_core (s : State) (x : Nat) (l : List Nat) (m : Nat) : (s.unfilter x l).core m = s.core m := rfl
@[simp] theorem State.unfilter_stampOf (s : State) (x : Nat) (l : List Nat) (p : Nat) : (s.unfilter x l).stampOf p = s.stampOf p := rfl

@[simp] theorem State.nextSerial_vl (s : State) (x : Nat) (x' : Nat) : ((s.nextSerial x).1).vl x' = s.vl x' := rfl
@[simp] theorem State.nextSerial_copy (s : State) (x : Nat) (a x' : Nat) : ((s.nextSerial x).1).copy a x' = s.copy a x' := rfl
@[simp] theorem State.nextSerial_cw (s : State) (x : Nat) (k : Nat) : ((s.nextSerial x).1).cw k = s.cw k := rfl
@[simp] theorem State.nextSerial_cwInt (s : State) (x : Nat) (k : Nat) : ((s.nextSerial x).1).cwInt k = s.cwInt k := rfl
@[simp] theorem State.nextSerial_frame (s : State) (x : Nat) (f : Nat) : ((s.nextSerial x).1).frame f = s.frame f := rfl
@[simp] theorem State.nextSerial_team? (s : State) (x : Nat) (m : Nat) : ((s.nextSerial x).1).team? m = s.team? m := rfl
@[simp] theorem State.nextSerial_squad? (s : State) (x : Nat) (m p : Nat) : ((s.nextSerial x).1).squad? m p = s.squad? m p := rfl
@[simp] theorem State.nextSerial_thread? (s : State) (x : Nat) (u : TRef) : ((s.nextSerial x).1).thread? u = s.thread? u := rfl
@[simp] theorem State.nextSerial_grid? (s : State) (x : Nat) (m : Nat) : ((s.nextSerial x).1).grid? m = s.grid? m := rfl
@[simp] theorem State.nextSerial_graph? (s : State) (x : Nat) (m : Nat) : ((s.nextSerial x).1).graph? m = s.graph? m := rfl
@[simp] theorem State.nextSerial_die (s : State) (x : Nat) (m : Nat) : ((s.nextSerial x).1).die m = s.die m := rfl
@[simp] theorem State.nextSerial_core (s : State) (x : Nat) (m : Nat) : ((s.nextSerial x).1).core m = s.core m := rfl
@[simp] theorem State.nextSerial_stampOf (s : State) (x : Nat) (p : Nat) : ((s.nextSerial x).1).stampOf p = s.stampOf p := rfl

@[simp] theorem State.noteWrite_vl (s : State) (x : Nat) (x' : Nat) : (s.noteWrite x).vl x' = s.vl x' := rfl
@[simp] theorem State.noteWrite_copy (s : State) (x : Nat) (a x' : Nat) : (s.noteWrite x).copy a x' = s.copy a x' := rfl
@[simp] theorem State.noteWrite_cw (s : State) (x : Nat) (k : Nat) : (s.noteWrite x).cw k = s.cw k := rfl
@[simp] theorem State.noteWrite_cwInt (s : State) (x : Nat) (k : Nat) : (s.noteWrite x).cwInt k = s.cwInt k := rfl
@[simp] theorem State.noteWrite_frame (s : State) (x : Nat) (f : Nat) : (s.noteWrite x).frame f = s.frame f := rfl
@[simp] theorem State.noteWrite_team? (s : State) (x : Nat) (m : Nat) : (s.noteWrite x).team? m = s.team? m := rfl
@[simp] theorem State.noteWrite_squad? (s : State) (x : Nat) (m p : Nat) : (s.noteWrite x).squad? m p = s.squad? m p := rfl
@[simp] theorem State.noteWrite_thread? (s : State) (x : Nat) (u : TRef) : (s.noteWrite x).thread? u = s.thread? u := rfl
@[simp] theorem State.noteWrite_grid? (s : State) (x : Nat) (m : Nat) : (s.noteWrite x).grid? m = s.grid? m := rfl
@[simp] theorem State.noteWrite_graph? (s : State) (x : Nat) (m : Nat) : (s.noteWrite x).graph? m = s.graph? m := rfl
@[simp] theorem State.noteWrite_die (s : State) (x : Nat) (m : Nat) : (s.noteWrite x).die m = s.die m := rfl
@[simp] theorem State.noteWrite_core (s : State) (x : Nat) (m : Nat) : (s.noteWrite x).core m = s.core m := rfl
@[simp] theorem State.noteWrite_stampOf (s : State) (x : Nat) (p : Nat) : (s.noteWrite x).stampOf p = s.stampOf p := rfl

end Sys2Proof.Machine
end

