-- ==== Sys2Proof/Laws/Frames.lean ====
section
/-! SUPPORT. What the shared operations over memory and events leave as it was. -/

namespace Sys2Proof.Machine

/-- What no step of a fold changes, the fold does not change. -/
theorem foldl_keeps {α β γ : Type} (g : β → γ) (f : β → α → β) (h : ∀ b a, g (f b a) = g b) (l : List α) (b : β) : g (l.foldl f b) = g b := by
  induction l generalizing b with
  | nil => rfl
  | cons a l ih => rw [List.foldl_cons, ih, h]

@[simp] theorem State.laterOnce_hbm (s : State) (i : Instr) : (s.laterOnce i).hbm = s.hbm := by unfold State.laterOnce; split <;> rfl
@[simp] theorem State.laterOnce_vlines (s : State) (i : Instr) : (s.laterOnce i).vlines = s.vlines := by unfold State.laterOnce; split <;> rfl
@[simp] theorem State.laterOnce_fillq (s : State) (i : Instr) : (s.laterOnce i).fillq = s.fillq := by unfold State.laterOnce; split <;> rfl
@[simp] theorem State.laterOnce_copies (s : State) (i : Instr) : (s.laterOnce i).copies = s.copies := by unfold State.laterOnce; split <;> rfl
@[simp] theorem State.laterOnce_dies (s : State) (i : Instr) : (s.laterOnce i).dies = s.dies := by unfold State.laterOnce; split <;> rfl
@[simp] theorem State.laterOnce_frames (s : State) (i : Instr) : (s.laterOnce i).frames = s.frames := by unfold State.laterOnce; split <;> rfl
@[simp] theorem State.laterOnce_scores (s : State) (i : Instr) : (s.laterOnce i).scores = s.scores := by unfold State.laterOnce; split <;> rfl
@[simp] theorem State.laterOnce_cores (s : State) (i : Instr) : (s.laterOnce i).cores = s.cores := by unfold State.laterOnce; split <;> rfl
@[simp] theorem State.laterOnce_teams (s : State) (i : Instr) : (s.laterOnce i).teams = s.teams := by unfold State.laterOnce; split <;> rfl
@[simp] theorem State.laterOnce_grids (s : State) (i : Instr) : (s.laterOnce i).grids = s.grids := by unfold State.laterOnce; split <;> rfl
@[simp] theorem State.laterOnce_graphs (s : State) (i : Instr) : (s.laterOnce i).graphs = s.graphs := by unfold State.laterOnce; split <;> rfl
@[simp] theorem State.laterOnce_stamps (s : State) (i : Instr) : (s.laterOnce i).stamps = s.stamps := by unfold State.laterOnce; split <;> rfl
@[simp] theorem State.laterOnce_ctl (s : State) (i : Instr) : (s.laterOnce i).ctl = s.ctl := by unfold State.laterOnce; split <;> rfl
@[simp] theorem State.laterOnce_issue (s : State) (i : Instr) : (s.laterOnce i).issue = s.issue := by unfold State.laterOnce; split <;> rfl
@[simp] theorem State.laterOnce_tick (s : State) (i : Instr) : (s.laterOnce i).tick = s.tick := by unfold State.laterOnce; split <;> rfl
@[simp] theorem State.laterOnce_nv (s : State) (i : Instr) : (s.laterOnce i).nv = s.nv := by unfold State.laterOnce; split <;> rfl
@[simp] theorem State.laterOnce_staging (s : State) (i : Instr) : (s.laterOnce i).staging = s.staging := by unfold State.laterOnce; split <;> rfl
@[simp] theorem State.laterOnce_down (s : State) (i : Instr) : (s.laterOnce i).down = s.down := by unfold State.laterOnce; split <;> rfl
@[simp] theorem State.laterOnce_flits (s : State) (i : Instr) : (s.laterOnce i).flits = s.flits := by unfold State.laterOnce; split <;> rfl
@[simp] theorem State.laterOnce_cycle (s : State) (i : Instr) : (s.laterOnce i).cycle = s.cycle := by unfold State.laterOnce; split <;> rfl

@[simp] theorem State.killGrid_hbm (s : State) (g : Nat) : (s.killGrid g).hbm = s.hbm := by unfold State.killGrid; split <;> simp [foldl_keeps State.hbm _ (fun (b : State) (a : Nat) => State.laterOnce_hbm b _)]
@[simp] theorem State.killGrid_vlines (s : State) (g : Nat) : (s.killGrid g).vlines = s.vlines := by unfold State.killGrid; split <;> simp [foldl_keeps State.vlines _ (fun (b : State) (a : Nat) => State.laterOnce_vlines b _)]
@[simp] theorem State.killGrid_fillq (s : State) (g : Nat) : (s.killGrid g).fillq = s.fillq := by unfold State.killGrid; split <;> simp [foldl_keeps State.fillq _ (fun (b : State) (a : Nat) => State.laterOnce_fillq b _)]
@[simp] theorem State.killGrid_copies (s : State) (g : Nat) : (s.killGrid g).copies = s.copies := by unfold State.killGrid; split <;> simp [foldl_keeps State.copies _ (fun (b : State) (a : Nat) => State.laterOnce_copies b _)]
@[simp] theorem State.killGrid_dies (s : State) (g : Nat) : (s.killGrid g).dies = s.dies := by unfold State.killGrid; split <;> simp [foldl_keeps State.dies _ (fun (b : State) (a : Nat) => State.laterOnce_dies b _)]
@[simp] theorem State.killGrid_frames (s : State) (g : Nat) : (s.killGrid g).frames = s.frames := by unfold State.killGrid; split <;> simp [foldl_keeps State.frames _ (fun (b : State) (a : Nat) => State.laterOnce_frames b _)]
@[simp] theorem State.killGrid_scores (s : State) (g : Nat) : (s.killGrid g).scores = s.scores := by unfold State.killGrid; split <;> simp [foldl_keeps State.scores _ (fun (b : State) (a : Nat) => State.laterOnce_scores b _)]
@[simp] theorem State.killGrid_cores (s : State) (g : Nat) : (s.killGrid g).cores = s.cores := by unfold State.killGrid; split <;> simp [foldl_keeps State.cores _ (fun (b : State) (a : Nat) => State.laterOnce_cores b _)]
@[simp] theorem State.killGrid_graphs (s : State) (g : Nat) : (s.killGrid g).graphs = s.graphs := by unfold State.killGrid; split <;> simp [foldl_keeps State.graphs _ (fun (b : State) (a : Nat) => State.laterOnce_graphs b _)]
@[simp] theorem State.killGrid_stamps (s : State) (g : Nat) : (s.killGrid g).stamps = s.stamps := by unfold State.killGrid; split <;> simp [foldl_keeps State.stamps _ (fun (b : State) (a : Nat) => State.laterOnce_stamps b _)]
@[simp] theorem State.killGrid_ctl (s : State) (g : Nat) : (s.killGrid g).ctl = s.ctl := by unfold State.killGrid; split <;> simp [foldl_keeps State.ctl _ (fun (b : State) (a : Nat) => State.laterOnce_ctl b _)]
@[simp] theorem State.killGrid_issue (s : State) (g : Nat) : (s.killGrid g).issue = s.issue := by unfold State.killGrid; split <;> simp [foldl_keeps State.issue _ (fun (b : State) (a : Nat) => State.laterOnce_issue b _)]
@[simp] theorem State.killGrid_tick (s : State) (g : Nat) : (s.killGrid g).tick = s.tick := by unfold State.killGrid; split <;> simp [foldl_keeps State.tick _ (fun (b : State) (a : Nat) => State.laterOnce_tick b _)]
@[simp] theorem State.killGrid_nv (s : State) (g : Nat) : (s.killGrid g).nv = s.nv := by unfold State.killGrid; split <;> simp [foldl_keeps State.nv _ (fun (b : State) (a : Nat) => State.laterOnce_nv b _)]
@[simp] theorem State.killGrid_staging (s : State) (g : Nat) : (s.killGrid g).staging = s.staging := by unfold State.killGrid; split <;> simp [foldl_keeps State.staging _ (fun (b : State) (a : Nat) => State.laterOnce_staging b _)]
@[simp] theorem State.killGrid_down (s : State) (g : Nat) : (s.killGrid g).down = s.down := by unfold State.killGrid; split <;> simp [foldl_keeps State.down _ (fun (b : State) (a : Nat) => State.laterOnce_down b _)]
@[simp] theorem State.killGrid_flits (s : State) (g : Nat) : (s.killGrid g).flits = s.flits := by unfold State.killGrid; split <;> simp [foldl_keeps State.flits _ (fun (b : State) (a : Nat) => State.laterOnce_flits b _)]
@[simp] theorem State.killGrid_cycle (s : State) (g : Nat) : (s.killGrid g).cycle = s.cycle := by unfold State.killGrid; split <;> simp [foldl_keeps State.cycle _ (fun (b : State) (a : Nat) => State.laterOnce_cycle b _)]

@[simp] theorem State.logLine_hbm (s : State) (e : Event) (act : Int) (b : Bool) : (s.logLine e act b).hbm = s.hbm := by unfold State.logLine; simp only; (repeat' split) <;> rfl
@[simp] theorem State.logLine_vlines (s : State) (e : Event) (act : Int) (b : Bool) : (s.logLine e act b).vlines = s.vlines := by unfold State.logLine; simp only; (repeat' split) <;> rfl
@[simp] theorem State.logLine_fillq (s : State) (e : Event) (act : Int) (b : Bool) : (s.logLine e act b).fillq = s.fillq := by unfold State.logLine; simp only; (repeat' split) <;> rfl
@[simp] theorem State.logLine_copies (s : State) (e : Event) (act : Int) (b : Bool) : (s.logLine e act b).copies = s.copies := by unfold State.logLine; simp only; (repeat' split) <;> rfl
@[simp] theorem State.logLine_dies (s : State) (e : Event) (act : Int) (b : Bool) : (s.logLine e act b).dies = s.dies := by unfold State.logLine; simp only; (repeat' split) <;> rfl
@[simp] theorem State.logLine_frames (s : State) (e : Event) (act : Int) (b : Bool) : (s.logLine e act b).frames = s.frames := by unfold State.logLine; simp only; (repeat' split) <;> rfl
@[simp] theorem State.logLine_scores (s : State) (e : Event) (act : Int) (b : Bool) : (s.logLine e act b).scores = s.scores := by unfold State.logLine; simp only; (repeat' split) <;> rfl
@[simp] theorem State.logLine_cores (s : State) (e : Event) (act : Int) (b : Bool) : (s.logLine e act b).cores = s.cores := by unfold State.logLine; simp only; (repeat' split) <;> rfl
@[simp] theorem State.logLine_teams (s : State) (e : Event) (act : Int) (b : Bool) : (s.logLine e act b).teams = s.teams := by unfold State.logLine; simp only; (repeat' split) <;> rfl
@[simp] theorem State.logLine_grids (s : State) (e : Event) (act : Int) (b : Bool) : (s.logLine e act b).grids = s.grids := by unfold State.logLine; simp only; (repeat' split) <;> rfl
@[simp] theorem State.logLine_graphs (s : State) (e : Event) (act : Int) (b : Bool) : (s.logLine e act b).graphs = s.graphs := by unfold State.logLine; simp only; (repeat' split) <;> rfl
@[simp] theorem State.logLine_stamps (s : State) (e : Event) (act : Int) (b : Bool) : (s.logLine e act b).stamps = s.stamps := by unfold State.logLine; simp only; (repeat' split) <;> rfl
@[simp] theorem State.logLine_ctl (s : State) (e : Event) (act : Int) (b : Bool) : (s.logLine e act b).ctl = s.ctl := by unfold State.logLine; simp only; (repeat' split) <;> rfl
@[simp] theorem State.logLine_issue (s : State) (e : Event) (act : Int) (b : Bool) : (s.logLine e act b).issue = s.issue := by unfold State.logLine; simp only; (repeat' split) <;> rfl
@[simp] theorem State.logLine_tick (s : State) (e : Event) (act : Int) (b : Bool) : (s.logLine e act b).tick = s.tick := by unfold State.logLine; simp only; (repeat' split) <;> rfl
@[simp] theorem State.logLine_nv (s : State) (e : Event) (act : Int) (b : Bool) : (s.logLine e act b).nv = s.nv := by unfold State.logLine; simp only; (repeat' split) <;> rfl
@[simp] theorem State.logLine_staging (s : State) (e : Event) (act : Int) (b : Bool) : (s.logLine e act b).staging = s.staging := by unfold State.logLine; simp only; (repeat' split) <;> rfl
@[simp] theorem State.logLine_down (s : State) (e : Event) (act : Int) (b : Bool) : (s.logLine e act b).down = s.down := by unfold State.logLine; simp only; (repeat' split) <;> rfl
@[simp] theorem State.logLine_flits (s : State) (e : Event) (act : Int) (b : Bool) : (s.logLine e act b).flits = s.flits := by unfold State.logLine; simp only; (repeat' split) <;> rfl
@[simp] theorem State.logLine_cycle (s : State) (e : Event) (act : Int) (b : Bool) : (s.logLine e act b).cycle = s.cycle := by unfold State.logLine; simp only; (repeat' split) <;> rfl

@[simp] theorem State.raise_hbm (s : State) (e : Event) : (s.raise e).hbm = s.hbm := by unfold State.raise; simp only; (repeat' split) <;> simp
@[simp] theorem State.raise_vlines (s : State) (e : Event) : (s.raise e).vlines = s.vlines := by unfold State.raise; simp only; (repeat' split) <;> simp
@[simp] theorem State.raise_fillq (s : State) (e : Event) : (s.raise e).fillq = s.fillq := by unfold State.raise; simp only; (repeat' split) <;> simp
@[simp] theorem State.raise_copies (s : State) (e : Event) : (s.raise e).copies = s.copies := by unfold State.raise; simp only; (repeat' split) <;> simp
@[simp] theorem State.raise_dies (s : State) (e : Event) : (s.raise e).dies = s.dies := by unfold State.raise; simp only; (repeat' split) <;> simp
@[simp] theorem State.raise_frames (s : State) (e : Event) : (s.raise e).frames = s.frames := by unfold State.raise; simp only; (repeat' split) <;> simp
@[simp] theorem State.raise_scores (s : State) (e : Event) : (s.raise e).scores = s.scores := by unfold State.raise; simp only; (repeat' split) <;> simp
@[simp] theorem State.raise_cores (s : State) (e : Event) : (s.raise e).cores = s.cores := by unfold State.raise; simp only; (repeat' split) <;> simp
@[simp] theorem State.raise_graphs (s : State) (e : Event) : (s.raise e).graphs = s.graphs := by unfold State.raise; simp only; (repeat' split) <;> simp
@[simp] theorem State.raise_stamps (s : State) (e : Event) : (s.raise e).stamps = s.stamps := by unfold State.raise; simp only; (repeat' split) <;> simp
@[simp] theorem State.raise_ctl (s : State) (e : Event) : (s.raise e).ctl = s.ctl := by unfold State.raise; simp only; (repeat' split) <;> simp
@[simp] theorem State.raise_issue (s : State) (e : Event) : (s.raise e).issue = s.issue := by unfold State.raise; simp only; (repeat' split) <;> simp
@[simp] theorem State.raise_tick (s : State) (e : Event) : (s.raise e).tick = s.tick := by unfold State.raise; simp only; (repeat' split) <;> simp
@[simp] theorem State.raise_nv (s : State) (e : Event) : (s.raise e).nv = s.nv := by unfold State.raise; simp only; (repeat' split) <;> simp
@[simp] theorem State.raise_staging (s : State) (e : Event) : (s.raise e).staging = s.staging := by unfold State.raise; simp only; (repeat' split) <;> simp
@[simp] theorem State.raise_down (s : State) (e : Event) : (s.raise e).down = s.down := by unfold State.raise; simp only; (repeat' split) <;> simp
@[simp] theorem State.raise_flits (s : State) (e : Event) : (s.raise e).flits = s.flits := by unfold State.raise; simp only; (repeat' split) <;> simp
@[simp] theorem State.raise_cycle (s : State) (e : Event) : (s.raise e).cycle = s.cycle := by unfold State.raise; simp only; (repeat' split) <;> simp

@[simp] theorem State.raiseFixed_hbm (s : State) (l : List Nat) (a x : Nat) : (s.raiseFixed l a x).hbm = s.hbm := foldl_keeps State.hbm _ (fun _ _ => by simp) _ s
@[simp] theorem State.raiseFixed_vlines (s : State) (l : List Nat) (a x : Nat) : (s.raiseFixed l a x).vlines = s.vlines := foldl_keeps State.vlines _ (fun _ _ => by simp) _ s
@[simp] theorem State.raiseFixed_fillq (s : State) (l : List Nat) (a x : Nat) : (s.raiseFixed l a x).fillq = s.fillq := foldl_keeps State.fillq _ (fun _ _ => by simp) _ s
@[simp] theorem State.raiseFixed_copies (s : State) (l : List Nat) (a x : Nat) : (s.raiseFixed l a x).copies = s.copies := foldl_keeps State.copies _ (fun _ _ => by simp) _ s
@[simp] theorem State.raiseFixed_dies (s : State) (l : List Nat) (a x : Nat) : (s.raiseFixed l a x).dies = s.dies := foldl_keeps State.dies _ (fun _ _ => by simp) _ s
@[simp] theorem State.raiseFixed_frames (s : State) (l : List Nat) (a x : Nat) : (s.raiseFixed l a x).frames = s.frames := foldl_keeps State.frames _ (fun _ _ => by simp) _ s
@[simp] theorem State.raiseFixed_scores (s : State) (l : List Nat) (a x : Nat) : (s.raiseFixed l a x).scores = s.scores := foldl_keeps State.scores _ (fun _ _ => by simp) _ s
@[simp] theorem State.raiseFixed_cores (s : State) (l : List Nat) (a x : Nat) : (s.raiseFixed l a x).cores = s.cores := foldl_keeps State.cores _ (fun _ _ => by simp) _ s
@[simp] theorem State.raiseFixed_graphs (s : State) (l : List Nat) (a x : Nat) : (s.raiseFixed l a x).graphs = s.graphs := foldl_keeps State.graphs _ (fun _ _ => by simp) _ s
@[simp] theorem State.raiseFixed_stamps (s : State) (l : List Nat) (a x : Nat) : (s.raiseFixed l a x).stamps = s.stamps := foldl_keeps State.stamps _ (fun _ _ => by simp) _ s
@[simp] theorem State.raiseFixed_ctl (s : State) (l : List Nat) (a x : Nat) : (s.raiseFixed l a x).ctl = s.ctl := foldl_keeps State.ctl _ (fun _ _ => by simp) _ s
@[simp] theorem State.raiseFixed_issue (s : State) (l : List Nat) (a x : Nat) : (s.raiseFixed l a x).issue = s.issue := foldl_keeps State.issue _ (fun _ _ => by simp) _ s
@[simp] theorem State.raiseFixed_tick (s : State) (l : List Nat) (a x : Nat) : (s.raiseFixed l a x).tick = s.tick := foldl_keeps State.tick _ (fun _ _ => by simp) _ s
@[simp] theorem State.raiseFixed_nv (s : State) (l : List Nat) (a x : Nat) : (s.raiseFixed l a x).nv = s.nv := foldl_keeps State.nv _ (fun _ _ => by simp) _ s
@[simp] theorem State.raiseFixed_staging (s : State) (l : List Nat) (a x : Nat) : (s.raiseFixed l a x).staging = s.staging := foldl_keeps State.staging _ (fun _ _ => by simp) _ s
@[simp] theorem State.raiseFixed_down (s : State) (l : List Nat) (a x : Nat) : (s.raiseFixed l a x).down = s.down := foldl_keeps State.down _ (fun _ _ => by simp) _ s
@[simp] theorem State.raiseFixed_flits (s : State) (l : List Nat) (a x : Nat) : (s.raiseFixed l a x).flits = s.flits := foldl_keeps State.flits _ (fun _ _ => by simp) _ s
@[simp] theorem State.raiseFixed_cycle (s : State) (l : List Nat) (a x : Nat) : (s.raiseFixed l a x).cycle = s.cycle := foldl_keeps State.cycle _ (fun _ _ => by simp) _ s

@[simp] theorem State.orphan_hbm (s : State) (b : Bool) (a x : Nat) : (s.orphan b a x).hbm = s.hbm := by unfold State.orphan; split <;> simp
@[simp] theorem State.orphan_vlines (s : State) (b : Bool) (a x : Nat) : (s.orphan b a x).vlines = s.vlines := by unfold State.orphan; split <;> simp
@[simp] theorem State.orphan_fillq (s : State) (b : Bool) (a x : Nat) : (s.orphan b a x).fillq = s.fillq := by unfold State.orphan; split <;> simp
@[simp] theorem State.orphan_copies (s : State) (b : Bool) (a x : Nat) : (s.orphan b a x).copies = s.copies := by unfold State.orphan; split <;> simp
@[simp] theorem State.orphan_dies (s : State) (b : Bool) (a x : Nat) : (s.orphan b a x).dies = s.dies := by unfold State.orphan; split <;> simp
@[simp] theorem State.orphan_frames (s : State) (b : Bool) (a x : Nat) : (s.orphan b a x).frames = s.frames := by unfold State.orphan; split <;> simp
@[simp] theorem State.orphan_scores (s : State) (b : Bool) (a x : Nat) : (s.orphan b a x).scores = s.scores := by unfold State.orphan; split <;> simp
@[simp] theorem State.orphan_cores (s : State) (b : Bool) (a x : Nat) : (s.orphan b a x).cores = s.cores := by unfold State.orphan; split <;> simp
@[simp] theorem State.orphan_graphs (s : State) (b : Bool) (a x : Nat) : (s.orphan b a x).graphs = s.graphs := by unfold State.orphan; split <;> simp
@[simp] theorem State.orphan_stamps (s : State) (b : Bool) (a x : Nat) : (s.orphan b a x).stamps = s.stamps := by unfold State.orphan; split <;> simp
@[simp] theorem State.orphan_ctl (s : State) (b : Bool) (a x : Nat) : (s.orphan b a x).ctl = s.ctl := by unfold State.orphan; split <;> simp
@[simp] theorem State.orphan_issue (s : State) (b : Bool) (a x : Nat) : (s.orphan b a x).issue = s.issue := by unfold State.orphan; split <;> simp
@[simp] theorem State.orphan_tick (s : State) (b : Bool) (a x : Nat) : (s.orphan b a x).tick = s.tick := by unfold State.orphan; split <;> simp
@[simp] theorem State.orphan_nv (s : State) (b : Bool) (a x : Nat) : (s.orphan b a x).nv = s.nv := by unfold State.orphan; split <;> simp
@[simp] theorem State.orphan_staging (s : State) (b : Bool) (a x : Nat) : (s.orphan b a x).staging = s.staging := by unfold State.orphan; split <;> simp
@[simp] theorem State.orphan_down (s : State) (b : Bool) (a x : Nat) : (s.orphan b a x).down = s.down := by unfold State.orphan; split <;> simp
@[simp] theorem State.orphan_flits (s : State) (b : Bool) (a x : Nat) : (s.orphan b a x).flits = s.flits := by unfold State.orphan; split <;> simp
@[simp] theorem State.orphan_cycle (s : State) (b : Bool) (a x : Nat) : (s.orphan b a x).cycle = s.cycle := by unfold State.orphan; split <;> simp

@[simp] theorem State.refuseUnit_hbm (s : State) (x : Nat) : (s.refuseUnit x).hbm = s.hbm := by unfold State.refuseUnit; split <;> simp
@[simp] theorem State.refuseUnit_vlines (s : State) (x : Nat) : (s.refuseUnit x).vlines = s.vlines := by unfold State.refuseUnit; split <;> simp
@[simp] theorem State.refuseUnit_fillq (s : State) (x : Nat) : (s.refuseUnit x).fillq = s.fillq := by unfold State.refuseUnit; split <;> simp
@[simp] theorem State.refuseUnit_copies (s : State) (x : Nat) : (s.refuseUnit x).copies = s.copies := by unfold State.refuseUnit; split <;> simp
@[simp] theorem State.refuseUnit_dies (s : State) (x : Nat) : (s.refuseUnit x).dies = s.dies := by unfold State.refuseUnit; split <;> simp
@[simp] theorem State.refuseUnit_frames (s : State) (x : Nat) : (s.refuseUnit x).frames = s.frames := by unfold State.refuseUnit; split <;> simp
@[simp] theorem State.refuseUnit_scores (s : State) (x : Nat) : (s.refuseUnit x).scores = s.scores := by unfold State.refuseUnit; split <;> simp
@[simp] theorem State.refuseUnit_cores (s : State) (x : Nat) : (s.refuseUnit x).cores = s.cores := by unfold State.refuseUnit; split <;> simp
@[simp] theorem State.refuseUnit_graphs (s : State) (x : Nat) : (s.refuseUnit x).graphs = s.graphs := by unfold State.refuseUnit; split <;> simp
@[simp] theorem State.refuseUnit_stamps (s : State) (x : Nat) : (s.refuseUnit x).stamps = s.stamps := by unfold State.refuseUnit; split <;> simp
@[simp] theorem State.refuseUnit_ctl (s : State) (x : Nat) : (s.refuseUnit x).ctl = s.ctl := by unfold State.refuseUnit; split <;> simp
@[simp] theorem State.refuseUnit_issue (s : State) (x : Nat) : (s.refuseUnit x).issue = s.issue := by unfold State.refuseUnit; split <;> simp
@[simp] theorem State.refuseUnit_tick (s : State) (x : Nat) : (s.refuseUnit x).tick = s.tick := by unfold State.refuseUnit; split <;> simp
@[simp] theorem State.refuseUnit_nv (s : State) (x : Nat) : (s.refuseUnit x).nv = s.nv := by unfold State.refuseUnit; split <;> simp
@[simp] theorem State.refuseUnit_staging (s : State) (x : Nat) : (s.refuseUnit x).staging = s.staging := by unfold State.refuseUnit; split <;> simp
@[simp] theorem State.refuseUnit_down (s : State) (x : Nat) : (s.refuseUnit x).down = s.down := by unfold State.refuseUnit; split <;> simp
@[simp] theorem State.refuseUnit_flits (s : State) (x : Nat) : (s.refuseUnit x).flits = s.flits := by unfold State.refuseUnit; split <;> simp
@[simp] theorem State.refuseUnit_cycle (s : State) (x : Nat) : (s.refuseUnit x).cycle = s.cycle := by unfold State.refuseUnit; split <;> simp

@[simp] theorem State.score_hbm (s : State) (x k : Nat) : (s.score x k).hbm = s.hbm := by unfold State.score; simp only; split <;> simp
@[simp] theorem State.score_vlines (s : State) (x k : Nat) : (s.score x k).vlines = s.vlines := by unfold State.score; simp only; split <;> simp
@[simp] theorem State.score_fillq (s : State) (x k : Nat) : (s.score x k).fillq = s.fillq := by unfold State.score; simp only; split <;> simp
@[simp] theorem State.score_copies (s : State) (x k : Nat) : (s.score x k).copies = s.copies := by unfold State.score; simp only; split <;> simp
@[simp] theorem State.score_dies (s : State) (x k : Nat) : (s.score x k).dies = s.dies := by unfold State.score; simp only; split <;> simp
@[simp] theorem State.score_frames (s : State) (x k : Nat) : (s.score x k).frames = s.frames := by unfold State.score; simp only; split <;> simp
@[simp] theorem State.score_cores (s : State) (x k : Nat) : (s.score x k).cores = s.cores := by unfold State.score; simp only; split <;> simp
@[simp] theorem State.score_graphs (s : State) (x k : Nat) : (s.score x k).graphs = s.graphs := by unfold State.score; simp only; split <;> simp
@[simp] theorem State.score_stamps (s : State) (x k : Nat) : (s.score x k).stamps = s.stamps := by unfold State.score; simp only; split <;> simp
@[simp] theorem State.score_ctl (s : State) (x k : Nat) : (s.score x k).ctl = s.ctl := by unfold State.score; simp only; split <;> simp
@[simp] theorem State.score_issue (s : State) (x k : Nat) : (s.score x k).issue = s.issue := by unfold State.score; simp only; split <;> simp
@[simp] theorem State.score_tick (s : State) (x k : Nat) : (s.score x k).tick = s.tick := by unfold State.score; simp only; split <;> simp
@[simp] theorem State.score_nv (s : State) (x k : Nat) : (s.score x k).nv = s.nv := by unfold State.score; simp only; split <;> simp
@[simp] theorem State.score_staging (s : State) (x k : Nat) : (s.score x k).staging = s.staging := by unfold State.score; simp only; split <;> simp
@[simp] theorem State.score_down (s : State) (x k : Nat) : (s.score x k).down = s.down := by unfold State.score; simp only; split <;> simp
@[simp] theorem State.score_flits (s : State) (x k : Nat) : (s.score x k).flits = s.flits := by unfold State.score; simp only; split <;> simp
@[simp] theorem State.score_cycle (s : State) (x k : Nat) : (s.score x k).cycle = s.cycle := by unfold State.score; simp only; split <;> simp

@[simp] theorem State.uncorrectable_hbm (s : State) (x : Nat) : (s.uncorrectable x).hbm = s.hbm := by simp [State.uncorrectable]
@[simp] theorem State.uncorrectable_vlines (s : State) (x : Nat) : (s.uncorrectable x).vlines = s.vlines := by simp [State.uncorrectable]
@[simp] theorem State.uncorrectable_fillq (s : State) (x : Nat) : (s.uncorrectable x).fillq = s.fillq := by simp [State.uncorrectable]
@[simp] theorem State.uncorrectable_copies (s : State) (x : Nat) : (s.uncorrectable x).copies = s.copies := by simp [State.uncorrectable]
@[simp] theorem State.uncorrectable_dies (s : State) (x : Nat) : (s.uncorrectable x).dies = s.dies := by simp [State.uncorrectable]
@[simp] theorem State.uncorrectable_frames (s : State) (x : Nat) : (s.uncorrectable x).frames = s.frames := by simp [State.uncorrectable]
@[simp] theorem State.uncorrectable_cores (s : State) (x : Nat) : (s.uncorrectable x).cores = s.cores := by simp [State.uncorrectable]
@[simp] theorem State.uncorrectable_graphs (s : State) (x : Nat) : (s.uncorrectable x).graphs = s.graphs := by simp [State.uncorrectable]
@[simp] theorem State.uncorrectable_stamps (s : State) (x : Nat) : (s.uncorrectable x).stamps = s.stamps := by simp [State.uncorrectable]
@[simp] theorem State.uncorrectable_ctl (s : State) (x : Nat) : (s.uncorrectable x).ctl = s.ctl := by simp [State.uncorrectable]
@[simp] theorem State.uncorrectable_issue (s : State) (x : Nat) : (s.uncorrectable x).issue = s.issue := by simp [State.uncorrectable]
@[simp] theorem State.uncorrectable_tick (s : State) (x : Nat) : (s.uncorrectable x).tick = s.tick := by simp [State.uncorrectable]
@[simp] theorem State.uncorrectable_nv (s : State) (x : Nat) : (s.uncorrectable x).nv = s.nv := by simp [State.uncorrectable]
@[simp] theorem State.uncorrectable_staging (s : State) (x : Nat) : (s.uncorrectable x).staging = s.staging := by simp [State.uncorrectable]
@[simp] theorem State.uncorrectable_down (s : State) (x : Nat) : (s.uncorrectable x).down = s.down := by simp [State.uncorrectable]
@[simp] theorem State.uncorrectable_flits (s : State) (x : Nat) : (s.uncorrectable x).flits = s.flits := by simp [State.uncorrectable]
@[simp] theorem State.uncorrectable_cycle (s : State) (x : Nat) : (s.uncorrectable x).cycle = s.cycle := by simp [State.uncorrectable]

@[simp] theorem State.hbmFetch_hbm (s : State) (x : Nat) : ((s.hbmFetch x).1).hbm = s.hbm := by unfold State.hbmFetch; simp only; (repeat' split) <;> simp
@[simp] theorem State.hbmFetch_vlines (s : State) (x : Nat) : ((s.hbmFetch x).1).vlines = s.vlines := by unfold State.hbmFetch; simp only; (repeat' split) <;> simp
@[simp] theorem State.hbmFetch_fillq (s : State) (x : Nat) : ((s.hbmFetch x).1).fillq = s.fillq := by unfold State.hbmFetch; simp only; (repeat' split) <;> simp
@[simp] theorem State.hbmFetch_copies (s : State) (x : Nat) : ((s.hbmFetch x).1).copies = s.copies := by unfold State.hbmFetch; simp only; (repeat' split) <;> simp
@[simp] theorem State.hbmFetch_dies (s : State) (x : Nat) : ((s.hbmFetch x).1).dies = s.dies := by unfold State.hbmFetch; simp only; (repeat' split) <;> simp
@[simp] theorem State.hbmFetch_frames (s : State) (x : Nat) : ((s.hbmFetch x).1).frames = s.frames := by unfold State.hbmFetch; simp only; (repeat' split) <;> simp
@[simp] theorem State.hbmFetch_cores (s : State) (x : Nat) : ((s.hbmFetch x).1).cores = s.cores := by unfold State.hbmFetch; simp only; (repeat' split) <;> simp
@[simp] theorem State.hbmFetch_graphs (s : State) (x : Nat) : ((s.hbmFetch x).1).graphs = s.graphs := by unfold State.hbmFetch; simp only; (repeat' split) <;> simp
@[simp] theorem State.hbmFetch_stamps (s : State) (x : Nat) : ((s.hbmFetch x).1).stamps = s.stamps := by unfold State.hbmFetch; simp only; (repeat' split) <;> simp
@[simp] theorem State.hbmFetch_ctl (s : State) (x : Nat) : ((s.hbmFetch x).1).ctl = s.ctl := by unfold State.hbmFetch; simp only; (repeat' split) <;> simp
@[simp] theorem State.hbmFetch_issue (s : State) (x : Nat) : ((s.hbmFetch x).1).issue = s.issue := by unfold State.hbmFetch; simp only; (repeat' split) <;> simp
@[simp] theorem State.hbmFetch_tick (s : State) (x : Nat) : ((s.hbmFetch x).1).tick = s.tick := by unfold State.hbmFetch; simp only; (repeat' split) <;> simp
@[simp] theorem State.hbmFetch_nv (s : State) (x : Nat) : ((s.hbmFetch x).1).nv = s.nv := by unfold State.hbmFetch; simp only; (repeat' split) <;> simp
@[simp] theorem State.hbmFetch_staging (s : State) (x : Nat) : ((s.hbmFetch x).1).staging = s.staging := by unfold State.hbmFetch; simp only; (repeat' split) <;> simp
@[simp] theorem State.hbmFetch_down (s : State) (x : Nat) : ((s.hbmFetch x).1).down = s.down := by unfold State.hbmFetch; simp only; (repeat' split) <;> simp
@[simp] theorem State.hbmFetch_flits (s : State) (x : Nat) : ((s.hbmFetch x).1).flits = s.flits := by unfold State.hbmFetch; simp only; (repeat' split) <;> simp
@[simp] theorem State.hbmFetch_cycle (s : State) (x : Nat) : ((s.hbmFetch x).1).cycle = s.cycle := by unfold State.hbmFetch; simp only; (repeat' split) <;> simp

@[simp] theorem State.sample_hbm (s : State) (x : Nat) (l : Line) (e : Bool) : (s.sample x l e).hbm = s.hbm := by unfold State.sample; split <;> simp
@[simp] theorem State.sample_vlines (s : State) (x : Nat) (l : Line) (e : Bool) : (s.sample x l e).vlines = s.vlines := by unfold State.sample; split <;> simp
@[simp] theorem State.sample_fillq (s : State) (x : Nat) (l : Line) (e : Bool) : (s.sample x l e).fillq = s.fillq := by unfold State.sample; split <;> simp
@[simp] theorem State.sample_copies (s : State) (x : Nat) (l : Line) (e : Bool) : (s.sample x l e).copies = s.copies := by unfold State.sample; split <;> simp
@[simp] theorem State.sample_frames (s : State) (x : Nat) (l : Line) (e : Bool) : (s.sample x l e).frames = s.frames := by unfold State.sample; split <;> simp
@[simp] theorem State.sample_scores (s : State) (x : Nat) (l : Line) (e : Bool) : (s.sample x l e).scores = s.scores := by unfold State.sample; split <;> simp
@[simp] theorem State.sample_cores (s : State) (x : Nat) (l : Line) (e : Bool) : (s.sample x l e).cores = s.cores := by unfold State.sample; split <;> simp
@[simp] theorem State.sample_teams (s : State) (x : Nat) (l : Line) (e : Bool) : (s.sample x l e).teams = s.teams := by unfold State.sample; split <;> simp
@[simp] theorem State.sample_grids (s : State) (x : Nat) (l : Line) (e : Bool) : (s.sample x l e).grids = s.grids := by unfold State.sample; split <;> simp
@[simp] theorem State.sample_graphs (s : State) (x : Nat) (l : Line) (e : Bool) : (s.sample x l e).graphs = s.graphs := by unfold State.sample; split <;> simp
@[simp] theorem State.sample_stamps (s : State) (x : Nat) (l : Line) (e : Bool) : (s.sample x l e).stamps = s.stamps := by unfold State.sample; split <;> simp
@[simp] theorem State.sample_ctl (s : State) (x : Nat) (l : Line) (e : Bool) : (s.sample x l e).ctl = s.ctl := by unfold State.sample; split <;> simp
@[simp] theorem State.sample_issue (s : State) (x : Nat) (l : Line) (e : Bool) : (s.sample x l e).issue = s.issue := by unfold State.sample; split <;> simp
@[simp] theorem State.sample_tick (s : State) (x : Nat) (l : Line) (e : Bool) : (s.sample x l e).tick = s.tick := by unfold State.sample; split <;> simp
@[simp] theorem State.sample_nv (s : State) (x : Nat) (l : Line) (e : Bool) : (s.sample x l e).nv = s.nv := by unfold State.sample; split <;> simp
@[simp] theorem State.sample_staging (s : State) (x : Nat) (l : Line) (e : Bool) : (s.sample x l e).staging = s.staging := by unfold State.sample; split <;> simp
@[simp] theorem State.sample_down (s : State) (x : Nat) (l : Line) (e : Bool) : (s.sample x l e).down = s.down := by unfold State.sample; split <;> simp
@[simp] theorem State.sample_flits (s : State) (x : Nat) (l : Line) (e : Bool) : (s.sample x l e).flits = s.flits := by unfold State.sample; split <;> simp
@[simp] theorem State.sample_cycle (s : State) (x : Nat) (l : Line) (e : Bool) : (s.sample x l e).cycle = s.cycle := by unfold State.sample; split <;> simp

@[simp] theorem State.hbmStore_vlines (s : State) (x : Nat) (l : Line) (e : Bool) : (s.hbmStore x l e).vlines = s.vlines := rfl
@[simp] theorem State.hbmStore_fillq (s : State) (x : Nat) (l : Line) (e : Bool) : (s.hbmStore x l e).fillq = s.fillq := rfl
@[simp] theorem State.hbmStore_copies (s : State) (x : Nat) (l : Line) (e : Bool) : (s.hbmStore x l e).copies = s.copies := rfl
@[simp] theorem State.hbmStore_dies (s : State) (x : Nat) (l : Line) (e : Bool) : (s.hbmStore x l e).dies = s.dies := rfl
@[simp] theorem State.hbmStore_frames (s : State) (x : Nat) (l : Line) (e : Bool) : (s.hbmStore x l e).frames = s.frames := rfl
@[simp] theorem State.hbmStore_scores (s : State) (x : Nat) (l : Line) (e : Bool) : (s.hbmStore x l e).scores = s.scores := rfl
@[simp] theorem State.hbmStore_cores (s : State) (x : Nat) (l : Line) (e : Bool) : (s.hbmStore x l e).cores = s.cores := rfl
@[simp] theorem State.hbmStore_teams (s : State) (x : Nat) (l : Line) (e : Bool) : (s.hbmStore x l e).teams = s.teams := rfl
@[simp] theorem State.hbmStore_grids (s : State) (x : Nat) (l : Line) (e : Bool) : (s.hbmStore x l e).grids = s.grids := rfl
@[simp] theorem State.hbmStore_graphs (s : State) (x : Nat) (l : Line) (e : Bool) : (s.hbmStore x l e).graphs = s.graphs := rfl
@[simp] theorem State.hbmStore_stamps (s : State) (x : Nat) (l : Line) (e : Bool) : (s.hbmStore x l e).stamps = s.stamps := rfl
@[simp] theorem State.hbmStore_ctl (s : State) (x : Nat) (l : Line) (e : Bool) : (s.hbmStore x l e).ctl = s.ctl := rfl
@[simp] theorem State.hbmStore_issue (s : State) (x : Nat) (l : Line) (e : Bool) : (s.hbmStore x l e).issue = s.issue := rfl
@[simp] theorem State.hbmStore_tick (s : State) (x : Nat) (l : Line) (e : Bool) : (s.hbmStore x l e).tick = s.tick := rfl
@[simp] theorem State.hbmStore_nv (s : State) (x : Nat) (l : Line) (e : Bool) : (s.hbmStore x l e).nv = s.nv := rfl
@[simp] theorem State.hbmStore_staging (s : State) (x : Nat) (l : Line) (e : Bool) : (s.hbmStore x l e).staging = s.staging := rfl
@[simp] theorem State.hbmStore_down (s : State) (x : Nat) (l : Line) (e : Bool) : (s.hbmStore x l e).down = s.down := rfl
@[simp] theorem State.hbmStore_flits (s : State) (x : Nat) (l : Line) (e : Bool) : (s.hbmStore x l e).flits = s.flits := rfl
@[simp] theorem State.hbmStore_cycle (s : State) (x : Nat) (l : Line) (e : Bool) : (s.hbmStore x l e).cycle = s.cycle := rfl

@[simp] theorem State.leave_hbm (s : State) (a x : Nat) (d : Option Line) : (s.leave a x d).hbm = s.hbm := by unfold State.leave; simp only; (repeat' split) <;> simp
@[simp] theorem State.leave_fillq (s : State) (a x : Nat) (d : Option Line) : (s.leave a x d).fillq = s.fillq := by unfold State.leave; simp only; (repeat' split) <;> simp
@[simp] theorem State.leave_frames (s : State) (a x : Nat) (d : Option Line) : (s.leave a x d).frames = s.frames := by unfold State.leave; simp only; (repeat' split) <;> simp
@[simp] theorem State.leave_scores (s : State) (a x : Nat) (d : Option Line) : (s.leave a x d).scores = s.scores := by unfold State.leave; simp only; (repeat' split) <;> simp
@[simp] theorem State.leave_cores (s : State) (a x : Nat) (d : Option Line) : (s.leave a x d).cores = s.cores := by unfold State.leave; simp only; (repeat' split) <;> simp
@[simp] theorem State.leave_teams (s : State) (a x : Nat) (d : Option Line) : (s.leave a x d).teams = s.teams := by unfold State.leave; simp only; (repeat' split) <;> simp
@[simp] theorem State.leave_grids (s : State) (a x : Nat) (d : Option Line) : (s.leave a x d).grids = s.grids := by unfold State.leave; simp only; (repeat' split) <;> simp
@[simp] theorem State.leave_graphs (s : State) (a x : Nat) (d : Option Line) : (s.leave a x d).graphs = s.graphs := by unfold State.leave; simp only; (repeat' split) <;> simp
@[simp] theorem State.leave_stamps (s : State) (a x : Nat) (d : Option Line) : (s.leave a x d).stamps = s.stamps := by unfold State.leave; simp only; (repeat' split) <;> simp
@[simp] theorem State.leave_ctl (s : State) (a x : Nat) (d : Option Line) : (s.leave a x d).ctl = s.ctl := by unfold State.leave; simp only; (repeat' split) <;> simp
@[simp] theorem State.leave_issue (s : State) (a x : Nat) (d : Option Line) : (s.leave a x d).issue = s.issue := by unfold State.leave; simp only; (repeat' split) <;> simp
@[simp] theorem State.leave_tick (s : State) (a x : Nat) (d : Option Line) : (s.leave a x d).tick = s.tick := by unfold State.leave; simp only; (repeat' split) <;> simp
@[simp] theorem State.leave_nv (s : State) (a x : Nat) (d : Option Line) : (s.leave a x d).nv = s.nv := by unfold State.leave; simp only; (repeat' split) <;> simp
@[simp] theorem State.leave_staging (s : State) (a x : Nat) (d : Option Line) : (s.leave a x d).staging = s.staging := by unfold State.leave; simp only; (repeat' split) <;> simp
@[simp] theorem State.leave_down (s : State) (a x : Nat) (d : Option Line) : (s.leave a x d).down = s.down := by unfold State.leave; simp only; (repeat' split) <;> simp
@[simp] theorem State.leave_flits (s : State) (a x : Nat) (d : Option Line) : (s.leave a x d).flits = s.flits := by unfold State.leave; simp only; (repeat' split) <;> simp
@[simp] theorem State.leave_cycle (s : State) (a x : Nat) (d : Option Line) : (s.leave a x d).cycle = s.cycle := by unfold State.leave; simp only; (repeat' split) <;> simp

@[simp] theorem State.checkVl_hbm (s : State) (v : VLine) : ((s.checkVl v).1).hbm = s.hbm := by unfold State.checkVl; split <;> simp only <;> (repeat' split) <;> simp
@[simp] theorem State.checkVl_fillq (s : State) (v : VLine) : ((s.checkVl v).1).fillq = s.fillq := by unfold State.checkVl; split <;> simp only <;> (repeat' split) <;> simp
@[simp] theorem State.checkVl_copies (s : State) (v : VLine) : ((s.checkVl v).1).copies = s.copies := by unfold State.checkVl; split <;> simp only <;> (repeat' split) <;> simp
@[simp] theorem State.checkVl_dies (s : State) (v : VLine) : ((s.checkVl v).1).dies = s.dies := by unfold State.checkVl; split <;> simp only <;> (repeat' split) <;> simp
@[simp] theorem State.checkVl_frames (s : State) (v : VLine) : ((s.checkVl v).1).frames = s.frames := by unfold State.checkVl; split <;> simp only <;> (repeat' split) <;> simp
@[simp] theorem State.checkVl_cores (s : State) (v : VLine) : ((s.checkVl v).1).cores = s.cores := by unfold State.checkVl; split <;> simp only <;> (repeat' split) <;> simp
@[simp] theorem State.checkVl_graphs (s : State) (v : VLine) : ((s.checkVl v).1).graphs = s.graphs := by unfold State.checkVl; split <;> simp only <;> (repeat' split) <;> simp
@[simp] theorem State.checkVl_stamps (s : State) (v : VLine) : ((s.checkVl v).1).stamps = s.stamps := by unfold State.checkVl; split <;> simp only <;> (repeat' split) <;> simp
@[simp] theorem State.checkVl_ctl (s : State) (v : VLine) : ((s.checkVl v).1).ctl = s.ctl := by unfold State.checkVl; split <;> simp only <;> (repeat' split) <;> simp
@[simp] theorem State.checkVl_issue (s : State) (v : VLine) : ((s.checkVl v).1).issue = s.issue := by unfold State.checkVl; split <;> simp only <;> (repeat' split) <;> simp
@[simp] theorem State.checkVl_tick (s : State) (v : VLine) : ((s.checkVl v).1).tick = s.tick := by unfold State.checkVl; split <;> simp only <;> (repeat' split) <;> simp
@[simp] theorem State.checkVl_nv (s : State) (v : VLine) : ((s.checkVl v).1).nv = s.nv := by unfold State.checkVl; split <;> simp only <;> (repeat' split) <;> simp
@[simp] theorem State.checkVl_staging (s : State) (v : VLine) : ((s.checkVl v).1).staging = s.staging := by unfold State.checkVl; split <;> simp only <;> (repeat' split) <;> simp
@[simp] theorem State.checkVl_down (s : State) (v : VLine) : ((s.checkVl v).1).down = s.down := by unfold State.checkVl; split <;> simp only <;> (repeat' split) <;> simp
@[simp] theorem State.checkVl_flits (s : State) (v : VLine) : ((s.checkVl v).1).flits = s.flits := by unfold State.checkVl; split <;> simp only <;> (repeat' split) <;> simp
@[simp] theorem State.checkVl_cycle (s : State) (v : VLine) : ((s.checkVl v).1).cycle = s.cycle := by unfold State.checkVl; split <;> simp only <;> (repeat' split) <;> simp

@[simp] theorem State.checkCopy_hbm (s : State) (c : Copy) : ((s.checkCopy c).1).hbm = s.hbm := by unfold State.checkCopy; split <;> simp only <;> (repeat' split) <;> simp
@[simp] theorem State.checkCopy_fillq (s : State) (c : Copy) : ((s.checkCopy c).1).fillq = s.fillq := by unfold State.checkCopy; split <;> simp only <;> (repeat' split) <;> simp
@[simp] theorem State.checkCopy_frames (s : State) (c : Copy) : ((s.checkCopy c).1).frames = s.frames := by unfold State.checkCopy; split <;> simp only <;> (repeat' split) <;> simp
@[simp] theorem State.checkCopy_scores (s : State) (c : Copy) : ((s.checkCopy c).1).scores = s.scores := by unfold State.checkCopy; split <;> simp only <;> (repeat' split) <;> simp
@[simp] theorem State.checkCopy_cores (s : State) (c : Copy) : ((s.checkCopy c).1).cores = s.cores := by unfold State.checkCopy; split <;> simp only <;> (repeat' split) <;> simp
@[simp] theorem State.checkCopy_graphs (s : State) (c : Copy) : ((s.checkCopy c).1).graphs = s.graphs := by unfold State.checkCopy; split <;> simp only <;> (repeat' split) <;> simp
@[simp] theorem State.checkCopy_stamps (s : State) (c : Copy) : ((s.checkCopy c).1).stamps = s.stamps := by unfold State.checkCopy; split <;> simp only <;> (repeat' split) <;> simp
@[simp] theorem State.checkCopy_ctl (s : State) (c : Copy) : ((s.checkCopy c).1).ctl = s.ctl := by unfold State.checkCopy; split <;> simp only <;> (repeat' split) <;> simp
@[simp] theorem State.checkCopy_issue (s : State) (c : Copy) : ((s.checkCopy c).1).issue = s.issue := by unfold State.checkCopy; split <;> simp only <;> (repeat' split) <;> simp
@[simp] theorem State.checkCopy_tick (s : State) (c : Copy) : ((s.checkCopy c).1).tick = s.tick := by unfold State.checkCopy; split <;> simp only <;> (repeat' split) <;> simp
@[simp] theorem State.checkCopy_nv (s : State) (c : Copy) : ((s.checkCopy c).1).nv = s.nv := by unfold State.checkCopy; split <;> simp only <;> (repeat' split) <;> simp
@[simp] theorem State.checkCopy_staging (s : State) (c : Copy) : ((s.checkCopy c).1).staging = s.staging := by unfold State.checkCopy; split <;> simp only <;> (repeat' split) <;> simp
@[simp] theorem State.checkCopy_down (s : State) (c : Copy) : ((s.checkCopy c).1).down = s.down := by unfold State.checkCopy; split <;> simp only <;> (repeat' split) <;> simp
@[simp] theorem State.checkCopy_flits (s : State) (c : Copy) : ((s.checkCopy c).1).flits = s.flits := by unfold State.checkCopy; split <;> simp only <;> (repeat' split) <;> simp
@[simp] theorem State.checkCopy_cycle (s : State) (c : Copy) : ((s.checkCopy c).1).cycle = s.cycle := by unfold State.checkCopy; split <;> simp only <;> (repeat' split) <;> simp

@[simp] theorem State.takeDirty_hbm (s : State) (x : Nat) : ((s.takeDirty x).1).hbm = s.hbm := by unfold State.takeDirty; split; rfl; rename_i c _; have h := State.checkCopy_hbm s c; split <;> rename_i hc <;> rw [hc] at h <;> exact h
@[simp] theorem State.takeDirty_fillq (s : State) (x : Nat) : ((s.takeDirty x).1).fillq = s.fillq := by unfold State.takeDirty; split; rfl; rename_i c _; have h := State.checkCopy_fillq s c; split <;> rename_i hc <;> rw [hc] at h <;> exact h
@[simp] theorem State.takeDirty_frames (s : State) (x : Nat) : ((s.takeDirty x).1).frames = s.frames := by unfold State.takeDirty; split; rfl; rename_i c _; have h := State.checkCopy_frames s c; split <;> rename_i hc <;> rw [hc] at h <;> exact h
@[simp] theorem State.takeDirty_scores (s : State) (x : Nat) : ((s.takeDirty x).1).scores = s.scores := by unfold State.takeDirty; split; rfl; rename_i c _; have h := State.checkCopy_scores s c; split <;> rename_i hc <;> rw [hc] at h <;> exact h
@[simp] theorem State.takeDirty_cores (s : State) (x : Nat) : ((s.takeDirty x).1).cores = s.cores := by unfold State.takeDirty; split; rfl; rename_i c _; have h := State.checkCopy_cores s c; split <;> rename_i hc <;> rw [hc] at h <;> exact h
@[simp] theorem State.takeDirty_graphs (s : State) (x : Nat) : ((s.takeDirty x).1).graphs = s.graphs := by unfold State.takeDirty; split; rfl; rename_i c _; have h := State.checkCopy_graphs s c; split <;> rename_i hc <;> rw [hc] at h <;> exact h
@[simp] theorem State.takeDirty_stamps (s : State) (x : Nat) : ((s.takeDirty x).1).stamps = s.stamps := by unfold State.takeDirty; split; rfl; rename_i c _; have h := State.checkCopy_stamps s c; split <;> rename_i hc <;> rw [hc] at h <;> exact h
@[simp] theorem State.takeDirty_ctl (s : State) (x : Nat) : ((s.takeDirty x).1).ctl = s.ctl := by unfold State.takeDirty; split; rfl; rename_i c _; have h := State.checkCopy_ctl s c; split <;> rename_i hc <;> rw [hc] at h <;> exact h
@[simp] theorem State.takeDirty_issue (s : State) (x : Nat) : ((s.takeDirty x).1).issue = s.issue := by unfold State.takeDirty; split; rfl; rename_i c _; have h := State.checkCopy_issue s c; split <;> rename_i hc <;> rw [hc] at h <;> exact h
@[simp] theorem State.takeDirty_tick (s : State) (x : Nat) : ((s.takeDirty x).1).tick = s.tick := by unfold State.takeDirty; split; rfl; rename_i c _; have h := State.checkCopy_tick s c; split <;> rename_i hc <;> rw [hc] at h <;> exact h
@[simp] theorem State.takeDirty_nv (s : State) (x : Nat) : ((s.takeDirty x).1).nv = s.nv := by unfold State.takeDirty; split; rfl; rename_i c _; have h := State.checkCopy_nv s c; split <;> rename_i hc <;> rw [hc] at h <;> exact h
@[simp] theorem State.takeDirty_staging (s : State) (x : Nat) : ((s.takeDirty x).1).staging = s.staging := by unfold State.takeDirty; split; rfl; rename_i c _; have h := State.checkCopy_staging s c; split <;> rename_i hc <;> rw [hc] at h <;> exact h
@[simp] theorem State.takeDirty_down (s : State) (x : Nat) : ((s.takeDirty x).1).down = s.down := by unfold State.takeDirty; split; rfl; rename_i c _; have h := State.checkCopy_down s c; split <;> rename_i hc <;> rw [hc] at h <;> exact h
@[simp] theorem State.takeDirty_flits (s : State) (x : Nat) : ((s.takeDirty x).1).flits = s.flits := by unfold State.takeDirty; split; rfl; rename_i c _; have h := State.checkCopy_flits s c; split <;> rename_i hc <;> rw [hc] at h <;> exact h
@[simp] theorem State.takeDirty_cycle (s : State) (x : Nat) : ((s.takeDirty x).1).cycle = s.cycle := by unfold State.takeDirty; split; rfl; rename_i c _; have h := State.checkCopy_cycle s c; split <;> rename_i hc <;> rw [hc] at h <;> exact h

@[simp] theorem State.invalidate_hbm (s : State) (x : Nat) : ((s.invalidate x).1).hbm = s.hbm := by unfold State.invalidate; simp
@[simp] theorem State.invalidate_fillq (s : State) (x : Nat) : ((s.invalidate x).1).fillq = s.fillq := by unfold State.invalidate; simp
@[simp] theorem State.invalidate_frames (s : State) (x : Nat) : ((s.invalidate x).1).frames = s.frames := by unfold State.invalidate; simp
@[simp] theorem State.invalidate_scores (s : State) (x : Nat) : ((s.invalidate x).1).scores = s.scores := by unfold State.invalidate; simp
@[simp] theorem State.invalidate_cores (s : State) (x : Nat) : ((s.invalidate x).1).cores = s.cores := by unfold State.invalidate; simp
@[simp] theorem State.invalidate_graphs (s : State) (x : Nat) : ((s.invalidate x).1).graphs = s.graphs := by unfold State.invalidate; simp
@[simp] theorem State.invalidate_stamps (s : State) (x : Nat) : ((s.invalidate x).1).stamps = s.stamps := by unfold State.invalidate; simp
@[simp] theorem State.invalidate_ctl (s : State) (x : Nat) : ((s.invalidate x).1).ctl = s.ctl := by unfold State.invalidate; simp
@[simp] theorem State.invalidate_issue (s : State) (x : Nat) : ((s.invalidate x).1).issue = s.issue := by unfold State.invalidate; simp
@[simp] theorem State.invalidate_tick (s : State) (x : Nat) : ((s.invalidate x).1).tick = s.tick := by unfold State.invalidate; simp
@[simp] theorem State.invalidate_nv (s : State) (x : Nat) : ((s.invalidate x).1).nv = s.nv := by unfold State.invalidate; simp
@[simp] theorem State.invalidate_staging (s : State) (x : Nat) : ((s.invalidate x).1).staging = s.staging := by unfold State.invalidate; simp
@[simp] theorem State.invalidate_down (s : State) (x : Nat) : ((s.invalidate x).1).down = s.down := by unfold State.invalidate; simp
@[simp] theorem State.invalidate_flits (s : State) (x : Nat) : ((s.invalidate x).1).flits = s.flits := by unfold State.invalidate; simp
@[simp] theorem State.invalidate_cycle (s : State) (x : Nat) : ((s.invalidate x).1).cycle = s.cycle := by unfold State.invalidate; simp

@[simp] theorem State.writeBack_vlines (s : State) (v : VLine) : (s.writeBack v).vlines = s.vlines := by simp [State.writeBack]
@[simp] theorem State.writeBack_fillq (s : State) (v : VLine) : (s.writeBack v).fillq = s.fillq := by simp [State.writeBack]
@[simp] theorem State.writeBack_copies (s : State) (v : VLine) : (s.writeBack v).copies = s.copies := by simp [State.writeBack]
@[simp] theorem State.writeBack_frames (s : State) (v : VLine) : (s.writeBack v).frames = s.frames := by simp [State.writeBack]
@[simp] theorem State.writeBack_scores (s : State) (v : VLine) : (s.writeBack v).scores = s.scores := by simp [State.writeBack]
@[simp] theorem State.writeBack_cores (s : State) (v : VLine) : (s.writeBack v).cores = s.cores := by simp [State.writeBack]
@[simp] theorem State.writeBack_teams (s : State) (v : VLine) : (s.writeBack v).teams = s.teams := by simp [State.writeBack]
@[simp] theorem State.writeBack_grids (s : State) (v : VLine) : (s.writeBack v).grids = s.grids := by simp [State.writeBack]
@[simp] theorem State.writeBack_graphs (s : State) (v : VLine) : (s.writeBack v).graphs = s.graphs := by simp [State.writeBack]
@[simp] theorem State.writeBack_stamps (s : State) (v : VLine) : (s.writeBack v).stamps = s.stamps := by simp [State.writeBack]
@[simp] theorem State.writeBack_ctl (s : State) (v : VLine) : (s.writeBack v).ctl = s.ctl := by simp [State.writeBack]
@[simp] theorem State.writeBack_issue (s : State) (v : VLine) : (s.writeBack v).issue = s.issue := by simp [State.writeBack]
@[simp] theorem State.writeBack_tick (s : State) (v : VLine) : (s.writeBack v).tick = s.tick := by simp [State.writeBack]
@[simp] theorem State.writeBack_nv (s : State) (v : VLine) : (s.writeBack v).nv = s.nv := by simp [State.writeBack]
@[simp] theorem State.writeBack_staging (s : State) (v : VLine) : (s.writeBack v).staging = s.staging := by simp [State.writeBack]
@[simp] theorem State.writeBack_down (s : State) (v : VLine) : (s.writeBack v).down = s.down := by simp [State.writeBack]
@[simp] theorem State.writeBack_flits (s : State) (v : VLine) : (s.writeBack v).flits = s.flits := by simp [State.writeBack]
@[simp] theorem State.writeBack_cycle (s : State) (v : VLine) : (s.writeBack v).cycle = s.cycle := by simp [State.writeBack]

@[simp] theorem State.evict_fillq (s : State) (v : VLine) : (s.evict v).fillq = s.fillq := by unfold State.evict; simp only; (repeat' split) <;> simp
@[simp] theorem State.evict_frames (s : State) (v : VLine) : (s.evict v).frames = s.frames := by unfold State.evict; simp only; (repeat' split) <;> simp
@[simp] theorem State.evict_cores (s : State) (v : VLine) : (s.evict v).cores = s.cores := by unfold State.evict; simp only; (repeat' split) <;> simp
@[simp] theorem State.evict_graphs (s : State) (v : VLine) : (s.evict v).graphs = s.graphs := by unfold State.evict; simp only; (repeat' split) <;> simp
@[simp] theorem State.evict_stamps (s : State) (v : VLine) : (s.evict v).stamps = s.stamps := by unfold State.evict; simp only; (repeat' split) <;> simp
@[simp] theorem State.evict_ctl (s : State) (v : VLine) : (s.evict v).ctl = s.ctl := by unfold State.evict; simp only; (repeat' split) <;> simp
@[simp] theorem State.evict_issue (s : State) (v : VLine) : (s.evict v).issue = s.issue := by unfold State.evict; simp only; (repeat' split) <;> simp
@[simp] theorem State.evict_tick (s : State) (v : VLine) : (s.evict v).tick = s.tick := by unfold State.evict; simp only; (repeat' split) <;> simp
@[simp] theorem State.evict_nv (s : State) (v : VLine) : (s.evict v).nv = s.nv := by unfold State.evict; simp only; (repeat' split) <;> simp
@[simp] theorem State.evict_staging (s : State) (v : VLine) : (s.evict v).staging = s.staging := by unfold State.evict; simp only; (repeat' split) <;> simp
@[simp] theorem State.evict_down (s : State) (v : VLine) : (s.evict v).down = s.down := by unfold State.evict; simp only; (repeat' split) <;> simp
@[simp] theorem State.evict_flits (s : State) (v : VLine) : (s.evict v).flits = s.flits := by unfold State.evict; simp only; (repeat' split) <;> simp
@[simp] theorem State.evict_cycle (s : State) (v : VLine) : (s.evict v).cycle = s.cycle := by unfold State.evict; simp only; (repeat' split) <;> simp

@[simp] theorem State.takeBack_hbm (s : State) (c : Copy) : (s.takeBack c).hbm = s.hbm := by unfold State.takeBack; have h := State.checkCopy_hbm (s.orphan c.lostDirty (agentSource c.agent) c.slot) c; split <;> rename_i hc <;> rw [hc] at h <;> simpa using h
@[simp] theorem State.takeBack_fillq (s : State) (c : Copy) : (s.takeBack c).fillq = s.fillq := by unfold State.takeBack; have h := State.checkCopy_fillq (s.orphan c.lostDirty (agentSource c.agent) c.slot) c; split <;> rename_i hc <;> rw [hc] at h <;> simpa using h
@[simp] theorem State.takeBack_frames (s : State) (c : Copy) : (s.takeBack c).frames = s.frames := by unfold State.takeBack; have h := State.checkCopy_frames (s.orphan c.lostDirty (agentSource c.agent) c.slot) c; split <;> rename_i hc <;> rw [hc] at h <;> simpa using h
@[simp] theorem State.takeBack_scores (s : State) (c : Copy) : (s.takeBack c).scores = s.scores := by unfold State.takeBack; have h := State.checkCopy_scores (s.orphan c.lostDirty (agentSource c.agent) c.slot) c; split <;> rename_i hc <;> rw [hc] at h <;> simpa using h
@[simp] theorem State.takeBack_cores (s : State) (c : Copy) : (s.takeBack c).cores = s.cores := by unfold State.takeBack; have h := State.checkCopy_cores (s.orphan c.lostDirty (agentSource c.agent) c.slot) c; split <;> rename_i hc <;> rw [hc] at h <;> simpa using h
@[simp] theorem State.takeBack_graphs (s : State) (c : Copy) : (s.takeBack c).graphs = s.graphs := by unfold State.takeBack; have h := State.checkCopy_graphs (s.orphan c.lostDirty (agentSource c.agent) c.slot) c; split <;> rename_i hc <;> rw [hc] at h <;> simpa using h
@[simp] theorem State.takeBack_stamps (s : State) (c : Copy) : (s.takeBack c).stamps = s.stamps := by unfold State.takeBack; have h := State.checkCopy_stamps (s.orphan c.lostDirty (agentSource c.agent) c.slot) c; split <;> rename_i hc <;> rw [hc] at h <;> simpa using h
@[simp] theorem State.takeBack_ctl (s : State) (c : Copy) : (s.takeBack c).ctl = s.ctl := by unfold State.takeBack; have h := State.checkCopy_ctl (s.orphan c.lostDirty (agentSource c.agent) c.slot) c; split <;> rename_i hc <;> rw [hc] at h <;> simpa using h
@[simp] theorem State.takeBack_issue (s : State) (c : Copy) : (s.takeBack c).issue = s.issue := by unfold State.takeBack; have h := State.checkCopy_issue (s.orphan c.lostDirty (agentSource c.agent) c.slot) c; split <;> rename_i hc <;> rw [hc] at h <;> simpa using h
@[simp] theorem State.takeBack_tick (s : State) (c : Copy) : (s.takeBack c).tick = s.tick := by unfold State.takeBack; have h := State.checkCopy_tick (s.orphan c.lostDirty (agentSource c.agent) c.slot) c; split <;> rename_i hc <;> rw [hc] at h <;> simpa using h
@[simp] theorem State.takeBack_nv (s : State) (c : Copy) : (s.takeBack c).nv = s.nv := by unfold State.takeBack; have h := State.checkCopy_nv (s.orphan c.lostDirty (agentSource c.agent) c.slot) c; split <;> rename_i hc <;> rw [hc] at h <;> simpa using h
@[simp] theorem State.takeBack_staging (s : State) (c : Copy) : (s.takeBack c).staging = s.staging := by unfold State.takeBack; have h := State.checkCopy_staging (s.orphan c.lostDirty (agentSource c.agent) c.slot) c; split <;> rename_i hc <;> rw [hc] at h <;> simpa using h
@[simp] theorem State.takeBack_down (s : State) (c : Copy) : (s.takeBack c).down = s.down := by unfold State.takeBack; have h := State.checkCopy_down (s.orphan c.lostDirty (agentSource c.agent) c.slot) c; split <;> rename_i hc <;> rw [hc] at h <;> simpa using h
@[simp] theorem State.takeBack_flits (s : State) (c : Copy) : (s.takeBack c).flits = s.flits := by unfold State.takeBack; have h := State.checkCopy_flits (s.orphan c.lostDirty (agentSource c.agent) c.slot) c; split <;> rename_i hc <;> rw [hc] at h <;> simpa using h
@[simp] theorem State.takeBack_cycle (s : State) (c : Copy) : (s.takeBack c).cycle = s.cycle := by unfold State.takeBack; have h := State.checkCopy_cycle (s.orphan c.lostDirty (agentSource c.agent) c.slot) c; split <;> rename_i hc <;> rw [hc] at h <;> simpa using h

@[simp] theorem State.giveUp_hbm (s : State) (c : Copy) : (s.giveUp c).hbm = s.hbm := by unfold State.giveUp; simp only; (repeat' split) <;> simp
@[simp] theorem State.giveUp_fillq (s : State) (c : Copy) : (s.giveUp c).fillq = s.fillq := by unfold State.giveUp; simp only; (repeat' split) <;> simp
@[simp] theorem State.giveUp_frames (s : State) (c : Copy) : (s.giveUp c).frames = s.frames := by unfold State.giveUp; simp only; (repeat' split) <;> simp
@[simp] theorem State.giveUp_scores (s : State) (c : Copy) : (s.giveUp c).scores = s.scores := by unfold State.giveUp; simp only; (repeat' split) <;> simp
@[simp] theorem State.giveUp_cores (s : State) (c : Copy) : (s.giveUp c).cores = s.cores := by unfold State.giveUp; simp only; (repeat' split) <;> simp
@[simp] theorem State.giveUp_graphs (s : State) (c : Copy) : (s.giveUp c).graphs = s.graphs := by unfold State.giveUp; simp only; (repeat' split) <;> simp
@[simp] theorem State.giveUp_stamps (s : State) (c : Copy) : (s.giveUp c).stamps = s.stamps := by unfold State.giveUp; simp only; (repeat' split) <;> simp
@[simp] theorem State.giveUp_ctl (s : State) (c : Copy) : (s.giveUp c).ctl = s.ctl := by unfold State.giveUp; simp only; (repeat' split) <;> simp
@[simp] theorem State.giveUp_issue (s : State) (c : Copy) : (s.giveUp c).issue = s.issue := by unfold State.giveUp; simp only; (repeat' split) <;> simp
@[simp] theorem State.giveUp_tick (s : State) (c : Copy) : (s.giveUp c).tick = s.tick := by unfold State.giveUp; simp only; (repeat' split) <;> simp
@[simp] theorem State.giveUp_nv (s : State) (c : Copy) : (s.giveUp c).nv = s.nv := by unfold State.giveUp; simp only; (repeat' split) <;> simp
@[simp] theorem State.giveUp_staging (s : State) (c : Copy) : (s.giveUp c).staging = s.staging := by unfold State.giveUp; simp only; (repeat' split) <;> simp
@[simp] theorem State.giveUp_down (s : State) (c : Copy) : (s.giveUp c).down = s.down := by unfold State.giveUp; simp only; (repeat' split) <;> simp
@[simp] theorem State.giveUp_flits (s : State) (c : Copy) : (s.giveUp c).flits = s.flits := by unfold State.giveUp; simp only; (repeat' split) <;> simp
@[simp] theorem State.giveUp_cycle (s : State) (c : Copy) : (s.giveUp c).cycle = s.cycle := by unfold State.giveUp; simp only; (repeat' split) <;> simp

@[simp] theorem State.mergeAt_hbm (s : State) (v : VLine) (d : Line) (f : Line → Line) (e : Option Bool) : ((s.mergeAt v d f e).1).hbm = s.hbm := rfl
@[simp] theorem State.mergeAt_fillq (s : State) (v : VLine) (d : Line) (f : Line → Line) (e : Option Bool) : ((s.mergeAt v d f e).1).fillq = s.fillq := rfl
@[simp] theorem State.mergeAt_copies (s : State) (v : VLine) (d : Line) (f : Line → Line) (e : Option Bool) : ((s.mergeAt v d f e).1).copies = s.copies := rfl
@[simp] theorem State.mergeAt_dies (s : State) (v : VLine) (d : Line) (f : Line → Line) (e : Option Bool) : ((s.mergeAt v d f e).1).dies = s.dies := rfl
@[simp] theorem State.mergeAt_frames (s : State) (v : VLine) (d : Line) (f : Line → Line) (e : Option Bool) : ((s.mergeAt v d f e).1).frames = s.frames := rfl
@[simp] theorem State.mergeAt_scores (s : State) (v : VLine) (d : Line) (f : Line → Line) (e : Option Bool) : ((s.mergeAt v d f e).1).scores = s.scores := rfl
@[simp] theorem State.mergeAt_cores (s : State) (v : VLine) (d : Line) (f : Line → Line) (e : Option Bool) : ((s.mergeAt v d f e).1).cores = s.cores := rfl
@[simp] theorem State.mergeAt_teams (s : State) (v : VLine) (d : Line) (f : Line → Line) (e : Option Bool) : ((s.mergeAt v d f e).1).teams = s.teams := rfl
@[simp] theorem State.mergeAt_grids (s : State) (v : VLine) (d : Line) (f : Line → Line) (e : Option Bool) : ((s.mergeAt v d f e).1).grids = s.grids := rfl
@[simp] theorem State.mergeAt_graphs (s : State) (v : VLine) (d : Line) (f : Line → Line) (e : Option Bool) : ((s.mergeAt v d f e).1).graphs = s.graphs := rfl
@[simp] theorem State.mergeAt_stamps (s : State) (v : VLine) (d : Line) (f : Line → Line) (e : Option Bool) : ((s.mergeAt v d f e).1).stamps = s.stamps := rfl
@[simp] theorem State.mergeAt_ctl (s : State) (v : VLine) (d : Line) (f : Line → Line) (e : Option Bool) : ((s.mergeAt v d f e).1).ctl = s.ctl := rfl
@[simp] theorem State.mergeAt_issue (s : State) (v : VLine) (d : Line) (f : Line → Line) (e : Option Bool) : ((s.mergeAt v d f e).1).issue = s.issue := rfl
@[simp] theorem State.mergeAt_tick (s : State) (v : VLine) (d : Line) (f : Line → Line) (e : Option Bool) : ((s.mergeAt v d f e).1).tick = s.tick := rfl
@[simp] theorem State.mergeAt_nv (s : State) (v : VLine) (d : Line) (f : Line → Line) (e : Option Bool) : ((s.mergeAt v d f e).1).nv = s.nv := rfl
@[simp] theorem State.mergeAt_staging (s : State) (v : VLine) (d : Line) (f : Line → Line) (e : Option Bool) : ((s.mergeAt v d f e).1).staging = s.staging := rfl
@[simp] theorem State.mergeAt_down (s : State) (v : VLine) (d : Line) (f : Line → Line) (e : Option Bool) : ((s.mergeAt v d f e).1).down = s.down := rfl
@[simp] theorem State.mergeAt_flits (s : State) (v : VLine) (d : Line) (f : Line → Line) (e : Option Bool) : ((s.mergeAt v d f e).1).flits = s.flits := rfl
@[simp] theorem State.mergeAt_cycle (s : State) (v : VLine) (d : Line) (f : Line → Line) (e : Option Bool) : ((s.mergeAt v d f e).1).cycle = s.cycle := rfl

@[simp] theorem State.mergeAck_hbm (s : State) (g : Nat) : (s.mergeAck g).hbm = s.hbm := by unfold State.mergeAck; simp only; (repeat' split) <;> simp
@[simp] theorem State.mergeAck_vlines (s : State) (g : Nat) : (s.mergeAck g).vlines = s.vlines := by unfold State.mergeAck; simp only; (repeat' split) <;> simp
@[simp] theorem State.mergeAck_fillq (s : State) (g : Nat) : (s.mergeAck g).fillq = s.fillq := by unfold State.mergeAck; simp only; (repeat' split) <;> simp
@[simp] theorem State.mergeAck_copies (s : State) (g : Nat) : (s.mergeAck g).copies = s.copies := by unfold State.mergeAck; simp only; (repeat' split) <;> simp
@[simp] theorem State.mergeAck_dies (s : State) (g : Nat) : (s.mergeAck g).dies = s.dies := by unfold State.mergeAck; simp only; (repeat' split) <;> simp
@[simp] theorem State.mergeAck_frames (s : State) (g : Nat) : (s.mergeAck g).frames = s.frames := by unfold State.mergeAck; simp only; (repeat' split) <;> simp
@[simp] theorem State.mergeAck_scores (s : State) (g : Nat) : (s.mergeAck g).scores = s.scores := by unfold State.mergeAck; simp only; (repeat' split) <;> simp
@[simp] theorem State.mergeAck_cores (s : State) (g : Nat) : (s.mergeAck g).cores = s.cores := by unfold State.mergeAck; simp only; (repeat' split) <;> simp
@[simp] theorem State.mergeAck_teams (s : State) (g : Nat) : (s.mergeAck g).teams = s.teams := by unfold State.mergeAck; simp only; (repeat' split) <;> simp
@[simp] theorem State.mergeAck_graphs (s : State) (g : Nat) : (s.mergeAck g).graphs = s.graphs := by unfold State.mergeAck; simp only; (repeat' split) <;> simp
@[simp] theorem State.mergeAck_stamps (s : State) (g : Nat) : (s.mergeAck g).stamps = s.stamps := by unfold State.mergeAck; simp only; (repeat' split) <;> simp
@[simp] theorem State.mergeAck_ctl (s : State) (g : Nat) : (s.mergeAck g).ctl = s.ctl := by unfold State.mergeAck; simp only; (repeat' split) <;> simp
@[simp] theorem State.mergeAck_issue (s : State) (g : Nat) : (s.mergeAck g).issue = s.issue := by unfold State.mergeAck; simp only; (repeat' split) <;> simp
@[simp] theorem State.mergeAck_tick (s : State) (g : Nat) : (s.mergeAck g).tick = s.tick := by unfold State.mergeAck; simp only; (repeat' split) <;> simp
@[simp] theorem State.mergeAck_nv (s : State) (g : Nat) : (s.mergeAck g).nv = s.nv := by unfold State.mergeAck; simp only; (repeat' split) <;> simp
@[simp] theorem State.mergeAck_staging (s : State) (g : Nat) : (s.mergeAck g).staging = s.staging := by unfold State.mergeAck; simp only; (repeat' split) <;> simp
@[simp] theorem State.mergeAck_down (s : State) (g : Nat) : (s.mergeAck g).down = s.down := by unfold State.mergeAck; simp only; (repeat' split) <;> simp
@[simp] theorem State.mergeAck_flits (s : State) (g : Nat) : (s.mergeAck g).flits = s.flits := by unfold State.mergeAck; simp only; (repeat' split) <;> simp
@[simp] theorem State.mergeAck_cycle (s : State) (g : Nat) : (s.mergeAck g).cycle = s.cycle := by unfold State.mergeAck; simp only; (repeat' split) <;> simp

@[simp] theorem State.peerAck_hbm (s : State) (r : Nat) (k : Int) (i p : Nat) : (s.peerAck r k i p).hbm = s.hbm := rfl
@[simp] theorem State.peerAck_vlines (s : State) (r : Nat) (k : Int) (i p : Nat) : (s.peerAck r k i p).vlines = s.vlines := rfl
@[simp] theorem State.peerAck_fillq (s : State) (r : Nat) (k : Int) (i p : Nat) : (s.peerAck r k i p).fillq = s.fillq := rfl
@[simp] theorem State.peerAck_copies (s : State) (r : Nat) (k : Int) (i p : Nat) : (s.peerAck r k i p).copies = s.copies := rfl
@[simp] theorem State.peerAck_dies (s : State) (r : Nat) (k : Int) (i p : Nat) : (s.peerAck r k i p).dies = s.dies := rfl
@[simp] theorem State.peerAck_frames (s : State) (r : Nat) (k : Int) (i p : Nat) : (s.peerAck r k i p).frames = s.frames := rfl
@[simp] theorem State.peerAck_scores (s : State) (r : Nat) (k : Int) (i p : Nat) : (s.peerAck r k i p).scores = s.scores := rfl
@[simp] theorem State.peerAck_cores (s : State) (r : Nat) (k : Int) (i p : Nat) : (s.peerAck r k i p).cores = s.cores := rfl
@[simp] theorem State.peerAck_teams (s : State) (r : Nat) (k : Int) (i p : Nat) : (s.peerAck r k i p).teams = s.teams := rfl
@[simp] theorem State.peerAck_grids (s : State) (r : Nat) (k : Int) (i p : Nat) : (s.peerAck r k i p).grids = s.grids := rfl
@[simp] theorem State.peerAck_graphs (s : State) (r : Nat) (k : Int) (i p : Nat) : (s.peerAck r k i p).graphs = s.graphs := rfl
@[simp] theorem State.peerAck_stamps (s : State) (r : Nat) (k : Int) (i p : Nat) : (s.peerAck r k i p).stamps = s.stamps := rfl
@[simp] theorem State.peerAck_ctl (s : State) (r : Nat) (k : Int) (i p : Nat) : (s.peerAck r k i p).ctl = s.ctl := rfl
@[simp] theorem State.peerAck_issue (s : State) (r : Nat) (k : Int) (i p : Nat) : (s.peerAck r k i p).issue = s.issue := rfl
@[simp] theorem State.peerAck_tick (s : State) (r : Nat) (k : Int) (i p : Nat) : (s.peerAck r k i p).tick = s.tick := rfl
@[simp] theorem State.peerAck_nv (s : State) (r : Nat) (k : Int) (i p : Nat) : (s.peerAck r k i p).nv = s.nv := rfl
@[simp] theorem State.peerAck_staging (s : State) (r : Nat) (k : Int) (i p : Nat) : (s.peerAck r k i p).staging = s.staging := rfl
@[simp] theorem State.peerAck_down (s : State) (r : Nat) (k : Int) (i p : Nat) : (s.peerAck r k i p).down = s.down := rfl
@[simp] theorem State.peerAck_flits (s : State) (r : Nat) (k : Int) (i p : Nat) : (s.peerAck r k i p).flits = s.flits := rfl
@[simp] theorem State.peerAck_cycle (s : State) (r : Nat) (k : Int) (i p : Nat) : (s.peerAck r k i p).cycle = s.cycle := rfl

@[simp] theorem State.hostError_hbm (s : State) (w a : Nat) (b : Bool) : (s.hostError w a b).hbm = s.hbm := rfl
@[simp] theorem State.hostError_vlines (s : State) (w a : Nat) (b : Bool) : (s.hostError w a b).vlines = s.vlines := rfl
@[simp] theorem State.hostError_fillq (s : State) (w a : Nat) (b : Bool) : (s.hostError w a b).fillq = s.fillq := rfl
@[simp] theorem State.hostError_copies (s : State) (w a : Nat) (b : Bool) : (s.hostError w a b).copies = s.copies := rfl
@[simp] theorem State.hostError_dies (s : State) (w a : Nat) (b : Bool) : (s.hostError w a b).dies = s.dies := rfl
@[simp] theorem State.hostError_frames (s : State) (w a : Nat) (b : Bool) : (s.hostError w a b).frames = s.frames := rfl
@[simp] theorem State.hostError_scores (s : State) (w a : Nat) (b : Bool) : (s.hostError w a b).scores = s.scores := rfl
@[simp] theorem State.hostError_cores (s : State) (w a : Nat) (b : Bool) : (s.hostError w a b).cores = s.cores := rfl
@[simp] theorem State.hostError_teams (s : State) (w a : Nat) (b : Bool) : (s.hostError w a b).teams = s.teams := rfl
@[simp] theorem State.hostError_grids (s : State) (w a : Nat) (b : Bool) : (s.hostError w a b).grids = s.grids := rfl
@[simp] theorem State.hostError_graphs (s : State) (w a : Nat) (b : Bool) : (s.hostError w a b).graphs = s.graphs := rfl
@[simp] theorem State.hostError_stamps (s : State) (w a : Nat) (b : Bool) : (s.hostError w a b).stamps = s.stamps := rfl
@[simp] theorem State.hostError_ctl (s : State) (w a : Nat) (b : Bool) : (s.hostError w a b).ctl = s.ctl := rfl
@[simp] theorem State.hostError_issue (s : State) (w a : Nat) (b : Bool) : (s.hostError w a b).issue = s.issue := rfl
@[simp] theorem State.hostError_tick (s : State) (w a : Nat) (b : Bool) : (s.hostError w a b).tick = s.tick := rfl
@[simp] theorem State.hostError_nv (s : State) (w a : Nat) (b : Bool) : (s.hostError w a b).nv = s.nv := rfl
@[simp] theorem State.hostError_staging (s : State) (w a : Nat) (b : Bool) : (s.hostError w a b).staging = s.staging := rfl
@[simp] theorem State.hostError_down (s : State) (w a : Nat) (b : Bool) : (s.hostError w a b).down = s.down := rfl
@[simp] theorem State.hostError_flits (s : State) (w a : Nat) (b : Bool) : (s.hostError w a b).flits = s.flits := rfl
@[simp] theorem State.hostError_cycle (s : State) (w a : Nat) (b : Bool) : (s.hostError w a b).cycle = s.cycle := rfl

@[simp] theorem State.ackHw_hbm (s : State) (x : HwSrc) (w : Word) : (s.ackHw x w).hbm = s.hbm := by unfold State.ackHw; split <;> simp
@[simp] theorem State.ackHw_vlines (s : State) (x : HwSrc) (w : Word) : (s.ackHw x w).vlines = s.vlines := by unfold State.ackHw; split <;> simp
@[simp] theorem State.ackHw_fillq (s : State) (x : HwSrc) (w : Word) : (s.ackHw x w).fillq = s.fillq := by unfold State.ackHw; split <;> simp
@[simp] theorem State.ackHw_copies (s : State) (x : HwSrc) (w : Word) : (s.ackHw x w).copies = s.copies := by unfold State.ackHw; split <;> simp
@[simp] theorem State.ackHw_dies (s : State) (x : HwSrc) (w : Word) : (s.ackHw x w).dies = s.dies := by unfold State.ackHw; split <;> simp
@[simp] theorem State.ackHw_frames (s : State) (x : HwSrc) (w : Word) : (s.ackHw x w).frames = s.frames := by unfold State.ackHw; split <;> simp
@[simp] theorem State.ackHw_scores (s : State) (x : HwSrc) (w : Word) : (s.ackHw x w).scores = s.scores := by unfold State.ackHw; split <;> simp
@[simp] theorem State.ackHw_cores (s : State) (x : HwSrc) (w : Word) : (s.ackHw x w).cores = s.cores := by unfold State.ackHw; split <;> simp
@[simp] theorem State.ackHw_teams (s : State) (x : HwSrc) (w : Word) : (s.ackHw x w).teams = s.teams := by unfold State.ackHw; split <;> simp
@[simp] theorem State.ackHw_graphs (s : State) (x : HwSrc) (w : Word) : (s.ackHw x w).graphs = s.graphs := by unfold State.ackHw; split <;> simp
@[simp] theorem State.ackHw_stamps (s : State) (x : HwSrc) (w : Word) : (s.ackHw x w).stamps = s.stamps := by unfold State.ackHw; split <;> simp
@[simp] theorem State.ackHw_issue (s : State) (x : HwSrc) (w : Word) : (s.ackHw x w).issue = s.issue := by unfold State.ackHw; split <;> simp
@[simp] theorem State.ackHw_tick (s : State) (x : HwSrc) (w : Word) : (s.ackHw x w).tick = s.tick := by unfold State.ackHw; split <;> simp
@[simp] theorem State.ackHw_nv (s : State) (x : HwSrc) (w : Word) : (s.ackHw x w).nv = s.nv := by unfold State.ackHw; split <;> simp
@[simp] theorem State.ackHw_staging (s : State) (x : HwSrc) (w : Word) : (s.ackHw x w).staging = s.staging := by unfold State.ackHw; split <;> simp
@[simp] theorem State.ackHw_down (s : State) (x : HwSrc) (w : Word) : (s.ackHw x w).down = s.down := by unfold State.ackHw; split <;> simp
@[simp] theorem State.ackHw_flits (s : State) (x : HwSrc) (w : Word) : (s.ackHw x w).flits = s.flits := by unfold State.ackHw; split <;> simp
@[simp] theorem State.ackHw_cycle (s : State) (x : HwSrc) (w : Word) : (s.ackHw x w).cycle = s.cycle := by unfold State.ackHw; split <;> simp

@[simp] theorem State.ackHr_hbm (s : State) (x : HrSrc) (k : Nat) (l : Line) : (s.ackHr x k l).hbm = s.hbm := by unfold State.ackHr; split <;> rfl
@[simp] theorem State.ackHr_vlines (s : State) (x : HrSrc) (k : Nat) (l : Line) : (s.ackHr x k l).vlines = s.vlines := by unfold State.ackHr; split <;> rfl
@[simp] theorem State.ackHr_fillq (s : State) (x : HrSrc) (k : Nat) (l : Line) : (s.ackHr x k l).fillq = s.fillq := by unfold State.ackHr; split <;> rfl
@[simp] theorem State.ackHr_copies (s : State) (x : HrSrc) (k : Nat) (l : Line) : (s.ackHr x k l).copies = s.copies := by unfold State.ackHr; split <;> rfl
@[simp] theorem State.ackHr_dies (s : State) (x : HrSrc) (k : Nat) (l : Line) : (s.ackHr x k l).dies = s.dies := by unfold State.ackHr; split <;> rfl
@[simp] theorem State.ackHr_frames (s : State) (x : HrSrc) (k : Nat) (l : Line) : (s.ackHr x k l).frames = s.frames := by unfold State.ackHr; split <;> rfl
@[simp] theorem State.ackHr_scores (s : State) (x : HrSrc) (k : Nat) (l : Line) : (s.ackHr x k l).scores = s.scores := by unfold State.ackHr; split <;> rfl
@[simp] theorem State.ackHr_cores (s : State) (x : HrSrc) (k : Nat) (l : Line) : (s.ackHr x k l).cores = s.cores := by unfold State.ackHr; split <;> rfl
@[simp] theorem State.ackHr_teams (s : State) (x : HrSrc) (k : Nat) (l : Line) : (s.ackHr x k l).teams = s.teams := by unfold State.ackHr; split <;> rfl
@[simp] theorem State.ackHr_grids (s : State) (x : HrSrc) (k : Nat) (l : Line) : (s.ackHr x k l).grids = s.grids := by unfold State.ackHr; split <;> rfl
@[simp] theorem State.ackHr_graphs (s : State) (x : HrSrc) (k : Nat) (l : Line) : (s.ackHr x k l).graphs = s.graphs := by unfold State.ackHr; split <;> rfl
@[simp] theorem State.ackHr_stamps (s : State) (x : HrSrc) (k : Nat) (l : Line) : (s.ackHr x k l).stamps = s.stamps := by unfold State.ackHr; split <;> rfl
@[simp] theorem State.ackHr_ctl (s : State) (x : HrSrc) (k : Nat) (l : Line) : (s.ackHr x k l).ctl = s.ctl := by unfold State.ackHr; split <;> rfl
@[simp] theorem State.ackHr_issue (s : State) (x : HrSrc) (k : Nat) (l : Line) : (s.ackHr x k l).issue = s.issue := by unfold State.ackHr; split <;> rfl
@[simp] theorem State.ackHr_tick (s : State) (x : HrSrc) (k : Nat) (l : Line) : (s.ackHr x k l).tick = s.tick := by unfold State.ackHr; split <;> rfl
@[simp] theorem State.ackHr_nv (s : State) (x : HrSrc) (k : Nat) (l : Line) : (s.ackHr x k l).nv = s.nv := by unfold State.ackHr; split <;> rfl
@[simp] theorem State.ackHr_staging (s : State) (x : HrSrc) (k : Nat) (l : Line) : (s.ackHr x k l).staging = s.staging := by unfold State.ackHr; split <;> rfl
@[simp] theorem State.ackHr_down (s : State) (x : HrSrc) (k : Nat) (l : Line) : (s.ackHr x k l).down = s.down := by unfold State.ackHr; split <;> rfl
@[simp] theorem State.ackHr_flits (s : State) (x : HrSrc) (k : Nat) (l : Line) : (s.ackHr x k l).flits = s.flits := by unfold State.ackHr; split <;> rfl
@[simp] theorem State.ackHr_cycle (s : State) (x : HrSrc) (k : Nat) (l : Line) : (s.ackHr x k l).cycle = s.cycle := by unfold State.ackHr; split <;> rfl

@[simp] theorem State.refuse_hbm (s : State) (x : Nat) (r : Req) (c : Nat) : (s.refuse x r c).hbm = s.hbm := by unfold State.refuse; simp only; (repeat' split) <;> simp
@[simp] theorem State.refuse_vlines (s : State) (x : Nat) (r : Req) (c : Nat) : (s.refuse x r c).vlines = s.vlines := by unfold State.refuse; simp only; (repeat' split) <;> simp
@[simp] theorem State.refuse_fillq (s : State) (x : Nat) (r : Req) (c : Nat) : (s.refuse x r c).fillq = s.fillq := by unfold State.refuse; simp only; (repeat' split) <;> simp
@[simp] theorem State.refuse_copies (s : State) (x : Nat) (r : Req) (c : Nat) : (s.refuse x r c).copies = s.copies := by unfold State.refuse; simp only; (repeat' split) <;> simp
@[simp] theorem State.refuse_dies (s : State) (x : Nat) (r : Req) (c : Nat) : (s.refuse x r c).dies = s.dies := by unfold State.refuse; simp only; (repeat' split) <;> simp
@[simp] theorem State.refuse_frames (s : State) (x : Nat) (r : Req) (c : Nat) : (s.refuse x r c).frames = s.frames := by unfold State.refuse; simp only; (repeat' split) <;> simp
@[simp] theorem State.refuse_scores (s : State) (x : Nat) (r : Req) (c : Nat) : (s.refuse x r c).scores = s.scores := by unfold State.refuse; simp only; (repeat' split) <;> simp
@[simp] theorem State.refuse_cores (s : State) (x : Nat) (r : Req) (c : Nat) : (s.refuse x r c).cores = s.cores := by unfold State.refuse; simp only; (repeat' split) <;> simp
@[simp] theorem State.refuse_graphs (s : State) (x : Nat) (r : Req) (c : Nat) : (s.refuse x r c).graphs = s.graphs := by unfold State.refuse; simp only; (repeat' split) <;> simp
@[simp] theorem State.refuse_stamps (s : State) (x : Nat) (r : Req) (c : Nat) : (s.refuse x r c).stamps = s.stamps := by unfold State.refuse; simp only; (repeat' split) <;> simp
@[simp] theorem State.refuse_issue (s : State) (x : Nat) (r : Req) (c : Nat) : (s.refuse x r c).issue = s.issue := by unfold State.refuse; simp only; (repeat' split) <;> simp
@[simp] theorem State.refuse_tick (s : State) (x : Nat) (r : Req) (c : Nat) : (s.refuse x r c).tick = s.tick := by unfold State.refuse; simp only; (repeat' split) <;> simp
@[simp] theorem State.refuse_nv (s : State) (x : Nat) (r : Req) (c : Nat) : (s.refuse x r c).nv = s.nv := by unfold State.refuse; simp only; (repeat' split) <;> simp
@[simp] theorem State.refuse_staging (s : State) (x : Nat) (r : Req) (c : Nat) : (s.refuse x r c).staging = s.staging := by unfold State.refuse; simp only; (repeat' split) <;> simp
@[simp] theorem State.refuse_down (s : State) (x : Nat) (r : Req) (c : Nat) : (s.refuse x r c).down = s.down := by unfold State.refuse; simp only; (repeat' split) <;> simp
@[simp] theorem State.refuse_flits (s : State) (x : Nat) (r : Req) (c : Nat) : (s.refuse x r c).flits = s.flits := by unfold State.refuse; simp only; (repeat' split) <;> simp
@[simp] theorem State.refuse_cycle (s : State) (x : Nat) (r : Req) (c : Nat) : (s.refuse x r c).cycle = s.cycle := by unfold State.refuse; simp only; (repeat' split) <;> simp

/-! ### What the accessors read -/

@[simp] theorem State.laterOnce_vl (s : State) (i : Instr) (x : Nat) : (s.laterOnce i).vl x = s.vl x := by simp only [State.vl, State.laterOnce_vlines]
@[simp] theorem State.laterOnce_copy (s : State) (i : Instr) (a x : Nat) : (s.laterOnce i).copy a x = s.copy a x := by simp only [State.copy, State.laterOnce_copies]
@[simp] theorem State.laterOnce_cw (s : State) (i : Instr) (k : Nat) : (s.laterOnce i).cw k = s.cw k := by simp only [State.cw, State.laterOnce_ctl]
@[simp] theorem State.laterOnce_cwInt (s : State) (i : Instr) (k : Nat) : (s.laterOnce i).cwInt k = s.cwInt k := by simp only [State.cwInt, State.laterOnce_cw]
@[simp] theorem State.laterOnce_frame (s : State) (i : Instr) (f : Nat) : (s.laterOnce i).frame f = s.frame f := by simp only [State.frame, State.laterOnce_frames]
@[simp] theorem State.laterOnce_team? (s : State) (i : Instr) (m : Nat) : (s.laterOnce i).team? m = s.team? m := by simp only [State.team?, State.laterOnce_teams]
@[simp] theorem State.laterOnce_squad? (s : State) (i : Instr) (m p : Nat) : (s.laterOnce i).squad? m p = s.squad? m p := by simp only [State.squad?, State.laterOnce_team?]
@[simp] theorem State.laterOnce_thread? (s : State) (i : Instr) (u : TRef) : (s.laterOnce i).thread? u = s.thread? u := by simp only [State.thread?, State.laterOnce_squad?]
@[simp] theorem State.laterOnce_grid? (s : State) (i : Instr) (m : Nat) : (s.laterOnce i).grid? m = s.grid? m := by simp only [State.grid?, State.laterOnce_grids]
@[simp] theorem State.laterOnce_graph? (s : State) (i : Instr) (m : Nat) : (s.laterOnce i).graph? m = s.graph? m := by simp only [State.graph?, State.laterOnce_graphs]
@[simp] theorem State.laterOnce_die (s : State) (i : Instr) (m : Nat) : (s.laterOnce i).die m = s.die m := by simp only [State.die, State.laterOnce_dies]
@[simp] theorem State.laterOnce_core (s : State) (i : Instr) (m : Nat) : (s.laterOnce i).core m = s.core m := by simp only [State.core, State.laterOnce_cores]
@[simp] theorem State.laterOnce_stampOf (s : State) (i : Instr) (p : Nat) : (s.laterOnce i).stampOf p = s.stampOf p := by simp only [State.stampOf, State.laterOnce_stamps]

@[simp] theorem State.killGrid_vl (s : State) (g : Nat) (x : Nat) : (s.killGrid g).vl x = s.vl x := by simp only [State.vl, State.killGrid_vlines]
@[simp] theorem State.killGrid_copy (s : State) (g : Nat) (a x : Nat) : (s.killGrid g).copy a x = s.copy a x := by simp only [State.copy, State.killGrid_copies]
@[simp] theorem State.killGrid_cw (s : State) (g : Nat) (k : Nat) : (s.killGrid g).cw k = s.cw k := by simp only [State.cw, State.killGrid_ctl]
@[simp] theorem State.killGrid_cwInt (s : State) (g : Nat) (k : Nat) : (s.killGrid g).cwInt k = s.cwInt k := by simp only [State.cwInt, State.killGrid_cw]
@[simp] theorem State.killGrid_frame (s : State) (g : Nat) (f : Nat) : (s.killGrid g).frame f = s.frame f := by simp only [State.frame, State.killGrid_frames]
@[simp] theorem State.killGrid_graph? (s : State) (g : Nat) (m : Nat) : (s.killGrid g).graph? m = s.graph? m := by simp only [State.graph?, State.killGrid_graphs]
@[simp] theorem State.killGrid_die (s : State) (g : Nat) (m : Nat) : (s.killGrid g).die m = s.die m := by simp only [State.die, State.killGrid_dies]
@[simp] theorem State.killGrid_core (s : State) (g : Nat) (m : Nat) : (s.killGrid g).core m = s.core m := by simp only [State.core, State.killGrid_cores]
@[simp] theorem State.killGrid_stampOf (s : State) (g : Nat) (p : Nat) : (s.killGrid g).stampOf p = s.stampOf p := by simp only [State.stampOf, State.killGrid_stamps]

@[simp] theorem State.logLine_vl (s : State) (e : Event) (act : Int) (b : Bool) (x : Nat) : (s.logLine e act b).vl x = s.vl x := by simp only [State.vl, State.logLine_vlines]
@[simp] theorem State.logLine_copy (s : State) (e : Event) (act : Int) (b : Bool) (a x : Nat) : (s.logLine e act b).copy a x = s.copy a x := by simp only [State.copy, State.logLine_copies]
@[simp] theorem State.logLine_cw (s : State) (e : Event) (act : Int) (b : Bool) (k : Nat) : (s.logLine e act b).cw k = s.cw k := by simp only [State.cw, State.logLine_ctl]
@[simp] theorem State.logLine_cwInt (s : State) (e : Event) (act : Int) (b : Bool) (k : Nat) : (s.logLine e act b).cwInt k = s.cwInt k := by simp only [State.cwInt, State.logLine_cw]
@[simp] theorem State.logLine_frame (s : State) (e : Event) (act : Int) (b : Bool) (f : Nat) : (s.logLine e act b).frame f = s.frame f := by simp only [State.frame, State.logLine_frames]
@[simp] theorem State.logLine_team? (s : State) (e : Event) (act : Int) (b : Bool) (m : Nat) : (s.logLine e act b).team? m = s.team? m := by simp only [State.team?, State.logLine_teams]
@[simp] theorem State.logLine_squad? (s : State) (e : Event) (act : Int) (b : Bool) (m p : Nat) : (s.logLine e act b).squad? m p = s.squad? m p := by simp only [State.squad?, State.logLine_team?]
@[simp] theorem State.logLine_thread? (s : State) (e : Event) (act : Int) (b : Bool) (u : TRef) : (s.logLine e act b).thread? u = s.thread? u := by simp only [State.thread?, State.logLine_squad?]
@[simp] theorem State.logLine_grid? (s : State) (e : Event) (act : Int) (b : Bool) (m : Nat) : (s.logLine e act b).grid? m = s.grid? m := by simp only [State.grid?, State.logLine_grids]
@[simp] theorem State.logLine_graph? (s : State) (e : Event) (act : Int) (b : Bool) (m : Nat) : (s.logLine e act b).graph? m = s.graph? m := by simp only [State.graph?, State.logLine_graphs]
@[simp] theorem State.logLine_die (s : State) (e : Event) (act : Int) (b : Bool) (m : Nat) : (s.logLine e act b).die m = s.die m := by simp only [State.die, State.logLine_dies]
@[simp] theorem State.logLine_core (s : State) (e : Event) (act : Int) (b : Bool) (m : Nat) : (s.logLine e act b).core m = s.core m := by simp only [State.core, State.logLine_cores]
@[simp] theorem State.logLine_stampOf (s : State) (e : Event) (act : Int) (b : Bool) (p : Nat) : (s.logLine e act b).stampOf p = s.stampOf p := by simp only [State.stampOf, State.logLine_stamps]

@[simp] theorem State.raise_vl (s : State) (e : Event) (x : Nat) : (s.raise e).vl x = s.vl x := by simp only [State.vl, State.raise_vlines]
@[simp] theorem State.raise_copy (s : State) (e : Event) (a x : Nat) : (s.raise e).copy a x = s.copy a x := by simp only [State.copy, State.raise_copies]
@[simp] theorem State.raise_cw (s : State) (e : Event) (k : Nat) : (s.raise e).cw k = s.cw k := by simp only [State.cw, State.raise_ctl]
@[simp] theorem State.raise_cwInt (s : State) (e : Event) (k : Nat) : (s.raise e).cwInt k = s.cwInt k := by simp only [State.cwInt, State.raise_cw]
@[simp] theorem State.raise_frame (s : State) (e : Event) (f : Nat) : (s.raise e).frame f = s.frame f := by simp only [State.frame, State.raise_frames]
@[simp] theorem State.raise_graph? (s : State) (e : Event) (m : Nat) : (s.raise e).graph? m = s.graph? m := by simp only [State.graph?, State.raise_graphs]
@[simp] theorem State.raise_die (s : State) (e : Event) (m : Nat) : (s.raise e).die m = s.die m := by simp only [State.die, State.raise_dies]
@[simp] theorem State.raise_core (s : State) (e : Event) (m : Nat) : (s.raise e).core m = s.core m := by simp only [State.core, State.raise_cores]
@[simp] theorem State.raise_stampOf (s : State) (e : Event) (p : Nat) : (s.raise e).stampOf p = s.stampOf p := by simp only [State.stampOf, State.raise_stamps]

@[simp] theorem State.raiseFixed_vl (s : State) (l : List Nat) (a x : Nat) (x' : Nat) : (s.raiseFixed l a x).vl x' = s.vl x' := by simp only [State.vl, State.raiseFixed_vlines]
@[simp] theorem State.raiseFixed_copy (s : State) (l : List Nat) (a x : Nat) (a' x' : Nat) : (s.raiseFixed l a x).copy a' x' = s.copy a' x' := by simp only [State.copy, State.raiseFixed_copies]
@[simp] theorem State.raiseFixed_cw (s : State) (l : List Nat) (a x : Nat) (k : Nat) : (s.raiseFixed l a x).cw k = s.cw k := by simp only [State.cw, State.raiseFixed_ctl]
@[simp] theorem State.raiseFixed_cwInt (s : State) (l : List Nat) (a x : Nat) (k : Nat) : (s.raiseFixed l a x).cwInt k = s.cwInt k := by simp only [State.cwInt, State.raiseFixed_cw]
@[simp] theorem State.raiseFixed_frame (s : State) (l : List Nat) (a x : Nat) (f : Nat) : (s.raiseFixed l a x).frame f = s.frame f := by simp only [State.frame, State.raiseFixed_frames]
@[simp] theorem State.raiseFixed_graph? (s : State) (l : List Nat) (a x : Nat) (m : Nat) : (s.raiseFixed l a x).graph? m = s.graph? m := by simp only [State.graph?, State.raiseFixed_graphs]
@[simp] theorem State.raiseFixed_die (s : State) (l : List Nat) (a x : Nat) (m : Nat) : (s.raiseFixed l a x).die m = s.die m := by simp only [State.die, State.raiseFixed_dies]
@[simp] theorem State.raiseFixed_core (s : State) (l : List Nat) (a x : Nat) (m : Nat) : (s.raiseFixed l a x).core m = s.core m := by simp only [State.core, State.raiseFixed_cores]
@[simp] theorem State.raiseFixed_stampOf (s : State) (l : List Nat) (a x : Nat) (p : Nat) : (s.raiseFixed l a x).stampOf p = s.stampOf p := by simp only [State.stampOf, State.raiseFixed_stamps]

@[simp] theorem State.orphan_vl (s : State) (b : Bool) (a x : Nat) (x' : Nat) : (s.orphan b a x).vl x' = s.vl x' := by simp only [State.vl, State.orphan_vlines]
@[simp] theorem State.orphan_copy (s : State) (b : Bool) (a x : Nat) (a' x' : Nat) : (s.orphan b a x).copy a' x' = s.copy a' x' := by simp only [State.copy, State.orphan_copies]
@[simp] theorem State.orphan_cw (s : State) (b : Bool) (a x : Nat) (k : Nat) : (s.orphan b a x).cw k = s.cw k := by simp only [State.cw, State.orphan_ctl]
@[simp] theorem State.orphan_cwInt (s : State) (b : Bool) (a x : Nat) (k : Nat) : (s.orphan b a x).cwInt k = s.cwInt k := by simp only [State.cwInt, State.orphan_cw]
@[simp] theorem State.orphan_frame (s : State) (b : Bool) (a x : Nat) (f : Nat) : (s.orphan b a x).frame f = s.frame f := by simp only [State.frame, State.orphan_frames]
@[simp] theorem State.orphan_graph? (s : State) (b : Bool) (a x : Nat) (m : Nat) : (s.orphan b a x).graph? m = s.graph? m := by simp only [State.graph?, State.orphan_graphs]
@[simp] theorem State.orphan_die (s : State) (b : Bool) (a x : Nat) (m : Nat) : (s.orphan b a x).die m = s.die m := by simp only [State.die, State.orphan_dies]
@[simp] theorem State.orphan_core (s : State) (b : Bool) (a x : Nat) (m : Nat) : (s.orphan b a x).core m = s.core m := by simp only [State.core, State.orphan_cores]
@[simp] theorem State.orphan_stampOf (s : State) (b : Bool) (a x : Nat) (p : Nat) : (s.orphan b a x).stampOf p = s.stampOf p := by simp only [State.stampOf, State.orphan_stamps]

@[simp] theorem State.refuseUnit_vl (s : State) (x : Nat) (x' : Nat) : (s.refuseUnit x).vl x' = s.vl x' := by simp only [State.vl, State.refuseUnit_vlines]
@[simp] theorem State.refuseUnit_copy (s : State) (x : Nat) (a x' : Nat) : (s.refuseUnit x).copy a x' = s.copy a x' := by simp only [State.copy, State.refuseUnit_copies]
@[simp] theorem State.refuseUnit_cw (s : State) (x : Nat) (k : Nat) : (s.refuseUnit x).cw k = s.cw k := by simp only [State.cw, State.refuseUnit_ctl]
@[simp] theorem State.refuseUnit_cwInt (s : State) (x : Nat) (k : Nat) : (s.refuseUnit x).cwInt k = s.cwInt k := by simp only [State.cwInt, State.refuseUnit_cw]
@[simp] theorem State.refuseUnit_frame (s : State) (x : Nat) (f : Nat) : (s.refuseUnit x).frame f = s.frame f := by simp only [State.frame, State.refuseUnit_frames]
@[simp] theorem State.refuseUnit_graph? (s : State) (x : Nat) (m : Nat) : (s.refuseUnit x).graph? m = s.graph? m := by simp only [State.graph?, State.refuseUnit_graphs]
@[simp] theorem State.refuseUnit_die (s : State) (x : Nat) (m : Nat) : (s.refuseUnit x).die m = s.die m := by simp only [State.die, State.refuseUnit_dies]
@[simp] theorem State.refuseUnit_core (s : State) (x : Nat) (m : Nat) : (s.refuseUnit x).core m = s.core m := by simp only [State.core, State.refuseUnit_cores]
@[simp] theorem State.refuseUnit_stampOf (s : State) (x : Nat) (p : Nat) : (s.refuseUnit x).stampOf p = s.stampOf p := by simp only [State.stampOf, State.refuseUnit_stamps]

@[simp] theorem State.score_vl (s : State) (x k : Nat) (x' : Nat) : (s.score x k).vl x' = s.vl x' := by simp only [State.vl, State.score_vlines]
@[simp] theorem State.score_copy (s : State) (x k : Nat) (a x' : Nat) : (s.score x k).copy a x' = s.copy a x' := by simp only [State.copy, State.score_copies]
@[simp] theorem State.score_cw (s : State) (x k : Nat) (k' : Nat) : (s.score x k).cw k' = s.cw k' := by simp only [State.cw, State.score_ctl]
@[simp] theorem State.score_cwInt (s : State) (x k : Nat) (k' : Nat) : (s.score x k).cwInt k' = s.cwInt k' := by simp only [State.cwInt, State.score_cw]
@[simp] theorem State.score_frame (s : State) (x k : Nat) (f : Nat) : (s.score x k).frame f = s.frame f := by simp only [State.frame, State.score_frames]
@[simp] theorem State.score_graph? (s : State) (x k : Nat) (m : Nat) : (s.score x k).graph? m = s.graph? m := by simp only [State.graph?, State.score_graphs]
@[simp] theorem State.score_die (s : State) (x k : Nat) (m : Nat) : (s.score x k).die m = s.die m := by simp only [State.die, State.score_dies]
@[simp] theorem State.score_core (s : State) (x k : Nat) (m : Nat) : (s.score x k).core m = s.core m := by simp only [State.core, State.score_cores]
@[simp] theorem State.score_stampOf (s : State) (x k : Nat) (p : Nat) : (s.score x k).stampOf p = s.stampOf p := by simp only [State.stampOf, State.score_stamps]

@[simp] theorem State.uncorrectable_vl (s : State) (x : Nat) (x' : Nat) : (s.uncorrectable x).vl x' = s.vl x' := by simp only [State.vl, State.uncorrectable_vlines]
@[simp] theorem State.uncorrectable_copy (s : State) (x : Nat) (a x' : Nat) : (s.uncorrectable x).copy a x' = s.copy a x' := by simp only [State.copy, State.uncorrectable_copies]
@[simp] theorem State.uncorrectable_cw (s : State) (x : Nat) (k : Nat) : (s.uncorrectable x).cw k = s.cw k := by simp only [State.cw, State.uncorrectable_ctl]
@[simp] theorem State.uncorrectable_cwInt (s : State) (x : Nat) (k : Nat) : (s.uncorrectable x).cwInt k = s.cwInt k := by simp only [State.cwInt, State.uncorrectable_cw]
@[simp] theorem State.uncorrectable_frame (s : State) (x : Nat) (f : Nat) : (s.uncorrectable x).frame f = s.frame f := by simp only [State.frame, State.uncorrectable_frames]
@[simp] theorem State.uncorrectable_graph? (s : State) (x : Nat) (m : Nat) : (s.uncorrectable x).graph? m = s.graph? m := by simp only [State.graph?, State.uncorrectable_graphs]
@[simp] theorem State.uncorrectable_die (s : State) (x : Nat) (m : Nat) : (s.uncorrectable x).die m = s.die m := by simp only [State.die, State.uncorrectable_dies]
@[simp] theorem State.uncorrectable_core (s : State) (x : Nat) (m : Nat) : (s.uncorrectable x).core m = s.core m := by simp only [State.core, State.uncorrectable_cores]
@[simp] theorem State.uncorrectable_stampOf (s : State) (x : Nat) (p : Nat) : (s.uncorrectable x).stampOf p = s.stampOf p := by simp only [State.stampOf, State.uncorrectable_stamps]

@[simp] theorem State.hbmFetch_vl (s : State) (x : Nat) (x' : Nat) : ((s.hbmFetch x).1).vl x' = s.vl x' := by simp only [State.vl, State.hbmFetch_vlines]
@[simp] theorem State.hbmFetch_copy (s : State) (x : Nat) (a x' : Nat) : ((s.hbmFetch x).1).copy a x' = s.copy a x' := by simp only [State.copy, State.hbmFetch_copies]
@[simp] theorem State.hbmFetch_cw (s : State) (x : Nat) (k : Nat) : ((s.hbmFetch x).1).cw k = s.cw k := by simp only [State.cw, State.hbmFetch_ctl]
@[simp] theorem State.hbmFetch_cwInt (s : State) (x : Nat) (k : Nat) : ((s.hbmFetch x).1).cwInt k = s.cwInt k := by simp only [State.cwInt, State.hbmFetch_cw]
@[simp] theorem State.hbmFetch_frame (s : State) (x : Nat) (f : Nat) : ((s.hbmFetch x).1).frame f = s.frame f := by simp only [State.frame, State.hbmFetch_frames]
@[simp] theorem State.hbmFetch_graph? (s : State) (x : Nat) (m : Nat) : ((s.hbmFetch x).1).graph? m = s.graph? m := by simp only [State.graph?, State.hbmFetch_graphs]
@[simp] theorem State.hbmFetch_die (s : State) (x : Nat) (m : Nat) : ((s.hbmFetch x).1).die m = s.die m := by simp only [State.die, State.hbmFetch_dies]
@[simp] theorem State.hbmFetch_core (s : State) (x : Nat) (m : Nat) : ((s.hbmFetch x).1).core m = s.core m := by simp only [State.core, State.hbmFetch_cores]
@[simp] theorem State.hbmFetch_stampOf (s : State) (x : Nat) (p : Nat) : ((s.hbmFetch x).1).stampOf p = s.stampOf p := by simp only [State.stampOf, State.hbmFetch_stamps]

@[simp] theorem State.sample_vl (s : State) (x : Nat) (l : Line) (e : Bool) (x' : Nat) : (s.sample x l e).vl x' = s.vl x' := by simp only [State.vl, State.sample_vlines]
@[simp] theorem State.sample_copy (s : State) (x : Nat) (l : Line) (e : Bool) (a x' : Nat) : (s.sample x l e).copy a x' = s.copy a x' := by simp only [State.copy, State.sample_copies]
@[simp] theorem State.sample_cw (s : State) (x : Nat) (l : Line) (e : Bool) (k : Nat) : (s.sample x l e).cw k = s.cw k := by simp only [State.cw, State.sample_ctl]
@[simp] theorem State.sample_cwInt (s : State) (x : Nat) (l : Line) (e : Bool) (k : Nat) : (s.sample x l e).cwInt k = s.cwInt k := by simp only [State.cwInt, State.sample_cw]
@[simp] theorem State.sample_frame (s : State) (x : Nat) (l : Line) (e : Bool) (f : Nat) : (s.sample x l e).frame f = s.frame f := by simp only [State.frame, State.sample_frames]
@[simp] theorem State.sample_team? (s : State) (x : Nat) (l : Line) (e : Bool) (m : Nat) : (s.sample x l e).team? m = s.team? m := by simp only [State.team?, State.sample_teams]
@[simp] theorem State.sample_squad? (s : State) (x : Nat) (l : Line) (e : Bool) (m p : Nat) : (s.sample x l e).squad? m p = s.squad? m p := by simp only [State.squad?, State.sample_team?]
@[simp] theorem State.sample_thread? (s : State) (x : Nat) (l : Line) (e : Bool) (u : TRef) : (s.sample x l e).thread? u = s.thread? u := by simp only [State.thread?, State.sample_squad?]
@[simp] theorem State.sample_grid? (s : State) (x : Nat) (l : Line) (e : Bool) (m : Nat) : (s.sample x l e).grid? m = s.grid? m := by simp only [State.grid?, State.sample_grids]
@[simp] theorem State.sample_graph? (s : State) (x : Nat) (l : Line) (e : Bool) (m : Nat) : (s.sample x l e).graph? m = s.graph? m := by simp only [State.graph?, State.sample_graphs]
@[simp] theorem State.sample_core (s : State) (x : Nat) (l : Line) (e : Bool) (m : Nat) : (s.sample x l e).core m = s.core m := by simp only [State.core, State.sample_cores]
@[simp] theorem State.sample_stampOf (s : State) (x : Nat) (l : Line) (e : Bool) (p : Nat) : (s.sample x l e).stampOf p = s.stampOf p := by simp only [State.stampOf, State.sample_stamps]

@[simp] theorem State.hbmStore_vl (s : State) (x : Nat) (l : Line) (e : Bool) (x' : Nat) : (s.hbmStore x l e).vl x' = s.vl x' := by simp only [State.vl, State.hbmStore_vlines]
@[simp] theorem State.hbmStore_copy (s : State) (x : Nat) (l : Line) (e : Bool) (a x' : Nat) : (s.hbmStore x l e).copy a x' = s.copy a x' := by simp only [State.copy, State.hbmStore_copies]
@[simp] theorem State.hbmStore_cw (s : State) (x : Nat) (l : Line) (e : Bool) (k : Nat) : (s.hbmStore x l e).cw k = s.cw k := by simp only [State.cw, State.hbmStore_ctl]
@[simp] theorem State.hbmStore_cwInt (s : State) (x : Nat) (l : Line) (e : Bool) (k : Nat) : (s.hbmStore x l e).cwInt k = s.cwInt k := by simp only [State.cwInt, State.hbmStore_cw]
@[simp] theorem State.hbmStore_frame (s : State) (x : Nat) (l : Line) (e : Bool) (f : Nat) : (s.hbmStore x l e).frame f = s.frame f := by simp only [State.frame, State.hbmStore_frames]
@[simp] theorem State.hbmStore_team? (s : State) (x : Nat) (l : Line) (e : Bool) (m : Nat) : (s.hbmStore x l e).team? m = s.team? m := by simp only [State.team?, State.hbmStore_teams]
@[simp] theorem State.hbmStore_squad? (s : State) (x : Nat) (l : Line) (e : Bool) (m p : Nat) : (s.hbmStore x l e).squad? m p = s.squad? m p := by simp only [State.squad?, State.hbmStore_team?]
@[simp] theorem State.hbmStore_thread? (s : State) (x : Nat) (l : Line) (e : Bool) (u : TRef) : (s.hbmStore x l e).thread? u = s.thread? u := by simp only [State.thread?, State.hbmStore_squad?]
@[simp] theorem State.hbmStore_grid? (s : State) (x : Nat) (l : Line) (e : Bool) (m : Nat) : (s.hbmStore x l e).grid? m = s.grid? m := by simp only [State.grid?, State.hbmStore_grids]
@[simp] theorem State.hbmStore_graph? (s : State) (x : Nat) (l : Line) (e : Bool) (m : Nat) : (s.hbmStore x l e).graph? m = s.graph? m := by simp only [State.graph?, State.hbmStore_graphs]
@[simp] theorem State.hbmStore_die (s : State) (x : Nat) (l : Line) (e : Bool) (m : Nat) : (s.hbmStore x l e).die m = s.die m := by simp only [State.die, State.hbmStore_dies]
@[simp] theorem State.hbmStore_core (s : State) (x : Nat) (l : Line) (e : Bool) (m : Nat) : (s.hbmStore x l e).core m = s.core m := by simp only [State.core, State.hbmStore_cores]
@[simp] theorem State.hbmStore_stampOf (s : State) (x : Nat) (l : Line) (e : Bool) (p : Nat) : (s.hbmStore x l e).stampOf p = s.stampOf p := by simp only [State.stampOf, State.hbmStore_stamps]

@[simp] theorem State.leave_cw (s : State) (a x : Nat) (d : Option Line) (k : Nat) : (s.leave a x d).cw k = s.cw k := by simp only [State.cw, State.leave_ctl]
@[simp] theorem State.leave_cwInt (s : State) (a x : Nat) (d : Option Line) (k : Nat) : (s.leave a x d).cwInt k = s.cwInt k := by simp only [State.cwInt, State.leave_cw]
@[simp] theorem State.leave_frame (s : State) (a x : Nat) (d : Option Line) (f : Nat) : (s.leave a x d).frame f = s.frame f := by simp only [State.frame, State.leave_frames]
@[simp] theorem State.leave_team? (s : State) (a x : Nat) (d : Option Line) (m : Nat) : (s.leave a x d).team? m = s.team? m := by simp only [State.team?, State.leave_teams]
@[simp] theorem State.leave_squad? (s : State) (a x : Nat) (d : Option Line) (m p : Nat) : (s.leave a x d).squad? m p = s.squad? m p := by simp only [State.squad?, State.leave_team?]
@[simp] theorem State.leave_thread? (s : State) (a x : Nat) (d : Option Line) (u : TRef) : (s.leave a x d).thread? u = s.thread? u := by simp only [State.thread?, State.leave_squad?]
@[simp] theorem State.leave_grid? (s : State) (a x : Nat) (d : Option Line) (m : Nat) : (s.leave a x d).grid? m = s.grid? m := by simp only [State.grid?, State.leave_grids]
@[simp] theorem State.leave_graph? (s : State) (a x : Nat) (d : Option Line) (m : Nat) : (s.leave a x d).graph? m = s.graph? m := by simp only [State.graph?, State.leave_graphs]
@[simp] theorem State.leave_core (s : State) (a x : Nat) (d : Option Line) (m : Nat) : (s.leave a x d).core m = s.core m := by simp only [State.core, State.leave_cores]
@[simp] theorem State.leave_stampOf (s : State) (a x : Nat) (d : Option Line) (p : Nat) : (s.leave a x d).stampOf p = s.stampOf p := by simp only [State.stampOf, State.leave_stamps]

@[simp] theorem State.checkVl_copy (s : State) (v : VLine) (a x : Nat) : ((s.checkVl v).1).copy a x = s.copy a x := by simp only [State.copy, State.checkVl_copies]
@[simp] theorem State.checkVl_cw (s : State) (v : VLine) (k : Nat) : ((s.checkVl v).1).cw k = s.cw k := by simp only [State.cw, State.checkVl_ctl]
@[simp] theorem State.checkVl_cwInt (s : State) (v : VLine) (k : Nat) : ((s.checkVl v).1).cwInt k = s.cwInt k := by simp only [State.cwInt, State.checkVl_cw]
@[simp] theorem State.checkVl_frame (s : State) (v : VLine) (f : Nat) : ((s.checkVl v).1).frame f = s.frame f := by simp only [State.frame, State.checkVl_frames]
@[simp] theorem State.checkVl_graph? (s : State) (v : VLine) (m : Nat) : ((s.checkVl v).1).graph? m = s.graph? m := by simp only [State.graph?, State.checkVl_graphs]
@[simp] theorem State.checkVl_die (s : State) (v : VLine) (m : Nat) : ((s.checkVl v).1).die m = s.die m := by simp only [State.die, State.checkVl_dies]
@[simp] theorem State.checkVl_core (s : State) (v : VLine) (m : Nat) : ((s.checkVl v).1).core m = s.core m := by simp only [State.core, State.checkVl_cores]
@[simp] theorem State.checkVl_stampOf (s : State) (v : VLine) (p : Nat) : ((s.checkVl v).1).stampOf p = s.stampOf p := by simp only [State.stampOf, State.checkVl_stamps]

@[simp] theorem State.checkCopy_cw (s : State) (c : Copy) (k : Nat) : ((s.checkCopy c).1).cw k = s.cw k := by simp only [State.cw, State.checkCopy_ctl]
@[simp] theorem State.checkCopy_cwInt (s : State) (c : Copy) (k : Nat) : ((s.checkCopy c).1).cwInt k = s.cwInt k := by simp only [State.cwInt, State.checkCopy_cw]
@[simp] theorem State.checkCopy_frame (s : State) (c : Copy) (f : Nat) : ((s.checkCopy c).1).frame f = s.frame f := by simp only [State.frame, State.checkCopy_frames]
@[simp] theorem State.checkCopy_graph? (s : State) (c : Copy) (m : Nat) : ((s.checkCopy c).1).graph? m = s.graph? m := by simp only [State.graph?, State.checkCopy_graphs]
@[simp] theorem State.checkCopy_core (s : State) (c : Copy) (m : Nat) : ((s.checkCopy c).1).core m = s.core m := by simp only [State.core, State.checkCopy_cores]
@[simp] theorem State.checkCopy_stampOf (s : State) (c : Copy) (p : Nat) : ((s.checkCopy c).1).stampOf p = s.stampOf p := by simp only [State.stampOf, State.checkCopy_stamps]

@[simp] theorem State.takeDirty_cw (s : State) (x : Nat) (k : Nat) : ((s.takeDirty x).1).cw k = s.cw k := by simp only [State.cw, State.takeDirty_ctl]
@[simp] theorem State.takeDirty_cwInt (s : State) (x : Nat) (k : Nat) : ((s.takeDirty x).1).cwInt k = s.cwInt k := by simp only [State.cwInt, State.takeDirty_cw]
@[simp] theorem State.takeDirty_frame (s : State) (x : Nat) (f : Nat) : ((s.takeDirty x).1).frame f = s.frame f := by simp only [State.frame, State.takeDirty_frames]
@[simp] theorem State.takeDirty_graph? (s : State) (x : Nat) (m : Nat) : ((s.takeDirty x).1).graph? m = s.graph? m := by simp only [State.graph?, State.takeDirty_graphs]
@[simp] theorem State.takeDirty_core (s : State) (x : Nat) (m : Nat) : ((s.takeDirty x).1).core m = s.core m := by simp only [State.core, State.takeDirty_cores]
@[simp] theorem State.takeDirty_stampOf (s : State) (x : Nat) (p : Nat) : ((s.takeDirty x).1).stampOf p = s.stampOf p := by simp only [State.stampOf, State.takeDirty_stamps]

@[simp] theorem State.invalidate_cw (s : State) (x : Nat) (k : Nat) : ((s.invalidate x).1).cw k = s.cw k := by simp only [State.cw, State.invalidate_ctl]
@[simp] theorem State.invalidate_cwInt (s : State) (x : Nat) (k : Nat) : ((s.invalidate x).1).cwInt k = s.cwInt k := by simp only [State.cwInt, State.invalidate_cw]
@[simp] theorem State.invalidate_frame (s : State) (x : Nat) (f : Nat) : ((s.invalidate x).1).frame f = s.frame f := by simp only [State.frame, State.invalidate_frames]
@[simp] theorem State.invalidate_graph? (s : State) (x : Nat) (m : Nat) : ((s.invalidate x).1).graph? m = s.graph? m := by simp only [State.graph?, State.invalidate_graphs]
@[simp] theorem State.invalidate_core (s : State) (x : Nat) (m : Nat) : ((s.invalidate x).1).core m = s.core m := by simp only [State.core, State.invalidate_cores]
@[simp] theorem State.invalidate_stampOf (s : State) (x : Nat) (p : Nat) : ((s.invalidate x).1).stampOf p = s.stampOf p := by simp only [State.stampOf, State.invalidate_stamps]

@[simp] theorem State.writeBack_vl (s : State) (v : VLine) (x : Nat) : (s.writeBack v).vl x = s.vl x := by simp only [State.vl, State.writeBack_vlines]
@[simp] theorem State.writeBack_copy (s : State) (v : VLine) (a x : Nat) : (s.writeBack v).copy a x = s.copy a x := by simp only [State.copy, State.writeBack_copies]
@[simp] theorem State.writeBack_cw (s : State) (v : VLine) (k : Nat) : (s.writeBack v).cw k = s.cw k := by simp only [State.cw, State.writeBack_ctl]
@[simp] theorem State.writeBack_cwInt (s : State) (v : VLine) (k : Nat) : (s.writeBack v).cwInt k = s.cwInt k := by simp only [State.cwInt, State.writeBack_cw]
@[simp] theorem State.writeBack_frame (s : State) (v : VLine) (f : Nat) : (s.writeBack v).frame f = s.frame f := by simp only [State.frame, State.writeBack_frames]
@[simp] theorem State.writeBack_team? (s : State) (v : VLine) (m : Nat) : (s.writeBack v).team? m = s.team? m := by simp only [State.team?, State.writeBack_teams]
@[simp] theorem State.writeBack_squad? (s : State) (v : VLine) (m p : Nat) : (s.writeBack v).squad? m p = s.squad? m p := by simp only [State.squad?, State.writeBack_team?]
@[simp] theorem State.writeBack_thread? (s : State) (v : VLine) (u : TRef) : (s.writeBack v).thread? u = s.thread? u := by simp only [State.thread?, State.writeBack_squad?]
@[simp] theorem State.writeBack_grid? (s : State) (v : VLine) (m : Nat) : (s.writeBack v).grid? m = s.grid? m := by simp only [State.grid?, State.writeBack_grids]
@[simp] theorem State.writeBack_graph? (s : State) (v : VLine) (m : Nat) : (s.writeBack v).graph? m = s.graph? m := by simp only [State.graph?, State.writeBack_graphs]
@[simp] theorem State.writeBack_core (s : State) (v : VLine) (m : Nat) : (s.writeBack v).core m = s.core m := by simp only [State.core, State.writeBack_cores]
@[simp] theorem State.writeBack_stampOf (s : State) (v : VLine) (p : Nat) : (s.writeBack v).stampOf p = s.stampOf p := by simp only [State.stampOf, State.writeBack_stamps]

@[simp] theorem State.evict_cw (s : State) (v : VLine) (k : Nat) : (s.evict v).cw k = s.cw k := by simp only [State.cw, State.evict_ctl]
@[simp] theorem State.evict_cwInt (s : State) (v : VLine) (k : Nat) : (s.evict v).cwInt k = s.cwInt k := by simp only [State.cwInt, State.evict_cw]
@[simp] theorem State.evict_frame (s : State) (v : VLine) (f : Nat) : (s.evict v).frame f = s.frame f := by simp only [State.frame, State.evict_frames]
@[simp] theorem State.evict_graph? (s : State) (v : VLine) (m : Nat) : (s.evict v).graph? m = s.graph? m := by simp only [State.graph?, State.evict_graphs]
@[simp] theorem State.evict_core (s : State) (v : VLine) (m : Nat) : (s.evict v).core m = s.core m := by simp only [State.core, State.evict_cores]
@[simp] theorem State.evict_stampOf (s : State) (v : VLine) (p : Nat) : (s.evict v).stampOf p = s.stampOf p := by simp only [State.stampOf, State.evict_stamps]

@[simp] theorem State.takeBack_cw (s : State) (c : Copy) (k : Nat) : (s.takeBack c).cw k = s.cw k := by simp only [State.cw, State.takeBack_ctl]
@[simp] theorem State.takeBack_cwInt (s : State) (c : Copy) (k : Nat) : (s.takeBack c).cwInt k = s.cwInt k := by simp only [State.cwInt, State.takeBack_cw]
@[simp] theorem State.takeBack_frame (s : State) (c : Copy) (f : Nat) : (s.takeBack c).frame f = s.frame f := by simp only [State.frame, State.takeBack_frames]
@[simp] theorem State.takeBack_graph? (s : State) (c : Copy) (m : Nat) : (s.takeBack c).graph? m = s.graph? m := by simp only [State.graph?, State.takeBack_graphs]
@[simp] theorem State.takeBack_core (s : State) (c : Copy) (m : Nat) : (s.takeBack c).core m = s.core m := by simp only [State.core, State.takeBack_cores]
@[simp] theorem State.takeBack_stampOf (s : State) (c : Copy) (p : Nat) : (s.takeBack c).stampOf p = s.stampOf p := by simp only [State.stampOf, State.takeBack_stamps]

@[simp] theorem State.giveUp_cw (s : State) (c : Copy) (k : Nat) : (s.giveUp c).cw k = s.cw k := by simp only [State.cw, State.giveUp_ctl]
@[simp] theorem State.giveUp_cwInt (s : State) (c : Copy) (k : Nat) : (s.giveUp c).cwInt k = s.cwInt k := by simp only [State.cwInt, State.giveUp_cw]
@[simp] theorem State.giveUp_frame (s : State) (c : Copy) (f : Nat) : (s.giveUp c).frame f = s.frame f := by simp only [State.frame, State.giveUp_frames]
@[simp] theorem State.giveUp_graph? (s : State) (c : Copy) (m : Nat) : (s.giveUp c).graph? m = s.graph? m := by simp only [State.graph?, State.giveUp_graphs]
@[simp] theorem State.giveUp_core (s : State) (c : Copy) (m : Nat) : (s.giveUp c).core m = s.core m := by simp only [State.core, State.giveUp_cores]
@[simp] theorem State.giveUp_stampOf (s : State) (c : Copy) (p : Nat) : (s.giveUp c).stampOf p = s.stampOf p := by simp only [State.stampOf, State.giveUp_stamps]

@[simp] theorem State.mergeAt_copy (s : State) (v : VLine) (d : Line) (f : Line → Line) (e : Option Bool) (a x : Nat) : ((s.mergeAt v d f e).1).copy a x = s.copy a x := by simp only [State.copy, State.mergeAt_copies]
@[simp] theorem State.mergeAt_cw (s : State) (v : VLine) (d : Line) (f : Line → Line) (e : Option Bool) (k : Nat) : ((s.mergeAt v d f e).1).cw k = s.cw k := by simp only [State.cw, State.mergeAt_ctl]
@[simp] theorem State.mergeAt_cwInt (s : State) (v : VLine) (d : Line) (f : Line → Line) (e : Option Bool) (k : Nat) : ((s.mergeAt v d f e).1).cwInt k = s.cwInt k := by simp only [State.cwInt, State.mergeAt_cw]
@[simp] theorem State.mergeAt_frame (s : State) (v : VLine) (d : Line) (f : Line → Line) (e : Option Bool) (f' : Nat) : ((s.mergeAt v d f e).1).frame f' = s.frame f' := by simp only [State.frame, State.mergeAt_frames]
@[simp] theorem State.mergeAt_team? (s : State) (v : VLine) (d : Line) (f : Line → Line) (e : Option Bool) (m : Nat) : ((s.mergeAt v d f e).1).team? m = s.team? m := by simp only [State.team?, State.mergeAt_teams]
@[simp] theorem State.mergeAt_squad? (s : State) (v : VLine) (d : Line) (f : Line → Line) (e : Option Bool) (m p : Nat) : ((s.mergeAt v d f e).1).squad? m p = s.squad? m p := by simp only [State.squad?, State.mergeAt_team?]
@[simp] theorem State.mergeAt_thread? (s : State) (v : VLine) (d : Line) (f : Line → Line) (e : Option Bool) (u : TRef) : ((s.mergeAt v d f e).1).thread? u = s.thread? u := by simp only [State.thread?, State.mergeAt_squad?]
@[simp] theorem State.mergeAt_grid? (s : State) (v : VLine) (d : Line) (f : Line → Line) (e : Option Bool) (m : Nat) : ((s.mergeAt v d f e).1).grid? m = s.grid? m := by simp only [State.grid?, State.mergeAt_grids]
@[simp] theorem State.mergeAt_graph? (s : State) (v : VLine) (d : Line) (f : Line → Line) (e : Option Bool) (m : Nat) : ((s.mergeAt v d f e).1).graph? m = s.graph? m := by simp only [State.graph?, State.mergeAt_graphs]
@[simp] theorem State.mergeAt_die (s : State) (v : VLine) (d : Line) (f : Line → Line) (e : Option Bool) (m : Nat) : ((s.mergeAt v d f e).1).die m = s.die m := by simp only [State.die, State.mergeAt_dies]
@[simp] theorem State.mergeAt_core (s : State) (v : VLine) (d : Line) (f : Line → Line) (e : Option Bool) (m : Nat) : ((s.mergeAt v d f e).1).core m = s.core m := by simp only [State.core, State.mergeAt_cores]
@[simp] theorem State.mergeAt_stampOf (s : State) (v : VLine) (d : Line) (f : Line → Line) (e : Option Bool) (p : Nat) : ((s.mergeAt v d f e).1).stampOf p = s.stampOf p := by simp only [State.stampOf, State.mergeAt_stamps]

@[simp] theorem State.mergeAck_vl (s : State) (g : Nat) (x : Nat) : (s.mergeAck g).vl x = s.vl x := by simp only [State.vl, State.mergeAck_vlines]
@[simp] theorem State.mergeAck_copy (s : State) (g : Nat) (a x : Nat) : (s.mergeAck g).copy a x = s.copy a x := by simp only [State.copy, State.mergeAck_copies]
@[simp] theorem State.mergeAck_cw (s : State) (g : Nat) (k : Nat) : (s.mergeAck g).cw k = s.cw k := by simp only [State.cw, State.mergeAck_ctl]
@[simp] theorem State.mergeAck_cwInt (s : State) (g : Nat) (k : Nat) : (s.mergeAck g).cwInt k = s.cwInt k := by simp only [State.cwInt, State.mergeAck_cw]
@[simp] theorem State.mergeAck_frame (s : State) (g : Nat) (f : Nat) : (s.mergeAck g).frame f = s.frame f := by simp only [State.frame, State.mergeAck_frames]
@[simp] theorem State.mergeAck_team? (s : State) (g : Nat) (m : Nat) : (s.mergeAck g).team? m = s.team? m := by simp only [State.team?, State.mergeAck_teams]
@[simp] theorem State.mergeAck_squad? (s : State) (g : Nat) (m p : Nat) : (s.mergeAck g).squad? m p = s.squad? m p := by simp only [State.squad?, State.mergeAck_team?]
@[simp] theorem State.mergeAck_thread? (s : State) (g : Nat) (u : TRef) : (s.mergeAck g).thread? u = s.thread? u := by simp only [State.thread?, State.mergeAck_squad?]
@[simp] theorem State.mergeAck_graph? (s : State) (g : Nat) (m : Nat) : (s.mergeAck g).graph? m = s.graph? m := by simp only [State.graph?, State.mergeAck_graphs]
@[simp] theorem State.mergeAck_die (s : State) (g : Nat) (m : Nat) : (s.mergeAck g).die m = s.die m := by simp only [State.die, State.mergeAck_dies]
@[simp] theorem State.mergeAck_core (s : State) (g : Nat) (m : Nat) : (s.mergeAck g).core m = s.core m := by simp only [State.core, State.mergeAck_cores]
@[simp] theorem State.mergeAck_stampOf (s : State) (g : Nat) (p : Nat) : (s.mergeAck g).stampOf p = s.stampOf p := by simp only [State.stampOf, State.mergeAck_stamps]

@[simp] theorem State.peerAck_vl (s : State) (r : Nat) (k : Int) (i p : Nat) (x : Nat) : (s.peerAck r k i p).vl x = s.vl x := by simp only [State.vl, State.peerAck_vlines]
@[simp] theorem State.peerAck_copy (s : State) (r : Nat) (k : Int) (i p : Nat) (a x : Nat) : (s.peerAck r k i p).copy a x = s.copy a x := by simp only [State.copy, State.peerAck_copies]
@[simp] theorem State.peerAck_cw (s : State) (r : Nat) (k : Int) (i p : Nat) (k' : Nat) : (s.peerAck r k i p).cw k' = s.cw k' := by simp only [State.cw, State.peerAck_ctl]
@[simp] theorem State.peerAck_cwInt (s : State) (r : Nat) (k : Int) (i p : Nat) (k' : Nat) : (s.peerAck r k i p).cwInt k' = s.cwInt k' := by simp only [State.cwInt, State.peerAck_cw]
@[simp] theorem State.peerAck_frame (s : State) (r : Nat) (k : Int) (i p : Nat) (f : Nat) : (s.peerAck r k i p).frame f = s.frame f := by simp only [State.frame, State.peerAck_frames]
@[simp] theorem State.peerAck_team? (s : State) (r : Nat) (k : Int) (i p : Nat) (m : Nat) : (s.peerAck r k i p).team? m = s.team? m := by simp only [State.team?, State.peerAck_teams]
@[simp] theorem State.peerAck_squad? (s : State) (r : Nat) (k : Int) (i p : Nat) (m p' : Nat) : (s.peerAck r k i p).squad? m p' = s.squad? m p' := by simp only [State.squad?, State.peerAck_team?]
@[simp] theorem State.peerAck_thread? (s : State) (r : Nat) (k : Int) (i p : Nat) (u : TRef) : (s.peerAck r k i p).thread? u = s.thread? u := by simp only [State.thread?, State.peerAck_squad?]
@[simp] theorem State.peerAck_grid? (s : State) (r : Nat) (k : Int) (i p : Nat) (m : Nat) : (s.peerAck r k i p).grid? m = s.grid? m := by simp only [State.grid?, State.peerAck_grids]
@[simp] theorem State.peerAck_graph? (s : State) (r : Nat) (k : Int) (i p : Nat) (m : Nat) : (s.peerAck r k i p).graph? m = s.graph? m := by simp only [State.graph?, State.peerAck_graphs]
@[simp] theorem State.peerAck_die (s : State) (r : Nat) (k : Int) (i p : Nat) (m : Nat) : (s.peerAck r k i p).die m = s.die m := by simp only [State.die, State.peerAck_dies]
@[simp] theorem State.peerAck_core (s : State) (r : Nat) (k : Int) (i p : Nat) (m : Nat) : (s.peerAck r k i p).core m = s.core m := by simp only [State.core, State.peerAck_cores]
@[simp] theorem State.peerAck_stampOf (s : State) (r : Nat) (k : Int) (i p : Nat) (p' : Nat) : (s.peerAck r k i p).stampOf p' = s.stampOf p' := by simp only [State.stampOf, State.peerAck_stamps]

@[simp] theorem State.hostError_vl (s : State) (w a : Nat) (b : Bool) (x : Nat) : (s.hostError w a b).vl x = s.vl x := by simp only [State.vl, State.hostError_vlines]
@[simp] theorem State.hostError_copy (s : State) (w a : Nat) (b : Bool) (a' x : Nat) : (s.hostError w a b).copy a' x = s.copy a' x := by simp only [State.copy, State.hostError_copies]
@[simp] theorem State.hostError_cw (s : State) (w a : Nat) (b : Bool) (k : Nat) : (s.hostError w a b).cw k = s.cw k := by simp only [State.cw, State.hostError_ctl]
@[simp] theorem State.hostError_cwInt (s : State) (w a : Nat) (b : Bool) (k : Nat) : (s.hostError w a b).cwInt k = s.cwInt k := by simp only [State.cwInt, State.hostError_cw]
@[simp] theorem State.hostError_frame (s : State) (w a : Nat) (b : Bool) (f : Nat) : (s.hostError w a b).frame f = s.frame f := by simp only [State.frame, State.hostError_frames]
@[simp] theorem State.hostError_team? (s : State) (w a : Nat) (b : Bool) (m : Nat) : (s.hostError w a b).team? m = s.team? m := by simp only [State.team?, State.hostError_teams]
@[simp] theorem State.hostError_squad? (s : State) (w a : Nat) (b : Bool) (m p : Nat) : (s.hostError w a b).squad? m p = s.squad? m p := by simp only [State.squad?, State.hostError_team?]
@[simp] theorem State.hostError_thread? (s : State) (w a : Nat) (b : Bool) (u : TRef) : (s.hostError w a b).thread? u = s.thread? u := by simp only [State.thread?, State.hostError_squad?]
@[simp] theorem State.hostError_grid? (s : State) (w a : Nat) (b : Bool) (m : Nat) : (s.hostError w a b).grid? m = s.grid? m := by simp only [State.grid?, State.hostError_grids]
@[simp] theorem State.hostError_graph? (s : State) (w a : Nat) (b : Bool) (m : Nat) : (s.hostError w a b).graph? m = s.graph? m := by simp only [State.graph?, State.hostError_graphs]
@[simp] theorem State.hostError_die (s : State) (w a : Nat) (b : Bool) (m : Nat) : (s.hostError w a b).die m = s.die m := by simp only [State.die, State.hostError_dies]
@[simp] theorem State.hostError_core (s : State) (w a : Nat) (b : Bool) (m : Nat) : (s.hostError w a b).core m = s.core m := by simp only [State.core, State.hostError_cores]
@[simp] theorem State.hostError_stampOf (s : State) (w a : Nat) (b : Bool) (p : Nat) : (s.hostError w a b).stampOf p = s.stampOf p := by simp only [State.stampOf, State.hostError_stamps]

@[simp] theorem State.ackHw_vl (s : State) (x : HwSrc) (w : Word) (x' : Nat) : (s.ackHw x w).vl x' = s.vl x' := by simp only [State.vl, State.ackHw_vlines]
@[simp] theorem State.ackHw_copy (s : State) (x : HwSrc) (w : Word) (a x' : Nat) : (s.ackHw x w).copy a x' = s.copy a x' := by simp only [State.copy, State.ackHw_copies]
@[simp] theorem State.ackHw_frame (s : State) (x : HwSrc) (w : Word) (f : Nat) : (s.ackHw x w).frame f = s.frame f := by simp only [State.frame, State.ackHw_frames]
@[simp] theorem State.ackHw_team? (s : State) (x : HwSrc) (w : Word) (m : Nat) : (s.ackHw x w).team? m = s.team? m := by simp only [State.team?, State.ackHw_teams]
@[simp] theorem State.ackHw_squad? (s : State) (x : HwSrc) (w : Word) (m p : Nat) : (s.ackHw x w).squad? m p = s.squad? m p := by simp only [State.squad?, State.ackHw_team?]
@[simp] theorem State.ackHw_thread? (s : State) (x : HwSrc) (w : Word) (u : TRef) : (s.ackHw x w).thread? u = s.thread? u := by simp only [State.thread?, State.ackHw_squad?]
@[simp] theorem State.ackHw_graph? (s : State) (x : HwSrc) (w : Word) (m : Nat) : (s.ackHw x w).graph? m = s.graph? m := by simp only [State.graph?, State.ackHw_graphs]
@[simp] theorem State.ackHw_die (s : State) (x : HwSrc) (w : Word) (m : Nat) : (s.ackHw x w).die m = s.die m := by simp only [State.die, State.ackHw_dies]
@[simp] theorem State.ackHw_core (s : State) (x : HwSrc) (w : Word) (m : Nat) : (s.ackHw x w).core m = s.core m := by simp only [State.core, State.ackHw_cores]
@[simp] theorem State.ackHw_stampOf (s : State) (x : HwSrc) (w : Word) (p : Nat) : (s.ackHw x w).stampOf p = s.stampOf p := by simp only [State.stampOf, State.ackHw_stamps]

@[simp] theorem State.ackHr_vl (s : State) (x : HrSrc) (k : Nat) (l : Line) (x' : Nat) : (s.ackHr x k l).vl x' = s.vl x' := by simp only [State.vl, State.ackHr_vlines]
@[simp] theorem State.ackHr_copy (s : State) (x : HrSrc) (k : Nat) (l : Line) (a x' : Nat) : (s.ackHr x k l).copy a x' = s.copy a x' := by simp only [State.copy, State.ackHr_copies]
@[simp] theorem State.ackHr_cw (s : State) (x : HrSrc) (k : Nat) (l : Line) (k' : Nat) : (s.ackHr x k l).cw k' = s.cw k' := by simp only [State.cw, State.ackHr_ctl]
@[simp] theorem State.ackHr_cwInt (s : State) (x : HrSrc) (k : Nat) (l : Line) (k' : Nat) : (s.ackHr x k l).cwInt k' = s.cwInt k' := by simp only [State.cwInt, State.ackHr_cw]
@[simp] theorem State.ackHr_frame (s : State) (x : HrSrc) (k : Nat) (l : Line) (f : Nat) : (s.ackHr x k l).frame f = s.frame f := by simp only [State.frame, State.ackHr_frames]
@[simp] theorem State.ackHr_team? (s : State) (x : HrSrc) (k : Nat) (l : Line) (m : Nat) : (s.ackHr x k l).team? m = s.team? m := by simp only [State.team?, State.ackHr_teams]
@[simp] theorem State.ackHr_squad? (s : State) (x : HrSrc) (k : Nat) (l : Line) (m p : Nat) : (s.ackHr x k l).squad? m p = s.squad? m p := by simp only [State.squad?, State.ackHr_team?]
@[simp] theorem State.ackHr_thread? (s : State) (x : HrSrc) (k : Nat) (l : Line) (u : TRef) : (s.ackHr x k l).thread? u = s.thread? u := by simp only [State.thread?, State.ackHr_squad?]
@[simp] theorem State.ackHr_grid? (s : State) (x : HrSrc) (k : Nat) (l : Line) (m : Nat) : (s.ackHr x k l).grid? m = s.grid? m := by simp only [State.grid?, State.ackHr_grids]
@[simp] theorem State.ackHr_graph? (s : State) (x : HrSrc) (k : Nat) (l : Line) (m : Nat) : (s.ackHr x k l).graph? m = s.graph? m := by simp only [State.graph?, State.ackHr_graphs]
@[simp] theorem State.ackHr_die (s : State) (x : HrSrc) (k : Nat) (l : Line) (m : Nat) : (s.ackHr x k l).die m = s.die m := by simp only [State.die, State.ackHr_dies]
@[simp] theorem State.ackHr_core (s : State) (x : HrSrc) (k : Nat) (l : Line) (m : Nat) : (s.ackHr x k l).core m = s.core m := by simp only [State.core, State.ackHr_cores]
@[simp] theorem State.ackHr_stampOf (s : State) (x : HrSrc) (k : Nat) (l : Line) (p : Nat) : (s.ackHr x k l).stampOf p = s.stampOf p := by simp only [State.stampOf, State.ackHr_stamps]

@[simp] theorem State.refuse_vl (s : State) (x : Nat) (r : Req) (c : Nat) (x' : Nat) : (s.refuse x r c).vl x' = s.vl x' := by simp only [State.vl, State.refuse_vlines]
@[simp] theorem State.refuse_copy (s : State) (x : Nat) (r : Req) (c : Nat) (a x' : Nat) : (s.refuse x r c).copy a x' = s.copy a x' := by simp only [State.copy, State.refuse_copies]
@[simp] theorem State.refuse_frame (s : State) (x : Nat) (r : Req) (c : Nat) (f : Nat) : (s.refuse x r c).frame f = s.frame f := by simp only [State.frame, State.refuse_frames]
@[simp] theorem State.refuse_graph? (s : State) (x : Nat) (r : Req) (c : Nat) (m : Nat) : (s.refuse x r c).graph? m = s.graph? m := by simp only [State.graph?, State.refuse_graphs]
@[simp] theorem State.refuse_die (s : State) (x : Nat) (r : Req) (c : Nat) (m : Nat) : (s.refuse x r c).die m = s.die m := by simp only [State.die, State.refuse_dies]
@[simp] theorem State.refuse_core (s : State) (x : Nat) (r : Req) (c : Nat) (m : Nat) : (s.refuse x r c).core m = s.core m := by simp only [State.core, State.refuse_cores]
@[simp] theorem State.refuse_stampOf (s : State) (x : Nat) (r : Req) (c : Nat) (p : Nat) : (s.refuse x r c).stampOf p = s.stampOf p := by simp only [State.stampOf, State.refuse_stamps]

end Sys2Proof.Machine
end

