-- ==== Sys2Proof/Laws/Memory.lean ====
section
/-! SUPPORT. HBM reads and writes, and the canonical form that they keep; lines of slices and copies of agents. -/

namespace Sys2Proof.Machine

/-! ### HBM -/

/-- A list in canonical form from a bound on is in canonical form from a lower one. -/
theorem hbmWfFrom_le {lo hi : Nat} {m : List Host.Cell} (h : lo ≤ hi) (hw : hbmWfFrom hi m = true) : hbmWfFrom lo m = true := by
  cases m with
  | nil => rfl
  | cons c t =>
    obtain ⟨k, v⟩ := c
    simp only [hbmWfFrom, Bool.and_eq_true, decide_eq_true_eq] at hw ⊢
    exact ⟨⟨Nat.le_trans h hw.1.1, hw.1.2⟩, hw.2⟩

/-- A byte below every listed address reads as an unlisted one. -/
theorem hbmGet_below {lo a : Nat} {m : List Host.Cell} (hw : hbmWfFrom lo m = true) (h : a < lo) : hbmGet m a = hbmDefault a := by
  induction m generalizing lo with
  | nil => rfl
  | cons c t ih =>
    obtain ⟨k, v⟩ := c
    simp only [hbmWfFrom, Bool.and_eq_true, decide_eq_true_eq] at hw
    have hk : ¬k = a := by omega
    simp only [hbmGet, if_neg hk]
    exact ih hw.2 (by omega)

/-- A write keeps the canonical form. -/
theorem hbmPut_wfFrom {lo : Nat} (m : List Host.Cell) (a : Nat) (v : BitVec 8) (hw : hbmWfFrom lo m = true) (h : lo ≤ a) :
    hbmWfFrom lo (hbmPut m a v) = true := by
  induction m generalizing lo with
  | nil =>
    simp only [hbmPut]
    split
    · rfl
    · rename_i hv; simp [hbmWfFrom, h, hv]
  | cons c t ih =>
    obtain ⟨k, u⟩ := c
    have h0 := hw
    simp only [hbmWfFrom, Bool.and_eq_true, decide_eq_true_eq] at hw
    simp only [hbmPut]
    split
    · rename_i hk
      simp only [hbmWfFrom, Bool.and_eq_true, decide_eq_true_eq]
      exact ⟨hw.1, ih hw.2 (by omega)⟩
    · split
      · rename_i hk
        split
        · exact hbmWfFrom_le (by omega) hw.2
        · rename_i hv
          simp only [hbmWfFrom, Bool.and_eq_true, decide_eq_true_eq]
          exact ⟨⟨h, by simpa using hv⟩, hbmWfFrom_le (by omega) hw.2⟩
      · split
        · exact h0
        · rename_i hk hk' hv
          simp only [hbmWfFrom, Bool.and_eq_true, decide_eq_true_eq]
          exact ⟨⟨h, by simpa using hv⟩, ⟨by omega, hw.1.2⟩, hw.2⟩

theorem hbmPut_wf (m : List Host.Cell) (a : Nat) (v : BitVec 8) (hw : Memory.wf m = true) : Memory.wf (hbmPut m a v) = true :=
  hbmPut_wfFrom m a v hw (Nat.zero_le a)

theorem hbmPutAll_wf (l : List Nat) (m : List Host.Cell) (a : Nat) (hw : Memory.wf m = true) : Memory.wf (hbmPutAll m a l) = true := by
  induction l generalizing m a with
  | nil => exact hw
  | cons b t ih => exact ih _ _ (hbmPut_wf m a _ hw)

/-- A part of memory in canonical form is in canonical form. -/
theorem hbmWfFrom_filter (p : Host.Cell → Bool) {lo : Nat} (m : List Host.Cell) (hw : hbmWfFrom lo m = true) :
    hbmWfFrom lo (m.filter p) = true := by
  induction m generalizing lo with
  | nil => rfl
  | cons c t ih =>
    obtain ⟨k, v⟩ := c
    simp only [hbmWfFrom, Bool.and_eq_true, decide_eq_true_eq] at hw
    rw [List.filter_cons]
    split
    · simp only [hbmWfFrom, Bool.and_eq_true, decide_eq_true_eq]
      exact ⟨hw.1, ih hw.2⟩
    · exact ih (hbmWfFrom_le (by omega) hw.2)

theorem memory_wf_filter (p : Host.Cell → Bool) (m : List Host.Cell) (hw : Memory.wf m = true) : Memory.wf (m.filter p) = true :=
  hbmWfFrom_filter p m hw

/-- A read of a byte just written gives it, and every other byte reads as before. -/
theorem hbmGet_hbmPut {lo : Nat} (m : List Host.Cell) (a b : Nat) (v : BitVec 8) (hw : hbmWfFrom lo m = true) :
    hbmGet (hbmPut m a v) b = if b = a then v else hbmGet m b := by
  induction m generalizing lo with
  | nil =>
    simp only [hbmPut]
    split
    · rename_i hv
      split
      · rename_i hb; rw [hb, hv]; rfl
      · rfl
    · rename_i hv
      simp only [hbmGet]
      split
      · rename_i hb; rw [if_pos hb.symm]
      · rename_i hb; rw [if_neg (fun h => hb h.symm)]
  | cons c t ih =>
    obtain ⟨k, u⟩ := c
    simp only [hbmWfFrom, Bool.and_eq_true, decide_eq_true_eq] at hw
    simp only [hbmPut]
    split
    · rename_i hk
      simp only [hbmGet]
      split
      · rename_i hb; rw [if_neg (by omega)]
      · exact ih hw.2
    · split
      · rename_i hk
        split
        · rename_i hv
          by_cases hb : b = a
          · rw [if_pos hb, hb, hv]; exact hbmGet_below hw.2 (by omega)
          · rw [if_neg hb]; simp only [hbmGet]; rw [if_neg (by omega)]
        · simp only [hbmGet]
          by_cases hb : b = a
          · rw [if_pos hb.symm, if_pos hb]
          · rw [if_neg (fun h => hb h.symm), if_neg hb, if_neg (by omega)]
      · split
        · rename_i hk hk' hv
          by_cases hb : b = a
          · rw [if_pos hb, hb, hv]
            have : hbmWfFrom k ((k, u) :: t) = true := by
              simp only [hbmWfFrom, Bool.and_eq_true, decide_eq_true_eq]; exact ⟨⟨Nat.le_refl k, hw.1.2⟩, hw.2⟩
            exact hbmGet_below this (by omega)
          · rw [if_neg hb]
        · simp only [hbmGet]
          by_cases hb : b = a
          · rw [if_pos hb.symm, if_pos hb]
          · rw [if_neg (fun h => hb h.symm), if_neg hb]

/-- Bytes written from an address on read back, and every byte outside reads as before. -/
theorem hbmGet_hbmPutAll (l : List Nat) (m : List Host.Cell) (a b : Nat) (hw : Memory.wf m = true) :
    hbmGet (hbmPutAll m a l) b = if a ≤ b then (match l[b - a]? with | some x => BitVec.ofNat 8 x | none => hbmGet m b) else hbmGet m b := by
  induction l generalizing m a with
  | nil => simp [hbmPutAll]
  | cons x t ih =>
    rw [hbmPutAll, ih _ _ (hbmPut_wf m a _ hw)]
    by_cases h : a + 1 ≤ b
    · rw [if_pos h, if_pos (by omega)]
      have : b - a = (b - (a + 1)) + 1 := by omega
      rw [this, List.getElem?_cons_succ]
      rw [hbmGet_hbmPut m a b _ hw, if_neg (by omega)]
    · rw [if_neg h, hbmGet_hbmPut m a b _ hw]
      by_cases hb : b = a
      · subst hb; simp
      · rw [if_neg hb, if_neg (by omega)]

/-- What reading a part of memory gives: a cell that the part keeps, or the byte of an unlisted address. -/
theorem hbmGet_filter (p : Nat → Bool) (m : List Host.Cell) (a : Nat) :
    hbmGet (m.filter (fun c => p c.1)) a = if p a then hbmGet m a else hbmDefault a := by
  induction m with
  | nil => simp [hbmGet]
  | cons c t ih =>
    obtain ⟨k, v⟩ := c
    rw [List.filter_cons]
    by_cases h : p k = true
    · rw [if_pos h]; simp only [hbmGet]
      by_cases hk : k = a
      · subst hk; simp [h]
      · rw [if_neg hk, ih, if_neg hk]
    · rw [if_neg h, ih]
      by_cases hk : k = a
      · subst hk; simp [h]
      · simp only [hbmGet, if_neg hk]

theorem hbmStore_wf (s : State) (x : Nat) (l : Line) (e : Bool) (hw : Memory.wf s.hbm = true) : Memory.wf (s.hbmStore x l e).hbm = true :=
  hbmPutAll_wf _ _ _ hw

theorem writeBack_wf (s : State) (v : VLine) (hw : Memory.wf s.hbm = true) : Memory.wf (s.writeBack v).hbm = true := by
  unfold State.writeBack
  exact hbmStore_wf _ _ _ _ (by simpa using hw)

theorem evict_wf (s : State) (v : VLine) (hw : Memory.wf s.hbm = true) : Memory.wf (s.evict v).hbm = true := by
  unfold State.evict
  simp only [State.dropVl_hbm]
  repeat' split
  all_goals first
    | exact writeBack_wf _ _ (by simpa using hw)
    | simpa using hw

theorem roomVault_wf (s t : State) (x : Nat) (h : s.roomVault x = some t) (hw : Memory.wf s.hbm = true) : Memory.wf t.hbm = true := by
  unfold State.roomVault at h
  simp only at h
  split at h
  · injection h with h; rw [← h]; exact hw
  · split at h
    · exact absurd h (by simp)
    · split at h
      · injection h with h; rw [← h]; exact evict_wf _ _ (by simpa using hw)
      · exact absurd h (by simp)

theorem ensure_wf (s t : State) (x : Nat) (p : Option (Nat × Nat)) (v : VLine) (h : s.ensure x p = some (t, v)) (hw : Memory.wf s.hbm = true) :
    Memory.wf t.hbm = true := by
  unfold State.ensure at h
  split at h
  · rename_i u _
    injection h with h
    have := State.checkVl_hbm s u
    rw [h] at this; rw [this]; exact hw
  · simp only [Option.map_eq_some_iff, Prod.mk.injEq] at h
    obtain ⟨u, hu, h1, -⟩ := h
    rw [← h1]
    simp only [State.putVl_hbm]
    have := roomVault_wf s u x hu hw
    split <;> simpa using this

/-! ### Lines of slices -/

theorem find_insertBy {α : Type} (le : α → α → Bool) (p : α → Bool) (a : α) (l : List α) (h : ∀ b ∈ l, p b = true → p a = false) :
    (insertBy le a l).find? p = if p a then some a else l.find? p := by
  induction l with
  | nil => simp [insertBy, List.find?_cons]; cases p a <;> rfl
  | cons b t ih =>
    have ht : ∀ b ∈ t, p b = true → p a = false := fun c hc => h c (List.mem_cons_of_mem _ hc)
    simp only [insertBy]
    split
    · rw [List.find?_cons, ih ht, List.find?_cons]
      cases hb : p b
      · rfl
      · simp [h b List.mem_cons_self hb]
    · rw [List.find?_cons]; cases p a <;> simp

/-- A search is not disturbed by what a filter takes out, where the filter keeps all that the search looks for. -/
theorem find_filter_keep {α : Type} (q p : α → Bool) (l : List α) (h : ∀ u, p u = true → q u = true) : (l.filter q).find? p = l.find? p := by
  induction l with
  | nil => rfl
  | cons b t ih =>
    rw [List.filter_cons]
    by_cases hb : p b = true
    · rw [if_pos (h b hb), List.find?_cons_of_pos hb, List.find?_cons_of_pos hb]
    · rw [List.find?_cons_of_neg hb]
      split
      · rw [List.find?_cons_of_neg hb, ih]
      · exact ih

/-- A search finds nothing where a filter has taken out all that it looks for. -/
theorem find_filter_gone {α : Type} (q p : α → Bool) (l : List α) (h : ∀ u, p u = true → q u = false) : (l.filter q).find? p = none := by
  rw [List.find?_eq_none]
  intro u hu hp
  rw [List.mem_filter, h u hp] at hu
  exact absurd hu.2 (by simp)

theorem vl_putVl (s : State) (v : VLine) (x : Nat) : (s.putVl v).vl x = if x = v.slot then some v else s.vl x := by
  unfold State.vl State.putVl
  simp only
  rw [find_insertBy]
  · by_cases h : x = v.slot
    · simp [h]
    · rw [if_neg (by simpa using fun h' => h h'.symm), if_neg h, List.find?_filter]
      congr 1; funext u
      by_cases hu : u.slot = x
      · simp [hu, h]
      · simp [hu]
  · intro b hb hx
    simp only [List.mem_filter, bne_iff_ne, ne_eq, beq_iff_eq] at hb hx
    simp only [beq_eq_false_iff_ne, ne_eq]
    intro h; exact hb.2 (by rw [hx, h])

theorem vl_dropVl (s : State) (y x : Nat) : (s.dropVl y).vl x = if x = y then none else s.vl x := by
  unfold State.vl State.dropVl
  simp only
  by_cases h : x = y
  · subst h; rw [if_pos rfl, List.find?_eq_none]
    intro u hu; simp only [List.mem_filter, bne_iff_ne, ne_eq] at hu; simpa using hu.2
  · rw [if_neg h, List.find?_filter]
    congr 1; funext u
    by_cases hu : u.slot = x
    · simp [hu, h]
    · simp [hu]

/-- The line that a slice gives stands under its own slot. -/
theorem vl_slot {s : State} {x : Nat} {v : VLine} (h : s.vl x = some v) : v.slot = x := by
  simpa using List.find?_some h

theorem vl_of_vlines {s t : State} (h : t.vlines = s.vlines) (x : Nat) : t.vl x = s.vl x := by unfold State.vl; rw [h]

theorem copy_dropCopy (s : State) (b y a x : Nat) : (s.dropCopy b y).copy a x = if a = b ∧ x = y then none else s.copy a x := by
  unfold State.copy State.dropCopy
  simp only
  by_cases h : a = b ∧ x = y
  · rw [if_pos h]; refine find_filter_gone _ _ _ (fun u hu => ?_)
    simp only [Bool.and_eq_true, beq_iff_eq] at hu
    simp [hu.1, hu.2, h.1, h.2]
  · rw [if_neg h]; refine find_filter_keep _ _ _ (fun u hu => ?_)
    simp only [Bool.and_eq_true, beq_iff_eq] at hu
    simp only [hu.1, hu.2, Bool.not_eq_true', Bool.and_eq_false_iff, beq_eq_false_iff_ne, ne_eq]
    exact Classical.not_and_iff_not_or_not.1 h

theorem copy_putCopy (s : State) (c : Copy) (a x : Nat) :
    (s.putCopy c).copy a x = if a = c.agent ∧ x = c.slot then some c else s.copy a x := by
  have hd := copy_dropCopy s c.agent c.slot a x
  unfold State.copy at hd ⊢
  unfold State.putCopy
  simp only
  rw [List.find?_append, hd]
  by_cases h : a = c.agent ∧ x = c.slot
  · rw [if_pos h, if_pos h, h.1, h.2]; simp
  · rw [if_neg h, if_neg h]
    have h1 : ([c] : List Copy).find? (fun u => u.agent == a && u.slot == x) = none := by
      rw [List.find?_eq_none]; intro u hu
      rw [List.mem_singleton] at hu; subst hu
      simp only [Bool.and_eq_true, beq_iff_eq, not_and]
      intro h2 h3; exact h ⟨h2.symm, h3.symm⟩
    rw [h1, Option.or_none]

theorem copy_id {s : State} {a x : Nat} {c : Copy} (h : s.copy a x = some c) : c.agent = a ∧ c.slot = x := by
  simpa using List.find?_some h

theorem copy_of_copies {s t : State} (h : t.copies = s.copies) (a x : Nat) : t.copy a x = s.copy a x := by unfold State.copy; rw [h]

/-! ### Control words -/

theorem assocGet_natPut {α : Type} (l : List (Nat × α)) (k j : Nat) (a : α) :
    assocGet (natPut l k a) j = if j = k then some a else assocGet l j := by
  induction l with
  | nil =>
    simp only [natPut, assocGet]
    by_cases h : k = j
    · rw [if_pos h, if_pos h.symm]
    · rw [if_neg h, if_neg (fun g => h g.symm)]
  | cons c t ih =>
    obtain ⟨i, b⟩ := c
    simp only [natPut]
    split
    · rename_i h
      simp only [assocGet]
      by_cases hi : i = j
      · rw [if_pos hi, if_neg (by omega), if_pos hi]
      · rw [if_neg hi, ih, if_neg hi]
    · split
      · rename_i h1 h; subst h
        simp only [assocGet]
        by_cases hi : i = j
        · rw [if_pos hi, if_pos hi.symm]
        · rw [if_neg hi, if_neg (fun h => hi h.symm), if_neg hi]
      · simp only [assocGet]
        by_cases hk : k = j
        · rw [if_pos hk, if_pos hk.symm]
        · simp only [if_neg hk, if_neg (fun g : j = k => hk g.symm)]

theorem assocGet_assocDel {κ α : Type} [DecidableEq κ] (l : List (κ × α)) (k j : κ) :
    assocGet (assocDel l k) j = if j = k then none else assocGet l j := by
  induction l with
  | nil => simp [assocDel, assocGet]
  | cons c t ih =>
    obtain ⟨i, b⟩ := c
    unfold assocDel at ih ⊢
    rw [List.filter_cons]
    by_cases hi : i = k
    · rw [if_neg (by simpa using hi), ih]
      by_cases hj : j = k
      · rw [if_pos hj, if_pos hj]
      · rw [if_neg hj, if_neg hj]; simp only [assocGet]; rw [if_neg (fun h => hj (by rw [← h, hi]))]
    · rw [if_pos (by simpa using hi)]
      simp only [assocGet]
      by_cases hij : i = j
      · rw [if_pos hij, if_pos hij, if_neg (fun h => hi (by rw [hij, h]))]
      · rw [if_neg hij, ih, if_neg hij]

/-- A control word just written reads back, and every other is as before. -/
theorem cw_setCw (s : State) (k j : Nat) (w : Word) : (s.setCw k w).cw j = if j = k then w else s.cw j := by
  unfold State.cw State.setCw
  simp only
  split
  · rename_i h
    rw [assocGet_assocDel]
    by_cases hj : j = k
    · rw [if_pos hj, if_pos hj, h, hj]; rfl
    · rw [if_neg hj, if_neg hj]
  · rw [assocGet_natPut]
    by_cases hj : j = k
    · rw [if_pos hj, if_pos hj]; rfl
    · rw [if_neg hj, if_neg hj]

theorem cw_setCwInt (s : State) (k j : Nat) (x : Int) : (s.setCwInt k x).cw j = if j = k then .ofInt x else s.cw j := cw_setCw s k j _

theorem cw_of_ctl {s t : State} (h : t.ctl = s.ctl) (j : Nat) : t.cw j = s.cw j := by unfold State.cw; rw [h]

end Sys2Proof.Machine
end

