-- ==== Sys2Proof/Laws/Homes.lean ====
section
/-! SUPPORT. Whole and opened transactions at a home: what they leave in slices and copies. -/

namespace Sys2Proof.Machine

theorem filter_insertBy_gone {α : Type} (le : α → α → Bool) (p : α → Bool) (a : α) (l : List α) (h : p a = false) :
    (insertBy le a l).filter p = l.filter p := by
  induction l with
  | nil => simp [insertBy, h]
  | cons b t ih =>
    unfold insertBy
    split
    · simp only [List.filter_cons, ih]
    · simp [List.filter_cons, h]

/-- Of two writes of one line the second stands. -/
theorem putVl_putVl (s : State) (v u : VLine) (h : u.slot = v.slot) : (s.putVl v).putVl u = s.putVl u := by
  unfold State.putVl
  simp only [State.mk.injEq, true_and, and_true]
  rw [filter_insertBy_gone _ _ _ _ (by simp [h]), List.filter_filter]
  congr 2
  funext w
  simp [h]

theorem later_nil (s : State) : s.later [] = s := by unfold State.later; simp

theorem checkVl_sound {s : State} {v : VLine} (h : health v.flips (s.isB v.slot && badGroup v.line) = .sound) : s.checkVl v = (s, v) := by
  unfold State.checkVl; rw [h]

theorem checkCopy_sound {s : State} {c : Copy} (h : c.flips = []) : s.checkCopy c = (s, some c) := by
  unfold State.checkCopy
  have : health c.flips false = .sound := by rw [h]; decide
  rw [this]

theorem ensure_vl {s : State} {x : Nat} {p : Option (Nat × Nat)} {v : VLine} (h : s.vl x = some v)
    (hs : health v.flips (s.isB x && badGroup v.line) = .sound) : s.ensure x p = some (s, v) := by
  unfold State.ensure
  rw [h]
  simp only
  rw [checkVl_sound (by rw [vl_slot h]; exact hs)]

theorem mem_of_distinct {b : Nat} (l : List Nat) (h : b ∈ distinct l) : b ∈ l := by
  have : ∀ (l acc : List Nat), b ∈ l.foldl (fun acc a => if acc.contains a then acc else acc ++ [a]) acc → b ∈ acc ∨ b ∈ l := by
    intro l; induction l with
    | nil => simp
    | cons x t ih => intro acc h; rw [List.foldl_cons] at h; rcases ih _ h with h | h
                     · split at h
                       · exact .inl h
                       · rw [List.mem_append, List.mem_singleton] at h; rcases h with h | h
                         · exact .inl h
                         · exact .inr (by simp [h])
                     · exact .inr (List.mem_cons_of_mem _ h)
  rcases this _ _ h with h | h
  · exact absurd h (by simp)
  · exact h

/-- A transaction that awaits answers stands. -/
theorem settle_waits (s : State) (v : VLine) (x : Txn) (hx : v.txn = some x) (hw : x.await ≠ [] ∨ x.awaitDies ≠ []) :
    (s.putVl v).settleTxn v.slot = s.putVl v := by
  unfold State.settleTxn
  simp only [vl_putVl, if_true]
  unfold State.advance
  simp only [vl_putVl, if_true, hx]
  rw [if_pos]
  rcases hw with h | h
  · cases hx' : x.await with
    | nil => exact absurd hx' h
    | cons => simp
  · cases hx' : x.awaitDies with
    | nil => exact absurd hx' h
    | cons => simp

/-- A line with no transaction and no request stands. -/
theorem advance_idle (n : Nat) (s : State) (slot : Nat) (u : VLine) (h : s.vl slot = some u) (ht : u.txn = none) (hq : u.queue = []) :
    s.advance n slot = s := by
  cases n with
  | zero => rfl
  | succ n =>
    unfold State.advance
    simp only [h, ht, hq]
    split <;> rfl

/-- A transaction that awaits nothing ends, and leaves the line idle. -/
theorem advance_ends (n : Nat) (s s' : State) (v u : VLine) (x : Txn) (hx : v.txn = some x) (ha : x.await = []) (hd : x.awaitDies = [])
    (hf : (s.putVl v).finishTxn v x = some s') (hu : s'.vl v.slot = some u) (ht : u.txn = none) (hq : u.queue = []) :
    (s.putVl v).advance (n + 1) v.slot = s' := by
  unfold State.advance
  simp only [vl_putVl, if_true, hx, ha, hd, List.isEmpty_nil, Bool.not_true, Bool.or_self, Bool.false_eq_true, if_false, hf]
  exact advance_idle n s' v.slot u hu ht hq

/-- A request comes to an idle line: its transaction opens at once. -/
theorem serve_opens {s : State} {slot : Nat} {p : Option (Nat × Nat)} {v : VLine} {req : Req} (h : s.vl slot = some v)
    (hs : health v.flips (s.isB slot && badGroup v.line) = .sound) (hf : ∀ q ∈ s.fillq, q.1 ≠ slot) (hr : s.refusal slot req = none)
    (ht : v.txn = none) (hl : v.leased = false) (hq : v.queue = []) :
    s.serve slot p req = ((s.putVl { v with queue := [req] }).openTxn v req).advance 3 slot := by
  have hv := vl_slot h
  unfold State.serve
  rw [hr]
  simp only
  have : s.fillq.any (fun p => p.1 == slot) = false := by
    rw [List.any_eq_false]; intro q hq'; simp [hf q hq']
  rw [if_neg (by simp [this]), ensure_vl h hs]
  simp only
  unfold State.settleTxn
  simp only [vl_putVl, hv, if_true, hq, List.nil_append, List.length_cons, List.length_nil]
  conv => lhs; unfold State.advance
  simp only [vl_putVl, if_true, ht, hl]
  rw [if_neg (by simp)]
  cases v
  simp only at hv ht hl hq
  subst hv ht hl hq
  rfl

/-- A request comes to a line with a transaction under way: it queues. -/
theorem serve_busy {s : State} {slot : Nat} {p : Option (Nat × Nat)} {v : VLine} {req : Req} {x : Txn} (h : s.vl slot = some v)
    (hs : health v.flips (s.isB slot && badGroup v.line) = .sound) (hf : ∀ q ∈ s.fillq, q.1 ≠ slot) (hr : s.refusal slot req = none)
    (hx : v.txn = some x) (hw : x.await ≠ [] ∨ x.awaitDies ≠ []) : s.serve slot p req = s.putVl { v with queue := v.queue ++ [req] } := by
  have hv := vl_slot h
  unfold State.serve
  rw [hr]
  simp only
  have : s.fillq.any (fun p => p.1 == slot) = false := by
    rw [List.any_eq_false]; intro q hq'; simp [hf q hq']
  rw [if_neg (by simp [this]), ensure_vl h hs]
  simp only
  have := settle_waits s { v with queue := v.queue ++ [req] } x hx hw
  simp only [hv] at this ⊢
  exact this

theorem refusal_putVl (s : State) (v : VLine) (x : Nat) (r : Req) : (s.putVl v).refusal x r = s.refusal x r := rfl

/-- A transaction that snoops nobody. -/
theorem openTxn_quiet {s : State} {v : VLine} {u : VLine} {req : Req} (hu : u.slot = v.slot) (hr : s.refusal v.slot req = none)
    (hi : v.st = .I) : (s.putVl u).openTxn v req = s.putVl { v with txn := some { req := req, await := [], awaitDies := [], supplied := false } } := by
  unfold State.openTxn
  rw [refusal_putVl, hr]
  have quiet : ∀ b : Bool, (if b = true then none else snoopOf req .I) = none := by
    intro b; cases b <;> cases req <;> rfl
  simp only [hi, quiet]
  rw [if_neg (by simp)]
  simp only [List.map_nil, List.append_nil, later_nil]
  rw [putVl_putVl _ _ _ (by simp [hu])]

/-- A request at an idle line that no agent holds is served at once. -/
theorem serve_I {s s' : State} {slot : Nat} {p : Option (Nat × Nat)} {v u : VLine} {req : Req} (h : s.vl slot = some v)
    (hs : health v.flips (s.isB slot && badGroup v.line) = .sound) (hf : ∀ q ∈ s.fillq, q.1 ≠ slot) (hr : s.refusal slot req = none)
    (ht : v.txn = none) (hl : v.leased = false) (hq : v.queue = []) (hi : v.st = .I)
    (hfin : ∀ x : Txn, x = { req := req, await := [], awaitDies := [], supplied := false } →
      (s.putVl { v with txn := some x }).finishTxn { v with txn := some x } x = some s')
    (hu : s'.vl slot = some u) (hut : u.txn = none) (huq : u.queue = []) : s.serve slot p req = s' := by
  have hv := vl_slot h
  rw [serve_opens h hs hf hr ht hl hq, openTxn_quiet (v := v) (u := { v with queue := [req] }) rfl (by rw [hv]; exact hr) hi, ← hv]
  exact advance_ends 2 s s' _ u _ rfl rfl rfl (hfin _ rfl) (by rw [← hv] at hu; exact hu) hut huq

theorem copy_slot {s : State} {a x : Nat} {c : Copy} (h : s.copy a x = some c) : c.slot = x := by
  have := List.find?_some h
  simp at this
  exact this.2

theorem copy_agent {s : State} {a x : Nat} {c : Copy} (h : s.copy a x = some c) : c.agent = a := by
  have := List.find?_some h
  simp at this
  exact this.1

/-- A home takes a returned line. -/
theorem giveBack_leave {s : State} {a slot : Nat} {v : VLine} {c : Copy} {d : Bool} (h : s.vl slot = some v) (ht : v.txn = none)
    (hq : v.queue = []) (hc : s.copy a slot = some c) (ha : a < 326) (hl : c.leased = false) (hf : c.flips = [])
    (hd : (c.st == .M || c.st == .O) = d) : s.giveBack a slot d = s.leave a slot (if d then some c.line else none) := by
  have hs := copy_slot hc
  have hn := copy_agent hc
  have lost : c.lostDirty = false := by
    unfold Copy.lostDirty; rw [hf, show (health [] false == Health.lost) = false from by decide, Bool.and_false]
  unfold State.giveBack State.giveUp State.takeBack State.orphan
  rw [hc]
  simp only [hs, hn, if_neg (Nat.not_le.2 ha), later_nil, h, ht, hq, lost, hl, hd]
  simp only [checkCopy_sound hf, hs, hn]
  subst hd
  simp

theorem leave_self {s : State} {a slot : Nat} {v : VLine} (h : s.vl slot = some v) (d : Option Line) : (s.leave a slot d).copy a slot = none ∧
   ((s.leave a slot d).vl slot).map (fun u => (u.line, u.vdirty)) = some (d.getD v.line, if d.isSome then true else v.vdirty) := by
  have hs := vl_slot h
  unfold State.leave; simp only
  rw [vl_of_vlines (t := State.unfilter _ _ _) (s := s) (by simp), h]
  simp only [vl_putVl]
  constructor
  · rw [copy_of_copies (State.putVl_copies _ _), copy_of_copies (State.unfilter_copies _ _ _), copy_dropCopy, if_pos ⟨rfl, rfl⟩]
  · cases d <;> simp [hs]

/-- A change of a transaction that leaves answers awaited. -/
theorem modTxn_wait {s : State} {slot : Nat} {v : VLine} {x : Txn} (h : s.vl slot = some v) (hx : v.txn = some x) (f : VLine → Txn → VLine × Txn)
    (hs : (f v x).1.slot = slot) (hw : (f v x).2.await ≠ [] ∨ (f v x).2.awaitDies ≠ []) :
    s.modTxn slot f = s.putVl { (f v x).1 with txn := some (f v x).2 } := by
  unfold State.modTxn
  rw [h]
  simp only [hx]
  have := settle_waits s { (f v x).1 with txn := some (f v x).2 } (f v x).2 rfl hw
  rw [hs] at this
  exact this

/-- A fill where the set has a way. -/
theorem ensure_room {s : State} {slot : Nat} (h : s.vl slot = none) (hr : (s.sameSet slot).length < 27) :
    ∃ v, s.ensure slot none = some ((s.hbmFetch slot).1.putVl v, v) ∧ v.line = (s.hbmFetch slot).2.line ∧ v.txn = none ∧ v.slot = slot
      ∧ v.queue = [] := by
  unfold State.ensure State.roomVault
  rw [h]
  simp only [hr, if_true, Option.map_some, Option.isSome_none, Bool.false_and, Bool.false_eq_true, if_false]
  exact ⟨_, rfl, rfl, rfl, rfl, rfl⟩

theorem unfilter_denom (s : State) (x : Nat) (l : List Nat) (d : Nat) : ((s.unfilter x l).die d).denom = (s.die d).denom := by
  unfold State.unfilter State.die
  simp only [List.getD_eq_getElem?_getD, List.getElem?_map]
  cases s.dies[d]? <;> rfl

theorem imageOf_congr {s t : State} (hf : t.frames = s.frames) (hd : ∀ d, (t.die d).denom = (s.die d).denom) (x : Nat) (l : Line) (e : Bool) :
   t.imageOf x l e = s.imageOf x l e := by
  unfold State.imageOf State.isB State.frame
  simp only [hf, hd]

theorem hbmStore_get (s : State) (x : Nat) (l : Line) (e : Bool) (hw : Memory.wf s.hbm = true) (a : Nat) :
   hbmGet (s.hbmStore x l e).hbm a = if 160 * x ≤ a then (match (s.imageOf x l e)[a - 160 * x]? with | some b => BitVec.ofNat 8 b | none => hbmGet s.hbm a) else hbmGet s.hbm a := by
  unfold State.hbmStore
  exact hbmGet_hbmPutAll _ _ _ _ hw

end Sys2Proof.Machine
end

