-- ==== Sys2Proof/Laws/Placement.lean ====
section
/-! SUPPORT. When a single team can be placed (R363), and what a grid places next (R389). -/

namespace Sys2Proof.Machine

/-- A team finds a place on a core exactly when the core can reserve all it needs. -/
theorem placeAll_one (s : State) (node : List Word) (c : Nat) (f : PutTeam) :
    s.placeAll node [c] [f] = (s.fitsCore node c).map (fun b => f s c (s.freeSlot c) b) := by
  simp only [State.placeAll, List.foldl_cons, List.foldl_nil, Option.bind_some, State.placeFirst, List.findSome?]
  cases s.fitsCore node c <;> rfl

/-- A single team is placed exactly when some core of the list can reserve all it needs. -/
theorem placeCrew_one (s : State) (node : List Word) (cores : List Nat) (f : PutTeam) (h : intAt node 19 ≤ 1) :
    (s.placeCrew node cores [f]).isSome = cores.any (fun c => (s.fitsCore node c).isSome) := by
  simp only [State.placeCrew, h, if_true, State.choose]
  have hf : ∀ g ∈ cores.map (fun c => [c]), (s.placeAll node g [f]).isSome = true → (({ s with tick := s.tick + 1 } : State).placeAll node g [f]).isSome = true := by
    intro g hg hs
    obtain ⟨c, _, rfl⟩ := List.mem_map.1 hg
    rw [placeAll_one] at hs ⊢
    have : ({ s with tick := s.tick + 1 } : State).fitsCore node c = s.fitsCore node c := rfl
    rw [this]
    simpa using hs
  by_cases hc : cores.any (fun c => (s.fitsCore node c).isSome) = true
  · rw [hc]
    obtain ⟨c, hc1, hc2⟩ := List.any_eq_true.1 hc
    have hm : [c] ∈ (cores.map (fun c => [c])).filter (fun g => (s.placeAll node g [f]).isSome) := by
      rw [List.mem_filter]
      refine ⟨List.mem_map.2 ⟨c, hc1, rfl⟩, ?_⟩
      rw [placeAll_one]; simpa using hc2
    generalize hl : (cores.map (fun c => [c])).filter (fun g => (s.placeAll node g [f]).isSome) = l at hm
    have hne : l.isEmpty = false := by cases l with
      | nil => simp at hm
      | cons a t => rfl
    rw [hne]
    simp only [Bool.false_eq_true, if_false]
    have hlt : Config.choice s.tick % l.length < l.length := Nat.mod_lt _ (List.length_pos_of_mem hm)
    have hmem : l.getD (Config.choice s.tick % l.length) [] ∈ l := by
      rw [List.getD_eq_getElem?_getD, List.getElem?_eq_getElem hlt]
      exact List.getElem_mem hlt
    have hall : ∀ g ∈ l, g ∈ cores.map (fun c => [c]) ∧ (s.placeAll node g [f]).isSome = true := by
      intro g hg; rw [← hl, List.mem_filter] at hg; exact hg
    exact hf _ (hall _ hmem).1 (hall _ hmem).2
  · have he : (cores.map (fun c => [c])).filter (fun g => (s.placeAll node g [f]).isSome) = [] := by
      rw [List.filter_eq_nil_iff]
      intro g hg hs
      obtain ⟨c, hc1, rfl⟩ := List.mem_map.1 hg
      rw [placeAll_one] at hs
      exact hc (List.any_eq_true.2 ⟨c, hc1, by simpa using hs⟩)
    rw [he]
    simp at hc
    simpa using fun c hc1 => by simpa using hc c hc1

/-- A grid without saved teams places its next unit. -/
theorem placeNext_fresh (s : State) (g : Grid) (hs : s.saved = []) (hw : g.waiting = true) : s.placeNext g = s.placeUnit g := by
  simp [State.placeNext, State.savedOf, hs, hw]

/-- The next team of a grid of single teams is placed exactly when some core of its partition can reserve all it needs. -/
theorem placeUnit_one (s : State) (g : Grid) (h : intAt g.node 19 = 1) (hc : g.coop = false) (hn : g.next < g.total) :
    (s.placeUnit g).isSome = (s.partCores g.part).any (fun c => (s.fitsCore g.node c).isSome) := by
  have hu : g.unit = [[g.next]] := by simp [Grid.unit, hc, h, hn]
  simp only [State.placeUnit, hu, List.foldl_cons, List.foldl_nil, Option.bind_some, List.map_cons, List.map_nil]
  exact placeCrew_one s g.node _ _ (by omega)

end Sys2Proof.Machine
end

