-- ==== Sys2Proof/Laws/Sync.lean ====
section
/-! SUPPORT. Atomic operations: what their lanes, their release step, their images and their transactions amount to where nothing
stops. -/

namespace Sys2Proof.Machine

/-- Lanes that all pass R318 add nothing but themselves. -/
theorem atomLanes_fold (o : Opnd) (xs : List Exec) (e : Eff) (acc : List AtomLane) (w : State) (l : List AtomLane)
    (h : syncLanes o xs e.s = some (w, l)) :
    xs.foldl (fun p x =>
    let va := x.reg p.1.s o.a 0
    match p.1.s.findSync x.t.team .readWrite true va with
    | (s, .error k) => (({ p.1 with s := s } : Eff).stop x k, p.2)
    | (s, .ok l) => ({ p.1 with s := s },
        p.2 ++ [{ x := x, va := va, at_ := l, v := x.reg s o.b 0, c := if o.c = -2 then x.reg s (o.b + 1) 0 else .zero }]))
    (e, acc) = ({ e with s := w }, acc ++ l) := by
  induction xs generalizing e acc l with
  | nil => simp only [syncLanes, Option.some.injEq, Prod.mk.injEq] at h; obtain ⟨rfl, rfl⟩ := h; simp
  | cons x t ih =>
    simp only [syncLanes] at h
    split at h
    · next s1 a h1 =>
      cases hr : syncLanes o t s1 with
      | none => simp [hr] at h
      | some q =>
        obtain ⟨w', l'⟩ := q
        rw [hr] at h
        simp only [Option.map_some, Option.some.injEq, Prod.mk.injEq] at h
        obtain ⟨rfl, rfl⟩ := h
        rw [List.foldl_cons]
        simp only [h1]
        rw [ih { e with s := s1 } _ l' hr]
        simp
    · exact absurd h (by simp)

/-- Lanes that are ready leave no stop. -/
theorem atomRelease_ready (o : Opnd) (rel : Bool) (xs : List Exec) (s w : State) (l : List AtomLane) (h : atomReady o rel xs s = some (w, l)) :
    atomRelease rel o.x (s.atomLanes o xs) = (Eff.of w, l) := by
  unfold atomReady at h
  cases hs : syncLanes o xs s with
  | none => simp [hs] at h
  | some p =>
    obtain ⟨s1, l1⟩ := p
    rw [hs] at h
    simp only [Option.bind_some] at h
    split at h
    · next h2 =>
      simp only [Option.some.injEq, Prod.mk.injEq] at h
      obtain ⟨rfl, rfl⟩ := h
      have : s.atomLanes o xs = _ := atomLanes_fold o xs (Eff.of s) [] s1 l1 hs
      rw [this]
      have hw : ({ s := s1, traps := [], stay := [], goto := [] } : Eff).waits = false := rfl
      simp [atomRelease, Eff.of, hw, h2]
    · exact absurd h (by simp)

/-- Steps that each leave a plain state leave a plain state. -/
theorem foldl_of_eachOpt {α : Type} (g : State → α → Option State) (f : Eff → α → Eff) (hf : ∀ s a s', g s a = some s' → f (Eff.of s) a = Eff.of s')
    (l : List α) (s w : State) (h : eachOpt g l s = some w) : l.foldl f (Eff.of s) = Eff.of w := by
  induction l generalizing s with
  | nil => simp only [eachOpt, Option.some.injEq] at h; subst h; rfl
  | cons a t ih =>
    simp only [eachOpt] at h
    cases hg : g s a with
    | none => simp [hg] at h
    | some s1 =>
      rw [hg] at h
      rw [List.foldl_cons, hf s a s1 hg]
      exact ih s1 h

/-- An operation on a lease image. -/
theorem atomImage_of (o : Opnd) (ret : Bool) (s : State) (a : AtomLane) (s' : State) (h : atomImageRule o ret s a = some s') :
    atomImage o ret (Eff.of s) a = Eff.of s' := by
  unfold atomImageRule at h
  unfold atomImage
  simp only [Eff.of] at *
  split at h
  · next h1 => simp only [Option.some.injEq] at h; subst h; first | rfl | rw [h1]
  · next r h1 =>
    try simp only [h1]
    split at h
    · exact absurd h (by simp)
    · next h2 =>
      rw [if_neg h2]
      simp only [Option.some.injEq] at h; subst h; first | rfl | rw [h1]

/-- A transaction at a home. -/
theorem atomHome_of (o : Opnd) (s : State) (l : List AtomLane) (s' : State) (h : atomHomeRule o s l = some s') :
    atomHome o (Eff.of s) l = Eff.of s' := by
  unfold atomHomeRule at h
  unfold atomHome
  simp only [Eff.of] at *
  split at h
  · simp only [Option.some.injEq] at h; subst h; first | rfl | rw [h1]
  · next a t =>
    try simp only
    split at h
    · exact absurd h (by simp)
    · next h1 =>
      have h1' := eq_false_of_ne_true h1
      simp only [h1', Bool.false_eq_true, if_false]
      cases hr : s.homeRead a.at_.slot a.at_.pin with
      | none => simp [hr] at h
      | some p =>
        obtain ⟨s1, line⟩ := p
        rw [hr] at h
        simp only [Option.bind_some] at h
        simp only
        split at h
        · exact absurd h (by simp)
        · next h2 =>
          have h2' := eq_false_of_ne_true h2
          simp only [h2', Bool.false_eq_true, if_false]
          cases hw : s1.homeWrite a.at_.slot (fun x => { x with w := setNth x.w (wordOf a.va) (atomRun o.c o.et o.sat (wordAt line.w (wordOf a.va)) (a :: t)).2 }) (s1.eligOf a.x.t.team a.at_) a.at_.pin with
          | none => simp [hw] at h
          | some q =>
            obtain ⟨s2, l2, n2⟩ := q
            rw [hw] at h
            simp only [Option.map_some, Option.some.injEq] at h
            subst h
            rfl

end Sys2Proof.Machine
end

