-- ==== Sys2Proof/Laws/Traps.lean ====
section
/-! SUPPORT. What raising traps does to a team's events and threads, and to nothing else (R370). -/

namespace Sys2Proof.Machine

theorem mem_insertBy {α : Type} (le : α → α → Bool) (a x : α) (l : List α) : x ∈ insertBy le a l ↔ x = a ∨ x ∈ l := by
  induction l with
  | nil => simp [insertBy]
  | cons b t ih => 
    simp only [insertBy]
    split
    · simp only [List.mem_cons, ih]; constructor
      · rintro (h | h | h) <;> simp [h]
      · rintro (h | h | h) <;> simp [h]
    · simp

theorem mem_sortBy {α : Type} (le : α → α → Bool) (x : α) (l : List α) : x ∈ sortBy le l ↔ x ∈ l := by
  have : ∀ (l acc : List α), x ∈ l.foldl (fun acc a => insertBy le a acc) acc ↔ x ∈ acc ∨ x ∈ l := by
    intro l
    induction l with
    | nil => simp
    | cons b t ih => intro acc; rw [List.foldl_cons, ih, mem_insertBy]; simp only [List.mem_cons]; constructor
                     · rintro ((h | h) | h) <;> simp [h]
                     · rintro (h | h | h) <;> simp [h]
  have := this l []
  simp only [List.not_mem_nil, false_or] at this
  exact this

/-- What an event does to a thread of its squad. -/
def trapThread (e : TrapEv) (l : Nat) (th : Thread) : Thread :=
  match assocGet e.faults l with
  | some a => { th with run := .trapped, fault := a }
  | none => th

theorem thread?_modTeam (s : State) (n : Nat) (f : Team → Team) (h : ∀ t, (f t).num = t.num) (hb : ∀ t, (f t).body = t.body) (r : TRef) :
   (s.modTeam n f).thread? r = s.thread? r := by
  simp only [State.thread?, State.squad?, team?_modTeam s n r.team f h]
  split
  · cases s.team? r.team <;> simp [hb]
  · rfl

theorem zipIdx_map_getElem? {α β : Type} (l : List α) (f : α × Nat → β) (i : Nat) : (l.zipIdx.map f)[i]? = l[i]?.map (fun a => f (a, i)) := by
  simp [List.getElem?_map, List.getElem?_zipIdx, Option.map_map, Function.comp_def]

theorem queueTrap_thread? (s : State) (n : Nat) (e : TrapEv) (r : TRef) :
   (s.queueTrap n e).thread? r = if r.team = n ∧ r.squad = e.squad then (s.thread? r).map (trapThread e r.lane) else s.thread? r := by
  unfold State.queueTrap
  simp only [State.laterOnce_thread?]
  simp only [State.thread?, squad?_modSquad]
  by_cases h : r.team = n ∧ r.squad = e.squad
  · rw [if_pos h, if_pos h]
    have hs : (s.modTeam n (fun t => { t with events := insertBy TrapEv.notAfter e t.events })).squad? r.team r.squad = s.squad? r.team r.squad := by
      simp only [State.squad?]
      rw [team?_modTeam]
      split
      · cases s.team? r.team <;> rfl
      · rfl
      · intro t; rfl
    rw [hs]
    cases s.squad? r.team r.squad with
    | none => rfl
    | some q => simp only [Option.map_some, Option.bind_some]; rw [zipIdx_map_getElem?]; rfl
  · rw [if_neg h, if_neg h]
    have := thread?_modTeam s n (fun t => { t with events := insertBy TrapEv.notAfter e t.events }) (fun _ => rfl) (fun _ => rfl) r
    simpa [State.thread?] using this

theorem queueTrap_team? (s : State) (n : Nat) (e : TrapEv) (m : Nat) (tm : Team) (h : s.team? m = some tm) :
   ∃ tm', (s.queueTrap n e).team? m = some tm' ∧ tm'.grid = tm.grid ∧ tm'.events = if m = n then insertBy TrapEv.notAfter e tm.events else tm.events := by
  unfold State.queueTrap
  simp only [State.laterOnce_team?, team?_modSquad]
  rw [team?_modTeam]
  · by_cases hm : m = n
    · simp [hm]; subst hm; simp [h]
    · simp [hm, h]
  · intro t; rfl

theorem laterOnce_rest (s : State) (i : Instr) (a : List Instr) (l : List Team) : ({ s.laterOnce i with teams := l, agenda := a } : State) = { s with teams := l, agenda := a } := by
  unfold State.laterOnce; split <;> rfl

theorem queueTrap_rest (s : State) (n : Nat) (e : TrapEv) (a : List Instr) (l : List Team) :
   ({ s.queueTrap n e with teams := l, agenda := a } : State) = { s with teams := l, agenda := a } := by
  unfold State.queueTrap; rw [laterOnce_rest]; rfl

/-- The event that `raiseTraps` makes for a team and a squad. -/
def keyEv (s : State) (rs : List TRef) (cause : Nat) (detail : Int) (pc : Word) (words : List Word) (m q : Nat) : TrapEv :=
  { cause := cause, detail := detail, squad := q, lanes := (rs.filter (fun r => r.team == m && r.squad == q)).map (·.lane),
    stamp := s.stampOf (s.partOf m), pc := pc, instr := words, aux := .zero,
    faults := (rs.filter (fun r => r.team == m && r.squad == q)).map (fun r => (r.lane, .zero)) }

theorem filter_key (rs : List TRef) (cause : Nat) (detail : Int) (m q : Nat) :
   (rs.map (fun r => (r, Trap.of cause detail .zero))).filter (fun p => (p.1.team, p.1.squad, p.2.cause, p.2.detail) == (m, q, cause, detail))
    = (rs.filter (fun r => r.team == m && r.squad == q)).map (fun r => (r, Trap.of cause detail .zero)) := by
  rw [List.filter_map]
  congr 1
  apply List.filter_congr
  intro r _
  show ((r.team, r.squad, cause, detail) == (m, q, cause, detail)) = _
  rw [Bool.eq_iff_iff]; simp

theorem assocGet_lane (l : List TRef) (r : Nat) : assocGet (l.map (fun r => (r.lane, Word.zero))) r = if ∃ u ∈ l, u.lane = r then some .zero else none := by
  induction l with
  | nil => simp [assocGet]
  | cons a t ih =>
    simp only [List.map_cons, assocGet, ih]
    by_cases h : a.lane = r
    · simp [h]
    · simp [h]

theorem key_thread (s : State) (rs : List TRef) (cause : Nat) (detail : Int) (pc : Word) (words : List Word) (m q : Nat) (r : TRef) (hr : r.team = m) (hq : r.squad = q) (th : Thread) :
   trapThread (keyEv s rs cause detail pc words m q) r.lane th = if r ∈ rs then { th with run := .trapped, fault := .zero } else th := by
  simp only [trapThread, keyEv, assocGet_lane]
  have : (∃ u ∈ rs.filter (fun r => r.team == m && r.squad == q), u.lane = r.lane) ↔ r ∈ rs := by
    constructor
    · rintro ⟨u, hu, hl⟩
      rw [List.mem_filter] at hu
      have hu2 := hu.2
      simp only [Bool.and_eq_true, beq_iff_eq] at hu2
      have : u = r := by
        cases u; cases r; simp_all
      rw [← this]; exact hu.1
    · intro h
      exact ⟨r, List.mem_filter.2 ⟨h, by simp [hr, hq]⟩, rfl⟩
  by_cases h : r ∈ rs
  · rw [if_pos (this.2 h), if_pos h]
  · rw [if_neg (fun x => h (this.1 x)), if_neg h]

/-- One event raised. -/
def raiseStep (rs : List TRef) (cause : Nat) (detail : Int) (pc : Word) (words : List Word) (s : State) (k : Nat × Nat × Nat × Int) : State :=
  s.queueTrap k.1 (keyEv s rs cause detail pc words k.1 k.2.1)

theorem raiseTraps_eq (s : State) (rs : List TRef) (cause : Nat) (detail : Int) (pc : Word) (words : List Word) :
   s.raiseTraps (rs.map (fun r => (r, Trap.of cause detail .zero))) pc words =
     (trapKeys (rs.map (fun r => (r, Trap.of cause detail .zero)))).foldl (raiseStep rs cause detail pc words) s := by
  unfold State.raiseTraps
  have : ∀ k ∈ trapKeys (rs.map (fun r => (r, Trap.of cause detail .zero))), ∃ r ∈ rs, k = (r.team, r.squad, cause, detail) := by
    intro k hk
    simp only [trapKeys, mem_sortBy, mem_distinct, List.map_map, List.mem_map] at hk
    obtain ⟨r, hr, rfl⟩ := hk
    exact ⟨r, hr, rfl⟩
  refine foldl_congr_mem _ _ _ _ (fun b k hk => ?_)
  obtain ⟨r, hr, rfl⟩ := this k hk
  simp only [filter_key]
  have hne : (rs.filter (fun u => u.team == r.team && u.squad == r.squad)) ≠ [] := by
    intro h; have : r ∈ rs.filter (fun u => u.team == r.team && u.squad == r.squad) := List.mem_filter.2 ⟨hr, by simp⟩
    rw [h] at this; exact absurd this (by simp)
  cases hc : rs.filter (fun u => u.team == r.team && u.squad == r.squad) with
  | nil => exact absurd hc hne
  | cons a t => 
    simp only [raiseStep, keyEv, hc]
    have none_ : ∀ l : List TRef, l.filterMap ((fun p : TRef × Trap => p.2.cls.map (fun c => (c, p.2.addr))) ∘ fun r => (r, Trap.of cause detail .zero)) = [] := by
      intro l; induction l with
      | nil => rfl
      | cons b l ih => rw [List.filterMap_cons]; simpa [Trap.of] using ih
    rw [List.filterMap_map, none_]
    simp [Trap.of, distinct]; rfl

theorem partOf_eq (s t : State) (m : Nat) (h1 : t.grids = s.grids) (h2 : (t.team? m).map (·.grid) = (s.team? m).map (·.grid)) : t.partOf m = s.partOf m := by
  have hg : ∀ n, t.grid? n = s.grid? n := by intro n; simp [State.grid?, h1]
  simp only [State.partOf]
  cases ha : t.team? m <;> cases hb : s.team? m <;> simp_all

/-- `t` is `s` with the events of the keys `ks` queued and their threads stopped, and nothing else changed. -/
structure Raised (s t : State) (rs : List TRef) (cause : Nat) (detail : Int) (pc : Word) (words : List Word) (ks : List (Nat × Nat × Nat × Int)) : Prop where
  thr : ∀ r th, s.thread? r = some th → t.thread? r = some (if r ∈ rs ∧ (r.team, r.squad, cause, detail) ∈ ks then { th with run := .trapped, fault := .zero } else th)
  thn : ∀ r, s.thread? r = none → t.thread? r = none
  tm : ∀ m tm, s.team? m = some tm → ∃ tm', t.team? m = some tm' ∧ tm'.grid = tm.grid ∧ ∀ e, e ∈ tm'.events ↔ e ∈ tm.events ∨ ∃ k ∈ ks, k.1 = m ∧ e = keyEv s rs cause detail pc words m k.2.1
  rest : ({ t with teams := s.teams, agenda := s.agenda } : State) = s
  grids : t.grids = s.grids
  stamps : t.stamps = s.stamps

theorem team_none (s : State) (n : Nat) (e : TrapEv) (m : Nat) (h : s.team? m = none) : (s.queueTrap n e).team? m = none := by
  unfold State.queueTrap
  simp only [State.laterOnce_team?, team?_modSquad]
  rw [team?_modTeam s n m (fun t => { t with events := insertBy TrapEv.notAfter e t.events }) (fun _ => rfl)]; simp [h]

theorem raised (s : State) (rs : List TRef) (cause : Nat) (detail : Int) (pc : Word) (words : List Word) (ks : List (Nat × Nat × Nat × Int)) 
   (hk : ∀ k ∈ ks, ∃ r ∈ rs, k = (r.team, r.squad, cause, detail)) :
   Raised s (ks.foldl (raiseStep rs cause detail pc words) s) rs cause detail pc words ks := by
  induction ks generalizing s with
  | nil => exact ⟨fun r th h => by simpa using h, fun r h => h, fun m tm h => ⟨tm, h, rfl, by simp⟩, rfl, rfl, rfl⟩
  | cons k t ih =>
    rw [List.foldl_cons]
    have I := ih (raiseStep rs cause detail pc words s k) (fun k hk' => hk k (by simp [hk']))
    obtain ⟨r0, hr0, hk0⟩ := hk k (by simp)
    have hst : (raiseStep rs cause detail pc words s k).stamps = s.stamps := by
      have := congrArg State.stamps (queueTrap_rest s k.1 (keyEv s rs cause detail pc words k.1 k.2.1) [] []); exact this
    have hgr : (raiseStep rs cause detail pc words s k).grids = s.grids := by
      have := congrArg State.grids (queueTrap_rest s k.1 (keyEv s rs cause detail pc words k.1 k.2.1) [] []); exact this
    have hev : ∀ m q, keyEv (raiseStep rs cause detail pc words s k) rs cause detail pc words m q = keyEv s rs cause detail pc words m q := by
      intro m q
      have hp : (raiseStep rs cause detail pc words s k).partOf m = s.partOf m := by
        apply partOf_eq _ _ _ hgr
        cases hm : s.team? m with
        | none => rw [raiseStep, team_none s _ _ m hm]
        | some tm => obtain ⟨tm', h1, h2, _⟩ := queueTrap_team? s k.1 (keyEv s rs cause detail pc words k.1 k.2.1) m tm hm
                     rw [raiseStep, h1]; simp [h2]
      simp only [keyEv, State.stampOf, hst, hp]
    refine ⟨?_, ?_, ?_, ?_, ?_, ?_⟩
    · intro r th h
      have h1 : (raiseStep rs cause detail pc words s k).thread? r = some (if r ∈ rs ∧ (r.team, r.squad, cause, detail) = k then { th with run := .trapped, fault := .zero } else th) := by
        rw [raiseStep, queueTrap_thread?]
        by_cases hc : r.team = k.1 ∧ r.squad = (keyEv s rs cause detail pc words k.1 k.2.1).squad
        · rw [if_pos hc, h, Option.map_some, key_thread s rs cause detail pc words k.1 k.2.1 r hc.1 hc.2]
          have : (r.team, r.squad, cause, detail) = k := by
            have h2 := hc.2; simp only [keyEv] at h2
            obtain ⟨a, b, c, d⟩ := k
            simp only [Prod.mk.injEq] at hk0 ⊢
            exact ⟨hc.1, h2, hk0.2.2.1.symm, hk0.2.2.2.symm⟩
          by_cases hrs : r ∈ rs
          · rw [if_pos hrs, if_pos ⟨hrs, this⟩]
          · rw [if_neg hrs, if_neg (fun x => hrs x.1)]
        · rw [if_neg hc, h]
          have : ¬ (r.team, r.squad, cause, detail) = k := by
            intro e; apply hc; subst e; exact ⟨rfl, rfl⟩
          rw [if_neg (fun x => this x.2)]
      rw [I.thr r _ h1]
      congr 1
      by_cases a : r ∈ rs <;> by_cases b : (r.team, r.squad, cause, detail) = k <;> by_cases c : (r.team, r.squad, cause, detail) ∈ t <;> simp [a, b, c]
    · intro r h
      apply I.thn
      rw [raiseStep, queueTrap_thread?]; split <;> simp [h]
    · intro m tm h
      obtain ⟨tm1, h1, hg1, h2⟩ := queueTrap_team? s k.1 (keyEv s rs cause detail pc words k.1 k.2.1) m tm h
      obtain ⟨tm2, h3, hg3, h4⟩ := I.tm m tm1 h1
      refine ⟨tm2, h3, hg3.trans hg1, fun e => ?_⟩
      rw [h4 e, h2]
      simp only [hev]
      by_cases hm : m = k.1
      · rw [if_pos hm, mem_insertBy]
        constructor
        · rintro ((h | h) | ⟨k', hk', h⟩)
          · right; exact ⟨k, by simp, hm.symm, by rw [h, hm]⟩
          · left; exact h
          · right; exact ⟨k', by simp [hk'], h⟩
        · rintro (h | ⟨k', hk', h⟩)
          · left; right; exact h
          · rcases List.mem_cons.1 hk' with rfl | hk'
            · left; left; rw [h.2, hm]
            · right; exact ⟨k', hk', h⟩
      · rw [if_neg hm]
        constructor
        · rintro (h | ⟨k', hk', h⟩)
          · left; exact h
          · right; exact ⟨k', by simp [hk'], h⟩
        · rintro (h | ⟨k', hk', h⟩)
          · left; exact h
          · rcases List.mem_cons.1 hk' with rfl | hk'
            · exact absurd h.1.symm hm
            · right; exact ⟨k', hk', h⟩
    · have h1 := I.rest
      have h2 := queueTrap_rest s k.1 (keyEv s rs cause detail pc words k.1 k.2.1) s.agenda s.teams
      have h3 : ({ raiseStep rs cause detail pc words s k with teams := s.teams, agenda := s.agenda } : State) = s := h2
      rw [← h1] at h3
      exact h3
    · rw [I.grids, hgr]
    · rw [I.stamps, hst]

theorem raise_ok (s : State) (rs : List TRef) (cause : Nat) (detail : Int) (pc : Word) (words : List Word) :
   Raised s (s.raiseTraps (rs.map (fun r => (r, Trap.of cause detail .zero))) pc words) rs cause detail pc words
     (trapKeys (rs.map (fun r => (r, Trap.of cause detail .zero)))) := by
  rw [raiseTraps_eq]
  apply raised
  intro k hk
  simp only [trapKeys, mem_sortBy, mem_distinct, List.map_map, List.mem_map] at hk
  obtain ⟨r, hr, rfl⟩ := hk
  exact ⟨r, hr, rfl⟩

theorem mem_keys (rs : List TRef) (cause : Nat) (detail : Int) (k : Nat × Nat × Nat × Int) :
  k ∈ trapKeys (rs.map (fun r => (r, Trap.of cause detail .zero))) ↔ ∃ r ∈ rs, k = (r.team, r.squad, cause, detail) := by
  simp only [trapKeys, mem_sortBy, mem_distinct, List.map_map, List.mem_map]
  constructor
  · rintro ⟨r, hr, rfl⟩; exact ⟨r, hr, rfl⟩
  · rintro ⟨r, hr, rfl⟩; exact ⟨r, hr, rfl⟩

/-- From u (like s but for threads), the events. -/
theorem trapped_of (s u : State) (rs : List TRef) (cause : Nat) (detail : Int) (pc dest : Word) (words : List Word) (hpc : pc = s.cur.pc)
   (hu : ∀ m, (u.team? m).map (fun t => (t.grid, t.events)) = (s.team? m).map (fun t => (t.grid, t.events)))
   (hr : ({ u with teams := s.teams } : State) = s)
   (ht : ∀ r ∈ rs, ∀ th, s.thread? r = some th → ∃ th', u.thread? r = some th' ∧ th'.pc = dest ∧ th'.regs = th.regs ∧ th'.preds = th.preds) 
   (v : State) (hv : ∀ r, r ∉ rs → u.thread? r = v.thread? r):
   Trapped s v (u.raiseTraps (rs.map (fun r => (r, Trap.of cause detail .zero))) pc words) rs cause detail words dest := by
  have R := raise_ok u rs cause detail pc words
  have hug : u.grids = s.grids := by have := congrArg State.grids hr; exact this
  have hus : u.stamps = s.stamps := by have := congrArg State.stamps hr; exact this
  refine ⟨?_, ?_, ?_, ?_⟩
  · intro r th h hm
    obtain ⟨th', h1, h2, h3, h4⟩ := ht r hm th h
    have := R.thr r th' h1
    rw [if_pos ⟨hm, (mem_keys ..).2 ⟨r, hm, rfl⟩⟩] at this
    exact ⟨_, this, rfl, rfl, h3, h4, h2⟩
  · intro r hm
    rw [← hv r hm]
    cases h : u.thread? r with
    | none => exact R.thn r h
    | some th => rw [R.thr r th h, if_neg (fun x => hm x.1)]
  · intro m tm h
    have h0 := hu m
    rw [h, Option.map_some] at h0
    cases hut : u.team? m with
    | none => rw [hut] at h0; exact absurd h0 (by simp)
    | some tu =>
      rw [hut, Option.map_some, Option.some.injEq, Prod.mk.injEq] at h0
      obtain ⟨tm', h1, _, h2⟩ := R.tm m tu hut
      refine ⟨tm', h1, fun e => ?_⟩
      rw [h2 e, h0.2]
      have hp : u.partOf m = s.partOf m := by
        apply partOf_eq _ _ _ hug
        have := congrArg (Option.map Prod.fst) (hu m)
        simpa [Option.map_map, Function.comp_def] using this
      constructor
      · rintro (h | ⟨k, hk, rfl, rfl⟩)
        · left; exact h
        · right
          obtain ⟨r, hr', rfl⟩ := (mem_keys ..).1 hk
          exact ⟨r.squad, ⟨r, hr', rfl, rfl⟩, by simp only [keyEv, State.stampOf, hus, hp, hpc]⟩
      · rintro (h | ⟨q, ⟨r, hr', rfl, rfl⟩, rfl⟩)
        · left; exact h
        · right
          exact ⟨_, (mem_keys ..).2 ⟨r, hr', rfl⟩, rfl, by simp only [keyEv, State.stampOf, hus, hp, hpc]⟩
  · have h1 := R.rest
    have hag : u.agenda = s.agenda := by have := congrArg State.agenda hr; exact this
    generalize (u.raiseTraps (rs.map (fun r => (r, Trap.of cause detail .zero))) pc words) = w at h1
    calc ({ w with teams := s.teams, agenda := s.agenda } : State) = ({ ({ w with teams := u.teams, agenda := u.agenda } : State) with teams := s.teams, agenda := s.agenda } : State) := rfl
      _ = ({ u with teams := s.teams, agenda := s.agenda } : State) := by rw [h1]
      _ = ({ ({ u with teams := s.teams } : State) with agenda := s.agenda } : State) := rfl
      _ = s := by rw [hr]

theorem bare_grid (s t : State) (h : ∀ m, (t.team? m).map Team.bare = (s.team? m).map Team.bare) (m : Nat) :
  (t.team? m).map (fun t => (t.grid, t.events)) = (s.team? m).map (fun t => (t.grid, t.events)) := by
  have h1 := congrArg (Option.map (fun t : Team => (t.grid, t.events))) (h m)
  rw [Option.map_map, Option.map_map] at h1
  exact h1

theorem flatMap_inj {α β : Type} (f : α → List β) (l : List α) (h : (l.flatMap f).Nodup) (x : α) (hx : x ∈ l) (y : α) (hy : y ∈ l) (r : β) (h1 : r ∈ f x) (h2 : r ∈ f y) : x = y := by
  induction l with
  | nil => simp at hx
  | cons a t ih =>
    rw [List.flatMap_cons, List.nodup_append] at h
    rcases List.mem_cons.1 hx with rfl | hx' <;> rcases List.mem_cons.1 hy with rfl | hy'
    · rfl
    · exact absurd rfl (h.2.2 r h1 r (List.mem_flatMap.2 ⟨y, hy', h2⟩))
    · exact absurd rfl (h.2.2 r h2 r (List.mem_flatMap.2 ⟨x, hx', h1⟩))
    · exact ih h.2.1 hx' hy'

theorem thread?_setPc (s : State) (r u : TRef) (pc : Word) : (s.setPc r pc).thread? u = if u = r then (s.thread? u).map (fun t => { t with pc := pc }) else s.thread? u := by
  simp [State.setPc]

theorem setPc_fold (l : List TRef) (pc : Word) (s : State) (u : TRef) :
  (l.foldl (fun s r => s.setPc r pc) s).thread? u = if u ∈ l then (s.thread? u).map (fun t => { t with pc := pc }) else s.thread? u := by
  induction l generalizing s with
  | nil => simp
  | cons r t ih =>
    rw [List.foldl_cons, ih, thread?_setPc]
    by_cases h : u = r
    · subst h; simp [Function.comp_def]
    · simp [h]

theorem bare_setPc_fold (l : List TRef) (pc : Word) (s : State) (m : Nat) :
    ((l.foldl (fun s r => s.setPc r pc) s).team? m).map Team.bare = (s.team? m).map Team.bare := by
  induction l generalizing s with
  | nil => rfl
  | cons r t ih => rw [List.foldl_cons, ih, State.setPc, team?_bare_modThread]

theorem rest_setPc_fold (l : List TRef) (pc : Word) (s : State) (x : List Team) :
    ({ l.foldl (fun s r => s.setPc r pc) s with teams := x } : State) = { s with teams := x } := by
  induction l generalizing s with
  | nil => rfl
  | cons r t ih => rw [List.foldl_cons, ih]; rfl

end Sys2Proof.Machine
end

