-- ==== Sys2Proof/Tests/Slice0.lean ====
section
/-! SUPPORT. Tests: words written out from the manual's encodings, the ill-formed terms of each check, a witness for the hypotheses of
every obligation, and one or two effects of single instructions on small states. -/

namespace Sys2Proof.Tests
open Sys2Proof Sys2Proof.Machine

set_option Elab.async false

/-! ### Decoding (R155–R174): words written out from the field layouts of the manual -/

/-- Fields of one, two and three words that hold their neutral values. -/
def one : Opnd := { len := 1, gc := .always, gp := 4, f := 0, d := 0, a := 0, b := 0, x := 0, sat := false, gr := 0, la := 0, xc := 1, xr := 1, et := .t27, mb := .none, ma := .none, c := 0, w3 := .zero }
def two : Opnd := { one with len := 2 }
def three : Opnd := { one with len := 3 }

/-- The words decode to the instruction, which is well formed and whose encoding they are. -/
def decodesTo (ws : List Word) (i : Instr) : Bool :=
  (match decode ws with | .ok j => j == i | .error _ => false) && i.wellFormed && encode i == some ws

def decodeAll (l : List (List Word × Instr)) : Bool := l.all (fun p => decodesTo p.1 p.2)


/-- The words are refused for this reason. -/
def rejectedAs (ws : List Word) (r : Reject) : Bool := match decode ws with | .ok _ => false | .error e => e == r

/-- Integer instructions (R158, R161, R171). -/
theorem test_decode_integer : decodeAll [
  ([.spell [0, 0, -1, -1, -1, 0, 1, -1, -1, -1, 0, 0, -1, -1, -1, 0, -1, 0, 0, 0, 0, -1, -1, -1, -1, -1, -1]],
    .add { one with b := -116, a := -117, d := -118 }),
  ([.spell [0, 0, 0, 0, 0, 0, 0, 1, 1, 1, 1, 1, -1, -1, -1, -1, -1, 0, 0, 0, 0, -1, -1, -1, -1, 0, -1]],
    .sub { one with a := 121, d := -121 }),
  ([.spell [0, 0, 0, 0, 0, 0, 0, -1, -1, -1, 0, 0, -1, -1, -1, 0, -1, 0, 0, 0, 0, -1, -1, -1, -1, 1, -1]],
    .neg { one with a := -117, d := -118 }),
  ([.spell [0, 0, 0, 0, 0, 0, 0, -1, -1, -1, 0, 0, -1, -1, -1, 0, -1, 0, 0, 0, 0, -1, -1, -1, 0, -1, -1]],
    .abs { one with a := -117, d := -118 }),
  ([.spell [0, 0, 0, 0, 0, 0, 0, -1, -1, -1, 0, 0, -1, -1, -1, 0, -1, 0, 0, 0, 0, -1, -1, -1, 0, 0, -1]],
    .sgn { one with a := -117, d := -118 }),
  ([.spell [0, 0, 0, 0, 0, 0, 0, -1, -1, -1, 0, 0, -1, -1, -1, 0, -1, 0, 0, 0, 0, -1, -1, -1, 0, 1, 1], .spell [0, 0, 0, -1, -1, -1, -1, -1, -1, -1, 0, 0, 0, 0, 0, 0, 0, 0, 0, 0, 0, 0, 0, 0, 0, 0, 0], .spell [0, 0, 0, 0, 0, 0, 0, 0, 0, 0, 0, 0, 0, -1, 1, 0, 1, 0, 1, -1, -1, 1, -1, 1, 0, -1, 1]],
    .mul { three with a := -117, d := -118, w3 := .ofInt (-1000001) }),
  ([.spell [0, 1, 0, 0, 0, 0, 0, -1, -1, -1, 0, 0, -1, -1, -1, 0, -1, 0, 0, 0, 0, -1, -1, -1, 1, -1, 0], .spell [0, 0, 0, -1, -1, -1, -1, -1, -1, -1, 0, -1, 0, 0, 0, 0, 0, 0, 0, 0, 0, 0, -1, -1, -1, -1, 0]],
    .mulh { two with f := 1, a := -117, d := -118, c := -120, et := .t9 }),
  ([.spell [0, 0, -1, -1, -1, 0, 1, -1, -1, -1, 0, 0, -1, -1, -1, 0, -1, 0, 0, 0, 0, -1, -1, -1, 1, 0, 0], .spell [0, 0, 1, -1, -1, -1, -1, -1, -1, -1, -1, 0, 0, 0, 0, 0, 0, 0, 0, 0, 0, 0, -1, 1, 1, 1, 1]],
    .mad { two with b := -116, a := -117, d := -118, c := -41, sat := true, et := .st27 }),
  ([.spell [0, 0, -1, -1, -1, 0, 1, -1, -1, -1, 0, 0, -1, -1, -1, 0, -1, 0, 0, 0, 0, -1, -1, -1, 1, 1, -1]],
    .div { one with b := -116, a := -117, d := -118 }),
  ([.spell [0, 0, -1, -1, -1, 0, 1, -1, -1, -1, 0, 0, -1, -1, -1, 0, -1, 0, 0, 0, 0, -1, -1, 0, -1, -1, -1]],
    .mod { one with b := -116, a := -117, d := -118 }),
  ([.spell [0, 0, -1, -1, -1, 0, 1, -1, -1, -1, 0, 0, -1, -1, -1, 0, -1, 0, 0, 0, 0, -1, -1, 0, -1, 0, -1]],
    .min { one with b := -116, a := -117, d := -118 }),
  ([.spell [0, 0, -1, -1, -1, 0, 1, -1, -1, -1, 0, 0, -1, -1, -1, 0, -1, 0, -1, -1, -1, -1, -1, 0, -1, 1, -1]],
    .max { one with b := -116, a := -117, d := -118, gc := .notPos, gp := 0 }),
  ([.spell [0, 0, -1, -1, -1, 0, 1, -1, -1, -1, 0, 0, -1, -1, -1, 0, -1, 0, 0, 0, 0, -1, -1, 0, 0, -1, 0], .spell [0, 0, 0, -1, -1, -1, -1, -1, -1, -1, -1, 1, 0, 0, 0, 0, 0, 0, 0, 0, 0, 0, -1, -1, 0, -1, -1]],
    .clamp { two with b := -116, a := -117, d := -118, c := -112, et := .t1 })] = true := by decide +kernel

/-- Shifts and trit instructions. -/
theorem test_decode_trits : decodeAll [
  ([.spell [0, 1, 0, 0, 0, 0, 0, -1, -1, -1, 0, 0, -1, -1, -1, 0, -1, 0, 0, 0, 0, -1, -1, 0, 0, 0, 0], .spell [0, 0, 1, -1, -1, -1, -1, -1, -1, -1, 0, 0, 0, 0, 0, 0, 0, 0, 0, 0, 0, 0, 0, 0, 0, 1, -1]],
    .shl { two with f := 1, a := -117, d := -118, c := 2, sat := true }),
  ([.spell [0, 0, -1, -1, -1, 0, 1, -1, -1, -1, 0, 0, -1, -1, -1, 0, -1, 0, 0, 0, 0, -1, -1, 0, 0, 1, -1]],
    .shr { one with b := -116, a := -117, d := -118 }),
  ([.spell [0, 0, -1, -1, -1, 0, 1, -1, -1, -1, 0, 0, -1, -1, -1, 0, -1, 0, 0, 0, 0, -1, -1, 0, 1, -1, -1]],
    .rot { one with b := -116, a := -117, d := -118 }),
  ([.spell [0, 0, -1, -1, -1, 0, 1, -1, -1, -1, 0, 0, -1, -1, -1, 0, -1, 0, 0, 0, 0, -1, -1, 0, 1, 0, -1]],
    .tmin { one with b := -116, a := -117, d := -118 }),
  ([.spell [0, 0, -1, -1, -1, 0, 1, -1, -1, -1, 0, 0, -1, -1, -1, 0, -1, 0, 0, 0, 0, -1, -1, 0, 1, 1, -1]],
    .tmax { one with b := -116, a := -117, d := -118 }),
  ([.spell [0, 0, -1, -1, -1, 0, 1, -1, -1, -1, 0, 0, -1, -1, -1, 0, -1, 0, 0, 0, 0, -1, -1, 1, -1, -1, -1]],
    .tsum { one with b := -116, a := -117, d := -118 }),
  ([.spell [0, 0, -1, -1, -1, 0, 1, -1, -1, -1, 0, 0, -1, -1, -1, 0, -1, 0, 0, 0, 0, -1, -1, 1, -1, 0, -1]],
    .tcon { one with b := -116, a := -117, d := -118 }),
  ([.spell [0, 0, 0, 0, 0, 0, 0, -1, -1, -1, 0, 0, -1, -1, -1, 0, -1, 0, 0, 0, 0, -1, -1, 1, -1, 1, 0], .spell [0, 0, 0, -1, -1, -1, -1, -1, -1, -1, 0, 0, 0, 0, 0, 0, 0, 0, 0, 0, 0, 0, 0, 0, -1, -1, -1]],
    .tmap { two with a := -117, d := -118, c := -13 }),
  ([.spell [0, -1, 0, 0, 0, 0, 0, -1, -1, -1, 0, 0, -1, -1, -1, 0, -1, 0, 0, 0, 0, -1, -1, 1, 0, -1, -1]],
    .tcnt { one with f := -1, a := -117, d := -118 }),
  ([.spell [0, 0, 0, 0, 0, 0, 0, -1, -1, -1, 0, 0, -1, -1, -1, 0, -1, 0, 0, 0, 0, -1, -1, 1, 0, 0, -1]],
    .tlz { one with a := -117, d := -118 }),
  ([.spell [0, 0, -1, -1, -1, 0, 1, -1, -1, -1, 0, 0, -1, -1, -1, 0, -1, 0, 0, 0, 0, -1, -1, 1, 0, 1, 0], .spell [0, 0, 0, -1, -1, -1, -1, -1, -1, -1, 0, 0, 0, 0, 0, 0, 0, 0, 0, 0, 0, 0, 0, 1, 0, 0, 0]],
    .text { two with b := -116, a := -117, d := -118, c := 27 }),
  ([.spell [0, 0, -1, -1, -1, 0, 1, -1, -1, -1, 0, 0, -1, -1, -1, 0, -1, 0, 0, 0, 0, -1, -1, 1, 1, -1, 0], .spell [0, 0, 0, -1, -1, -1, -1, -1, -1, -1, 0, 0, 0, 0, 0, 0, 0, 0, 0, 0, 0, 0, 0, 0, 0, 0, 1]],
    .tins { two with b := -116, a := -117, d := -118, c := 1 })] = true := by decide +kernel

/-- Predicates, movement and sub-elements; routing in A and B (R147, R148). -/
theorem test_decode_movement : decodeAll [
  ([.spell [0, 0, -1, -1, -1, 0, 1, -1, -1, -1, 0, 0, 0, 0, 0, 1, -1, 0, 0, 0, 0, -1, -1, 1, 1, 0, 0], .spell [1, -1, 0, -1, -1, -1, -1, -1, -1, -1, 0, -1, 0, 0, 0, 0, 0, 0, 0, 0, 0, 0, 0, 0, 0, 0, 0]],
    .cmp { two with b := -116, a := -117, d := 2, x := 2, et := .t9 }),
  ([.spell [-1, -1, -1, -1, -1, 0, 1, -1, -1, -1, 0, 0, -1, -1, -1, 0, -1, 0, 0, 0, 0, -1, -1, 1, 1, 1, 0], .spell [0, 0, 0, 0, 1, -1, -1, -1, -1, -1, 0, 0, 1, 0, -1, 1, 1, 0, 1, -1, 1, 1, -1, -1, -1, 1, -1]],
    .sel { two with f := -4, b := -116, a := -117, d := -118, c := -115, gr := 5, mb := .bfly 2 true true, ma := .rot 5 true }),
  ([.spell [0, 0, 0, 0, 0, 0, 0, -1, -1, -1, 0, 0, -1, -1, -1, 0, -1, 0, 0, 0, 0, -1, 0, -1, -1, -1, 0], .spell [0, 0, 0, -1, -1, -1, -1, 1, 1, 1, 0, 0, 0, 0, 0, 0, 0, -1, -1, 0, 0, 0, -1, -1, -1, 1, 0]],
    .mov { two with a := -117, d := -118, c := -114, xc := 3, xr := 9, ma := .idx false }),
  ([.spell [0, 1, 0, 0, 0, 0, 0, -1, -1, -1, 0, 0, -1, -1, -1, 0, -1, 0, 0, 0, 0, -1, 0, -1, -1, -1, -1]],
    .movBc { one with f := 1, a := -117, d := -118 }),
  ([.spell [0, -1, 0, 0, 0, 0, 0, 1, 0, 0, -1, 1, -1, -1, -1, 0, -1, 0, 0, 0, 0, -1, 0, -1, -1, -1, 0], .spell [0, 0, 0, -1, -1, -1, -1, -1, -1, -1, -1, 0, 0, 0, 0, 0, 0, 0, 0, 0, 0, 0, 0, 0, 0, 0, 0]],
    .movK { two with f := -1, a := 79, d := -118, et := .st27 }),
  ([.spell [0, 0, 0, 0, 0, 0, 0, 0, 0, 0, 0, 0, -1, -1, -1, 0, -1, 0, 0, 0, 0, -1, 0, -1, -1, 0, 1], .spell [0, 0, 0, -1, -1, -1, -1, -1, -1, -1, 0, 0, 0, 0, 0, 0, 0, 0, 0, 0, 0, 0, 0, 0, 0, 0, 0], .spell [1, 1, 1, 1, 1, 1, 1, 1, 1, 1, 1, 1, 1, 1, 1, 1, 1, 1, 1, 1, 1, 1, 1, 1, 1, 1, 1]],
    .movi { three with d := -118, w3 := .ofInt (3812798742493) }),
  ([.spell [0, 0, -1, -1, -1, 0, 1, -1, -1, -1, 0, 0, -1, -1, -1, 0, -1, 0, 0, 0, 0, -1, 0, -1, -1, 1, 0], .spell [0, 0, 1, -1, -1, -1, -1, -1, -1, -1, 1, -1, 0, 0, 0, 0, 0, 0, 0, 0, 0, 0, -1, -1, 0, -1, -1]],
    .pack { two with b := -116, a := -117, d := -118, c := -112, sat := true, et := .tf9 }),
  ([.spell [0, 0, 0, 0, 0, 0, 0, -1, -1, -1, 0, 0, -1, -1, -1, 0, -1, 0, 0, 0, 0, -1, 0, -1, 0, -1, 0], .spell [0, 1, 0, -1, -1, -1, -1, -1, -1, -1, 0, -1, 0, 0, 0, 0, 0, 0, 0, 0, 0, 0, 0, 0, 0, 0, 0]],
    .unpack { two with a := -117, d := -118, x := 1, et := .t9 }),
  ([.spell [1, 0, 0, 0, 0, 0, 0, 0, 0, 0, 0, 0, -1, -1, -1, 0, -1, 0, 0, 0, 0, -1, 0, -1, 0, 0, 0], .spell [1, -1, 0, -1, -1, -1, -1, -1, -1, -1, 0, 0, 0, 0, 0, 0, 0, 0, 0, 0, 0, 0, 0, 0, 0, 0, 0]],
    .idx { two with f := 3, d := -118, x := 2 }),
  ([.spell [1, -1, -1, -1, -1, 0, 1, -1, -1, -1, 0, 0, -1, -1, -1, 0, -1, 0, 0, 0, 0, -1, 0, -1, 0, 1, 0], .spell [0, 0, 0, -1, -1, -1, -1, -1, -1, -1, -1, 0, 0, 0, 0, 0, 0, 0, 0, 0, 0, 0, 0, 0, 0, 0, 0]],
    .lget { two with f := 2, b := -116, a := -117, d := -118, et := .st27 }),
  ([.spell [0, 1, -1, -1, -1, 0, 1, -1, -1, -1, 0, 0, -1, -1, -1, 0, -1, 0, 0, 0, 0, -1, 0, -1, 1, -1, 0], .spell [0, 0, 0, -1, -1, -1, -1, -1, -1, -1, -1, 0, 0, 0, 0, 0, 0, 0, 0, 0, 0, 0, 0, 0, 0, 0, 0]],
    .lput { two with f := 1, b := -116, a := -117, d := -118, et := .st27 })] = true := by decide +kernel

/-- Group collectives (R231-R235, R227). -/
theorem test_decode_collective : decodeAll [
  ([.spell [0, 0, 0, 0, 0, 0, 0, -1, -1, -1, 0, 0, -1, -1, -1, 0, -1, 0, 0, 0, 0, -1, 0, -1, 1, 0, 0], .spell [0, 0, 0, 1, 1, -1, -1, -1, -1, -1, -1, 1, 0, 0, 0, 0, 0, 0, 0, 0, 0, 0, 0, 0, 0, 0, 0]],
    .trx { two with a := -117, d := -118, gr := 8, et := .t1 }),
  ([.spell [0, 1, 0, 0, 0, 0, 0, 0, 0, 0, 1, 1, 0, 0, 0, -1, -1, 0, 0, 0, 0, -1, 0, -1, 1, 1, 0], .spell [0, 0, 0, -1, 0, -1, -1, -1, -1, -1, 0, 0, 0, 0, 0, 0, 0, 0, 0, 0, 0, 0, 0, 0, 0, 0, 0]],
    .vote { two with f := 1, a := 4, d := -4, gr := 1 }),
  ([.spell [0, 0, 0, 0, 0, 0, 0, -1, -1, -1, 0, 0, -1, -1, -1, 0, -1, 0, 0, 0, 0, -1, 0, 0, -1, -1, 0], .spell [0, 0, 1, 0, 0, -1, -1, -1, -1, -1, 0, -1, 0, 0, 0, 0, 0, 0, 0, 0, 0, 0, 0, 0, 0, 0, 0]],
    .gred { two with a := -117, d := -118, sat := true, gr := 4, et := .t9 }),
  ([.spell [0, -1, 0, 0, 0, 0, 0, -1, -1, -1, 0, 0, -1, -1, -1, 0, -1, 0, 0, 0, 0, -1, 0, 0, -1, 0, 0], .spell [0, 1, 0, -1, -1, -1, -1, -1, -1, -1, 0, 1, 0, 0, 0, 0, 0, 0, 0, 0, 0, 0, 0, 0, 0, 0, 0]],
    .gscan { two with f := -1, a := -117, d := -118, x := 1, et := .tf27 }),
  ([.spell [0, 1, -1, -1, -1, 0, 1, -1, -1, -1, 0, 0, -1, -1, -1, 0, -1, 0, 0, 0, 0, -1, 0, 0, -1, 1, 0], .spell [0, 0, 0, -1, -1, -1, -1, -1, -1, -1, 0, 0, 0, 0, 0, 0, 0, 0, 0, 0, 0, 0, 0, 0, 0, 0, 0]],
    .hist { two with f := 1, b := -116, a := -117, d := -118 }),
  ([.spell [0, 0, 0, 0, 0, 0, 0, -1, -1, -1, 0, 0, -1, -1, -1, 0, -1, 0, 0, 0, 0, -1, 0, 0, 0, -1, 0], .spell [0, 0, 0, -1, -1, -1, -1, -1, -1, -1, -1, 1, 0, 0, 0, 0, 0, 0, 0, 0, 0, 0, 0, 0, 0, 0, 0]],
    .bsum { two with a := -117, d := -118, et := .t1 })] = true := by decide +kernel

/-- Float instructions and special functions; a one-word form is tf27 (R162). -/
theorem test_decode_float_1 : decodeAll [
  ([.spell [0, 0, -1, -1, -1, 0, 1, -1, -1, -1, 0, 0, -1, -1, -1, 0, -1, 0, 0, 0, 0, -1, 0, 0, 0, 0, -1]],
    .fadd { one with b := -116, a := -117, d := -118, et := .tf27 }),
  ([.spell [0, 0, 0, 0, 0, 0, 0, -1, -1, -1, 0, 0, -1, -1, -1, 0, -1, 0, 0, 0, 0, -1, 0, 0, 0, 1, 1], .spell [0, 0, 0, -1, -1, -1, -1, -1, -1, -1, 1, 0, 0, 0, 0, 0, 0, 0, 0, 0, 0, 0, 0, 0, 0, 0, 0], .spell [0, 0, 0, 0, 0, 0, 0, 0, 0, 0, 0, 0, 0, 0, 0, 0, 0, 1, -1, 0, -1, 0, -1, 1, 1, -1, 0]],
    .fsub { three with a := -117, d := -118, et := .stf27, w3 := .ofInt (12345) }),
  ([.spell [0, 0, -1, -1, -1, 0, 1, -1, -1, -1, 0, 0, -1, -1, -1, 0, -1, 0, 0, 0, 0, -1, 0, 0, 1, -1, -1]],
    .fmul { one with b := -116, a := -117, d := -118, et := .tf27 }),
  ([.spell [0, 0, -1, -1, -1, 0, 1, -1, -1, -1, 0, 0, -1, -1, -1, 0, -1, 0, 0, 0, 0, -1, 0, 0, 1, 0, 0], .spell [0, 0, 1, -1, -1, -1, -1, -1, -1, -1, 1, -1, 0, 0, 0, 0, 0, 0, 0, 0, 0, 0, -1, -1, 0, -1, -1]],
    .ffma { two with b := -116, a := -117, d := -118, c := -112, sat := true, et := .tf9 }),
  ([.spell [0, 0, -1, -1, -1, 0, 1, -1, -1, -1, 0, 0, -1, -1, -1, 0, -1, 0, 0, 0, 0, -1, 0, 0, 1, 1, 0], .spell [0, 0, 0, -1, -1, -1, -1, -1, -1, -1, 0, 1, 0, 0, 0, 0, 0, 0, 0, 0, 0, 0, -1, -1, 0, -1, -1]],
    .fadd3 { two with b := -116, a := -117, d := -118, c := -112, et := .tf27 }),
  ([.spell [0, 1, -1, -1, 0, -1, 0, -1, -1, -1, 0, 0, -1, -1, -1, 0, -1, 0, 0, 0, 0, -1, 0, 1, -1, -1, 0], .spell [0, 0, 0, -1, -1, -1, -1, -1, -1, -1, 0, 1, 0, 0, 0, 0, 0, 0, 0, 0, 0, 0, -1, -1, 1, -1, 0]],
    .fdot3 { two with f := 1, b := -111, a := -117, d := -118, c := -102, et := .tf27 }),
  ([.spell [0, 0, -1, -1, -1, 0, 1, -1, -1, -1, 0, 0, -1, -1, -1, 0, -1, 0, 0, 0, 0, -1, 0, 1, -1, 0, -1]],
    .fmin { one with b := -116, a := -117, d := -118, et := .tf27 }),
  ([.spell [0, 0, -1, -1, -1, 0, 1, -1, -1, -1, 0, 0, -1, -1, -1, 0, -1, 0, 0, 0, 0, -1, 0, 1, -1, 1, -1]],
    .fmax { one with b := -116, a := -117, d := -118, et := .tf27 }),
  ([.spell [0, 0, 0, 0, 0, 0, 0, -1, -1, -1, 0, 0, -1, -1, -1, 0, -1, 0, 0, 0, 0, -1, 0, 1, 0, -1, -1]],
    .fabs { one with a := -117, d := -118, et := .tf27 }),
  ([.spell [0, -1, -1, -1, -1, 0, 1, -1, -1, -1, 0, 0, 0, 0, 0, 1, 0, 0, 0, 0, 0, -1, 0, 1, 0, 0, -1]],
    .fcmp { one with f := -1, b := -116, a := -117, d := 3, et := .tf27 }),
  ([.spell [0, 0, 0, 0, 0, 0, 0, -1, -1, -1, 0, 0, -1, -1, -1, 0, -1, 0, 0, 0, 0, -1, 0, 1, 0, 1, 0], .spell [0, 0, 0, -1, -1, -1, -1, -1, -1, -1, 1, -1, 0, 0, 0, 0, 0, 0, 0, 0, 0, 0, 0, 0, 0, 0, 0]],
    .fclass { two with a := -117, d := -118, et := .tf9 }),
  ([.spell [0, 1, 0, 0, 0, 0, 0, -1, -1, -1, 0, 0, -1, -1, -1, 0, -1, 0, 0, 0, 0, -1, 0, 1, 1, -1, 0], .spell [0, 0, 0, -1, -1, -1, -1, -1, -1, -1, 0, 1, 0, 0, 0, 0, 0, 0, 0, 0, 0, 0, -1, -1, -1, -1, -1]],
    .fscl { two with f := 1, a := -117, d := -118, c := -121, et := .tf27 }),
  ([.spell [0, 1, 0, 0, 0, 0, 0, -1, -1, -1, 0, 0, -1, -1, -1, 0, -1, 0, 0, 0, 0, -1, 0, 1, 1, 0, 0], .spell [0, 0, 0, -1, -1, -1, -1, -1, -1, -1, 0, 1, 0, 0, 0, 0, 0, 0, 0, 0, 0, 0, 0, 0, 0, 0, 0]],
    .fxp { two with f := 1, a := -117, d := -118, et := .tf27 }),
  ([.spell [0, -1, 0, 0, 0, 0, 0, -1, -1, -1, 0, 0, -1, -1, -1, 0, -1, 0, 0, 0, 0, -1, 0, 1, 1, 1, 0], .spell [0, 0, 0, -1, -1, -1, -1, -1, -1, -1, 0, 1, 0, 0, 0, 0, 0, 0, 0, 0, 0, 0, 0, 0, 0, 0, 0]],
    .frnd { two with f := -1, a := -117, d := -118, et := .tf27 })] = true := by decide +kernel

/-- Float instructions and special functions; a one-word form is tf27 (R162). -/
theorem test_decode_float_2 : decodeAll [
  ([.spell [0, 0, 0, 0, 0, 0, 0, -1, -1, -1, 0, 0, -1, -1, -1, 0, -1, 0, 0, 0, 0, -1, 1, -1, -1, -1, -1]],
    .rcp { one with a := -117, d := -118, et := .tf27 }),
  ([.spell [0, 0, 0, 0, 0, 0, 0, -1, -1, -1, 0, 0, -1, -1, -1, 0, -1, 0, 0, 0, 0, -1, 1, -1, -1, 0, -1]],
    .rsq { one with a := -117, d := -118, et := .tf27 }),
  ([.spell [0, 0, 0, 0, 0, 0, 0, -1, -1, -1, 0, 0, -1, -1, -1, 0, -1, 0, 0, 0, 0, -1, 1, -1, -1, 1, 0], .spell [0, 0, 0, -1, -1, 1, 1, -1, -1, -1, 0, 1, 0, 0, 0, 0, 0, 0, 0, 0, 0, 0, 0, 0, 0, 0, 0]],
    .sqrt { two with a := -117, d := -118, la := 8, et := .tf27 }),
  ([.spell [0, 0, 0, 0, 0, 0, 0, -1, -1, -1, 0, 0, -1, -1, -1, 0, -1, 0, 0, 0, 0, -1, 1, -1, 0, -1, -1]],
    .exp { one with a := -117, d := -118, et := .tf27 }),
  ([.spell [0, 0, 0, 0, 0, 0, 0, -1, -1, -1, 0, 0, -1, -1, -1, 0, -1, 0, 0, 0, 0, -1, 1, -1, 0, 0, -1]],
    .log { one with a := -117, d := -118, et := .tf27 }),
  ([.spell [0, 0, 0, 0, 0, 0, 0, -1, -1, -1, 0, 0, -1, -1, -1, 0, -1, 0, 0, 0, 0, -1, 1, -1, 0, 1, -1]],
    .sin { one with a := -117, d := -118, et := .tf27 }),
  ([.spell [0, 0, 0, 0, 0, 0, 0, -1, -1, -1, 0, 0, -1, -1, -1, 0, -1, 0, 0, 0, 0, -1, 1, -1, 1, -1, -1]],
    .cos { one with a := -117, d := -118, et := .tf27 }),
  ([.spell [0, 0, 0, 0, 0, 0, 0, -1, -1, -1, 0, 0, -1, -1, -1, 0, -1, 0, 0, 0, 0, -1, 1, -1, 1, 0, -1]],
    .tanh { one with a := -117, d := -118, et := .tf27 }),
  ([.spell [0, 0, 0, 0, 0, 0, 0, -1, -1, -1, 0, 0, -1, -1, -1, 0, -1, 0, 0, 0, 0, -1, 1, -1, 1, 1, -1]],
    .sigm { one with a := -117, d := -118, et := .tf27 })] = true := by decide +kernel

/-- Conversions and quantisation (R263-R272). -/
theorem test_decode_conversion : decodeAll [
  ([.spell [0, 0, 0, 0, 0, 0, 0, -1, -1, -1, 0, 0, -1, -1, -1, 0, -1, 0, 0, 0, 0, -1, 1, 0, -1, -1, 0], .spell [0, 1, 0, -1, -1, -1, -1, -1, -1, -1, 0, 0, 0, 0, 0, 0, 0, 0, 0, 0, 0, 0, 0, 0, 0, 0, 0]],
    .cvt { two with a := -117, d := -118, x := 1 }),
  ([.spell [0, 0, 0, 0, 0, 0, 0, -1, -1, -1, 0, 0, -1, -1, -1, 0, -1, 0, 0, 0, 0, -1, 1, 0, -1, 0, 0], .spell [0, 1, 0, -1, -1, -1, -1, -1, -1, -1, 0, 1, 0, 0, 0, 0, 0, 0, 0, 0, 0, 0, 0, 0, 0, 0, 0]],
    .cvtb { two with a := -117, d := -118, x := 1, et := .tf27 }),
  ([.spell [0, 0, 0, 0, 0, 0, 0, -1, -1, -1, 0, 0, -1, -1, -1, 0, -1, 0, 0, 0, 0, -1, 1, 0, -1, 1, 0], .spell [-1, 1, 0, -1, -1, -1, -1, -1, -1, -1, 0, 1, 0, 0, 0, 0, 0, 0, 0, 0, 0, 0, 0, 0, 0, 0, 0]],
    .cvtf { two with a := -117, d := -118, x := -2, et := .tf27 }),
  ([.spell [0, 0, -1, -1, -1, 0, 1, -1, -1, -1, 0, 0, -1, -1, -1, 0, -1, 0, 0, 0, 0, -1, 1, 0, 0, -1, 0], .spell [0, 0, 0, -1, -1, -1, -1, -1, -1, -1, 0, -1, 0, 0, 0, 0, 0, 0, 0, 0, 0, 0, 0, 0, 0, 0, 0]],
    .quant { two with b := -116, a := -117, d := -118, et := .t9 }),
  ([.spell [0, 1, 0, 0, 0, 0, 0, -1, -1, -1, 0, 0, -1, -1, -1, 0, -1, 0, 0, 0, 0, -1, 1, 0, 0, 0, 0], .spell [0, 1, 0, -1, -1, -1, -1, -1, -1, -1, 0, -1, 0, 0, 0, 0, 0, 0, 0, 0, 0, 0, 0, 0, -1, 1, 1]],
    .dquant { two with f := 1, a := -117, d := -118, x := 1, c := -5, et := .t9 }),
  ([.spell [0, 0, -1, -1, -1, 0, 1, -1, -1, -1, 0, 0, -1, -1, -1, 0, -1, 0, 0, 0, 0, -1, 1, 0, 0, 1, 0], .spell [0, 0, 0, -1, -1, -1, -1, -1, -1, -1, 0, 0, 0, 0, 0, 0, 0, 0, 0, 0, 0, 0, 0, 0, 0, 0, 0]],
    .draw { two with b := -116, a := -117, d := -118 })] = true := by decide +kernel

/-- Loads, stores and lines (R183-R193); SP and IX share F. -/
theorem test_decode_memory : decodeAll [
  ([.spell [0, 0, 0, 0, 0, 0, 0, -1, -1, -1, 0, 0, -1, -1, -1, 0, -1, 0, 0, 0, 0, -1, 1, 1, 1, 1, -1]],
    .ld { one with a := -117, d := -118 }),
  ([.spell [-1, 1, -1, -1, -1, 0, 1, -1, -1, -1, 0, 0, -1, -1, -1, 0, -1, 0, 0, 0, 0, 0, -1, -1, -1, -1, 0], .spell [0, 1, 0, -1, -1, -1, -1, -1, -1, -1, 0, 0, 0, 0, 0, 0, 0, 0, 0, 0, 0, 0, -1, -1, -1, -1, -1]],
    .st { two with f := -2, b := -116, a := -117, d := -118, x := 1, c := -121 }),
  ([.spell [1, 0, 0, 0, 0, 0, 0, -1, -1, -1, 0, 0, -1, -1, -1, 0, -1, 0, 0, 0, 0, 0, -1, -1, -1, 0, 0], .spell [0, 0, 0, -1, -1, -1, 0, -1, -1, -1, 0, 0, 0, 0, 0, 0, 0, 0, 0, 0, 0, 0, 0, 1, 0, 0, 0]],
    .ldx { two with f := 3, a := -117, d := -118, c := 27, la := 1 }),
  ([.spell [-1, 0, 0, 0, 0, 0, 0, -1, -1, -1, 0, 0, -1, -1, -1, 0, -1, 0, 0, 0, 0, 0, -1, -1, -1, 1, 0], .spell [0, 0, 0, -1, -1, -1, -1, -1, -1, -1, 0, 0, 0, 0, 0, 0, 0, 0, 0, 0, 0, 0, 0, 0, 0, 0, 0]],
    .stx { two with f := -3, a := -117, d := -118 }),
  ([.spell [0, -1, -1, -1, -1, 0, 1, -1, -1, -1, 0, 0, 0, 0, 0, 0, 0, 0, 0, 0, 0, 0, -1, -1, 0, -1, 0], .spell [0, 0, 0, -1, -1, -1, -1, -1, -1, -1, 0, 0, 0, 0, 0, 0, 0, 0, 0, 0, 0, 0, 0, 0, 0, 0, 0]],
    .pref { two with f := -1, b := -116, a := -117 }),
  ([.spell [0, 0, 0, 0, 0, 0, 0, -1, -1, -1, 0, 0, 0, 0, 0, 0, 0, 0, 0, 0, 0, 0, -1, -1, 0, -1, 0], .spell [0, 1, 0, -1, -1, -1, -1, -1, -1, -1, 0, 0, 0, 0, 0, 0, 0, 0, 0, 0, 0, 0, 0, 0, 0, 0, 0]],
    .prefHome { two with a := -117, x := 1 }),
  ([.spell [0, 0, 0, 0, 0, 0, 0, -1, -1, -1, 0, 0, 0, 0, 0, 0, 0, 0, 0, 0, 0, 0, -1, -1, 0, 0, 0], .spell [0, 0, 0, -1, -1, -1, -1, -1, -1, -1, 0, 0, 0, 0, 0, 0, 0, 0, 0, 0, 0, 0, 0, 0, 0, 0, 0]],
    .clineZero { two with a := -117 }),
  ([.spell [0, 1, -1, -1, -1, 0, 1, -1, -1, -1, 0, 0, 0, 0, 0, 0, 0, 0, 0, 0, 0, 0, -1, -1, 0, 0, 0], .spell [0, 1, 0, -1, -1, -1, -1, -1, -1, -1, 0, 0, 0, 0, 0, 0, 0, 0, 0, 0, 0, 0, 0, 0, 0, 0, 0]],
    .clineEvict { two with f := 1, b := -116, a := -117, x := 1 })] = true := by decide +kernel

/-- Copy engines, tellers, tickets and collectives (R194-R210). -/
theorem test_decode_transfer_1 : decodeAll [
  ([.spell [0, 0, 0, 0, 0, 0, 0, -1, -1, -1, 0, 0, -1, -1, -1, 0, -1, 0, 0, 0, 0, 0, -1, -1, 0, 1, 0], .spell [0, 0, 0, -1, -1, -1, -1, -1, -1, -1, 0, 0, 0, 0, 0, 0, 0, 0, 0, 0, 0, 0, 0, 0, -1, 1, 1]],
    .copyIn { two with a := -117, d := -118, c := -5 }),
  ([.spell [0, 0, 0, 0, 0, 0, 0, -1, -1, -1, 0, 0, -1, -1, -1, 0, -1, 0, 0, 0, 0, 0, -1, -1, 1, -1, 0], .spell [0, 0, 0, -1, -1, -1, -1, -1, -1, -1, 0, 0, 0, 0, 0, 0, 0, 0, 0, 0, 0, 0, 0, 0, -1, 1, 1]],
    .copyOut { two with a := -117, d := -118, c := -5 }),
  ([.spell [0, 0, 0, 0, 0, 0, 0, -1, -1, -1, 0, 0, -1, -1, -1, 0, -1, 0, 0, 0, 0, 0, -1, -1, 1, 0, 0], .spell [0, 0, 0, -1, -1, -1, -1, -1, -1, -1, 0, 0, 0, 0, 0, 0, 0, 0, 0, 0, 0, 0, 0, 0, -1, 1, 1]],
    .copyBin { two with a := -117, d := -118, c := -5 }),
  ([.spell [0, 0, 0, 0, 0, 0, 0, -1, -1, -1, 0, 0, -1, -1, -1, 0, -1, 0, 0, 0, 0, 0, -1, -1, 1, 1, 0], .spell [0, 0, 0, -1, -1, -1, -1, -1, -1, -1, 0, 0, 0, 0, 0, 0, 0, 0, 0, 0, 0, 0, 0, 0, -1, 1, 1]],
    .copyPeer { two with a := -117, d := -118, c := -5 }),
  ([.spell [0, 0, 0, 0, 0, 0, 0, -1, -1, -1, 0, 0, -1, -1, -1, 0, -1, 0, 0, 0, 0, 0, -1, 0, -1, -1, 0], .spell [0, 0, 0, -1, -1, -1, -1, -1, -1, -1, 0, 0, 0, 0, 0, 0, 0, 0, 0, 0, 0, 0, 0, 0, -1, 1, 1]],
    .copyCab { two with a := -117, d := -118, c := -5 }),
  ([.spell [0, 1, -1, -1, -1, 0, 1, -1, -1, -1, 0, 0, -1, -1, -1, 0, -1, 0, 0, 0, 0, 0, -1, 0, -1, 0, 0], .spell [0, 0, 0, -1, -1, -1, -1, -1, -1, -1, 0, 0, 0, 0, 0, 0, 0, 0, 0, 0, 0, 0, 0, 0, 0, 0, 0]],
    .xfNeg { two with f := 1, b := -116, a := -117, d := -118 }),
  ([.spell [1, -1, -1, -1, -1, 0, 1, -1, -1, -1, 0, 0, -1, -1, -1, 0, -1, 0, 0, 0, 0, 0, -1, 0, -1, 0, 0], .spell [0, 0, 1, -1, -1, -1, -1, -1, -1, -1, 0, 0, 0, 0, 0, 0, 0, 0, 0, 0, 0, 0, 0, -1, 0, 0, 1]],
    .xfShift { two with f := 2, b := -116, a := -117, d := -118, c := -26, sat := true }),
  ([.spell [1, 0, -1, -1, -1, 0, 1, -1, -1, -1, 0, 0, -1, -1, -1, 0, -1, 0, 0, 0, 0, 0, -1, 0, -1, 0, 0], .spell [0, 1, 0, -1, -1, -1, -1, -1, -1, -1, 0, 0, 0, 0, 0, 0, 0, 0, 0, 0, 0, 0, 0, 0, 0, 0, 0]],
    .xfZero { two with f := 3, b := -116, a := -117, d := -118, x := 1 }),
  ([.spell [1, 1, -1, -1, -1, 0, 1, -1, -1, -1, 0, 0, -1, -1, -1, 0, -1, 0, 0, 0, 0, 0, -1, 0, -1, 0, 0], .spell [0, 0, 0, -1, -1, -1, -1, -1, -1, -1, 1, -1, 0, 0, 0, 0, 0, 0, 0, 0, 0, 0, -1, -1, 0, -1, -1]],
    .xfFill { two with f := 4, b := -116, a := -117, d := -118, c := -112, et := .tf9 }),
  ([.spell [0, -1, -1, -1, -1, 0, 1, -1, -1, -1, 0, 0, -1, -1, -1, 0, -1, 0, 0, 0, 0, 0, -1, 0, -1, 0, 0], .spell [0, 0, 0, -1, -1, -1, -1, -1, -1, -1, 0, 0, 0, 0, 0, 0, 0, 0, 0, 0, 0, 0, -1, -1, 0, -1, -1]],
    .xfClamp { two with f := -1, b := -116, a := -117, d := -118, c := -112 }),
  ([.spell [-1, 1, -1, -1, -1, 0, 1, -1, -1, -1, 0, 0, -1, -1, -1, 0, -1, 0, 0, 0, 0, 0, -1, 0, -1, 0, 0], .spell [0, 0, 1, -1, -1, -1, -1, -1, -1, -1, 0, 0, 0, 0, 0, 0, 0, 0, 0, 0, 0, 0, 0, 0, 0, 0, 0]],
    .xfCvt { two with f := -2, b := -116, a := -117, d := -118, sat := true }),
  ([.spell [-1, 0, -1, -1, -1, 0, 1, -1, -1, -1, 0, 0, -1, -1, -1, 0, -1, 0, 0, 0, 0, 0, -1, 0, -1, 0, 0], .spell [0, 0, 0, -1, -1, -1, -1, -1, -1, -1, 0, 0, 0, 0, 0, 0, 0, 0, 0, 0, 0, 0, 0, 0, 0, 1, 1]],
    .xfRq { two with f := -3, b := -116, a := -117, d := -118, c := 4 }),
  ([.spell [0, 1, -1, -1, -1, 0, 1, -1, -1, -1, 0, 0, 0, 0, 0, 0, 0, 0, 0, 0, 0, 0, -1, 0, -1, 0, 0], .spell [1, 0, 0, -1, -1, -1, -1, -1, -1, -1, 0, 0, 0, 0, 0, 0, 0, 0, 0, 0, 0, 0, 0, 0, 0, 0, 0]],
    .xfAcc { two with f := 1, b := -116, a := -117, x := 3 }),
  ([.spell [1, -1, -1, -1, -1, 0, 1, -1, -1, -1, 0, 0, -1, -1, -1, 0, -1, 0, 0, 0, 0, 0, -1, 0, -1, 0, 0], .spell [1, 0, 0, -1, -1, 1, -1, -1, -1, -1, 0, 0, 0, 0, 0, 0, 0, 0, 0, 0, 0, 0, 0, 0, 0, 0, 0]],
    .xfAdd { two with f := 2, b := -116, a := -117, d := -118, x := 3, la := 6 })] = true := by decide +kernel

/-- Copy engines, tellers, tickets and collectives (R194-R210). -/
theorem test_decode_transfer_2 : decodeAll [
  ([.spell [1, 0, -1, -1, -1, 0, 1, -1, -1, -1, 0, 0, -1, -1, -1, 0, -1, 0, 0, 0, 0, 0, -1, 0, -1, 0, 0], .spell [1, 1, 0, -1, -1, -1, -1, -1, -1, -1, 0, 0, 0, 0, 0, 0, 0, 0, 0, 0, 0, 0, 0, 0, 0, 0, 0]],
    .xfMin { two with f := 3, b := -116, a := -117, d := -118, x := 4 }),
  ([.spell [1, 1, -1, -1, -1, 0, 1, -1, -1, -1, 0, 0, -1, -1, -1, 0, -1, 0, 0, 0, 0, 0, -1, 0, -1, 0, 0], .spell [1, 0, 0, -1, -1, -1, -1, -1, -1, -1, 0, 0, 0, 0, 0, 0, 0, 0, 0, 0, 0, 0, 0, 0, 0, 0, 0]],
    .xfMax { two with f := 4, b := -116, a := -117, d := -118, x := 3 }),
  ([.spell [0, -1, -1, -1, -1, 0, 1, -1, -1, -1, 0, 0, -1, -1, -1, 0, -1, 0, 0, 0, 0, 0, -1, 0, -1, 0, 0], .spell [1, 0, 0, -1, -1, -1, -1, -1, -1, -1, 0, 0, 0, 0, 0, 0, 0, 0, 0, 0, 0, 0, 0, 0, 0, 0, 0]],
    .xfXchg { two with f := -1, b := -116, a := -117, d := -118, x := 3 }),
  ([.spell [-1, 1, -1, -1, -1, 0, 1, -1, -1, -1, 0, 0, -1, -1, -1, 0, -1, 0, 0, 0, 0, 0, -1, 0, -1, 0, 0], .spell [1, 0, 0, -1, -1, -1, -1, -1, -1, -1, 0, 0, 0, 0, 0, 0, 0, 0, 0, 0, 0, 0, -1, -1, 0, -1, -1]],
    .xfCas { two with f := -2, b := -116, a := -117, d := -118, x := 3, c := -112 }),
  ([.spell [-1, 0, -1, -1, -1, 0, 1, -1, -1, -1, 0, 0, -1, -1, -1, 0, -1, 0, 0, 0, 0, 0, -1, 0, -1, 0, 0], .spell [1, 0, 0, -1, -1, -1, -1, -1, -1, -1, 0, 0, 0, 0, 0, 0, 0, 0, 0, 0, 0, 0, 0, 0, 0, 0, 0]],
    .xfTsum { two with f := -3, b := -116, a := -117, d := -118, x := 3 }),
  ([.spell [0, 1, 0, 0, 0, 0, 0, -1, -1, 0, -1, -1, -1, -1, -1, 0, -1, 0, 0, 0, 0, 0, -1, 0, -1, 1, 0], .spell [0, 0, 0, -1, -1, -1, -1, -1, -1, -1, 0, 0, 0, 0, 0, 0, 0, 0, 0, 0, 0, 0, 0, 0, 0, 0, 0]],
    .wait { two with f := 1, a := -112, d := -118 }),
  ([.spell [0, 0, 0, 0, 0, 0, 0, -1, -1, -1, 0, 0, 0, 0, 0, 0, 1, 0, 0, 0, 0, 0, -1, 0, 0, -1, 0], .spell [0, 0, 0, -1, -1, -1, -1, -1, -1, -1, 0, 0, 0, 0, 0, 0, 0, 0, 0, 0, 0, 0, 0, 0, 0, 0, 0]],
    .tkt { two with a := -117, d := 1 }),
  ([.spell [0, 1, 0, 0, 0, 0, 0, -1, -1, -1, 0, 0, -1, -1, -1, 0, -1, 0, 0, 0, 0, 0, -1, 0, 0, 0, 0], .spell [0, 0, 0, -1, -1, -1, -1, -1, -1, -1, 0, 0, 0, 0, 0, 0, 0, 0, 0, 0, 0, 0, 0, 0, 1, -1, 1]],
    .collAr { two with f := 1, a := -117, d := -118, c := 7 }),
  ([.spell [1, -1, 0, 0, 0, 0, 0, -1, -1, -1, 0, 0, -1, -1, -1, 0, -1, 0, 0, 0, 0, 0, -1, 0, 0, 0, 0], .spell [0, 0, 0, -1, -1, -1, -1, -1, -1, -1, 0, 0, 0, 0, 0, 0, 0, 0, 0, 0, 0, 0, 0, 0, 1, -1, 1]],
    .collRs { two with f := 2, a := -117, d := -118, c := 7 }),
  ([.spell [1, 0, 0, 0, 0, 0, 0, -1, -1, -1, 0, 0, -1, -1, -1, 0, -1, 0, 0, 0, 0, 0, -1, 0, 0, 0, 0], .spell [0, 0, 0, -1, -1, -1, -1, -1, -1, -1, 0, 0, 0, 0, 0, 0, 0, 0, 0, 0, 0, 0, 0, 0, 1, -1, 1]],
    .collAg { two with f := 3, a := -117, d := -118, c := 7 }),
  ([.spell [1, 1, 0, 0, 0, 0, 0, -1, -1, -1, 0, 0, -1, -1, -1, 0, -1, 0, 0, 0, 0, 0, -1, 0, 0, 0, 0], .spell [0, 0, 0, -1, -1, -1, -1, -1, -1, -1, 0, 0, 0, 0, 0, 0, 0, 0, 0, 0, 0, 0, 0, 0, 1, -1, 1]],
    .collBc { two with f := 4, a := -117, d := -118, c := 7 }),
  ([.spell [0, -1, 0, 0, 0, 0, 0, -1, -1, -1, 0, 0, -1, -1, -1, 0, -1, 0, 0, 0, 0, 0, -1, 0, 0, 0, 0], .spell [0, 0, 0, -1, -1, -1, -1, -1, -1, -1, 0, 0, 0, 0, 0, 0, 0, 0, 0, 0, 0, 0, 0, 0, 1, -1, 1]],
    .collSend { two with f := -1, a := -117, d := -118, c := 7 }),
  ([.spell [-1, 1, 0, 0, 0, 0, 0, -1, -1, -1, 0, 0, -1, -1, -1, 0, -1, 0, 0, 0, 0, 0, -1, 0, 0, 0, 0], .spell [0, 0, 0, -1, -1, -1, -1, -1, -1, -1, 0, 0, 0, 0, 0, 0, 0, 0, 0, 0, 0, 0, 0, 0, 1, -1, 1]],
    .collRecv { two with f := -2, a := -117, d := -118, c := 7 })] = true := by decide +kernel

/-- Control transfers and threads (R236-R248). -/
theorem test_decode_control : decodeAll [
  ([.spell [0, 0, 0, 0, 0, 0, 0, 0, 0, 0, 0, 0, 0, 0, 0, 0, 0, 1, 0, 1, 1, 0, 0, 0, 1, -1, 0], .spell [0, 0, 0, -1, -1, -1, -1, -1, -1, -1, 0, 0, 0, 0, 0, 0, 0, 0, 0, 0, 0, 0, -1, -1, -1, -1, -1]],
    .br { two with c := -121, gc := .isNeg, gp := 8 }),
  ([.spell [0, 0, 0, 0, 0, 0, 0, 0, 0, 0, 0, 0, 0, 0, 0, 0, 1, 0, 0, 0, 0, 0, 0, 0, 1, 1, 1], .spell [1, 1, 0, -1, -1, -1, -1, -1, -1, -1, 0, 0, 0, 0, 0, 0, 0, 0, 0, 0, 0, 0, 0, 1, 1, 0, 1], .spell [0, 0, 0, 0, 0, 0, 0, 0, 0, 0, 0, 0, 0, 0, 0, 0, 0, 0, 0, 0, 0, 0, 0, 0, 1, -1, -1]],
    .brm { three with d := 1, x := 4, c := 37, w3 := .ofInt (5) }),
  ([.spell [0, 0, 0, 0, 0, 0, 0, -1, -1, -1, 0, 0, 0, 0, 0, 0, 0, 0, 0, 0, 0, 0, 0, 1, -1, -1, 0], .spell [0, 0, 0, -1, -1, -1, -1, -1, -1, -1, 0, 0, 0, 0, 0, 0, 0, 0, 0, 0, 0, 0, 0, 0, 0, 1, 0]],
    .jmp { two with a := -117, c := 3 }),
  ([.spell [0, 0, 0, 0, 0, 0, 0, -1, -1, -1, 0, 0, 0, 0, 0, 0, 0, 0, 0, 0, 0, 0, 0, 1, -1, 0, -1]],
    .jmpr { one with a := -117 }),
  ([.spell [-1, 0, 0, 0, 0, 0, 0, 0, 0, 0, 0, 0, -1, -1, -1, 0, -1, 0, 0, 0, 0, 0, 0, 1, -1, 1, 0], .spell [0, 0, 0, -1, -1, -1, -1, -1, -1, -1, 0, 0, 0, 0, 0, 0, 0, 0, 0, 0, 0, 0, 0, 1, -1, 1, -1]],
    .call { two with f := -3, d := -118, c := 20 }),
  ([.spell [0, 0, 0, 0, 0, 0, 0, -1, -1, -1, 0, 0, -1, -1, -1, 0, -1, 0, 0, 0, 0, 0, 0, 1, 0, -1, -1]],
    .callr { one with a := -117, d := -118 }),
  ([.spell [0, 0, 0, 0, 0, 0, 0, -1, -1, -1, 0, 0, 0, 0, 0, 0, 0, 0, 0, 0, 0, 0, 0, 1, 0, 0, -1]],
    .ret { one with a := -117 }),
  ([.spell [0, 0, 0, 0, 0, 0, 0, 0, 0, 0, 0, 0, 0, 0, 0, 0, 0, 0, 0, 0, 0, 0, 0, 1, 0, 1, -1]],
    .exit one),
  ([.spell [0, -1, 0, 0, 0, 0, 0, -1, -1, -1, 0, 0, 0, 0, 0, 1, 1, 0, 0, 0, 0, 0, 0, 1, 1, -1, 0], .spell [0, 0, 0, -1, -1, -1, -1, -1, -1, -1, 0, 0, 0, 0, 0, 0, 0, 0, 0, 0, 0, 0, 0, 0, 0, 0, 0]],
    .part { two with f := -1, a := -117, d := 4 }),
  ([.spell [0, 0, 0, 0, 0, 0, 0, 0, 0, 0, 0, 0, 0, 0, 0, 0, 0, 0, 0, 0, 0, 0, 0, 1, 1, 0, 0], .spell [0, 0, 0, 1, -1, -1, -1, -1, -1, -1, 0, 0, 0, 0, 0, 0, 0, 0, 0, 0, 0, 0, 0, 0, 0, 0, 0]],
    .gwait { two with gr := 6 }),
  ([.spell [0, 0, -1, -1, -1, 0, 1, -1, -1, -1, 0, 0, -1, -1, -1, 0, -1, 0, 0, 0, 0, 0, 0, 1, 1, 1, 0], .spell [0, 0, 0, -1, -1, -1, -1, -1, -1, -1, 0, 0, 0, 0, 0, 0, 0, 0, 0, 0, 0, 0, -1, -1, -1, 0, 1]],
    .reorder { two with b := -116, a := -117, d := -118, c := -116 }),
  ([.spell [0, 0, 0, 0, 0, 0, 0, 0, 0, 0, 0, 0, 0, 0, 0, 0, 0, 0, 0, 0, 0, 0, 1, -1, -1, -1, -1]],
    .yield one),
  ([.spell [0, 0, 0, 0, 0, 0, 0, 0, 0, 0, 0, 0, -1, -1, -1, 0, -1, 0, 0, 0, 0, 0, 1, -1, -1, 1, 0], .spell [0, 0, 0, -1, -1, -1, -1, -1, -1, -1, 0, 0, 0, 0, 0, 0, 0, 0, 0, 0, 0, 0, 0, 0, 1, -1, -1]],
    .feat { two with d := -118, c := 5 }),
  ([.spell [0, 0, 0, 0, 0, 0, 0, 0, 0, 0, 0, 0, -1, -1, -1, 0, -1, 0, 0, 0, 0, 0, 1, -1, 0, -1, -1]],
    .stamp { one with d := -118 })] = true := by decide +kernel

/-- Synchronising instructions (R318-R334). -/
theorem test_decode_synchronising : decodeAll [
  ([.spell [0, 1, 0, 0, 0, 0, 0, -1, -1, -1, 0, 0, -1, -1, -1, 0, -1, 0, 0, 0, 0, 0, 1, 0, 1, 1, 0], .spell [0, 0, 0, -1, -1, -1, -1, -1, -1, -1, 0, 0, 0, 0, 0, 0, 0, 0, 0, 0, 0, 0, 0, 0, 0, 0, 0]],
    .lds { two with f := 1, a := -117, d := -118 }),
  ([.spell [0, -1, -1, -1, -1, 0, 1, -1, -1, -1, 0, 0, 0, 0, 0, 0, 0, 0, 0, 0, 0, 0, 1, 1, -1, 1, 0], .spell [0, 1, 0, -1, -1, -1, -1, -1, -1, -1, 0, 0, 0, 0, 0, 0, 0, 0, 0, 0, 0, 0, 0, 0, 0, 1, 1]],
    .red { two with f := -1, b := -116, a := -117, x := 1, c := 4 }),
  ([.spell [0, 1, -1, -1, -1, 0, 1, -1, -1, -1, 0, 0, 0, 0, 0, 0, 0, 0, 0, 0, 0, 0, 1, 1, 0, -1, 0], .spell [0, 0, 0, -1, -1, -1, -1, -1, -1, -1, 0, 0, 0, 0, 0, 0, 0, 0, 0, 0, 0, 0, 0, 0, 0, 0, 0]],
    .lease { two with f := 1, b := -116, a := -117 }),
  ([.spell [0, -1, 0, 0, 0, 0, 0, -1, -1, -1, 0, 0, 0, 0, 0, 1, -1, 0, 0, 0, 0, 0, 1, 1, 0, 0, 0], .spell [0, -1, 0, -1, -1, -1, -1, -1, -1, -1, 0, 0, 0, 0, 0, 0, 0, 0, 0, 0, 0, 0, 0, 0, 0, 0, 0]],
    .unlease { two with f := -1, a := -117, d := 2, x := -1 }),
  ([.spell [1, -1, 0, 0, 0, 0, 0, 0, 0, 0, 0, 0, 0, 0, 0, 0, 0, 0, 0, 0, 0, 0, 1, 1, 1, -1, 0], .spell [-1, 1, 0, -1, -1, -1, -1, -1, -1, -1, 0, 0, 0, 0, 0, 0, 0, 0, 0, 0, 0, 0, 0, 0, 0, 0, 0]],
    .fence { two with f := 2, x := -2 }),
  ([.spell [0, 0, 0, 0, 0, 0, 0, 0, 0, 0, 0, 0, 0, 0, 0, 0, 0, 0, 0, 0, 0, 0, 1, 1, 1, 0, 0], .spell [0, 0, 0, -1, -1, -1, -1, -1, -1, -1, 0, 0, 0, 0, 0, 0, 0, 0, 0, 0, 0, 0, 0, 0, 1, 0, -1]],
    .bar { two with c := 8 }),
  ([.spell [0, 0, 0, 0, 0, 0, 0, 0, 0, 0, 0, 0, 0, 0, 0, 0, 0, 0, 0, 0, 0, 0, 1, 1, 1, 1, 0], .spell [0, 0, 0, -1, -1, -1, -1, -1, -1, -1, 0, 0, 0, 0, 0, 0, 0, 0, 0, 0, 0, 0, 0, 0, 0, 0, 0]],
    .cbar two)] = true := by decide +kernel

/-- Matrix instructions (R289-R297). -/
theorem test_decode_matrix : decodeAll [
  ([.spell [0, 0, 0, 0, 0, 0, 0, 0, 0, 0, 0, 0, -1, -1, -1, 0, -1, 0, 0, 0, 0, 1, -1, 0, 1, 0, 0], .spell [0, 0, 0, -1, -1, -1, -1, -1, -1, -1, 0, 0, 0, 0, 0, 0, 0, 0, 0, 0, 0, 0, 0, 0, 0, 1, -1]],
    .mxZero { two with d := -118, c := 2 }),
  ([.spell [0, 0, -1, -1, -1, 0, 1, -1, -1, -1, 0, 0, -1, -1, -1, 0, -1, 0, 0, 0, 0, 1, -1, 0, 1, 1, 0], .spell [0, 1, 0, -1, -1, -1, -1, -1, -1, -1, 0, 0, 0, 0, 0, 0, 0, 0, 0, 0, 0, 0, 0, 0, 0, 0, 1]],
    .mxLoadc { two with b := -116, a := -117, d := -118, x := 1, c := 1 }),
  ([.spell [0, 0, 0, 0, 0, 0, 0, -1, -1, -1, 0, 0, -1, -1, -1, 0, -1, 0, 0, 0, 0, 1, -1, 1, -1, -1, 0], .spell [0, 0, 0, -1, -1, -1, -1, -1, -1, -1, 1, -1, 0, 0, 0, 0, 0, 0, 0, 0, 0, 0, 0, 0, 0, 0, 1]],
    .mxScale { two with a := -117, d := -118, c := 1, et := .tf9 }),
  ([.spell [0, 1, -1, -1, -1, 0, 1, -1, -1, -1, 0, 0, -1, -1, -1, 0, -1, 0, 0, 0, 0, 1, -1, 1, -1, 0, 0], .spell [0, 0, 1, -1, -1, -1, -1, -1, -1, -1, 0, 0, 0, 0, 0, 0, 0, 0, 0, 0, 0, 0, 0, 0, 0, 0, 0]],
    .mxDrain { two with f := 1, b := -116, a := -117, d := -118, sat := true }),
  ([.spell [-1, 0, 0, 0, 0, 0, 0, -1, -1, -1, 0, 0, -1, -1, -1, 0, -1, 0, 0, 0, 0, 1, -1, 1, -1, 1, 0], .spell [0, 0, 0, -1, -1, -1, -1, -1, -1, -1, 0, 0, 0, 0, 0, 0, 0, 0, 0, 0, 0, 0, 0, 0, 0, 1, 0]],
    .mxSpill { two with f := -3, a := -117, d := -118, c := 3 }),
  ([.spell [0, 0, 0, 0, 0, 0, 0, -1, -1, -1, 0, 0, -1, -1, -1, 0, -1, 0, 0, 0, 0, 1, -1, 1, 0, -1, 0], .spell [0, 0, 0, -1, -1, -1, -1, -1, -1, -1, 0, 0, 0, 0, 0, 0, 0, 0, 0, 0, 0, 0, 0, 0, 0, 1, 0]],
    .mxFill { two with a := -117, d := -118, c := 3 }),
  ([.spell [0, 1, 0, 0, 0, 0, 0, 0, 0, 0, 0, 0, -1, -1, -1, 0, -1, 0, 0, 0, 0, 1, -1, 1, 0, 0, 0], .spell [0, 0, 0, -1, -1, -1, -1, -1, -1, -1, 0, 0, 0, 0, 0, 0, 0, 0, 0, 0, 0, 0, 0, 0, 0, 0, 0]],
    .mxQry { two with f := 1, d := -118 })] = true := by decide +kernel

/-- System instructions (R376-R380). -/
theorem test_decode_system : decodeAll [
  ([.spell [0, 0, -1, -1, -1, 0, 1, -1, -1, -1, 0, 0, -1, -1, -1, 0, -1, 0, 0, 0, 0, 1, 0, -1, 0, 1, 0], .spell [0, 0, 0, -1, -1, -1, -1, -1, -1, -1, -1, 0, 0, 0, 0, 0, 0, 0, 0, 0, 0, 0, 0, 0, 0, 0, 0]],
    .tpcSet { two with b := -116, a := -117, d := -118, et := .st27 }),
  ([.spell [0, 1, -1, -1, -1, 0, 1, -1, -1, -1, 0, 0, -1, -1, -1, 0, -1, 0, 0, 0, 0, 1, 0, -1, 0, 1, 0], .spell [0, 0, 0, -1, -1, -1, -1, -1, -1, -1, -1, 0, 0, 0, 0, 0, 0, 0, 0, 0, 0, 0, 0, 0, 0, 0, 0]],
    .tpcAdv { two with f := 1, b := -116, a := -117, d := -118, et := .st27 }),
  ([.spell [0, -1, 0, 0, 0, 0, 0, -1, -1, -1, 0, 0, -1, -1, -1, 0, -1, 0, 0, 0, 0, 1, 0, -1, 0, 1, 0], .spell [0, 0, 0, -1, -1, -1, -1, -1, -1, -1, -1, 0, 0, 0, 0, 0, 0, 0, 0, 0, 0, 0, 0, 0, 0, 0, 0]],
    .tpcExit { two with f := -1, a := -117, d := -118, et := .st27 }),
  ([.spell [0, 0, 0, 0, 0, 0, 0, 0, 0, 0, 0, 0, -1, -1, -1, 0, -1, 0, 0, 0, 0, 1, 0, -1, 1, -1, 0], .spell [0, 0, 0, -1, -1, -1, -1, -1, -1, -1, -1, 0, 0, 0, 0, 0, 0, 0, 0, 0, 0, 0, 0, 0, 0, 0, 1]],
    .cwget { two with d := -118, c := 1, et := .st27 }),
  ([.spell [0, 0, 0, 0, 0, 0, 0, -1, -1, -1, 0, 0, 0, 0, 0, 0, 0, 0, 0, 0, 0, 1, 0, -1, 1, 0, 1], .spell [0, 0, 0, -1, -1, -1, -1, -1, -1, -1, -1, 0, 0, 0, 0, 0, 0, 0, 0, 0, 0, 0, 0, 0, 0, 0, 0], .spell [0, 0, 0, 0, 0, 0, 0, 0, 0, 0, 0, 0, 0, 0, 0, 0, 0, 0, 1, 0, 0, 0, 1, 0, 1, 0, 0]],
    .cwset { three with a := -117, et := .st27, w3 := .ofInt (6651) }),
  ([.spell [0, 0, 0, 0, 0, 0, 0, -1, -1, -1, 0, 0, 0, 0, 0, 0, 0, 0, 0, 0, 0, 1, 0, -1, 1, 1, 0], .spell [0, 0, 0, -1, -1, -1, -1, -1, -1, -1, -1, 0, 0, 0, 0, 0, 0, 0, 0, 0, 0, 0, 0, 0, 0, 0, 0]],
    .tlbfPage { two with a := -117, et := .st27 }),
  ([.spell [0, 1, 0, 0, 0, 0, 0, 0, 0, 0, 0, 0, 0, 0, 0, 0, 0, 0, 0, 0, 0, 1, 0, -1, 1, 1, 0], .spell [0, 0, 0, -1, -1, -1, -1, -1, -1, -1, -1, 0, 0, 0, 0, 0, 0, 0, 0, 0, 0, 0, 0, 0, 0, 0, 0]],
    .tlbfAs { two with f := 1, et := .st27 }),
  ([.spell [0, -1, 0, 0, 0, 0, 0, 0, 0, 0, 0, 0, 0, 0, 0, 0, 0, 0, 0, 0, 0, 1, 0, -1, 1, 1, 0], .spell [0, 0, 0, -1, -1, -1, -1, -1, -1, -1, -1, 0, 0, 0, 0, 0, 0, 0, 0, 0, 0, 0, 0, 0, 0, 0, 0]],
    .tlbfAll { two with f := -1, et := .st27 }),
  ([.spell [0, 0, -1, -1, -1, 0, 1, -1, -1, -1, 0, 0, 0, 0, 0, 0, 0, 0, 0, 0, 0, 1, 0, 0, -1, -1, 0], .spell [0, 0, 0, -1, -1, -1, -1, -1, -1, -1, 0, 0, 0, 0, 0, 0, 0, 0, 0, 0, 0, 0, 0, 0, 0, 0, 0]],
    .sleep { two with b := -116, a := -117 })] = true := by decide +kernel

/-- The remaining instructions (R158, R161). -/
theorem test_decode_other : decodeAll [
  ([.spell [0, 0, 0, 0, 0, 0, 0, 0, 0, 0, 0, 0, 0, 0, 0, 0, 0, 0, 0, 0, 0, 0, 0, 0, 0, 1, -1]],
    .nop one),
  ([.spell [0, 0, 0, 0, 0, 0, 0, 0, 0, 0, -1, 1, 0, 0, 0, 0, 0, 0, 0, 0, 0, 0, 0, 0, 1, 0, 1], .spell [0, 0, 0, -1, -1, -1, -1, -1, -1, -1, 0, 0, 0, 0, 0, 0, 0, 0, 0, 0, 0, 0, 0, 0, 0, 0, 0], .spell [0, 0, 0, 0, 0, 0, 0, 0, 0, -1, 1, 1, 0, 0, 0, 0, 0, 0, 0, 0, 0, 0, 0, 0, 1, -1, 0]],
    .br3 { three with a := -2, w3 := .ofInt (-71744529) }),
  ([.spell [-1, 0, -1, -1, -1, 0, -1, -1, -1, 0, 0, -1, -1, -1, -1, 1, 0, 0, 0, 0, 0, 0, 1, 1, -1, -1, 0], .spell [0, 0, 0, -1, -1, -1, -1, -1, -1, -1, 0, 0, 0, 0, 0, 0, 0, 0, 0, 0, 0, 0, 0, 0, 1, -1, 0]],
    .sts { two with f := -3, b := -118, a := -109, d := -114, c := 6 }),
  ([.spell [1, -1, -1, -1, -1, 0, -1, -1, -1, 0, 0, -1, -1, -1, -1, 0, 1, 0, 0, 0, 0, 0, 1, 1, -1, 0, 0], .spell [0, 0, 0, -1, -1, -1, -1, -1, -1, -1, 0, 0, 0, 0, 0, 0, 0, 0, 0, 0, 0, 0, 0, 0, 0, 0, -1]],
    .atom { two with f := 2, b := -118, a := -109, d := -116, c := -1 }),
  ([.spell [0, 0, 0, 0, 0, 0, 0, 0, 0, 0, 0, 0, 0, 0, 0, 0, 0, 0, 0, 0, 0, 0, 1, 1, 0, 1, -1]],
    .publish one),
  ([.spell [0, 0, 0, 0, 0, 0, 0, 0, 0, 0, 0, 0, 0, 0, 0, 0, 0, 0, 0, 0, 0, 1, -1, -1, -1, -1, -1]],
    .gphase one),
  ([.spell [0, 0, 0, 0, 0, 0, 0, 0, 0, 0, 0, 0, 0, 0, 0, 0, 0, 0, 0, 0, 0, 1, -1, -1, -1, 0, -1]],
    .wack one),
  ([.spell [0, 0, 0, 0, 0, 0, 0, -1, -1, 1, -1, 1, -1, -1, -1, 1, -1, 0, 0, 0, 0, 1, -1, 0, 1, -1, 0], .spell [0, 0, 0, -1, -1, -1, -1, -1, -1, -1, 0, 0, 0, 0, 0, 0, 0, 0, 0, 0, 0, 0, 0, 0, 0, 0, 0]],
    .mxIssue { two with a := -101, d := -115 }),
  ([.spell [0, 0, 0, 0, 0, 0, 0, 0, 0, 0, 0, 0, 0, 0, 0, 0, 0, 0, 0, 0, 0, 1, 0, -1, 0, -1, 0], .spell [0, 0, 0, -1, -1, -1, -1, -1, -1, -1, 0, 0, 0, 0, 0, 0, 0, 0, 0, 0, 0, 0, 0, 0, 1, -1, 1]],
    .trap { two with c := 7 }),
  ([.spell [0, 0, 0, 0, 0, 0, 0, 0, 0, 0, 0, 0, 0, 0, 0, 0, 0, 0, 0, 0, 0, 1, 0, -1, 0, 0, -1]],
    .tret one)] = true := by decide +kernel

/-- A PAIR of ADD and LD: a header of L = +, OP = +15 and zeros, then the two one-word instructions (R167). -/
theorem test_decode_pair : decodeAll [([.spell [0, 0, 0, 0, 0, 0, 0, 0, 0, 0, 0, 0, 0, 0, 0, 0, 0, 0, 0, 0, 0, 0, 1, -1, -1, 0, 1], .spell [0, 0, -1, -1, -1, 0, 1, -1, -1, -1, 0, 0, -1, -1, -1, 0, -1, 0, 0, 0, 0, -1, -1, -1, -1, -1, -1], .spell [0, 0, 0, 0, 0, 0, 0, -1, -1, -1, 1, 0, -1, -1, -1, 1, -1, 0, 0, 0, 0, -1, 1, 1, 1, 1, -1]],
    .pair (-121) { one with d := -118, a := -117, b := -116 } (-1) (-41) { one with d := -115, a := -114 } (-1))] = true := by decide +kernel

/-- Refused by name: an all-zero word (R172, R173). -/
theorem test_reject_1 : rejectedAs [.spell [0, 0, 0, 0, 0, 0, 0, 0, 0, 0, 0, 0, 0, 0, 0, 0, 0, 0, 0, 0, 0, 0, 0, 0, 0, 0, 0], .spell [0, 0, 0, 0, 0, 0, 0, 0, 0, 0, 0, 0, 0, 0, 0, 0, 0, 0, 0, 0, 0, 0, 0, 0, 0, 0, 0]] .allZero = true := by decide +kernel

/-- Refused by name: a second word beyond the fetch block (R172, R173). -/
theorem test_reject_2 : rejectedAs [.spell [0, 0, 0, 0, 0, 0, 0, 0, 0, 0, 0, 0, 0, 0, 0, 0, 0, 0, 0, 0, 0, 0, 0, 0, 0, 0, 0]] .straddle = true := by decide +kernel

/-- Refused by name: a higher level (R172, R173). -/
theorem test_reject_3 : rejectedAs [.spell [0, 0, 0, 0, 0, 0, 0, 0, 0, 0, 0, 0, 0, 0, 0, 0, 0, 0, 0, 0, 0, 1, 1, 1, 1, 1, -1]] .higherLevel = true := by decide +kernel

/-- Refused by name: an unassigned opcode (R172, R173). -/
theorem test_reject_4 : rejectedAs [.spell [0, 0, 0, 0, 0, 0, 0, 0, 0, 0, 0, 0, 0, 0, 0, 0, 0, 0, 0, 0, 0, 0, 1, -1, 0, 0, -1]] .unassigned = true := by decide +kernel

/-- Refused by name: SAT of − (R172, R173). -/
theorem test_reject_5 : rejectedAs [.spell [0, 0, -1, -1, -1, 0, 1, -1, -1, -1, 0, 0, -1, -1, -1, 0, -1, 0, 0, 0, 0, -1, -1, -1, -1, -1, 0], .spell [0, 0, -1, -1, -1, -1, -1, -1, -1, -1, 0, 0, 0, 0, 0, 0, 0, 0, 0, 0, 0, 0, 0, 0, 0, 0, 0]] .reservedField = true := by decide +kernel

/-- Refused by name: a latency class on ADD (R172, R173). -/
theorem test_reject_6 : rejectedAs [.spell [0, 0, -1, -1, -1, 0, 1, -1, -1, -1, 0, 0, -1, -1, -1, 0, -1, 0, 0, 0, 0, -1, -1, -1, -1, -1, 0], .spell [0, 0, 0, -1, -1, -1, 0, -1, -1, -1, 0, 0, 0, 0, 0, 0, 0, 0, 0, 0, 0, 0, 0, 0, 0, 0, 0]] .reservedField = true := by decide +kernel

/-- Refused by name: a move without its F (R172, R173). -/
theorem test_reject_7 : rejectedAs [.spell [1, 1, 0, 0, 0, 0, 0, -1, -1, -1, 0, 0, -1, -1, -1, 0, -1, 0, 0, 0, 0, -1, 0, -1, -1, -1, -1]] .reservedField = true := by decide +kernel

/-- Refused by name: a value in F of ADD (R172, R173). -/
theorem test_reject_8 : rejectedAs [.spell [1, -1, -1, -1, -1, 0, 1, -1, -1, -1, 0, 0, -1, -1, -1, 0, -1, 0, 0, 0, 0, -1, -1, -1, -1, -1, -1]] .reservedField = true := by decide +kernel

/-- Refused by name: a PAIR within a PAIR (R172, R173). -/
theorem test_reject_9 : rejectedAs [.spell [0, 0, 0, 0, 0, 0, 0, 0, 0, 0, 0, 0, 0, 0, 0, 0, 0, 0, 0, 0, 0, 0, 1, -1, -1, 0, 1], .spell [0, 0, 0, 0, 0, 0, 0, 0, 0, 0, 0, 0, 0, 0, 0, 0, 0, 0, 0, 0, 0, 0, 1, -1, -1, 0, -1], .spell [0, 0, -1, -1, -1, 0, 1, -1, -1, -1, 0, 0, -1, -1, -1, 0, -1, 0, 0, 0, 0, -1, -1, -1, -1, -1, -1]] .reservedField = true := by decide +kernel

/-! ### Well-formed instructions: one ill-formed term for each check, which the check refuses -/

/-- The opcode: outside its field, and a PAIR's. -/
theorem wf_opcode : WellFormed.opcode 122 = false ∧ WellFormed.opcode (-122) = false ∧ WellFormed.opcode 15 = false ∧ WellFormed.opcode (-121) = true := by decide +kernel
/-- The operands: a register number outside its field, a value in F or LA of ADD, an unassigned opcode. -/
theorem wf_operands : WellFormed.operands (-121) { one with d := 122 } = false ∧ WellFormed.operands (-121) { two with f := 2 } = false
    ∧ WellFormed.operands (-121) { two with la := 1 } = false ∧ WellFormed.operands 120 one = false
    ∧ WellFormed.operands (-121) { one with d := 121 } = true := by decide +kernel
/-- The selection: F of 2 in an XF selects the shift, not the negation. -/
theorem wf_selects : WellFormed.selects (-30) { two with f := 2 } (.xfNeg { two with f := 2 }) = false
    ∧ WellFormed.selects (-30) { two with f := 1 } (.xfNeg { two with f := 1 }) = true := by decide +kernel
/-- An inner instruction of a PAIR: a second word, an L outside one trit, another PAIR. -/
theorem wf_inner : WellFormed.inner (-121) two (-1) = false ∧ WellFormed.inner (-121) one 2 = false ∧ WellFormed.inner 15 one (-1) = false
    ∧ WellFormed.inner (-121) one (-1) = true := by decide +kernel
/-- The instruction: an event is spelt by no words, and each check above refuses a term. -/
theorem wf_instruction : Instr.wellFormed .coldReset = false ∧ Instr.wellFormed (.add { one with d := 122 }) = false
    ∧ Instr.wellFormed (.xfNeg { two with f := 2 }) = false ∧ Instr.wellFormed (.pair 15 one (-1) (-121) one (-1)) = false
    ∧ Instr.wellFormed (.add one) = true := by decide +kernel


/-! ### Witnesses: states and operands that meet the hypotheses of the statements -/

def bundleCheck (s : State) : Bool :=
  s.cur.handler.isNone && decide s.cur.threads.Nodup && s.cur.threads.all (fun r =>
    match s.squad? r.team r.squad with
    | some q => q.kb.length == 81 && decide (r.lane < 27) && (match q.threads[r.lane]? with
      | some th => th.run == .ready && decide ((th.regs.length : Int) = s.regsOf r.team) && th.preds.length == 8
      | none => false)
    | none => false)

theorem fits_of_check (s : State) (h : bundleCheck s = true) : s.bundleFits := by
  simp only [bundleCheck, Bool.and_eq_true, List.all_eq_true, decide_eq_true_eq, Option.isNone_iff_eq_none] at h
  refine ⟨h.1.1, h.1.2, fun r hr => ?_⟩
  have h2 := h.2 r hr
  split at h2
  · next q hq =>
    split at h2
    · next th ht => simp at h2; exact ⟨q, th, hq, ht, h2.1.1, h2.2.1.1, h2.2.1.2, h2.2.2, h2.1.2⟩
    · simp at h2
  · simp at h2

def issuesCheck (i : Instr) (o : Opnd) (fm : Form) (s : State) : Bool :=
  bundleCheck s
  && decide (-121 ≤ o.d ∧ 1 ≤ o.xr ∧ o.xr ≤ 9 ∧ 1 ≤ o.xc ∧ o.xc ≤ 3 ∧ (o.et.scalar = true → o.xr = 1 ∧ o.xc = 1)
      ∧ (fm.d = .p → -4 ≤ o.d ∧ o.d ≤ 4) ∧ (∀ k ∈ kregsOf fm o, k < 81)
      ∧ (fm.d = .v → o.et.scalar = false) ∧ (fm.d = .k → o.et.scalar = true))
  && !s.holdsBack i fm o (s.execs o.et.scalar)
  && (s.execs o.et.scalar).all (fun x => (s.dynCode fm o x (s.limit8 i x.t.team)).isNone && !s.outside i.scope o x)

theorem issues_of_check (i : Instr) (o : Opnd) (fm : Form) (s : State) (h : issuesCheck i o fm s = true) : Issues i o fm s := by
  simp only [issuesCheck, Bool.and_eq_true, decide_eq_true_eq, Bool.not_eq_true', List.all_eq_true, Option.isNone_iff_eq_none] at h
  exact ⟨fits_of_check s h.1.1.1, h.1.1.2, h.1.2, fun x hx => h.2 x hx⟩

/-- The instruction may issue in some state, in some execution whose guard holds. -/
def Meets (i : Instr) (o : Opnd) (fm : Form) : Prop := ∃ s, Issues i o fm s ∧ s.runs o ≠ []

def meetsCheck (i : Instr) (o : Opnd) (fm : Form) (s : State) : Bool := issuesCheck i o fm s && !(s.runs o).isEmpty

theorem meets (s : State) {i : Instr} {o : Opnd} {fm : Form} (h : meetsCheck i o fm s = true) : Meets i o fm := by
  simp only [meetsCheck, Bool.and_eq_true, Bool.not_eq_true', List.isEmpty_eq_false_iff] at h
  exact ⟨s, issues_of_check i o fm s h.1, h.2⟩

/-- The same where the rule `g` of the instruction applies besides. -/
def MeetsBy (i : Instr) (o : Opnd) (fm : Form) (g : List Exec → State → Option (State × List (Exec × After))) : Prop :=
  ∃ s w l, Issues i o fm s ∧ s.runs o ≠ [] ∧ g (s.runs o) s = some (w, l)

theorem meetsBy (s : State) {i : Instr} {o : Opnd} {fm : Form} {g : List Exec → State → Option (State × List (Exec × After))}
    (h : (meetsCheck i o fm s && (g (s.runs o) s).isSome) = true) : MeetsBy i o fm g := by
  simp only [meetsCheck, Bool.and_eq_true, Bool.not_eq_true', List.isEmpty_eq_false_iff, Option.isSome_iff_exists] at h
  obtain ⟨⟨h1, h2⟩, ⟨w, l⟩, h3⟩ := h
  exact ⟨s, w, l, issues_of_check i o fm s h1, h2, h3⟩

/-- A resident team of one squad in which the lanes 0, 1 and 26 live: a bundle at address number 27. -/
def probe : State :=
  let s := State.reset.place []
  let s := s.modSquad 0 0 (fun q => { q with threads := q.threads.zipIdx.map (fun p =>
    if p.2 = 0 ∨ p.2 = 1 ∨ p.2 = 26 then p.1 else { p.1 with run := .exited }) })
  { s with issue := [], cur := { s.issue.headD Bundle.none with threads := [⟨0, 0, 0⟩, ⟨0, 0, 1⟩, ⟨0, 0, 26⟩] } }

/-- The same with the bundle of lane 0 alone. -/
def lone : State := { probe with cur := { probe.cur with threads := [⟨0, 0, 0⟩] } }

end Sys2Proof.Tests

namespace Sys2Proof.Machine

/-- Lane 0 with values in its registers v(n), and the squad with values in k(n). -/
def State.withV (s : State) (l : List (Nat × Int)) : State := l.foldl (fun s p => s.setV ⟨0, 0, 0⟩ p.1 (.ofInt p.2)) s
def State.withK (s : State) (l : List (Nat × Int)) : State := l.foldl (fun s p => s.setK 0 0 false p.1 (.ofInt p.2)) s

/-- Cabinet words of the team. -/
def State.withCab (s : State) (l : List (Int × Int)) : State := l.foldl (fun s p => s.setCab 0 p.1 (.ofInt p.2)) s

end Sys2Proof.Machine

namespace Sys2Proof.Tests
open Sys2Proof Sys2Proof.Machine

set_option Elab.async false

/-- Operands v3, v4, v5 in two words, and k3, k4, k5. -/
def vec : Opnd := { two with d := -118, a := -117, b := -116 }
def sca : Opnd := { vec with et := .st27 }

/-- R217: the ties of 5 / 2 and 9 / 2 (neighbours 2 and 3, 4 and 5), and no tie. -/
theorem witness_IntegerQuotientsAndBounds_tie : (2 : Int) ≠ 0 ∧ 3 = divNearest 5 2 ∧ 2 * ((5 : Int) - 2 * 3).natAbs = (2 : Int).natAbs
    ∧ 4 = divNearest 9 2 ∧ 2 * ((9 : Int) - 2 * 4).natAbs = (2 : Int).natAbs ∧ 2 * ((9 : Int) - 2 * 5).natAbs = (2 : Int).natAbs := by decide +kernel
/-- R217: the worked values of the manual. -/
theorem test_divNearest : [divNearest 7 2, divNearest 5 2, divNearest (-5) 2, divNearest 9 2, divNearest 8 3] = [3, 3, -3, 4, 3] := by decide +kernel
/-- An instruction with its operands and the form of its statement. -/
abbrev Case := Instr × Opnd × Form
def case (c : Opnd → Instr) (f : Opnd → Form) (o : Opnd) : Case := (c o, o, f o)

theorem all_meet (s : State) {l : List Case} (h : l.all (fun p => meetsCheck p.1 p.2.1 p.2.2 s) = true) :
    ∀ p ∈ l, Meets p.1 p.2.1 p.2.2 := fun p hp => meets s (List.all_eq_true.1 h p hp)

/-- The same with the rule of the statement. -/
abbrev RuleCase := Case × (List Exec → State → Option (State × List (Exec × After)))
def ruleCase (c : Opnd → Instr) (f : Opnd → Form) (g : Opnd → List Exec → State → Option (State × List (Exec × After))) (o : Opnd) :
    RuleCase := (case c f o, g o)

theorem all_meetBy (s : State) {l : List RuleCase}
    (h : l.all (fun p => meetsCheck p.1.1 p.1.2.1 p.1.2.2 s && (p.2 (s.runs p.1.2.1) s).isSome) = true) :
    ∀ p ∈ l, MeetsBy p.1.1 p.1.2.1 p.1.2.2 p.2 := fun p hp => meetsBy s (List.all_eq_true.1 h p hp)

theorem witness_IntegerArithmetic : ∀ p ∈ [case .add (binary true) { vec with sat := true, et := .t9, xr := 9 }, case .sub (binary true) { vec with f := 1, c := -121 },
    case .neg (fun _ => unary) vec, case .abs (fun _ => unary) sca, case .sgn (fun _ => unary) { vec with et := .t1, gc := .isPos, gp := 0 },
    case .mul (binary true) { three with d := -41, a := -41, w3 := .ofInt 3812798742493 }, case .mulh (binary false) { vec with xc := 3, xr := 9 },
    case .mad (fun _ => ternary true) { sca with c := -41 }], Meets p.1 p.2.1 p.2.2 := all_meet probe (by decide +kernel)

theorem witness_IntegerQuotientsAndBounds : ∀ p ∈ [case .div (binary false) vec, case .mod (binary false) { vec with f := 1 }, case .min (binary false) { vec with et := .t1 },
    case .max (binary false) sca, case .clamp (fun _ => ternary false) { vec with c := -41 }], Meets p.1 p.2.1 p.2.2 := all_meet probe (by decide +kernel)

theorem witness_ShiftsAndTrits : ∀ p ∈ [case .shl (binary true) { vec with sat := true }, case .shr (binary true) { vec with f := 1, c := 121 },
    case .rot (binary false) { vec with f := 1, c := -121 }, case .tmin (binary false) vec, case .tmax (binary false) vec, case .tsum (binary false) { vec with et := .t1 },
    case .tcon (binary false) vec, case .tmap tmapForm { vec with c := -13 }, case .tcnt (fun _ => unary) { vec with f := -1 }, case .tlz (fun _ => unary) sca],
    Meets p.1 p.2.1 p.2.2 := all_meet probe (by decide +kernel)

theorem witness_FieldsAndSubElements : ∀ p ∈ [case .text (textForm · false) { vec with c := 27 }, case .tins (textForm · true) { sca with c := 1 },
    case .pack (fun _ => ternary true) { vec with et := .t9, c := -41 }, case .unpack (fun _ => unary) { vec with et := .tf9, x := 2 },
    case .bsum (fun _ => unary) { vec with et := .t1 }], Meets p.1 p.2.1 p.2.2 := all_meet probe (by decide +kernel)

theorem witness_Movement : ∀ p ∈ [case .sel (fun _ => ternary false) { vec with f := 4, c := -41 }, case .mov (fun _ => unary) { vec with ma := .rot 13 false },
    case .movBc (fun _ => { d := .r, a := .k }) vec, case .movK (fun _ => { d := .k, a := .v }) { sca with f := -1, a := -41 }, case .movi moviForm { three with d := -41, w3 := .zero },
    case .idx idxForm { two with f := -4, d := -118 }, case .feat (fun _ => { d := .r, c := .i }) { two with d := -118, c := 121 }], Meets p.1 p.2.1 p.2.2 := all_meet probe (by decide +kernel)

theorem witness_Predicates : ∀ p ∈ [case .cmp cmpForm { vec with d := -4 }, case .fcmp fcmpForm { vec with d := 4, et := .tf27, f := -1 },
    case .tkt (fun _ => { d := .p, a := .v }) { vec with d := 4 }, case .vote voteForm { two with f := 1, d := -4, a := 4 }, case .vote voteForm { two with f := -1, d := 4, a := -4 }],
    Meets p.1 p.2.1 p.2.2 := all_meet probe (by decide +kernel)

theorem witness_GroupCollectives : ∀ p ∈ [case .trx (fun _ => { d := .v, a := .v, gr := true }) vec, case .vote voteForm { two with d := -118, a := 4 }, case .gred gredForm { vec with et := .tf27, sat := true },
    case .gscan gredForm { vec with x := 1, f := -1 }, case .hist histForm { vec with f := 1 }], Meets p.1 p.2.1 p.2.2 := all_meet probe (by decide +kernel)

theorem witness_FloatInstructions : ∀ p ∈ [case .fadd (fun _ => plain true) { vec with et := .tf27, sat := true }, case .fsub (fun _ => plain true) { vec with et := .tf9 },
    case .fmul (fun _ => plain true) { sca with et := .stf27 }, case .ffma (fun _ => ternary true) { vec with et := .tf27, c := -41 }, case .fadd3 (fun _ => ternary true) { vec with et := .tf9, c := -41 },
    case .fdot3 fdot3Form { vec with et := .tf27, f := 1, c := -41 }, case .fmin (fun _ => plain false) { vec with et := .tf27 }, case .fmax (fun _ => plain false) { vec with et := .tf27 },
    case .fabs (fun _ => unary) { vec with et := .tf27 }, case .fclass (fun _ => unary) { vec with et := .tf9 }, case .fscl (binary true) { vec with et := .tf27, f := 1, c := -121 },
    case .fxp (fun _ => unary) { vec with et := .tf27, f := 1 }, case .frnd (fun _ => unary) { vec with et := .tf27, f := -1 }], Meets p.1 p.2.1 p.2.2 := all_meet probe (by decide +kernel)

theorem witness_Conversions : ∀ p ∈ [case .cvt cvtForm { vec with et := .t9, x := 1, d := -43 }, case .cvtb cvtbForm { vec with et := .tf27, x := 1 }, case .cvtf (fun o => convert o 1 o.et.per true) { vec with et := .tf27, x := -2 },
    case .dquant dquantForm { vec with et := .t9 }, case .draw (fun _ => { d := .v, a := .v, b := .v }) vec, case .stamp (fun o => { d := .v, moreV := [o.d + 1] }) { one with d := -42 }],
    Meets p.1 p.2.1 p.2.2 := all_meet probe (by decide +kernel)

/-- The address with a given number (R65). -/
def va (n : Nat) : Int := (n : Int) - 3812798742493

/-- `lone` where its core holds the translation of page 10 to frame 3, with every right and a given HOME trit (R69). -/
def mapped (home : Int) : State :=
  lone.modCore 0 (fun c => { c with tlb := [{ asrec := 0, asn := 0, gen := 0, level := 1, page := 10, pte := .ofInt (6682 + 729 * home), fmt := 0 }] })

theorem witness_LaneAccess : ∀ p ∈ [ruleCase .lget (fun _ => { d := .k, a := .k, b := .k }) (fun o => eachDo (lgetRule o)) sca,
    ruleCase .lget (fun _ => { d := .k, a := .k, b := .k }) (fun o => eachDo (lgetRule o)) { sca with f := 2 },
    ruleCase .lput (fun _ => { d := .k, a := .k, b := .k, dRead := true }) (fun o => eachDo (lputRule o)) { sca with f := 1 }],
    MeetsBy p.1.1 p.1.2.1 p.1.2.2 p.2 := all_meetBy (probe.withK [(4, 26), (5, 80)]) (by decide +kernel)

def sfuCase (c : Opnd → Instr) (fn : SfuFn) (o : Opnd) : RuleCase := ruleCase c (fun _ => sfuForm) (fun o => sfuRule o fn) o
theorem witness_SpecialFunctions : ∀ p ∈ [sfuCase .rcp .rcp { vec with et := .tf27, la := 8 }, sfuCase .rsq .rsq { vec with et := .tf9 }, sfuCase .sqrt .sqrt { sca with et := .stf27 },
    sfuCase .exp .exp { vec with et := .tf27 }, sfuCase .log .log { vec with et := .tf27 }, sfuCase .sin .sin { vec with et := .tf27 }, sfuCase .cos .cos { vec with et := .tf27 },
    sfuCase .tanh .tanh { vec with et := .tf27, sat := true }, sfuCase .sigm .sigm { vec with et := .tf27 }], MeetsBy p.1.1 p.1.2.1 p.1.2.2 p.2 := all_meetBy probe (by decide +kernel)

theorem witness_Loads : ∀ p ∈ [ruleCase .ld ldForm (fun o => eachDo (loadRule o (o.x == 1) (ldPlace o .read))) { two with d := -118, a := -117, la := 8 },
    ruleCase .ld ldForm (fun o => eachDo (loadRule o (o.x == 1) (ldPlace o .read))) { two with d := -118, a := -116, f := -3, x := 1 },
    ruleCase .ldx (fun _ => ldxForm) (fun o => eachDo (loadRule o false (ldxPlace o .read))) { two with d := -118, a := -117 }],
    MeetsBy p.1.1 p.1.2.1 p.1.2.2 p.2 := all_meetBy (((mapped 0).withV [(4, va 24054), (5, 6911)]).withK [(4, va 21870)]) (by decide +kernel)

theorem witness_Stores : ∀ p ∈ [ruleCase .st stForm (fun o => eachDo (storeRule o (o.x == 1) (ldPlace o .write))) { two with d := -118, a := -117 },
    ruleCase .st stForm (fun o => eachDo (storeRule o (o.x == 1) (ldPlace o .write))) { two with d := -118, a := -116, f := -3, x := 1 },
    ruleCase .stx (fun _ => stxForm) (fun o => eachDo (storeRule o false (ldxPlace o .write))) { two with d := -118, a := -117 },
    ruleCase .clineZero lineForm (fun o => eachDo (zeroRule o)) { two with a := -117 }],
    MeetsBy p.1.1 p.1.2.1 p.1.2.2 p.2 := all_meetBy (((mapped 0).withV [(4, va 24054), (5, 6911)]).withK [(4, va 21870)]) (by decide +kernel)

theorem witness_PrefetchAndEvict : ∀ p ∈ [ruleCase .pref lineForm (fun o => eachDo (prefRule o)) { two with a := -117 },
    ruleCase .prefHome lineForm (fun o => eachDo (prefHomeRule o)) { two with a := -117, x := 1 },
    ruleCase .clineEvict lineForm (fun o => eachDo (evictRule o)) { two with a := -117, x := 1 }],
    MeetsBy p.1.1 p.1.2.1 p.1.2.2 p.2 := all_meetBy ((mapped 0).withV [(4, va 24054)]) (by decide +kernel)

theorem witness_TransfersAndCalls : ∀ p ∈ [ruleCase .br (fun _ => { c := .i }) (fun o => eachDo (fun s _ => some (s, .goto (s.cur.pc.add (3 * (if o.len = 3 then o.w3.val else o.c)))))) { two with c := -121 },
    ruleCase .br3 (fun _ => { a := .p }) (fun o => eachDo (fun s x => some (s, match x.pred s (predNum o.a) with
      | .m => .goto (s.cur.pc.add (3 * field o.w3.val 13 0)) | .z => .pass | .p => .goto (s.cur.pc.add (3 * field o.w3.val 26 14))))) { three with a := 4 },
    ruleCase .brm brmForm (fun o => eachDo (fun s x => some (s, match (brmPairs o).find? (fun p => codeHolds p.2.1 (x.pred s (predNum p.1)).val) with
      | some p => .goto (s.cur.pc.add (3 * p.2.2)) | none => .pass))) { three with d := 1, c := 37, x := 4, w3 := .ofInt 5 },
    ruleCase .jmp jmpForm (fun o => eachDo (jumpRule (fun s x => if o.len = 3 then o.w3 else (x.reg s o.a 0).add o.c))) { two with a := -117, c := 120 },
    ruleCase .jmpr (fun _ => { a := .v }) (fun o => eachDo (jumpRule (fun s x => x.reg s o.a 0))) { one with a := -117 },
    ruleCase .call (fun _ => { d := .v, c := .i, dRead := true })
      (fun o => eachDo (callRule o (3 * o.len) (fun s _ => s.cur.pc.add (3 * (if o.len = 3 then o.w3.val else o.c))))) { two with f := -3, d := -116, c := 121 },
    ruleCase .callr (fun _ => { d := .v, a := .v, dRead := true }) (fun o => eachDo (callRule o 3 (fun s x => x.reg s o.a 0))) { one with d := -115, a := -117 },
    ruleCase .ret (fun _ => { a := .v, aWrite := true }) (fun o => eachDo (retRule o)) { one with f := -3, a := -116 }],
    MeetsBy p.1.1 p.1.2.1 p.1.2.2 p.2 := all_meetBy (((mapped 0).withV [(4, va 24054), (5, 3), (6, va 24057)]).withCab [(1, va 27)]) (by decide +kernel)

theorem witness_ThreadControl : ∀ p ∈ [ruleCase .nop (fun _ => {}) (fun _ => passAll (fun _ s => s)) one, ruleCase .gwait (fun _ => { gr := true }) (fun _ => passAll (fun _ s => s)) two,
    ruleCase .yield (fun _ => {}) (fun _ => passAll (fun xs s => (xs.flatMap (·.ts)).foldl (fun s t => s.modThread t (fun th => { th with age := s.cycle })) s)) one,
    ruleCase .part partForm (fun o => passAll (partRule o)) { two with d := 4, a := -117, f := -1 }, ruleCase .part partForm (fun o => passAll (partRule o)) { two with d := -3, x := 1, f := 1 },
    ruleCase .exit (fun _ => {}) (fun _ => passAll exitRule) one, ruleCase .reorder reorderForm (fun o => passAll (reorderRule o)) { vec with c := -120 }],
    MeetsBy p.1.1 p.1.2.1 p.1.2.2 p.2 := all_meetBy (probe.withV [(4, 5)]) (by decide +kernel)

theorem witness_SystemInstructions : ∀ p ∈ [ruleCase .cwget (fun _ => { d := .k, c := .i }) (fun o => eachDo (cwgetRule o)) { sca with a := 0, b := 0, c := 1 },
    ruleCase .cwset (fun _ => { a := .k, c := .i }) (fun o => eachDo (cwsetRule o)) { sca with d := 0, b := 0 },
    ruleCase .cwset (fun _ => { a := .k, c := .i }) (fun o => eachDo (cwsetRule o)) { sca with len := 3, d := 0, b := 0, w3 := .ofInt 6570 },
    ruleCase .tlbfPage (fun _ => { a := .k }) (fun o => eachDo (tlbfRule 1 (fun s x => x.reg s o.a 0))) { sca with d := 0, b := 0 },
    ruleCase .tlbfAs (fun _ => {}) (fun _ => eachDo (tlbfRule 2 (fun _ _ => .zero))) { two with et := .st27, f := 1 },
    ruleCase .tlbfAll (fun _ => {}) (fun _ => eachDo (tlbfRule 3 (fun _ _ => .zero))) { two with et := .st27, f := -1 }],
    MeetsBy p.1.1 p.1.2.1 p.1.2.2 p.2 := all_meetBy (probe.withK [(4, va 27)]) (by decide +kernel)

theorem witness_SystemInstructions_sleep : ∀ p ∈ [ruleCase .sleep (fun _ => { a := .v, b := .v }) (fun o => eachDo (sleepRule o)) { vec with d := 0 }],
    MeetsBy p.1.1 p.1.2.1 p.1.2.2 p.2 := all_meetBy ((mapped 0).withV [(4, va 21870), (5, 14348907)]) (by decide +kernel)

/-- The bundle at user level. -/
def userProbe : State := { probe with grids := probe.grids.map (fun g => { g with node := setNth g.node 17 (.ofInt (intAt g.node 17 - 81 * (trit (intAt g.node 17) 4 + 1))) }) }
/-- The executions that carry an instruction out are at user level, and every thread of the bundle stands at its address. -/
def deniedCheck (s : State) (p : Case) : Bool :=
  meetsCheck p.1 p.2.1 p.2.2 s && s.cur.threads.all (fun r => (s.thread? r).all (fun th => th.pc == s.cur.pc)) && (s.runs p.2.1).all (fun x => !s.sysLevel x.t.team)
theorem witness_SystemInstructions_user : (∀ p ∈ [case .cwget (fun _ => { d := .k, c := .i }) { sca with len := 3, a := 0, b := 0, w3 := .ofInt 822 },
    case .cwset (fun _ => { a := .k, c := .i }) { sca with len := 3, d := 0, b := 0, w3 := .ofInt 822 }, case .tlbfPage (fun _ => { a := .k }) { sca with d := 0, b := 0 },
    case .tlbfAs (fun _ => {}) { two with et := .st27, f := 1 }, case .tlbfAll (fun _ => {}) { two with et := .st27, f := -1 }, case .tret (fun _ => { guard := false }) one,
    case .tpcSet (fun _ => tpcForm true) sca, case .tpcAdv (fun _ => tpcForm true) sca, case .tpcExit (fun _ => tpcForm false) sca], deniedCheck userProbe p = true)
    ∧ sysWord (selOf { sca with len := 3, w3 := .ofInt 822 }) = true ∧ sysWord (selOf { sca with c := 0 }) = false := by decide +kernel

theorem witness_WaitForTickets : ∀ p ∈ [ruleCase .wait waitForm (fun o => eachDo (waitRule o)) { two with d := -118, a := -110, f := 1 }, ruleCase .wait waitForm (fun o => eachDo (waitRule o)) { two with d := -43, a := -117 }],
    MeetsBy p.1.1 p.1.2.1 p.1.2.2 p.2 := all_meetBy lone (by decide +kernel)

/-- A copy descriptor of one element at cabinet address 0 (R125). -/
def copyCab (ctl : Int) : State := lone.withCab [(0, va 21870), (2, 729), (3, 1458), (4, 1), (5, 1), (6, 12), (7, 12), (8, 12), (10, ctl)]
def engCase (c : Opnd → Instr) (plan : Instr → Opnd → State → State → Exec → Nat → Plan) : RuleCase :=
  ruleCase c (fun _ => copyForm) (fun o => eachDo (issueRule o (plan (c o) o) (fun s _ _ => s))) { two with d := -118, a := -117 }

theorem witness_CopyIssue : (∀ p ∈ [engCase .copyIn (fun i o => copyPlan i o .cin), engCase .copyOut (fun i o => copyPlan i o .cout), engCase .copyPeer (fun i o => copyPlan i o .peer),
      engCase .copyCab (fun i o => copyPlan i o .cab)], MeetsBy p.1.1 p.1.2.1 p.1.2.2 p.2)
    ∧ ∀ p ∈ [engCase .copyBin (fun i o => copyPlan i o .bin)], MeetsBy p.1.1 p.1.2.1 p.1.2.2 p.2 :=
  ⟨all_meetBy (copyCab 9) (by decide +kernel), all_meetBy (copyCab 36) (by decide +kernel)⟩

def xfCase (c : Opnd → Instr) (f : Opnd → Form) (o : Opnd) : RuleCase := ruleCase c f (fun o => eachDo (issueRule o (xfPlan (c o) o) (fun s _ _ => s))) o
theorem witness_RangeTellerIssue : ∀ p ∈ [xfCase .xfNeg (fun _ => xfForm .z false) { vec with f := 1 }, xfCase .xfShift (fun o => { xfForm .i true with extra := -26 ≤ o.c && o.c ≤ 26 }) { vec with f := 2, c := -26, sat := true },
    xfCase .xfZero (fun _ => xfForm .z false) { vec with f := 3, x := 1 }, xfCase .xfFill (fun _ => xfForm .v false) { vec with f := 4, c := -41 },
    xfCase .xfClamp (fun o => { xfForm .v false with moreV := [o.c + 1] }) { vec with f := -1, c := -42 }, xfCase .xfCvt (fun _ => xfForm .z true) { vec with f := -2 },
    xfCase .xfRq (fun _ => xfForm .i true) { vec with f := -3, c := 121 }], MeetsBy p.1.1 p.1.2.1 p.1.2.2 p.2 := all_meetBy (lone.withV [(4, 6909), (5, 1)]) (by decide +kernel)

def xfLane (c : Opnd → Instr) (sat : Bool) (u d : Use) (op : Int) (ret : Bool) (o : Opnd) : RuleCase := ruleCase c (fun _ => xfLaneForm sat u d) (fun o => eachDo (xfLaneRule o op ret)) o
theorem witness_LaneTeller : ∀ p ∈ [xfLane .xfAcc true .z .z 1 false { vec with d := 0, x := 3, f := 1 }, xfLane .xfAdd true .z .v 2 true { vec with x := 3, f := 2, sat := true, la := 8 },
    xfLane .xfMin false .z .v 3 true { vec with x := 3, f := 3 }, xfLane .xfMax false .z .v 4 true { vec with x := 3, f := 4 }, xfLane .xfXchg false .z .v (-1) true { vec with x := 3, f := -1 },
    xfLane .xfCas false .v .v (-2) true { vec with x := 3, f := -2, c := -41 }, xfLane .xfTsum false .z .v (-3) true { vec with x := 4, f := -3 }],
    MeetsBy p.1.1 p.1.2.1 p.1.2.2 p.2 := all_meetBy (lone.withV [(4, 6909), (5, 1)]) (by decide +kernel)

def collCase (c : Opnd → Instr) (f : Int) : RuleCase :=
  ruleCase c (fun _ => collForm) (fun o => eachDo (issueRule o (collPlan (c o) o) (collPost o))) { two with d := -118, a := -117, f := f }
/-- A collective's descriptor of one word at cabinet address 0 (R205), with NRANK 1 or a partner. -/
def collCab (root : Int) : State := lone.withCab [(1, va 21870), (2, va 21873), (3, 1), (5, 729), (6, 1), (7, root)]
theorem witness_CollectiveIssue : (∀ p ∈ [collCase .collAr 1, collCase .collRs 2, collCase .collAg 3, collCase .collBc 4], MeetsBy p.1.1 p.1.2.1 p.1.2.2 p.2)
    ∧ ∀ p ∈ [collCase .collSend (-1), collCase .collRecv (-2)], MeetsBy p.1.1 p.1.2.1 p.1.2.2 p.2 :=
  ⟨all_meetBy (collCab 0) (by decide +kernel), all_meetBy (collCab 2186) (by decide +kernel)⟩

def mxCase (c : Opnd → Instr) (f : Form) (o : Opnd) : RuleCase := ruleCase c (fun _ => f) (fun o => mxRule (c o) o) o
theorem witness_MatrixIssue : ∀ p ∈ [mxCase .mxIssue (mxForm .v .z) { vec with b := 0 }, mxCase .mxZero (mxForm .z .z) { two with d := -118 }, mxCase .mxLoadc (mxForm .v .v) { vec with a := -115 },
    mxCase .mxScale (mxForm .v .z) { vec with b := 0, et := .tf9 }, mxCase .mxDrain { mxForm .v .v with sat := true, moreV := [-115] } { vec with a := -115, sat := true },
    mxCase .mxSpill (mxForm .v .z) { vec with b := 0, a := -113, f := -3 }, mxCase .mxSpill (mxForm .v .z) { vec with b := 0, a := -114 }, mxCase .mxFill (mxForm .v .z) { vec with b := 0, a := -114 },
    ruleCase .mxQry (fun _ => mxForm .z .z) queryRule { two with d := -118, f := 1 }], MeetsBy p.1.1 p.1.2.1 p.1.2.2 p.2 :=
  all_meetBy ((probe.withV [(5, 81), (7, va 21870)]).withCab [(5, 27), (6, -13)]) (by decide +kernel)

theorem witness_SynchronisingAccess : ∀ p ∈ [ruleCase .lds (fun _ => ldsForm) (fun o => underRule notDet (eachDo (ldsRule o))) { two with d := -118, a := -117, f := 1 },
    ruleCase .sts stsForm (fun o => underRule notDet (eachDo (stsRule o))) { vec with d := 0 }, ruleCase .sts stsForm (fun o => underRule notDet (eachDo (stsRule o))) { vec with f := -3, x := 1 }],
    MeetsBy p.1.1 p.1.2.1 p.1.2.2 p.2 := all_meetBy ((mapped 0).withV [(4, va 24054)]) (by decide +kernel)

theorem witness_AtomicOperations : ∀ p ∈ [ruleCase .atom atomForm (fun o => underRule notDet (atomRule o)) { vec with c := 1 }, ruleCase .atom atomForm (fun o => underRule notDet (atomRule o)) { vec with f := 2, c := -2, et := .tf27 },
    ruleCase .red redForm (fun o => underRule (fun s x => s.det x.t.team && (o.sat || o.f == -1)) (redRule o)) { vec with d := 0, c := 4 }],
    MeetsBy p.1.1 p.1.2.1 p.1.2.2 p.2 := all_meetBy ((mapped 0).withV [(4, va 24054)]) (by decide +kernel)

theorem witness_Leases : ∀ p ∈ [ruleCase .lease (fun _ => { a := .v, b := .v }) (fun o => underRule notDet (eachDo (leaseRule o))) { vec with d := 0 },
    ruleCase .unlease (fun _ => { d := .p, a := .v }) (fun o => underRule notDet (eachDo (unleaseRule o))) { two with d := 4, a := -117, f := -1 }],
    MeetsBy p.1.1 p.1.2.1 p.1.2.2 p.2 := all_meetBy ((mapped (-1)).withV [(4, va 21870), (5, 729)]) (by decide +kernel)

theorem witness_FencesAndPublication : ∀ p ∈ [ruleCase .publish (fun _ => { guard := false }) (fun o => eachDo (publishRule ((encode (.publish o)).getD []))) one,
    ruleCase .fence (fun _ => {}) fenceRule { two with f := 2, x := 1 }, ruleCase .wack (fun _ => { guard := false }) (fun _ => eachDo wackRule) one],
    MeetsBy p.1.1 p.1.2.1 p.1.2.2 p.2 := all_meetBy probe (by decide +kernel)

theorem witness_Barriers : ∀ p ∈ [ruleCase .bar barForm (fun o => arriveRule (.bar o.c.toNat) ((encode (.bar o)).getD [])) { two with c := 8 },
    ruleCase .cbar (fun _ => { guard := false }) (fun o => arriveRule .cbar ((encode (.cbar o)).getD [])) two,
    ruleCase .gphase (fun _ => { guard := false }) (fun o => underRule (fun s x => !s.coop x.t.team) (arriveRule .gphase ((encode (.gphase o)).getD []))) one],
    MeetsBy p.1.1 p.1.2.1 p.1.2.2 p.2 := all_meetBy probe (by decide +kernel)

/-- The three lanes hold 100 in v4, and in v5 the address of a scaling record. -/
def scaled : State :=
  [0, 1, 26].foldl (fun s (l : Nat) => (s.setV ⟨0, 0, l⟩ 4 (.ofInt 100)).setV ⟨0, 0, l⟩ 5 (.ofInt (va 21870))) { mapped 0 with cur := probe.cur }
theorem witness_Quantisation : ∀ p ∈ [ruleCase .quant quantForm quantRule vec, ruleCase .quant quantForm quantRule { vec with et := .t9 }],
    MeetsBy p.1.1 p.1.2.1 p.1.2.2 p.2 := all_meetBy scaled (by decide +kernel)

/-- The two instructions of a PAIR: ADD v3, v4, v5 and LD v7, [v4]. -/
def inner1 : Opnd := { one with d := -118, a := -117, b := -116 }
def inner2 : Opnd := { one with d := -114, a := -117 }
def pairP : Inner := (Inner.of (-121) inner1 (-1)).get (by decide +kernel)
def pairQ : Inner := (Inner.of (-41) inner2 (-1)).get (by decide +kernel)
def pairS : State := (mapped 0).withV [(4, va 24054)]
theorem witness_PairedInstructions : Inner.of (-121) inner1 (-1) = some pairP ∧ Inner.of (-41) inner2 (-1) = some pairQ ∧ pairOk pairP pairQ = true
    ∧ pairS.cur.handler = none ∧ pairS.execs false ≠ []
    ∧ (∀ x ∈ pairS.execs false, pairS.dynCode pairP.form pairP.o x false = none ∧ pairS.dynCode pairQ.form pairQ.o x false = none
        ∧ pairS.interlocked pairP.form pairP.o x = false ∧ pairS.interlocked pairQ.form pairQ.o x = false)
    ∧ ∃ r, (if pairQ.e.cls = .V then pairRule pairP pairQ else pairRule pairQ pairP) ((encode (.pair (-121) inner1 (-1) (-41) inner2 (-1))).getD [])
        (pairS.execs false) pairS = some r :=
  ⟨(Option.some_get _).symm, (Option.some_get _).symm, by decide +kernel, by decide +kernel, by decide +kernel, by decide +kernel,
    Option.isSome_iff_exists.1 (by decide +kernel)⟩

/-- A value that an option holds, with what a check says of it. -/
theorem found {α : Type} {o : Option α} {P : α → Bool} (h : o.any P = true) : ∃ x, o = some x ∧ P x = true := by
  cases o with
  | none => simp at h
  | some x => exact ⟨x, rfl, by simpa using h⟩

/-- Every thread of the bundle stands at its address. -/
def standsCheck (s : State) : Bool := s.cur.threads.all (fun r => (s.thread? r).all (fun th => th.pc == s.cur.pc))
theorem stands (s : State) (h : standsCheck s = true) : ∀ r ∈ s.cur.threads, ∀ th, s.thread? r = some th → th.pc = s.cur.pc := by
  intro r hr th ht
  have := List.all_eq_true.1 h r hr
  simpa [ht] using this
theorem witness_TrapsTaken : (probe.bundleFits ∧ ∀ r ∈ probe.cur.threads, ∀ th, probe.thread? r = some th → th.pc = probe.cur.pc)
    ∧ Meets (.trap { two with c := 121 }) { two with c := 121 } { c := .i } :=
  ⟨⟨fits_of_check _ (by decide +kernel), stands _ (by decide +kernel)⟩, meets probe (by decide +kernel)⟩

/-- A trap event of lanes 0 and 26, and its handler with k4 = 26 and k5 = 27 of the trap bank. -/
def event : TrapEv := { cause := 16, detail := 7, squad := 0, lanes := [0, 26], stamp := 0, pc := .ofNum 27, instr := [], aux := .zero, faults := [(0, .zero)] }
def handler : Handler := { squad := 0, pc := .ofNum 27, ev := event, run := .ready }
def handling (lane : Int) : State :=
  let s := (probe.setK 0 0 true 4 (.ofInt lane)).setK 0 0 true 5 (.ofInt (va 27))
  { s.modTeam 0 (fun t => { t with handler := some handler }) with cur := { core := 0, threads := [], pc := .ofNum 27, handler := some 0, waited := 0 } }
def handles (i : Instr) (o : Opnd) (fm : Form) (s : State) : Bool :=
  i.handlerOk && !s.holdsBack i fm o (s.execs o.et.scalar) && (s.execs o.et.scalar).all (fun x => (s.dynCode fm o x (s.limit8 i x.t.team)).isNone && x.guard s o)
theorem handles_of (i : Instr) (o : Opnd) (fm : Form) (s : State) (n : Nat) (h : Handler) (h1 : s.cur.handler = some n) (h2 : (s.team? n).bind (·.handler) = some h)
    (h3 : handles i o fm s = true) : Handles i o fm s n h := by
  simp only [handles, Bool.and_eq_true, Bool.not_eq_true', List.all_eq_true, Option.isNone_iff_eq_none] at h3
  exact ⟨h1, h2, h3.1.1, h3.1.2, fun x hx => h3.2 x hx⟩
theorem witness_HandlerInstructions :
    (Handles (.tret one) one { guard := false } (handling 26) 0 handler ∧ ∃ q, (handling 26).squad? 0 handler.squad = some q
      ∧ (q.sfuq.all (fun f => match f.k with | some (true, _) => false | _ => true) && q.kwait.all (fun w => !w.1)) = true)
    ∧ (((handler.exec 0).reg (handling 26) sca.a 0).val = 26 ∧ handler.ev.lanes.contains 26 = true ∧ ((handler.exec 0).reg (handling 26) sca.b 0).aligned = true)
    ∧ (((handling 26).cab 0 (-28)).add (3 * ((handler.exec 0).reg ((handling 26).setK 0 0 true 5 (.ofInt 2)) sca.b 0).val)).aligned = false
    ∧ ((((handling 26).setCab 0 (-28) (.ofNum 27)).cab 0 (-28)).add (3 * ((handler.exec 0).reg (handling 26) sca.b 0).val)).aligned = true
    ∧ (∀ p ∈ [(26 : Int), 1, -1, 27], Handles (.tpcSet sca) sca (tpcForm true) (handling p) 0 handler ∧ Handles (.tpcAdv sca) sca (tpcForm true) (handling p) 0 handler
        ∧ Handles (.tpcExit sca) sca (tpcForm false) (handling p) 0 handler ∧ Handles (.add sca) sca (binary true sca) (handling p) 0 handler
        ∧ Handles (.mov sca) sca unary (handling p) 0 handler)
    ∧ ((handler.exec 0).reg (handling (-1)) sca.a 0).val < 0 ∧ 26 < ((handler.exec 0).reg (handling 27) sca.a 0).val
    ∧ handler.ev.lanes.contains ((handler.exec 0).reg (handling 1) sca.a 0).val.toNat = false := by
  refine ⟨⟨handles_of _ _ _ _ _ _ rfl (by decide +kernel) (by decide +kernel), found (by decide +kernel)⟩, by decide +kernel, by decide +kernel, by decide +kernel, ?_,
    by decide +kernel, by decide +kernel, by decide +kernel⟩
  intro p hp
  simp only [List.mem_cons, List.not_mem_nil, or_false] at hp
  rcases hp with rfl | rfl | rfl | rfl <;>
    exact ⟨handles_of _ _ _ _ _ _ rfl (by decide +kernel) (by decide +kernel), handles_of _ _ _ _ _ _ rfl (by decide +kernel) (by decide +kernel),
      handles_of _ _ _ _ _ _ rfl (by decide +kernel) (by decide +kernel), handles_of _ _ _ _ _ _ rfl (by decide +kernel) (by decide +kernel),
      handles_of _ _ _ _ _ _ rfl (by decide +kernel) (by decide +kernel)⟩

/-- A handler's instruction may issue, and the rule `g` applies to it. -/
def handledCheck (s : State) (p : Case × (State → Exec → Option (State × After))) : Bool :=
  handles p.1.1 p.1.2.1 p.1.2.2 s && (p.2 s (handler.exec 0)).isSome
def handCase (c : Opnd → Instr) (f : Opnd → Form) (g : Opnd → State → Exec → Option (State × After)) (o : Opnd) :
    Case × (State → Exec → Option (State × After)) := (case c f o, g o)
theorem witness_HandlerInstructions_forms : (∀ p ∈ [handCase .lget (fun _ => { d := .k, a := .k, b := .k }) lgetRule { sca with f := 2, b := -117 },
    handCase .lput (fun _ => { d := .k, a := .k, b := .k, dRead := true }) lputRule { sca with f := 2, b := -117 },
    handCase .ld ldForm (fun o => loadRule o (o.x == 1) (ldPlace o .read)) { sca with b := 0, f := -3, x := 1 },
    handCase .st stForm (fun o => storeRule o (o.x == 1) (ldPlace o .write)) { sca with b := 0, f := -3, x := 1 },
    handCase .cwget (fun _ => { d := .k, c := .i }) cwgetRule { sca with len := 3, a := 0, b := 0, w3 := .ofInt 822 },
    handCase .cwset (fun _ => { a := .k, c := .i }) cwsetRule { sca with d := 0, b := 0 }, handCase .wait waitForm waitRule { sca with b := 0, f := 1 },
    handCase .tkt (fun _ => { d := .p, a := .v }) (fun o s x => some (x.setPred s (predNum o.d) (s.ticketTrit x.t.team (x.reg s o.a 0)), .pass)) { sca with d := 4, b := 0 },
    handCase .feat (fun _ => { d := .r, c := .i }) (fun o s x => some (x.set s o.d 0 (s.feature (s.partOf x.t.team) o.c), .pass)) { sca with a := 0, b := 0 },
    handCase .stamp (fun o => { d := .v, moreV := [o.d + 1] }) (fun o s x => some (x.set (x.set s o.d 0 (lowWord (s.stampOf (s.partOf x.t.team)))) (o.d + 1) 0
      (highWord (s.stampOf (s.partOf x.t.team))), .pass)) { one with d := -118 },
    handCase .nop (fun _ => {}) (fun _ s _ => some (s, .pass)) one,
    handCase .br (fun _ => { c := .i }) (fun o s _ => some (s, .goto (s.cur.pc.add (3 * (if o.len = 3 then o.w3.val else o.c))))) { two with c := -121 },
    handCase .br3 (fun _ => { a := .p }) (fun o s x => some (s, match x.pred s (predNum o.a) with
      | .m => .goto (s.cur.pc.add (3 * field o.w3.val 13 0)) | .z => .pass | .p => .goto (s.cur.pc.add (3 * field o.w3.val 26 14)))) { three with a := 4 },
    handCase .brm brmForm (fun o s x => some (s, match (brmPairs o).find? (fun p => codeHolds p.2.1 (x.pred s (predNum p.1)).val) with
      | some p => .goto (s.cur.pc.add (3 * p.2.2)) | none => .pass)) { three with d := 1, c := 37, x := 4, w3 := .ofInt 5 },
    handCase .jmp jmpForm (fun o => jumpRule (fun s x => if o.len = 3 then o.w3 else (x.reg s o.a 0).add o.c)) { two with a := -116 },
    handCase .jmpr (fun _ => { a := .v }) (fun o => jumpRule (fun s x => x.reg s o.a 0)) { one with a := -116 }], handledCheck (handling 26) p = true)
    ∧ (∀ p ∈ [case .tlbfPage (fun _ => { a := .k }) { sca with d := 0, b := 0 }, case .tlbfAs (fun _ => {}) { two with et := .st27, f := 1 },
        case .tlbfAll (fun _ => {}) { two with et := .st27, f := -1 }], handles p.1 p.2.1 p.2.2 (handling 26) = true)
    ∧ (handling 26).sysLevel 0 = true ∧ (∀ k ∈ [(1 : Int), 2, 3], ((handling 26).startShoot ((handling 26).asrecOf 0) k .zero (some (handler.exec 0).t)).isSome = true)
    ∧ (Instr.parts (.exit one)).isSome = true ∧ (Instr.exit one).handlerOk = false ∧ (handling 26).cur.handler = some 0 := by decide +kernel

/-- Lane 26 with one window of v80. -/
def windowed (src : WinSrc) : State := probe.modThread ⟨0, 0, 26⟩ (fun th => { th with wins := [{ reg := 80, val := .ofInt 5, left := 0, arrived := false, src := src }] })
def queued (k : Option (Bool × Word)) : State := (windowed .sfu).modSquad 0 0 (fun q => { q with sfuq := [{ reg := 80, lanes := [26], k := k }] })
def oneWindow (src : WinSrc) (th : Thread) : Bool :=
  th.wins.filter (fun v => v.reg == 80) == [{ reg := 80, val := .ofInt 5, left := 0, arrived := false, src := src }] && decide (80 < th.regs.length)
theorem witness_ResultArrivals : (∃ q, (queued none).squad? 0 0 = some q ∧ (q.sfuq == [{ reg := 80, lanes := [26], k := none }]) = true)
    ∧ (∃ q, (queued (some (false, .zero))).squad? 0 0 = some q ∧ (q.sfuq == [{ reg := 80, lanes := [26], k := some (false, .zero) }] && decide (80 < q.kb.length)) = true)
    ∧ ∀ src ∈ [WinSrc.sfu, .load, .serial], ∃ th, (windowed src).thread? ⟨0, 0, 26⟩ = some th ∧ oneWindow src th = true :=
  ⟨found (by decide +kernel), found (by decide +kernel), fun src h => by
    simp only [List.mem_cons, List.not_mem_nil, or_false] at h
    rcases h with rfl | rfl | rfl <;> exact found (by decide +kernel)⟩
/-- Lanes 0 and 26 wait together, and only lane 26 still has a write that is not acknowledged. -/
def together : State := (probe.setRun ⟨0, 0, 0⟩ .ackLanes).modThread ⟨0, 0, 26⟩ (fun th => { th with run := .ackLanes, unackSyn := 1 })
theorem witness_ResultArrivals_lanes : (∃ th, together.thread? ⟨0, 0, 26⟩ = some th ∧ (th.run == .ackLanes && th.unackSyn == 1 && th.unackPub == 0) = true)
    ∧ (∀ p ∈ together.laneMates ⟨0, 0, 26⟩, p.1 ≠ ⟨0, 0, 26⟩ → p.2.unackSyn = 0 ∧ p.2.unackPub = 0) ∧ (together.laneMates ⟨0, 0, 26⟩).length = 2
    ∧ probe.laneMates ⟨0, 0, 26⟩ = [] :=
  by and_intros <;> decide +kernel

/-- A line of escrow with one word. -/
def eline (i : Nat) (x : Int) : ELine := { vline := 270, slot := 81, elig := false, words := [{ i := i, val := .ofInt x, writer := 0, stale := false }] }
/-- A team with a word in escrow, and one whose publication awaits its last line. -/
def escrowed : State := probe.modBody 0 (fun b => { b with escrow := [eline 26 1] })
def publishing : State :=
  (probe.modTeam 0 (fun t => { t with pubs := [{ id := 3, lines := [{ eline 0 0 with words := [] }], held := [], again := [], failed := [], waiter := .thread ⟨0, 0, 26⟩ }] })).modThread ⟨0, 0, 26⟩
    (fun th => { th with run := .ackPub, unackPub := 1 })
theorem witness_Publications : (270 ≠ noLine ∧ 81 ≠ noLine ∧ (publishing.pub? 0 3).any (fun p => p.lines.any (fun l => l.vline != 81)) = true)
    ∧ (∃ t, escrowed.team? 0 = some t ∧ (t.body.escrow.length == 1 && t.body.escrow.all (fun e => e.flips.isEmpty && e.words.all (fun u => !u.stale))) = true)
    ∧ (∃ t, publishing.team? 0 = some t ∧ ((t.pubs.find? (fun p => p.id == 3)).any (fun p => p.lines.filter (fun l => l.vline != 270) == [] && p.held == [] && p.again == [] && p.failed.isEmpty && p.waiter == .thread ⟨0, 0, 26⟩)) = true)
    ∧ ∃ th, publishing.thread? ⟨0, 0, 26⟩ = some th ∧ (th.run == .ackPub && th.unackPub == 1) = true :=
  by and_intros <;> decide +kernel

/-- All live threads wait at one barrier. -/
def atBarrier (r : Run) : State := [0, 1, 26].foldl (fun s (l : Nat) => s.modThread ⟨0, 0, l⟩ (fun th => { th with run := r })) (probe.modTeam 0 (fun t => { t with closing := [8, 81, 82] }))
theorem witness_BarrierCompletions : ((atBarrier (.bar 8)).barrierDone 0 (.bar 8)).isSome = true
    ∧ (∃ x, (atBarrier .cbar).teams.find? (fun t => t.grid == 0 && t.crew == 0) = some x ∧ ((atBarrier .cbar).barrierDone x.num .cbar).isSome = true)
    ∧ ∃ x, (atBarrier .gphase).teams.find? (fun t => t.grid == 0) = some x ∧ (!(atBarrier .gphase).det x.num && ((atBarrier .gphase).barrierDone x.num .gphase).isSome) = true :=
  ⟨by decide +kernel, found (by decide +kernel), found (by decide +kernel)⟩

/-- A line at its home, and a copy of it. -/
def vline (st : LSt) (owner : Nat) : VLine :=
  { slot := 81, st := st, owner := owner, sharers := [], remote := false, vdirty := false, elig := false, pin := none, leased := false, line := zeroLine, flips := [], dgen := 0, txn := none,
    queue := [] }
def copyAs (st : LSt) (leased : Bool) : Copy := { agent := 0, slot := 81, st := st, line := zeroLine, leased := leased, probes := [], back := false, flips := [] }
def record (atHome granted : Bool) (count : Nat) : LeaseRec := { vline := 270, slot := 81, image := zeroLine, valid := true, count := count, atHome := atHome, granted := granted }
def leasing (atHome granted : Bool) (count : Nat) : State :=
  { probe.modThread ⟨0, 0, 0⟩ (fun th => { th with run := .lease, leases := [record atHome granted count] }) with
    vlines := [vline (if atHome then .I else .M) 0], copies := if atHome then [] else [copyAs .M granted] }
def asleep : State := probe.setRun ⟨0, 0, 0⟩ (.sleep 81 0)
theorem witness_LeaseAndSleepSteps :
    (∀ h ∈ [true, false], ∃ th, (leasing h false 729).thread? ⟨0, 0, 0⟩ = some th ∧ (th.leases.find? (fun q => !q.granted) == some (record h false 729)) = true)
    ∧ (leasing true false 729).vl 81 = some (vline .I 0) ∧ (leasing true false 729).busy 81 = false ∧ (leasing true false 729).isB 81 = false
    ∧ (leasing true false 729).dirtyCopy 81 = none ∧ (vline .I 0).flips = [] ∧ (∀ h ∈ [true, false], (leasing h false 729).physWhy 81 = none ∧ (leasing h false 729).isB 81 = false)
    ∧ (leasing false false 729).leaseTaken ((leasing false false 729).coreOf 0) 81 = false ∧ (copyAs .M false).back = false ∧ (copyAs .M false).flips = []
    ∧ (copyAs .M true).probes = [] ∧ (vline .I 0).txn = none ∧ (vline .I 0).queue = []
    ∧ (leasing true true 0).leaseOf ⟨0, 0, 0⟩ 270 = some (record true true 0) ∧ (leasing true true 0).vl 81 = some (vline .I 0)
    ∧ (leasing false false 729).copy ((leasing false false 729).coreOf 0) 81 = some (copyAs .M false)
    ∧ (leasing false true 0).leaseOf ⟨0, 0, 0⟩ 270 = some (record false true 0) ∧ (leasing false true 0).copy ((leasing false true 0).coreOf 0) 81 = some (copyAs .M true)
    ∧ ∃ th, asleep.thread? ⟨0, 0, 0⟩ = some th ∧ (th.run == .sleep 81 0) = true :=
  ⟨fun h hh => by simp only [List.mem_cons, List.not_mem_nil, or_false] at hh; rcases hh with rfl | rfl <;> exact found (by decide +kernel),
    by decide +kernel, by decide +kernel, by decide +kernel, by decide +kernel, rfl, by decide +kernel, by decide +kernel, rfl, rfl, rfl, rfl, rfl, by decide +kernel,
    by decide +kernel, by decide +kernel, by decide +kernel, by decide +kernel, found (by decide +kernel)⟩

/-- A scalar ADD in the instruction cache, at which one of three threads stands. -/
def gathering : State :=
  let s := State.reset.place ((encode (.add sca)).getD [])
  let s := s.modSquad 0 0 (fun q => { q with threads := q.threads.zipIdx.map (fun p => if p.2 = 0 ∨ p.2 = 1 then p.1 else { p.1 with run := .exited }) })
  { s.setPc ⟨0, 0, 1⟩ (.ofNum 54) with issue := [] }
/-- The same with both threads' pairs in the PC table of a core that has nothing in its pool. -/
def tabled (s : State) : State := s.modCore 0 (fun c => { c with pool := [], pct := [s.pairOf ⟨0, 0, 0⟩], overflow := [] })
theorem witness_Scheduling_round :
    (let s := tabled probe; (⟨0, 0, 26⟩ : TRef) ∈ s.residents 0 ∧ (s.core 0).pct.contains (s.pairOf ⟨0, 0, 26⟩) = true ∧ (s.core 0).overflow = []
      ∧ s.atPc ⟨0, 0, 26⟩ (.ofNum 27) = true ∧ (s.instrAt 0 0 (.ofNum 27)).any (fun i => i.scope == .none && s.present i (.ofNum 27) ⟨0, 0, 26⟩) = true)
    ∧ (let s := (tabled probe).modCore 0 (fun c => { c with icache := [] }); s.instrAt 0 0 (.ofNum 27) = none
      ∧ (⟨0, 0, 0⟩ : TRef) ∈ s.residents 0 ∧ s.atPc ⟨0, 0, 0⟩ (.ofNum 27) = true) := by decide +kernel
theorem witness_Scheduling : probe.withheld 0 = false ∧ (probe.modCore 323 (fun c => { c with droop := true })).withheld 323 = true
    ∧ ∃ i, gathering.instrAt 0 0 (.ofNum 27) = some i ∧ (((gathering.scopeOf i.scope (Machine.Instr.scopeGr i) ⟨0, 0, 0⟩).filter (gathering.present i (.ofNum 27))).length !=
        (gathering.scopeOf i.scope (Machine.Instr.scopeGr i) ⟨0, 0, 0⟩).length) = true :=
  ⟨by decide +kernel, by decide +kernel, found (by decide +kernel)⟩

/-- A team with one command, in its turn or ended, and a stalled thread. -/
def command (st : Option Nat) (pieces : List Nat) : Cmd :=
  { Cmd.fresh (.xfNeg { vec with f := 1 }) 0 with seq := 5, opa := .zero, opb := .ofInt 1, status := st, pieces := pieces, begun := !pieces.isEmpty, ranges := [{ cab := some 0, lo := 0, hi := 3, write := true }] }
def engaged (st : Option Nat) (pieces : List Nat) : State := probe.modBody 0 (fun b => { b with cmds := [command st pieces], nseq := 6 })
/-- MX.ZERO of the last tile. -/
def zeroing : Cmd := { command none [] with instr := .mxZero { vec with c := 8 }, opb := .zero, ranges := [] }
def tiled : State := probe.modBody 0 (fun b => { b with cmds := [zeroing], nseq := 6, tiles := List.replicate 9 Tile.zero })
theorem witness_EngineSteps_tile : tiled.cmd? 0 5 = some zeroing ∧ tiled.cmdReady 0 zeroing = true ∧ (tiled.team? 0).any (fun t => t.body.tiles.length == 9) = true
    ∧ (engaged none [80]).cmdReady 0 (command none [80]) = false ∧ (probe.team? 0).any (fun t => t.body.recs == []) = true := by decide +kernel
theorem witness_EngineSteps : (engaged none []).cmd? 0 5 = some (command none []) ∧ (engaged none []).cmdReady 0 (command none []) = true
    ∧ (engaged (some 0) []).cmd? 0 5 = some (command (some 0) [])
    ∧ (engaged none [80]).allCmds.find? (fun p => isRangeXf p.2.instr && p.2.pieces.contains 80 && (engaged none [80]).tellsOn 0 p.2) = some (0, command none [80])
    ∧ ∃ th, (probe.setRun ⟨0, 0, 26⟩ .lock).thread? ⟨0, 0, 26⟩ = some th ∧ (th.run == .lock) = true :=
  by and_intros <;> decide +kernel

/-- The words of a line. -/
def wordsOf (l : List (Nat × Int)) : List Word := (List.range 27).map (fun i => .ofInt ((assocGet l i).getD 0))
def memory (l : List (Nat × List (Nat × Int))) : List VLine := l.map (fun p => { vline .I 0 with slot := p.1, line := ⟨wordsOf p.2, false⟩ })
/-- A space whose record lies at address 0, and in which page 10 lies in frame 3 (R68–R72, R82). -/
def paged : State := { lone with vlines := memory [(0, [(0, 1936)]), (27, [(0, 2179)]), (36, [(0, 2422)]), (45, [(0, 4123)]), (54, [(10, 6682)])] }
def request (core : Nat) : WalkReq := { core := core, asrec := 0, part := 0, sys := true, va := .ofNum 21870, acc := .fetch, b := false }
def walking (s : State) (core : Nat) : State := s.modDie (core / 81) (fun d => { d with walks := [{ req := request core, joined := [] }], missq := [] })
theorem witness_FetchSteps : 3 < probe.dies.length
    ∧ (∀ core ∈ [0, 323], ((walking paged core).die (core / 81)).walks = [{ req := request core, joined := [] }] ∧ ((walking paged core).die (core / 81)).missq = []
      ∧ (let s := (walking paged core).modDie (core / 81) (fun d => { d with walks := [], missq := [] });
        s.tlbGet (Machine.WalkReq.ctx (request core)) (.ofNum 21870) = none
        ∧ (s.walkNow (Machine.WalkReq.ctx (request core)) (.ofNum 21870) .fetch false).2.isOk = true))
    ∧ (let s := (walking lone 0).modDie 0 (fun d => { d with walks := [], missq := [] });
      s.tlbGet (Machine.WalkReq.ctx (request 0)) (.ofNum 21870) = none
      ∧ (match s.walkNow (Machine.WalkReq.ctx (request 0)) (.ofNum 21870) .fetch false with | (_, .error e) => e != .busy | _ => false) = true)
    ∧ ∃ p, (mapped 0).translate ((mapped 0).fetchCtx 0 0 true) (.ofNum (27 * 810)) .fetch false = p
      ∧ (match p with | (s1, .ok x) => (s1.homeRead x.slot x.pin).any (fun q => !q.2.poison) | _ => false) = true :=
  ⟨by decide +kernel, by decide +kernel, by decide +kernel, ⟨_, rfl, by decide +kernel⟩⟩

/-- A fault for page 10 with no entry, or posted at slot 81, whose DONE word is `done`. -/
def unposted : FaultPost := { asrec := 0, page := 10, kind := 1, level := 1, core := 0, stamp := 0, entry := none, told := false, late := false, who := [.thread ⟨0, 0, 0⟩] }
def posted (done : Int) : State :=
  { probe.modThread ⟨0, 0, 0⟩ (fun th => { th with run := .parked }) with
    posts := [{ unposted with entry := some 81 }], vlines := [{ vline .I 0 with line := ⟨wordsOf [(26, done)], false⟩ }] }
/-- A list of two entries at slot 81, of which the given number are taken. -/
def listing (tail : Int) : State := { probe with posts := [unposted], vlines := memory [(0, [(4, 6561), (5, 2), (7, tail)])] }
/-- The chain of the walker's accesses succeeds. -/
def postRuns (s : State) : Bool :=
  match s.physRead 0 with
  | (s1, .ok rec) =>
    let slot := (intAt rec.w 4 / 81 + intAt rec.w 7 % intAt rec.w 5).toNat
    0 < intAt rec.w 5 && 0 ≤ intAt rec.w 4 && intAt rec.w 4 % 81 == 0 && (intAt rec.w 7 - intAt rec.w 6 < intAt rec.w 5) && (s1.physWhy slot).isNone && !s1.isB slot
    && (s1.homePut (81 * slot) ((List.range 27).zip ([.ofNum (2187 * unposted.page), wordAt rec.w 1, wordAt rec.w 3, .ofInt unposted.kind, .ofInt unposted.level,
        lowWord unposted.stamp, highWord unposted.stamp, .ofInt unposted.core, .ofInt unposted.cnt] ++ List.replicate 18 .zero))).any (fun s2 => (s2.homePut 0 [(7, .ofInt (intAt rec.w 7 + 1))]).isSome)
  | _ => false
theorem witness_FaultListSteps : (listing 1).posts.filter (fun q => q.asrec == 0 && (q.entry.isNone || q.late)) = [unposted] ∧ postRuns (listing 1) = true
    ∧ (match (listing 2).physRead 0 with | (_, .ok rec) => 0 < intAt rec.w 5 && 0 ≤ intAt rec.w 4 && intAt rec.w 4 % 81 == 0 && intAt rec.w 5 ≤ intAt rec.w 7 - intAt rec.w 6 | _ => false) = true
    ∧ (∀ d ∈ [(1 : Int), -1, 0], (posted d).posts.filter (fun p => p.entry == some 81) = [{ unposted with entry := some 81 }] ∧ intAt ((posted d).lineNow 81).w 26 = d)
    ∧ ∃ th, (posted 1).thread? ⟨0, 0, 0⟩ = some th ∧ (th.run == .parked) = true :=
  by and_intros <;> decide +kernel

/-- A shootdown in progress, of TLBF or of SDOP, that waits for a write or not. -/
def shooting (by_ : Option TRef) : State := { probe.setRun ⟨0, 0, 0⟩ (.shoot 3) with shoots := [{ id := 3, asrec := 0, kind := 1, page := .zero, by_ := by_, gen := 0 }] }
def late : HwReq := { slot := 81, op := .words [(0, .zero)], src := .pub 0 0 270, elig := none }
def shootingLate : State :=
  { shooting none with shoots := [{ id := 3, asrec := 0, kind := 1, page := .zero, by_ := none, gen := 0, waits := [late] }], agenda := [.homeHw late] }
theorem witness_ShootdownSteps : (∀ k ∈ [(1 : Int), 2, 3], (probe.startShoot 0 k .zero none).isSome = true ∧ ((probe.setCwInt 822 k).startShoot 0 k .zero none).isSome = true)
    ∧ ({ probe with vlines := [{ vline .I 0 with slot := 0, leased := true }] } : State).startShoot 0 1 .zero none = none
    ∧ (∀ w ∈ [none, some (⟨0, 0, 0⟩ : TRef)], ∃ x, (shooting w).shoots.find? (fun x => x.id == 3) = some x ∧ (!(shooting w).shootWaits x && x.by_ == w) = true)
    ∧ (∃ x, shootingLate.shoots.find? (fun x => x.id == 3) = some x ∧ shootingLate.shootWaits x = true)
    ∧ probe.ready = true ∧ probe.cwInt 822 = 0 ∧ probe.recordOk (probe.cwInt 820) = true ∧ (probe.setCwInt 820 1).recordOk ((probe.setCwInt 820 1).cwInt 820) = false
    ∧ (probe.setCwInt 822 3).cwInt 822 = 3 ∧ (probe.setCwInt 822 3).ready = true ∧ (probe.setCwInt 822 3).shoots = []
    ∧ ((shooting none).setCwInt 822 3).shoots.any (fun x => x.by_ == none) = true :=
  ⟨by decide +kernel, by decide +kernel, fun w h => by simp only [List.mem_cons, List.not_mem_nil, or_false] at h; rcases h with rfl | rfl <;> exact found (by decide +kernel),
    found (by decide +kernel), by decide +kernel, by decide +kernel, by decide +kernel, by decide +kernel, by decide +kernel, by decide +kernel, by decide +kernel, by decide +kernel⟩

def trapping (tvec : Word) : State := probe.modTeam 0 (fun t => { t with tvec := tvec, events := [event] })
/-- The same where class 19 kills nothing. -/
def sparing : State := (trapping .zero).setCwInt 7309 91
/-- A state under VIGIL: the squad has a shadow, which has the given instructions to execute and is found to disagree or not. -/
def shadowed (s : State) (trail : List VEntry) (bad : Bool) : State :=
  s.modBody 0 (fun b => { b with shadows := b.squads.map (fun q => { vals := q, last := q, trail := trail, diverged := bad }) })
def noSquad : Squad := Squad.launch (probeNode (.ofNum 27)) 0 0 0 0
def executed : VEntry := { instr := .nop one, pc := .ofNum 27, lanes := [0], pre := noSquad, post := noSquad, traps := [], outside := false }
theorem witness_TrapEntry : (∃ t, (trapping (.ofNum 54)).team? 0 = some t ∧ (t.handler.isNone && t.events == [event] && !t.saving && t.tvec != .zero && (t.body.squads[0]?).any (fun q => q.threads.length == 27)) = true)
    ∧ (∃ t, (trapping .zero).team? 0 = some t ∧ (t.handler.isNone && t.events == [event] && !t.saving && t.tvec == .zero) = true)
    ∧ (∀ w ∈ [Word.ofNum 54, .zero], (trapping w).shadowBad 0 event.squad = false ∧ (trapping w).shadowBehind 0 event.squad = false)
    ∧ (shadowed (trapping .zero) [executed] false).shadowBehind 0 event.squad = true ∧ (shadowed (trapping .zero) [executed] false).shadowBad 0 event.squad = false
    ∧ ((trapping .zero).raise ((trapping .zero).teamEvent 19 0 0 .zero 0)).team? 0 = none ∧ sparing.team? 0 = (trapping .zero).team? 0
    ∧ (sparing.raise (sparing.teamEvent 19 0 0 .zero 0)).team? 0 ≠ none :=
  by and_intros <;> decide +kernel

/-- A line at its home and copies of it. -/
def homed (v : VLine) (l : List Copy) : State := { State.reset with vlines := [v], copies := l }
/-- A frame of format B, and a retired one. -/
def binFrame : State := State.reset.setFrame 3 1
/-- Partition 0 is being reset. -/
def resetting : State := State.reset.setCwInt 21000 (-1)
theorem witness_HomeRequests : (homed (vline .I 0) []).vl 81 = some (vline .I 0) ∧ (vline .I 0).leased = false ∧ (vline .I 0).txn = none
    ∧ (State.reset.physWhy slotCount = some 6 ∧ (State.reset.setFrame 3 2).physWhy 81 = some 5)
    ∧ (health (vline .I 0).flips ((homed (vline .I 0) []).isB 81 && badGroup (vline .I 0).line) = .sound ∧ (homed (vline .I 0) []).fillq = [])
    ∧ ((homed (vline .I 0) []).refusal 81 (.rds 205 false) = none ∧ binFrame.refusal 81 (.rds 324 true) = none
      ∧ (homed (vline .I 0) []).refusal 81 (.rdx 205 false (.words [])) = none ∧ (homed (vline .S 0) []).refusal 81 (.upg 0 false (.words [])) = none
      ∧ (homed (vline .I 0) []).refusal 81 (.hw { slot := 81, op := .words [], src := .log, elig := none }) = none
      ∧ binFrame.refusal 81 (.hr { slot := 81, src := .host 0 false 127 1, fmt := some true }) = none)
    ∧ (((homed (vline .I 0) []).putVl (vline .I 0)).roomCopy 205 81).isSome = true ∧ (homed (vline .I 0) []).copy 205 81 = none
    ∧ (homed (vline .S 0) [copyAs .S false]).copy 0 81 = some (copyAs .S false) ∧ (∀ b ∈ (vline .S 0).sharers, b = 0)
    ∧ (∀ st ∈ [LSt.M, .O, .E, .S], (homed (vline .M 0) [copyAs st false]).copy 0 81 = some (copyAs st false)) ∧ (vline .M 1).owner ≠ 0 ∧ (homed (vline .M 1) []).copy 0 81 = none
    ∧ (homed { vline .M 0 with txn := some { req := .rds 1 false, await := [0], awaitDies := [], supplied := false } } []).vl 81 ≠ none
    ∧ ((copyAs .M false).leased = false ∧ (copyAs .M false).flips = [] ∧ (homed (vline .I 0) []).inReset 81 = false ∧ resetting.inReset 81 = true) :=
  by and_intros <;> decide +kernel

def snooping (await dies : List Nat) : State :=
  { homed { vline .M 0 with txn := some { req := .rds 1 false, await := await, awaitDies := dies, supplied := false } } [] with
    dies := [{ Die.reset with filter := [(81, [3, 7])] }, Die.reset, Die.reset, Die.reset] }
/-- The image of a line that is not the reset one, stored at slot 81, and zero bytes, which are no image. -/
def stored : State := match exec (.hbmWrite 81 ⟨wordsOf [(26, 5)], false⟩ false) State.reset with | .next t => t | _ => State.reset
def spoilt : State := { State.reset with hbm := ((List.range 160).map (fun i => (160 * 81 + i, (0 : BitVec 8)))).filter (fun p => hbmDefault p.1 != p.2) }
theorem witness_SnoopsAndSlices : (homed (vline .M 0) [copyAs .M false]).copy 0 81 = some (copyAs .M false) ∧ (homed (vline .M 0) [copyAs .M true]).copy 0 81 = some (copyAs .M true)
    ∧ ((snooping [0, 2] []).vl 81).bind (·.txn) = some { req := .rds 1 false, await := [0, 2], awaitDies := [], supplied := false }
    ∧ (let u : VLine := { vline .M 0 with line := ⟨wordsOf [(0, 1)], false⟩, vdirty := true, txn := none };
      ((snooping [0] []).copy 1 81 = none ∧ (((snooping [0] []).putVl u).roomCopy 1 81).isSome = true))
    ∧ ((assocGet ((snooping [] [0]).die 0).filter 81).getD []).filter (fun (a : Nat) => some a != (Req.rds 1 false).agent && !([] : List Nat).contains a) = [3, 7]
    ∧ (State.reset.physWhy 81 = none ∧ State.reset.vl 81 = none ∧ (State.reset.sameSet 81).length < 27 ∧ State.reset.fillq = [])
    ∧ (let v := { vline .I 0 with vdirty := true }; (homed v []).evictable v = true ∧ Memory.wf (homed v []).hbm = true ∧ (homed v []).copies = [] ∧ v.line.poison = false
      ∧ health v.flips ((homed v []).isB 81 && badGroup v.line) = .sound ∧ v.line.w.length = 27)
    ∧ (hbmUntouched stored.hbm 81 = false ∧ hbmUntouched spoilt.hbm 81 = false)
    ∧ ((copyAs .M false).flips = [] ∧ (copyAs .M false).back = false ∧ (vline .M 0).queue = [] ∧ ([0, 2] : List Nat).erase 2 ≠ []
      ∧ (State.reset.isB 81 && badGroup ⟨wordsOf [(0, 1)], false⟩) = false)
    ∧ (let v := { vline .M 0 with vdirty := false }; (homed v [copyAs .M false]).evictable v = true ∧ ((homed v [copyAs .M false]).dirtyCopy 81).isSome = true)
    ∧ (∀ q ∈ [Req.hw { slot := 81, op := .words [], src := .log, elig := none }, .hr { slot := 81, src := .prefetch }],
      State.reset.refusal 81 q = none ∧ ({ State.reset with fillq := [(81, none, q)] } : State).physWhy 81 = none)
    ∧ (State.reset.isB 81 && badGroup (State.reset.hbmFetch 81).2.line) = false :=
  by and_intros <;> decide +kernel
theorem witness_SnoopsAndSlices_read : (let r := readImage (stored.isB 81) (stored.tablesOf 81) (hbmSlot stored.hbm 81); r.bad = false ∧ r.fixed = 0)
    ∧ (let r := readImage (spoilt.isB 81) (spoilt.tablesOf 81) (hbmSlot spoilt.hbm 81); r.bad = true ∨ r.fixed ≠ 0) := by decide +kernel

theorem witness_HostWindows : (State.reset.setCwInt 19683 0).ready = false ∧ State.reset.ready = true ∧ bootWords (8 * 19683) 24 = true
    ∧ (slotCount ≤ 128 * slotCount / 128 ∧ 128 * slotCount % 128 + [(5 : BitVec 8)].length ≤ 128)
    ∧ (0 < 1 ∧ (160 * 81 + 159) % 160 + 1 ≤ 160 ∧ (160 * 81 + 159) / 160 < slotCount ∧ State.reset.frame ((160 * 81 + 159) / 160 / 27) < 2
      ∧ (State.reset.setFrame 3 2).frame ((160 * 81 + 159) / 160 / 27) = 2 ∧ State.reset.inReset ((160 * 81 + 159) / 160) = false)
    ∧ ((128 * 81 + 127) % 128 + [(5 : BitVec 8)].length ≤ 128 ∧ (128 * 81 + 127) / 128 < slotCount ∧ binFrame.isB ((128 * 81 + 127) / 128) = true ∧ State.reset.isB ((128 * 81 + 127) / 128) = false
      ∧ binFrame.inReset ((128 * 81 + 127) / 128) = false ∧ resetting.inReset ((128 * 81 + 127) / 128) = true ∧ resetting.ready = true)
    ∧ ((160 * 81 + 159) % 160 + 1 ≤ 160 ∧ State.reset.stage? 1 ((160 * 81 + 159) / 160) = none ∧ State.reset.staging = [])
    ∧ (stagedOk ((imageT zeroLine).map (fun b => (BitVec.ofNat 8 b).toNat)) = true ∧ ((imageT zeroLine).map (BitVec.ofNat 8)).length = 160 ∧ State.reset.isT 81 = true)
    ∧ ({ State.reset with staging := [⟨1, 81, 0, []⟩], cycle := 2100000 } : State).stage? 1 81 = some ⟨1, 81, 0, []⟩ :=
  by and_intros <;> decide +kernel

def sampling (ready : Option (List Int)) : State := State.reset.modDie 3 (fun d => { d with denom := { d.denom with sampling := true, ready := ready } })
theorem witness_DenominationsAndFrames : 3 < State.reset.dies.length ∧ ((sampling none).die 3).denom.sampling = true ∧ ((sampling none).die 3).denom.ready = none
    ∧ ((sampling (some [1, 0, -1])).die 3).denom.ready = some [1, 0, -1] ∧ (sampling (some [1, 0, -1])).compressedSlots 3 ((sampling (some [1, 0, -1])).die 3).denom.target = []
    ∧ State.reset.chFrame = some 0 ∧ (frameSlots 0).any State.reset.busy = false ∧ State.reset.frame 0 < 2 ∧ Memory.wf State.reset.hbm = true
    ∧ (State.reset.setCwInt 6650 (-1)).chFrame = none ∧ State.reset.cwInt 6651 = 0 ∧ (∀ op ∈ [(1 : Int), 2, 3, 4, -1, -2], (State.reset.setCwInt 6651 op).cwInt 6651 = op
      ∧ (State.reset.setCwInt 6651 op).chFrame = some 0 ∧ (State.reset.setCwInt 6651 op).ready = true) ∧ (State.reset.patrolled.scores.map (·.1)).Nodup :=
  by and_intros <;> decide +kernel

/-- A graph in slot 26 of two nodes at physical address 81 × 81, of which the given ones run; their words lie at slots 81 and 82, a
collective's descriptor at slot 83 and its rank list at slot 84. -/
def graphOf (running : List Nat) (l0 l1 : List (Nat × Int)) : Graph :=
  { slot := 26, counts := [], running := running, pending := [], ending := false, work := [], watch := [], lines := [(0, wordsOf l0), (1, wordsOf l1)] }
def graphed (state : Int) (running : List Nat) (l0 l1 : List (Nat × Int)) : State :=
  let s := (((mapped 0).setCwInt 807 6561).setCwInt 808 2).setCwInt 809 state
  { s.modDie 0 (fun d => { d with tlb := (s.core 0).tlb }) with
    graphs := if running = [] then [] else [graphOf running l0 l1],
    vlines := memory [(81, l0), (82, l1)] }
/-- A condition node of one signal, an end node, and a collective node of an all-reduce. -/
def condNode (signals : Int) : List (Nat × Int) := [(0, 4), (1, -1), (2, -1), (3, -1), (4, signals), (5, va 21870)]
def endNode : List (Nat × Int) := [(0, -4), (1, -1), (2, -1), (3, -1), (4, 1)]
def collNode (desc : Int) : List (Nat × Int) := [(0, 3), (5, desc), (6, 1)]
/-- The same where the collective has one member and a count. -/
def collGraph (desc count : Int) : State :=
  let s := graphed 1 [0] (collNode desc) endNode
  { s with vlines := s.vlines ++ memory [(83, [(1, va 21870), (2, va 48621870), (3, count), (5, 6804), (6, 1)]), (84, [(0, (s.rank : Int))])] }
/-- What is read at the slot is some line, which passes a test. -/
def readsAt (s : State) (slot : Nat) (P : State → List Word → Bool) : Bool := match s.walkerRead slot with | (s1, some l) => P s1 l | _ => false
theorem witness_GraphSteps :
    ((∀ k ∈ [(0 : Int), -1], (graphed k [] (condNode 1) endNode).graphState 26 ≠ 1 ∧ (graphed k [] (condNode 1) endNode).graph? 26 = none ∧ (graphed k [] (condNode 1) endNode).cwInt 807 = 6561
        ∧ readsAt ((graphed k [] (condNode 1) endNode).armed 26) ((graphed k [] (condNode 1) endNode).nodeAddr 26 0 / 81) (fun _ l => nodeOk 2 l) = true)
      ∧ ((graphed 0 [] [] []).setCwInt 807 6562).cwInt (729 + 3 * 26) % 81 ≠ 0 ∧ State.reset.ready = true)
    ∧ (∀ l ∈ [[(0, 1)], [(0, 2), (5, va 21870), (6, va 21951), (7, 1)], collNode 6723, condNode 1, [(0, -1), (5, va 21870)], [(0, -2), (5, va 21870), (8, 1)], [(0, -2), (5, va 21870), (8, -1)],
        [(0, -3), (5, va 21870), (8, 728)]], (graphed 1 [0] l endNode).nodeRuns 26 0 = true ∧ (graphed 1 [0] l endNode).nodeWords 26 0 = wordsOf l)
    ∧ ((let s := graphed 1 [0] [(0, 2), (5, va 21870), (6, va 21951), (7, 1)] endNode; match s.nodeReadLine (s.nodeCtx 26 0) (.ofNum 21870) with
        | (s1, .ok w) => (s1.nodeWrite (s.nodeCtx 26 0) (.ofNum 21951) ((List.range 27).zip w)).2.isOk | _ => false) = true)
    ∧ (∀ l ∈ [condNode 1, [(0, -1), (5, va 21870)]], (let s := graphed 1 [0] l endNode; (s.nodeRead (s.nodeCtx 26 0) (.ofNum 21870)).2.isOk) = true)
    ∧ (∀ k ∈ [(1 : Int), -1], (let s := graphed 1 [0] [(0, -2), (5, va 21870), (8, k)] endNode; match s.nodeReadAt (s.nodeCtx 26 0) (.ofNum 21870) true with
        | (_, .ok (_, w)) => codeHolds k (Int.sign (intAt w (wordOf (.ofNum 21870)) - 0)) == (k == -1) | _ => false) = true)
    ∧ ((let s := graphed 1 [0] [(0, -3), (5, va 21870), (8, 728)] endNode; (s.nodeWrite (s.nodeCtx 26 0) (.ofNum 21870) [(0, .zero)]).2.isOk) = true) :=
  by and_intros <;> decide +kernel
theorem witness_GraphSteps_collective :
    (∀ count ∈ [(0 : Int), 14348907], (let s := collGraph 6723 count; s.exch? (.node 26 0) = none ∧ readsAt s 83 (fun s1 w => !collRefused 1 w s1.rank && (match s1.nodeRanks 1 w with
        | (s2, some ranks) => !listRefused 1 w ranks s2.rank && decide (ranks.length ≤ 1) | _ => false)) = true))
    ∧ (match (collGraph (81 * slotCount) 0).walkerRead slotCount with | (_, none) => true | _ => false) = true := by decide +kernel
/-- An end node has been released among the given running nodes, of which some are left from an earlier run. -/
def endingGraph (running old : List Nat) : State :=
  { graphed 1 running (condNode 1) endNode with graphs := [{ graphOf running (condNode 1) endNode with ending := true, old := old }] }
theorem witness_GraphSteps_end :
    ((endingGraph [1] []).graph? 26 = some { graphOf [1] (condNode 1) endNode with ending := true } ∧ (endingGraph [1] []).graphState 26 = 1
      ∧ (endingGraph [1] []).otherNodes 26 { graphOf [1] (condNode 1) endNode with ending := true } = []
      ∧ readsAt ((endingGraph [1] []).modGraph 26 (fun x => { x with counts := [], pending := [], ending := false, running := [] })) 81 (fun _ l => nodeOk 2 l) = true
      ∧ intAt ((endingGraph [1] []).nodeWords 26 1) 0 = -4 ∧ ((endingGraph [1] [1]).graph? 26).any (fun g => g.old.contains 1) = true)
    ∧ ((endingGraph [0, 1] []).otherNodes 26 { graphOf [0, 1] (condNode 1) endNode with ending := true } = [0])
    ∧ ((graphed 1 [1] (condNode 1) endNode).graph? 26 = some (graphOf [1] (condNode 1) endNode) ∧ (graphed 1 [1] (condNode 1) endNode).graphState 26 = 1
      ∧ intAt ((graphed 1 [1] (condNode 1) endNode).nodeWords 26 1) 0 = -4
      ∧ readsAt ((graphed 1 [1] (condNode 1) endNode).modGraph 26 (fun x => { x with counts := [], pending := [], ending := false, running := [] })) 81 (fun _ l => nodeOk 2 l) = true)
    ∧ ((graphed 1 [0, 1] (condNode 1) endNode).graph? 26 = some (graphOf [0, 1] (condNode 1) endNode)
      ∧ ((graphed 1 [0, 1] (condNode 1) endNode).otherNodes 26 (graphOf [0, 1] (condNode 1) endNode)).all (graphOf [0, 1] (condNode 1) endNode).old.contains = false)
    ∧ ∀ k ∈ [(1 : Int), 27], (let s := graphed 1 [1] (condNode k) endNode; readsAt (s.nodeOff 26 1) (s.nodeAddr 26 0 / 81) (fun s1 l => intAt l 4 == k
        && readsAt (s1.modGraph 26 (fun x => { x with counts := assocDel x.counts 0 })) (s.nodeAddr 26 0 / 81) (fun _ l => nodeOk 2 l)) = true) := by decide +kernel

/-- A node of single teams of 9 registers and nothing else, with given tiles and priority; a grid of it with some teams still to place. -/
def tinyNode (tiles prio : Int) : List Word :=
  [(10, (9 : Int)), (11, 0), (12, tiles), (13, 0), (14, 0), (15, 1), (17, 68), (18, prio)].foldl (fun (l : List Word) p => setNth l p.1 (.ofInt p.2)) (probeNode (.ofNum 27))
def tinyGrid (num : Nat) (next live : Nat) (tiles prio : Int) : Grid :=
  { num := num, src := none, part := 0, node := tinyNode tiles prio, nodeAddr := 0, next := next, live := live, err := false, killed := false, merging := false, deferred := [],
    prepared := [], unack := 0, told := false }
/-- The device whose partition 0 has the one cluster of cores 0 … 8. -/
def smallPart : State := ((((State.reset.setCwInt 21001 1).setCwInt 21002 0).setCwInt 21003 0).setCwInt 21004 0)
def unplaced : State := { smallPart with grids := [tinyGrid 4 0 0 0 0] }
/-- Nine teams hold all tiles of the cluster, and a grid of higher priority waits. -/
def crowded : State :=
  { (smallPart.setCwInt 811 1000) with grids := [tinyGrid 4 1 9 9 0, tinyGrid 5 0 0 9 1], teams := (List.range 9).map (fun n => Team.launch n 4 n n 0 0 0 n 0 (tinyNode 9 0)) }
/-- A team that is being saved; a saved team; a team that has ended. -/
def tinyTeam : Team := Team.launch 0 4 0 0 0 0 0 0 0 (tinyNode 0 0)
def resident (t : Team) : State := { smallPart.setCwInt 811 100 with grids := [tinyGrid 4 1 1 0 0], teams := [t] }
def saver : State := resident { tinyTeam with saving := true }
def saved : State := { resident tinyTeam with teams := [], saved := [{ line := 0, lines := 30, team := tinyTeam }] }
def ended : State :=
  resident { tinyTeam with ending := true, body := { tinyTeam.body with squads := tinyTeam.body.squads.map (fun q => { q with threads := q.threads.map (fun th => { th with run := .exited }) }) } }
def finished (status : Word) : State :=
  { (mapped 0).modDie 0 (fun d => { d with tlb := ((mapped 0).core 0).tlb }) with grids := [{ tinyGrid 4 1 0 0 0 with node := setNth (tinyNode 0 0) 22 status }], teams := [] }

theorem some_of {α : Type} {o : Option α} (h : o.isSome = true) : ∃ x, o = some x := Option.isSome_iff_exists.1 h

theorem witness_PlacementSteps_place : unplaced.grid? 4 = some (tinyGrid 4 0 0 0 0) ∧ (tinyGrid 4 0 0 0 0).waiting = true ∧ unplaced.saved = [] ∧ unplaced.outranked (tinyGrid 4 0 0 0 0) = false
    ∧ (∃ t, unplaced.placeUnit (tinyGrid 4 0 0 0 0) = some t) ∧ (tinyGrid 4 0 0 0 0).coop = false ∧ intAt (tinyGrid 4 0 0 0 0).node 19 = 1 :=
  ⟨by decide +kernel, by decide +kernel, rfl, by decide +kernel,
    some_of (by rw [placeUnit_one _ _ (by decide +kernel) (by decide +kernel) (by decide +kernel)]; decide +kernel), by decide +kernel, by decide +kernel⟩

theorem witness_PlacementSteps_preempt : crowded.grid? 5 = some (tinyGrid 5 0 0 9 1) ∧ crowded.hasWork (tinyGrid 5 0 0 9 1) = true
    ∧ crowded.freed.placeNext (tinyGrid 5 0 0 9 1) = none
    ∧ crowded.victimsFor (tinyGrid 5 0 0 9 1) = some [0]
    ∧ crowded.poolTakes (crowded.teams.filter (fun (t : Team) => ([0] : List Nat).contains t.num)) = true := by
  refine ⟨by decide +kernel, by decide +kernel, ?_, ?_, by decide +kernel⟩
  · rw [← Option.not_isSome_iff_eq_none, placeNext_fresh _ _ rfl (by decide +kernel), placeUnit_one _ _ (by decide +kernel) (by decide +kernel) (by decide +kernel)]; decide +kernel
  · have hf : ∀ l : List Team, ({ crowded.freed with teams := l } : State).placeNext (tinyGrid 5 0 0 9 1)
        = ({ crowded.freed with teams := l } : State).placeUnit (tinyGrid 5 0 0 9 1) := fun l => placeNext_fresh _ _ rfl (by decide +kernel)
    simp only [State.victimsFor, State.victims, hf, fun (s : State) => placeUnit_one s (tinyGrid 5 0 0 9 1) (by decide +kernel) (by decide +kernel) (by decide +kernel)]
    decide +kernel

theorem witness_PlacementSteps_save : (∃ t, saver.team? 0 = some t ∧ (t.saving && !t.ending && !saver.draining t) = true)
    ∧ (let s1 := ((saver.threadsOf 0).foldl (fun (u : State) (p : TRef × Thread) => u.saveThread p.1) (saver.recallPubs 0)).sweepLeases
      (∃ t, s1.team? 0 = some t ∧ ((s1.poolPlace (s1.imageSize t)) == some 0 && (s1.putLines ((s1.cwInt 810).toNat / 81 + 0) (s1.saveImage t)).isSome) = true)
      ∧ (s1.teams.all (fun x => x.handler.isNone) && physLine (s1.cwInt 810)) = true) :=
  ⟨found (by decide +kernel), found (by decide +kernel), by decide +kernel⟩

/-- The saved team, the state once its image is read, and the team as the image has it. -/
def asleepTeam : Saved := { line := 0, lines := 30, team := tinyTeam }
def fetched : State := (saved.getImages (saved.restoredWith asleepTeam (tinyGrid 4 1 1 0 0))).getD saved
def woken : Saved := fetched.saved.headD asleepTeam
theorem witness_PlacementSteps_restore : saved.saved[0]? = some asleepTeam ∧ saved.grid? 4 = some (tinyGrid 4 1 1 0 0) ∧ saved.teams = [] ∧ saved.outranked (tinyGrid 4 1 1 0 0) = false
    ∧ (saved.getImages (saved.restoredWith asleepTeam (tinyGrid 4 1 1 0 0))).isSome = true ∧ fetched.saved.find? (fun x => x.team.num == 0) = some woken
    ∧ fetched.restoredWith { asleepTeam with team := woken.team } (tinyGrid 4 1 1 0 0) = [woken]
    ∧ ∃ t, fetched.placeCrew (tinyGrid 4 1 1 0 0).node (fetched.partCores 0) [restoreOn woken] = some t :=
  ⟨rfl, by decide +kernel, rfl, by decide +kernel, by decide +kernel, by decide +kernel, by decide +kernel,
    some_of (by rw [placeCrew_one _ _ _ _ (by decide +kernel)]; decide +kernel)⟩

theorem witness_PlacementSteps_end : (∃ t, ended.team? 0 = some t ∧ (t.ending && t.body.cmds == [] && t.pubs == [] && t.body.escrow == [] && t.body.parts == []
      && ended.teams.all (fun x => x == t)) = true) ∧ ended.liveThreads 0 = [] ∧ ended.piecesOn 0 = false ∧ (∀ p ∈ ended.threadsOf 0, p.2.unackSyn = 0)
    ∧ (∀ w ∈ [Word.zero, .ofInt (va 21870)], ∃ g, (finished w).grid? 4 = some g ∧ (!g.killed && g.live == 0 && !g.waiting && g.unack == 0 && g.deferred == [] && wordAt g.node 22 == w) = true)
    ∧ ((let s := finished (.ofInt (va 21870)); (s.nodeWrite { core := 324, asrec := 0, part := 0, sys := true } (.ofInt (va 21870)) [(wordOf (.ofInt (va 21870)), .ofInt 1)]).2.isOk) = true) :=
  ⟨found (by decide +kernel), by decide +kernel, by decide +kernel, by decide +kernel, fun w h => by
    simp only [List.mem_cons, List.not_mem_nil, or_false] at h; rcases h with rfl | rfl <;> exact found (by decide +kernel), by decide +kernel⟩

/-- The deferred entries of one team of a grid that has ended. -/
def deferring : Grid :=
  { tinyGrid 4 1 0 0 0 with deferred := [{ lin := 0, escrow := [eline 0 5], parts := [] }] }
def covered : State := probe.modTeam 0 (fun t => { t with opened := some t.body, covered := true })
theorem witness_MergeAndRollback :
    ((finished .zero).modGrid 4 (fun _ => deferring)).grid? 4 = some deferring ∧ deferring.killed = false ∧ deferring.live = 0 ∧ deferring.deferred ≠ []
    ∧ ((finished .zero).modGrid 4 (fun _ => deferring)).phaseStands 4 = false
    ∧ ((match ((((finished .zero).modGrid 4 (fun _ => deferring)).modGrid 4 (fun (x : Grid) => { x with merging := true })).freshAll 4) with
        | ⟨s1, [], [], [], false⟩ => (recordWords (((s1.grid? 4).map (·.desk)).getD []) (ordinaryWords (s1.contribs 4))).clash.isEmpty | _ => false) = true)
    ∧ ((finished .zero).modGrid 4 (fun _ => deferring)).lostTeams 4 = []
    ∧ (∃ t, covered.team? 0 = some t ∧ (t.opened == some t.body && !t.handedOn && (covered.readPool t).2 && t.covered && !t.irrevocable && decide (t.rbHere < 3) && t.pubs == []
        && (t.body.squads[0]?).any (fun q => (q.threads[26]?).any (fun th => th.wins == []))) = true)
    ∧ (∀ p ∈ covered.threadsOf 0, p.2.leases = []) ∧ covered.shadowBad 0 0 = false ∧ (shadowed probe [] true).shadowBad 0 0 = true :=
  by and_intros <;> decide +kernel

/-- A flit of a broadcast from rank 1 with tag 9; the exchange of command 5 with that tag, whose root is a given rank. -/
def flit (ty src dst idx : Nat) : Flit :=
  { ty := ty, src := src, dst := dst, tag := 9, idx := idx, slot := 81, line := zeroLine, mask := [], kth := 0, key := [0, 1], sig := [4, 1, 0, 0, 0, 1], rep := 0 }
def exchange (root : Int) : Exch :=
  { who := .cmd 0 5, f := 4, desc := [(1, va 21870), (2, va 21951), (3, 1), (7, root), (8, 9)].foldl (fun (l : List Word) p => setNth l p.1 (.ofInt p.2)) (List.replicate 27 .zero),
    ranks := [0, 1], det := false, kth := 0, begun := true, asked := 1, got := [], res := [], wrote := [], served := [], ended := false, rep := 0 }
def collecting (root : Int) : State :=
  { (mapped 0).modBody 0 (fun b => { b with cmds := [{ command none [] with instr := .collBc vec, begun := true }], nseq := 6 }) with exch := [exchange root] }
def sending (k : Nat) : State :=
  { probe.modBody 0 (fun b => { b with cmds := [{ command none [] with instr := .copyPeer vec, begun := true, outstanding := k }], nseq := 6 }) with
    flits := [{ flit 0 0 1 3 with tag := (ticketOf 0 5).val, owner := some (0, 5) }] }
theorem witness_FabricSteps : ({ flit 0 1 0 0 with bad := some 47 } : Flit).bad = some 47 ∧ (flit 1 1 0 0).bad = none ∧ (flit 2 1 0 0).bad = none ∧ (flit 3 1 0 3).bad = none
    ∧ (State.reset.exchOf (flit 1 1 0 0) = none ∧ (collecting 0).exchOf (flit 1 1 0 0) = some (exchange 0) ∧ (exchange 0).ended = false ∧ (collecting 0).exchLost (exchange 0) = false)
    ∧ ((exchange 0).sig = [4, 1, 0, 0, 0, 0] ∧ (exchange 1).sig = (flit 1 1 0 0).sig ∧ (collecting 0).exchWaits (exchange 0) = false ∧ (exchange 0).reduces = false
      ∧ ((collecting 0).collLine (exchange 0) 0).2.isOk = true)
    ∧ ((collecting 1).exchOf (flit 2 1 0 0) = some (exchange 1) ∧ (exchange 1).ended = false ∧ (collecting 1).exchLost (exchange 1) = false ∧ (flit 2 1 0 0).sig = (exchange 1).sig
      ∧ ((exchange 1).posOf 1, 0) ∈ (exchange 1).needs ((exchange 1).posOf (collecting 1).rank) ∧ (exchange 1).gotLine ((exchange 1).posOf 1) 0 = none)
    ∧ (∀ k ∈ [1, 2], ((sending k).flits.find? (fun q => Flit.answers { flit 3 1 0 3 with tag := (ticketOf 0 5).val } q)).bind (·.owner) = some (0, 5)
      ∧ ∃ c, (sending k).cmd? 0 5 = some c ∧ (c.outstanding == k && c.status.isNone) = true)
    ∧ 8 < State.reset.stamps.length
    ∧ (State.reset.action 25 656 = 2 ∧ (State.reset.setCwInt 6601 1).action 25 656 = 2 ∧ 0 < (State.reset.setCwInt 6601 1).cwInt 6601
      ∧ State.reset.hushed 656 = false ∧ 0 ≤ (State.reset.setCwInt 6601 1).cwInt 6600
      ∧ ({ State.reset.setCwInt 6601 1 with logq := [⟨656, []⟩] } : State).logq = [⟨656, []⟩] ∧ 0 ≤ (State.reset.setCwInt 6601 1).cwInt 6602
      ∧ (State.reset.setCwInt 6601 1).cwInt 6602 + (State.reset.setCwInt 6601 1).logsPending - (State.reset.setCwInt 6601 1).cwInt 6603 < (State.reset.setCwInt 6601 1).cwInt 6601)
    ∧ (47 ∉ State.reset.down ∧ (List.range 9).find? (fun (p : Nat) => trit (State.reset.partWord p (7 + 47 / 24)) (47 % 24) == 1) = some 0
      ∧ ({ State.reset with down := [47] } : State).portUp 0 none = true ∧ ({ State.reset with down := List.range 48 } : State).portUp 0 none = false) := by
  refine ⟨rfl, rfl, rfl, rfl, by decide +kernel, by decide +kernel, by decide +kernel, ?_, by decide +kernel, by decide +kernel, by decide +kernel⟩
  intro k hk
  simp only [List.mem_cons, List.not_mem_nil, or_false] at hk
  rcases hk with rfl | rfl <;> exact ⟨by decide +kernel, found (by decide +kernel)⟩

theorem witness_PowerSteps : (State.reset.cwInt 20011 - 90 < ([8911, 0, 0, 0] : List Int).sum ∧ State.reset.cwInt 20011 - 90 = ([8910, 0, 0, 0] : List Int).sum
      ∧ ([8549, 0, 0, 0] : List Int).sum < State.reset.cwInt 20011 - 450 ∧ State.reset.cwInt 20011 - 450 ≤ ([8550, 0, 0, 0] : List Int).sum)
    ∧ ((∃ x ∈ ([101, 0, 0, 0] : List Int), State.reset.cwInt 20014 < x) ∧ (∀ x ∈ ([98, 0, 0, 0] : List Int), x ≤ State.reset.cwInt 20014 - 2)
      ∧ (∀ x ∈ ([100, 99, 0, 0] : List Int), x ≤ State.reset.cwInt 20014) ∧ ∃ x ∈ ([99, 0, 0, 0] : List Int), State.reset.cwInt 20014 - 2 < x)
    ∧ 323 < 324 ∧ State.reset.issue = [] ∧ State.reset.agenda = [] :=
  by and_intros <;> decide +kernel

def stopped : State := State.reset.setCwInt 21000 0
/-- Partition 0 is being reset, with or without a grid of it that completes. -/
def emptying (keep : Bool) (l : List Instr) : State := { (State.reset.setCwInt 21000 (-1)) with resets := [(0, keep)], grids := [tinyGrid 4 1 0 0 0], agenda := l }
theorem witness_ResetSteps_second : ∀ keep ∈ [true, false], (∀ l ∈ [[], [Instr.gridCompletion 4]], (emptying keep l).resets.find? (fun r => r.1 == 0) = some (0, keep))
    ∧ (emptying keep []).completes 0 = false ∧ (emptying keep [.gridCompletion 4]).completes 0 = true ∧ ((emptying keep []).endContexts 0).partSlot 0 0 = true
    ∧ ((emptying keep []).endContexts 0).frame (0 / 27) = 0 ∧ (emptying keep []).copies = [] ∧ (emptying keep []).vlines = []
    ∧ 0 < ((emptying keep []).endContexts 0).stamps.length := by decide +kernel
theorem witness_ResetSteps : State.reset.resets = [] ∧ (State.reset.grids.map (·.num)).Nodup ∧ trit (State.reset.partWord 0 10) 0 = 1 ∧ State.reset.nv.bootSlot = none ∧ State.reset.nv.sound = true ∧ ({ State.reset.nv with sound := false } : NonVol).sound = false
    ∧ field (State.reset.partWord 0 0) 1 0 ≠ 0 ∧ 0 < State.reset.stamps.length ∧ State.reset.partSlot 0 0 = true ∧ State.reset.frame (0 / 27) < 2
    ∧ (State.reset.setFrame 0 2).frame (0 / 27) = 2 ∧ State.reset.partSlot 8 0 = false
    ∧ (State.reset.partTable 0).running = true ∧ (stopped.partTable 0).running = false ∧ PartTable.ok [1, 9841, 0, 0, 0, 0, 12, 0, 0, 4, 1, 0] = true
    ∧ PartTable.running [1, 9841, 0, 0, 0, 0, 12, 0, 0, 4, 1, 0] = true ∧ (∀ q, q < 9 → q ≠ 0 → (stopped.partTable q).running = false) :=
  by and_intros <;> decide +kernel

theorem witness_DeviceWords : State.reset.ready = true ∧ plainWord State.reset 824 728 = true ∧ plainWord State.reset 824 729 = false ∧ plainWord State.reset 0 1 = false
    ∧ State.reset.nv.lcs = -1 ∧ ({ State.reset.nv with lcs := 0 } : NonVol).lcs = 0 ∧ ({ State.reset.nv with lcs := 2 } : NonVol).lcs = 2
    ∧ (State.reset.setCwInt 19683 0).ready = false
    ∧ ((State.reset.setCwInt 19800 8).ready = true ∧ (State.reset.setCwInt 19800 8).cwInt 19800 = 8 ∧ (State.reset.setCwInt 19800 4).cwInt 19800 = 4)
    ∧ (State.reset.cwInt 19790 ≠ 1 ∧ State.reset.cwInt 19684 = -1 ∧ (State.reset.setCwInt 19684 1).cwInt 19684 = 1 ∧ (State.reset.setCwInt 19684 1).ready = true ∧ State.reset.cwInt 19788 = 0 ∧ (State.reset.setCwInt 19684 2).cwInt 19684 = 2)
    ∧ (let s := [0, 1, 2, 3, 4].foldl (fun (s : State) (f : Nat) => s.setFrame f 1) State.reset; ∀ i : Nat, i < 131 → 0 + i < slotCount ∧ s.isB (0 + i) = true)
    ∧ (let s := { State.reset with report := some { slot := 0, body := [] } }; ∀ b, (List.range 131).foldl (fun (o : Option State) (i : Nat) => o.bind (fun (u : State) => u.reportLine { slot := 0, body := [] } b i)) (some s) = some s) := by
  refine ⟨by decide +kernel, by decide +kernel, by decide +kernel, by decide +kernel, by decide +kernel, rfl, rfl, by decide +kernel, by decide +kernel, by decide +kernel, by decide +kernel, fun b => ?_⟩
  have h : ∀ i, State.reportLine { State.reset with report := some { slot := 0, body := [] } } { slot := 0, body := [] } b i = some { State.reset with report := some { slot := 0, body := [] } } := fun i => rfl
  generalize List.range 131 = l
  induction l with
  | nil => rfl
  | cons i t ih => simpa [h i] using ih

/-- A machine whose next bundle is a word placed where the first instruction is fetched. -/
def placed (ws : List Word) : State := State.reset.place ws
def handled : State :=
  let s := (placed ((encode (.tret one)).getD [])).modTeam 0 (fun t => { t with handler := some handler })
  { s with issue := [{ core := 0, threads := [], pc := .ofNum 27, handler := some 0, waited := 0 }] }
/-- The same under VIGIL, with what the shadow of the squad has yet to execute. -/
def pairedWith (i : Instr) (trail : List VEntry) : State := let s := shadowed (placed ((encode i).getD [])) trail false; { s with issue := [] }
def bundleOf (s : State) : Bundle := s.issue.headD Bundle.none
theorem witness_StepRunsDecoded_vigil :
    (∀ p ∈ [(Instr.add vec, ([] : List VEntry), false), (.exit one, [executed], true)],
      ((pairedWith p.1 p.2.1).takeBundle (bundleOf (placed ((encode p.1).getD [])))).any (fun u => u.2 == p.1 && u.1.vigilSquads == [(0, 0)]
        && u.1.vigilSquads.all (fun k => !u.1.queueFull k.1 k.2 && u.1.shadowBehind k.1 k.2 == p.2.2) && u.2.vigilPoint == p.2.2 && (match exec u.2 u.1 with | .next _ => true | _ => false)) = true)
    ∧ (({ bundleOf (placed []) with shadow := some (0, 0) } : Bundle).shadow = some (0, 0)) := by decide +kernel
theorem witness_StepRunsDecoded : (∃ b, (placed ((encode (.add vec)).getD [])).issue = [b] ∧ b.handler = none ∧ b.shadow = none
      ∧ (∀ tm ∈ (placed ((encode (.add vec)).getD [])).teams, tm.body.shadows = [])
      ∧ b.threads.filter (fun t => (placed ((encode (.add vec)).getD [])).atPc t b.pc) = ⟨0, 0, 0⟩ :: ((List.range 26).map (fun l => ⟨0, 0, l + 1⟩))
      ∧ ∃ ws, (placed ((encode (.add vec)).getD [])).fetch b.core ((placed ((encode (.add vec)).getD [])).asrecOf 0) ((placed ((encode (.add vec)).getD [])).sysLevel 0) b.pc = some ws
        ∧ (match decode ws with | .ok i => i == .add vec | .error _ => false) = true)
    ∧ (∃ ws, (placed []).fetch 0 ((placed []).asrecOf 0) ((placed []).sysLevel 0) (.ofNum 27) = some ws ∧ (match decode ws with | .ok _ => false | .error e => e.code == 2) = true)
    ∧ ((handled.team? 0).bind (·.handler) = some handler ∧ handler.run = .ready ∧ handler.pc = .ofNum 27
      ∧ ∃ ws, handled.fetch 0 (handled.asrecOf 0) (handled.sysLevel 0) (.ofNum 27) = some ws ∧ (match decode ws with | .ok i => i == .tret one | .error _ => false) = true)
    ∧ State.reset.issue = [] ∧ (State.reset.thermtrip && State.reset.agenda.isEmpty) = false :=
  ⟨⟨_, rfl, rfl, rfl, by decide +kernel, by decide +kernel, found (by decide +kernel)⟩, found (by decide +kernel), ⟨by decide +kernel, rfl, rfl, found (by decide +kernel)⟩, rfl, rfl⟩

theorem witness_BalancedTernary : (∀ x ∈ [(1 : Int), -1, 0], x = -1 ∨ x = 0 ∨ x = 1) ∧ -(3 ^ 2 - 1) / 2 ≤ (-4 : Int) ∧ (-4 : Int) ≤ (3 ^ 2 - 1) / 2 := by decide
theorem witness_RoundTrip : (Instr.add { vec with ma := .rot 13 true, mb := .tri 2 0 1, gr := 8 }).wellFormed = true := by decide +kernel
theorem witness_MemoryInvariant : Memory.wf (placed ((encode (.nop one)).getD [])).hbm = true ∧ (placed ((encode (.nop one)).getD [])).goesOn = true := by decide +kernel

/-! ### Effects: worked values of the manual and hand calculations from its rules -/

/-- The state after an instruction, and v(n) of lane 0. -/
def run (i : Instr) (s : State) : State := match exec i s with | .next t => t | _ => s
def v (s : State) (n : Nat) : Int := (s.vreg ⟨0, 0, 0⟩ n).val
def binary3 (i : Instr) (a b : Int) : Int := v (run i (lone.withV [(4, a), (5, b)])) 3

/-- The worked values of R217. -/
theorem test_div_mod : [(7, 2, 3, 1), (5, 2, 3, -1), (-5, 2, -3, 1), (9, 2, 4, 1), (8, 3, 3, -1), (7, 0, 0, 7)].all (fun (p : Int × Int × Int × Int) =>
    binary3 (.div vec) p.1 p.2.1 == p.2.2.1 && binary3 (.mod vec) p.1 p.2.1 == p.2.2.2) = true := by decide +kernel
/-- The examples of R19 and R218: SHR of 25 by 1, of −25 by 2. -/
theorem test_shr : binary3 (.shr vec) 25 1 = 8 ∧ binary3 (.shr vec) (-25) 2 = -3 := by decide +kernel
/-- R21, R22: (3^27 − 1)/2 + 1 wraps to the least value, and saturates at the greatest. -/
theorem test_add_wraps : binary3 (.add vec) 3812798742493 1 = -3812798742493 ∧ binary3 (.add { vec with sat := true }) 3812798742493 1 = 3812798742493 := by decide +kernel
/-- R20: under t1 each trit is an element, so + plus + gives − everywhere. -/
theorem test_add_t1 : binary3 (.add { vec with et := .t1 }) 3812798742493 3812798742493 = -3812798742493 := by decide +kernel
/-- R215: 3^14 × 3^13 = 3^27 has the low 27 trits 0 and the high part 1. -/
theorem test_mul_mulh : binary3 (.mul vec) 4782969 1594323 = 0 ∧ binary3 (.mulh vec) 4782969 1594323 = 1 := by decide +kernel
/-- The example of R145: six additions in a block of three columns and two rows, which read the old v20 and v21. -/
theorem test_block : (let t := run (.add { two with d := -111, a := -101, b := -91, xr := 3, xc := 2 }) (lone.withV ((List.range 10).map (fun (i : Nat) =>
      ((if i < 3 then 20 + i else if i < 7 then 26 + i else 32 + i), ((i : Int) + 1)))));
    [10, 11, 12, 19, 20, 21].map (v t)) = [6, 8, 10, 12, 14, 16] := by decide +kernel
/-- R222, R141: CMP writes the sign of the difference; p0 keeps reading +. -/
theorem test_cmp : (run (.cmp { vec with d := -3 }) (lone.withV [(4, -7), (5, 2)])).pred ⟨0, 0, 0⟩ 1 = .m
    ∧ (run (.cmp { vec with d := -4 }) (lone.withV [(4, -7), (5, 2)])).pred ⟨0, 0, 0⟩ 0 = .p := by decide +kernel
/-- R160: where the guard fails, only the PC moves on. -/
theorem test_guard : (let t := run (.add { vec with gc := .isNeg, gp := 4 }) (lone.withV [(3, 9), (4, 1), (5, 2)]);
    (v t 3, (t.thread? ⟨0, 0, 0⟩).map (fun th => th.pc.num))) = (9, some 33) := by decide +kernel
/-- R237: BR counts words from its own address. -/
theorem test_br : ((run (.br { two with c := 5 }) lone).thread? ⟨0, 0, 0⟩).map (fun th => th.pc.num) = some 42 := by decide +kernel
/-- R240: CALL through the cabinet leaves the return address below the stack pointer. -/
theorem test_call : (let t := run (.call { two with f := -3, d := -116, c := 9 }) (lone.withV [(5, 6)]); (v t 5, (t.cab 0 1).num, (t.thread? ⟨0, 0, 0⟩).map (fun th => th.pc.num))) = (3, 33, some 54) := by
  decide +kernel
/-- R183, R185: a word stored in the cabinet is the word loaded there; the other threads' memory is not touched. -/
theorem test_st_ld : (let s := run (.st { two with d := -118, a := -116, f := -3 }) (lone.withV [(3, -77), (5, 6909)]); (v (run (.ld { two with d := -115, a := -116, f := -3 }) s) 6, s.hbm.length, (s.cab 0 2303).val))
    = (-77, 0, -77) := by decide +kernel
/-- R301, R302: a plain global store goes to escrow, where its own thread sees it, and not to its line. -/
theorem test_st_escrow : (let s := run (.st { two with d := -118, a := -117 }) ((mapped 0).withV [(3, 5), (4, va 24054)]); (v (run (.ld { two with d := -115, a := -117 }) s) 6, intAt (s.lineNow 107).w 26))
    = (5, 0) := by decide +kernel
/-- R322: an ATOM.add returns the old word, and the home holds the sum; a second one adds to it. -/
theorem test_atom : (let s := run (.atom { vec with c := 1 }) ((mapped 0).withV [(4, va 24054), (5, 7)]); (v s 3, intAt (s.lineNow 107).w 26, v (run (.atom { vec with c := 1 }) s) 3)) = (0, 7, 7) := by
  decide +kernel
/-- R234: GRED add over the members of a group that have not exited. -/
theorem test_gred : (let s := [(0, 10), (1, 200), (26, 3000)].foldl (fun (s : State) (p : Nat × Int) => s.setV ⟨0, 0, p.1⟩ 4 (.ofInt p.2)) probe;
    let t := run (.gred { two with d := -118, a := -117 }) s; (t.vreg ⟨0, 0, 26⟩ 3).val) = 3210 := by decide +kernel
/-- R233: a ballot has a member's predicate at the member's position. -/
theorem test_vote : (let s := (probe.setPred ⟨0, 0, 1⟩ 2 .m).setPred ⟨0, 0, 26⟩ 2 .p; v (run (.vote { two with d := -118, a := -2 }) s) 3) = 2541865828329 - 3 := by decide +kernel
/-- R376, R369: TRAP 7 queues an event of cause 16 with detail 7, and its threads stop. -/
theorem test_trap : (let t := run (.trap { two with c := 7 }) probe; ((t.team? 0).map (fun x => x.events.map (fun e => (e.cause, e.detail, e.lanes))), (t.thread? ⟨0, 0, 26⟩).map (·.run)))
    = (some [(16, 7, [0, 1, 26])], some .trapped) := by decide +kernel
/-- R326: the last arrival at a barrier lets it complete. -/
theorem test_bar : (let t := run (.barrierComplete 0 8) (run (.bar { two with c := 8 }) probe); [0, 1, 26].map (fun (l : Nat) => (t.thread? ⟨0, 0, l⟩).map (fun th => (th.run, th.pc.num))))
    = List.replicate 3 (some (.ready, 33)) := by decide +kernel
/-- R241: EXIT ends its threads. -/
theorem test_exit : ([0, 1, 26].map (fun (l : Nat) => (run (.exit one) probe).exited ⟨0, 0, l⟩)) = [true, true, true] := by decide +kernel
/-- R50: the image of the all-zero clean T-line. -/
theorem test_image : (imageT zeroLine).length = 160 ∧ (imageT zeroLine).take 148 = [124, 121] ++ List.replicate 145 121 ++ [40] := by decide +kernel
/-- R92, R98: a request with no agent holding the line takes it exclusively. -/
theorem test_homeRds : ((run (.homeRds 205 { slot := 81 }) (homed (vline .I 0) [])).copy 205 81).map (·.st) = some .E := by decide +kernel
/-- A step performs the instruction that the words at the PC spell, as the first one after reset. -/
theorem test_step : (match step (State.reset.withFetchWord 64 0xFFFFFFFFFFFFFFFF) with | .next _ => true | _ => false) = true
    ∧ ((match step (placed ((encode (.movi { three with d := -118, w3 := .ofInt 99 })).getD [])) with | .next t => v t 3 | _ => 0)) = 99 := by decide +kernel
/-- R30, R29: just above half of the least normal of tf9 the result is the least normal, −−− +−− −−− (122 × 3^−18). -/
theorem test_round_least : [tf9F.round false .tern ⟨1094, 3 ^ 20⟩, tf9F.round false .tern ⟨3281, 3 ^ 21⟩, tf9F.round false .tern ⟨122, 3 ^ 18⟩] = [-9355, -9355, -9355] := by decide +kernel
/-- The first and last constants of FIPS 180-4, and the digest of the three bytes "abc" (R453). -/
theorem test_sha : (ShaPar.sha256.consts.take 2, ShaPar.sha256.consts.getLast?, ShaPar.sha256.init.head?, (sha256N [97, 98, 99]).take 4)
    = ([0x428a2f98, 0x71374491], some 0xc67178f2, some 0x6a09e667, [0xba, 0x78, 0x16, 0xbf]) := by decide +kernel

end Sys2Proof.Tests
end

section
/-! PROOFS. The manual's own words, decoded. -/

namespace Sys2Proof.Machine

/-- What the decoder answers, from the part of its answer that equality is decided on. -/
theorem decode_of_toOption {ws : List Word} {i : Instr} (h : (decode ws).toOption = some i) : decode ws = .ok i := by
  cases hd : decode ws with
  | error e => rw [hd] at h; cases h
  | ok j => rw [hd] at h; cases h; rfl

/-- Settles O55: the decoder evaluated on each word that the manual writes out. -/
theorem decodeWords : Obligations.DecodeWords := by
  unfold Obligations.DecodeWords
  and_intros <;> exact decode_of_toOption (by decide +kernel)

end Sys2Proof.Machine
end

section
/-! PROOFS. No store changes the current bundle, so that what is read of its PC after a write is its PC before. -/

namespace Sys2Proof.Machine

@[simp] theorem State.laterOnce_cur (s : State) (i : Instr) : (s.laterOnce i).cur = s.cur := by unfold State.laterOnce; split <;> rfl

@[simp] theorem State.killGrid_cur (s : State) (g : Nat) : (s.killGrid g).cur = s.cur := by
  unfold State.killGrid; split <;> simp [foldl_keeps State.cur _ (fun (b : State) (_ : Nat) => State.laterOnce_cur b _)]

@[simp] theorem State.logLine_cur (s : State) (e : Event) (act : Int) (b : Bool) : (s.logLine e act b).cur = s.cur := by
  unfold State.logLine; simp only; (repeat' split) <;> rfl

@[simp] theorem State.raise_cur (s : State) (e : Event) : (s.raise e).cur = s.cur := by
  unfold State.raise; simp only; (repeat' split) <;> simp

@[simp] theorem State.raiseFixed_cur (s : State) (l : List Nat) (a x : Nat) : (s.raiseFixed l a x).cur = s.cur :=
  foldl_keeps State.cur _ (fun _ _ => by simp) _ s

@[simp] theorem State.orphan_cur (s : State) (b : Bool) (a x : Nat) : (s.orphan b a x).cur = s.cur := by
  unfold State.orphan; split <;> simp

@[simp] theorem State.leave_cur (s : State) (a x : Nat) (d : Option Line) : (s.leave a x d).cur = s.cur := by
  unfold State.leave; simp only; (repeat' split) <;> simp

@[simp] theorem State.checkCopy_cur (s : State) (c : Copy) : ((s.checkCopy c).1).cur = s.cur := by
  unfold State.checkCopy; split <;> simp only <;> (repeat' split) <;> simp

@[simp] theorem State.takeBack_cur (s : State) (c : Copy) : (s.takeBack c).cur = s.cur := by
  have h := State.checkCopy_cur (s.orphan c.lostDirty (agentSource c.agent) c.slot) c
  unfold State.takeBack
  split <;> rename_i hc <;> rw [hc] at h <;> simpa using h

@[simp] theorem State.giveUp_cur (s : State) (c : Copy) : (s.giveUp c).cur = s.cur := by
  unfold State.giveUp; simp only; (repeat' split) <;> simp

theorem State.roomL1_cur {s t : State} {a slot set : Nat} (h : s.roomL1 a slot set = some t) : t.cur = s.cur := by
  unfold State.roomL1 at h
  simp only at h
  split at h
  · cases h; rfl
  split at h
  · cases h; rfl
  split at h
  · cases h
  split at h
  · cases h; simp
  · cases h

@[simp] theorem State.modEline_cur (s : State) (n v : Nat) (f : ELine → ELine) : (s.modEline n v f).cur = s.cur := rfl

@[simp] theorem State.escrowRoom_cur (s : State) (core set : Nat) : ((s.escrowRoom core set).1).cur = s.cur := by
  unfold State.escrowRoom
  simp only
  split
  · next t h =>
    rw [State.roomL1_cur h]
    (repeat' split) <;> rfl
  · (repeat' split) <;> rfl

@[simp] theorem State.residentEline_cur (s : State) (n v : Nat) : (s.residentEline n v).cur = s.cur := by
  unfold State.residentEline; split <;> simp

@[simp] theorem State.storeWord_cur (s : State) (t : TRef) (va : Word) (x : Xl) (w : Word) : (s.storeWord t va x w).cur = s.cur := by
  unfold State.storeWord; split
  · rfl
  · simp [State.escrowPut]

@[simp] theorem State.putCabWord_cur (s : State) (n : Nat) (c : CabAt) (w : Word) : (s.putCabWord n c w).cur = s.cur := by
  unfold State.putCabWord; simp only; split <;> rfl

@[simp] theorem State.writePlace_cur (s : State) (x : Exec) (b : Bool) (p : Place) (w : Word) : (s.writePlace x b p w).cur = s.cur := by
  cases p <;> simp [State.writePlace]

@[simp] theorem Exec.set_cur (s : State) (x : Exec) (v : Int) (k : Nat) (w : Word) : (x.set s v k w).cur = s.cur := by
  unfold Exec.set; cases x.mode <;> rfl

end Sys2Proof.Machine
end

section
/-! PROOFS. Executions that follow a rule, and the control transfers (R236–R240). -/

namespace Sys2Proof.Machine

/-! ### Executions that follow a rule -/

@[simp] theorem Eff.add_pass (e : Eff) (s : State) (x : Exec) : e.add s x .pass = { e with s := s } := by
  simp [Eff.add, stayOf, gotoOf]

@[simp] theorem Eff.add_goto (e : Eff) (s : State) (x : Exec) (a : Word) :
    e.add s x (.goto a) = { e with s := s, goto := e.goto ++ [(x, a)] } := by
  simp [Eff.add, stayOf, gotoOf]

@[simp] theorem Eff.add_stay (e : Eff) (s : State) (x : Exec) : e.add s x .stay = { e with s := s, stay := e.stay ++ [x] } := by
  simp [Eff.add, stayOf, gotoOf]

/-- Wherever the rule `g` applies to an execution, what the body `f` does to it is the rule's state and what comes of the execution. -/
def Follows (f : Eff → Exec → Eff) (g : State → Exec → Option (State × After)) : Prop :=
  ∀ e x s' a, e.traps = [] → g e.s x = some (s', a) → f e x = e.add s' x a

/-- A body that is its rule in every case follows it. -/
theorem follows_total {f : Eff → Exec → Eff} (g : State → Exec → State × After) (h : ∀ e x, f e x = e.add (g e.s x).1 x (g e.s x).2) :
    Follows f (fun s x => some (g s x)) := by
  intro e x s' a _ hg
  obtain ⟨rfl, rfl⟩ := Prod.mk.inj (Option.some.inj hg)
  exact h e x

theorem Follows.does {i : Instr} {o : Opnd} {fm : Form} {f : Eff → Exec → Eff} {g : State → Exec → Option (State × After)}
    (h : Follows f g) (he : ∀ s, exec i s = perform i o fm (eachExec f) s) : Does i o fm (eachDo g) := each_does i o fm f g he h

theorem Follows.doesHandled {i : Instr} {o : Opnd} {fm : Form} {f : Eff → Exec → Eff} {g : State → Exec → Option (State × After)}
    (h : Follows f g) (he : ∀ s, exec i s = perform i o fm (eachExec f) s) : DoesHandled i o fm g := handled_each i o fm f g he h

/-! ### Transfers (R236–R239) -/

theorem branch_eq (e : Eff) (x : Exec) (off : Int) : e.branch x off = e.add e.s x (.goto (e.s.cur.pc.add (3 * off))) := by
  simp [Eff.branch, State.relative]

/-- BR: every execution goes to the offset (R237, R238). -/
theorem br_follows (o : Opnd) : Follows (fun e x => e.branch x (offsetOf o))
    (fun s _ => some (s, .goto (s.cur.pc.add (3 * (if o.len = 3 then o.w3.val else o.c))))) :=
  follows_total _ (fun e x => branch_eq e x _)

/-- BR3: the sign of the predicate chooses between two offsets and the next instruction (R238). -/
theorem br3_follows (o : Opnd) : Follows
    (fun e x => match x.pred e.s (predNum o.a) with
      | .m => e.branch x (field o.w3.val 13 0)
      | .z => e
      | .p => e.branch x (field o.w3.val 26 14))
    (fun s x => some (s, match x.pred s (predNum o.a) with
      | .m => .goto (s.cur.pc.add (3 * field o.w3.val 13 0))
      | .z => .pass
      | .p => .goto (s.cur.pc.add (3 * field o.w3.val 26 14)))) :=
  follows_total _ (fun e x => by cases x.pred e.s (predNum o.a) <;> simp [branch_eq])

/-- BRM: the first pair whose condition holds gives the offset (R239). -/
theorem brm_follows (o : Opnd) : Follows
    (fun e x => match (brmPairs o).find? (fun p => codeHolds p.2.1 (x.pred e.s (predNum p.1)).val) with
      | some p => e.branch x p.2.2
      | none => e)
    (fun s x => some (s, match (brmPairs o).find? (fun p => codeHolds p.2.1 (x.pred s (predNum p.1)).val) with
      | some p => .goto (s.cur.pc.add (3 * p.2.2))
      | none => .pass)) :=
  follows_total _ (fun e x => by
    cases (brmPairs o).find? (fun p => codeHolds p.2.1 (x.pred e.s (predNum p.1)).val) <;> simp [branch_eq])

/-- JMP and JMPR: an aligned target is where the execution goes (R236, R238). -/
theorem jump_follows (target : State → Exec → Word) : Follows (fun e x => e.jump x (target e.s x)) (jumpRule target) := by
  intro e x s' a _ h
  unfold jumpRule at h
  split at h
  · next ha => cases h; simp [Eff.jump, ha]
  · cases h

/-! ### Calls and returns (R240) -/

/-- The pushes of a call, each with the return address of the bundle's own PC. -/
theorem pushAll_eq (o : Opnd) (x : Exec) (size : Int) (sp : Nat → Word) (ps : List (Nat × Place)) (s : State) :
    pushAll o x (s.cur.pc.add size) (ps.map (fun p => (p.1, sp p.1, p.2))) s
      = ps.foldl (fun s p => x.set (s.writePlace x false p.2 (s.cur.pc.add size)) o.d p.1 (sp p.1)) s := by
  induction ps generalizing s with
  | nil => rfl
  | cons p ps ih =>
    have hcur : (x.set (s.writePlace x false p.2 (s.cur.pc.add size)) o.d p.1 (sp p.1)).cur = s.cur := by simp
    have := ih (x.set (s.writePlace x false p.2 (s.cur.pc.add size)) o.d p.1 (sp p.1))
    rw [hcur] at this
    exact this

/-- CALL and CALLR complete by the rule of one lane. -/
theorem call_does (i : Instr) (o : Opnd) (fm : Form) (size : Int) (target : State → Exec → Word)
    (he : ∀ s, exec i s = perform i o fm (callBody o size target) s) : Does i o fm (eachDo (callRule o size target)) := by
  refine order_does i o fm _ _ he (fun e x s' a _ h => ?_)
  simp only [callRule] at h
  split at h
  · next hal =>
    split at h
    · next s ps hfind =>
      split at h
      · next hq =>
        cases h
        simp [hal, hfind, hq, pushAll_eq o x size (fun k => (x.reg e.s o.d k).add (-3))]
      · cases h
    · cases h
  · cases h

/-- RET: an aligned word is read at the stack pointer, which goes up. -/
theorem ret_does (o : Opnd) : Does (.ret o) o { a := .v, aWrite := true } (eachDo (retRule o)) := by
  refine each_does _ _ _ _ _ (fun _ => rfl) (fun e x s' a _ h => ?_)
  simp only [retRule] at h
  split at h
  · next s p hp =>
    split at h
    · next s w hw =>
      split at h
      · next ha => cases h; simp [hp, hw, ha]
      · cases h
    · cases h
  · cases h

/-- Settles O15: a transfer follows its rule in every execution, a call pushes its return address and RET pops one in the order of
the lanes. -/
theorem transfersAndCalls : Obligations.TransfersAndCalls := fun o =>
  ⟨(br_follows o).does (fun _ => rfl), (br3_follows o).does (fun _ => rfl), (brm_follows o).does (fun _ => rfl),
    (jump_follows _).does (fun _ => rfl), (jump_follows _).does (fun _ => rfl), call_does _ o _ _ _ (fun _ => rfl),
    call_does _ o _ _ _ (fun _ => rfl), ret_does o⟩

end Sys2Proof.Machine
end

section
/-! PROOFS. The instructions of a trap handler (R373, R374, R377). -/

namespace Sys2Proof.Machine

/-! ### The instruction of a handler (R374) -/

@[simp] theorem Handler.exec_mode (h : Handler) (n : Nat) : (h.exec n).mode = .han := rfl
@[simp] theorem Handler.exec_team (h : Handler) (n : Nat) : (h.exec n).t.team = n := rfl
@[simp] theorem Handler.exec_squad (h : Handler) (n : Nat) : (h.exec n).t.squad = h.squad := rfl

theorem Handles.handler {i : Instr} {o : Opnd} {fm : Form} {s : State} {n : Nat} {h : Handler} (hh : Handles i o fm s n h) :
    (s.team? n).bind (·.handler) = some h := hh.2.1

/-- Where the body only changes the state, the handler goes on behind its instruction. -/
theorem handled_of_body {i : Instr} {o : Opnd} {fm : Form} {s w : State} {n : Nat} {h : Handler} {b : Body}
    (he : exec i s = perform i o fm b s) (hh : Handles i o fm s n h) (hb : b s [h.exec n] = Eff.of w) :
    exec i s = .next (s.handled w n i) := by
  rw [he, perform_handled hh, hb, conclude_handler _ _ _ _ n hh.1 rfl rfl]
  rfl

/-- Where the one execution stays, the handler's PC does too. -/
theorem stays_of_body {i : Instr} {o : Opnd} {fm : Form} {s w : State} {n : Nat} {h : Handler} {b : Body}
    (he : exec i s = perform i o fm b s) (hh : Handles i o fm s n h) (hb : b s [h.exec n] = (Eff.of s).add w (h.exec n) .stay) :
    exec i s = .next w := by
  rw [he, perform_handled hh, hb]
  simp [State.conclude, hh.1, Eff.of]

/-- An instruction whose body only changes the state, in each execution as `f` says. -/
theorem doesHandled_pass {i : Instr} {o : Opnd} {fm : Form} {b : Body} {f : State → Exec → State}
    (he : ∀ s, exec i s = perform i o fm b s) (hb : ∀ s x, b s [x] = Eff.of (f s x)) :
    DoesHandled i o fm (fun s x => some (f s x, .pass)) := by
  intro s n h w a hh hg
  cases hg
  exact handled_of_body (he s) hh (hb s _)

/-- One execution alone waits for no other. -/
theorem Follows.doesHandled_inOrder {i : Instr} {o : Opnd} {fm : Form} {f : Eff → Exec → Eff} {g : State → Exec → Option (State × After)}
    (hf : Follows f g) (he : ∀ s, exec i s = perform i o fm (inOrder f) s) : DoesHandled i o fm g := by
  intro s n h w a hh hg
  have hb : inOrder f s [h.exec n] = (Eff.of s).add w (h.exec n) a := hf (Eff.of s) _ _ _ rfl hg
  rw [he, perform_handled hh, hb]
  cases a <;> simp [Eff.of, State.conclude, hh.1, State.handled]

/-- The words of a body without an extent, in one execution. -/
theorem wordsBody_one {o : Opnd} (hx : o.xr = 1) (hc : o.xc = 1) (f : State → Exec → Nat → List Word) (s : State) (x : Exec) :
    wordsBody o f s [x] = Eff.of (((f s x 0).zipIdx).foldl (fun s p => x.set s (o.d + (p.2 : Int)) 0 p.1) s) := by
  simp [wordsBody, blockSteps_scalar o ⟨hx, hc⟩, writeAll, List.foldl_map]

theorem wordBody_one {o : Opnd} (hx : o.xr = 1) (hc : o.xc = 1) (f : State → Exec → Nat → Word) (s : State) (x : Exec) :
    wordBody o f s [x] = Eff.of (x.set s o.d 0 (f s x 0)) := by
  simp [wordBody, wordsBody_one hx hc]

theorem wordsBody_two {o : Opnd} (hx : o.xr = 1) (hc : o.xc = 1) (f g : State → Exec → Word) (s : State) (x : Exec) :
    wordsBody o (fun s x _ => [f s x, g s x]) s [x] = Eff.of (x.set (x.set s o.d 0 (f s x)) (o.d + 1) 0 (g s x)) := by
  simp [wordsBody_one hx hc]

/-! ### Rules that a handler's instructions follow -/

/-- LGET and LPUT wait for a queued result of the register that they name, and else act on it (R230). -/
theorem reach_follows (o : Opnd) (act : State → Exec → Int → Int → State) : Follows
    (fun e x =>
      let lane := (x.reg e.s o.a 0).val
      let num := (x.reg e.s o.b 0).val
      if reachWaits e.s x o.f lane num then { e with stay := e.stay ++ [x] } else { e with s := act e.s x lane num })
    (fun s x =>
      let lane := (x.reg s o.a 0).val
      let num := (x.reg s o.b 0).val
      if reachWaits s x o.f lane num then none else some (act s x lane num, .pass)) := by
  intro e x s' a _ h
  simp only at h ⊢
  split at h
  · cases h
  · next hw => cases h; simp [hw]

/-- A load whose elements are all found and read delivers them (R189). -/
theorem loadLane_follows (o : Opnd) (tryte : Bool) (place : Exec → State → Nat → State × Except Stop Place) :
    Follows (loadLane o tryte place) (loadRule o tryte place) := by
  intro e x s' a _ h
  unfold loadRule at h
  split at h
  · next s ps hp =>
    split at h
    · next s ws hw => cases h; simp [loadLane, hp, hw]
    · cases h
  · cases h

/-- A store whose elements are all found, within the quota, writes them (R190). -/
theorem storeLane_follows (o : Opnd) (tryte : Bool) (place : Exec → State → Nat → State × Except Stop Place) :
    Follows (storeLane o tryte place) (storeRule o tryte place) := by
  intro e x s' a _ h
  unfold storeRule at h
  split at h
  · next s ps hp =>
    split at h
    · next hq => cases h; simp [storeLane, hp, hq]
    · cases h
  · cases h

theorem noAccess_iff (s : State) (x : Exec) (sel : Int) :
    s.noAccess x sel = true ↔ sysWord sel = true ∧ s.sysLevel x.t.team = false := by
  simp [State.noAccess]

/-- CWGET of a word that the context may name reads it (R378). -/
theorem cwget_follows (o : Opnd) : Follows
    (fun e x =>
      if e.s.noAccess x (selOf o) then e.stop x (.trap (privTrap 2))
      else
        let (s, w) := e.s.contextWord x.t.team (selOf o)
        { e with s := x.set s o.d 0 w }) (cwgetRule o) := by
  intro e x s' a _ h
  unfold cwgetRule at h
  split at h
  · cases h
  · next hn =>
    cases h
    simp only [noAccess_iff, if_neg hn, Eff.add_pass]

/-- CWSET of a word that the context may name writes it, TVEC an aligned value only (R378). -/
theorem cwset_follows (o : Opnd) : Follows
    (fun e x =>
      let v := x.reg e.s o.a 0
      let n := x.t.team
      if e.s.noAccess x (selOf o) then e.stop x (.trap (privTrap 2))
      else if selOf o = 0 then
        (if v = .zero ∨ v.aligned = true then { e with s := e.s.modTeam n (fun t => { t with tvec := v }) } else e)
      else { e with s := e.s.writeCw (selOf o) v (some (e.s.partOf n)) }) (cwsetRule o) := by
  intro e x s' a _ h
  simp only [cwsetRule] at h
  simp only [noAccess_iff]
  split at h
  · cases h
  · next hn =>
    rw [if_neg hn]
    split at h
    · next h0 =>
      cases h
      rw [if_pos h0, Eff.add_pass]
      split <;> rfl
    · next h0 =>
      cases h
      rw [if_neg h0, Eff.add_pass]

/-- WAIT blocks on its first incomplete ticket, or delivers the records of all (R202). -/
theorem wait_follows (o : Opnd) : Follows
    (fun e x =>
      let ts := (blockSteps o).map (fun k => (k, x.reg e.s o.a k))
      match ts.find? (fun p => e.s.incomplete x.t.team p.2) with
      | some p => { e with s := e.s.blockWait x (ticketSeq p.2), stay := e.stay ++ [x] }
      | none => { e with s := ts.foldl (fun s p => waitOne o x s p.1 p.2) e.s }) (waitRule o) :=
  follows_total _ (fun e x => by
    simp only
    cases ((blockSteps o).map (fun k => (k, x.reg e.s o.a k))).find? (fun p => e.s.incomplete x.t.team p.2) <;> simp)

/-! ### TRET, TPC and TLBF in a handler (R377, R379) -/

theorem tret_handled {o : Opnd} {s : State} {n : Nat} {h : Handler} (hh : Handles (.tret o) o { guard := false } s n h)
    (hq : ∀ q, s.squad? n h.squad = some q → (∀ f ∈ q.sfuq, ∀ w, f.k ≠ some (true, w)) ∧ ∀ w ∈ q.kwait, w.1 = false) :
    exec (.tret o) s = .next (s.tret n h false) := by
  have hidle : (s.squad? n h.squad).any (fun q => q.sfuq.any (fun f => f.k.any (·.1)) || q.kwait.any (·.1)) = false := by
    cases hs : s.squad? n h.squad with
    | none => rfl
    | some q =>
      obtain ⟨hsfu, hk⟩ := hq q hs
      simp only [Option.any_some, Bool.or_eq_false_iff, List.any_eq_false]
      refine ⟨fun f hf => ?_, fun w hw => by simp [hk w hw]⟩
      cases hfk : f.k with
      | none => simp
      | some p => intro hp; exact hsfu f hf p.2 (by rw [hfk]; simpa [Prod.ext_iff] using hp)
  refine stays_of_body (b := bodyTret) rfl hh ?_
  simp [bodyTret, eachExec, Eff.of, hh.handler, hidle]

/-- TPC of a lane of MASK: its frame PC goes into k(D), and the frame is what `f` leaves. -/
theorem tpcBody_member {o : Opnd} {f : Eff → Exec → Nat → Word → Eff} {s w : State} {n lane : Nat} {h : Handler}
    (hh : (s.team? n).bind (·.handler) = some h) (hl : ((h.exec n).reg s o.a 0).val = lane) (h26 : lane ≤ 26)
    (hm : h.ev.lanes.contains lane = true) (hf : f (Eff.of s) (h.exec n) lane (s.cab n (-54 + lane)) = Eff.of w) :
    tpcBody o f s [h.exec n] = Eff.of ((h.exec n).set w o.d 0 (s.cab n (-54 + lane))) := by
  have hin : (0 : Int) ≤ lane ∧ (lane : Int) ≤ 26 ∧ h.ev.lanes.contains lane = true := ⟨by omega, by omega, hm⟩
  have hs : (Eff.of s).s = s := rfl
  simp only [tpcBody, eachExec, List.foldl_cons, List.foldl_nil, hs, Handler.exec_mode, Handler.exec_team, hh, hl, Int.toNat_natCast,
    if_pos hin, hf]
  rfl

/-- TPC of a lane outside MASK: k(D) receives 0. -/
theorem tpcBody_other {o : Opnd} {f : Eff → Exec → Nat → Word → Eff} {s : State} {n : Nat} {h : Handler}
    (hh : (s.team? n).bind (·.handler) = some h)
    (hl : ((h.exec n).reg s o.a 0).val < 0 ∨ 26 < ((h.exec n).reg s o.a 0).val
      ∨ h.ev.lanes.contains ((h.exec n).reg s o.a 0).val.toNat = false) :
    tpcBody o f s [h.exec n] = Eff.of ((h.exec n).set s o.d 0 .zero) := by
  have hout : ¬ (0 ≤ ((h.exec n).reg s o.a 0).val ∧ ((h.exec n).reg s o.a 0).val ≤ 26
      ∧ h.ev.lanes.contains ((h.exec n).reg s o.a 0).val.toNat = true) := by
    rintro ⟨h0, h26, hm⟩
    rcases hl with hl | hl | hl
    · omega
    · omega
    · rw [hm] at hl; cases hl
  have hs : (Eff.of s).s = s := rfl
  simp only [tpcBody, eachExec, List.foldl_cons, List.foldl_nil, hs, Handler.exec_mode, Handler.exec_team, hh, if_neg hout]
  rfl

theorem setFramePc_aligned {s : State} {x : Exec} {lane : Nat} {pc : Word} (h : pc.aligned = true) :
    setFramePc (Eff.of s) x lane pc = Eff.of (s.setCab x.t.team (-54 + (lane : Int)) pc) := by
  simp [setFramePc, h, Eff.of]

/-- TLBF at system level starts its shootdown, and the handler is blocked until it completes. -/
theorem tlbf_handled {i : Instr} {o : Opnd} {fm : Form} {kind : Int} {page : State → Exec → Word} {s : State} {n : Nat} {h : Handler}
    (he : exec i s = perform i o fm (tlbfBody kind page) s) (hh : Handles i o fm s n h) (hsys : s.sysLevel n = true) {p : State × Nat}
    (hp : s.startShoot (s.asrecOf n) kind (page s (h.exec n)) (some (h.exec n).t) = some p) :
    exec i s = .next ((p.1.modHandler n (fun h => { h with run := .shoot p.2 })).laterOnce (.shootdownComplete p.2)) := by
  refine stays_of_body he hh ?_
  simp [tlbfBody, eachExec, Eff.of, hsys, hp]

/-! ### What is a handler fault (R373) -/

/-- Every instruction with operands is performed by a form and a body. -/
theorem exec_eq_perform {i : Instr} {op : Int} {o : Opnd} (h : i.parts = some (op, o)) (s : State) :
    ∃ fm body, exec i s = perform i o fm body s := by
  cases i <;> cases h <;> exact ⟨_, _, rfl⟩

theorem illegal_handler {s : State} {n : Nat} (h : s.cur.handler = some n) (code : Nat) (words : List Word) :
    s.illegal code words = s.handlerFault n := by
  simp [State.illegal, h]

theorem exec_not_handlerOk {i : Instr} {op : Int} {o : Opnd} {s : State} {n : Nat} (hp : i.parts = some (op, o))
    (hi : i.handlerOk = false) (hs : s.cur.handler = some n) : exec i s = .next (s.handlerFault n) := by
  obtain ⟨fm, body, he⟩ := exec_eq_perform hp s
  simp [he, perform, hs, hi, illegal_handler hs]

/-- Settles O32: the one execution of a handler's instruction completes by the rule that its body follows, TRET and TLBF leave the
handler's PC to what ends or wakes it, and an instruction that R374 does not allow is a handler fault. -/
theorem handlerInstructions : Obligations.HandlerInstructions := by
  refine ⟨fun o s n h => ⟨tret_handled, fun lane hl h26 hm => ⟨?_, ?_, ?_⟩, fun hl => ⟨?_, ?_, ?_⟩, ?_, ?_, ?_, ?_, ?_⟩,
    fun o => ⟨?_, ?_, ?_, ?_, ?_, ?_, ?_, ?_, ?_, ?_, ?_, ?_, ?_, ?_, ?_⟩,
    fun _ _ _ _ _ => exec_not_handlerOk, fun code words s n hs => congrArg _ (illegal_handler hs code words)⟩
  -- TPC.SET, TPC.ADV and TPC.EXIT, of a lane of MASK and of another
  · exact fun hh ha => handled_of_body rfl hh (tpcBody_member hh.handler hl h26 hm (setFramePc_aligned ha))
  · exact fun hh ha => handled_of_body rfl hh (tpcBody_member hh.handler hl h26 hm (setFramePc_aligned ha))
  · exact fun hh => handled_of_body rfl hh (tpcBody_member hh.handler hl h26 hm rfl)
  · exact fun hh => handled_of_body rfl hh (tpcBody_other hh.handler hl)
  · exact fun hh => handled_of_body rfl hh (tpcBody_other hh.handler hl)
  · exact fun hh => handled_of_body rfl hh (tpcBody_other hh.handler hl)
  -- ADD and MOV
  · exact fun hh hx hc => handled_of_body rfl hh (wordBody_one hx hc (fun s x k => mapElems o.et
      (fun l => narrow o.et.width o.sat (l.getD 0 0 + l.getD 1 0)) [x.srcA s o k, x.srcB s o true k]) s _)
  · exact fun hh hx hc => handled_of_body rfl hh (wordBody_one hx hc (fun s x k => x.srcA s o k) s _)
  -- TLBF.PAGE, TLBF.AS and TLBF.ALL
  · exact fun hh hsys _ hp => tlbf_handled (kind := 1) (page := fun s x => x.reg s o.a 0) rfl hh hsys hp
  · exact fun hh hsys _ hp => tlbf_handled (kind := 2) (page := fun _ _ => .zero) rfl hh hsys hp
  · exact fun hh hsys _ hp => tlbf_handled (kind := 3) (page := fun _ _ => .zero) rfl hh hsys hp
  -- LGET, LPUT, LD, ST, CWGET, CWSET and WAIT
  · exact (reach_follows o (fun s x lane num => x.set s o.d 0 (lgetOf s x o.f lane num))).doesHandled (fun _ => rfl)
  · exact (reach_follows o (fun s x lane num => lputTo s x o.f lane num (x.reg s o.d 0))).doesHandled (fun _ => rfl)
  · exact (loadLane_follows o _ _).doesHandled (fun _ => rfl)
  · exact (storeLane_follows o _ _).doesHandled_inOrder (fun _ => rfl)
  · exact (cwget_follows o).doesHandled (fun _ => rfl)
  · exact (cwset_follows o).doesHandled (fun _ => rfl)
  · exact (wait_follows o).doesHandled (fun _ => rfl)
  -- TKT, FEAT, STAMP and NOP
  · exact doesHandled_pass (fun _ => rfl) (fun _ _ => rfl)
  · exact fun hx hc => ⟨doesHandled_pass (fun _ => rfl) (wordBody_one hx hc (fun s x _ => s.feature (s.partOf x.t.team) o.c)),
      doesHandled_pass (fun _ => rfl) (wordsBody_two hx hc (fun s x => lowWord (s.stampOf (s.partOf x.t.team)))
        (fun s x => highWord (s.stampOf (s.partOf x.t.team))))⟩
  · exact doesHandled_pass (fun _ => rfl) (fun _ _ => rfl)
  -- BR, BR3, BRM, JMP and JMPR
  · exact (br_follows o).doesHandled (fun _ => rfl)
  · exact (br3_follows o).doesHandled (fun _ => rfl)
  · exact (brm_follows o).doesHandled (fun _ => rfl)
  · exact (jump_follows _).doesHandled (fun _ => rfl)
  · exact (jump_follows _).doesHandled (fun _ => rfl)

end Sys2Proof.Machine
end

section
/-! PROOFS. Balanced ternary: the range of n trits, wrapping, truncation and the trits of a value (R16–R21). -/

namespace Sys2Proof

/-! ### The range of n trits (R16) -/

/-- The largest value of n trits, exactly halved: 3^n is odd. -/
theorem two_mul_maxv_add_one (n : Nat) : 2 * maxv n + 1 = (3 : Int) ^ n := by
  have hodd : 3 ^ n % 2 = 1 := by simp [Nat.pow_mod]
  have hcast : ((3 ^ n : Nat) : Int) = (3 : Int) ^ n := by push_cast; rfl
  unfold maxv
  rw [← hcast]
  generalize 3 ^ n = p at hodd
  omega

theorem maxv_eq (n : Nat) : ((3 : Int) ^ n - 1) / 2 = maxv n := by
  have := two_mul_maxv_add_one n
  omega

theorem neg_maxv_eq (n : Nat) : -((3 : Int) ^ n - 1) / 2 = -maxv n := by
  have := two_mul_maxv_add_one n
  omega

theorem maxv_succ (n : Nat) : maxv (n + 1) = 3 * maxv n + 1 := by
  have h := two_mul_maxv_add_one n
  have h1 := two_mul_maxv_add_one (n + 1)
  rw [Int.pow_succ] at h1
  omega

theorem maxv_nonneg (n : Nat) : 0 ≤ maxv n := Int.natCast_nonneg _

@[simp] theorem maxv_zero : maxv 0 = 0 := rfl
@[simp] theorem maxv_one : maxv 1 = 1 := rfl

/-! ### Truncation and wrapping (R18, R21) -/

/-- Truncation splits a value into the rounded quotient and the wrapped rest. -/
theorem dropTrits_wrap (k : Nat) (x : Int) : 3 ^ k * dropTrits k x + wrap k x = x := by
  have := Int.mul_ediv_add_emod (x + maxv k) (3 ^ k)
  unfold dropTrits wrap
  push_cast
  omega

theorem wrap_range (n : Nat) (x : Int) : -maxv n ≤ wrap n x ∧ wrap n x ≤ maxv n := by
  have h := two_mul_maxv_add_one n
  have hn := maxv_nonneg n
  have hpos : (0 : Int) < 3 ^ n := by omega
  have h0 := Int.emod_nonneg (x + maxv n) (Int.ne_of_gt hpos)
  have h1 := Int.emod_lt_of_pos (x + maxv n) hpos
  unfold wrap
  push_cast
  omega

/-- A multiple of 3^n plus a value of n trits wraps to that value. -/
theorem wrap_mul_add {n : Nat} {y : Int} (q : Int) (hl : -maxv n ≤ y) (hu : y ≤ maxv n) : wrap n (3 ^ n * q + y) = y := by
  have h := two_mul_maxv_add_one n
  have hmod : (3 ^ n * q + y + maxv n) % (3 : Int) ^ n = y + maxv n := by
    rw [Int.add_assoc, Int.mul_add_emod_self_left, Int.emod_eq_of_lt (by omega) (by omega)]
  unfold wrap
  push_cast
  omega

/-- The wrapped value is the one of n trits that is congruent modulo 3^n (R21). -/
theorem wrap_eq_iff (n : Nat) (x y : Int) : wrap n x = y ↔ -maxv n ≤ y ∧ y ≤ maxv n ∧ (3 ^ n : Int) ∣ x - y := by
  constructor
  · rintro rfl
    obtain ⟨hl, hu⟩ := wrap_range n x
    exact ⟨hl, hu, dropTrits n x, by have := dropTrits_wrap n x; omega⟩
  · rintro ⟨hl, hu, q, hq⟩
    rw [show x = 3 ^ n * q + y by omega, wrap_mul_add q hl hu]

/-- What truncation drops is less than half of 3^k, so there is no tie (R18). -/
theorem dropTrits_nearest (k : Nat) (x : Int) : 2 * (x - 3 ^ k * dropTrits k x).natAbs + 1 ≤ 3 ^ k := by
  have hsplit := dropTrits_wrap k x
  obtain ⟨hl, hu⟩ := wrap_range k x
  have h := two_mul_maxv_add_one k
  have hn : ((3 ^ k : Nat) : Int) = (3 : Int) ^ k := by push_cast; rfl
  rw [show x - 3 ^ k * dropTrits k x = wrap k x by omega]
  omega

/-! ### Trits of a value (R8, R16) -/

@[simp] theorem dropTrits_zero (x : Int) : dropTrits 0 x = x := by simp [dropTrits]

/-- Dropping the lowest trit leaves the value of the others. -/
theorem dropTrits_succ_cons (k : Nat) {t : Int} (a : Int) (ht : -1 ≤ t ∧ t ≤ 1) : dropTrits (k + 1) (t + 3 * a) = dropTrits k a := by
  unfold dropTrits
  have hdiv : (t + 3 * a + maxv (k + 1)) / 3 = a + maxv k := by
    have := maxv_succ k
    omega
  rw [Nat.pow_succ', Int.natCast_mul, ← Int.ediv_ediv_of_nonneg (by decide), show ((3 : Nat) : Int) = 3 from rfl, hdiv]

theorem trit_zero_cons {t : Int} (a : Int) (ht : -1 ≤ t ∧ t ≤ 1) : trit (t + 3 * a) 0 = t := by
  rw [trit, dropTrits_zero, show t + 3 * a = 3 ^ 1 * a + t by omega]
  exact wrap_mul_add a ht.1 ht.2

theorem trit_succ_cons (i : Nat) {t : Int} (a : Int) (ht : -1 ≤ t ∧ t ≤ 1) : trit (t + 3 * a) (i + 1) = trit a i := by
  rw [trit, dropTrits_succ_cons i a ht, trit]

/-- A value is its trit [0] and three times the rest. -/
theorem trit_zero_add_dropTrits (x : Int) : trit x 0 + 3 * dropTrits 1 x = x := by
  have := dropTrits_wrap 1 x
  rw [trit, dropTrits_zero]
  omega

theorem trit_range (x : Int) (i : Nat) : -1 ≤ trit x i ∧ trit x i ≤ 1 := wrap_range 1 _

theorem trit_succ (x : Int) (i : Nat) : trit x (i + 1) = trit (dropTrits 1 x) i := by
  have h := trit_succ_cons i (dropTrits 1 x) (trit_range x 0)
  rwa [trit_zero_add_dropTrits] at h

/-! ### Strings (R16) -/

@[simp] theorem ofTrits_nil : ofTrits [] = 0 := rfl
@[simp] theorem ofTrits_cons (t : Int) (l : List Int) : ofTrits (t :: l) = t + 3 * ofTrits l := rfl

theorem trits_succ (n : Nat) (x : Int) : trits (n + 1) x = trit x 0 :: trits n (dropTrits 1 x) := by
  simp [trits, List.range_succ_eq_map, trit_succ]

theorem sum_map_mul_left (c : Int) (f : Nat → Int) (l : List Nat) : (l.map (fun i => c * f i)).sum = c * (l.map f).sum := by
  induction l with
  | nil => simp
  | cons i l ih => rw [List.map_cons, List.map_cons, List.sum_cons, List.sum_cons, ih, Int.mul_add]

/-- The value of a string is Σ a(i) × 3^i. -/
theorem ofTrits_eq_sum (l : List Int) : ofTrits l = ((List.range l.length).map (fun (i : Nat) => l.getD i 0 * 3 ^ i)).sum := by
  induction l with
  | nil => rfl
  | cons t l ih =>
    have hshift : ((List.range l.length).map (fun (i : Nat) => (t :: l).getD (i + 1) 0 * 3 ^ (i + 1))).sum = 3 * ofTrits l := by
      rw [ih, ← sum_map_mul_left]
      refine congrArg List.sum (List.map_congr_left (fun i _ => ?_))
      rw [List.getD_cons_succ, Int.pow_succ, ← Int.mul_assoc, Int.mul_comm]
    rw [ofTrits_cons, List.length_cons, List.range_succ_eq_map, List.map_cons, List.sum_cons, List.map_map, List.getD_cons_zero,
      Int.pow_zero, Int.mul_one, ← hshift]
    rfl

theorem ofTrits_range (l : List Int) (h : ∀ t ∈ l, -1 ≤ t ∧ t ≤ 1) : -maxv l.length ≤ ofTrits l ∧ ofTrits l ≤ maxv l.length := by
  induction l with
  | nil => simp
  | cons t l ih =>
    obtain ⟨hl, hu⟩ := ih (fun u hu => h u (List.mem_cons_of_mem _ hu))
    have ht := h t List.mem_cons_self
    rw [ofTrits_cons, List.length_cons, maxv_succ]
    omega

/-- The trits of a string's value are the string's own. -/
theorem trit_ofTrits (l : List Int) (h : ∀ t ∈ l, -1 ≤ t ∧ t ≤ 1) (i : Nat) (hi : i < l.length) : trit (ofTrits l) i = l.getD i 0 := by
  induction l generalizing i with
  | nil => cases hi
  | cons t l ih =>
    have ht := h t List.mem_cons_self
    rw [ofTrits_cons]
    cases i with
    | zero => exact trit_zero_cons _ ht
    | succ i =>
      rw [trit_succ_cons i _ ht, List.getD_cons_succ]
      exact ih (fun u hu => h u (List.mem_cons_of_mem _ hu)) i (Nat.lt_of_succ_lt_succ hi)

/-- A value of n trits is the value of its trits. -/
theorem ofTrits_trits (n : Nat) (x : Int) (hl : -maxv n ≤ x) (hu : x ≤ maxv n) : ofTrits (trits n x) = x := by
  induction n generalizing x with
  | zero => rw [maxv_zero] at hl hu; simp [trits]; omega
  | succ n ih =>
    have hx := trit_zero_add_dropTrits x
    have ht := trit_range x 0
    rw [maxv_succ] at hl hu
    rw [trits_succ, ofTrits_cons, ih (dropTrits 1 x) (by omega) (by omega), hx]

/-- Settles O58: a string's value and trits by induction on the string, its uniqueness by induction on the length, and wrapping by
the split of a value into its truncated and its wrapped part. -/
theorem balancedTernary : Obligations.BalancedTernary := by
  unfold Obligations.BalancedTernary
  simp only [maxv_eq, neg_maxv_eq]
  refine ⟨fun l hl => ?_, fun n x hl hu => ofTrits_trits n x hl hu, dropTrits_nearest, wrap_eq_iff, fun _ _ => rfl, by decide⟩
  have htrits : ∀ t ∈ l, -1 ≤ t ∧ t ≤ 1 := fun t ht => by
    rcases hl t ht with rfl | rfl | rfl <;> decide
  obtain ⟨hlo, hhi⟩ := ofTrits_range l htrits
  exact ⟨ofTrits_eq_sum l, hlo, hhi, trit_ofTrits l htrits⟩

end Sys2Proof
end

section
/-! PROOFS. Register instructions that write words: fields and sub-elements, group collectives, float arithmetic, conversions. -/

namespace Sys2Proof.Machine

/-- Settles O4: each of the five writes the one word that its rule gives. -/
theorem fieldsAndSubElements : Obligations.FieldsAndSubElements := fun o =>
  ⟨word_writes _ o _ _ (fun _ => rfl) rfl, word_writes _ o _ _ (fun _ => rfl) rfl, word_writes _ o _ _ (fun _ => rfl) rfl,
    word_writes _ o _ _ (fun _ => rfl) rfl, word_writes _ o _ _ (fun _ => rfl) rfl⟩

/-! ### Collectives (R231–R235) -/

/-- VOTE ballot writes a v register (R233). -/
theorem execVote_ballot {o : Opnd} (h : o.f = 0) (s : State) : exec (.vote o) s = perform (.vote o) o (voteForm o)
    (wordBody o (fun s x _ => .ofInt (ofTrits ((List.range 27).map (fun j =>
      (assocGet (s.contrib x.t o.gr (fun t => (s.pred t (predNum o.a)).val)) j).getD 0))))) s := by
  change execVote o s = _
  simp only [execVote, if_pos h]

theorem voteForm_ballot {o : Opnd} (h : o.f = 0) : (voteForm o).d = .v := by simp [voteForm, h]

/-- Settles O7: each collective writes one v register of every lane. -/
theorem groupCollectives : Obligations.GroupCollectives := fun o =>
  ⟨word_writes_v _ o _ _ (fun _ => rfl) rfl, fun h => word_writes_v _ o _ _ (execVote_ballot h) (voteForm_ballot h),
    word_writes_v _ o _ _ (fun _ => rfl) rfl, word_writes_v _ o _ _ (fun _ => rfl) rfl, word_writes_v _ o _ _ (fun _ => rfl) rfl⟩

/-! ### Float instructions (R252–R257) -/

/-- A body of one element function of A, by its rule. -/
theorem elem1_mapsA (i : Instr) (o : Opnd) (fm : Form) (f : Int → Int) (he : ∀ s, exec i s = perform i o fm (elem1 o f) s)
    (hd : fm.d = .r) : MapsA i o fm f := word_writes i o fm _ he hd

/-- The same of A and the second operand, which may be the immediate. -/
theorem elem2_mapsAB (i : Instr) (o : Opnd) (fm : Form) (f : Int → Int → Int) (he : ∀ s, exec i s = perform i o fm (elem2 o f) s)
    (hd : fm.d = .r) : MapsAB i o fm true f := word_writes i o fm _ he hd

/-- The same of A, B and the register C. -/
theorem elem3_mapsABC (i : Instr) (o : Opnd) (fm : Form) (f : Int → Int → Int → Int)
    (he : ∀ s, exec i s = perform i o fm (elem3 o f) s) (hd : fm.d = .r) : MapsABC i o fm f := word_writes i o fm _ he hd

/-- A float function of A and B is delivered once, in the instruction's format (R252). -/
theorem flt2_mapsAB (i : Instr) (o : Opnd) (fm : Form) (f : FVal → FVal → FVal) (he : ∀ s, exec i s = perform i o fm (flt2 o f) s)
    (hd : fm.d = .r) : MapsAB i o fm false (fun a b => fput o (f (fval o.et a) (fval o.et b))) := word_writes i o fm _ he hd

/-- Settles O8: each float instruction delivers the one value that its element function gives. -/
theorem floatInstructions : Obligations.FloatInstructions := fun o =>
  ⟨flt2_mapsAB _ o _ FVal.add (fun _ => rfl) rfl, flt2_mapsAB _ o _ (fun a b => a.add b.neg) (fun _ => rfl) rfl,
    flt2_mapsAB _ o _ FVal.mul (fun _ => rfl) rfl, elem3_mapsABC _ o _ _ (fun _ => rfl) rfl, elem3_mapsABC _ o _ _ (fun _ => rfl) rfl,
    word_writes _ o _ _ (fun _ => rfl) rfl, flt2_mapsAB _ o _ FVal.min (fun _ => rfl) rfl,
    flt2_mapsAB _ o _ FVal.max (fun _ => rfl) rfl, elem1_mapsA _ o _ _ (fun _ => rfl) rfl, elem1_mapsA _ o _ _ (fun _ => rfl) rfl,
    elem2_mapsAB _ o _ _ (fun _ => rfl) rfl, elem1_mapsA _ o _ _ (fun _ => rfl) rfl, elem1_mapsA _ o _ _ (fun _ => rfl) rfl⟩

/-! ### Conversions (R263–R272) -/

theorem per_of_scalar {et : ETy} : et.scalar = true → et.per = 1 := by cases et <;> decide

theorem per_pos (et : ETy) : 0 < et.per := by cases et <;> decide

/-- Three elements, or one, to a destination word divide the elements of a step. -/
theorem dvd_max_per (et : ETy) {cd : Nat} (h : cd = 1 ∨ cd = 3) : cd ∣ max et.per cd := by
  rcases h with rfl | rfl <;> cases et <;> decide

theorem cvtPer_cases (x : Int) : cvtPer x = 1 ∨ cvtPer x = 3 := by unfold cvtPer; split <;> simp

/-- A conversion body writes the words of its elements in the registers that its form names (R263, R264). -/
theorem conv_writes (i : Instr) (o : Opnd) (fm : Form) {cs cd : Nat} (dst : ETy) (f : State → Exec → Nat → Nat → Int)
    (he : ∀ s, exec i s = perform i o fm (convBody o cs cd dst f) s) (hd : fm.d = .r) (hm : fm.moreV = (convert o cs cd true).moreV)
    (hc : 0 < cd) (hs : o.et.scalar = true → cs = 1) (hdv : cd ∣ max cs cd) :
    Writes i o fm (fun s x k => destWords dst cd ((List.range (max cs cd)).map (fun j => f s x k j))) :=
  words_writes i o fm _ he (names_convert o fm cs cd true dst f hc hd hm hs hdv)

theorem cvt_writes (o : Opnd) : Writes (.cvt o) o (cvtForm o) (fun s x k => destWords (cvtTarget o.x) (cvtPer o.x)
    ((List.range (max o.et.per (cvtPer o.x))).map (fun j =>
      cvtElem o (convMode s x o k j .tern) (x.elemOf s o.a k o.et o.et.per j)))) :=
  conv_writes _ o _ _ _ (fun _ => rfl) rfl rfl (by rcases cvtPer_cases o.x with h | h <;> omega) per_of_scalar
    (dvd_max_per _ (cvtPer_cases _))

/-- CVTB reads one pattern of a word where the low trit of F is +, else the elements of its type (R266). -/
theorem cvtb_writes (o : Opnd) : Writes (.cvtb o) o (cvtbForm o) (fun s x k => destWords .t27 1
    ((List.range (max (if trit o.f 0 = 1 then 1 else o.et.per) 1)).map (fun j =>
      cvtbElem o (convMode s x o k j .bin) (x.elemOf s o.a k o.et (if trit o.f 0 = 1 then 1 else o.et.per) j)))) :=
  conv_writes _ o _ _ _ (fun _ => rfl) rfl rfl Nat.one_pos (fun h => by rw [per_of_scalar h]; exact ite_self 1) (Nat.one_dvd _)

theorem cvtf_writes (o : Opnd) : Writes (.cvtf o) o (convert o 1 o.et.per true) (fun s x k => destWords o.et o.et.per
    ((List.range (max 1 o.et.per)).map (fun j => cvtfElem o (convMode s x o k j .bin) (x.elemOf s o.a k .t27 1 j)))) :=
  conv_writes _ o _ _ _ (fun _ => rfl) rfl rfl (per_pos _) (fun _ => rfl) ⟨1, (Nat.max_eq_right (per_pos _)).trans (Nat.mul_one _).symm⟩

theorem dquant_writes (o : Opnd) : Writes (.dquant o) o (dquantForm o) (fun s x k =>
    let dst := if o.x = 0 then ETy.tf27 else .tf9
    destWords dst (if o.x = 0 then 1 else 3) ((List.range (max o.et.per (if o.x = 0 then 1 else 3))).map (fun j =>
      (fmtOf dst).deliver o.sat .tern ((ternVal o.et (elemAt o.et (x.src s o o.ma (o.a + ((j / o.et.per : Nat) : Int)) k).val
        (j % o.et.per))).scale3 (clampScale (-(if o.f = 0 then (x.reg s o.b k).val else o.c))))))) :=
  have hcd : (if o.x = 0 then 1 else 3) = 1 ∨ (if o.x = 0 then 1 else 3) = 3 := by split <;> simp
  conv_writes _ o _ _ _ (fun _ => rfl) rfl (by simp [dquantForm, convert]) (by omega) per_of_scalar (dvd_max_per _ hcd)

/-- STAMP names D and the register behind it, both of a lane. -/
theorem stamp_writes (o : Opnd) : Writes (.stamp o) o { d := .v, moreV := [o.d + 1] } (fun s x _ =>
    [lowWord (s.stampOf (s.partOf x.t.team)), highWord (s.stampOf (s.partOf x.t.team))]) := by
  refine words_writes _ o _ _ (fun _ => rfl) (fun h => names_more _ o _ (.inl rfl) h (fun s x k j h0 hj => ?_) (fun hs => ?_))
  · have hj1 : j = 1 := by simp only [List.length_cons, List.length_nil] at hj; omega
    simp [hj1]
  · obtain ⟨-, -, -, -, -, -, -, -, hvec, -⟩ := h
    rw [hvec rfl] at hs
    cases hs

/-- Settles O9: a conversion writes the words of its elements, DRAW its word and STAMP its two. -/
theorem conversions : Obligations.Conversions := fun o =>
  ⟨cvt_writes o, cvtb_writes o, cvtf_writes o, dquant_writes o, word_writes_v _ o _ _ (fun _ => rfl) rfl, stamp_writes o⟩

end Sys2Proof.Machine
end

section
/-! PROOFS. The lane commands of the tellers (R200). -/

namespace Sys2Proof.Machine

/-- A lane command whose every element is found performs them in order, and its lane passes. -/
theorem xfLane_eq_add {o : Opnd} {op : Int} {ret : Bool} {e : Eff} {x : Exec} {w : State} {a : After}
    (h : xfLaneRule o op ret e.s x = some (w, a)) : xfLane o op ret e x = e.add w x a ∧ a ≠ .stay := by
  unfold xfLaneRule at h
  split at h
  · next s ps hfind =>
    cases h
    exact ⟨by simp [xfLane, hfind], by simp⟩
  · cases h

/-- A lane command completes by the rule of one lane, the lanes in ascending order. -/
theorem xfLane_does (i : Instr) (o : Opnd) (fm : Form) (op : Int) (ret : Bool)
    (he : ∀ s, exec i s = perform i o fm (inOrder (xfLane o op ret)) s) : Does i o fm (eachDo (xfLaneRule o op ret)) :=
  order_does i o fm _ _ he (fun _ _ _ _ _ => xfLane_eq_add)

/-- Settles O21: the seven lane commands share one body. -/
theorem laneTeller : Obligations.LaneTeller := fun o =>
  ⟨xfLane_does _ o _ _ _ (fun _ => rfl), xfLane_does _ o _ _ _ (fun _ => rfl), xfLane_does _ o _ _ _ (fun _ => rfl),
    xfLane_does _ o _ _ _ (fun _ => rfl), xfLane_does _ o _ _ _ (fun _ => rfl), xfLane_does _ o _ _ _ (fun _ => rfl),
    xfLane_does _ o _ _ _ (fun _ => rfl)⟩

end Sys2Proof.Machine
end

section
/-! PROOFS. QUANT: the checks of its records, their updates pair by pair, and the delivered elements (R268–R270). -/

namespace Sys2Proof.Machine

/-- One record that passes step 1 of R269 is entered with its translation; the others follow from there. -/
theorem quantFind_cons {n : Nat} {va : Word} {l : List Word} {s w : State} {xl : List (Word × Xl)}
    (h : quantFind n (va :: l) s = some (w, xl)) : ∃ s' x yl, quantFind n l s' = some (w, yl) ∧ xl = (va, x) :: yl
      ∧ ∀ acc, quantCheck n (s, .ok acc) va = (s', .ok (acc ++ [(va, x)])) := by
  simp only [quantFind] at h
  split at h
  · next hal =>
    split at h
    · next u t x hlock htr =>
      split at h
      · cases h
      · next hbusy =>
        simp only [Option.bind_eq_some_iff] at h
        obtain ⟨⟨s', line⟩, hread, h⟩ := h
        split at h
        · cases h
        · next hpoison =>
          simp only [Option.map_eq_some_iff] at h
          obtain ⟨⟨w', yl⟩, hrest, h⟩ := h
          cases h
          have hsound : line.poison = false := Bool.not_eq_true _ ▸ hpoison
          exact ⟨s', x, yl, hrest, rfl, fun acc => by simp [quantCheck, hal, hlock, htr, hbusy, hread, hsound]⟩
    · cases h
  · cases h

/-- The checks of all records, where every one passes. -/
theorem foldl_quantCheck {n : Nat} {l : List Word} {s w : State} {xl : List (Word × Xl)} (h : quantFind n l s = some (w, xl))
    (acc : List (Word × Xl)) : l.foldl (quantCheck n) (s, .ok acc) = (w, .ok (acc ++ xl)) := by
  induction l generalizing s xl acc with
  | nil => cases h; simp
  | cons va l ih =>
    obtain ⟨s', x, yl, hrest, rfl, hstep⟩ := quantFind_cons h
    rw [List.foldl_cons, hstep, ih hrest]
    simp

/-- One pair whose record's excess does not trap updates its record and gives its lanes the shift. -/
theorem quantStep_of_quantPair {o : Opnd} {n : Nat} {xl : List (Word × Xl)} {mine : Word × Int → List Exec}
    {c : Word × Int → Contribution} {p : Word × Int} {s w : State} {sh : List (Exec × Int)}
    (h : quantPair o n xl p (mine p) (c p) s = some (w, sh)) (acc : List (Exec × Int)) :
    quantStep o n xl mine c (s, acc, []) p = (w, acc ++ sh, []) := by
  simp only [quantPair, Option.bind_eq_some_iff] at h
  obtain ⟨x, hx, ⟨t, before, serial⟩, hwrite, h⟩ := h
  obtain ⟨htrap, h⟩ := Option.ite_none_left_eq_some.1 h
  cases h
  simp only [quantStep, hx, hwrite, if_neg htrap]

/-- The pairs one after another, none of whose records traps. -/
theorem foldl_quantStep {o : Opnd} {n : Nat} {xl : List (Word × Xl)} {mine : Word × Int → List Exec} {c : Word × Int → Contribution}
    {l : List (Word × Int)} {s w : State} {sh : List (Exec × Int)} (h : quantPairs o n xl mine c l s = some (w, sh))
    (acc : List (Exec × Int)) : l.foldl (quantStep o n xl mine c) (s, acc, []) = (w, acc ++ sh, []) := by
  induction l generalizing s sh acc with
  | nil => cases h; simp
  | cons p l ih =>
    simp only [quantPairs, Option.bind_eq_some_iff, Option.map_eq_some_iff] at h
    obtain ⟨⟨s', sh₁⟩, hpair, ⟨w', sh₂⟩, hrest, h⟩ := h
    cases h
    rw [List.foldl_cons, quantStep_of_quantPair hpair, ih hrest, List.append_assoc]

/-- Where the rule applies, QUANT's body leaves the rule's state and stops no execution. -/
theorem quantBody_of_quantRule {o : Opnd} {xs : List Exec} {s w : State} {l : List (Exec × After)}
    (h : quantRule o xs s = some (w, l)) : quantBody o s xs = Eff.from w l := by
  cases xs with
  | nil => cases h; rfl
  | cons x0 xs =>
    simp only [quantRule, Option.bind_eq_some_iff, Option.map_eq_some_iff] at h
    obtain ⟨⟨s', xl⟩, hfind, ⟨t, sh⟩, hpairs, h⟩ := h
    cases h
    rw [from_pass]
    simp only [quantBody, foldl_quantCheck hfind, List.nil_append, foldl_quantStep hpairs, List.map_nil]
    rfl

/-- Settles O29: the checks, then the pairs, then the writes of the delivered elements. -/
theorem quantisation : Obligations.Quantisation := fun o =>
  does_of_body _ o _ _ _ (fun _ => rfl) (fun _ _ _ => quantBody_of_quantRule)

end Sys2Proof.Machine
end

section
/-! PROOFS. Leases taken, expired and released threads (R111, R112, R330, R331, R380). -/

namespace Sys2Proof.Machine

/-! ### A blocked thread goes on (R155) -/

/-- A blocked thread whose instruction completes. -/
def Thread.released (th : Thread) : Thread :=
  { Thread.count { th with pc := th.pc.add (3 * (th.instr.length : Int)), conv := 0, instr := [] } th.wins.length with run := .ready }

theorem Thread.goesOn_released (th : Thread) : GoesOn th th.released := ⟨rfl, rfl, rfl⟩

/-- The release of a thread completes its instruction and changes no other thread. -/
theorem thread?_release (s : State) (r u : TRef) :
    (s.release r).thread? u = if u = r then (s.thread? u).map Thread.released else s.thread? u := by
  unfold State.release
  split
  · next hr =>
    by_cases hu : u = r
    · subst hu; simp [hr]
    · simp [hu]
  · next th hr =>
    by_cases hu : u = r
    · subst hu; simp [State.setRun, State.finish, hr, Thread.released]
    · simp [State.setRun, State.finish, hu]

@[simp] theorem State.release_vl (s : State) (r : TRef) (x : Nat) : (s.release r).vl x = s.vl x := by
  unfold State.release; split <;> rfl

@[simp] theorem State.release_copy (s : State) (r : TRef) (a x : Nat) : (s.release r).copy a x = s.copy a x := by
  unfold State.release; split <;> rfl

theorem onlySquads_release (s : State) (r : TRef) : OnlySquads s (s.release r) := by
  unfold State.release
  split
  · exact ⟨rfl, fun _ => rfl⟩
  · exact ⟨rfl, fun m => (team?_bare_modThread _ r m _).trans (team?_bare_modThread s r m _)⟩

/-! ### The coherent content of a line (R97) -/

/-- A dirty copy that shows no error supplies its data, and nothing changes. -/
theorem takeDirty_sound {s : State} {slot : Nat} (h : ∀ c, s.dirtyCopy slot = some c → c.flips = []) :
    s.takeDirty slot = (s, (s.dirtyCopy slot).map (·.line)) := by
  unfold State.takeDirty
  cases hd : s.dirtyCopy slot with
  | none => rfl
  | some c => simp [checkCopy_sound (h c hd)]

/-- Invalidating the copies of a line leaves none in any cache. -/
theorem copy_invalidate (s : State) (a slot : Nat) : (s.invalidate slot).1.copy a slot = none :=
  find_filter_gone _ _ _ (fun c hc => by
    obtain ⟨-, hslot⟩ := Bool.and_eq_true_iff.1 hc
    rw [bne, hslot, Bool.not_true])

/-- Where the dirty copy shows no error, invalidating the copies of a line changes no team. -/
theorem invalidate_teams {s : State} {slot : Nat} (h : ∀ c, s.dirtyCopy slot = some c → c.flips = []) :
    (s.invalidate slot).1.teams = s.teams := by
  simp [State.invalidate, takeDirty_sound h]

/-- Where the dirty copy shows no error, invalidating the copies of a line gives that copy's data. -/
theorem invalidate_snd {s : State} {slot : Nat} (h : ∀ c, s.dirtyCopy slot = some c → c.flips = []) :
    (s.invalidate slot).2 = (s.dirtyCopy slot).map (·.line) := by
  simp [State.invalidate, takeDirty_sound h]

/-! ### LEASE_GRANT (R111, R112) -/

/-- A line as its lease at the home leaves it: in no cache, with its coherent content. -/
def State.leasedAtHome (s : State) (v : VLine) : VLine :=
  { v with st := .I, owner := 0, sharers := [], remote := false, leased := true, line := s.dataOf v,
           vdirty := v.vdirty || (s.dirtyCopy v.slot).isSome }

/-- A lease at the home takes the line out of every cache, with its coherent content. -/
theorem takeLease_home {s : State} {core : Nat} {l : LeaseRec} {v : VLine} (hl : l.atHome = true) (hv : s.vl l.slot = some v)
    (hf : v.flips = []) (hB : s.isB l.slot = false) (hd : ∀ c, s.dirtyCopy l.slot = some c → c.flips = []) :
    s.takeLease core l = some ((s.invalidate l.slot).1.putVl (s.leasedAtHome v), s.dataOf v) := by
  have hsound : health v.flips (s.isB l.slot && badGroup v.line) = .sound := by rw [hf, hB]; rfl
  have hslot := vl_slot hv
  unfold State.takeLease State.leasedAtHome State.dataOf
  simp only [if_pos hl, ensure_vl hv hsound, Option.map_some, invalidate_snd hd, hslot]
  cases s.dirtyCopy l.slot <;> simp [hf]

/-- A lease in the L1 marks the core's copy, with its content. -/
theorem takeLease_copy {s : State} {core : Nat} {l : LeaseRec} {c : Copy} (hl : l.atHome = false) (hc : s.copy core l.slot = some c)
    (hf : c.flips = []) : s.takeLease core l = some (s.putCopy { c with leased := true }, c.line) := by
  simp [State.takeLease, hl, hc, checkCopy_sound hf]

/-- A thread whose lease record `l` is granted with an image. -/
def Thread.grantLease (l : LeaseRec) (image : Line) (th : Thread) : Thread :=
  { th with leases := th.leases.map (fun q => if q = l then { q with image := image, granted := true } else q) }

/-- A lease that the shell admits and that is taken is granted with the line's content as its image, and its thread is released. -/
theorem exec_leaseGrant_of_takeLease {s w : State} {r : TRef} {th : Thread} {l : LeaseRec} {image : Line} (hth : s.thread? r = some th)
    (hl : th.leases.find? (fun q => !q.granted) = some l) (hwhy : s.physWhy l.slot = none) (hB : s.isB l.slot = false)
    (hready : s.leaseReady (s.coreOf r.team) l = true) (htake : s.takeLease (s.coreOf r.team) l = some (w, image)) :
    exec (.leaseGrant r) s = .next ((w.modThread r (Thread.grantLease l image)).release r) := by
  have hbar : s.leaseBar l.slot = none := by simp [State.leaseBar, hwhy, hB]
  show execLeaseGrant r s = _
  simp only [execLeaseGrant, hth, Option.bind_some, hl, hbar, hready, htake]
  rfl

/-- The thread of a granted lease stands behind its LEASE with the record granted. -/
theorem thread?_release_grantLease {s w : State} {r : TRef} {th : Thread} (hth : s.thread? r = some th) (hw : w.teams = s.teams)
    (l : LeaseRec) (image : Line) :
    ((w.modThread r (Thread.grantLease l image)).release r).thread? r = some (th.grantLease l image).released := by
  have hwth : w.thread? r = some th := by rw [← hth]; simp only [State.thread?, State.squad?, State.team?, hw]
  simp [thread?_release, hwth]

/-! ### LEASE_EXPIRY (R331) -/

/-- A valid lease whose count has run out is dropped, and its record becomes invalid. -/
theorem exec_leaseExpiry_of_count {s : State} {r : TRef} {line : Nat} {l : LeaseRec} (hl : s.leaseOf r line = some l)
    (hvalid : l.valid = true) (hcount : l.count = 0) : exec (.leaseExpiry r line) s = .next ((s.dropLease r l).modThread r
      (fun th => { th with leases := th.leases.map (fun q => if q = l then { q with valid := false } else q) })) := by
  show execLeaseExpiry r line s = _
  simp [execLeaseExpiry, hl, hvalid, hcount]

theorem granted_of_leaseOf {s : State} {r : TRef} {line : Nat} {l : LeaseRec} (h : s.leaseOf r line = some l) : l.granted = true := by
  obtain ⟨th, -, hfind⟩ := Option.bind_eq_some_iff.1 h
  have := List.find?_some hfind
  exact (Bool.and_eq_true_iff.1 this).2

/-- A lease of a copy that no probe waits for ends by unmarking the copy. -/
theorem dropLease_copy {s : State} {r : TRef} {l : LeaseRec} {c : Copy} (hgranted : l.granted = true) (hvalid : l.valid = true)
    (hl : l.atHome = false) (hc : s.copy (s.coreOf r.team) l.slot = some c) (hp : c.probes = []) :
    s.dropLease r l = s.putCopy { c with leased := false } := by
  obtain ⟨agent, slot, st, line, leased, probes, back, flips⟩ := c
  cases hp
  simp [State.dropLease, hgranted, hvalid, hl, State.endLeaseCopy, hc]

/-- A lease at the home of a line that nothing waits for ends by unmarking the line. -/
theorem dropLease_home {s : State} {r : TRef} {l : LeaseRec} {v : VLine} (hgranted : l.granted = true) (hvalid : l.valid = true)
    (hl : l.atHome = true) (hv : s.vl l.slot = some v) (ht : v.txn = none) (hq : v.queue = []) :
    s.dropLease r l = s.putVl { v with leased := false } := by
  have hput : (s.putVl { v with leased := false }).vl l.slot = some { v with leased := false } := by simp [vl_putVl, vl_slot hv]
  have hsettle : (s.putVl { v with leased := false }).settleTxn l.slot = s.putVl { v with leased := false } := by
    unfold State.settleTxn
    rw [hput]
    exact advance_idle _ _ _ _ hput ht hq
  simp [State.dropLease, hgranted, hvalid, hl, State.endLeaseHome, hv, hsettle]

/-! ### SLEEP_WAKE (R380) -/

theorem exec_sleepWake_of_sleep {s : State} {r : TRef} {th : Thread} {slot deadline : Nat} (hth : s.thread? r = some th)
    (hrun : th.run = .sleep slot deadline) : exec (.sleepWake r) s = .next (s.release r) := by
  show execSleepWake r s = _
  simp only [execSleepWake, hth, hrun]

/-! ### The obligation -/

/-- Settles O36: a grant at the home or in the L1 by what it takes, an expiry by what it drops, and a wake-up by the release of its
thread. -/
theorem leaseAndSleepSteps : Obligations.LeaseAndSleepSteps := by
  refine ⟨?home, ?copy, ?expiry, ?wake⟩
  case home =>
    intro s r th l v hth hl hhome hv hbusy hf hwhy hB hd
    have hready : s.leaseReady (s.coreOf r.team) l = true := by simp [State.leaseReady, hhome, hbusy]
    have htake := takeLease_home (core := s.coreOf r.team) hhome hv hf hB hd
    have hteams := (State.putVl_teams _ (s.leasedAtHome v)).trans (invalidate_teams hd)
    refine ⟨_, _, exec_leaseGrant_of_takeLease hth hl hwhy hB hready htake, thread?_release_grantLease hth hteams _ _,
      Thread.goesOn_released _, fun a => ?_, ?_, rfl⟩
    · simp [copy_invalidate]
    · simp [vl_putVl, State.leasedAtHome, vl_slot hv]
  case copy =>
    intro s r th l c hth hl hhome hwhy hB hc hst hback hfree hf
    obtain ⟨hagent, hslot⟩ := copy_id hc
    have hready : s.leaseReady (s.coreOf r.team) l = true := by simp [State.leaseReady, hhome, hc, hst, hback, hfree]
    have htake := takeLease_copy hhome hc hf
    refine ⟨_, _, exec_leaseGrant_of_takeLease hth hl hwhy hB hready htake,
      thread?_release_grantLease hth (State.putCopy_teams _ _) _ _, Thread.goesOn_released _, ?_, rfl⟩
    simp [copy_putCopy, hagent, hslot]
  case expiry =>
    intro s r line th l hth hl hvalid hcount
    have hgranted := granted_of_leaseOf hl
    have hexec := exec_leaseExpiry_of_count hl hvalid hcount
    refine ⟨fun c hhome hc hp => ?_, fun v hhome hv ht hq => ?_⟩
    · obtain ⟨hagent, hslot⟩ := copy_id hc
      rw [dropLease_copy hgranted hvalid hhome hc hp] at hexec
      exact ⟨_, hexec, by simp [copy_putCopy, hagent, hslot], by simp [hth]⟩
    · rw [dropLease_home hgranted hvalid hhome hv ht hq] at hexec
      exact ⟨_, hexec, by simp [vl_putVl, vl_slot hv], by simp [hth]⟩
  case wake =>
    intro s r th slot deadline hth hrun
    exact ⟨_, th.released, exec_sleepWake_of_sleep hth hrun, by simp [thread?_release, hth], th.goesOn_released,
      onlySquads_release s r, fun u hu => by rw [thread?_release, if_neg hu]⟩

end Sys2Proof.Machine
end

section
/-! PROOFS. Parts of teams that an update leaves as they were, the words of a cabinet, the commands of a team and the threads that go on:
what the steps of the engines and of the fabric do to each. -/

namespace Sys2Proof.Machine

/-! ### Parts of teams -/

/-- The part `g` of every team is in both states the same. -/
def SameBody {α : Type} (g : TeamBody → α) (s t : State) : Prop :=
  ∀ m, (t.team? m).map (fun u => g u.body) = (s.team? m).map (fun u => g u.body)

theorem SameBody.refl {α : Type} (g : TeamBody → α) (s : State) : SameBody g s s := fun _ => rfl

theorem SameBody.trans {α : Type} {g : TeamBody → α} {s t u : State} (h : SameBody g s t) (k : SameBody g t u) : SameBody g s u :=
  fun m => (k m).trans (h m)

theorem SameBody.map {α β : Type} {g : TeamBody → α} {s t : State} (h : SameBody g s t) (f : α → β) : SameBody (fun b => f (g b)) s t := by
  intro m
  have := congrArg (Option.map f) (h m)
  simpa [Function.comp_def] using this

theorem sameBody_of_teams {α : Type} (g : TeamBody → α) {s t : State} (h : t.teams = s.teams) : SameBody g s t := by
  intro m
  simp only [State.team?, h]

theorem sameBody_modTeam {α : Type} (g : TeamBody → α) (s : State) (n : Nat) {f : Team → Team} (hn : ∀ t, (f t).num = t.num)
    (hg : ∀ t, g (f t).body = g t.body) : SameBody g s (s.modTeam n f) := by
  intro m
  rw [team?_modTeam s n m f hn]
  by_cases hm : m = n <;> simp [hm, Function.comp_def, hg]

theorem sameBody_irrevocable {α : Type} (g : TeamBody → α) (s : State) (n : Nat) : SameBody g s (s.irrevocable n) :=
  sameBody_modTeam (f := fun t => { t with irrevocable := true }) g s n (fun _ => rfl) (fun _ => rfl)

theorem sameBody_modBody {α : Type} (g : TeamBody → α) (s : State) (n : Nat) {f : TeamBody → TeamBody} (h : ∀ b, g (f b) = g b) :
    SameBody g s (s.modBody n f) :=
  sameBody_modTeam g s n (fun _ => rfl) (fun t => h t.body)

theorem sameBody_laterOnce {α : Type} (g : TeamBody → α) (s : State) (i : Instr) : SameBody g s (s.laterOnce i) :=
  sameBody_of_teams g (State.laterOnce_teams s i)

theorem sameBody_foldl {α β : Type} (g : TeamBody → α) {f : State → β → State} (h : ∀ s a, SameBody g s (f s a)) (l : List β) (s : State) :
    SameBody g s (l.foldl f s) := by
  induction l generalizing s with
  | nil => exact .refl g s
  | cons a l ih => exact (h s a).trans (ih _)

theorem cab_of_sameBody {s t : State} (h : SameBody TeamBody.cab s t) (m : Nat) (i : Int) : t.cab m i = s.cab m i := by
  have := h m
  unfold State.cab
  cases hs : s.team? m <;> cases ht : t.team? m <;> simp_all

theorem cmd?_of_sameBody {s t : State} (h : SameBody TeamBody.cmds s t) (m k : Nat) : t.cmd? m k = s.cmd? m k := by
  have := h m
  unfold State.cmd?
  cases hs : s.team? m <;> cases ht : t.team? m <;> simp_all

theorem rec?_of_sameBody {s t : State} (h : SameBody TeamBody.recs s t) (m k : Nat) : t.rec? m k = s.rec? m k := by
  have := h m
  unfold State.rec?
  cases hs : s.team? m <;> cases ht : t.team? m <;> simp_all

theorem tile_of_sameBody {s t : State} (h : SameBody TeamBody.tiles s t) (m k : Nat) : t.tile m k = s.tile m k := by
  have := h m
  unfold State.tile
  cases hs : s.team? m <;> cases ht : t.team? m <;> simp_all

theorem thread?_of_sameBody {s t : State} (h : SameBody TeamBody.squads s t) (u : TRef) : t.thread? u = s.thread? u := by
  have := h u.team
  unfold State.thread? State.squad?
  cases hs : s.team? u.team <;> cases ht : t.team? u.team <;> simp_all

/-! ### Words of a cabinet (R116) -/

theorem assocGet_intPut {α : Type} (l : List (Int × α)) (k j : Int) (a : α) :
    assocGet (intPut l k a) j = if j = k then some a else assocGet l j := by
  induction l with
  | nil => simp [intPut, assocGet, eq_comm]
  | cons p l ih =>
    obtain ⟨i, b⟩ := p
    unfold intPut
    split
    · next hlt => simp only [assocGet, ih]; grind
    · split <;> simp only [assocGet] <;> grind

theorem cabGet_cabPut (l : List (Int × Word)) (k j : Int) (w : Word) : cabGet (cabPut l k w) j = if j = k then w else cabGet l j := by
  unfold cabGet cabPut
  split
  · next hw => rw [assocGet_assocDel]; split <;> simp [hw]
  · rw [assocGet_intPut]; split <;> simp

theorem cab_setCab (s : State) (n m : Nat) (k i : Int) (w : Word) :
    (s.setCab n k w).cab m i = if m = n ∧ i = k ∧ (s.team? m).isSome then w else s.cab m i := by
  unfold State.setCab State.cab
  rw [team?_modBody]
  by_cases hm : m = n
  · cases hs : s.team? m <;> simp [hm, cabGet_cabPut]
  · simp [hm]

theorem sameBody_putCabWord {α : Type} (g : TeamBody → α) (s : State) (n : Nat) (c : CabAt) (w : Word)
    (h : ∀ b c', g { b with cab := c' } = g b) : SameBody g s (s.putCabWord n c w) := by
  have hset : SameBody g s (s.setCab c.team (c.a / 3) w) := sameBody_modBody g s c.team (fun b => h b _)
  unfold State.putCabWord
  simp only
  split
  · exact hset
  · exact (hset.trans (sameBody_irrevocable g _ n)).trans (sameBody_irrevocable g _ c.team)

theorem cab_putCabWord (s : State) (n m : Nat) (c : CabAt) (i : Int) (w : Word) :
    (s.putCabWord n c w).cab m i = if m = c.team ∧ i = c.a / 3 ∧ (s.team? m).isSome then w else s.cab m i := by
  rw [← cab_setCab]
  unfold State.putCabWord
  simp only
  split
  · rfl
  · exact cab_of_sameBody ((sameBody_irrevocable _ _ n).trans (sameBody_irrevocable _ _ c.team)) m i

theorem team?_isSome_putCabWord (s : State) (n m : Nat) (c : CabAt) (w : Word) : ((s.putCabWord n c w).team? m).isSome = (s.team? m).isSome := by
  have := congrArg Option.isSome (sameBody_putCabWord (fun _ => ()) s n c w (fun _ _ => rfl) m)
  simpa using this

/-! ### The commands of a team -/

theorem cmd?_seq {s : State} {n seq : Nat} {c : Cmd} (h : s.cmd? n seq = some c) : c.seq = seq := by
  obtain ⟨t, -, hfind⟩ := Option.bind_eq_some_iff.1 h
  exact eq_of_beq (List.find?_some hfind :)

theorem find_map_seq (l : List Cmd) (seq k : Nat) (f : Cmd → Cmd) (h : ∀ c, (f c).seq = c.seq) :
    (l.map (fun c => if c.seq = seq then f c else c)).find? (fun c => c.seq == k)
      = if k = seq then (l.find? (fun c => c.seq == k)).map f else l.find? (fun c => c.seq == k) := by
  induction l with
  | nil => simp
  | cons a l ih => rw [List.map_cons, List.find?_cons, List.find?_cons, ih]; grind

/-- A change that keeps sequence numbers changes the named command and no other. -/
theorem cmd?_modCmd (s : State) (n seq m k : Nat) (f : Cmd → Cmd) (h : ∀ c, (f c).seq = c.seq) :
    (s.modCmd n seq f).cmd? m k = if m = n ∧ k = seq then (s.cmd? m k).map f else s.cmd? m k := by
  unfold State.modCmd State.cmd?
  rw [team?_modBody]
  by_cases hm : m = n
  · subst hm
    cases s.team? m
    · simp
    · simp [find_map_seq _ seq k f h]
  · simp [hm]

theorem sameBody_modCmd {α : Type} (g : TeamBody → α) (s : State) (n seq : Nat) (f : Cmd → Cmd) (h : ∀ b l, g { b with cmds := l } = g b) :
    SameBody g s (s.modCmd n seq f) := sameBody_modBody g s n (fun b => h b _)

theorem cmd?_modCmd_same {s : State} {n seq : Nat} {c : Cmd} (h : s.cmd? n seq = some c) (f : Cmd → Cmd) (hf : ∀ c, (f c).seq = c.seq) :
    (s.modCmd n seq f).cmd? n seq = some (f c) := by
  rw [cmd?_modCmd s n seq n seq f hf, if_pos ⟨rfl, rfl⟩, h]
  rfl

/-- A command that has ended with a status and a fault address. -/
def Cmd.endedWith (st : Nat) (addr : Word) (c : Cmd) : Cmd := { c with status := some st, fault := addr, parked := false }

theorem endCmd_eq (s : State) (n seq st : Nat) (addr : Word) : s.endCmd n seq st addr =
    ((s.modSavedCmd n seq (Cmd.endedWith st addr)).modCmd n seq (Cmd.endedWith st addr)).laterOnce (.engineCommandComplete n seq) := rfl

theorem sameBody_endCmd {α : Type} (g : TeamBody → α) (s : State) (n seq st : Nat) (addr : Word) (h : ∀ b l, g { b with cmds := l } = g b) :
    SameBody g s (s.endCmd n seq st addr) := by
  rw [endCmd_eq]
  have hmod := sameBody_modCmd g (s.modSavedCmd n seq (Cmd.endedWith st addr)) n seq (Cmd.endedWith st addr) h
  exact SameBody.trans hmod (sameBody_laterOnce g _ _)

theorem cmd?_laterOnce (s : State) (i : Instr) (m k : Nat) : (s.laterOnce i).cmd? m k = s.cmd? m k :=
  cmd?_of_sameBody (sameBody_laterOnce _ s i) m k

/-- The end of a command shows in it. -/
theorem cmd?_endCmd {s : State} {n seq : Nat} {c : Cmd} (h : s.cmd? n seq = some c) (st : Nat) (addr : Word) :
    (s.endCmd n seq st addr).cmd? n seq = some (c.endedWith st addr) := by
  rw [endCmd_eq, cmd?_laterOnce]
  exact cmd?_modCmd_same (s := s.modSavedCmd n seq (Cmd.endedWith st addr)) h (Cmd.endedWith st addr) (fun _ => rfl)

theorem mem_laterOnce (s : State) (i : Instr) : i ∈ (s.laterOnce i).agenda := by
  unfold State.laterOnce
  split
  · next h => exact List.contains_iff_mem.1 h
  · simp [State.later]

theorem complete_mem_endCmd (s : State) (n seq st : Nat) (addr : Word) :
    .engineCommandComplete n seq ∈ (s.endCmd n seq st addr).agenda := mem_laterOnce _ _

end Sys2Proof.Machine
end

section
/-! PROOFS. The steps of engine and matrix commands: their beginning, the pieces of range teller commands, their completion and what waits
for it (R120–R135, R201, R289). -/

namespace Sys2Proof.Machine

/-! ### Beginning (R122, R133, R289) -/

theorem exec_scoreboardStart {s : State} {n seq : Nat} {c : Cmd} (h : s.cmd? n seq = some c) :
    exec (.scoreboardStart n seq) s = .next (if s.cmdReady n c then s.runCmd n c else s) := by
  show execScoreboardStart n seq s = _
  simp only [execScoreboardStart, h]

/-- A range teller command begins by sending its pieces to their drawers. -/
theorem runCmd_tell {s : State} {n m : Nat} {c : Cmd} {r : Rng} (hx : isRangeXf c.instr = true) (hb : c.begun = false)
    (hr : c.ranges = [r]) (hm : r.cab = some m) : s.runCmd n c =
      ({ s.modCmd n c.seq (fun k => { k with begun := true, pieces := drawersOf r.lo r.hi, queued := s.ncmd }) with ncmd := s.ncmd + 1 } : State).later
        ((drawersOf r.lo r.hi).map (fun d => .drawerRequest (s.coreOf m) d)) := by
  simp only [State.runCmd, hx, hb, if_true, State.beginTell, hr, hm]
  rfl

theorem sameBody_mxDone {α : Type} (g : TeamBody → α) (s : State) (n k : Nat) (c : Cmd) (h : ∀ b l, g { b with cmds := l } = g b) :
    SameBody g s (s.mxDone n c k) := (sameBody_modCmd g s n c.seq _ h).trans (sameBody_endCmd g _ n c.seq 0 .zero h)

/-- A matrix command that has performed `k` elements and ended. -/
def Cmd.performed (k : Nat) (c : Cmd) : Cmd := Cmd.endedWith 0 .zero { c with done := k }

theorem cmd?_mxDone {s : State} {n k : Nat} {c d : Cmd} (h : s.cmd? n c.seq = some d) :
    (s.mxDone n c k).cmd? n c.seq = some (d.performed k) :=
  cmd?_endCmd (cmd?_modCmd_same h (fun d => { d with done := k }) (fun _ => rfl)) 0 .zero

theorem getD_setNth {α : Type} (l : List α) (i j : Nat) (a d : α) :
    (setNth l i a).getD j d = if j = i ∧ i < l.length then a else l.getD j d := by
  simp only [setNth, List.getD_eq_getElem?_getD, modNth_getElem?]
  by_cases h : j = i
  · subst h; by_cases hj : j < l.length <;> simp [hj]
  · simp [h]

theorem tile_setTile (s : State) (n i k : Nat) (t : Tile) (f : Tile → Tile) {tm : Team} (h : s.team? n = some tm)
    (hi : i < tm.body.tiles.length) : (s.setTile n i t f).tile n k = if k = i then t else s.tile n k := by
  unfold State.tile State.setTile
  rw [team?_modBody, if_pos rfl, h]
  simp only [Option.map_some, getD_setNth, hi, and_true]

theorem sameBody_setTile {α : Type} (g : TeamBody → α) (s : State) (n i : Nat) (t : Tile) (f : Tile → Tile)
    (h : ∀ b l l', g { b with tiles := l, shtiles := l' } = g b) : SameBody g s (s.setTile n i t f) := sameBody_modBody g s n (fun b => h b _ _)

/-- The state in which MX.ZERO has cleared its tile and ended. -/
def State.zeroTile (s : State) (n : Nat) (c : Cmd) (o : Opnd) : State :=
  ((s.modCmd n c.seq (fun d => { d with begun := true })).setTile n o.c.toNat { Tile.zero with ext := o.x == 1 }
    (fun _ => { Tile.zero with ext := o.x == 1 })).mxDone n c 729

/-- MX.ZERO clears its tile, and under VIGIL the tile's shadow, and ends. -/
theorem runCmd_mxZero {s : State} {n : Nat} {c : Cmd} {o : Opnd} (h : c.instr = .mxZero o) : s.runCmd n c = s.zeroTile n c o := by
  simp [State.runCmd, h, isRangeXf, isColl, copyKindOf, State.runMatrix, drainsTile, mxTile, State.zeroTile]

theorem tile_zeroTile {s : State} {n : Nat} {tm : Team} (h : s.team? n = some tm) (c : Cmd) {o : Opnd} (hi : o.c.toNat < tm.body.tiles.length)
    (k : Nat) : (s.zeroTile n c o).tile n k = if k = o.c.toNat then { Tile.zero with ext := o.x == 1 } else s.tile n k := by
  have hbegun : SameBody TeamBody.tiles s (s.modCmd n c.seq (fun d => { d with begun := true })) := sameBody_modCmd _ s n c.seq _ (fun _ _ => rfl)
  obtain ⟨tm', htm', hlen⟩ := Option.map_eq_some_iff.1 ((hbegun n).trans (h ▸ rfl : _ = some tm.body.tiles))
  unfold State.zeroTile
  rw [tile_of_sameBody (sameBody_mxDone TeamBody.tiles _ n 729 c (fun _ _ => rfl)), tile_setTile _ n _ k _ _ htm' (hlen ▸ hi),
    tile_of_sameBody hbegun]

theorem cmd?_zeroTile {s : State} {n : Nat} {c : Cmd} (h : s.cmd? n c.seq = some c) (o : Opnd) :
    (s.zeroTile n c o).cmd? n c.seq = some (Cmd.performed 729 { c with begun := true }) := by
  refine cmd?_mxDone ?_
  rw [cmd?_of_sameBody (sameBody_setTile TeamBody.cmds _ n _ _ _ (fun _ _ _ => rfl))]
  exact cmd?_modCmd_same h (fun d => { d with begun := true }) (fun _ => rfl)

/-! ### Pieces (R120, R122, R123) -/

/-- Word by word, each word takes what `f` makes of it, and no other word changes. -/
theorem cab_foldl_putCabWord (n m : Nat) (f : Word → Word) (l : List Int) (hl : l.Nodup) (s : State) (hm : (s.team? m).isSome) (j : Nat) (w : Int) :
    (l.foldl (fun s w => s.putCabWord n ⟨m, 3 * w⟩ (f (s.cab m w))) s).cab j w
      = if j = m ∧ w ∈ l then f (s.cab m w) else s.cab j w := by
  induction l generalizing s with
  | nil => simp
  | cons a l ih =>
    obtain ⟨ha, hl⟩ := List.nodup_cons.1 hl
    have hcell : ∀ j w, (s.putCabWord n ⟨m, 3 * a⟩ (f (s.cab m a))).cab j w = if j = m ∧ w = a then f (s.cab m a) else s.cab j w := by
      intro j w
      rw [cab_putCabWord, show (3 * a) / 3 = a by omega]
      by_cases hj : j = m <;> simp [hj, hm]
    rw [List.foldl_cons, ih hl _ (by rwa [team?_isSome_putCabWord]), hcell, hcell]
    grind

/-- The words of a range that lie in a drawer, ascending. -/
def Rng.wordsIn (r : Rng) (drawer : Nat) : List Int :=
  ((List.range ((r.hi - r.lo) / 3).toNat).map (fun (i : Nat) => r.lo / 3 + (i : Int))).filter (fun w => drawerOf w == drawer)

theorem Rng.mem_wordsIn (r : Rng) (drawer : Nat) (w : Int) :
    w ∈ r.wordsIn drawer ↔ r.lo / 3 ≤ w ∧ w < r.lo / 3 + (r.hi - r.lo) / 3 ∧ drawerOf w = drawer := by
  simp only [Rng.wordsIn, List.mem_filter, List.mem_map, List.mem_range, beq_iff_eq]
  constructor
  · rintro ⟨⟨i, hi, rfl⟩, hd⟩
    exact ⟨by omega, by omega, hd⟩
  · rintro ⟨hlo, hhi, hd⟩
    exact ⟨⟨(w - r.lo / 3).toNat, by omega, by omega⟩, hd⟩

theorem Rng.nodup_wordsIn (r : Rng) (drawer : Nat) : (r.wordsIn drawer).Nodup :=
  List.Pairwise.filter _ (List.Pairwise.map (fun (i : Nat) => r.lo / 3 + (i : Int)) (fun i j (h : i ≠ j) => by omega) List.nodup_range)

/-- The state in which a drawer has performed the words of its piece. -/
def State.tellWords (s : State) (n m : Nat) (f : Word → Word) (l : List Int) : State :=
  l.foldl (fun s w => s.putCabWord n ⟨m, 3 * w⟩ (f (s.cab m w))) s

theorem sameBody_tellWords (s : State) (n m : Nat) (f : Word → Word) (l : List Int) : SameBody TeamBody.cmds s (s.tellWords n m f l) :=
  sameBody_foldl _ (fun s _ => sameBody_putCabWord _ s n _ _ (fun _ _ => rfl)) l s

/-- A command from which a drawer's piece of `k` words has gone. -/
def Cmd.pieceDone (k : Nat) (rest : List Nat) (c : Cmd) : Cmd := { c with pieces := rest, done := c.done + k }

/-- The state in which a drawer has performed its piece of a command. -/
def State.pieceDone (s : State) (n m : Nat) (c : Cmd) (f : Word → Word) (r : Rng) (drawer : Nat) : State :=
  (s.tellWords n m f (r.wordsIn drawer)).modCmd n c.seq (Cmd.pieceDone (r.wordsIn drawer).length (c.pieces.erase drawer))

/-- A piece: its words, then the command's progress, and its end with the last piece. -/
theorem tellPiece_eq {s : State} {n m : Nat} {c : Cmd} {k : Tell} {o : Opnd} {r : Rng} {rest : List Rng} (ht : tellOf c = some (k, o))
    (hr : c.ranges = r :: rest) (hm : r.cab = some m) (drawer : Nat) : s.tellPiece n c drawer =
      if (c.pieces.erase drawer).isEmpty then (s.pieceDone n m c (tellWord k o.et o.sat) r drawer).endCmd n c.seq 0 .zero
      else s.pieceDone n m c (tellWord k o.et o.sat) r drawer := by
  simp only [State.tellPiece, ht, hr, hm]
  rfl

theorem cab_pieceDone (s : State) (n : Nat) {m : Nat} (c : Cmd) (f : Word → Word) (r : Rng) (drawer : Nat) (hm : (s.team? m).isSome) (j : Nat) (w : Int) :
    (s.pieceDone n m c f r drawer).cab j w = if j = m ∧ w ∈ r.wordsIn drawer then f (s.cab m w) else s.cab j w :=
  (cab_of_sameBody (sameBody_modCmd TeamBody.cab _ n c.seq _ (fun _ _ => rfl)) j w).trans
    (cab_foldl_putCabWord n m f _ (r.nodup_wordsIn drawer) s hm j w)

theorem cmd?_pieceDone {s : State} {n : Nat} {c : Cmd} (h : s.cmd? n c.seq = some c) (m : Nat) (f : Word → Word) (r : Rng) (drawer : Nat) :
    (s.pieceDone n m c f r drawer).cmd? n c.seq = some (c.pieceDone (r.wordsIn drawer).length (c.pieces.erase drawer)) :=
  cmd?_modCmd_same ((cmd?_of_sameBody (sameBody_tellWords s n m f _) n c.seq).trans h) _ (fun _ => rfl)

theorem exec_drawerRequest {s : State} {core drawer n : Nat} {c : Cmd}
    (h : s.allCmds.find? (fun p => isRangeXf p.2.instr && p.2.pieces.contains drawer && s.tellsOn core p.2) = some (n, c)) :
    exec (.drawerRequest core drawer) s = .next (s.tellPiece n c drawer) := by
  show execDrawerRequest core drawer s = _
  simp only [execDrawerRequest, h]

theorem cab_tellPiece {s : State} {n m : Nat} {c : Cmd} {k : Tell} {o : Opnd} {r : Rng} {rest : List Rng} (ht : tellOf c = some (k, o))
    (hr : c.ranges = r :: rest) (hm : r.cab = some m) (hteam : (s.team? m).isSome) (drawer j : Nat) (w : Int) :
    (s.tellPiece n c drawer).cab j w = if j = m ∧ w ∈ r.wordsIn drawer then tellWord k o.et o.sat (s.cab m w) else s.cab j w := by
  rw [tellPiece_eq ht hr hm, ← cab_pieceDone s n c (tellWord k o.et o.sat) r drawer hteam]
  split
  · exact cab_of_sameBody (sameBody_endCmd _ _ n c.seq 0 .zero (fun _ _ => rfl)) j w
  · rfl

/-! ### Threads that go on (R131, R202) -/

theorem mem_threadsOf (s : State) (n : Nat) (p : TRef × Thread) : p ∈ s.threadsOf n ↔ p.1.team = n ∧ s.thread? p.1 = some p.2 := by
  obtain ⟨⟨m, q, l⟩, th⟩ := p
  unfold State.threadsOf State.thread? State.squad?
  cases hn : s.team? n with
  | none => grind
  | some t =>
    simp only [List.mem_flatten, List.mem_map, Prod.exists, List.mem_zipIdx_iff_getElem?]
    constructor
    · rintro ⟨_, ⟨sq, i, hi, rfl⟩, hmem⟩
      simp only [List.mem_map, Prod.exists, List.mem_zipIdx_iff_getElem?, Prod.mk.injEq, TRef.mk.injEq] at hmem
      obtain ⟨th', l', hl, ⟨rfl, rfl, rfl⟩, rfl⟩ := hmem
      simp [hn, hi, hl]
    · rintro ⟨rfl, hth⟩
      simp only [hn, Option.bind_some, Option.bind_eq_some_iff] at hth
      obtain ⟨sq, hq, hl⟩ := hth
      exact ⟨_, ⟨sq, q, hq, rfl⟩, List.mem_map.2 ⟨(th, l), List.mem_zipIdx_iff_getElem?.2 hl, rfl⟩⟩

/-- Threads that do `x` are set to run. -/
def State.wakeRun (s : State) (n : Nat) (x : Run) : State :=
  (s.threadsOf n).foldl (fun s p => if p.2.run = x then s.setRun p.1 .ready else s) s

/-- A thread set to run. -/
def Thread.ready (th : Thread) : Thread := { th with run := .ready }

@[simp] theorem Thread.ready_ready (th : Thread) : th.ready.ready = th.ready := rfl

/-- A thread that goes on if it did `x`. -/
def Thread.woken (x : Run) (th : Thread) : Thread := if th.run = x then th.ready else th

theorem thread?_setRun_ready (s : State) (r u : TRef) :
    (s.setRun r .ready).thread? u = if u = r then (s.thread? u).map Thread.ready else s.thread? u := thread?_modThread s r u _

theorem thread?_foldl_setRun (x : Run) (l : List (TRef × Thread)) (s : State) (u : TRef) :
    (l.foldl (fun s p => if p.2.run = x then s.setRun p.1 .ready else s) s).thread? u
      = if l.any (fun p => p.1 == u && p.2.run == x) then (s.thread? u).map Thread.ready else s.thread? u := by
  induction l generalizing s with
  | nil => rfl
  | cons p l ih =>
    rw [List.foldl_cons, ih, List.any_cons]
    by_cases hp : p.2.run = x
    · rw [if_pos hp, thread?_setRun_ready]
      by_cases hu : p.1 = u
      · cases l.any (fun p => p.1 == u && p.2.run == x) <;> simp [hp, hu, Function.comp_def]
      · cases l.any (fun p => p.1 == u && p.2.run == x) <;> simp [hu, Ne.symm hu]
    · cases l.any (fun p => p.1 == u && p.2.run == x) <;> simp [hp]

theorem thread?_wakeRun (s : State) (n : Nat) (x : Run) (u : TRef) :
    (s.wakeRun n x).thread? u = if u.team = n then (s.thread? u).map (Thread.woken x) else s.thread? u := by
  have hany : (s.threadsOf n).any (fun p => p.1 == u && p.2.run == x) = true ↔ u.team = n ∧ ∃ th, s.thread? u = some th ∧ th.run = x := by
    simp only [List.any_eq_true, mem_threadsOf, Bool.and_eq_true, beq_iff_eq]
    constructor
    · rintro ⟨⟨r, th⟩, ⟨hn, hth⟩, rfl, hx⟩
      exact ⟨hn, th, hth, hx⟩
    · rintro ⟨hn, th, hth, hx⟩
      exact ⟨(u, th), ⟨hn, hth⟩, rfl, hx⟩
  unfold State.wakeRun Thread.woken
  rw [thread?_foldl_setRun]
  simp only [hany]
  cases hth : s.thread? u with
  | none => simp
  | some th => by_cases hn : u.team = n <;> by_cases hx : th.run = x <;> simp [hn, hx]

theorem onlySquads_refl (s : State) : OnlySquads s s := ⟨rfl, fun _ => rfl⟩

theorem OnlySquads.trans {s t u : State} (h : OnlySquads s t) (k : OnlySquads t u) : OnlySquads s u := by
  obtain ⟨hrest, hbare⟩ := h
  obtain ⟨krest, kbare⟩ := k
  refine ⟨?_, fun m => (kbare m).trans (hbare m)⟩
  rw [← krest] at hrest
  exact hrest

theorem onlySquads_foldl {α : Type} {f : State → α → State} (h : ∀ s a, OnlySquads s (f s a)) (l : List α) (s : State) :
    OnlySquads s (l.foldl f s) := by
  induction l generalizing s with
  | nil => exact onlySquads_refl s
  | cons a l ih => exact (h s a).trans (ih _)

theorem onlySquads_setRun (s : State) (r : TRef) (x : Run) : OnlySquads s (s.setRun r x) :=
  ⟨rfl, fun m => team?_bare_modThread s r m _⟩

theorem onlySquads_wakeRun (s : State) (n : Nat) (x : Run) : OnlySquads s (s.wakeRun n x) :=
  onlySquads_foldl (fun s p => by
    split
    · exact onlySquads_setRun s p.1 .ready
    · exact onlySquads_refl s) _ s

/-- The teams whose engine issue a freed entry of a core lets go on (R131). -/
def State.nearCore (s : State) (core : Nat) : List Team :=
  s.teams.filter (fun t => s.teams.any (fun u => u.grid == t.grid && u.crew == t.crew && u.core == core))

theorem freeIssues_eq (s : State) (core : Nat) : s.freeIssues core = (s.nearCore core).foldl (fun s t => s.wakeRun t.num .lock) s := rfl

theorem mem_nearCore {s : State} {core : Nat} {t : Team} (h : t ∈ s.teams) (hc : t.core = core) : t ∈ s.nearCore core := by
  simp only [State.nearCore, List.mem_filter, List.any_eq_true]
  exact ⟨h, t, h, by simp [hc]⟩

theorem Thread.woken_woken (x : Run) (th : Thread) : Thread.woken x (Thread.woken x th) = Thread.woken x th := by
  unfold Thread.woken; split <;> simp

theorem thread?_foldl_wakeRun (x : Run) (l : List Team) (s : State) (u : TRef) :
    (l.foldl (fun s t => s.wakeRun t.num x) s).thread? u
      = if l.any (fun t => t.num == u.team) then (s.thread? u).map (Thread.woken x) else s.thread? u := by
  induction l generalizing s with
  | nil => rfl
  | cons t l ih =>
    rw [List.foldl_cons, ih, thread?_wakeRun, List.any_cons]
    by_cases ht : t.num = u.team
    · simp [ht, Function.comp_def, Thread.woken_woken]
    · simp [ht, Ne.symm ht]

/-! ### Completion (R135, R201) -/

/-- The record of a command that ended with a status (R201). -/
def Cmd.record (c : Cmd) (st : Nat) : Rec :=
  { seq := c.seq, status := st, addr := if st = 0 then .zero else c.fault, count := (c.done : Int), delivered := false }

/-- A command that has ended has gone from its team, and its record is kept. -/
def TeamBody.retire (r : Rec) (b : TeamBody) : TeamBody :=
  { b with cmds := b.cmds.filter (fun d => d.seq != r.seq), recs := keepRec b.recs r }

/-- Of teams, completion changes what the record and the waiting threads say. -/
theorem completeCmd_teams (s : State) (n : Nat) (c : Cmd) (st : Nat) :
    (s.completeCmd n c st).teams = ((s.modBody n (TeamBody.retire (c.record st))).wakeWait n c.seq).teams := by
  have hfree : ∀ (u : State) (l : List Nat), (u.entriesFree l).teams = u.teams := fun u l =>
    foldl_keeps State.teams _ (fun b _ => State.laterOnce_teams b _) l u
  have hend : ∀ u : State, (if (u.team? n).any (·.ending) then u.laterOnce (.teamEnd n) else u).teams = u.teams := fun u => by
    split
    · exact State.laterOnce_teams u _
    · rfl
  exact (hend _).trans (hfree _ _)

theorem sameBody_retire {α : Type} (g : TeamBody → α) (s : State) (n : Nat) (r : Rec) (h : ∀ b l l', g { b with cmds := l, recs := l' } = g b) :
    SameBody g s (s.modBody n (TeamBody.retire r)) := sameBody_modBody g s n (fun b => h b _ _)

theorem find_keepRec (l : List Rec) (r : Rec) (h : l.length < 243) : (keepRec l r).find? (fun q => q.seq == r.seq) = some r := by
  have hlen := List.length_filter_le (fun q : Rec => q.seq != r.seq) l
  have hgone : (l.filter (fun q => q.seq != r.seq)).find? (fun q => q.seq == r.seq) = none :=
    find_filter_gone _ _ _ (fun q hq => by rw [bne, hq]; rfl)
  unfold keepRec
  simp only
  rw [if_pos (by rw [List.length_append, List.length_singleton]; omega), List.find?_append, hgone]
  simp

theorem cmd?_modBody_retire (s : State) (n : Nat) (r : Rec) : (s.modBody n (TeamBody.retire r)).cmd? n r.seq = none := by
  unfold State.cmd?
  rw [team?_modBody, if_pos rfl]
  cases s.team? n with
  | none => rfl
  | some t => exact find_filter_gone _ _ _ (fun q hq => by rw [bne, hq]; rfl)

theorem rec?_modBody_retire {s : State} {n : Nat} {r : Rec} {tm : Team} (h : s.team? n = some tm) (hl : tm.body.recs.length < 243) :
    (s.modBody n (TeamBody.retire r)).rec? n r.seq = some r := by
  unfold State.rec?
  rw [team?_modBody, if_pos rfl, h]
  exact find_keepRec _ _ hl

theorem sameBody_modThread {α : Type} (g : TeamBody → α) (s : State) (r : TRef) (f : Thread → Thread) (h : ∀ b l, g { b with squads := l } = g b) :
    SameBody g s (s.modThread r f) := sameBody_modBody g s r.team (fun b => h b _)

theorem sameBody_modHandler {α : Type} (g : TeamBody → α) (s : State) (n : Nat) (f : Handler → Handler) : SameBody g s (s.modHandler n f) :=
  sameBody_modTeam (f := fun t => { t with handler := t.handler.map f }) g s n (fun _ => rfl) (fun _ => rfl)

theorem thread?_modHandler (s : State) (n : Nat) (f : Handler → Handler) (u : TRef) : (s.modHandler n f).thread? u = s.thread? u :=
  thread?_modTeam s n (fun t => { t with handler := t.handler.map f }) (fun _ => rfl) (fun _ => rfl) u

theorem wakeWait_eq (s : State) (n seq : Nat) : s.wakeWait n seq =
    (s.wakeRun n (.wait seq)).modHandler n (fun h => if h.run = .wait seq then { h with run := .ready } else h) := rfl

theorem sameBody_wakeWait {α : Type} (g : TeamBody → α) (s : State) (n seq : Nat) (h : ∀ b l, g { b with squads := l } = g b) :
    SameBody g s (s.wakeWait n seq) := by
  have hwake : SameBody g s (s.wakeRun n (.wait seq)) := sameBody_foldl g (fun s p => by
    split
    · exact sameBody_modThread g s p.1 _ h
    · exact .refl g s) _ s
  exact hwake.trans (sameBody_modHandler g _ n _)

theorem thread?_wakeWait (s : State) (n seq : Nat) (u : TRef) :
    (s.wakeWait n seq).thread? u = if u.team = n then (s.thread? u).map (Thread.woken (.wait seq)) else s.thread? u := by
  rw [wakeWait_eq, thread?_modHandler, thread?_wakeRun]

/-! ### Queries (R297) -/

/-- What the answer to a query leaves of a team: its commands, records and cabinet, and what its threads do. -/
def TeamBody.unasked (b : TeamBody) : List Cmd × List Rec × List (Int × Word) × List (List Run) :=
  (b.cmds, b.recs, b.cab, b.squads.map (fun q => q.threads.map Thread.run))

theorem map_modNth {α β : Type} (g : α → β) {f : α → α} (h : ∀ a, g (f a) = g a) (l : List α) (i : Nat) : (modNth f l i).map g = l.map g := by
  induction l generalizing i with
  | nil => rfl
  | cons a l ih => cases i <;> simp [modNth, h, ih]

theorem sameBody_arrive (s : State) (r : TRef) (reg : Nat) (src : WinSrc) (v : Option Word) :
    SameBody TeamBody.unasked s (s.arrive r reg src v) := by
  refine sameBody_modBody _ s r.team (fun b => ?_)
  simp only [TeamBody.unasked, Prod.mk.injEq, true_and]
  refine map_modNth (fun q : Squad => q.threads.map Thread.run) (fun q => map_modNth Thread.run (fun th => ?_) q.threads r.lane) b.squads r.squad
  split
  · rfl
  · exact Thread.settle_run _

theorem sameBody_answerQuery (s : State) (n : Nat) (q : Query) : SameBody TeamBody.unasked s (s.answerQuery n q) := by
  unfold State.answerQuery
  simp only
  split
  · exact .refl _ s
  split
  · refine SameBody.trans ?_ (sameBody_laterOnce _ _ _)
    exact sameBody_modBody _ s n (fun _ => rfl)
  refine SameBody.trans ?_ (sameBody_modBody _ _ n (fun _ => rfl))
  have hdest := sameBody_foldl TeamBody.unasked (fun u r => sameBody_arrive u r q.reg .query (some (s.tile n q.tile).word)) q.dest s
  split
  · exact hdest.trans (sameBody_modBody _ _ n (fun _ => rfl))
  · exact hdest

theorem sameBody_settleQueries (s : State) (n : Nat) : SameBody TeamBody.unasked s (s.settleQueries n) := by
  unfold State.settleQueries
  split
  · exact sameBody_foldl _ (fun u q => sameBody_answerQuery u n q) _ s
  · exact .refl _ s

theorem run_of_sameBody {s t : State} (h : SameBody (fun b => b.squads.map (fun q => q.threads.map Thread.run)) s t) (u : TRef) :
    (t.thread? u).map Thread.run = (s.thread? u).map Thread.run := by
  have hrun : ∀ w : State, (w.thread? u).map Thread.run
      = (((w.team? u.team).map (fun x => x.body.squads.map (fun q => q.threads.map Thread.run))).bind (·[u.squad]?)).bind (·[u.lane]?) := by
    intro w
    unfold State.thread? State.squad?
    cases w.team? u.team with
    | none => rfl
    | some x => cases hq : x.body.squads[u.squad]? <;> simp [hq]
  rw [hrun, hrun, h u.team]

/-! ### The steps -/

/-- ENGINE_COMMAND_COMPLETE of a command that has ended. -/
def State.retireCmd (s : State) (n : Nat) (c : Cmd) (st : Nat) : State :=
  (((s.closeExch (.cmd n c.seq) st).completeCmd n c st).settleQueries n)

theorem exec_engineCommandComplete {s : State} {n seq st : Nat} {c : Cmd} (h : s.cmd? n seq = some c) (hst : c.status = some st) :
    exec (.engineCommandComplete n seq) s = .next (s.retireCmd n c st) := by
  obtain rfl := cmd?_seq h
  show execEngineCommandComplete n c.seq s = _
  simp only [execEngineCommandComplete, h, hst]
  rfl

/-- What completion leaves as the retired command leaves it. -/
theorem sameBody_retireCmd {α : Type} (g : List Cmd × List Rec × List (Int × Word) → α) (s : State) (n : Nat) (c : Cmd) (st : Nat) :
    SameBody (fun b => g (b.cmds, b.recs, b.cab)) (s.modBody n (TeamBody.retire (c.record st))) (s.retireCmd n c st) := by
  let f := fun b : TeamBody => g (b.cmds, b.recs, b.cab)
  have hwake : SameBody f _ _ := sameBody_wakeWait f ((s.closeExch (.cmd n c.seq) st).modBody n (TeamBody.retire (c.record st))) n c.seq (fun _ _ => rfl)
  have hdone : SameBody f _ _ := sameBody_of_teams f (completeCmd_teams (s.closeExch (.cmd n c.seq) st) n c st)
  have hask : SameBody f _ _ := (sameBody_settleQueries ((s.closeExch (.cmd n c.seq) st).completeCmd n c st) n).map (fun p => g (p.1, p.2.1, p.2.2.1))
  exact (hwake.trans hdone).trans hask

/-- A thread that waits for the command goes on. -/
theorem run_retireCmd {s : State} {n st : Nat} {c : Cmd} {r : TRef} {th : Thread} (hr : r.team = n) (h : s.thread? r = some th) :
    ∃ th', (s.retireCmd n c st).thread? r = some th' ∧ th'.run = if th.run = .wait c.seq then .ready else th.run := by
  let u := (s.closeExch (.cmd n c.seq) st).modBody n (TeamBody.retire (c.record st))
  have hretired : u.thread? r = some th := h ▸ thread?_of_sameBody (sameBody_retire TeamBody.squads (s.closeExch (.cmd n c.seq) st) n (c.record st) (fun _ _ _ => rfl)) r
  have hwoken : (u.wakeWait n c.seq).thread? r = some (th.woken (.wait c.seq)) := by rw [thread?_wakeWait, if_pos hr, hretired]; rfl
  have hdone := run_of_sameBody (sameBody_of_teams _ (completeCmd_teams (s.closeExch (.cmd n c.seq) st) n c st)) r
  have hask := run_of_sameBody ((sameBody_settleQueries ((s.closeExch (.cmd n c.seq) st).completeCmd n c st) n).map (fun p => p.2.2.2)) r
  rw [hdone, hwoken] at hask
  obtain ⟨th', hth', hrun⟩ := Option.map_eq_some_iff.1 hask
  refine ⟨th', hth', hrun.trans ?_⟩
  unfold Thread.woken
  split <;> rfl

theorem freeIssues_threads {s : State} {core : Nat} {r : TRef} {th : Thread} (h : s.thread? r = some th) :
    ∃ th', (s.freeIssues core).thread? r = some th' ∧ (th' = th ∨ (th.run = .lock ∧ th' = th.ready))
      ∧ ∀ tm ∈ s.teams, tm.num = r.team → tm.core = core → th.run = .lock → th'.run = .ready := by
  rw [freeIssues_eq, thread?_foldl_wakeRun, h]
  by_cases hl : th.run = .lock
  · cases hany : (s.nearCore core).any (fun t => t.num == r.team) with
    | true => exact ⟨th.ready, by simp [Thread.woken, hl], .inr ⟨hl, rfl⟩, fun _ _ _ _ _ => rfl⟩
    | false =>
      refine ⟨th, by simp, .inl rfl, fun tm htm hnum hcore _ => ?_⟩
      have := List.any_eq_false.1 hany tm (mem_nearCore htm hcore)
      exact absurd (beq_iff_eq.2 hnum) this
  · exact ⟨th, by simp [Thread.woken, hl], .inl rfl, fun _ _ _ _ hlock => absurd hlock hl⟩

theorem onlySquads_freeIssues (s : State) (core : Nat) : OnlySquads s (s.freeIssues core) := by
  rw [freeIssues_eq]
  exact onlySquads_foldl (fun u (t : Team) => onlySquads_wakeRun u t.num .lock) _ s

/-- Settles O38: what a command's beginning, a drawer's piece, a completion and a freed entry do to commands, words, tiles, records and
threads. -/
theorem engineSteps : Obligations.EngineSteps := by
  refine ⟨?start, ?piece, ?complete, ?free⟩
  case start =>
    intro s n seq c hc
    obtain rfl := cmd?_seq hc
    have hexec := exec_scoreboardStart hc
    refine ⟨fun hready => by rw [hexec, hready]; rfl, fun hready => ?_⟩
    rw [hready, if_pos rfl] at hexec
    refine ⟨hexec, fun r m hx hb hr hm => ?_, fun o tm ho htm hlen => ?_⟩
    · rw [runCmd_tell hx hb hr hm] at hexec
      refine ⟨_, hexec, ?_, rfl, rfl, fun j i => ?_⟩
      · exact cmd?_modCmd_same hc _ (fun _ => rfl)
      · exact cab_of_sameBody (sameBody_modCmd _ s n c.seq _ (fun _ _ => rfl)) j i
    · rw [runCmd_mxZero ho] at hexec
      refine ⟨_, hexec, ?_, fun k hk => ?_, cmd?_zeroTile hc o, complete_mem_endCmd _ _ _ _ _⟩
      · rw [tile_zeroTile htm c hlen, if_pos rfl]
      · rw [tile_zeroTile htm c hlen, if_neg hk]
  case piece =>
    intro s core drawer n m c k o r rest hfind hc ht hr hm hteam
    refine ⟨_, exec_drawerRequest hfind, fun i hi hd => ?_, fun j w hw => ?_, ?_, fun hlast => ?_⟩
    · rw [cab_tellPiece ht hr hm hteam, if_pos ⟨rfl, (r.mem_wordsIn drawer _).2 ⟨by omega, by omega, hd⟩⟩]
    · rw [cab_tellPiece ht hr hm hteam, if_neg]
      rintro ⟨rfl, hmem⟩
      obtain ⟨hlo, hhi, hd⟩ := (r.mem_wordsIn drawer w).1 hmem
      rcases hw with h | h | h | h
      · exact h rfl
      · exact h hd
      · omega
      · omega
    · rw [tellPiece_eq ht hr hm]
      have hdone := cmd?_pieceDone hc m (tellWord k o.et o.sat) r drawer
      split
      · rw [cmd?_endCmd hdone]; rfl
      · rw [hdone]; rfl
    · rw [tellPiece_eq ht hr hm, hlast, if_pos (by simp), cmd?_endCmd (cmd?_pieceDone hc m (tellWord k o.et o.sat) r drawer)]
      exact ⟨rfl, complete_mem_endCmd _ _ _ _ _⟩
  case complete =>
    intro s n seq st c tm htm hc hst
    obtain rfl := cmd?_seq hc
    refine ⟨_, exec_engineCommandComplete hc hst, ?_, fun hlen => ?_, fun r th hr hth => run_retireCmd hr hth, fun m i => ?_⟩
    · exact (cmd?_of_sameBody (sameBody_retireCmd (fun p => p.1) s n c st) n c.seq).trans (cmd?_modBody_retire s n (c.record st))
    · exact (rec?_of_sameBody (sameBody_retireCmd (fun p => p.2.1) s n c st) n c.seq).trans (rec?_modBody_retire htm hlen)
    · exact (cab_of_sameBody (sameBody_retireCmd (fun p => p.2.2) s n c st) m i).trans
        (cab_of_sameBody (sameBody_retire TeamBody.cab s n (c.record st) (fun _ _ _ => rfl)) m i)
  case free =>
    intro s core
    exact ⟨_, rfl, fun r th hth => freeIssues_threads hth, onlySquads_freeIssues s core⟩

end Sys2Proof.Machine
end

section
/-! PROOFS. The fabric: flits that arrive, collectives that end, stamps and their loss, the event log, and ports that go down (R128, R208,
R209, R399, R402, R407, R408). -/

namespace Sys2Proof.Machine

/-! ### Arrivals (R401, R407) -/

theorem arrives_bad {s : State} {f : Flit} {port : Nat} (h : f.bad = some port) (again : Flit → Instr) (act : Host.Outcome State Fault Refusal) :
    s.arrives f again act = .next ((s.raise (Event.plain 23 (656 + port))).later [again { f with bad := none }]) := by
  simp only [State.arrives, h]

theorem arrives_good {s : State} {f : Flit} (h : f.bad = none) (again : Flit → Instr) (act : Host.Outcome State Fault Refusal) :
    s.arrives f again act = act := by
  simp only [State.arrives, h]

theorem exec_arrival_bad {s : State} {f : Flit} {port : Nat} (h : f.bad = some port) {i : Flit → Instr}
    (hi : i ∈ [Instr.flitLineWrite, .pullRequest, .pullData, .flitAcknowledgement]) :
    exec (i f) s = .next ((s.raise (Event.plain 23 (656 + port))).later [i { f with bad := none }]) := by
  simp only [List.mem_cons, List.not_mem_nil, or_false] at hi
  rcases hi with rfl | rfl | rfl | rfl <;> exact arrives_bad h _ _

theorem exec_flitLineWrite_good {s : State} {f : Flit} (h : f.bad = none) : exec (.flitLineWrite f) s = .next (s.later [.homeHw
    { slot := f.slot, op := .trytes (f.mask.map (fun (i : Nat) => (i, (lineTrytes f.line).getD i 0))), src := .peer f.src f.tag f.idx,
      elig := some false }]) := arrives_good h _ _

/-! ### Pulls (R208, R209, R408) -/

theorem exec_pullRequest_unissued {s : State} {f : Flit} (h : f.bad = none) (he : s.exchOf f = none) :
    exec (.pullRequest f) s = .next (s.later [.pullRequest f]) := by
  refine (arrives_good h _ _).trans ?_
  simp only [he]

theorem exec_pullRequest_serves {s s1 : State} {f : Flit} {e : Exch} {l : List Word} (h : f.bad = none) (he : s.exchOf f = some e)
    (hended : e.ended = false) (hlost : s.exchLost e = false) (hsig : e.sig = f.sig) (hrep : f.rep ≠ 8) (hwaits : s.exchWaits e = false)
    (hred : e.reduces = false) (hline : s.collLine e f.idx = (s1, .ok l)) : exec (.pullRequest f) s = .next (s1.serveLine e f l) := by
  refine (arrives_good h _ _).trans ?_
  simp [he, hended, hlost, hsig, hrep, hwaits, hred, hline]

theorem exec_pullRequest_disagrees {s : State} {f : Flit} {e : Exch} (h : f.bad = none) (he : s.exchOf f = some e)
    (hended : e.ended = false) (hlost : s.exchLost e = false) (hsig : e.sig ≠ f.sig) :
    exec (.pullRequest f) s = .next ((s.endExch e.who 8).answerPull e f [] 8) := by
  refine (arrives_good h _ _).trans ?_
  simp [he, hended, hlost, hsig]

/-- The pulls that a flit answers are no longer in flight. -/
def State.unanswered (s : State) (f : Flit) : State := { s with flits := s.flits.filter (fun q => !Flit.answers f q) }

theorem exec_pullData_report {s : State} {f : Flit} {e : Exch} (h : f.bad = none) (he : (s.unanswered f).exchOf f = some e)
    (hended : e.ended = false) (hlost : (s.unanswered f).exchLost e = false) (hrep : f.rep ≠ 8) (hsig : f.sig = e.sig) (hfail : f.rep ≠ 0) :
    exec (.pullData f) s = .next ((s.unanswered f).endExch e.who 13) := by
  refine (arrives_good h _ _).trans ?_
  simp only [State.unanswered] at he hlost
  simp [he, hended, hlost, hsig, hrep, hfail, State.unanswered]

/-- The state in which a line that has come is kept. -/
def State.pulled (s : State) (e : Exch) (f : Flit) : State :=
  s.modExch e.who (fun (q : Exch) => { q with got := q.got ++ [(e.posOf f.src, f.idx, f.line.w)] })

theorem exec_pullData_line {s : State} {f : Flit} {e : Exch} (h : f.bad = none) (he : (s.unanswered f).exchOf f = some e)
    (hended : e.ended = false) (hlost : (s.unanswered f).exchLost e = false) (hsig : f.sig = e.sig) (hrep : f.rep = 0)
    (hneed : (e.posOf f.src, f.idx) ∈ e.needs (e.posOf s.rank)) (hgot : e.gotLine (e.posOf f.src) f.idx = none) :
    exec (.pullData f) s = .next (if ((s.unanswered f).pulled e f).exchWaits e then (s.unanswered f).pulled e f
      else ((s.unanswered f).pulled e f).advanceExch e.who) := by
  refine (arrives_good h _ _).trans ?_
  have hneed' : (e.posOf f.src, f.idx) ∈ e.needs (e.posOf (s.unanswered f).rank) := hneed
  simp only [State.unanswered] at he hlost hneed'
  simp [he, hended, hlost, hsig, hrep, hgot, hneed', State.unanswered, State.pulled]
  rfl

/-! ### Acknowledgements (R128) -/

/-- A command with one line fewer in flight. -/
def Cmd.acked (c : Cmd) : Cmd := { c with outstanding := c.outstanding - 1 }

theorem exec_flitAcknowledgement_owned {s : State} {f q : Flit} {n seq : Nat} {c : Cmd} (h : f.bad = none)
    (hq : s.flits.find? (fun q => Flit.answers f q) = some q) (ho : q.owner = some (n, seq)) (hc : s.cmd? n seq = some c) :
    exec (.flitAcknowledgement f) s = .next (if c.outstanding = 1
      then (({ s with flits := s.flits.erase q } : State).modCmd n seq Cmd.acked).endCmd n seq 0 .zero
      else ({ s with flits := s.flits.erase q } : State).modCmd n seq Cmd.acked) := by
  refine (arrives_good h _ _).trans ?_
  have hc' : ({ s with flits := s.flits.erase q } : State).cmd? n seq = some c := hc
  simp only [hq, ho, hc']
  rfl

/-- The ports that are down and the flits in flight. -/
def State.links (s : State) : List Nat × List Flit := (s.down, s.flits)

theorem links_laterOnce (s : State) (i : Instr) : (s.laterOnce i).links = s.links := by
  simp only [State.links, State.laterOnce_down, State.laterOnce_flits]

theorem links_endCmd (s : State) (n seq st : Nat) (addr : Word) : (s.endCmd n seq st addr).links = s.links :=
  links_laterOnce _ _

/-! ### Stamps (R399) -/

theorem stampOf_timeSync {s : State} {p : Nat} (h : p < s.stamps.length) (f : Nat → Nat) (q : Nat) :
    ({ s with stamps := modNth f s.stamps p } : State).stampOf q = if q = p then f (s.stampOf q) else s.stampOf q := by
  simp only [State.stampOf, List.getD_eq_getElem?_getD, modNth_getElem?]
  by_cases hq : q = p
  · subst hq; simp [h]
  · simp [hq]

/-! ### Events of the fabric (R400, R402) -/

theorem irqs_ite (c : Prop) [Decidable c] (s : State) (v : Nat) :
    (if c then { s with irqs := s.irqs ++ [v] } else s) = { s with irqs := s.irqs ++ if c then [v] else [] } := by
  split
  · rfl
  · rw [List.append_nil]

/-- What an event adds to the log, and to the interrupts where it sends one (R402). -/
theorem logLine_eq (s : State) (e : Event) (act : Int) (interrupt : Bool) : ∃ l : LogEv, l.src = e.src ∧ l.words.length = 27
    ∧ l.words.take 2 = [.ofInt e.cls, .ofInt e.src] ∧ s.logLine e act interrupt = { s with
      logq := s.logq ++ [l],
      irqs := s.irqs ++ (if interrupt = true ∧ 0 ≤ s.cwInt 6604 ∧ s.cwInt 6604 ≤ 728 then [(s.cwInt 6604).toNat] else []) } := by
  refine ⟨?line, ?src, ?length, ?head, ?state⟩
  case state => exact irqs_ite (interrupt = true ∧ 0 ≤ s.cwInt 6604 ∧ s.cwInt 6604 ≤ 728) _ _
  case src => rfl
  case length => rfl
  case head => rfl

theorem raise_interrupt {s : State} {e : Event} (ha : s.action e.cls e.src = 2) (hh : s.hushed e.src = false) :
    s.raise e = s.logLine e 2 true := by
  simp [State.raise, ha, hh]

/-- An event that names no grid and no partition is logged, or ignored. -/
theorem raise_plain (s : State) (cls src : Nat) (h : 324 ≤ src) :
    s.raise (Event.plain cls src) = s ∨ ∃ act b, s.raise (Event.plain cls src) = s.logLine (Event.plain cls src) act b := by
  have hgrid : (Event.plain cls src).grid = none := rfl
  have hpart : (if (Event.plain cls src).src < 324 then s.partOfCore (Event.plain cls src).src
      else if (Event.plain cls src).kind = -1 then s.partOfFrame ((Event.plain cls src).addr.val.toNat / 2187) else none) = none :=
    (if_neg (by simpa [Event.plain] using h)).trans (if_neg (by simp [Event.plain]))
  let act := if s.hushed (Event.plain cls src).src then 0 else s.action (Event.plain cls src).cls (Event.plain cls src).src
  have hraise : s.raise (Event.plain cls src) = if act = 0 then s
      else if act = 1 then s.logLine (Event.plain cls src) 1 false else s.logLine (Event.plain cls src) 2 true := by
    unfold State.raise
    simp only [hgrid, Option.bind_none, hpart, ite_self]
    rfl
  rw [hraise]
  by_cases h0 : act = 0
  · exact .inl (if_pos h0)
  by_cases h1 : act = 1
  · exact .inr ⟨1, false, by rw [if_neg h0, if_pos h1]⟩
  · exact .inr ⟨2, true, by rw [if_neg h0, if_neg h1]⟩

/-- A state with other events to log and other interrupts sent. -/
def State.logged (s : State) (l : List LogEv) (v : List Nat) : State := { s with logq := l, irqs := v }

/-- Such an event changes the log and the interrupts only. -/
theorem raise_plain_rest (s : State) (cls src : Nat) (h : 324 ≤ src) : ∃ l v, s.raise (Event.plain cls src) = s.logged l v := by
  rcases raise_plain s cls src h with hr | ⟨act, b, hr⟩
  · exact ⟨s.logq, s.irqs, hr⟩
  · obtain ⟨l, -, -, -, hl⟩ := logLine_eq s (Event.plain cls src) act b
    exact ⟨_, _, hr.trans hl⟩

/-- The log's only event is written at the tail, behind the lines not yet performed (R402). -/
theorem flushLog_one {s : State} {e : LogEv} (hq : s.logq = [e]) (hsize : 0 < s.cwInt 6601)
    (hroom : s.cwInt 6602 + s.logsPending - s.cwInt 6603 < s.cwInt 6601) : s.flushLog = ({ s with logq := [] } : State).later [.homeHw
      { slot := let at_ := s.cwInt 6600 / 81 + (s.cwInt 6602 + s.logsPending) % s.cwInt 6601
                if at_ < 0 then 5153960664 else at_.toNat,
        op := .words ((List.range 27).zip e.words), src := .log, elig := some false }] := by
  have hfull : ¬ (s.cwInt 6601 ≤ 0 ∨ s.cwInt 6602 + s.logsPending - s.cwInt 6603 ≥ s.cwInt 6601) := by omega
  unfold State.flushLog
  rw [hq]
  exact if_neg hfull

/-! ### Ports that go down (R407) -/

theorem choose_eq (s : State) (n : Nat) : s.choose n = ({ s with tick := s.tick + 1 }, (s.choose n).2) := rfl

/-- A flit in flight that its port has lost is sent again, which of them being a free choice. -/
def State.resend (p : Nat) (s : State) (f : Flit) : State :=
  if s.flitPart f ≠ some p then s
  else
    let (s, k) := s.choose 2
    if k = 1 then { s with sent := s.sent ++ [f] } else s

/-- Resending changes nothing but the flits sent. -/
theorem resend_rest (p : Nat) (s : State) (f : Flit) : ∃ l k, s.resend p f = { s with sent := l, tick := k }
    ∧ ∀ g ∈ l, g ∈ s.sent ∨ (g = f ∧ s.flitPart g = some p) := by
  unfold State.resend
  split
  · exact ⟨s.sent, s.tick, rfl, fun g hg => .inl hg⟩
  · next hpart =>
    have hf : s.flitPart f = some p := Decidable.not_not.1 hpart
    rw [choose_eq]
    simp only
    split
    · exact ⟨_, _, rfl, fun g hg => by
        rcases List.mem_append.1 hg with hg | hg
        · exact .inl hg
        · obtain rfl := List.mem_singleton.1 hg
          exact .inr ⟨rfl, hf⟩⟩
    · exact ⟨s.sent, _, rfl, fun g hg => .inl hg⟩

theorem foldl_resend_rest (p : Nat) (fl : List Flit) (s : State) : ∃ l k, fl.foldl (State.resend p) s = { s with sent := l, tick := k }
    ∧ ∀ g ∈ l, g ∈ s.sent ∨ (g ∈ fl ∧ s.flitPart g = some p) := by
  induction fl generalizing s with
  | nil => exact ⟨s.sent, s.tick, rfl, fun g hg => .inl hg⟩
  | cons f fl ih =>
    obtain ⟨l, k, hone, hl⟩ := resend_rest p s f
    obtain ⟨l', k', hall, hl'⟩ := ih (s.resend p f)
    refine ⟨l', k', ?_, fun g hg => ?_⟩
    · rw [List.foldl_cons, hall, hone]
    · rw [hone] at hl'
      rcases hl' g hg with h | ⟨h, hp⟩
      · rcases hl g h with h | ⟨rfl, hp⟩
        · exact .inl h
        · exact .inr ⟨List.mem_cons_self, hp⟩
      · exact .inr ⟨List.mem_cons_of_mem f h, hp⟩

theorem graphState_faultGraph (s : State) (g : Nat) (i : Int) : (s.faultGraph g i).graphState g = -1 := by
  unfold State.faultGraph
  split
  · assumption
  · simp only [State.graphState, State.raise_cwInt, State.modGraph_cwInt]
    simp only [State.cwInt, cw_setCwInt, if_pos]
    decide

theorem links_faultGraph (s : State) (g : Nat) (i : Int) : (s.faultGraph g i).links = s.links := by
  unfold State.faultGraph State.links
  split
  · rfl
  · simp

/-- A graph that does not run releases no node. -/
theorem releaseNode_idle {s : State} {g : Nat} (h : s.graphState g ≠ 1) (i : Nat) : s.releaseNode g i = s := by
  unfold State.releaseNode
  split
  · rfl
  · rw [if_pos (.inl h)]

theorem links_nodeOff {s : State} {g : Nat} (h : s.graphState g ≠ 1) (i : Nat) : (s.nodeOff g i).links = s.links := by
  have hoff (f f' : Graph → Graph) : (((s.modGraph g f).modGraph g f').releaseNode g i) = (s.modGraph g f).modGraph g f' :=
    releaseNode_idle (s := (s.modGraph g f).modGraph g f') h i
  unfold State.nodeOff
  simp only [hoff]
  split
  · split
    · rw [links_laterOnce]; split <;> rfl
    · split <;> rfl
  · split <;> rfl

theorem links_endExch {s : State} {who : ExWho} {st : Nat} (h : st ≠ 0) : (s.endExch who st).links = s.links := by
  cases who with
  | cmd n seq => exact links_endCmd _ n seq st .zero
  | node g i =>
    unfold State.endExch
    simp only [if_neg h]
    rw [links_nodeOff (by rw [graphState_faultGraph]; decide), links_faultGraph]
    rfl

/-- The commands of a team with lines in flight end with status 6, if it is a team of partition `p`. -/
def State.failTeam (part : Team → Nat) (p : Nat) (s : State) (t : Team) : State :=
  if part t ≠ p then s
  else (t.body.cmds.filter (fun c => 0 < c.outstanding && !isRangeXf c.instr)).foldl
    (fun s c => ((s.modSavedCmd t.num c.seq (fun d => { d with outstanding := 0 })).modCmd t.num c.seq (fun d => { d with outstanding := 0 })).endCmd
      t.num c.seq 6 .zero) s

/-- A collective that waits for lines ends with status 6, if its issuer is of partition `p`. -/
def State.failExch (part : Team → Nat) (p : Nat) (s : State) (e : Exch) : State :=
  let mine := match e.who with
    | .cmd n _ => (s.teams ++ s.saved.map (·.team)).any (fun t => t.num == n && part t == p)
    | .node g _ => s.partOfSlot g == p
  if mine && !e.ended && e.got.length < e.asked then s.endExch e.who 6 else s

/-- A partition that has lost its last port loses its flits; then its commands fail, then its collectives. -/
theorem failFlits_eq (s : State) (p : Nat) : ∃ part : Team → Nat, s.failFlits p =
    (let u := (s.teams ++ s.saved.map (·.team)).foldl (State.failTeam part p) { s with flits := s.flits.filter (fun f => s.flitPart f != some p) }
    u.exch.foldl (State.failExch part p) u) :=
  ⟨fun t => match s.grid? t.grid with | some g => g.part | none => 0, rfl⟩

theorem links_failTeam (part : Team → Nat) (p : Nat) (s : State) (t : Team) : (s.failTeam part p t).links = s.links := by
  unfold State.failTeam
  split
  · rfl
  · exact foldl_keeps State.links _ (fun v c => by rw [links_endCmd]; rfl) _ s

theorem links_failExch (part : Team → Nat) (p : Nat) (s : State) (e : Exch) : (s.failExch part p e).links = s.links := by
  have hend (b : Bool) : (if b then s.endExch e.who 6 else s).links = s.links := by
    cases b
    · rfl
    · exact links_endExch (by decide)
  exact hend _

theorem links_failFlits (s : State) (p : Nat) : (s.failFlits p).links = (s.down, s.flits.filter (fun f => s.flitPart f != some p)) := by
  obtain ⟨part, heq⟩ := failFlits_eq s p
  rw [heq]
  exact (foldl_keeps State.links _ (links_failExch part p) _ _).trans (foldl_keeps State.links _ (links_failTeam part p) _ _)

/-- A port is out of use. -/
def State.withoutPort (s : State) (port : Nat) : State := { s with down := s.down ++ [port] }

/-- The flits of a partition that has lost a port go through another, or fail (R407). -/
def State.reroute (p : Nat) (s : State) : State := if s.portUp p none then s.flits.foldl (State.resend p) s else s.failFlits p

theorem exec_fabricPortDown {s : State} {port p : Nat} (hport : port ∉ s.down)
    (hp : (List.range 9).find? (fun (p : Nat) => trit (s.partWord p (7 + port / 24)) (port % 24) == 1) = some p) :
    exec (.fabricPortDown port) s = .next (((s.withoutPort port).raise (Event.plain 24 (656 + port))).reroute p) := by
  have hdown : s.down.contains port = false := by simpa using hport
  show execFabricPortDown port s = _
  simp only [execFabricPortDown, hdown, hp, Bool.false_eq_true, if_false]
  exact (apply_ite Host.Outcome.next _ _ _).symm

/-- Settles O50: the effects of an arriving flit by whom it belongs to, of the fabric's time by the greater stamp, of an event by its line
in the log, and of a port's failure by whether its partition has another. -/
theorem fabricSteps : Obligations.FabricSteps := by
  refine ⟨?bad, ?write, ?pull, ?data, ?ack, ?sync, ?loss, ?flush, ?down⟩
  case bad => exact fun s f port h i hi => exec_arrival_bad h hi
  case write => exact fun s f h => exec_flitLineWrite_good h
  case pull =>
    exact fun s f h => ⟨exec_pullRequest_unissued h, fun e he hended hlost =>
      ⟨fun hsig hrep hwaits hred s1 l hline => exec_pullRequest_serves h he hended hlost hsig hrep hwaits hred hline,
        exec_pullRequest_disagrees h he hended hlost⟩⟩
  case data =>
    rintro s _ f rfl h e he hended hlost hrep hsig
    refine ⟨exec_pullData_report h he hended hlost hrep hsig, fun hzero hneed hgot s2 hs2 => ?_⟩
    rw [hs2]
    exact exec_pullData_line h he hended hlost hsig hzero hneed hgot
  case ack =>
    intro s f q n seq c h hq ho hc
    have hexec := exec_flitAcknowledgement_owned h hq ho hc
    have hacked := cmd?_modCmd_same (s := { s with flits := s.flits.erase q }) hc Cmd.acked (fun _ => rfl)
    by_cases hone : c.outstanding = 1
    · rw [if_pos hone] at hexec
      refine ⟨_, hexec, congrArg Prod.snd (links_endCmd _ n seq 0 .zero), fun hmore => by omega, fun _ _ => ?_⟩
      exact ⟨by rw [cmd?_endCmd hacked]; rfl, complete_mem_endCmd _ _ _ _ _⟩
    · rw [if_neg hone] at hexec
      exact ⟨_, hexec, rfl, fun _ => hacked, fun h => absurd h hone⟩
  case sync =>
    intro s p value hp
    refine ⟨_, rfl, rfl, ?_, fun q hq => ?_⟩
    · rw [stampOf_timeSync hp, if_pos rfl]
    · rw [stampOf_timeSync hp, if_neg hq]
  case loss =>
    intro s ha hh
    obtain ⟨l, hsrc, hlen, hhead, hlog⟩ := logLine_eq s (Event.plain 25 656) 2 true
    have hexec : exec .stampSyncLoss s = .next _ := congrArg Host.Outcome.next ((raise_interrupt (e := Event.plain 25 656) ha hh).trans hlog)
    exact ⟨_, l, hexec, rfl, hsrc, hlen, hhead, by simp, rfl⟩
  case flush =>
    intro s e hq hsize hroom
    refine ⟨_, by rw [flushLog_one hq hsize hroom]; rfl, by rw [flushLog_one hq hsize hroom]; rfl, rfl, rfl, fun hbase htail => ?_⟩
    have hmod := Int.emod_nonneg (s.cwInt 6602 + s.logsPending) (Int.ne_of_gt hsize)
    exact if_neg (by omega)
  case down =>
    intro s port p hport hp
    obtain ⟨l, v, hraise⟩ := raise_plain_rest (s.withoutPort port) 24 (656 + port) (by omega)
    have hexec := exec_fabricPortDown hport hp
    rw [hraise] at hexec
    refine ⟨_, hexec, ?_⟩
    cases hup : ((s.withoutPort port).logged l v).portUp p none with
    | true =>
      obtain ⟨l', k, hall, hsent⟩ := foldl_resend_rest p s.flits ((s.withoutPort port).logged l v)
      have hre : ((s.withoutPort port).logged l v).reroute p = _ := (if_pos hup).trans hall
      rw [hre]
      exact ⟨rfl, fun _ => ⟨rfl, hsent⟩, fun hdown => absurd (hup.symm.trans hdown) (by decide)⟩
    | false =>
      have hlinks := links_failFlits ((s.withoutPort port).logged l v) p
      have hre : ((s.withoutPort port).logged l v).reroute p = _ := if_neg (ne_true_of_eq_false hup)
      rw [hre]
      exact ⟨congrArg Prod.fst hlinks, fun hup' => absurd (hup'.symm.trans hup) (by decide), fun _ => congrArg Prod.snd hlinks⟩

end Sys2Proof.Machine
end

section
/-! PROOFS. One step of the machine: the bundle that issues and the instruction that its words spell, VIGIL around it, the pending steps,
and what is counted after a step (R146, R156, R157, R173, R348, R351, R390, R396). -/

namespace Sys2Proof.Machine

/-! ### What a step performs -/

/-- A bundle that issues: its instruction runs under VIGIL, and what follows an instruction follows it. -/
theorem step_eq_vigilRun {s u : State} {b : Bundle} {rest : List Bundle} {i : Instr} (hs : s.issue = b :: rest) (hb : b.shadow = none)
    (ht : ({ s with issue := rest } : State).takeBundle b = some (u, i)) : step s = afterIssue u i (u.vigilRun exec i) := by
  simp only [step, hs, hb, ht]

theorem step_eq_shadowRun {s : State} {b : Bundle} {rest : List Bundle} {n q : Nat} (hs : s.issue = b :: rest)
    (hb : b.shadow = some (n, q)) : step s = .next (State.shadowRun exec n q { s with issue := rest }) := by
  simp only [step, hs, hb]

/-- With nothing issued the free choice falls on a pending step or on the passing of a cycle (log entry 2). -/
theorem step_eq_pending_or_nextCycle {s : State} (hs : s.issue = []) (hgo : (s.thermtrip && s.agenda.isEmpty) = false) :
    (∃ k i, s.agenda[k]? = some i ∧ step s = afterStep (exec i { s with tick := s.tick + 1, agenda := s.agenda.eraseIdx k }))
    ∨ step s = .next ({ s with tick := s.tick + 1 } : State).nextCycle := by
  generalize hr : step s = r
  simp only [step, hs, hgo, Bool.false_eq_true, if_false] at hr
  split at hr
  next k i hp =>
    obtain ⟨j, -, hj⟩ := Option.bind_eq_some_iff.mp hp
    obtain ⟨i', hi, he⟩ := Option.map_eq_some_iff.mp hj
    obtain ⟨rfl, rfl⟩ := Prod.mk.inj he
    exact .inl ⟨_, _, hi, hr.symm⟩
  next => exact .inr hr.symm

/-! ### The bundle that issues (R348) -/

theorem fetched_ok {ws : List Word} {i : Instr} (h : decode ws = .ok i) : fetched ws = i := by simp only [fetched, h]

theorem fetched_error {ws : List Word} {e : Reject} (h : decode ws = .error e) :
    fetched ws = .illegalInstruction e.code (ws.take (((ws.headD .zero).bits 1 3) + 1)) := by simp only [fetched, h]

theorem scope_illegalInstruction (code : Nat) (words : List Word) : (Instr.illegalInstruction code words).scope = .none := rfl

/-- The other issued bundles that are performed with a bundle's instruction. -/
def State.mates (s : State) (b : Bundle) (i : Instr) : List Bundle := if i.scope = .team then s.issue.filter b.mate else []

/-- The state in which a bundle and its mates are performed. -/
def State.issued (s : State) (b : Bundle) (ms : List Bundle) : State :=
  { s with cur := { b with threads := b.threads ++ ((ms.map (·.threads)).flatten).filter (fun t => s.atPc t b.pc) },
           issue := s.issue.filter (fun x => !ms.contains x) }

theorem issued_alone (s : State) (b : Bundle) : s.issued b [] = { s with cur := b } := by simp [State.issued]

theorem mates_of_not_team {s : State} {b : Bundle} {i : Instr} (h : i.scope ≠ .team) : s.mates b i = [] := if_neg h

/-- What issues, once it is known whose words are fetched. -/
theorem issued_fetched (s : State) (b : Bundle) (i : Instr) :
    (if i.scope = .team then (s.issued b (s.issue.filter b.mate), i) else (({ s with cur := b } : State), i)) = (s.issued b (s.mates b i), i) := by
  by_cases h : i.scope = .team
  · rw [if_pos h, State.mates, if_pos h]
  · rw [if_neg h, mates_of_not_team h, issued_alone]

theorem takeBundle_threads {s : State} {b : Bundle} {r : TRef} {l : List TRef} {ws : List Word} (hb : b.handler = none)
    (hl : b.threads.filter (fun t => s.atPc t b.pc) = r :: l)
    (hf : s.fetch b.core (s.asrecOf r.team) (s.sysLevel r.team) b.pc = some ws) :
    s.takeBundle b = some (s.issued { b with threads := r :: l } (s.mates { b with threads := r :: l } (fetched ws)), fetched ws) := by
  refine Eq.trans ?_ (congrArg some (issued_fetched s { b with threads := r :: l } (fetched ws)))
  simp only [State.takeBundle, hb, hl, List.head?_cons, Option.map_some, hf]
  rfl

theorem takeBundle_handler {s : State} {b : Bundle} {n : Nat} {h : Handler} {ws : List Word} (hb : b.handler = some n)
    (hh : (s.team? n).bind (·.handler) = some h) (hrun : h.run = .ready) (hpc : h.pc = b.pc) (hnone : b.threads = [])
    (hf : s.fetch b.core (s.asrecOf n) (s.sysLevel n) b.pc = some ws) :
    s.takeBundle b = some (s.issued b (s.mates b (fetched ws)), fetched ws) := by
  refine Eq.trans ?_ (congrArg some (issued_fetched s b (fetched ws)))
  obtain ⟨tm, htm, hth⟩ := Option.bind_eq_some_iff.mp hh
  obtain ⟨core, threads, pc, handler, waited, shadow⟩ := b
  cases hb
  cases hnone
  simp only [State.takeBundle, htm, hth, Option.any_some, hrun, hpc, beq_self_eq_true, Bool.and_self, if_true, List.filter_nil, hf,
    Option.map_some]
  rfl

/-! ### VIGIL around an instruction (R396) -/

theorem shadow?_eq_none {s : State} (h : ∀ tm ∈ s.teams, tm.body.shadows = []) (n q : Nat) : s.shadow? n q = none := by
  unfold State.shadow?
  cases ht : s.team? n with
  | none => rfl
  | some tm => simp [h tm (List.mem_of_find?_eq_some ht)]

theorem vigilSquads_eq_nil {s : State} (h : ∀ tm ∈ s.teams, tm.body.shadows = []) : s.vigilSquads = [] := by
  unfold State.vigilSquads
  split <;> simp [shadow?_eq_none h]

theorem vigilRun_unshadowed {s : State} (h : s.vigilSquads = []) (i : Instr) : s.vigilRun exec i = exec i s := by
  simp only [State.vigilRun, h, List.isEmpty_nil, if_true]

/-- At a point of comparison a leader waits for its shadow. -/
theorem vigilRun_waits {s : State} {i : Instr} {k : Nat × Nat} (hk : k ∈ s.vigilSquads) (hi : i.vigilPoint = true)
    (hb : s.shadowBehind k.1 k.2 = true) : s.vigilRun exec i = .next s := by
  have hne : s.vigilSquads.isEmpty = false := List.isEmpty_eq_false_iff_exists_mem.mpr ⟨k, hk⟩
  have hstall : s.vigilSquads.any (fun k => s.queueFull k.1 k.2 || (i.vigilPoint && s.shadowBehind k.1 k.2)) = true :=
    List.any_eq_true.mpr ⟨k, hk, by simp [hi, hb]⟩
  simp only [State.vigilRun, hne, hstall, Bool.false_eq_true, if_false, if_true]

/-- An instruction that is no point of comparison runs as it is, and is noted for the shadows of its squads. -/
theorem vigilRun_records {s out : State} {i : Instr} (hi : i.vigilPoint = false) (hq : ∀ k ∈ s.vigilSquads, s.queueFull k.1 k.2 = false)
    (he : exec i s = .next out) :
    s.vigilRun exec i = .next (s.vigilSquads.foldl (fun t k => s.recordTrail i t k.1 k.2) out) := by
  have hstall : s.vigilSquads.any (fun k => s.queueFull k.1 k.2 || (i.vigilPoint && s.shadowBehind k.1 k.2)) = false :=
    List.any_eq_false.mpr fun k hk => by simp [hi, hq k hk]
  by_cases hs : s.vigilSquads = []
  · rw [vigilRun_unshadowed hs, he, hs, List.foldl_nil]
  · have hne : ¬ s.vigilSquads.isEmpty = true := by simpa using hs
    unfold State.vigilRun
    dsimp only
    rw [if_neg hne, if_neg (ne_true_of_eq_false hstall), he]
    simp only [hi, Bool.false_eq_true, if_false, List.isEmpty_nil, if_true]

/-- A team apart from its shadows. -/
def Team.unshadowed (t : Team) : Team := { t with body := { t.body with shadows := [] } }

/-- A machine apart from its teams, and each team apart from its shadows. -/
def State.unshadowed (s : State) : State × (Nat → Option Team) := ({ s with teams := [] }, fun m => (s.team? m).map Team.unshadowed)

theorem unshadowed_modShadow (s : State) (n q : Nat) (f : Shadow → Shadow) : (s.modShadow n q f).unshadowed = s.unshadowed := by
  refine Prod.ext rfl (funext fun m => ?_)
  show ((s.modShadow n q f).team? m).map Team.unshadowed = (s.team? m).map Team.unshadowed
  rw [State.modShadow, team?_modBody]
  by_cases h : m = n
  · rw [if_pos h, Option.map_map]
    rfl
  · rw [if_neg h]

theorem unshadowed_recordTrail (s : State) (i : Instr) (out : State) (n q : Nat) :
    (s.recordTrail i out n q).unshadowed = out.unshadowed := by
  unfold State.recordTrail
  split
  · dsimp only
    split
    · rfl
    · exact unshadowed_modShadow ..
  · rfl

/-- What is noted for the shadows changes the shadows alone. -/
theorem unshadowed_foldl_recordTrail (s : State) (i : Instr) (out : State) (ks : List (Nat × Nat)) :
    (ks.foldl (fun t k => s.recordTrail i t k.1 k.2) out).unshadowed = out.unshadowed :=
  foldl_keeps State.unshadowed _ (fun t k => unshadowed_recordTrail s i t k.1 k.2) ks out

/-- Machines that are alike apart from their shadows are alike apart from their teams. -/
theorem eq_of_unshadowed_eq {w out : State} (h : w.unshadowed = out.unshadowed) : ({ w with teams := out.teams } : State) = out :=
  congrArg (fun p : State × (Nat → Option Team) => ({ p.1 with teams := out.teams } : State)) h

/-! ### What follows a step (R146, R390) -/

theorem core_num (s : State) (n : Nat) : (s.core n).num = n := by
  unfold State.core
  cases h : s.cores.find? (fun c => c.num == n) with
  | none => rfl
  | some c => simpa using List.find?_some h

/-- A change that keeps core numbers changes the named core and no other. -/
theorem core_modCore (s : State) (n k : Nat) {f : Core → Core} (hf : ∀ c, (f c).num = c.num) :
    (s.modCore n f).core k = if k = n then f (s.core n) else s.core k := by
  have hnum : (f (s.core n)).num = n := (hf _).trans (core_num s n)
  simp only [State.modCore, State.core] at hnum ⊢
  rw [find_insertBy]
  · by_cases hk : k = n
    · simp [hk, hnum]
    · have hn : (n == k) = false := by simpa using Ne.symm hk
      rw [hnum, hn, if_neg hk, List.find?_filter]
      simp only [Bool.false_eq_true, if_false]
      congr 2
      funext c
      by_cases hc : c.num = k <;> simp [hc, hk]
  · intro c hc hck
    have hcn : c.num ≠ n := by simpa using (List.mem_filter.mp hc).2
    rw [beq_iff_eq] at hck
    rw [hnum]
    simpa using fun h : n = k => hcn (hck.trans h.symm)

theorem checkShadows_uncovered {s : State} (h : ∀ x ∈ s.teams, x.covered = false) : s.checkShadows = s := by
  have hnone : s.teams.filter (·.covered) = [] := List.filter_eq_nil_iff.mpr fun x hx => by simp [h x hx]
  rw [State.checkShadows, hnone]
  rfl

/-- Where no team's interval is covered, the count of write-backs is all that follows an instruction. -/
theorem tally_uncovered (s : State) (i : Instr) {t : State} (h : ∀ x ∈ t.teams, x.covered = false) :
    ({ t.tally s i with cores := t.cores } : State) = t
    ∧ ∀ k, ({ (t.tally s i).core k with wrote := (t.core k).wrote } : Core) = t.core k := by
  unfold State.tally
  dsimp only
  split
  · rw [checkShadows_uncovered h]
    exact ⟨rfl, fun _ => rfl⟩
  · rw [checkShadows_uncovered (by exact h)]
    refine ⟨rfl, fun k => ?_⟩
    rw [core_modCore]
    · by_cases hk : k = s.cur.core
      · rw [if_pos hk, hk]
      · rw [if_neg hk]
    · exact fun _ => rfl

/-! ### The instruction of the fetched words -/

/-- Without shadows a step is the instruction of the fetched words, performed for the bundle's threads and those of its mates. -/
theorem step_of_threads {s : State} {b : Bundle} {rest : List Bundle} {r : TRef} {l : List TRef} {ws : List Word} (hs : s.issue = b :: rest)
    (hh : b.handler = none) (hb : b.shadow = none) (hun : ∀ tm ∈ s.teams, tm.body.shadows = [])
    (hl : b.threads.filter (fun t => s.atPc t b.pc) = r :: l)
    (hf : s.fetch b.core (s.asrecOf r.team) (s.sysLevel r.team) b.pc = some ws) {u : State}
    (hu : u = ({ s with issue := rest } : State).issued { b with threads := r :: l }
      (({ s with issue := rest } : State).mates { b with threads := r :: l } (fetched ws))) :
    step s = afterIssue u (fetched ws) (exec (fetched ws) u) := by
  have ht : ({ s with issue := rest } : State).takeBundle b = some (u, fetched ws) := hu ▸ takeBundle_threads hh hl hf
  have hunu : ∀ tm ∈ u.teams, tm.body.shadows = [] := hu ▸ hun
  rw [step_eq_vigilRun hs hb ht, vigilRun_unshadowed (vigilSquads_eq_nil hunu)]

/-- The same of a trap handler's instruction. -/
theorem step_of_handler {s : State} {b : Bundle} {rest : List Bundle} {n : Nat} {h : Handler} {ws : List Word} (hs : s.issue = b :: rest)
    (hh : b.handler = some n) (hb : b.shadow = none) (hth : (s.team? n).bind (·.handler) = some h) (hrun : h.run = .ready)
    (hpc : h.pc = b.pc) (hnone : b.threads = []) (hf : s.fetch b.core (s.asrecOf n) (s.sysLevel n) b.pc = some ws)
    (hscope : (fetched ws).scope ≠ .team) (hun : ∀ tm ∈ s.teams, tm.body.shadows = []) {u : State}
    (hu : u = { s with issue := rest, cur := b }) : step s = afterIssue u (fetched ws) (exec (fetched ws) u) := by
  have ht : ({ s with issue := rest } : State).takeBundle b = some (u, fetched ws) := by
    refine (takeBundle_handler (s := { s with issue := rest }) hh hth hrun hpc hnone hf).trans ?_
    rw [mates_of_not_team hscope, issued_alone, hu]
  have hunu : ∀ tm ∈ u.teams, tm.body.shadows = [] := hu ▸ hun
  rw [step_eq_vigilRun hs hb ht, vigilRun_unshadowed (vigilSquads_eq_nil hunu)]

/-- Settles O54: the bundle taken, its words fetched and decoded, its instruction performed beside its shadows, a pending step or a
cycle where nothing is issued, and the count that follows. -/
theorem stepRunsDecoded : Obligations.StepRunsDecoded := by
  refine ⟨?threads, ?handler, fun s => step_eq_pending_or_nextCycle, ?vigil, ?after⟩
  case threads =>
    intro s b rest r l ws hs hh hb hun hl hf
    refine ⟨?_, fun e he => ⟨ws.take (((ws.headD .zero).bits 1 3) + 1), ?_⟩⟩
    · rintro i ms hi rfl cur rfl u hu
      obtain rfl := fetched_ok hi
      exact step_of_threads hs hh hb hun hl hf hu
    · intro u hu
      rw [← fetched_error he]
      have hscope : (fetched ws).scope ≠ .team := by rw [fetched_error he, scope_illegalInstruction]; decide
      refine step_of_threads hs hh hb hun hl hf ?_
      rw [mates_of_not_team hscope, issued_alone, hu]
  case handler =>
    intro s b rest n h ws i hs hh hb hth hrun hpc hnone hf hi hscope hun u hu
    obtain rfl := fetched_ok hi
    exact step_of_handler hs hh hb hth hrun hpc hnone hf hscope hun hu
  case vigil =>
    refine fun s b rest hs => ⟨fun n q hb => step_eq_shadowRun hs hb, fun hb u i ht hq => ⟨fun out hi he => ?_, fun k hk hi hbehind => ?_⟩⟩
    · have hw := unshadowed_foldl_recordTrail u i out u.vigilSquads
      exact ⟨_, by rw [step_eq_vigilRun hs hb ht, vigilRun_records hi hq he], eq_of_unshadowed_eq hw,
        congrFun (congrArg Prod.snd hw)⟩
    · rw [step_eq_vigilRun hs hb ht, vigilRun_waits hk hi hbehind]
  case after =>
    intro u t i h
    obtain ⟨hrest, hcores⟩ := tally_uncovered u i h
    exact ⟨⟨_, rfl, hrest, hcores⟩, congrArg Host.Outcome.next (checkShadows_uncovered h)⟩

end Sys2Proof.Machine
end

section
/-! PROOFS. Decoding what the encoder gives: the fields of a word, the operands, the words of an instruction. -/

namespace Sys2Proof

/-- Every digit of a first word lies in its field. -/
def Raw1.fits (r : Raw1) : Prop :=
  r.f < 9 ∧ r.b < 243 ∧ r.a < 243 ∧ r.d < 243 ∧ r.gc < 9 ∧ r.gp < 9 ∧ r.op < 243 ∧ r.l < 3

/-- Every digit of a second word lies in its field. -/
def Raw2.fits (r : Raw2) : Prop :=
  r.x < 9 ∧ r.sat < 3 ∧ r.gr < 9 ∧ r.la < 9 ∧ r.xc < 3 ∧ r.xr < 9 ∧ r.et < 9 ∧ r.mbm < 9 ∧ r.mbp < 27 ∧ r.mam < 9 ∧ r.map < 27 ∧ r.c < 243

theorem Word.bits_ofNum {n : Nat} (h : n < 7625597484987) (m k : Nat) : (Word.ofNum n).bits m k = n / m % k := by
  simp [Word.bits, Word.num, Word.ofNum, Fin.ofNat, Nat.mod_eq_of_lt h]

theorem unpack1_pack1 {r : Raw1} (h : r.fits) : unpack1 (pack1 r) = r := by
  obtain ⟨hf, hb, ha, hd, hgc, hgp, hop, hl⟩ := h
  rcases r with ⟨f, b, a, d, gc, gp, op, l⟩
  simp only at hf hb ha hd hgc hgp hop hl
  have hn : f * 847288609443 + b * 3486784401 + a * 14348907 + d * 59049 + gc * 6561 + gp * 729 + op * 3 + l < 7625597484987 := by omega
  simp only [unpack1, pack1, Word.bits_ofNum hn, Raw1.mk.injEq]
  omega

theorem unpack2_pack2 {r : Raw2} (h : r.fits) : unpack2 (pack2 r) = r := by
  obtain ⟨hx, hsat, hgr, hla, hxc, hxr, het, hmbm, hmbp, hmam, hmap, hc⟩ := h
  rcases r with ⟨x, sat, gr, la, xc, xr, et, mbm, mbp, mam, map, c⟩
  simp only at hx hsat hgr hla hxc hxr het hmbm hmbp hmam hmap hc
  have hn : x * 847288609443 + sat * 282429536481 + gr * 31381059609 + la * 3486784401 + xc * 1162261467
      + xr * 129140163 + et * 14348907 + mbm * 1594323 + mbp * 59049 + mam * 6561 + map * 243 + c < 7625597484987 := by omega
  simp only [unpack2, pack2, Word.bits_ofNum hn, Raw2.mk.injEq]
  omega

/-! ### What a field's value spells -/

@[simp] theorem GCond.ofField_toField (g : GCond) : GCond.ofField g.toField = some g := by cases g <;> rfl

@[simp] theorem ETy.ofField_toField (t : ETy) : ETy.ofField t.toField = some t := by cases t <;> rfl

theorem GCond.toField_lt (g : GCond) : g.toField < 9 := by cases g <;> decide

theorem ETy.toField_lt (t : ETy) : t.toField < 9 := by cases t <;> decide

/-- A rotation's amount stands above the middle of its field, and below it where the fill is the lane's own value (R148). -/
theorem ofField_amount (f : Nat → Bool → Route) {n : Nat} {own : Bool} (h : own = false ∨ n ≠ 0) (hn : n ≤ 13) {p : Nat}
    (hp : p = if own then 13 - n else 13 + n) : (if 13 ≤ p then f (p - 13) false else f (13 - p) true) = f n own := by
  subst hp
  cases own with
  | false => simp
  | true =>
    have h0 : ¬13 ≤ 13 - n := by have := h.resolve_left (by decide); omega
    rw [if_pos rfl, if_neg h0, Nat.sub_sub_self hn]

theorem ofField_bfly : ∀ d < 3, ∀ up own : Bool,
    Route.ofField (Route.bfly d up own).toField.1 (Route.bfly d up own).toField.2 = some (.bfly d up own) := by decide

theorem ofField_grot9 : ∀ n < 9, ∀ own : Bool,
    Route.ofField (Route.grot 9 own ((n : Nat) - 4)).toField.1 (Route.grot 9 own ((n : Nat) - 4)).toField.2 = some (.grot 9 own ((n : Nat) - 4)) := by
  decide

theorem ofField_grot3 : ∀ n < 3, ∀ own : Bool,
    Route.ofField (Route.grot 3 own ((n : Nat) - 1)).toField.1 (Route.grot 3 own ((n : Nat) - 1)).toField.2 = some (.grot 3 own ((n : Nat) - 1)) := by
  decide

theorem Route.ofField_toField {r : Route} (h : r.ok = true) : Route.ofField r.toField.1 r.toField.2 = some r := by
  cases r with
  | none => rfl
  | rev own => cases own <;> rfl
  | idx own => cases own <;> rfl
  | bcast b => rfl
  | rot n own | rotb n own =>
    obtain ⟨hn, h0⟩ : n ≤ 13 ∧ (own = false ∨ n ≠ 0) := by simpa [Route.ok] using h
    exact congrArg some (ofField_amount _ h0 hn rfl)
  | bfly d up own =>
    have hd : d ≤ 2 := by simpa [Route.ok] using h
    exact ofField_bfly d (Nat.lt_succ_of_le hd) up own
  | tri x y z =>
    obtain ⟨⟨hx, hy⟩, hz⟩ : (x ≤ 2 ∧ y ≤ 2) ∧ z ≤ 2 := by simpa [Route.ok] using h
    simp only [Route.toField, Route.ofField, Option.some.injEq, Route.tri.injEq]
    omega
  | grot s own a =>
    simp only [Route.ok, Bool.and_eq_true, Bool.or_eq_true, decide_eq_true_eq, beq_iff_eq] at h
    obtain ⟨⟨rfl, h1⟩, h2⟩ | ⟨⟨rfl, h1⟩, h2⟩ := h
    · obtain ⟨n, hn, rfl⟩ : ∃ n < 9, a = ((n : Nat) : Int) - 4 := ⟨(a + 4).toNat, by omega, by omega⟩
      exact ofField_grot9 n hn own
    · obtain ⟨n, hn, rfl⟩ : ∃ n < 3, a = ((n : Nat) : Int) - 1 := ⟨(a + 1).toNat, by omega, by omega⟩
      exact ofField_grot3 n hn own

theorem Route.toField_lt {r : Route} (h : r.ok = true) : r.toField.1 < 9 ∧ r.toField.2 < 27 := by
  cases r <;> simp only [Route.ok, Bool.and_eq_true, Bool.or_eq_true, decide_eq_true_eq, beq_iff_eq] at h <;>
    simp only [Route.toField] <;> grind

/-! ### Operands: what mkOpnd gives of the fields that raw1 and raw2 give -/

/-- The operands lie in the fields of the first word (R158). -/
def Opnd.inFirst (o : Opnd) : Prop :=
  o.gp ≤ 8 ∧ -4 ≤ o.f ∧ o.f ≤ 4 ∧ -121 ≤ o.d ∧ o.d ≤ 121 ∧ -121 ≤ o.a ∧ o.a ≤ 121 ∧ -121 ≤ o.b ∧ o.b ≤ 121

/-- The operands lie in the fields of the second word (R161). -/
def Opnd.inSecond (o : Opnd) : Prop :=
  -4 ≤ o.x ∧ o.x ≤ 4 ∧ o.gr ≤ 8 ∧ o.la ≤ 8 ∧ 1 ≤ o.xc ∧ o.xc ≤ 3 ∧ 1 ≤ o.xr ∧ o.xr ≤ 9
    ∧ o.mb.ok = true ∧ o.ma.ok = true ∧ -121 ≤ o.c ∧ o.c ≤ 121

/-- A one-word form's operands: those of the second word are the ones of R162. -/
def Opnd.impliedSecond (op : Int) (o : Opnd) : Prop :=
  o.x = 0 ∧ o.sat = false ∧ o.gr = 0 ∧ o.la = 0 ∧ o.xc = 1 ∧ o.xr = 1 ∧ o.et = impliedET op ∧ o.mb = .none ∧ o.ma = .none ∧ o.c = 0

theorem Opnd.inFirst_of_encodable {op : Int} {o : Opnd} (h : o.encodable op = true) : o.inFirst := by
  simp only [Opnd.encodable, Bool.and_eq_true, decide_eq_true_eq] at h
  obtain ⟨⟨⟨⟨⟨⟨⟨⟨⟨⟨⟨_, hgp⟩, hf⟩, hf'⟩, hd⟩, hd'⟩, ha⟩, ha'⟩, hb⟩, hb'⟩, _⟩, _⟩ := h
  exact ⟨hgp, hf, hf', hd, hd', ha, ha', hb, hb'⟩

/-- The three lengths of an instruction (R155), and what each asks of the operands that the first word does not hold. -/
theorem Opnd.encodable_cases {op : Int} {o : Opnd} (h : o.encodable op = true) :
    (o.len = 1 ∧ o.impliedSecond op ∧ o.w3 = .zero) ∨ (o.len = 2 ∧ o.inSecond ∧ o.w3 = .zero) ∨ (o.len = 3 ∧ o.inSecond) := by
  simp only [Opnd.encodable, Bool.and_eq_true, decide_eq_true_eq] at h
  obtain ⟨⟨⟨⟨⟨⟨⟨⟨⟨⟨⟨⟨hlen1, hlen3⟩, _⟩, _⟩, _⟩, _⟩, _⟩, _⟩, _⟩, _⟩, _⟩, hs⟩, h3⟩ := h
  have hw : o.len ≠ 3 → o.w3 = .zero := by
    intro hne
    simp only [Bool.or_eq_true, beq_iff_eq] at h3
    exact h3.resolve_left hne
  by_cases hl : o.len = 1
  · simp only [if_pos hl, Bool.and_eq_true, Bool.not_eq_true', beq_iff_eq] at hs
    obtain ⟨⟨⟨⟨⟨⟨⟨⟨⟨hx, hsat⟩, hgr⟩, hla⟩, hxc⟩, hxr⟩, het⟩, hmb⟩, hma⟩, hc⟩ := hs
    exact .inl ⟨hl, ⟨hx, hsat, hgr, hla, hxc, hxr, het, hmb, hma, hc⟩, hw (by omega)⟩
  · simp only [if_neg hl, Bool.and_eq_true, decide_eq_true_eq] at hs
    obtain ⟨⟨⟨⟨⟨⟨⟨⟨⟨⟨⟨hx, hx'⟩, hgr⟩, hla⟩, hxc⟩, hxc'⟩, hxr⟩, hxr'⟩, hmb⟩, hma⟩, hc⟩, hc'⟩ := hs
    have hsecond : o.inSecond := ⟨hx, hx', hgr, hla, hxc, hxc', hxr, hxr', hmb, hma, hc, hc'⟩
    by_cases hl2 : o.len = 2
    · exact .inr (.inl ⟨hl2, hsecond, hw (by omega)⟩)
    · exact .inr (.inr ⟨by omega, hsecond⟩)

theorem Opnd.raw1_fits {op l : Int} {o : Opnd} (h : o.inFirst) (hop : -121 ≤ op) (hop' : op ≤ 121) (hl : -1 ≤ l) (hl' : l ≤ 1) :
    (o.raw1 op l).fits := by
  have hg := o.gc.toField_lt
  obtain ⟨hgp, hf, hf', hd, hd', ha, ha', hb, hb'⟩ := h
  simp only [Raw1.fits, Opnd.raw1]
  omega

theorem Opnd.raw2_fits {o : Opnd} (h : o.inSecond) : o.raw2.fits := by
  obtain ⟨hx, hx', hgr, hla, hxc, hxc', hxr, hxr', hmb, hma, hc, hc'⟩ := h
  have hsat : (if o.sat then 2 else 1) < 3 := by split <;> decide
  refine ⟨?_, hsat, ?_, ?_, ?_, ?_, o.et.toField_lt, (Route.toField_lt hmb).1, (Route.toField_lt hmb).2,
    (Route.toField_lt hma).1, (Route.toField_lt hma).2, ?_⟩ <;> simp only [Opnd.raw2] <;> omega

theorem mkOpnd_raw1 {op l : Int} {o : Opnd} (h : o.inFirst) (hlen : o.len = 1) (hs : o.impliedSecond op) (hw : o.w3 = .zero) :
    mkOpnd op 1 (o.raw1 op l) none .zero = some o := by
  obtain ⟨hgp, hf, hf', hd, hd', ha, ha', hb, hb'⟩ := h
  obtain ⟨hx, hsat, hgr, hla, hxc, hxr, het, hmb, hma, hc⟩ := hs
  obtain ⟨len, gc, gp, f, d, a, b, x, sat, gr, la, xc, xr, et, mb, ma, c, w3⟩ := o
  simp only at *
  subst hlen hx hsat hgr hla hxc hxr het hmb hma hc hw
  simp [mkOpnd, Opnd.raw1]
  omega

theorem mkOpnd_raw2 {op l : Int} {o : Opnd} (h : o.inFirst) (hs : o.inSecond) :
    mkOpnd op o.len (o.raw1 op l) (some o.raw2) o.w3 = some o := by
  obtain ⟨hgp, hf, hf', hd, hd', ha, ha', hb, hb'⟩ := h
  obtain ⟨hx, hx', hgr, hla, hxc, hxc', hxr, hxr', hmb, hma, hc, hc'⟩ := hs
  obtain ⟨len, gc, gp, f, d, a, b, x, sat, gr, la, xc, xr, et, mb, ma, c, w3⟩ := o
  simp only at *
  cases sat <;> simp [mkOpnd, Opnd.raw1, Opnd.raw2, Route.ofField_toField hmb, Route.ofField_toField hma] <;> omega

/-! ### The decoder on the words that the encoder gives -/

/-- No entry of the opcode map has opcode 0 or one of a higher ISA level (R172). -/
theorem entries_op_defined : ∀ e ∈ entries, e.op ≠ 0 ∧ ¬((-26 ≤ e.op ∧ e.op ≤ -1) ∨ 78 ≤ e.op) := by
  have h : entries.all (fun e => e.op != 0 && !decide ((-26 ≤ e.op ∧ e.op ≤ -1) ∨ 78 ≤ e.op)) = true := by decide +kernel
  intro e he
  simpa only [Bool.and_eq_true, bne_iff_ne, Bool.not_eq_true', decide_eq_false_iff_not] using List.all_eq_true.mp h e he

theorem lookup_mem {op f x : Int} {e : Entry} (h : lookup op f x = some e) : e ∈ entries ∧ e.op = op := by
  have hp := List.find?_some h
  simp only [Bool.and_eq_true, beq_iff_eq] at hp
  exact ⟨List.mem_of_find?_eq_some h, hp.1.1⟩

theorem decodeOne_of_legal {op : Int} {o : Opnd} {e : Entry} (hl : lookup op o.f o.x = some e) (hok : e.legal o = true) (z : Bool) :
    decodeOne op (some o) z = .ok (e.build o) := by
  obtain ⟨he, rfl⟩ := lookup_mem hl
  obtain ⟨h0, hhigh⟩ := entries_op_defined e he
  have hany : entries.any (fun k => k.op == e.op) = true := List.any_eq_true.mpr ⟨e, he, beq_self_eq_true _⟩
  simp [decodeOne, h0, hhigh, hany, hl, hok]

theorem Opnd.raw1_op {op l : Int} (o : Opnd) (hop : -121 ≤ op) : (((o.raw1 op l).op : Nat) : Int) - 121 = op := by
  simp only [Opnd.raw1]; omega

/-- A word that opens an instruction of one word, and is no PAIR. -/
theorem decode_oneWord {w : Word} {op : Int} (hop : ((unpack1 w).op : Int) - 121 = op) (hpair : op ≠ 15) (hl : (unpack1 w).l = 0)
    (rest : List Word) : decode (w :: rest) = decodeOne op (mkOpnd op 1 (unpack1 w) none .zero) (w == .zero) := by
  simp only [decode, hop, hl, Nat.not_lt_zero, if_false, if_neg hpair]

theorem decode_twoWords {w : Word} {op : Int} (hop : ((unpack1 w).op : Int) - 121 = op) (hpair : op ≠ 15) (hl : (unpack1 w).l = 1)
    (v : Word) (rest : List Word) :
    decode (w :: v :: rest) = decodeOne op (mkOpnd op 2 (unpack1 w) (some (unpack2 v)) .zero) (w == .zero) := by
  have hlen : ¬(v :: rest).length < 1 := by simp
  simp only [decode, hop, hl, if_neg hlen, if_neg hpair]

theorem decode_threeWords {w : Word} {op : Int} (hop : ((unpack1 w).op : Int) - 121 = op) (hpair : op ≠ 15) (hl : (unpack1 w).l = 2)
    (v u : Word) (rest : List Word) :
    decode (w :: v :: u :: rest) = decodeOne op (mkOpnd op 3 (unpack1 w) (some (unpack2 v)) u) (w == .zero) := by
  have hlen : ¬(v :: u :: rest).length < 2 := by simp
  simp only [decode, hop, hl, if_neg hlen, if_neg hpair]

/-- The words of an opcode other than PAIR's spell its operands, whatever follows them. -/
theorem decode_words {op : Int} {o : Opnd} (hop : -121 ≤ op) (hop' : op ≤ 121) (hpair : op ≠ 15) (h : o.encodable op = true)
    (rest : List Word) : ∃ z, decode (o.words op ++ rest) = decodeOne op (some o) z := by
  have h1 := Opnd.inFirst_of_encodable h
  have hlen : 1 ≤ o.len ∧ o.len ≤ 3 := by obtain ⟨hl, _⟩ | ⟨hl, _⟩ | ⟨hl, _⟩ := Opnd.encodable_cases h <;> omega
  have hfit : (o.raw1 op ((o.len : Int) - 2)).fits := Opnd.raw1_fits h1 hop hop' (by omega) (by omega)
  have hunpack := unpack1_pack1 hfit
  have hopc : ((unpack1 (pack1 (o.raw1 op ((o.len : Int) - 2)))).op : Int) - 121 = op := by rw [hunpack, Opnd.raw1_op o hop]
  have hl : (unpack1 (pack1 (o.raw1 op ((o.len : Int) - 2)))).l = o.len - 1 := by rw [hunpack]; simp only [Opnd.raw1]; omega
  refine ⟨pack1 (o.raw1 op ((o.len : Int) - 2)) == .zero, ?_⟩
  obtain ⟨h2, hs, hw⟩ | ⟨h2, hs, hw⟩ | ⟨h2, hs⟩ := Opnd.encodable_cases h
  · have hm := mkOpnd_raw1 (l := (o.len : Int) - 2) h1 h2 hs hw
    rw [show o.words op = [_] from if_pos h2, List.singleton_append, decode_oneWord hopc hpair (hl.trans (by rw [h2])), hunpack, hm]
  · have hm := mkOpnd_raw2 (op := op) (l := (o.len : Int) - 2) h1 hs
    rw [show o.words op = [_, _] from (if_neg (by omega)).trans (if_pos h2)]
    rw [List.cons_append, List.singleton_append, decode_twoWords hopc hpair (hl.trans (by rw [h2])), hunpack,
      unpack2_pack2 (Opnd.raw2_fits hs), ← hw, ← h2, hm]
  · have hm := mkOpnd_raw2 (op := op) (l := (o.len : Int) - 2) h1 hs
    rw [show o.words op = [_, _, _] from (if_neg (by omega)).trans (if_neg (by omega))]
    rw [List.cons_append, List.cons_append, List.singleton_append, decode_threeWords hopc hpair (hl.trans (by rw [h2])), hunpack,
      unpack2_pack2 (Opnd.raw2_fits hs), ← h2, hm]

theorem operands_legal {op : Int} {o : Opnd} (h : WellFormed.operands op o = true) :
    o.encodable op = true ∧ ∃ e, lookup op o.f o.x = some e ∧ e.legal o = true := by
  simp only [WellFormed.operands, Bool.and_eq_true] at h
  obtain ⟨henc, hl⟩ := h
  split at hl
  · next e he => exact ⟨henc, e, he, hl⟩
  · cases hl

theorem opcode_bounds {op : Int} (h : WellFormed.opcode op = true) : -121 ≤ op ∧ op ≤ 121 ∧ op ≠ 15 := by
  simpa [WellFormed.opcode, and_assoc] using h

/-- A word that spells an inner instruction of a PAIR, whatever its L holds (R167). -/
theorem decodeInner_of_mkOpnd {w : Word} {op : Int} {o : Opnd} {i : Instr} (hop : ((unpack1 w).op : Int) - 121 = op) (hpair : op ≠ 15)
    (hm : mkOpnd op 1 (unpack1 w) none .zero = some o) (hd : ∀ z, decodeOne op (some o) z = .ok i) :
    decodeInner w = .ok (op, o, ((unpack1 w).l : Int) - 1) := by
  simp only [decodeInner, hop, if_neg hpair, hm, hd]

/-- An inner word of a PAIR, with any L trit (R167). -/
theorem decodeInner_pack1 {op l : Int} {o : Opnd} (h : WellFormed.inner op o l = true) : decodeInner (pack1 (o.raw1 op l)) = .ok (op, o, l) := by
  simp only [WellFormed.inner, Bool.and_eq_true, beq_iff_eq, decide_eq_true_eq] at h
  obtain ⟨⟨⟨⟨hopc, hopnd⟩, hlen⟩, hl⟩, hl'⟩ := h
  obtain ⟨hop, hop', hpair⟩ := opcode_bounds hopc
  obtain ⟨henc, e, he, hlegal⟩ := operands_legal hopnd
  have h1 := Opnd.inFirst_of_encodable henc
  obtain ⟨_, hs, hw⟩ : o.len = 1 ∧ o.impliedSecond op ∧ o.w3 = .zero := by
    obtain h2 | ⟨h2, _⟩ | ⟨h2, _⟩ := Opnd.encodable_cases henc
    · exact h2
    · omega
    · omega
  have hlt : (((o.raw1 op l).l : Nat) : Int) - 1 = l := by simp only [Opnd.raw1]; omega
  have hunpack := unpack1_pack1 (Opnd.raw1_fits h1 hop hop' hl hl')
  have hd := decodeInner_of_mkOpnd (w := pack1 (o.raw1 op l)) (by rw [hunpack, Opnd.raw1_op o hop]) hpair
    (by rw [hunpack, mkOpnd_raw1 h1 hlen hs hw]) (decodeOne_of_legal he hlegal)
  rw [hd, hunpack, hlt]

/-- The header of a PAIR opens a PAIR (R167). -/
theorem decode_pairHeader {a b : Word} {p q : Int × Opnd × Int} (ha : decodeInner a = .ok p) (hb : decodeInner b = .ok q) (rest : List Word) :
    decode (pairHeader :: a :: b :: rest) = .ok (.pair p.1 p.2.1 p.2.2 q.1 q.2.1 q.2.2) := by
  have hop : ((unpack1 pairHeader).op : Int) - 121 = 15 := by decide +kernel
  have hlen : ¬(a :: b :: rest).length < (unpack1 pairHeader).l := by
    rw [show (unpack1 pairHeader).l = 2 by decide +kernel]; simp
  simp only [decode, hop, if_neg hlen, if_true, ne_eq, not_true_eq_false, if_false, ha, hb]

/-- A well-formed instruction is a PAIR or has an opcode and operands of its own. -/
theorem wellFormed_cases {i : Instr} (h : i.wellFormed = true) :
    (∃ op1 o1 l1 op2 o2 l2, i = .pair op1 o1 l1 op2 o2 l2 ∧ WellFormed.inner op1 o1 l1 = true ∧ WellFormed.inner op2 o2 l2 = true)
    ∨ ∃ op o, i.parts = some (op, o) ∧ encode i = some (o.words op) ∧ WellFormed.opcode op = true ∧ WellFormed.operands op o = true
      ∧ WellFormed.selects op o i = true := by
  unfold Instr.wellFormed at h
  split at h
  · next op1 o1 l1 op2 o2 l2 => exact .inl ⟨op1, o1, l1, op2, o2, l2, rfl, Bool.and_eq_true_iff.mp h⟩
  · next hno =>
    split at h
    · next op o hp =>
      simp only [Bool.and_eq_true] at h
      obtain ⟨⟨hopc, hopnd⟩, hsel⟩ := h
      refine .inr ⟨op, o, hp, ?_, hopc, hopnd, hsel⟩
      unfold encode
      split
      · exact absurd rfl (hno _ _ _ _ _ _)
      · rw [hp]; rfl
    · cases h

theorem build_of_selects {op : Int} {o : Opnd} {i : Instr} {e : Entry} (h : WellFormed.selects op o i = true) (he : lookup op o.f o.x = some e) :
    e.build o = i := by
  simpa [WellFormed.selects, he] using h

/-- Settles O59: a PAIR by its header and its two inner words, any other instruction by the fields of its words. -/
theorem roundTrip : Obligations.RoundTrip := by
  intro i hi
  obtain ⟨op1, o1, l1, op2, o2, l2, rfl, h1, h2⟩ | ⟨op, o, hparts, hw, hopc, hopnd, hsel⟩ := wellFormed_cases hi
  · exact ⟨_, rfl, fun rest => decode_pairHeader (decodeInner_pack1 h1) (decodeInner_pack1 h2) rest⟩
  · obtain ⟨hop, hop', hpair⟩ := opcode_bounds hopc
    obtain ⟨henc, e, he, hlegal⟩ := operands_legal hopnd
    refine ⟨_, hw, fun rest => ?_⟩
    obtain ⟨z, hz⟩ := decode_words hop hop' hpair henc rest
    rw [hz, decodeOne_of_legal he hlegal, build_of_selects hsel he]

end Sys2Proof
end

section
/-! PROOFS. PAIR: its two inner instructions performed as one. -/

namespace Sys2Proof.Machine

/-- Outside a handler, what follows a body in which nothing traps is what follows its effect's state and what comes of each execution. -/
theorem conclude_from {s : State} (h : s.cur.handler = none) (w : State) (i : Instr) (scalar : Bool) (l : List (Exec × After)) :
    s.conclude i (s.execs scalar) (Eff.from w l) = s.after w i scalar l := by
  simp only [State.conclude, h, Eff.from, State.after, List.any_nil, Bool.not_false, Bool.true_and, List.map_nil, List.flatten_nil,
    raiseTraps_nil, List.foldl_nil, State.passThread, State.winsOf] <;> rfl

theorem stayOf_gotos (l : List (Exec × Word)) : stayOf (l.map (fun p => (p.1, After.goto p.2))) = [] := by
  induction l with
  | nil => rfl
  | cons p l ih => exact ih

theorem gotoOf_gotos (l : List (Exec × Word)) : gotoOf (l.map (fun p => (p.1, After.goto p.2))) = l := by
  induction l with
  | nil => rfl
  | cons p l ih => exact congrArg (List.cons p) ih

/-- What an effect without traps and waits makes of its executions. -/
theorem Eff.eq_from_goto {e : Eff} (ht : e.traps = []) (hs : e.stay = []) : e = Eff.from e.s (e.goto.map (fun p => (p.1, After.goto p.2))) := by
  obtain ⟨s, traps, stay, goto⟩ := e
  subst ht hs
  simp only [Eff.from, stayOf_gotos, gotoOf_gotos]

/-- Where the first instruction neither traps nor waits, the second runs in the lanes that have not exited (R169). -/
theorem pairBody_of_pairRule {first second : Inner} {words : List Word} {xs : List Exec} {s w : State} {l : List (Exec × After)}
    (h : pairRule first second words xs s = some (w, l)) : pairBody first second words s xs = Eff.from w l := by
  simp only [pairRule] at h
  split at h
  · next hc =>
    obtain ⟨ht, hs, ht2, hs2⟩ := hc
    obtain ⟨rfl, rfl⟩ : _ = w ∧ _ = l := by simpa only [Option.some.injEq, Prod.mk.injEq] using h
    rw [← Eff.eq_from_goto (e := ⟨_, [], [], _⟩) rfl rfl]
    simp only [pairBody, ht, hs, List.any_nil, List.contains_nil, Bool.false_and, Bool.false_or, ht2, hs2, List.append_nil]
  · cases h

/-- Settles O30: nothing refuses or holds the PAIR back, and its body answers what the rule of the two instructions says. -/
theorem pairedInstructions : Obligations.PairedInstructions := by
  intro op1 op2 l1 l2 o1 o2 p q s w l hp hq hok hh hx hrule
  have hcode : ∀ k : Inner, (∀ x ∈ s.execs false, s.dynCode k.form k.o x false = none) →
      (s.execs false).findSome? (fun x => s.dynCode k.form k.o x false) = none := fun k hk => List.findSome?_eq_none_iff.mpr hk
  have hfree : (s.execs false).any (fun x => s.interlocked p.form p.o x || s.interlocked q.form q.o x) = false := by
    rw [List.any_eq_false]
    intro x hm
    obtain ⟨_, _, hip, hiq⟩ := hx x hm
    simp [hip, hiq]
  have hbody : (if q.e.cls = .V then pairBody p q ((encode (.pair op1 o1 l1 op2 o2 l2)).getD [])
      else pairBody q p ((encode (.pair op1 o1 l1 op2 o2 l2)).getD [])) s (s.execs false) = Eff.from w l := by
    split at hrule
    · next hc => rw [if_pos hc]; exact pairBody_of_pairRule hrule
    · next hc => rw [if_neg hc]; exact pairBody_of_pairRule hrule
  show execPair op1 o1 l1 op2 o2 l2 s = _
  simp only [execPair, hp, hq, hh, Option.isSome_none, hok, Bool.not_true, Bool.false_eq_true, if_false,
    hcode p (fun x hm => (hx x hm).1), hcode q (fun x hm => (hx x hm).2.1), hfree, hbody, conclude_from hh]

end Sys2Proof.Machine
end

section
/-! PROOFS. Illegal instructions and TRAP: the threads that trap and those that pass. -/

namespace Sys2Proof.Machine

/-- The step of an illegal encoding traps every thread of the bundle where it stands (R173). -/
theorem illegalInstruction_trapped {code : Nat} {words : List Word} {s : State} (hs : s.bundleFits)
    (hpc : ∀ r ∈ s.cur.threads, ∀ th, s.thread? r = some th → th.pc = s.cur.pc) :
    ∃ t, exec (.illegalInstruction code words) s = .next t ∧ Trapped s s t s.cur.threads 1 code words s.cur.pc := by
  obtain ⟨hh, _⟩ := hs
  refine ⟨s.raiseTraps (s.cur.threads.map (fun r => (r, Trap.of 1 code .zero))) s.cur.pc words, ?_, ?_⟩
  · show Host.Outcome.next (s.illegal code words) = _
    rw [State.illegal, hh]
  · exact trapped_of s s s.cur.threads 1 code s.cur.pc s.cur.pc words rfl (fun _ => rfl) rfl
      (fun r hr th hth => ⟨th, hth, hpc r hr th hth, rfl, rfl⟩) s (fun _ _ => rfl)

theorem stops_trap (t : Trap) (xs : List Exec) (e : Eff) :
    xs.foldl (fun e x => e.stop x (.trap t)) e = { e with traps := e.traps ++ xs.map (fun x => (x, t)) } := by
  induction xs generalizing e with
  | nil => simp
  | cons x xs ih => rw [List.foldl_cons, ih]; simp [Eff.stop]

/-- The executions of the bundle whose guard does not hold. -/
def State.passes (s : State) (o : Opnd) : List Exec := (s.execs o.et.scalar).filter (fun x => !x.guard s o)

/-- The bundle before its trap of cause 16 is raised: a thread that takes it stands at the next instruction, and every other passes
the instruction (R369). -/
def State.behindTrap (s : State) (i : Instr) (o : Opnd) : State :=
  ((s.runs o).flatMap (·.ts)).foldl (fun u r => u.setPc r (s.cur.pc.add i.trytes))
    (((s.passes o).flatMap (·.ts)).foldl (fun u r => u.passThread r (s.cur.pc.add i.trytes) (s.winsOf r)) s)

/-- Outside a handler, every execution that runs takes one trap of cause 16. -/
theorem conclude_trap16 {s : State} (hh : s.cur.handler = none) (i : Instr) (o : Opnd) {t : Trap} (ht : t.cause = 16) :
    s.conclude i (s.execs o.et.scalar) { s := s, traps := (s.runs o).map (fun x => (x, t)), stay := [], goto := [] }
      = (s.behindTrap i o).raiseTraps (((s.runs o).flatMap (·.ts)).map (fun r => (r, t))) s.cur.pc ((encode i).getD []) := by
  have hdone : (s.execs o.et.scalar).filter (fun x => !(((s.runs o).map (fun x => (x, t))).any (fun p => p.1 == x)) && !([] : List Exec).contains x)
      = s.passes o := by
    refine List.filter_congr fun x hx => ?_
    have hany : ((s.runs o).map (fun x => (x, t))).any (fun p => p.1 == x) = x.guard s o := by
      rw [Bool.eq_iff_iff]
      simp [State.runs, hx]
    rw [hany]
    simp
  have htraps : (((s.runs o).map (fun x => (x, t))).map (fun p => p.1.ts.map (fun r => (r, p.2)))).flatten
      = ((s.runs o).flatMap (·.ts)).map (fun r => (r, t)) := by
    rw [List.map_flatMap, List.flatMap_def, List.map_map]
    rfl
  simp only [State.conclude, hh, hdone, htraps, List.foldl_nil, List.find?_nil, List.foldl_map, ht, if_true, State.behindTrap,
    List.foldl_flatMap]
  rfl

/-- A thread of the bundle passes the instruction exactly where it does not run it. -/
theorem mem_passes {s : State} (hh : s.cur.handler = none) (hn : s.cur.threads.Nodup) (o : Opnd) (r : TRef) :
    r ∈ (s.passes o).flatMap (·.ts) ↔ r ∈ s.cur.threads ∧ r ∉ (s.runs o).flatMap (·.ts) := by
  rw [← mem_execs_ts s hh o.et.scalar]
  simp only [List.mem_flatMap, State.passes, State.runs, List.mem_filter]
  constructor
  · rintro ⟨x, ⟨hx, hg⟩, hr⟩
    refine ⟨⟨x, hx, hr⟩, ?_⟩
    rintro ⟨y, ⟨hy, hgy⟩, hry⟩
    rw [flatMap_inj _ _ (execs_ts_nodup s hh hn o.et.scalar) x hx y hy r hr hry, hgy] at hg
    cases hg
  · rintro ⟨⟨x, hx, hr⟩, hno⟩
    refine ⟨x, ⟨hx, ?_⟩, hr⟩
    cases hg : x.guard s o with
    | false => rfl
    | true => exact absurd ⟨x, ⟨hx, hg⟩, hr⟩ hno

theorem passes_nodup {s : State} (hh : s.cur.handler = none) (hn : s.cur.threads.Nodup) (o : Opnd) : ((s.passes o).flatMap (·.ts)).Nodup := by
  obtain ⟨heach, hdisjoint⟩ := List.pairwise_flatMap.mp (execs_ts_nodup s hh hn o.et.scalar)
  exact List.pairwise_flatMap.mpr ⟨fun x hx => heach x (List.mem_filter.mp hx).1, hdisjoint.sublist List.filter_sublist⟩

theorem thread?_behindTrap {s : State} (hf : s.bundleFits) (i : Instr) (o : Opnd) (r : TRef) :
    (s.behindTrap i o).thread? r = if r ∈ (s.runs o).flatMap (·.ts) then (s.thread? r).map (fun th => { th with pc := s.cur.pc.add i.trytes })
      else (s.completed s i o.et.scalar).thread? r := by
  have hpass := mem_passes hf.1 hf.2.1 o r
  rw [State.behindTrap, setPc_fold, thread?_foldl_passThread _ (passes_nodup hf.1 hf.2.1 o), thread?_completed s s _ _ hf]
  split
  · next hr => rw [if_neg fun hp => (hpass.mp hp).2 hr]
  · next hr => simp only [hpass, hr, not_false_eq_true, and_true]

/-- TRAP, wherever it may issue: those that run it trap at the next instruction, the others pass it. -/
theorem trap_trapped {o : Opnd} {s : State} (hi : Issues (.trap o) o { c := .i } s) :
    ∃ t, exec (.trap o) s = .next t ∧ Trapped s (s.completed s (.trap o) o.et.scalar) t ((s.runs o).flatMap (·.ts)) 16 o.c
      ((encode (.trap o)).getD []) (s.cur.pc.add (Instr.trap o).trytes) := by
  obtain ⟨hf, _, hback, hx⟩ := hi
  refine ⟨(s.behindTrap (.trap o) o).raiseTraps (((s.runs o).flatMap (·.ts)).map (fun r => (r, Trap.of 16 o.c .zero))) s.cur.pc
    ((encode (.trap o)).getD []), ?_, ?_⟩
  · show execTrap o s = _
    rw [execTrap, perform_next _ _ _ _ _ (.inl hf.1) (fun x hm => (hx x hm).1) hback (fun x hm => (hx x hm).2), eachExec, stops_trap]
    exact congrArg Host.Outcome.next (conclude_trap16 hf.1 (.trap o) o rfl)
  · refine trapped_of s _ _ 16 o.c s.cur.pc _ _ rfl (bare_grid _ _ fun m => ?_) ?_ (fun r hr th hth => ?_) _ (fun r hr => ?_)
    · rw [State.behindTrap, bare_setPc_fold, bare_foldl_passThread]
    · rw [State.behindTrap, rest_setPc_fold, rest_foldl_passThread]
    · rw [thread?_behindTrap hf, if_pos hr, hth]
      exact ⟨_, rfl, rfl, rfl, rfl⟩
    · rw [thread?_behindTrap hf, if_neg hr]

/-- Settles O31: the machine's own step for an illegal encoding, and TRAP's guard, which parts its threads. -/
theorem trapsTaken : Obligations.TrapsTaken :=
  ⟨fun _ _ _ hs hpc => illegalInstruction_trapped hs hpc, fun _ _ hi => trap_trapped hi⟩

end Sys2Proof.Machine
end

section
/-! PROOFS. Results that arrive: windows that land, queued results, and acknowledgements. -/

namespace Sys2Proof.Machine

/-! ### The one element of a list that a test holds of -/

theorem eq_of_filter_singleton {α : Type} {l : List α} {q : α → Bool} {v a : α} (h : l.filter q = [v]) (hm : a ∈ l) (ha : q a = true) :
    a = v :=
  List.mem_singleton.mp (h ▸ List.mem_filter.mpr ⟨hm, ha⟩)

theorem cons_eraseIdx_perm {α : Type} {l : List α} {a : α} {i : Nat} (hi : l[i]? = some a) : (a :: l.eraseIdx i).Perm l := by
  induction l generalizing i with
  | nil => cases hi
  | cons b l ih =>
    cases i with
    | zero =>
      obtain rfl : b = a := by simpa only [List.getElem?_cons_zero, Option.some.injEq] using hi
      exact List.Perm.refl _
    | succ i => exact (List.Perm.swap b a _).trans ((ih (by simpa only [List.getElem?_cons_succ] using hi)).cons b)

theorem filter_eraseIdx {α : Type} {l : List α} {q : α → Bool} {v a : α} {i : Nat} (h : l.filter q = [v]) (hi : l[i]? = some a) :
    (l.eraseIdx i).filter q = if q a then [] else [v] := by
  have hp := (cons_eraseIdx_perm hi).filter q
  rw [h, List.filter_cons] at hp
  split at hp
  · next hq => rw [if_pos hq, ← List.length_eq_zero_iff]; simpa using hp.length_eq
  · next hq => rw [if_neg hq, List.perm_singleton.mp hp]

theorem eraseIdx_modNth {α : Type} (f : α → α) (l : List α) (i : Nat) : (modNth f l i).eraseIdx i = l.eraseIdx i := by
  induction l generalizing i with
  | nil => rfl
  | cons a l ih => cases i <;> simp [modNth, ih]

theorem filter_modNth {α : Type} {l : List α} {q : α → Bool} {v : α} {f : α → α} {i : Nat} (h : l.filter q = [v]) (hi : l[i]? = some v)
    (hv : q v = true) (hf : q (f v) = true) : (modNth f l i).filter q = [f v] := by
  have hi' : (modNth f l i)[i]? = some (f v) := by simp [hi]
  have hp := (cons_eraseIdx_perm hi').filter q
  rw [eraseIdx_modNth, List.filter_cons, if_pos hf, filter_eraseIdx h hi, if_pos hv] at hp
  exact (List.singleton_perm.mp hp).symm

/-! ### A window that lands (R165) -/

/-- The only window of a register, once it has ended, stands first among those of the register. -/
theorem winFirst_of_only {l : List Win} {w : Win} {i : Nat} (h : l.filter (fun v => v.reg == w.reg) = [w]) (hi : l[i]? = some w)
    (hw : w.left = 0) : winFirst l w i = true := by
  simp only [winFirst, hw, beq_self_eq_true, Bool.true_and, List.all_eq_true, Prod.forall, List.mem_zipIdx_iff_getElem?]
  intro u j hu
  by_cases hr : u.reg = w.reg
  · have hnone : (l.eraseIdx i).filter (fun v => v.reg == w.reg) = [] := by rw [filter_eraseIdx h hi]; simp
    have hj : j = i := Decidable.byContradiction fun hne =>
      List.filter_eq_nil_iff.mp hnone u (List.mem_eraseIdx_iff_getElem?.mpr ⟨j, hne, hu⟩) (by simp [hr])
    obtain rfl : u = w := eq_of_filter_singleton h (List.mem_of_getElem? hu) (by simp [hr])
    simp [hj, Win.before]
  · simp [hr]

theorem mem_settleWins {fuel : Nat} {regs : List Word} {l : List Win} {v : Win} (h : v ∈ (settleWins fuel regs l).2) : v ∈ l := by
  induction fuel generalizing regs l with
  | zero => exact h
  | succ fuel ih =>
    unfold settleWins at h
    split at h
    · exact h
    · exact List.mem_of_mem_eraseIdx (ih h)

/-- Settling lands the only window of a register once it has ended and its data has arrived, and leaves no window of the register. -/
theorem settleWins_lands {fuel : Nat} {regs : List Word} {l : List Win} {w : Win} (hfuel : l.length ≤ fuel)
    (h : l.filter (fun v => v.reg == w.reg) = [w]) (hw : w.left = 0) (ha : w.arrived = true) :
    (w.reg < regs.length → wordAt (settleWins fuel regs l).1 w.reg = w.val) ∧ ∀ v ∈ (settleWins fuel regs l).2, v.reg ≠ w.reg := by
  have hmem : w ∈ l := (List.mem_filter.mp (h ▸ List.mem_singleton_self w)).1
  induction fuel generalizing regs l with
  | zero => simp [List.length_eq_zero_iff.mp (Nat.le_zero.mp hfuel)] at hmem
  | succ fuel ih =>
    unfold settleWins
    split
    · next hnone =>
      obtain ⟨i, hi⟩ := List.mem_iff_getElem?.mp hmem
      have hno := List.find?_eq_none.mp hnone (w, i) (List.mem_zipIdx_iff_getElem?.mpr hi)
      simp [ha, winFirst_of_only h hi hw] at hno
    · next p hp =>
      have hpi : l[p.2]? = some p.1 := List.mem_zipIdx_iff_getElem?.mp (List.mem_of_find?_eq_some hp)
      have herase := filter_eraseIdx h hpi
      by_cases hr : p.1.reg = w.reg
      · have hpw : p.1 = w := eq_of_filter_singleton h (List.mem_of_getElem? hpi) (by simp [hr])
        have hnone : ∀ v ∈ l.eraseIdx p.2, v.reg ≠ w.reg := by simpa [hr] using herase
        refine ⟨fun hlt => ?_, fun v hv => hnone v (mem_settleWins hv)⟩
        rw [settleWins_fst _ _ _ _ hnone, hpw, wordAt_setNth, if_pos ⟨rfl, hlt⟩]
      · have hrest : (l.eraseIdx p.2).filter (fun v => v.reg == w.reg) = [w] := by rw [herase, if_neg (by simpa using hr)]
        have hlen : (l.eraseIdx p.2).length ≤ fuel := by
          rw [List.length_eraseIdx_of_lt (List.getElem?_eq_some_iff.mp hpi).1]; omega
        simpa using ih (regs := setNth regs p.1.reg p.1.val) hlen hrest (List.mem_filter.mp (hrest ▸ List.mem_singleton_self w)).1

/-- Data that arrives for a thread's register (R165). -/
def Thread.arrive (th : Thread) (reg : Nat) (src : WinSrc) (v : Option Word) : Thread :=
  match th.wins.findIdx? (fun w => w.reg == reg && w.src == src && !w.arrived) with
  | none => th
  | some i => Thread.settle { th with wins := modNth (fun w => { w with arrived := true, val := v.getD w.val }) th.wins i }

theorem arrive_eq (s : State) (r : TRef) (reg : Nat) (src : WinSrc) (v : Option Word) :
    s.arrive r reg src v = s.modThread r (fun th => th.arrive reg src v) := rfl

/-- A thread with no window of the register takes no data for it. -/
theorem Thread.arrive_of_none {th : Thread} {reg : Nat} (h : ∀ w ∈ th.wins, w.reg ≠ reg) (src : WinSrc) (v : Option Word) :
    th.arrive reg src v = th := by
  have hnone : th.wins.findIdx? (fun w => w.reg == reg && w.src == src && !w.arrived) = none :=
    List.findIdx?_eq_none_iff.mpr fun w hw => by simp [h w hw]
  rw [Thread.arrive, hnone]

/-- Data for a register's only window, which has ended, lands, and no window of the register is left. -/
theorem Thread.arrive_lands {th : Thread} {reg : Nat} {src : WinSrc} {w : Win} (h : th.wins.filter (fun v => v.reg == reg) = [w])
    (hsrc : w.src = src) (ha : w.arrived = false) (hl : w.left = 0) (v : Option Word) :
    Lands th (th.arrive reg src v) reg (v.getD w.val) ∧ ∀ u ∈ (th.arrive reg src v).wins, u.reg ≠ reg := by
  obtain ⟨hmem, hreg⟩ : w ∈ th.wins ∧ (w.reg == reg) = true := List.mem_filter.mp (h ▸ List.mem_singleton_self w)
  obtain rfl : w.reg = reg := by simpa using hreg
  obtain ⟨i, hidx⟩ : ∃ i, th.wins.findIdx? (fun u => u.reg == w.reg && u.src == src && !u.arrived) = some i :=
    Option.isSome_iff_exists.mp (by rw [List.findIdx?_isSome, List.any_eq_true]; exact ⟨w, hmem, by simp [hsrc, ha]⟩)
  have hget : th.wins[i]? = some w := by
    obtain ⟨hlt, hq, _⟩ := List.findIdx?_eq_some_iff_getElem.mp hidx
    have hq' : (th.wins[i].reg == w.reg) = true := by simp only [Bool.and_eq_true] at hq; exact hq.1.1
    rw [List.getElem?_eq_getElem hlt, eq_of_filter_singleton h (List.getElem_mem hlt) hq']
  have hfilter := filter_modNth (f := fun u : Win => { u with arrived := true, val := v.getD u.val }) h hget hreg hreg
  have hregs := map_modNth Win.reg (f := fun u : Win => { u with arrived := true, val := v.getD u.val }) (fun _ => rfl) th.wins i
  obtain ⟨hval, hgone⟩ := settleWins_lands (w := { w with arrived := true, val := v.getD w.val }) (regs := th.regs) Nat.le.refl hfilter hl rfl
  rw [Thread.arrive, hidx]
  refine ⟨⟨hval, fun n hn => Thread.settle_reg _ n fun u hu e => ?_, rfl, rfl, rfl, rfl⟩, hgone⟩
  have hu' : u.reg ∈ th.wins.map Win.reg := hregs ▸ List.mem_map_of_mem hu
  obtain ⟨x, hx, hxr⟩ := List.mem_map.mp hu'
  exact hn x hx (hxr.trans e)

theorem thread?_arrive (s : State) (r u : TRef) (reg : Nat) (src : WinSrc) (v : Option Word) :
    (s.arrive r reg src v).thread? u = if u = r then (s.thread? u).map (fun th => th.arrive reg src v) else s.thread? u :=
  thread?_modThread s r u _

theorem onlySquads_arrive (s : State) (r : TRef) (reg : Nat) (src : WinSrc) (v : Option Word) : OnlySquads s (s.arrive r reg src v) :=
  ⟨rfl, fun m => team?_bare_modThread s r m _⟩

theorem loadDataReturn_lands {s : State} {r : TRef} {reg : Nat} {th : Thread} {w : Win} (hth : s.thread? r = some th)
    (h : th.wins.filter (fun v => v.reg == reg) = [w]) (hsrc : w.src = .load) (ha : w.arrived = false) (hl : w.left = 0) :
    ∃ t th', exec (.loadDataReturn r reg) s = .next t ∧ t.thread? r = some th' ∧ Lands th th' reg w.val
      ∧ (∀ u, u ≠ r → t.thread? u = s.thread? u) ∧ OnlySquads s t := by
  refine ⟨s.arrive r reg .load none, th.arrive reg .load none, rfl, ?_, (Thread.arrive_lands h hsrc ha hl none).1, fun u hu => ?_,
    onlySquads_arrive ..⟩
  · rw [thread?_arrive, if_pos rfl, hth]; rfl
  · rw [thread?_arrive, if_neg hu]

/-! ### The queue of the special-function unit (R260) -/

/-- Data that arrives again for a register with no window left changes nothing, so that each lane of an entry takes its result once. -/
theorem thread?_foldl_arrive {n q l reg : Nat} {src : WinSrc} (lanes : List Nat) {s : State} {th : Thread} (hth : s.thread? ⟨n, q, l⟩ = some th)
    (hagain : (th.arrive reg src none).arrive reg src none = th.arrive reg src none) :
    (lanes.foldl (fun s l => s.arrive ⟨n, q, l⟩ reg src none) s).thread? ⟨n, q, l⟩
      = some (if l ∈ lanes then th.arrive reg src none else th) := by
  induction lanes generalizing s th with
  | nil => simpa using hth
  | cons k lanes ih =>
    rw [List.foldl_cons]
    by_cases hk : l = k
    · have h1 : (s.arrive ⟨n, q, k⟩ reg src none).thread? ⟨n, q, l⟩ = some (th.arrive reg src none) := by
        rw [thread?_arrive, if_pos (by rw [hk]), hth]; rfl
      rw [ih h1 (by rw [hagain, hagain]), hagain, ite_self, if_pos (by simp [hk])]
    · have h1 : (s.arrive ⟨n, q, k⟩ reg src none).thread? ⟨n, q, l⟩ = some th := by
        rw [thread?_arrive, if_neg (by simpa using hk), hth]
      simp [ih h1 hagain, hk]

theorem sfuq_modThread (s : State) (r : TRef) (f : Thread → Thread) (n q : Nat) :
    ((s.modThread r f).squad? n q).map Squad.sfuq = (s.squad? n q).map Squad.sfuq := by
  rw [squad?_modThread]
  split
  · rw [Option.map_map]; rfl
  · rfl

/-- The oldest result of a squad's queue, taken out of it. -/
def State.dropSfu (s : State) (n q : Nat) : State := s.modSquad n q (fun q => { q with sfuq := q.sfuq.drop 1 })

theorem squad?_dropSfu {s : State} {n q : Nat} {x : Squad} (hx : s.squad? n q = some x) :
    (s.dropSfu n q).squad? n q = some { x with sfuq := x.sfuq.drop 1 } := by
  rw [State.dropSfu, squad?_modSquad, if_pos ⟨rfl, rfl⟩, hx]; rfl

theorem thread?_dropSfu (s : State) (n q : Nat) (r : TRef) : (s.dropSfu n q).thread? r = s.thread? r := by
  simp only [State.dropSfu, State.thread?, squad?_modSquad]
  split
  · cases s.squad? r.team r.squad <;> rfl
  · rfl

section
variable {s : State} {n q : Nat} {x : Squad} {e : SfuEntry} {rest : List SfuEntry}

theorem exec_sfuResultLands_k {b : Bool} {w : Word} (hx : s.squad? n q = some x) (hq : x.sfuq = e :: rest) (hk : e.k = some (b, w)) :
    exec (.sfuResultLands n q) s = .next ((s.dropSfu n q).setK n q b e.reg w) := by
  have hhead : (s.squad? n q).bind (fun q => q.sfuq.head?) = some e := by rw [hx, Option.bind_some, hq]; rfl
  show execSfuResultLands n q s = _
  simp only [execSfuResultLands, hhead, hk]
  rfl

theorem exec_sfuResultLands_v (hx : s.squad? n q = some x) (hq : x.sfuq = e :: rest) (hk : e.k = none) :
    exec (.sfuResultLands n q) s = .next (e.lanes.foldl (fun s l => s.arrive ⟨n, q, l⟩ e.reg .sfu none) (s.dropSfu n q)) := by
  have hhead : (s.squad? n q).bind (fun q => q.sfuq.head?) = some e := by rw [hx, Option.bind_some, hq]; rfl
  show execSfuResultLands n q s = _
  simp only [execSfuResultLands, hhead, hk]
  rfl

/-- A queued value of a k register leaves the queue and stands in the register. -/
theorem dropSfu_setK {b : Bool} {w : Word} (hx : s.squad? n q = some x) (hq : x.sfuq = e :: rest) :
    (∃ y, ((s.dropSfu n q).setK n q b e.reg w).squad? n q = some y ∧ y.sfuq = rest)
      ∧ (e.reg < (if b then x.tb else x.kb).length → ((s.dropSfu n q).setK n q b e.reg w).kreg n q b e.reg = w) := by
  constructor
  · rw [State.setK, squad?_modSquad, if_pos ⟨rfl, rfl⟩, squad?_dropSfu hx]
    refine ⟨_, rfl, ?_⟩
    split <;> simp [hq]
  · intro hlt
    have hhas : (s.dropSfu n q).hasK n q b e.reg = true := by
      rw [State.hasK, squad?_dropSfu hx]
      simpa using hlt
    rw [kreg_setK, if_pos ⟨rfl, rfl, rfl, rfl, hhas⟩]

/-- A queued result of v registers leaves the queue, whatever lanes it lands in. -/
theorem squad?_dropSfu_arrive (hx : s.squad? n q = some x) (hq : x.sfuq = e :: rest) :
    ∃ y, (e.lanes.foldl (fun s l => s.arrive ⟨n, q, l⟩ e.reg .sfu none) (s.dropSfu n q)).squad? n q = some y ∧ y.sfuq = rest := by
  have hkeep := foldl_keeps (fun s : State => (s.squad? n q).map Squad.sfuq) (fun (s : State) (l : Nat) => s.arrive ⟨n, q, l⟩ e.reg .sfu none)
    (fun s l => sfuq_modThread s ⟨n, q, l⟩ _ n q) e.lanes (s.dropSfu n q)
  rw [squad?_dropSfu hx, Option.map_some, Option.map_eq_some_iff] at hkeep
  simpa [hq] using hkeep

theorem sfuResultLands_lands (hx : s.squad? n q = some x) (hq : x.sfuq = e :: rest) :
    ∃ t y, exec (.sfuResultLands n q) s = .next t ∧ t.squad? n q = some y ∧ y.sfuq = rest
      ∧ (∀ b w, e.k = some (b, w) → e.reg < (if b then x.tb else x.kb).length → t.kreg n q b e.reg = w)
      ∧ (e.k = none → ∀ l ∈ e.lanes, ∀ th w, s.thread? ⟨n, q, l⟩ = some th → th.wins.filter (fun v => v.reg == e.reg) = [w] →
          w.src = .sfu → w.arrived = false → w.left = 0 → ∃ th', t.thread? ⟨n, q, l⟩ = some th' ∧ Lands th th' e.reg w.val) := by
  cases hk : e.k with
  | some p =>
    obtain ⟨b, w⟩ := p
    obtain ⟨⟨y, hy, hyq⟩, hreg⟩ := dropSfu_setK (b := b) (w := w) hx hq
    refine ⟨_, y, exec_sfuResultLands_k hx hq hk, hy, hyq, fun b' w' hbw => ?_, fun hnone => by cases hnone⟩
    obtain ⟨rfl, rfl⟩ : b = b' ∧ w = w' := by simpa using hbw
    exact hreg
  | none =>
    obtain ⟨y, hy, hyq⟩ := squad?_dropSfu_arrive hx hq
    refine ⟨_, y, exec_sfuResultLands_v hx hq hk, hy, hyq, fun b w hbw => (by cases hbw), fun _ l hl th w hth h hsrc ha h0 => ?_⟩
    obtain ⟨hlands, hgone⟩ := Thread.arrive_lands h hsrc ha h0 none
    refine ⟨_, thread?_foldl_arrive e.lanes ((thread?_dropSfu s n q _).trans hth) (Thread.arrive_of_none hgone _ _), ?_⟩
    rw [if_pos hl]
    exact hlands

end

/-! ### Lanes that wait together (R322) -/

/-- The core and the grid of a team. -/
def Team.place (t : Team) : Nat × Nat := (t.core, t.grid)

/-- A team has the core and the grid of a thread's team. -/
def State.beside (s : State) (r : TRef) (m : Nat) : Prop :=
  ∃ p, (s.team? r.team).map Team.place = some p ∧ (p, m) ∈ s.teams.map (fun t => (t.place, t.num))

theorem beside_modThread (s : State) (r k : TRef) (f : Thread → Thread) (m : Nat) : (s.modThread k f).beside r m ↔ s.beside r m := by
  have hteam : ((s.modThread k f).team? r.team).map Team.place = (s.team? r.team).map Team.place := by
    have h := congrArg (Option.map Team.place) (team?_bare_modThread s k r.team f)
    rw [Option.map_map, Option.map_map] at h
    exact h
  have hteams : (s.modThread k f).teams.map (fun t => (t.place, t.num)) = s.teams.map (fun t => (t.place, t.num)) := by
    refine (List.map_map ..).trans (List.map_congr_left fun t _ => ?_)
    simp only [Function.comp_apply]
    split <;> rfl
  rw [State.beside, State.beside, hteam, hteams]

theorem mem_laneMates (s : State) (r : TRef) (p : TRef × Thread) :
    p ∈ s.laneMates r ↔ s.beside r p.1.team ∧ s.thread? p.1 = some p.2 ∧ p.2.run = .ackLanes ∧ ∃ th, s.thread? r = some th ∧ p.2.pc = th.pc := by
  unfold State.laneMates State.beside
  cases s.team? r.team with
  | none => simp
  | some x =>
    cases s.thread? r with
    | none => simp
    | some th =>
      simp only [List.mem_flatten, List.mem_map, List.mem_filter, Bool.and_eq_true, beq_iff_eq, Option.map_some, Option.some.injEq, Team.place,
        Prod.mk.injEq, exists_eq_left']
      constructor
      · rintro ⟨_, ⟨u, ⟨hu, hc, hg⟩, rfl⟩, hp⟩
        simp only [List.mem_filter, mem_threadsOf, Bool.and_eq_true, beq_iff_eq] at hp
        obtain ⟨⟨hnum, hp1⟩, hrun, hpc⟩ := hp
        exact ⟨⟨u, hu, ⟨hc, hg⟩, hnum.symm⟩, hp1, hrun, hpc⟩
      · rintro ⟨⟨u, hu, ⟨hc, hg⟩, hnum⟩, hp1, hrun, hpc⟩
        refine ⟨_, ⟨u, ⟨hu, hc, hg⟩, rfl⟩, ?_⟩
        simp only [List.mem_filter, mem_threadsOf, Bool.and_eq_true, beq_iff_eq]
        exact ⟨⟨hnum.symm, hp1⟩, hrun, hpc⟩

/-- A thread is one of those that wait with `r`. -/
def State.isMate (s : State) (r u : TRef) : Prop := u ∈ (s.laneMates r).map (·.1)

theorem isMate_iff (s : State) (r u : TRef) :
    s.isMate r u ↔ s.beside r u.team ∧ (s.thread? u).map Thread.run = some .ackLanes
      ∧ ∃ pc, (s.thread? r).map Thread.pc = some pc ∧ (s.thread? u).map Thread.pc = some pc := by
  simp only [State.isMate, List.mem_map, mem_laneMates, Option.map_eq_some_iff]
  constructor
  · rintro ⟨⟨_, th⟩, ⟨hb, hu, hrun, tr, hr, hpc⟩, rfl⟩
    exact ⟨hb, ⟨th, hu, hrun⟩, _, ⟨tr, hr, rfl⟩, th, hu, hpc⟩
  · rintro ⟨hb, ⟨th, hu, hrun⟩, _, ⟨tr, hr, rfl⟩, th', hu', hpc⟩
    obtain rfl : th = th' := Option.some.inj (hu.symm.trans hu')
    exact ⟨(u, th), ⟨hb, hu, hrun, tr, hr, hpc⟩, rfl⟩

/-- A change of a thread that keeps its PC and what it does leaves the threads that wait together. -/
theorem isMate_modThread {f : Thread → Thread} (hrun : ∀ t, (f t).run = t.run) (hpc : ∀ t, (f t).pc = t.pc) (s : State) (r k u : TRef) :
    (s.modThread k f).isMate r u ↔ s.isMate r u := by
  have hkeep : ∀ {α : Type} (g : Thread → α), (∀ t, g (f t) = g t) → ∀ v, ((s.modThread k f).thread? v).map g = (s.thread? v).map g := by
    intro α g hg v
    rw [thread?_modThread]
    split
    · cases s.thread? v <;> simp [hg]
    · rfl
  rw [isMate_iff, isMate_iff, beside_modThread, hkeep _ hrun, hkeep _ hpc, hkeep _ hpc]

theorem thread?_foldl_ready (l : List (TRef × Thread)) (s : State) (u : TRef) :
    (l.foldl (fun s p => s.setRun p.1 .ready) s).thread? u = if u ∈ l.map (·.1) then (s.thread? u).map Thread.ready else s.thread? u := by
  induction l generalizing s with
  | nil => simp
  | cons p l ih =>
    rw [List.foldl_cons, ih, thread?_setRun_ready]
    by_cases hu : u = p.1
    · by_cases hl : u ∈ l.map (·.1) <;> simp [hu, Function.comp_def]
    · simp only [hu, if_false, List.map_cons, List.mem_cons, false_or]

/-- Every thread that waits with `r` has all its writes acknowledged. -/
def State.matesAcked (s : State) (r : TRef) : Prop := ∀ p ∈ s.laneMates r, p.2.unackSyn = 0 ∧ p.2.unackPub = 0

theorem thread?_wakeLanes (s : State) (r u : TRef) [Decidable (s.matesAcked r ∧ s.isMate r u)] :
    (s.wakeLanes r).thread? u = if s.matesAcked r ∧ s.isMate r u then (s.thread? u).map Thread.ready else s.thread? u := by
  have hall : (s.laneMates r).all (fun p => p.2.unackSyn == 0 && p.2.unackPub == 0) = true ↔ s.matesAcked r := by
    simp only [State.matesAcked, List.all_eq_true, Bool.and_eq_true, beq_iff_eq]
  unfold State.wakeLanes
  dsimp only
  by_cases hm : s.matesAcked r
  · rw [if_pos (hall.mpr hm), thread?_foldl_ready]
    simp only [hm, true_and, State.isMate]
  · rw [if_neg (fun h => hm (hall.mp h)), if_neg (fun h => hm h.1)]

/-! ### Acknowledgements (R319, R322) -/

/-- One acknowledgement less to wait for. -/
def Thread.acked (th : Thread) : Thread := { th with unackSyn := th.unackSyn - 1 }

/-- What an acknowledgement does once its serial is delivered. -/
def State.acked (s : State) (r : TRef) : State := (s.modThread r Thread.acked).wakeAcked r

theorem wakeAcked_eq {s : State} {r : TRef} {th : Thread} (h : s.thread? r = some th) :
    s.wakeAcked r = if th.unackSyn ≠ 0 ∨ th.unackPub ≠ 0 then s else if th.run = .ackAll then s.setRun r .ready else s.wakeLanes r := by
  rw [State.wakeAcked, h]

theorem thread?_wakeAcked_other {s : State} {r u : TRef} (hr : u ≠ r) (hm : ¬s.isMate r u) : (s.wakeAcked r).thread? u = s.thread? u := by
  cases h : s.thread? r with
  | none => rw [State.wakeAcked, h]
  | some th =>
    rw [wakeAcked_eq h]
    split
    · rfl
    · split
      · rw [thread?_setRun_ready, if_neg hr]
      · classical rw [thread?_wakeLanes, if_neg fun hc => hm hc.2]

theorem vreg_modThread_regs {f : Thread → Thread} (hf : ∀ t, (f t).regs = t.regs) (s : State) (r u : TRef) (n : Nat) :
    (s.modThread r f).vreg u n = s.vreg u n := by
  rw [vreg_modThread]
  split
  · unfold State.vreg
    cases s.thread? u <;> simp [hf]
  · rfl

theorem vreg_setRun (s : State) (r u : TRef) (x : Run) (n : Nat) : (s.setRun r x).vreg u n = s.vreg u n :=
  vreg_modThread_regs (f := fun t => { t with run := x }) (fun _ => rfl) s r u n

theorem vreg_wakeAcked (s : State) (r u : TRef) (n : Nat) : (s.wakeAcked r).vreg u n = s.vreg u n := by
  unfold State.wakeAcked State.wakeLanes
  dsimp only
  split
  · rfl
  · split
    · rfl
    · split
      · exact vreg_setRun ..
      · split
        · exact foldl_keeps (fun s : State => s.vreg u n) _ (fun s (p : TRef × Thread) => vreg_setRun s p.1 u .ready n) _ s
        · rfl

theorem vreg_acked (s : State) (r u : TRef) (n : Nat) : (s.acked r).vreg u n = s.vreg u n :=
  (vreg_wakeAcked ..).trans (vreg_modThread_regs (f := Thread.acked) (fun _ => rfl) s r u n)

theorem isMate_acked (s : State) (r u : TRef) : (s.modThread r Thread.acked).isMate r u ↔ s.isMate r u :=
  isMate_modThread (f := Thread.acked) (fun _ => rfl) (fun _ => rfl) s r r u

theorem thread?_acked_other {s : State} {r u : TRef} (hr : u ≠ r) (hm : ¬s.isMate r u) : (s.acked r).thread? u = s.thread? u := by
  rw [State.acked, thread?_wakeAcked_other hr (by rwa [isMate_acked]), thread?_modThread, if_neg hr]

/-- A thread that waits alone goes on with its last acknowledgement. -/
theorem thread?_acked_alone {s : State} {r : TRef} {th : Thread} (h : s.thread? r = some th) (hm : s.laneMates r = []) :
    (s.acked r).thread? r = some { th with
      unackSyn := th.unackSyn - 1, run := if th.unackSyn ≤ 1 ∧ th.unackPub = 0 ∧ th.run = .ackAll then .ready else th.run } := by
  have h1 : (s.modThread r Thread.acked).thread? r = some th.acked := by rw [thread?_modThread, if_pos rfl, h]; rfl
  have hno : ¬(s.modThread r Thread.acked).isMate r r := by rw [isMate_acked, State.isMate, hm]; exact List.not_mem_nil
  rw [State.acked, wakeAcked_eq h1]
  by_cases hw : th.unackSyn ≤ 1 ∧ th.unackPub = 0
  · have hzero : ¬(th.acked.unackSyn ≠ 0 ∨ th.acked.unackPub ≠ 0) := by simp only [Thread.acked]; omega
    rw [if_neg hzero]
    by_cases hrun : th.acked.run = .ackAll
    · rw [if_pos hrun, if_pos ⟨hw.1, hw.2, hrun⟩, thread?_setRun_ready, if_pos rfl, h1]; rfl
    · classical
      rw [if_neg hrun, if_neg fun hc => hrun hc.2.2, thread?_wakeLanes, if_neg fun hc => hno hc.2, h1]; rfl
  · have hpos : th.acked.unackSyn ≠ 0 ∨ th.acked.unackPub ≠ 0 := by simp only [Thread.acked]; omega
    rw [if_pos hpos, if_neg fun hc => hw ⟨hc.1, hc.2.1⟩, h1]; rfl

/-- The last acknowledgement of lanes that wait together lets them all go on (R322). -/
theorem thread?_acked_together {s : State} {r : TRef} {th : Thread} (h : s.thread? r = some th) (hrun : th.run = .ackLanes)
    (hsyn : th.unackSyn = 1) (hpub : th.unackPub = 0) (hmates : ∀ p ∈ s.laneMates r, p.1 ≠ r → p.2.unackSyn = 0 ∧ p.2.unackPub = 0)
    {p : TRef × Thread} (hp : p ∈ s.laneMates r) : ((s.acked r).thread? p.1).map (·.run) = some .ready := by
  have h1 : (s.modThread r Thread.acked).thread? r = some th.acked := by rw [thread?_modThread, if_pos rfl, h]; rfl
  have hall : (s.modThread r Thread.acked).matesAcked r := by
    intro q hq
    have hthread : (s.modThread r Thread.acked).thread? q.1 = some q.2 := ((mem_laneMates _ _ _).mp hq).2.1
    by_cases hqr : q.1 = r
    · have hq2 : th.acked = q.2 := Option.some.inj (h1.symm.trans (hqr ▸ hthread))
      simp [← hq2, Thread.acked, hsyn, hpub]
    · rw [thread?_modThread, if_neg hqr] at hthread
      obtain ⟨q', hq', hqq⟩ := List.mem_map.mp ((isMate_acked s r q.1).mp (List.mem_map_of_mem hq))
      have hq2 : s.thread? q'.1 = some q'.2 := ((mem_laneMates _ _ _).mp hq').2.1
      obtain rfl : q' = q := Prod.ext hqq (Option.some.inj (hq2.symm.trans ((congrArg s.thread? hqq).trans hthread)))
      exact hmates q' hq' hqr
  have hmate : (s.modThread r Thread.acked).isMate r p.1 := (isMate_acked s r p.1).mpr (List.mem_map_of_mem hp)
  have hsome : ((s.modThread r Thread.acked).thread? p.1).isSome := by
    rw [thread?_modThread, ((mem_laneMates _ _ _).mp hp).2.1]
    split <;> rfl
  classical
  rw [State.acked, wakeAcked_eq h1, if_neg (by simp [Thread.acked, hsyn, hpub]), if_neg (by simp [Thread.acked, hrun]), thread?_wakeLanes,
    if_pos ⟨hall, hmate⟩]
  obtain ⟨u, hu⟩ := Option.isSome_iff_exists.mp hsome
  rw [hu]
  rfl

/-- An acknowledgement that no write is refused by: its serial is delivered, and the end of a team's last command may follow. -/
theorem exec_stsAcknowledgement (s : State) (r : TRef) (reg : Option Nat) (serial : Word) :
    ∃ t, exec (.stsAcknowledgement r reg { serial := serial }) s = .next t
      ∧ ∀ u, t.thread? u = ((reg.elim s (fun k => s.putSerial r k serial)).acked r).thread? u := by
  refine ⟨_, rfl, fun u => ?_⟩
  dsimp only
  split
  · rw [State.laterOnce_thread?]; cases reg <;> rfl
  · cases reg <;> rfl

theorem vreg_congr {s t : State} {r : TRef} (h : t.thread? r = s.thread? r) (n : Nat) : t.vreg r n = s.vreg r n := by
  unfold State.vreg; rw [h]

/-- A serial that a thread's only window of a register awaits stands in the register. -/
theorem vreg_putSerial {s : State} {r : TRef} {reg : Nat} {serial : Word} {th : Thread} {w : Win} (hth : s.thread? r = some th)
    (hreg : reg < 243) (h : th.wins.filter (fun v => v.reg == reg) = [w]) (hsrc : w.src = .serial) (ha : w.arrived = false) (hl : w.left = 0)
    (hlt : reg < th.regs.length) : (s.putSerial r reg serial).vreg r reg = serial := by
  obtain ⟨⟨hval, _⟩, _⟩ := Thread.arrive_lands h hsrc ha hl (some serial)
  rw [State.putSerial, if_pos hreg, State.vreg, thread?_arrive, if_pos rfl, hth]
  exact hval hlt

/-- Settles O33: the queue's oldest result, load data, and acknowledgements alone, together and with a serial. -/
theorem resultArrivals : Obligations.ResultArrivals := by
  refine ⟨fun s n q x e rest hx hq => sfuResultLands_lands hx hq,
    fun s r reg th w hth h hsrc ha hl => loadDataReturn_lands hth h hsrc ha hl, ?ack, ?serial⟩
  case ack =>
    intro s r serial th hth
    obtain ⟨t, hexec, ht⟩ := exec_stsAcknowledgement s r none serial
    refine ⟨t, hexec, fun u hm hr => (ht u).trans (thread?_acked_other hr hm), fun hm => (ht r).trans (thread?_acked_alone hth hm),
      fun hrun hsyn hpub hmates p hp => ?_⟩
    rw [ht]
    exact thread?_acked_together hth hrun hsyn hpub hmates hp
  case serial =>
    intro s r reg serial th w hth hreg h hsrc ha hl hlt
    obtain ⟨t, hexec, ht⟩ := exec_stsAcknowledgement s r (some reg) serial
    refine ⟨t, hexec, ?_⟩
    rw [vreg_congr (ht r), vreg_acked]
    exact vreg_putSerial hth hreg h hsrc ha hl hlt

end Sys2Proof.Machine
end

section
/-! PROOFS. Instructions that write a predicate only: comparisons, the state of a ticket, VOTE any and all (R203, R222, R233, R255). -/

namespace Sys2Proof.Machine

/-- VOTE any writes the greatest predicate of the group (R233). -/
theorem execVote_any {o : Opnd} (h : o.f = 1) (s : State) : exec (.vote o) s = perform (.vote o) o (voteForm o)
    (tritBody o (fun s x => .ofInt (((s.contrib x.t o.gr (fun t => (s.pred t (predNum o.a)).val)).map (·.2)).foldl max (-1)))) s := by
  change execVote o s = _
  have h0 : ¬ o.f = 0 := by omega
  simp only [execVote, if_neg h0, if_pos h]

/-- VOTE all writes the least predicate of the group (R233). -/
theorem execVote_all {o : Opnd} (h : o.f = -1) (s : State) : exec (.vote o) s = perform (.vote o) o (voteForm o)
    (tritBody o (fun s x => .ofInt (((s.contrib x.t o.gr (fun t => (s.pred t (predNum o.a)).val)).map (·.2)).foldl min 1))) s := by
  change execVote o s = _
  have h0 : ¬ o.f = 0 := by omega
  have h1 : ¬ o.f = 1 := by omega
  simp only [execVote, if_neg h0, if_neg h1]

theorem voteForm_predicate {o : Opnd} (h : o.f ≠ 0) : (voteForm o).d = .p := by simp [voteForm, h]

/-- Settles O6: each of the five writes the one trit that its rule gives. -/
theorem predicates : Obligations.Predicates := fun o =>
  ⟨trit_writes _ o _ _ (fun _ => rfl) rfl, trit_writes _ o _ _ (fun _ => rfl) rfl, trit_writes _ o _ _ (fun _ => rfl) rfl,
    fun h => trit_writes _ o _ _ (execVote_any h) (voteForm_predicate (by omega)),
    fun h => trit_writes _ o _ _ (execVote_all h) (voteForm_predicate (by omega))⟩

end Sys2Proof.Machine
end

section
/-! PROOFS. Loads and stores: LD, LDX, ST, STX and CLINE.zero (R183–R193). -/

namespace Sys2Proof.Machine

/-- Settles O12: each lane finds all its elements, reads them and delivers them, whatever space and form give their places. -/
theorem loads : Obligations.Loads := fun o =>
  ⟨(loadLane_follows o _ _).does (fun _ => rfl), (loadLane_follows o _ _).does (fun _ => rfl)⟩

/-- A body run in the order of the lanes completes by the rule that it follows, if the rule lets no lane stay: none then waits for
another (R190). -/
theorem Follows.does_inOrder {i : Instr} {o : Opnd} {fm : Form} {f : Eff → Exec → Eff} {g : State → Exec → Option (State × After)}
    (h : Follows f g) (hstay : ∀ s x w a, g s x = some (w, a) → a ≠ .stay) (he : ∀ s, exec i s = perform i o fm (inOrder f) s) :
    Does i o fm (eachDo g) :=
  order_does i o fm f g he (fun e x _ _ ht hg => ⟨h e x _ _ ht hg, hstay e.s x _ _ hg⟩)

theorem storeRule_not_stay {o : Opnd} {tryte : Bool} {place : Exec → State → Nat → State × Except Stop Place} {s w : State} {x : Exec}
    {a : After} (h : storeRule o tryte place s x = some (w, a)) : a ≠ .stay := by
  unfold storeRule at h
  split at h
  · split at h
    · cases h; exact nofun
    · cases h
  · cases h

/-- A store completes by the rule of one lane, the lanes in ascending order (R190). -/
theorem store_does (i : Instr) (o : Opnd) (fm : Form) (tryte : Bool) (place : Exec → State → Nat → State × Except Stop Place)
    (he : ∀ s, exec i s = perform i o fm (inOrder (storeLane o tryte place)) s) : Does i o fm (eachDo (storeRule o tryte place)) :=
  (storeLane_follows o tryte place).does_inOrder (fun _ _ _ _ => storeRule_not_stay) he

/-- CLINE.zero: a line that is found, within the quota, takes the zero word 27 times (R193). -/
theorem clineZero_does (o : Opnd) : Does (.clineZero o) o (lineForm o) (eachDo (zeroRule o)) := by
  refine order_does _ _ _ _ _ (fun _ => rfl) (fun e x s' a _ h => ?_)
  simp only [zeroRule] at h
  split at h
  · next s l hfind =>
    split at h
    · next hq =>
      obtain ⟨rfl, rfl⟩ := Prod.mk.inj (Option.some.inj h)
      simp [hfind, hq]
    · cases h
  · cases h

/-- Settles O13: ST and STX differ in the places of their elements only, and CLINE.zero stores a whole line. -/
theorem stores : Obligations.Stores := fun o =>
  ⟨store_does _ o _ _ _ (fun _ => rfl), store_does _ o _ _ _ (fun _ => rfl), clineZero_does o⟩

end Sys2Proof.Machine
end

section
/-! PROOFS. Tickets: WAIT, and the issue of copies, range commands and collectives (R194–R199, R202, R205–R208). -/

namespace Sys2Proof.Machine

/-- Settles O18: each execution follows WAIT's rule, one after another. -/
theorem waitForTickets : Obligations.WaitForTickets := fun o => (wait_follows o).does (fun _ => rfl)

/-- Settles O19: the five copies are issued lane after lane, each by the plan of its kind. -/
theorem copyIssue : Obligations.CopyIssue := fun o =>
  ⟨issue_does _ o _ _ _ (fun _ => rfl), issue_does _ o _ _ _ (fun _ => rfl), issue_does _ o _ _ _ (fun _ => rfl),
    issue_does _ o _ _ _ (fun _ => rfl), issue_does _ o _ _ _ (fun _ => rfl)⟩

/-- Settles O20: the seven range commands are issued by one plan, under the form of each. -/
theorem rangeTellerIssue : Obligations.RangeTellerIssue := fun o =>
  ⟨issue_does _ o _ _ _ (fun _ => rfl), issue_does _ o _ _ _ (fun _ => rfl), issue_does _ o _ _ _ (fun _ => rfl),
    issue_does _ o _ _ _ (fun _ => rfl), issue_does _ o _ _ _ (fun _ => rfl), issue_does _ o _ _ _ (fun _ => rfl),
    issue_does _ o _ _ _ (fun _ => rfl)⟩

/-- Settles O22: the six collectives are issued by one plan, and a command that is entered opens its exchange. -/
theorem collectiveIssue : Obligations.CollectiveIssue := fun o =>
  ⟨issue_does _ o _ _ _ (fun _ => rfl), issue_does _ o _ _ _ (fun _ => rfl), issue_does _ o _ _ _ (fun _ => rfl),
    issue_does _ o _ _ _ (fun _ => rfl), issue_does _ o _ _ _ (fun _ => rfl), issue_does _ o _ _ _ (fun _ => rfl)⟩

end Sys2Proof.Machine
end

section
/-! PROOFS. Integer division to the nearest (R36, R217). -/

namespace Sys2Proof

/-- Trit [0] is 0 exactly for the multiples of 3. -/
theorem trit_zero_eq_zero_iff (x : Int) : trit x 0 = 0 ↔ x % 3 = 0 := by
  have hsplit := trit_zero_add_dropTrits x
  have hrange := trit_range x 0
  omega

theorem sub_mul_ediv_succ (a b : Int) : a - b * (a / b + 1) = a % b - b := by
  rw [Int.emod_def, Int.mul_add, Int.mul_one]
  omega

/-- For a positive divisor the choice is between the floor of the quotient and the next integer, by twice the remainder. -/
theorem divNearest_of_pos (a : Int) {b : Int} (hb : 0 < b) : divNearest a b =
    if 2 * (a % b) < b then a / b else if 2 * (a % b) > b then a / b + 1
    else if a / b % 3 = 0 then a / b else if (a / b + 1) % 3 = 0 then a / b + 1
    else if (a / b).natAbs < (a / b + 1).natAbs then a / b else a / b + 1 := by
  have habs : (b.natAbs : Int) = b := Int.natAbs_of_nonneg (Int.le_of_lt hb)
  have hrem : a - a / b * b = a % b := by rw [Int.mul_comm, ← Int.emod_def]
  simp only [divNearest, if_neg (Int.not_lt.mpr (Int.le_of_lt hb)), habs, hrem]

/-- A negative divisor divides the negated dividend. -/
theorem divNearest_neg (a : Int) {b : Int} (hb : 0 < b) : divNearest a (-b) = divNearest (-a) b := by
  have hneg : -b < 0 := Int.neg_neg_of_pos hb
  simp only [divNearest, if_pos hneg, if_neg (Int.not_lt.mpr (Int.le_of_lt hb)), Int.natAbs_neg]

/-- An integer whose multiple of b misses a by at most half of b is the floor of the quotient or the next integer. -/
theorem eq_or_succ_of_near {a b r : Int} (hb : 0 < b) (h : 2 * (a - b * r).natAbs ≤ b.natAbs) : r = a / b ∨ r = a / b + 1 := by
  have hsplit := Int.mul_ediv_add_emod a b
  have h0 := Int.emod_nonneg a (Int.ne_of_gt hb)
  have h1 := Int.emod_lt_of_pos a hb
  have hdist : a - b * r = b * (a / b - r) + a % b := by rw [Int.mul_sub]; omega
  rw [hdist] at h
  have hlow : ¬ 1 ≤ a / b - r := fun hd => by
    have := Int.mul_le_mul_of_nonneg_left hd (Int.le_of_lt hb)
    omega
  have hhigh : ¬ a / b - r ≤ -2 := fun hd => by
    have := Int.mul_le_mul_of_nonneg_left hd (Int.le_of_lt hb)
    omega
  omega

/-- What the nearest integer to a / b is: it misses by at most half of b, and in a tie its trit [0] is 0, or no neighbour's is and it
has the smaller magnitude. -/
def IsNearest (a b q : Int) : Prop := 2 * (a - b * q).natAbs ≤ b.natAbs
  ∧ (2 * (a - b * q).natAbs = b.natAbs → trit q 0 = 0
    ∨ ∀ r : Int, 2 * (a - b * r).natAbs = b.natAbs → trit r 0 ≠ 0 ∧ q.natAbs ≤ r.natAbs)

theorem isNearest_neg {a b q : Int} (h : IsNearest (-a) b q) : IsNearest a (-b) q := by
  have hdist : ∀ r : Int, (a - -b * r).natAbs = (-a - b * r).natAbs := fun r => by
    rw [← Int.natAbs_neg, Int.neg_mul]
    congr 1
    omega
  simpa only [IsNearest, hdist, Int.natAbs_neg] using h

/-- In a tie both neighbours of the quotient are as near, and no other integer is: only they have to be compared. -/
theorem isNearest_of_neighbours {a b q : Int} (hb : 0 < b) (hmiss : 2 * (a - b * q).natAbs ≤ b.natAbs)
    (htie : 2 * (a % b) = b → q % 3 = 0
      ∨ (a / b % 3 ≠ 0 ∧ q.natAbs ≤ (a / b).natAbs) ∧ (a / b + 1) % 3 ≠ 0 ∧ q.natAbs ≤ (a / b + 1).natAbs) : IsNearest a b q := by
  refine ⟨hmiss, fun heq => ?_⟩
  simp only [ne_eq, trit_zero_eq_zero_iff]
  have h0 := Int.emod_nonneg a (Int.ne_of_gt hb)
  have h1 := Int.emod_lt_of_pos a hb
  have hhalf : 2 * (a % b) = b := by
    rcases eq_or_succ_of_near hb hmiss with rfl | rfl
    · rw [← Int.emod_def] at heq; omega
    · rw [sub_mul_ediv_succ] at heq; omega
  refine (htie hhalf).imp_right fun ⟨hfloor, hsucc⟩ r hr => ?_
  rcases eq_or_succ_of_near hb (Nat.le_of_eq hr) with rfl | rfl
  · exact hfloor
  · exact hsucc

/-- Of the two neighbours of the quotient by a positive divisor, the nearer is chosen, and in a tie the one that R36 names. -/
theorem divNearest_isNearest_of_pos (a : Int) {b : Int} (hb : 0 < b) : IsNearest a b (divNearest a b) := by
  have h0 := Int.emod_nonneg a (Int.ne_of_gt hb)
  have h1 := Int.emod_lt_of_pos a hb
  have floor (h : 2 * (a % b) ≤ b) := isNearest_of_neighbours (q := a / b) hb (by rw [← Int.emod_def]; omega)
  have succ (h : b ≤ 2 * (a % b)) := isNearest_of_neighbours (q := a / b + 1) hb (by rw [sub_mul_ediv_succ]; omega)
  rw [divNearest_of_pos a hb]
  split
  · next hless => exact floor (Int.le_of_lt hless) (fun htie => absurd htie (Int.ne_of_lt hless))
  · next hless =>
    split
    · next hmore => exact succ (Int.le_of_lt hmore) (fun htie => absurd htie (Int.ne_of_gt hmore))
    · next hmore =>
      have hfar : 2 * (a % b) ≤ b := Int.not_lt.mp hmore
      have hnear : b ≤ 2 * (a % b) := Int.not_lt.mp hless
      split
      · next hfloor => exact floor hfar (fun _ => .inl hfloor)
      · next hfloor =>
        split
        · next hsucc => exact succ hnear (fun _ => .inl hsucc)
        · next hsucc =>
          split
          · next hsmaller => exact floor hfar (fun _ => .inr ⟨⟨hfloor, Nat.le_refl _⟩, hsucc, Nat.le_of_lt hsmaller⟩)
          · next hsmaller => exact succ hnear (fun _ => .inr ⟨⟨hfloor, Nat.not_lt.mp hsmaller⟩, hsucc, Nat.le_refl _⟩)

theorem divNearest_isNearest (a : Int) {b : Int} (hb : b ≠ 0) : IsNearest a b (divNearest a b) := by
  rcases Int.lt_or_gt_of_ne hb with hneg | hpos
  · have hpos : 0 < -b := Int.neg_pos_of_neg hneg
    have h := isNearest_neg (divNearest_isNearest_of_pos (-a) hpos)
    rwa [← divNearest_neg a hpos, Int.neg_neg] at h
  · exact divNearest_isNearest_of_pos a hpos

end Sys2Proof
end

section
/-! PROOFS. The integer, tritwise and movement instructions (R211–R230, R247). -/

namespace Sys2Proof.Machine

/-- Settles O1: each arithmetic instruction writes the one word whose elements its row of R215 gives. -/
theorem integerArithmetic : Obligations.IntegerArithmetic := fun o =>
  ⟨elem2_mapsAB _ o _ _ (fun _ => rfl) rfl, elem2_mapsAB _ o _ _ (fun _ => rfl) rfl, elem1_mapsA _ o _ _ (fun _ => rfl) rfl,
    elem1_mapsA _ o _ _ (fun _ => rfl) rfl, elem1_mapsA _ o _ _ (fun _ => rfl) rfl, elem2_mapsAB _ o _ _ (fun _ => rfl) rfl,
    elem2_mapsAB _ o _ _ (fun _ => rfl) rfl, elem3_mapsABC _ o _ _ (fun _ => rfl) rfl⟩

/-- Settles O2: the element functions of the five instructions, and the rounding of DIV, which the remainder MOD shares. -/
theorem integerQuotientsAndBounds : Obligations.IntegerQuotientsAndBounds := fun o =>
  ⟨elem2_mapsAB _ o _ _ (fun _ => rfl) rfl, elem2_mapsAB _ o _ _ (fun _ => rfl) rfl, elem2_mapsAB _ o _ _ (fun _ => rfl) rfl,
    elem2_mapsAB _ o _ _ (fun _ => rfl) rfl, elem3_mapsABC _ o _ _ (fun _ => rfl) rfl,
    fun a _ _ hb hq => hq ▸ divNearest_isNearest a hb⟩

/-- Settles O3: shifts, rotations and tritwise instructions write the one word of their element function. -/
theorem shiftsAndTrits : Obligations.ShiftsAndTrits := fun o =>
  ⟨elem2_mapsAB _ o _ _ (fun _ => rfl) rfl, elem2_mapsAB _ o _ _ (fun _ => rfl) rfl, elem2_mapsAB _ o _ _ (fun _ => rfl) rfl,
    elem2_mapsAB _ o _ _ (fun _ => rfl) rfl, elem2_mapsAB _ o _ _ (fun _ => rfl) rfl, elem2_mapsAB _ o _ _ (fun _ => rfl) rfl,
    elem2_mapsAB _ o _ _ (fun _ => rfl) rfl, elem1_mapsA _ o _ _ (fun _ => rfl) rfl, elem1_mapsA _ o _ _ (fun _ => rfl) rfl,
    elem1_mapsA _ o _ _ (fun _ => rfl) rfl⟩

/-- Settles O5: each movement writes one word, MOV.K a k register and the others a register of their type. -/
theorem movement : Obligations.Movement := fun o =>
  ⟨word_writes _ o _ _ (fun _ => rfl) rfl, word_writes _ o _ _ (fun _ => rfl) rfl, word_writes _ o _ _ (fun _ => rfl) rfl,
    word_writes_k _ o _ _ (fun _ => rfl) rfl, word_writes _ o _ _ (fun _ => rfl) rfl, word_writes _ o _ _ (fun _ => rfl) rfl,
    word_writes _ o _ _ (fun _ => rfl) rfl⟩

/-- Settles O10: LGET sets k(D) to what the lane's register holds, and LPUT gives the lane's register k(D). -/
theorem laneAccess : Obligations.LaneAccess := fun o =>
  ⟨(reach_follows o (fun s x lane num => x.set s o.d 0 (lgetOf s x o.f lane num))).does (fun _ => rfl),
    (reach_follows o (fun s x lane num => lputTo s x o.f lane num (x.reg s o.d 0))).does (fun _ => rfl)⟩

end Sys2Proof.Machine
end

section
/-! PROOFS. The control of threads: NOP, GWAIT, YIELD, PART, EXIT and REORDER (R241–R246). -/

namespace Sys2Proof.Machine

/-- YIELD: the age of every thread of the executions becomes the current cycle (R246). -/
theorem bodyYield_passes (s : State) (xs : List Exec) : bodyYield s xs
    = Eff.of ((xs.flatMap (·.ts)).foldl (fun s t => s.modThread t (fun th => { th with age := s.cycle })) s) := by
  rw [List.flatMap_def]
  rfl

/-- PART changes the group register of its first execution's squad, if any execution runs (R242). -/
theorem partBody_passes (o : Opnd) (s : State) (xs : List Exec) : partBody o s xs = Eff.of (partRule o xs s) := by
  cases xs <;> rfl

/-- REORDER moves the ranges of the team of its first execution, if any execution runs (R245). -/
theorem bodyReorder_passes (o : Opnd) (s : State) (xs : List Exec) : bodyReorder o s xs = Eff.of (reorderRule o xs s) := by
  cases xs <;> rfl

/-- Settles O16: each body only changes the state, and lets every execution pass. -/
theorem threadControl : Obligations.ThreadControl := fun o =>
  ⟨pass_all _ o _ _ _ (fun _ => rfl) (fun _ _ => rfl), pass_all _ o _ _ _ (fun _ => rfl) (fun _ _ => rfl),
    pass_all _ o _ _ _ (fun _ => rfl) bodyYield_passes, pass_all _ o _ _ _ (fun _ => rfl) (partBody_passes o),
    pass_all _ o _ _ _ (fun _ => rfl) (fun _ _ => rfl), pass_all _ o _ _ _ (fun _ => rfl) (bodyReorder_passes o)⟩

end Sys2Proof.Machine
end

section
/-! PROOFS. The special-function unit: the nine functions queue their results behind an interlock (R258–R260). -/

namespace Sys2Proof.Machine

section
variable {o : Opnd} {fn : SfuFn} {s : State} {x : Exec} {xs : List Exec}

/-- Vector executions with a free entry open their windows and queue their entries, block step after block step (R260). -/
theorem sfuBody_vec (hfree : ¬ 81 ≤ s.sfuUsed (s.coreOf x.t.team)) (hx : x.mode = .vec) (het : ¬ o.et.scalar = true) :
    sfuBody o fn s (x :: xs) = Eff.of (sfuStart o fn (x :: xs) s) := by
  simp only [sfuBody, if_neg hfree, if_pos hx, sfuStart, if_neg het]

/-- Scalar executions outside a handler queue their results for the squad's own bank, one after another (R260). -/
theorem sfuBody_sca (hfree : ¬ 81 ≤ s.sfuUsed (s.coreOf x.t.team)) (hsca : ∀ y ∈ x :: xs, y.mode = .sca) (het : o.et.scalar = true) :
    sfuBody o fn s (x :: xs) = Eff.of (sfuStart o fn (x :: xs) s) := by
  have hvec : ¬ x.mode = .vec := by rw [hsca x (by simp)]; decide
  simp only [sfuBody, if_neg hfree, if_neg hvec, sfuStart, if_pos het]
  congr 1
  refine foldl_congr_mem _ _ _ _ (fun st y hy => ?_)
  rw [show (y.mode == .han) = false by rw [hsca y hy]; rfl]

/-- Where the core's queue has a free entry, the body starts the function in every execution and lets each pass (R260). -/
theorem sfuBody_starts (hfree : ¬ 81 ≤ s.sfuUsed (s.coreOf x.t.team))
    (hmode : ∀ y ∈ x :: xs, y.mode = if o.et.scalar then .sca else .vec) :
    sfuBody o fn s (x :: xs) = Eff.of (sfuStart o fn (x :: xs) s) := by
  by_cases het : o.et.scalar = true
  · exact sfuBody_sca hfree (fun y hy => by rw [hmode y hy, if_pos het]) het
  · exact sfuBody_vec hfree (by rw [hmode x (by simp), if_neg het]) het

end

/-- A special function completes by its rule: without a running execution nothing happens, and a full queue is outside the rule. -/
theorem sfu_does (i : Instr) (o : Opnd) (fn : SfuFn) (he : ∀ s, exec i s = perform i o sfuForm (sfuBody o fn) s) :
    Does i o sfuForm (sfuRule o fn) := by
  refine does_of_body_modes _ _ _ _ _ he (fun s w l hmode hrule => ?_)
  generalize s.runs o = xs at hmode hrule ⊢
  cases xs with
  | nil => cases hrule; rfl
  | cons x xs =>
    by_cases hfull : 81 ≤ s.sfuUsed (s.coreOf x.t.team)
    · simp only [sfuRule, if_pos hfull, reduceCtorEq] at hrule
    · simp only [sfuRule, if_neg hfull, passAll, Option.some.injEq, Prod.mk.injEq] at hrule
      obtain ⟨rfl, rfl⟩ := hrule
      rw [sfuBody_starts hfull hmode, from_pass]

/-- Settles O11: the nine functions share one body, which follows their rule. -/
theorem specialFunctions : Obligations.SpecialFunctions := fun o =>
  ⟨sfu_does _ o _ (fun _ => rfl), sfu_does _ o _ (fun _ => rfl), sfu_does _ o _ (fun _ => rfl),
    sfu_does _ o _ (fun _ => rfl), sfu_does _ o _ (fun _ => rfl), sfu_does _ o _ (fun _ => rfl),
    sfu_does _ o _ (fun _ => rfl), sfu_does _ o _ (fun _ => rfl), sfu_does _ o _ (fun _ => rfl)⟩

end Sys2Proof.Machine
end

section
/-! PROOFS. The matrix instructions (R280, R289–R297). -/

namespace Sys2Proof.Machine

/-- A matrix instruction whose checks pass does what its rule says: it enters one command, and every execution passes (R280). -/
theorem mxBody_of_mxRule {i : Instr} {o : Opnd} {xs : List Exec} {s w : State} {l : List (Exec × After)}
    (h : mxRule i o xs s = some (w, l)) : mxBody i o s xs = Eff.from w l := by
  simp only [mxRule] at h
  split at h
  · next hx => cases h; simp only [mxBody, hx]; rfl
  · next x hx =>
    split at h
    · cases h
    · next hrecs =>
      split at h
      · cases h
      · cases h
      · cases h
      · next c hplan =>
        split at h
        · cases h
        · next hroom =>
          cases h
          simp only [mxBody, hx, if_neg hrecs, hplan, if_neg hroom, from_pass]

theorem mx_does (i : Instr) (o : Opnd) (fm : Form) (he : ∀ s, exec i s = perform i o fm (mxBody i o) s) : Does i o fm (mxRule i o) :=
  does_of_body i o fm _ _ he (fun _ _ _ => mxBody_of_mxRule)

/-- MX.QRY of a tile that the team has queues its query (R297). -/
theorem bodyMxQry_of_queryRule {o : Opnd} {xs : List Exec} {s w : State} {l : List (Exec × After)}
    (h : queryRule o xs s = some (w, l)) : bodyMxQry o s xs = Eff.from w l := by
  simp only [queryRule] at h
  split at h
  · next hx => cases h; simp only [bodyMxQry, hx]; rfl
  · next x hx =>
    split at h
    · cases h
    · next htile =>
      cases h
      simp only [bodyMxQry, hx, if_neg htile, from_pass]

/-- Settles O23: the seven commands share one body, and MX.QRY has its own. -/
theorem matrixIssue : Obligations.MatrixIssue := fun o =>
  ⟨mx_does _ o _ (fun _ => rfl), mx_does _ o _ (fun _ => rfl), mx_does _ o _ (fun _ => rfl), mx_does _ o _ (fun _ => rfl),
    mx_does _ o _ (fun _ => rfl), mx_does _ o _ (fun _ => rfl), mx_does _ o _ (fun _ => rfl),
    does_of_body _ o _ _ _ (fun _ => rfl) (fun _ _ _ => bodyMxQry_of_queryRule)⟩

end Sys2Proof.Machine
end

section
/-! PROOFS. Synchronising accesses, atomic operations, leases, fences and barriers (R311–R337). -/

namespace Sys2Proof.Machine

/-! ### Rules under a mode (R329) -/

theorem Follows.does_under {i : Instr} {o : Opnd} {fm : Form} {bad : State → Exec → Bool} {f : Eff → Exec → Eff}
    {g : State → Exec → Option (State × After)} (h : Follows f g) (he : ∀ s, exec i s = perform i o fm (underMode bad (eachExec f)) s) :
    Does i o fm (underRule bad (eachDo g)) := each_under i o fm bad f g he h

/-! ### ATOM and RED (R321–R323, R337) -/

/-- What ATOM does to executions none of which is under DET. -/
def atomAct (o : Opnd) : Body := fun s xs =>
  let (e, l) := atomRelease (o.f == -1 || o.f == 2) o.x (s.atomLanes o xs)
  let held := fun (a : AtomLane) => (e.s.leaseOf a.x.t (a.va.num / 81)).isSome
  let mine := l.filter held
  let rest := l.filter (fun a => !held a)
  let e := mine.foldl (atomImage o true) e
  (atomWords rest).foldl (fun e w => atomHome o e (rest.filter (fun a => a.at_.pa == w))) e

/-- What RED does to executions that may be under DET. -/
def redAct (o : Opnd) : Body := fun s xs =>
  let (e, l) := atomRelease (o.f == -1) o.x (s.atomLanes o xs)
  let held := fun (a : AtomLane) => (e.s.leaseOf a.x.t (a.va.num / 81)).isSome
  let e := (l.filter held).foldl (atomImage o false) e
  let rest := l.filter (fun a => !held a)
  let det := rest.filter (fun a => e.s.det a.x.t.team)
  let flow := rest.filter (fun a => !e.s.det a.x.t.team)
  let s := det.foldl (fun s a => s.modBody a.x.t.team (fun b => { b with parts := addPart o b.parts a.x.t.num a.va a.at_.pa a.v })) e.s
  { e with s := (atomWords flow).foldl (fun s w => redHome o s (flow.filter (fun a => a.at_.pa == w))) s }

/-- One transaction after another, each of the lanes that name a word. -/
theorem foldl_atomHome {o : Opnd} {rest : List AtomLane} {words : List Nat} {s w : State}
    (h : eachOpt (fun s k => atomHomeRule o s (rest.filter (fun a => a.at_.pa == k))) words s = some w) :
    words.foldl (fun e k => atomHome o e (rest.filter (fun a => a.at_.pa == k))) (Eff.of s) = Eff.of w :=
  foldl_of_eachOpt (fun s k => atomHomeRule o s (rest.filter (fun a => a.at_.pa == k)))
    (fun e k => atomHome o e (rest.filter (fun a => a.at_.pa == k)))
    (fun s k s' hk => atomHome_of o s (rest.filter (fun a => a.at_.pa == k)) s' hk) words s w h

/-- ATOM of lanes that are ready: the images first, then one transaction after another. -/
theorem atomAct_of_atomRule {o : Opnd} {xs : List Exec} {s w : State} {l : List (Exec × After)} (h : atomRule o xs s = some (w, l)) :
    atomAct o s xs = Eff.from w l := by
  simp only [atomRule, Option.bind_eq_some_iff, Option.map_eq_some_iff, Prod.mk.injEq] at h
  obtain ⟨⟨s1, lanes⟩, hready, w', ⟨s2, himage, hhome⟩, rfl, rfl⟩ := h
  simp only [atomAct, atomRelease_ready _ _ _ _ _ _ hready, show (Eff.of s1).s = s1 from rfl,
    foldl_of_eachOpt _ _ (atomImage_of o true) _ _ _ himage]
  rw [foldl_atomHome hhome, from_pass]

/-- RED of lanes that are ready: the images first, then the partials of a DET team and the requests of the others. -/
theorem redAct_of_redRule {o : Opnd} {xs : List Exec} {s w : State} {l : List (Exec × After)} (h : redRule o xs s = some (w, l)) :
    redAct o s xs = Eff.from w l := by
  simp only [redRule, Option.bind_eq_some_iff, Option.map_eq_some_iff, Prod.mk.injEq] at h
  obtain ⟨⟨s1, lanes⟩, hready, s2, himage, rfl, rfl⟩ := h
  simp only [redAct, atomRelease_ready _ _ _ _ _ _ hready, show (Eff.of s1).s = s1 from rfl,
    foldl_of_eachOpt _ _ (atomImage_of o false) _ _ _ himage, from_pass]
  rfl

/-- Settles O25: the lanes that are ready act on their images, and the others on one word after another. -/
theorem atomicOperations : Obligations.AtomicOperations := fun o =>
  ⟨under_does _ o _ notDet (atomAct o) _ (fun _ => rfl) (fun _ _ _ _ => atomAct_of_atomRule),
    under_does _ o _ _ (redAct o) _ (fun _ => rfl) (fun _ _ _ _ => redAct_of_redRule)⟩

/-! ### Leases (R330–R334) -/

/-- LEASE of a line that the thread may take opens its record and asks for the line (R330). -/
theorem lease_follows (o : Opnd) : Follows
    (fun e x =>
      let va := x.reg e.s o.a 0
      let d := (x.reg e.s o.b 0).val
      let v := va.num / 81
      match e.s.findSync x.t.team .readWrite false va with
      | (s, .error k) => { e with s := s }.stop x k
      | (s, .ok l) =>
        let mine := match s.thread? x.t with | some th => th.leases | none => []
        if 3 ≤ mine.length then { e with s := s }.stop x (.trap (leaseTrap 1 v))
        else if mine.any (fun r => v ≤ r.vline) then { e with s := s }.stop x (.trap (leaseTrap 2 v))
        else if d < 1 ∨ 729 < d then { e with s := s }.stop x (.trap (leaseTrap 3 v))
        else leaseAsk { e with s := s } x v l d) (leaseRule o) := by
  intro e x s' a _ h
  simp only [leaseRule] at h
  split at h
  · next s l hfind =>
    split at h
    · cases h
    · next th hth =>
      split at h
      · cases h
      · next hno =>
        simp only [not_or] at hno
        obtain ⟨hcount, horder, hshort, hlong, hcore, hentry, hpub, hline⟩ := hno
        have hwait : ¬ (th.unackPub != 0) = true := by simpa using hpub
        cases h
        simp only [hfind, hth, if_neg hcount, if_neg horder, if_neg (not_or.mpr ⟨hshort, hlong⟩), leaseAsk, if_neg hcore, if_neg hentry,
          Option.any_some, if_neg hwait, if_neg hline, Eff.add_stay]
        generalize s.modThread x.t _ = u
        cases u.copy (u.coreOf x.t.team) l.slot <;> cases hhome : l.home == -1 <;> simp [bne, hhome]
  · cases h

/-- UNLEASE: without a record the predicate reads 0, and with one its release step comes before its end (R333). -/
theorem unlease_follows (o : Opnd) : Follows
    (fun e x =>
      let va := x.reg e.s o.a 0
      match e.s.leaseOf x.t (va.num / 81) with
      | none => { e with s := x.setPred e.s (predNum o.d) .z }
      | some _ => match e.s.findSync x.t.team .readWrite false va with
        | (s, .error k) => { e with s := s }.stop x k
        | (s, .ok _) => match (if o.f = -1 then s.releaseExec x o.x else (s, true)) with
          | (s, false) => { e with s := s, stay := e.stay ++ [x] }
          | (s, true) => match s.leaseOf x.t (va.num / 81) with
            | some r => { e with s := endLease o s x r }
            | none => { e with s := s }) (unleaseRule o) := by
  intro e x s' a _ h
  simp only [unleaseRule] at h
  split at h
  · next hlease => cases h; simp only [hlease, Eff.add_pass]
  · next r hlease =>
    split at h
    · next s l hfind =>
      simp only [hlease, hfind]
      generalize (if o.f = -1 then s.releaseExec x o.x else (s, true)) = p at h ⊢
      obtain ⟨s, ok⟩ := p
      cases ok with
      | false => cases h; simp only [Eff.add_stay]
      | true =>
        simp only [if_true, Option.map_eq_some_iff] at h
        obtain ⟨q, hq, h⟩ := h
        cases h
        simp only [hq, Eff.add_pass]
    · cases h

/-- Settles O26: LEASE and UNLEASE under FLOW follow the rule of one execution. -/
theorem leases : Obligations.Leases := fun o =>
  ⟨(lease_follows o).does_under (fun _ => rfl), (unlease_follows o).does_under (fun _ => rfl)⟩

/-! ### PUBLISH, FENCE and WACK (R312, R324, R325) -/

/-- PUBLISH of a thread with entries of its own under FLOW sends them and waits (R325). -/
theorem publish_follows (words : List Word) : Follows
    (fun e x =>
      let n := x.t.team
      if e.s.det n then e
      else if !e.s.hasEntries x.t then e
      else
        let s := (e.s.irrevocable n).modThread x.t (fun th => { th with run := .ackPub, instr := words })
        { e with s := s.startPublication n (.thread x.t.num) (.thread x.t), stay := e.stay ++ [x] }) (publishRule words) :=
  follows_total _ (fun e x => by
    cases hdet : e.s.det x.t.team with
    | true => simp [hdet]
    | false => cases hown : e.s.hasEntries x.t <;> simp [hdet])

/-- WACK waits while the thread has an unacknowledged write or publication (R324). -/
theorem wack_follows : Follows
    (fun e x =>
      if (e.s.thread? x.t).any (fun th => th.unackPub != 0 || th.unackSyn != 0) then
        { e with s := e.s.setRun x.t .ackAll, stay := e.stay ++ [x] }
      else e) wackRule :=
  follows_total _ (fun e x => by split <;> simp)

theorem stayOf_append (a b : List (Exec × After)) : stayOf (a ++ b) = stayOf a ++ stayOf b := List.filterMap_append

theorem gotoOf_append (a b : List (Exec × After)) : gotoOf (a ++ b) = gotoOf a ++ gotoOf b := List.filterMap_append

/-- FENCE leaves the executions whose release step waits, and lets the others pass (R324). -/
theorem bodyFence_of_fenceRule {o : Opnd} {xs : List Exec} {s w : State} {l : List (Exec × After)} (h : fenceRule o xs s = some (w, l)) :
    bodyFence o s xs = Eff.from w l := by
  cases h
  have hstay : stayOf (((s.releaseAll (o.f == -1 || o.f == 2) o.x xs).2.1.map (fun x => (x, After.pass)))
      ++ (s.releaseAll (o.f == -1 || o.f == 2) o.x xs).2.2.map (fun x => (x, After.stay))) = (s.releaseAll (o.f == -1 || o.f == 2) o.x xs).2.2 := by
    rw [stayOf_append, passes_stay, stays_stay, List.nil_append]
  rw [Eff.from, hstay, gotoOf_append, passes_goto, stays_goto]
  rfl

/-- Settles O27: PUBLISH and WACK follow the rule of one execution, FENCE that of the bundle. -/
theorem fencesAndPublication : Obligations.FencesAndPublication := fun o =>
  ⟨(publish_follows _).does (fun _ => rfl), does_of_body _ o _ _ _ (fun _ => rfl) (fun _ _ _ => bodyFence_of_fenceRule),
    wack_follows.does (fun _ => rfl)⟩

/-! ### Barriers (R326–R328) -/

/-- Threads that arrive all wait. -/
theorem arriveBody_of_arriveRule {r : Run} {words : List Word} {xs : List Exec} {s w : State} {l : List (Exec × After)}
    (h : arriveRule r words xs s = some (w, l)) : arriveBody r words s xs = Eff.from w l := by
  cases h
  rw [Eff.from, stays_stay, stays_goto]
  rfl

/-- Settles O28: the three barriers share one body, GPHASE under the mode of a cooperative grid. -/
theorem barriers : Obligations.Barriers := fun o =>
  ⟨does_of_body _ o _ _ _ (fun _ => rfl) (fun _ _ _ => arriveBody_of_arriveRule),
    does_of_body _ o _ _ _ (fun _ => rfl) (fun _ _ _ => arriveBody_of_arriveRule),
    under_does _ o _ _ _ _ (fun _ => rfl) (fun _ _ _ _ => arriveBody_of_arriveRule)⟩

end Sys2Proof.Machine
end

section
/-! PROOFS. STS.REL whose own publication ends its grid: what it posts then is not what its register held (R312, R319, R400). -/

namespace Sys2Proof.Machine

/-- STS.REL at scope partition: v5 goes to the address in v4. -/
def stsRel : Opnd :=
  { len := 2, gc := .always, gp := 4, f := -1, d := 0, a := -117, b := -116, x := 1, sat := false, gr := 0, la := 0, xc := 1, xr := 1, et := .t27,
    mb := .none, ma := .none, c := 0, w3 := .zero }

/-- Lane 0 of a fresh team is about to store 7 in page 10. Its escrow holds a stale word of page 11, whose frame is retired by the TLB's
entry, and class 5 ends the context. -/
def retiredPage : State :=
  let s := State.reset.place []
  let s := { s with issue := [], cur := { s.issue.headD Bundle.none with threads := [⟨0, 0, 0⟩] } }
  let s := s.modCore 0 (fun c => { c with tlb :=
    [{ asrec := 0, asn := 0, gen := 0, level := 1, page := 10, pte := .ofInt 6682, fmt := 0 },
     { asrec := 0, asn := 0, gen := 0, level := 1, page := 11, pte := .ofInt 6682, fmt := 2 }] })
  let s := s.modBody 0 (fun b => { b with escrow :=
    [{ vline := 297, slot := 0, elig := false, words := [{ i := 0, val := .zero, writer := 0, stale := true }] }] })
  ((s.setCwInt 7295 (-1)).setV ⟨0, 0, 0⟩ 4 (.ofNum 24054)).setV ⟨0, 0, 0⟩ 5 (.ofInt 7)

/-- The squad of lane 0 and its thread are there, and the thread is as a bundle wants it. -/
theorem retiredPage_fits : retiredPage.bundleFits := by
  have hlane : (retiredPage.squad? 0 0).any (fun q => q.threads[0]?.any (fun th => q.kb.length == 81 && th.run == .ready
      && (th.regs.length : Int) == retiredPage.regsOf 0 && th.preds.length == 8)) = true := by decide +kernel
  simp only [Option.any_eq_true, Bool.and_eq_true, beq_iff_eq] at hlane
  obtain ⟨q, hq, th, hth, ⟨⟨hk, hrun⟩, hregs⟩, hpreds⟩ := hlane
  exact ⟨rfl, List.nodup_singleton _, List.forall_mem_singleton.mpr ⟨q, th, hq, hth, hk, hrun, hregs, hpreds, by decide⟩⟩

theorem retiredPage_issues : Issues (.sts stsRel) stsRel (stsForm stsRel) retiredPage :=
  ⟨retiredPage_fits, by unfold Opnd.fits; decide +kernel, by decide +kernel, by decide +kernel⟩

/-- The words that the writes on their way to their homes carry. -/
def State.posted (s : State) : List HwOp := s.pendingHw.map (·.op)

/-- What `o` leaves on its way by its rule. -/
def ruledPosts (i : Instr) (o : Opnd) (g : List Exec → State → Option (State × List (Exec × After))) (s : State) : Option (List HwOp) :=
  (g (s.runs o) s).map (fun p => (s.after p.1 i o.et.scalar p.2).posted)

/-- What the machine leaves on its way. -/
def donePosts (i : Instr) (s : State) : Option (List HwOp) :=
  match exec i s with
  | .next t => some t.posted
  | _ => none

/-- A rule that an instruction follows leaves the same writes on their way as the machine. -/
theorem Does.posts {i : Instr} {o : Opnd} {fm : Form} {g : List Exec → State → Option (State × List (Exec × After))} {s : State}
    {p : List HwOp} (h : Does i o fm g) (hi : Issues i o fm s) (hg : ruledPosts i o g s = some p) : donePosts i s = some p := by
  obtain ⟨⟨w, l⟩, hrule, rfl⟩ := Option.map_eq_some_iff.mp hg
  rw [donePosts, h s w l hi hrule]

/-- Refutes O24: the release step of an STS.REL may publish an entry whose translation stops, and where the action of that error ends the
context, the step reports nothing to wait for. The machine then reads v(B) of a thread that is gone and posts the word 0, where the rule
posts the 7 that v(B) held before the release step. -/
theorem not_synchronisingAccess : ¬ Obligations.SynchronisingAccess := by
  intro h
  have hposts := (h stsRel).2.posts retiredPage_issues
    (show ruledPosts _ _ _ _ = some [.words [(26, .ofInt 7)]] by decide +kernel)
  exact absurd hposts (by decide +kernel)

end Sys2Proof.Machine
end

section
/-! PROOFS. Control words, TLBF and SLEEP, and the privilege trap (R369, R378–R380). -/

namespace Sys2Proof.Machine

/-! ### TLBF and SLEEP at the level that may use them -/

/-- TLBF outside a handler starts its shootdown and blocks the squad's threads (R379). -/
theorem tlbf_does (i : Instr) (o : Opnd) (fm : Form) (kind : Int) (page : State → Exec → Word)
    (he : ∀ s, exec i s = perform i o fm (tlbfBody kind page) s) : Does i o fm (eachDo (tlbfRule kind page)) := by
  refine does_of_body_modes i o fm _ _ he (fun s w l hmode h => ?_)
  have hvec : ∀ x ∈ s.runs o, (x.mode != .han) = true := fun x hx => by rw [hmode x hx]; cases o.et.scalar <;> rfl
  refine (eachExec_from_mem _ (tlbfRule kind page) (fun x => x.mode != .han) (fun e x s' a hx _ hg => ?_) _ hvec (Eff.of s) w l rfl h).trans ?_
  · simp only [tlbfRule] at hg
    split at hg
    · next hsys =>
      obtain ⟨p, hp, hg⟩ := Option.map_eq_some_iff.mp hg
      cases hg
      cases hm : x.mode with
      | han => simp [hm] at hx
      | vec => simp [hsys, hp]
      | sca => simp [hsys, hp]
    · cases hg
  · simp [Eff.of, Eff.from]

/-- SLEEP on a line that may be read puts its thread to sleep (R380). -/
theorem sleep_does (o : Opnd) : Does (.sleep o) o { a := .v, b := .v } (eachDo (sleepRule o)) := by
  refine each_does _ _ _ _ _ (fun _ => rfl) (fun e x s' a _ h => ?_)
  simp only [sleepRule] at h
  split at h
  · next hva =>
    obtain ⟨hlow, hhigh, haligned⟩ := hva
    have hlimit : ¬ ((x.reg e.s o.b 0).val < 1 ∨ 14348907 < (x.reg e.s o.b 0).val) := by omega
    split at h
    · next s l htr =>
      split at h
      · cases h
      · next hsound => cases h; simp only [if_neg hlimit, haligned, Bool.not_true, Bool.false_eq_true, if_false, htr, if_neg hsound, Eff.add_stay]
    · cases h
  · cases h

/-! ### The privilege trap (R369) -/

/-- Every execution that takes one trap where the state does not change: the trap is noted for each. -/
theorem foldl_stop {f : Eff → Exec → Eff} {t : Trap} {s : State} (xs : List Exec)
    (hf : ∀ e x, e.s = s → x ∈ xs → f e x = e.stop x (.trap t)) :
    xs.foldl f (Eff.of s) = { s := s, traps := xs.map (fun x => (x, t)), stay := [], goto := [] } := by
  have hcongr : ∀ (ys : List Exec) (e : Eff), e.s = s → (∀ x ∈ ys, x ∈ xs) → ys.foldl f e = ys.foldl (fun e x => e.stop x (.trap t)) e := by
    intro ys
    induction ys with
    | nil => intros; rfl
    | cons y ys ih =>
      intro e he hys
      rw [List.foldl_cons, List.foldl_cons, hf e y he (hys y (by simp)), ih (e.stop y (.trap t)) he (fun x hx => hys x (by simp [hx]))]
  rw [hcongr xs (Eff.of s) rfl (fun _ hx => hx), stops_trap]
  simp [Eff.of]

/-- The bundle before a trap other than TRAP's is raised: a thread that takes it stays where it stands, and every other passes the
instruction (R369). -/
def State.atTrap (s : State) (i : Instr) (o : Opnd) : State :=
  ((s.passes o).flatMap (·.ts)).foldl (fun u r => u.passThread r (s.cur.pc.add i.trytes) (s.winsOf r)) s

/-- Outside a handler, every execution that runs takes one trap at its own address. -/
theorem conclude_trap {s : State} (hh : s.cur.handler = none) (i : Instr) (o : Opnd) {t : Trap} (ht : t.cause ≠ 16) :
    s.conclude i (s.execs o.et.scalar) { s := s, traps := (s.runs o).map (fun x => (x, t)), stay := [], goto := [] }
      = (s.atTrap i o).raiseTraps (((s.runs o).flatMap (·.ts)).map (fun r => (r, t))) s.cur.pc ((encode i).getD []) := by
  have hdone : (s.execs o.et.scalar).filter (fun x => !(((s.runs o).map (fun x => (x, t))).any (fun p => p.1 == x)) && !([] : List Exec).contains x)
      = s.passes o := by
    refine List.filter_congr fun x hx => ?_
    have hany : ((s.runs o).map (fun x => (x, t))).any (fun p => p.1 == x) = x.guard s o := by
      rw [Bool.eq_iff_iff]
      simp [State.runs, hx]
    rw [hany]
    simp
  have htraps : (((s.runs o).map (fun x => (x, t))).map (fun p => p.1.ts.map (fun r => (r, p.2)))).flatten
      = ((s.runs o).flatMap (·.ts)).map (fun r => (r, t)) := by
    rw [List.map_flatMap, List.flatMap_def, List.map_map]
    rfl
  have hstand : ((s.runs o).map (fun x => (x, t))).foldl (fun s' p => if p.2.cause = 16 then p.1.ts.foldl (fun s' r => s'.setPc r
      (s.cur.pc.add i.trytes)) s' else s') (s.atTrap i o) = s.atTrap i o := by
    rw [List.foldl_map]
    simp only [if_neg ht, List.foldl_fixed]
  simp only [State.conclude, hh, hdone, htraps, List.foldl_nil, List.find?_nil]
  rw [State.atTrap, List.foldl_flatMap] at hstand ⊢
  exact congrArg (fun u => State.raiseTraps u _ _ _) hstand

theorem thread?_atTrap {s : State} (hf : s.bundleFits) (i : Instr) (o : Opnd) (r : TRef) :
    (s.atTrap i o).thread? r = if r ∈ (s.runs o).flatMap (·.ts) then s.thread? r else (s.completed s i o.et.scalar).thread? r := by
  have hpass := mem_passes hf.1 hf.2.1 o r
  rw [State.atTrap, thread?_foldl_passThread _ (passes_nodup hf.1 hf.2.1 o), thread?_completed s s _ _ hf]
  split
  · next hr => rw [if_pos (hpass.mp hr).1, if_neg (hpass.mp hr).2]
  · next hr => 
    by_cases hrun : r ∈ (s.runs o).flatMap (·.ts)
    · rw [if_pos hrun]
    · rw [if_neg hrun, if_neg fun hm => hr (hpass.mpr ⟨hm, hrun⟩)]

/-- An instruction that each execution of the bundle is denied traps those that carry it out, and the others pass it (R369). -/
theorem denied_traps {i : Instr} {o : Opnd} {fm : Form} {f : Eff → Exec → Eff} {detail : Int} {denied : State → Exec → Prop}
    (he : ∀ s, exec i s = perform i o fm (eachExec f) s)
    (hf : ∀ e x, x.mode ≠ .han → denied e.s x → f e x = e.stop x (.trap (privTrap detail))) : TrapsPrivilege i o fm detail denied := by
  intro s ⟨hfits, _, hback, hx⟩ hpc hdenied
  refine ⟨(s.atTrap i o).raiseTraps (((s.runs o).flatMap (·.ts)).map (fun r => (r, privTrap detail))) s.cur.pc ((encode i).getD []), ?_, ?_⟩
  · have hmode : ∀ x ∈ s.runs o, x.mode ≠ .han := fun x hm => by
      rw [execs_mode s hfits.1 _ x (List.mem_filter.mp hm).1]
      cases o.et.scalar <;> decide
    rw [he, perform_next _ _ _ _ _ (.inl hfits.1) (fun x hm => (hx x hm).1) hback (fun x hm => (hx x hm).2), eachExec]
    rw [show (s.execs o.et.scalar).filter (fun x => x.guard s o) = s.runs o from rfl,
      foldl_stop _ (fun e x hs hm => hf e x (hmode x hm) (hs ▸ hdenied x hm))]
    exact congrArg Host.Outcome.next (conclude_trap hfits.1 i o (t := privTrap detail) (show (17 : Nat) ≠ 16 by decide))
  · refine trapped_of s _ _ 17 detail s.cur.pc s.cur.pc _ rfl (bare_grid _ _ fun m => ?_) ?_ (fun r hr th hth => ?_) _ (fun r hr => ?_)
    · rw [State.atTrap, bare_foldl_passThread]
    · rw [State.atTrap, rest_foldl_passThread]
    · have hmem : r ∈ s.cur.threads := by
        rw [← mem_execs_ts s hfits.1 o.et.scalar]
        obtain ⟨x, hm, hr⟩ := List.mem_flatMap.mp hr
        exact List.mem_flatMap.mpr ⟨x, (List.mem_filter.mp hm).1, hr⟩
      rw [thread?_atTrap hfits, if_pos hr, hth]
      exact ⟨th, rfl, hpc r hmem th hth, rfl, rfl⟩
    · rw [thread?_atTrap hfits, if_neg hr]

/-- TLBF at user level is denied (R369). -/
theorem tlbf_denied (i : Instr) (o : Opnd) (fm : Form) (kind : Int) (page : State → Exec → Word)
    (he : ∀ s, exec i s = perform i o fm (tlbfBody kind page) s) : TrapsPrivilege i o fm 2 atUser :=
  denied_traps he (fun e x _ hd => by simp [show e.s.sysLevel x.t.team = false from hd])

/-- TPC outside a handler is denied (R369). -/
theorem tpc_denied (i : Instr) (o : Opnd) (fm : Form) (f : Eff → Exec → Nat → Word → Eff) (he : ∀ s, exec i s = perform i o fm (tpcBody o f) s) :
    TrapsPrivilege i o fm 1 (fun _ _ => True) :=
  denied_traps he (fun e x hm _ => by cases h : x.mode <;> simp_all)

/-- TRET outside a handler is denied (R369). -/
theorem tret_denied (o : Opnd) : TrapsPrivilege (.tret o) o { guard := false } 1 (fun _ _ => True) :=
  denied_traps (fun _ => rfl) (fun e x hm _ => by cases h : x.mode <;> simp_all)

/-- Settles O17: each instruction follows its rule at its own level, and the privilege trap of another level takes every execution. -/
theorem systemInstructions : Obligations.SystemInstructions := fun o =>
  ⟨(cwget_follows o).does (fun _ => rfl), (cwset_follows o).does (fun _ => rfl), tlbf_does _ o _ _ _ (fun _ => rfl),
    tlbf_does _ o _ _ _ (fun _ => rfl), tlbf_does _ o _ _ _ (fun _ => rfl), sleep_does o,
    fun hsys => ⟨denied_traps (fun _ => rfl) (fun _ _ _ hd => if_pos ((noAccess_iff _ _ _).mpr ⟨hsys, hd⟩)),
      denied_traps (fun _ => rfl) (fun _ _ _ hd => if_pos ((noAccess_iff _ _ _).mpr ⟨hsys, hd⟩))⟩,
    tlbf_denied _ o _ _ _ (fun _ => rfl), tlbf_denied _ o _ _ _ (fun _ => rfl), tlbf_denied _ o _ _ _ (fun _ => rfl), tret_denied o,
    tpc_denied _ o _ _ (fun _ => rfl), tpc_denied _ o _ _ (fun _ => rfl), tpc_denied _ o _ _ (fun _ => rfl)⟩

end Sys2Proof.Machine
end

section
/-! PROOFS. The severity matrix (R400, R401). -/

namespace Sys2Proof.Machine

/-- A class whose word gives one action to all three source groups has that action for every source (R400). -/
theorem action_of_fields {s : State} {cls : Nat} {a : Int} (hw : field (s.cwInt (7290 + cls)) 1 0 = a ∧ field (s.cwInt (7290 + cls)) 3 2 = a
    ∧ field (s.cwInt (7290 + cls)) 5 4 = a) (ha : a = 1 ∨ a = 2 ∨ a = -1) (src : Nat) : s.action cls src = a := by
  obtain ⟨hdie, hlink, hshell⟩ := hw
  have hgroup : (if src < 648 ∨ src = 652 ∨ (704 ≤ src ∧ src < 708) then field (s.cwInt (7290 + cls)) 1 0
      else if src < 652 ∨ src = 653 then field (s.cwInt (7290 + cls)) 3 2 else field (s.cwInt (7290 + cls)) 5 4) = a := by
    rw [hdie, hlink, hshell, ite_self, ite_self]
  simp only [State.action, hgroup]
  rcases ha with rfl | rfl | rfl <;> rfl

/-- Settles O57: the words of the matrix right after reset give each class one action for all three groups. -/
theorem severityDefaults : Obligations.SeverityDefaults := fun src =>
  ⟨fun c hc => action_of_fields (a := 1) (by revert c; decide +kernel) (by decide) src,
    fun c hc => action_of_fields (a := 2) (by revert c; decide +kernel) (by decide) src,
    fun c hc => action_of_fields (a := -1) (by revert c; decide +kernel) (by decide) src⟩

end Sys2Proof.Machine
end

section
/-! PROOFS. A complete barrier lets the threads that wait at it go on (R326–R328). -/

namespace Sys2Proof.Machine

/-! ### Threads that are released one after another -/

@[simp] theorem Word.add_zero (w : Word) : w.add 0 = w := by
  obtain ⟨n, hn⟩ := w
  simp only [Word.add, Word.val, Word.ofInt, Int.add_zero, Int.sub_add_cancel, Word.mk.injEq, Fin.ext_iff, Fin.ofNat]
  omega

/-- A thread that has gone on and holds no words of an instruction goes on no further. -/
def WentOn (th th' : Thread) : Prop := GoesOn th th' ∧ th'.instr = []

theorem WentOn.released {th th' : Thread} (h : WentOn th th') : WentOn th th'.released := by
  obtain ⟨⟨_, hpc, hpreds⟩, hinstr⟩ := h
  refine ⟨⟨rfl, ?_, hpreds⟩, rfl⟩
  show th'.pc.add (3 * (th'.instr.length : Int)) = _
  rw [hinstr, hpc]
  simp

theorem thread?_foldl_release_other (l : List (TRef × Thread)) (s : State) {u : TRef} (hu : ∀ p ∈ l, p.1 ≠ u) :
    (l.foldl (fun s p => s.release p.1) s).thread? u = s.thread? u := by
  induction l generalizing s with
  | nil => rfl
  | cons p l ih =>
    rw [List.foldl_cons, ih _ (fun q hq => hu q (by simp [hq])), thread?_release, if_neg (hu p (by simp)).symm]

theorem thread?_foldl_release_gone (l : List (TRef × Thread)) {s : State} {u : TRef} {th th' : Thread} (hth : s.thread? u = some th')
    (h : WentOn th th') : ∃ t, (l.foldl (fun s p => s.release p.1) s).thread? u = some t ∧ WentOn th t := by
  induction l generalizing s th' with
  | nil => exact ⟨th', hth, h⟩
  | cons p l ih =>
    rw [List.foldl_cons]
    by_cases hu : u = p.1
    · exact ih (by rw [thread?_release, if_pos hu, hth]; rfl) h.released
    · exact ih (by rw [thread?_release, if_neg hu, hth]) h

theorem thread?_foldl_release_mem (l : List (TRef × Thread)) {s : State} {u : TRef} {th : Thread} (hth : s.thread? u = some th)
    (hu : ∃ p ∈ l, p.1 = u) : ∃ t, (l.foldl (fun s p => s.release p.1) s).thread? u = some t ∧ WentOn th t := by
  induction l generalizing s with
  | nil => simp at hu
  | cons p l ih =>
    rw [List.foldl_cons]
    by_cases hp : u = p.1
    · exact thread?_foldl_release_gone l (by rw [thread?_release, if_pos hp, hth]; rfl) ⟨th.goesOn_released, rfl⟩
    · refine ih (by rw [thread?_release, if_neg hp, hth]) ?_
      obtain ⟨q, hq, rfl⟩ := hu
      exact ⟨q, (List.mem_cons.mp hq).resolve_left (fun h => hp (by rw [h])), rfl⟩

/-! ### What a barrier lets go on -/

/-- The threads of the teams that wait at a barrier. -/
def State.waiters (s : State) (teams : List Nat) (r : Run) : List (TRef × Thread) :=
  ((teams.map s.liveThreads).flatten).filter (fun p => p.2.run == r)

theorem mem_waiters {s : State} {teams : List Nat} {r : Run} (hr : r ≠ .exited) (p : TRef × Thread) :
    p ∈ s.waiters teams r ↔ p.1.team ∈ teams ∧ s.thread? p.1 = some p.2 ∧ p.2.run = r := by
  simp only [State.waiters, State.liveThreads, List.mem_filter, List.mem_flatten, List.mem_map, beq_iff_eq]
  constructor
  · rintro ⟨⟨_, ⟨m, hm, rfl⟩, hp⟩, hrun⟩
    obtain ⟨hp, _⟩ := List.mem_filter.mp hp
    obtain ⟨hteam, hth⟩ := (mem_threadsOf s m p).mp hp
    exact ⟨hteam ▸ hm, hth, hrun⟩
  · rintro ⟨hm, hth, hrun⟩
    exact ⟨⟨_, ⟨_, hm, rfl⟩, List.mem_filter.mpr ⟨(mem_threadsOf s _ p).mpr ⟨rfl, hth⟩, by simp [hrun, hr]⟩⟩, hrun⟩

/-- Beyond the waiting threads, a passed barrier changes nothing of a thread. -/
theorem thread?_passBarrier {s : State} {teams : List Nat} {r : Run} {code : Nat × PubWaiter} (hcode : barCode r = some code) (interval : Bool)
    (u : TRef) : (s.passBarrier teams r interval).thread? u = ((s.waiters teams r).foldl (fun s p => s.release p.1) s).thread? u := by
  have hclose : ∀ t : State, SameBody TeamBody.squads t
      (teams.foldl (fun s n => s.modTeam n (fun t => { t with closing := t.closing.filter (· != code.1) })) t) := fun t => by
    refine sameBody_foldl _ (fun s n => ?_) teams t
    exact sameBody_modTeam _ s n (fun _ => rfl) (fun _ => rfl)
  have hopen : ∀ t : State, SameBody TeamBody.squads t (teams.foldl (fun s n => s.openInterval n) t) := fun t => by
    refine sameBody_foldl _ (fun s n => ?_) teams t
    exact sameBody_modTeam _ s n (fun _ => rfl) (fun _ => rfl)
  obtain ⟨code, w⟩ := code
  simp only [State.passBarrier, hcode]
  cases interval with
  | false => exact thread?_of_sameBody (hclose _) u
  | true => exact thread?_of_sameBody ((hclose _).trans (hopen _)) u

/-- Every thread of the teams that waits at the barrier goes on, and every other is as it was (R326–R328). -/
theorem passBarrier_threads {s : State} {teams : List Nat} {r : Run} {code : Nat × PubWaiter} (hcode : barCode r = some code) (interval : Bool)
    {u : TRef} {th : Thread} (hth : s.thread? u = some th) : ∃ th', (s.passBarrier teams r interval).thread? u = some th' ∧
      if u.team ∈ teams ∧ th.run = r then GoesOn th th' else th' = th := by
  have hr : r ≠ .exited := by rintro rfl; cases hcode
  rw [thread?_passBarrier hcode]
  by_cases hwait : u.team ∈ teams ∧ th.run = r
  · obtain ⟨th', hth', hgone, _⟩ := thread?_foldl_release_mem (s.waiters teams r) hth
      ⟨(u, th), (mem_waiters hr _).mpr ⟨hwait.1, hth, hwait.2⟩, rfl⟩
    exact ⟨th', hth', by rwa [if_pos hwait]⟩
  · refine ⟨th, (thread?_foldl_release_other _ s fun p hp hu => hwait ?_).trans hth, by rw [if_neg hwait]⟩
    obtain ⟨hteam, hp, hrun⟩ := (mem_waiters hr p).mp hp
    subst hu
    rw [hth, Option.some.injEq] at hp
    exact ⟨hteam, hp ▸ hrun⟩

/-- Settles O35: each of the three steps passes its barrier, and the merge of a DET grid stands in GPHASE's way no more. -/
theorem barrierCompletions : Obligations.BarrierCompletions := by
  refine ⟨fun s n bar teams hdone => ?_, fun s g crew x teams hx hdone => ?_, fun s g x teams hx hmerged hdone => ?_⟩
  · exact ⟨s.passBarrier teams (.bar bar) true, by simp only [exec, execBarrierComplete, hdone], fun r th => passBarrier_threads rfl true⟩
  · exact ⟨s.passBarrier teams .cbar false, by simp only [exec, execCbarComplete, hx, hdone], fun r th => passBarrier_threads rfl false⟩
  · have hgo : ¬ (s.det x.num && !s.merged g) = true := by
      simp only [Bool.and_eq_true, Bool.not_eq_true', not_and, Bool.not_eq_false]
      exact hmerged
    exact ⟨s.passBarrier teams .gphase true, by simp only [exec, execGphaseComplete, hx, if_neg hgo, hdone],
      fun r th => passBarrier_threads rfl true⟩

end Sys2Proof.Machine
end

section
/-! PROOFS. The entry of a trap: the frame in the cabinet, the frozen squad and the handler (R371–R373, R396). -/

namespace Sys2Proof.Machine

/-! ### A line of the frame (R371) -/

/-- Words put behind one another into a cabinet stand there, and every other word is as before. -/
theorem cabGet_foldl_put (l : List Word) (m : Nat) (b : Int) (c : List (Int × Word)) (k : Int) :
    cabGet (((List.range' m l.length).zip l).foldl (fun c p => cabPut c (b + (p.1 : Int)) p.2) c) k
      = if b + m ≤ k ∧ k < b + m + l.length then wordAt l (k - b - m).toNat else cabGet c k := by
  induction l generalizing m c with
  | nil => rw [if_neg (by simp)]; rfl
  | cons w l ih =>
    rw [List.length_cons, List.range'_succ, List.zip_cons_cons, List.foldl_cons, ih (m + 1), cabGet_cabPut]
    by_cases hk : k = b + m
    · rw [if_neg (by omega), if_pos hk, if_pos (by omega), hk, show (b + (m : Int) - b - m).toNat = 0 by omega]
      rfl
    · by_cases hin : b + ((m + 1 : Nat) : Int) ≤ k ∧ k < b + ((m + 1 : Nat) : Int) + l.length
      · rw [if_pos hin, if_pos (by omega), show (k - b - m).toNat = (k - b - ((m + 1 : Nat) : Int)).toNat + 1 by omega]
        rfl
      · rw [if_neg hin, if_neg hk, if_neg (by omega)]

/-- A line of the frame holds its 27 words, and every other word of the cabinet is as before. -/
theorem cab_setFrameLine {s : State} {n : Nat} {tm : Team} (ht : s.team? n = some tm) (i : Nat) {l : List Word} (hl : l.length = 27) (k : Int) :
    (s.setFrameLine n i l).cab n k = if -81 + 27 * (i : Int) ≤ k ∧ k < -54 + 27 * (i : Int) then wordAt l (k + 81 - 27 * i).toNat else s.cab n k := by
  have hput := cabGet_foldl_put l 0 (-81 + 27 * (i : Int)) tm.body.cab k
  rw [hl, ← List.range_eq_range'] at hput
  simp only [State.cab, State.setFrameLine, team?_modBody, if_true, ht, Option.map_some]
  rw [hput]
  congr 1
  · simp only [eq_iff_iff]; omega
  · congr 1; omega

theorem team?_setFrameLine {s : State} {n : Nat} {tm : Team} (ht : s.team? n = some tm) (i : Nat) (l : List Word) :
    ∃ c, (s.setFrameLine n i l).team? n = some { tm with body := { tm.body with cab := c } } := by
  simp only [State.setFrameLine, team?_modBody, if_true, ht, Option.map_some]
  exact ⟨_, rfl⟩

/-- The state in which a frame of three lines has been written. -/
def State.framed (s : State) (n : Nat) (l0 l1 l2 : List Word) : State := ((s.setFrameLine n 0 l0).setFrameLine n 1 l1).setFrameLine n 2 l2

/-- The three lines of a frame stand below address 0, and every other word is as before (R371). -/
theorem cab_framed {s : State} {n : Nat} {tm : Team} (ht : s.team? n = some tm) {l0 l1 l2 : List Word} (h0 : l0.length = 27) (h1 : l1.length = 27)
    (h2 : l2.length = 27) (k : Int) : (s.framed n l0 l1 l2).cab n k
      = if -27 ≤ k ∧ k < 0 then wordAt l2 (k + 27).toNat else if -54 ≤ k ∧ k < -27 then wordAt l1 (k + 54).toNat
        else if -81 ≤ k ∧ k < -54 then wordAt l0 (k + 81).toNat else s.cab n k := by
  obtain ⟨c0, ht0⟩ := team?_setFrameLine ht 0 l0
  obtain ⟨c1, ht1⟩ := team?_setFrameLine ht0 1 l1
  rw [State.framed, cab_setFrameLine ht1 2 h2, cab_setFrameLine ht0 1 h1, cab_setFrameLine ht 0 h0]
  simp only [Nat.cast_ofNat, Nat.cast_one, Nat.cast_zero, Int.mul_zero, Int.add_zero, Int.sub_zero, Int.mul_one, Int.reduceMul, Int.reduceAdd]
  rw [show k + 81 - 54 = k + 27 by omega, show k + 81 - 27 = k + 54 by omega]

/-! ### TRAP_ENTRY (R372) -/

/-- The PCs that the frame shows of a squad's lanes (R371). -/
def framePcs (l : List Thread) : List Word := l.map (fun th => if th.run = .exited then .zero else th.pc)

/-- The fault addresses that the frame shows of a squad's lanes (R371). -/
def frameFaults (f : List (Nat × Word)) (l : List Thread) : List Word := l.zipIdx.map (fun p => (assocGet f p.2).getD .zero)

theorem wordAt_framePcs {l : List Thread} {i : Nat} {th : Thread} (h : l[i]? = some th) (hr : th.run ≠ .exited) : wordAt (framePcs l) i = th.pc := by
  simp [wordAt, framePcs, h, hr]

theorem wordAt_frameFaults {l : List Thread} {i : Nat} (h : i < l.length) (f : List (Nat × Word)) :
    wordAt (frameFaults f l) i = (assocGet f i).getD .zero := by
  simp [wordAt, frameFaults, h]

/-- The squad is frozen, and the handler of its event begins at TVEC (R372). -/
def State.handed (s : State) (n : Nat) (e : TrapEv) (rest : List TrapEv) : State :=
  (s.modSquad n e.squad (fun q => { q with frozen := true })).modTeam n
    (fun t => { t with events := rest, handler := some { squad := e.squad, pc := t.tvec, ev := e, run := .ready } })

/-- Taking an event writes its frame, freezes its squad and starts the handler (R371, R372). -/
theorem enterTrap_lines (s : State) (n : Nat) {tm : Team} {e : TrapEv} (rest : List TrapEv) {q : Squad} (hq : tm.body.squads[e.squad]? = some q) :
    ∃ l0 : List Word, s.enterTrap n tm e rest = (s.framed n l0 (framePcs q.threads) (frameFaults e.faults q.threads)).handed n e rest
      ∧ l0.length = 27 ∧ wordAt l0 0 = .ofInt e.cause ∧ wordAt l0 1 = .ofInt e.detail ∧ wordAt l0 2 = maskWord e.lanes ∧ wordAt l0 3 = .ofInt e.squad := by
  simp only [State.enterTrap, hq]
  exact ⟨_, rfl, rfl, rfl, rfl, rfl, rfl⟩

theorem team?_framed {s : State} {n : Nat} {tm : Team} (ht : s.team? n = some tm) (l0 l1 l2 : List Word) :
    ∃ c, (s.framed n l0 l1 l2).team? n = some { tm with body := { tm.body with cab := c } } := by
  obtain ⟨c0, ht0⟩ := team?_setFrameLine ht 0 l0
  obtain ⟨c1, ht1⟩ := team?_setFrameLine ht0 1 l1
  exact team?_setFrameLine ht1 2 l2

theorem team?_handed {s : State} {n : Nat} {tm : Team} (ht : s.team? n = some tm) (e : TrapEv) (rest : List TrapEv) :
    (s.handed n e rest).team? n = some { tm with
      body := { tm.body with squads := modNth (fun q => { q with frozen := true }) tm.body.squads e.squad }, events := rest,
      handler := some { squad := e.squad, pc := tm.tvec, ev := e, run := .ready } } := by
  simp [State.handed, team?_modTeam, ht]

theorem cab_handed {s : State} {n : Nat} {tm : Team} (ht : s.team? n = some tm) (e : TrapEv) (rest : List TrapEv) (k : Int) :
    (s.handed n e rest).cab n k = s.cab n k := by
  simp only [State.cab, team?_handed ht, ht]

/-- TRAP_ENTRY of a team with no handler in progress takes its oldest event, unless the event's squad has a shadow that is behind or has
disagreed (R372, R396). -/
theorem exec_trapEntry {s : State} {n : Nat} {tm : Team} {e : TrapEv} {rest : List TrapEv} (ht : s.team? n = some tm) (hh : tm.handler = none)
    (he : tm.events = e :: rest) (hsave : tm.saving = false) (hbad : s.shadowBad n e.squad = false) :
    exec (.trapEntry n) s = if s.shadowBehind n e.squad then .next (s.laterOnce (.trapEntry n))
      else if tm.tvec ≠ .zero then .next (s.enterTrap n tm e rest)
      else if ((s.raise (s.teamEvent 19 n 0 .zero 0)).team? n).isNone then .next (s.raise (s.teamEvent 19 n 0 .zero 0))
      else .next (((s.raise (s.teamEvent 19 n 0 .zero 0)).modTeam n (fun t => { t with events := rest })).tret n
        { squad := e.squad, pc := .zero, ev := e, run := .ready } true) := by
  simp only [exec, execTrapEntry, ht, hh, he, hsave, hbad, Bool.false_eq_true, if_false]

/-- Settles O42: the lines of the frame at their places, and the three ways that TRAP_ENTRY goes where it does not enter TVEC. -/
theorem trapEntry : Obligations.TrapEntry := by
  refine ⟨fun s n tm e rest q ht hh he hsave htvec hbad hbehind hq hlen => ?_, fun s n tm e rest ht hh he hsave hbad => ?_⟩
  · obtain ⟨l0, henter, h0, hcause, hdetail, hmask, hsquad⟩ := enterTrap_lines s n rest hq
    have hexec : exec (.trapEntry n) s = .next (s.enterTrap n tm e rest) := by
      rw [exec_trapEntry ht hh he hsave hbad, hbehind, if_neg Bool.false_ne_true, if_pos htvec]
    obtain ⟨c, htf⟩ := team?_framed ht l0 (framePcs q.threads) (frameFaults e.faults q.threads)
    have hcab : ∀ k, (s.enterTrap n tm e rest).cab n k = _ := fun k => by
      rw [henter, cab_handed htf, cab_framed ht h0 (by simpa [framePcs] using hlen) (by simpa [frameFaults] using hlen)]
    have hteam := henter ▸ team?_handed htf e rest
    refine ⟨_, _, hexec, hteam, rfl, rfl, ?_, ?_, hcause ▸ hcab _, hdetail ▸ hcab _, hmask ▸ hcab _, hsquad ▸ hcab _,
      fun l th hl hrun => ?_, fun l hl => ?_, fun i hi => ?_⟩
    · simp [State.squad?, hteam, hq]
    · simp [State.squad?, hteam, hq]
    · have hlt : l < 27 := hlen ▸ (List.getElem?_eq_some_iff.mp hl).1
      rw [hcab, if_neg (by omega), if_pos (by omega), show (-54 + (l : Int) + 54).toNat = l by omega, wordAt_framePcs hl hrun]
    · rw [hcab, if_pos (by omega), show (-27 + (l : Int) + 27).toNat = l by omega, wordAt_frameFaults (by omega)]
    · rw [hcab, if_neg (by omega), if_neg (by omega), if_neg (by omega)]
  · rw [exec_trapEntry ht hh he hsave hbad]
    refine ⟨fun hb => by rw [if_pos hb], fun hb htvec u hu => ?_⟩
    subst hu
    rw [hb, if_neg Bool.false_ne_true, if_neg (not_not.mpr htvec)]
    exact ⟨fun hgone => by rw [hgone]; rfl, fun hthere => if_neg (by simpa using hthere)⟩

end Sys2Proof.Machine
end

section
/-! PROOFS. The governor, the droop detectors and the thermal trip (R460, R461). -/

namespace Sys2Proof.Machine

theorem Word.ofInt_val (w : Word) : Word.ofInt w.val = w := by
  have h := Word.add_zero w
  rwa [Word.add, Int.add_zero] at h

/-! ### The governor (R460) -/

/-- The words after four readings have been stored from `sel` on. -/
theorem cw_setReadings (s : State) (sel : Nat) {l : List Int} (hl : l.length = 4) (k : Nat) :
    (s.setReadings sel l).cw k = if sel ≤ k ∧ k < sel + 4 then .ofInt (l.getD (k - sel) 0) else s.cw k := by
  obtain ⟨a, b, c, d, rfl⟩ : ∃ a b c d, l = [a, b, c, d] := by
    match l, hl with
    | [a, b, c, d], _ => exact ⟨a, b, c, d, rfl⟩
  have hset : s.setReadings sel [a, b, c, d] = (((s.setCwInt (sel + 0) a).setCwInt (sel + 1) b).setCwInt (sel + 2) c).setCwInt (sel + 3) d := rfl
  simp only [hset, cw_setCwInt]
  by_cases hk : sel ≤ k ∧ k < sel + 4
  · obtain ⟨j, rfl⟩ : ∃ j, k = sel + j := ⟨k - sel, by omega⟩
    have hj : j < 4 := by omega
    rw [if_pos hk]
    interval_cases j <;> simp
  · rw [if_neg hk, if_neg (by omega), if_neg (by omega), if_neg (by omega), if_neg (by omega)]

theorem setReadings_rest (s : State) (sel : Nat) (l : List Int) (c : List (Nat × Word)) :
    ({ s.setReadings sel l with ctl := c } : State) = { s with ctl := c } :=
  foldl_keeps (fun t : State => ({ t with ctl := c } : State)) (fun (t : State) (p : Int × Nat) => t.setCwInt (sel + p.2) p.1) (fun _ _ => rfl) (l.take 4).zipIdx s

/-- The governor withholds one ninth more near the limits, one less where all have room, and else as many as before (R460). -/
theorem governed_cases (w i ilim tlim : Int) (temp : List Int) :
    (ilim - 90 < i ∨ (∃ x ∈ temp, tlim < x) → governed w i ilim tlim temp = min (w + 1) 8)
    ∧ (i < ilim - 450 ∧ (∀ x ∈ temp, x ≤ tlim - 2) → governed w i ilim tlim temp = max (w - 1) 0)
    ∧ (i ≤ ilim - 90 ∧ (∀ x ∈ temp, x ≤ tlim) ∧ (ilim - 450 ≤ i ∨ ∃ x ∈ temp, tlim - 2 < x) → governed w i ilim tlim temp = w) := by
  simp only [governed, Bool.or_eq_true, Bool.and_eq_true, decide_eq_true_eq, List.any_eq_true, List.all_eq_true]
  refine ⟨fun h => if_pos h, fun ⟨hi, ht⟩ => ?_, fun ⟨hi, ht, hroom⟩ => ?_⟩
  · rw [if_neg, if_pos ⟨hi, ht⟩]
    rintro (hnear | ⟨x, hx, hhot⟩)
    · omega
    · have := ht x hx; omega
  · rw [if_neg, if_neg]
    · rintro ⟨hlow, hcool⟩
      rcases hroom with hroom | ⟨x, hx, hwarm⟩
      · omega
      · have := hcool x hx; omega
    · rintro (hnear | ⟨x, hx, hhot⟩)
      · omega
      · have := ht x hx; omega

/-- ILIM_UPDATE sets ILIM, and then the two words that readings give (R460). -/
theorem exec_ilimUpdate (s : State) (u : Int) : ∃ pwr energy : Int, exec (.ilimUpdate u) s
    = .next ((({ s.setCwInt 20011 (min 9000 ((s.cwInt 20000 - u) * 100 / 42)) with tick := s.tick + 2 } : State).setCwInt 20001 pwr).setCwInt
        20002 energy) := ⟨_, _, rfl⟩

/-- A core from which issue is withheld issues nothing (R460, R461). -/
theorem exec_issueSelection_withheld {s : State} {core : Nat} (h : s.withheld core = true) : exec (.issueSelection core) s = .next s := by
  simp only [exec, execIssueSelection, h, if_true]

/-- A core's droop flag is set or cleared, and every other core is as before (R460). -/
theorem core_setDroop (s : State) (core k : Nat) (b : Bool) :
    (s.modCore core (fun c => { c with droop := b })).core k = if k = core then { s.core core with droop := b } else s.core k := by
  rw [core_modCore]
  exact fun _ => rfl

end Sys2Proof.Machine

namespace Sys2Proof
open Sys2Proof.Machine

/-- Settles O51: the readings and the governor's cases, ILIM and the readings behind it, and the flags that stop issue. -/
theorem powerSteps : Obligations.PowerSteps := by
  refine ⟨fun s irail temp hi ht => ?_, fun s u => ?_, fun s core hcore => ⟨?_, ?_⟩, fun s die => ?_⟩
  · have hcw : ∀ k, ((s.setReadings 20003 irail).setReadings 20007 temp).cw k = if 20007 ≤ k ∧ k < 20011 then .ofInt (temp.getD (k - 20007) 0)
        else if 20003 ≤ k ∧ k < 20007 then .ofInt (irail.getD (k - 20003) 0) else s.cw k := fun k => by
      rw [cw_setReadings _ _ ht, cw_setReadings _ _ hi]
    have hrest : ({ (s.setReadings 20003 irail).setReadings 20007 temp with ctl := s.ctl } : State) = s := by
      rw [setReadings_rest, setReadings_rest]
    have hexec : exec (.governorTick irail temp) s = .next (((s.setReadings 20003 irail).setReadings 20007 temp).setCwInt 20012
        (governed (s.cwInt 20012) irail.sum (s.cwInt 20011) (s.cwInt 20014) temp)) := by
      simp only [exec, execGovernorTick, List.take_of_length_le (Nat.le_of_eq hi), List.take_of_length_le (Nat.le_of_eq ht), State.cwInt, hcw]
      rfl
    generalize (s.setReadings 20003 irail).setReadings 20007 temp = t at hcw hrest hexec
    obtain ⟨hmore, hless, hsame⟩ := governed_cases (s.cwInt 20012) irail.sum (s.cwInt 20011) (s.cwInt 20014) temp
    refine ⟨_, hexec, hrest, fun i hi4 => ⟨?_, ?_⟩, fun k hk hk12 => ?_, fun h => ?_, fun h => ?_, fun h => ?_⟩
    · rw [cw_setCwInt, if_neg (by omega), hcw, if_neg (by omega), if_pos (by omega), Nat.add_sub_cancel_left]
    · rw [cw_setCwInt, if_neg (by omega), hcw, if_pos (by omega), Nat.add_sub_cancel_left]
    · rw [cw_setCwInt, if_neg hk12, hcw, if_neg (by omega), if_neg (by omega)]
    · rw [cw_setCwInt, if_pos rfl, hmore h]
    · rw [cw_setCwInt, if_pos rfl, hless h]
    · rw [cw_setCwInt, if_pos rfl, hsame h, State.cwInt, Word.ofInt_val]
  · obtain ⟨pwr, energy, hexec⟩ := exec_ilimUpdate s u
    have hcw : ∀ k, ({ s.setCwInt 20011 (min 9000 ((s.cwInt 20000 - u) * 100 / 42)) with tick := s.tick + 2 } : State).cw k
        = if k = 20011 then .ofInt (min 9000 ((s.cwInt 20000 - u) * 100 / 42)) else s.cw k := fun k => cw_setCwInt s 20011 k _
    refine ⟨_, hexec, ?_, rfl, fun k h1 h2 h11 => ?_⟩
    · rw [cw_setCwInt, if_neg (by decide), cw_setCwInt, if_neg (by decide), hcw, if_pos rfl]
    · rw [cw_setCwInt, if_neg h2, cw_setCwInt, if_neg h1, hcw, if_neg h11]
  · refine ⟨_, congrArg Host.Outcome.next (if_pos hcore), rfl, ?_, fun k hk => ?_⟩
    · exact (core_setDroop s core core _).trans (if_pos rfl)
    · exact (core_setDroop s core k _).trans (if_neg hk)
  · refine ⟨_, congrArg Host.Outcome.next (if_pos hcore), rfl, ?_, fun k hk => ?_⟩
    · exact (core_setDroop s core core _).trans (if_pos rfl)
    · exact (core_setDroop s core k _).trans (if_neg hk)
  · exact ⟨_, rfl, rfl, fun core => exec_issueSelection_withheld (by simp [State.withheld]), fun hissue hagenda => by simp [step, hissue, hagenda]⟩

end Sys2Proof
end

section
/-! PROOFS. Words of device scope, provisioning, measurements and reports (R378, R453–R456). -/

namespace Sys2Proof.Machine

/-! ### What writes of words keep -/

/-- Items are written from their selector on, and no word before it is. -/
theorem cw_setItems_of_lt (s : State) (sel : Nat) (b : List (BitVec 8)) {k : Nat} (hk : k < sel) : (s.setItems sel b).cw k = s.cw k :=
  foldl_keeps (fun t : State => t.cw k)
    (fun (t : State) (i : Nat) => t.setCwInt (sel + i) (ofBigEndian (((b.drop (4 * i)).take 4).map BitVec.toNat)))
    (fun t i => by rw [cw_setCwInt, if_neg (by omega)]) (List.range (b.length / 4)) s

@[simp] theorem setItems_nv (s : State) (sel : Nat) (b : List (BitVec 8)) : (s.setItems sel b).nv = s.nv :=
  foldl_keeps (fun t : State => t.nv)
    (fun (t : State) (i : Nat) => t.setCwInt (sel + i) (ofBigEndian (((b.drop (4 * i)).take 4).map BitVec.toNat)))
    (fun t _ => State.setCwInt_nv t _ _) (List.range (b.length / 4)) s

@[simp] theorem showFuses_nv (s : State) : s.showFuses.nv = s.nv := by
  rw [State.showFuses, setItems_nv, State.setCwInt_nv, State.setCwInt_nv]

/-- LCS shows the life cycle once the fuses are shown (R445). -/
theorem cwInt_showFuses_lcs {s : State} {x : Int} (h : s.nv.lcs = x) : s.showFuses.cwInt 19684 = (Word.ofInt x).val := by
  rw [State.cwInt, State.showFuses, cw_setItems_of_lt _ _ _ (by decide), cw_setCwInt, if_neg (by decide), cw_setCwInt, if_pos rfl, h]

/-! ### The words (R378) -/

/-- A word that a write stores is one that the tables list, so it is no stamp control word (R399). -/
theorem stampWord_of_plainWord {s : State} {sel v : Int} (h : plainWord s sel v = true) : stampWord sel = false := by
  have hlisted : listedWord sel = true := by
    by_contra hno
    simp only [listedWord, Bool.or_eq_true, Bool.and_eq_true, decide_eq_true_eq, beq_iff_eq, not_or, not_and, not_le, not_lt] at hno
    simp only [plainWord] at h
    repeat rw [if_neg (by omega)] at h
    cases h
  simp only [stampWord, hlisted, Bool.not_true, Bool.false_and]

theorem whenReady_of_ready {s : State} (h : s.ready = true) (sel : Int) (f : State → State) : s.whenReady sel f = .next (f s) := by
  simp only [State.whenReady, h, if_true]

theorem exec_controlWordWrite_plain {s : State} {sel : Int} {v : Word} (hr : s.ready = true) (hp : plainWord s sel v.val = true) :
    exec (.controlWordWrite sel v) s = .next (s.setCw sel.toNat v) := by
  simp [exec, execControlWordWrite, whenReady_of_ready hr, stampWord_of_plainWord hp, State.storeCw, hp]

theorem exec_controlWordWrite_other {s : State} {sel : Int} {v : Word} (hr : s.ready = true) (hp : plainWord s sel v.val = false) :
    exec (.controlWordWrite sel v) s = .next (if stampWord sel = true then s.hostError barWriter (8 * sel).toNat true else s) := by
  simp [exec, execControlWordWrite, whenReady_of_ready hr, State.storeCw, hp]

/-! ### Reports (R455) -/

/-- Why ATTGO refuses a request of a host: the life cycle, or a slot of the report that is no B-slot (R455). -/
def State.attRefused (s : State) : Prop :=
  s.cwInt 19684 = -1 ∨ s.cwInt 19684 = 2 ∨ s.cwInt 19788 < 0
    ∨ ∃ i : Nat, i < 131 ∧ ¬((s.cwInt 19788).toNat + i < slotCount ∧ s.isB ((s.cwInt 19788).toNat + i) = true)

theorem exec_attgo_refused {s : State} (hr : s.ready = true) (hbusy : s.cwInt 19790 ≠ 1) (h : s.attRefused) :
    exec (.attgo none) s = .next (s.setCwInt 19790 (-1)) := by
  simp only [exec, execAttgo, whenReady_of_ready hr, State.attGo, if_neg hbusy]
  rw [if_pos]
  simpa [State.attRefused, or_iff_not_imp_left] using h

theorem exec_attgo_accepted {s : State} (hr : s.ready = true) (hbusy : s.cwInt 19790 ≠ 1) (h : ¬s.attRefused) :
    exec (.attgo none) s = .next (({ (s.setCwInt 19790 1).setCwInt 19791 (s.cwInt 19791 + 1) with
      report := some { slot := (s.cwInt 19788).toNat, body := s.reportBody } } : State).later [.attestationReportDone]) := by
  simp only [exec, execAttgo, whenReady_of_ready hr, State.attGo, if_neg hbusy]
  rw [if_neg]
  simpa [State.attRefused, or_iff_not_imp_left] using h

/-- Settles O53: the words, the life cycle, the measurement, and the two ends of ATTGO. -/
theorem deviceWords : Obligations.DeviceWords := by
  refine ⟨fun s sel v hr hsel => ⟨fun hp => ?_, exec_controlWordWrite_other hr⟩, fun s sel v hr => ?_, fun s => ⟨fun h1 h0 => ?_, fun h0 => ?_, fun h1 => ?_, ?_⟩,
    fun s hr h4 h8 => ?_, fun s hr hbusy => ⟨fun hlcs => ?_, fun h1 h2 ha hslots => ?_⟩, fun s s1 r hrep hlines => ?_⟩
  · exact ⟨_, exec_controlWordWrite_plain hr hp, by rw [cw_setCw, if_pos rfl], rfl, fun k hk => by rw [cw_setCw, if_neg hk]⟩
  · simp [exec, execControlWordWrite, State.whenReady, hr]
  · simp only [exec, execProvisioning, if_neg h1, if_neg h0]
  · refine ⟨({ s with nv := { s.nv with lcs := 1 } } : State).showFuses, ?_, showFuses_nv _, ?_⟩
    · simp [exec, execProvisioning, h0]
    · exact (cwInt_showFuses_lcs (x := 1) rfl).trans (by decide)
  · refine ⟨_, by simp only [exec, execProvisioning, if_pos h1]; rfl, ?_, ?_, ?_, ?_⟩
    · rw [showFuses_nv]
    · exact (cwInt_showFuses_lcs (x := 0) rfl).trans (by decide)
    · rw [showFuses_nv]
    · rw [showFuses_nv]
  · refine ⟨_, rfl, ?_, ?_, ?_, ?_⟩
    · rw [showFuses_nv]
    · rw [showFuses_nv]
    · exact (cwInt_showFuses_lcs (x := 2) rfl).trans (by decide)
    · rw [showFuses_nv]
  · refine ⟨_, ?_, rfl⟩
    simp only [exec, execExtgo, whenReady_of_ready hr, State.extGo, State.extend, if_pos (And.intro h4 h8)]
  · refine ⟨_, exec_attgo_refused hr hbusy (hlcs.imp_right Or.inl), ?_⟩
    rw [State.cwInt, cw_setCwInt, if_pos rfl]; decide
  · have hok : ¬s.attRefused := by
      rintro (h | h | h | ⟨i, hi, hno⟩)
      · exact h1 h
      · exact h2 h
      · omega
      · exact hno (hslots i hi)
    refine ⟨_, exec_attgo_accepted hr hbusy hok, ?_, ?_, rfl, by simp [State.later]⟩
    · have hcw : ∀ (u : State) (r : Option Report) (l : List Instr), (({ u with report := r } : State).later l).cw 19790 = u.cw 19790 :=
        fun _ _ _ => rfl
      rw [State.cwInt, hcw, cw_setCwInt, if_neg (by decide), cw_setCwInt, if_pos rfl]; decide
    · exact (cw_setCwInt _ _ _ _).trans (if_pos rfl)
  · refine ⟨{ s1.setCwInt 19790 2 with report := none, tick := s1.tick + 1 }, ?_, ?_, rfl, rfl, rfl⟩
    · simp only [exec, execAttestationReportDone, hrep, hlines]
    · exact (congrArg Word.val ((cw_setCwInt s1 19790 19790 2).trans (if_pos rfl))).trans (by decide)

end Sys2Proof.Machine
end

section
/-! PROOFS. A publication whose number stands twice in its team's list: what ends is the other one (R306, R84, R400). -/

namespace Sys2Proof.Machine

/-- A fresh team whose next publication takes the number 0 of one still in its list. That one has nothing on its way, a line of it was
refused, and the team's end waits for it; class 13 ends the context. -/
def numberTaken : State :=
  let s := State.reset.place []
  let refused : ELine × Refused := ({ vline := 297, slot := 0, elig := false, words := [] }, { cause := 10, detail := 0, va := .zero })
  (s.modTeam 0 (fun t => { t with pubs := [{ id := 0, lines := [], held := [], again := [], failed := [refused], waiter := .teamEnd }] })).setCwInt 7303 (-1)

/-- What holds of the team number `n` after an instruction. -/
def teamAfter (i : Instr) (n : Nat) (s : State) : Option Team :=
  match exec i s with
  | .next t => t.team? n
  | _ => none

/-- Refutes O34: it supposes nothing of the publications that the team already has. Where one of the same number waits with a refused line, the
new publication, whose set is empty, ends that one instead; its fault raises class 13, whose action may end the context, and then the team is
gone. -/
theorem not_publications : ¬ Obligations.Publications := by
  intro h
  have hteam : (numberTaken.team? 0).any (fun tm => tm.body.escrow.isEmpty) = true := by decide +kernel
  obtain ⟨tm, htm, hempty⟩ := (Option.any_eq_true _ _).mp hteam
  have hnone : tm.body.escrow = [] := List.isEmpty_iff.mp hempty
  obtain ⟨t, tm', hexec, htm', -⟩ := h.1 numberTaken 0 .team .teamEnd tm htm (by simp [hnone])
  have hafter : teamAfter (.publication 0 .team .teamEnd) 0 numberTaken = some tm' := by rw [teamAfter, hexec]; exact htm'
  have hgone : teamAfter (.publication 0 .team .teamEnd) 0 numberTaken = none := by decide +kernel
  exact absurd (hgone.symm.trans hafter) (Option.some_ne_none tm').symm

end Sys2Proof.Machine
end

section
/-! PROOFS. Issue selection (R351). -/

namespace Sys2Proof.Machine

/-! ### Sorting by a test -/

/-- A list sorted by a total and transitive test stands in its order. -/
theorem pairwise_insertBy {α : Type} {le : α → α → Bool} (htotal : ∀ a b, le a b = true ∨ le b a = true)
    (htrans : ∀ a b c, le a b = true → le b c = true → le a c = true) (a : α) {l : List α} (h : l.Pairwise (fun x y => le x y = true)) :
    (insertBy le a l).Pairwise (fun x y => le x y = true) := by
  induction l with
  | nil => exact List.pairwise_singleton _ _
  | cons b t ih =>
    obtain ⟨hb, ht⟩ := List.pairwise_cons.mp h
    simp only [insertBy]
    split
    · next hba =>
      refine List.pairwise_cons.mpr ⟨fun x hx => ?_, ih ht⟩
      rcases (mem_insertBy le a x t).mp hx with rfl | hxt
      · exact hba
      · exact hb x hxt
    · next hba =>
      have hab : le a b = true := (htotal a b).resolve_right hba
      refine List.pairwise_cons.mpr ⟨fun x hx => ?_, h⟩
      rcases List.mem_cons.mp hx with rfl | hxt
      · exact hab
      · exact htrans a b x hab (hb x hxt)

theorem pairwise_sortBy {α : Type} {le : α → α → Bool} (htotal : ∀ a b, le a b = true ∨ le b a = true)
    (htrans : ∀ a b c, le a b = true → le b c = true → le a c = true) (l : List α) : (sortBy le l).Pairwise (fun x y => le x y = true) :=
  List.foldlRecOn (motive := fun acc : List α => acc.Pairwise (fun x y => le x y = true)) l _ List.Pairwise.nil
    (fun _ hacc a _ => pairwise_insertBy htotal htrans a hacc)

/-! ### The order of the pool -/

/-- A test by four measures in turn: a flag that comes first, a number whose greater values come first, and two whose smaller ones do. -/
def inTurn {α : Type} (flag : α → Bool) (high : α → Int) (low last : α → Nat) (a b : α) : Bool :=
  if flag a ≠ flag b then flag a
  else if high a ≠ high b then high b < high a
  else if low a ≠ low b then low a < low b
  else last a ≤ last b

/-- The order of the pool is by waiting, priority, age and entry (R351). -/
theorem before_eq_inTurn (s : State) : ∃ flag high low last, s.before = inTurn flag high low last := ⟨_, _, _, _, rfl⟩

theorem inTurn_total {α : Type} (flag : α → Bool) (high : α → Int) (low last : α → Nat) (a b : α) :
    inTurn flag high low last a b = true ∨ inTurn flag high low last b a = true := by
  simp only [inTurn]
  grind

theorem inTurn_trans {α : Type} {flag : α → Bool} {high : α → Int} {low last : α → Nat} {a b c : α}
    (hab : inTurn flag high low last a b = true) (hbc : inTurn flag high low last b c = true) : inTurn flag high low last a c = true := by
  simp only [inTurn] at *
  grind

theorem before_total (s : State) (a b : Bundle) : s.before a b = true ∨ s.before b a = true := by
  obtain ⟨flag, high, low, last, h⟩ := before_eq_inTurn s
  rw [h]
  exact inTurn_total flag high low last a b

theorem before_trans (s : State) (a b c : Bundle) (hab : s.before a b = true) (hbc : s.before b c = true) : s.before a c = true := by
  obtain ⟨flag, high, low, last, h⟩ := before_eq_inTurn s
  rw [h] at hab hbc ⊢
  exact inTurn_trans hab hbc

/-! ### What a core selects -/

/-- An instruction says for each of the four kinds how many slots it takes (R351). -/
theorem slots_length (i : Instr) : i.slots.length = 4 := by
  simp only [Instr.slots]
  split
  · simp only [List.length_cons, List.length_drop, List.length_zipWith]
    repeat' split
    all_goals rfl
  · repeat' split
    all_goals rfl

theorem bundleSlots_length {s : State} {b : Bundle} {k : List Nat} (h : s.bundleSlots b = some k) : k.length = 4 := by
  simp only [State.bundleSlots] at h
  split at h
  · cases h; rfl
  · obtain ⟨e, -, rfl⟩ := Option.map_eq_some_iff.mp h
    exact slots_length _
  · obtain ⟨t, -, ht⟩ := Option.bind_eq_some_iff.mp h
    obtain ⟨i, -, rfl⟩ := Option.map_eq_some_iff.mp ht
    exact slots_length i

/-- One bundle of the pool is looked at: it is dropped, issues, or waits on. -/
def State.selectStep (s : State) (p : List Bundle × List Bundle × List Nat) (b : Bundle) : List Bundle × List Bundle × List Nat :=
  match s.bundleSlots b with
  | none => p
  | some k =>
    if s.wholeTeam b && p.1.any b.mate then (p.1 ++ [b], p.2.1, p.2.2)
    else if (List.zipWith (fun (x y : Nat) => decide (x ≤ y)) k p.2.2).all id then (p.1 ++ [b], p.2.1, List.zipWith (fun x y => y - x) k p.2.2)
    else (p.1, p.2.1 ++ [{ b with waited := b.waited + 1 }], p.2.2)

theorem select_eq (s : State) (l : List Bundle) (free : List Nat) : s.select l free = l.foldl s.selectStep ([], [], free) := rfl

/-- The slots of a kind that bundles take together. -/
def State.taken (s : State) (l : List Bundle) (i : Nat) : Nat := (l.map (s.slotOf · i)).sum

theorem taken_append (s : State) (l m : List Bundle) (i : Nat) : s.taken (l ++ m) i = s.taken l i + s.taken m i := by
  simp [State.taken]

theorem taken_filter_le (s : State) (p : Bundle → Bool) (l : List Bundle) (i : Nat) : s.taken (l.filter p) i ≤ s.taken l i := by
  induction l with
  | nil => exact le_rfl
  | cons b l ih =>
    simp only [State.taken, List.filter_cons] at *
    split <;> simp only [List.map_cons, List.sum_cons] <;> omega

/-- What a core has chosen once it has looked at the bundles `seen`: those that issue, those that wait, and the slots that are left. -/
structure State.Chosen (s : State) (seen : List Bundle) (p : List Bundle × List Bundle × List Nat) : Prop where
  picked : ∀ b ∈ p.1, b ∈ seen ∧ (s.bundleSlots b).isSome
  kinds : p.2.2.length = 4
  room : ∀ i, s.taken (p.1.filter (fun b => !s.wholeTeam b)) i + p.2.2.getD i 0 ≤ issueSlots.getD i 0
  full : ∀ i, issueSlots.getD i 0 ≤ s.taken p.1 i + p.2.2.getD i 0
  passed : ∀ b ∈ seen, (s.bundleSlots b).isSome → b ∈ p.1 ∨ ({ b with waited := b.waited + 1 } ∈ p.2.1
    ∧ ∃ i < 4, issueSlots.getD i 0 < s.slotOf b i + s.taken (p.1.filter (fun c => s.before c b)) i)

/-- Whether four kinds of slots suffice, and what is left of them. -/
theorem slots_fit {k free : List Nat} (hk : k.length = 4) (hf : free.length = 4) :
    (List.zipWith (fun (x y : Nat) => y - x) k free).length = 4
    ∧ (∀ i, (List.zipWith (fun (x y : Nat) => y - x) k free).getD i 0 = free.getD i 0 - k.getD i 0)
    ∧ ((List.zipWith (fun (x y : Nat) => decide (x ≤ y)) k free).all id = true → ∀ i, k.getD i 0 ≤ free.getD i 0)
    ∧ ((List.zipWith (fun (x y : Nat) => decide (x ≤ y)) k free).all id = false → ∃ i < 4, free.getD i 0 < k.getD i 0) := by
  obtain ⟨k0, k1, k2, k3, rfl⟩ : ∃ a b c d, k = [a, b, c, d] := by
    match k, hk with
    | [a, b, c, d], _ => exact ⟨a, b, c, d, rfl⟩
  obtain ⟨f0, f1, f2, f3, rfl⟩ : ∃ a b c d, free = [a, b, c, d] := by
    match free, hf with
    | [a, b, c, d], _ => exact ⟨a, b, c, d, rfl⟩
  refine ⟨rfl, fun i => ?_, fun h i => ?_, fun h => ?_⟩
  · match i with
    | 0 | 1 | 2 | 3 => rfl
    | _ + 4 => rfl
  · simp only [List.zipWith_cons_cons, List.zipWith_nil_left, List.all_cons, List.all_nil, Bool.and_true, id, Bool.and_eq_true, decide_eq_true_eq] at h
    obtain ⟨h0, h1, h2, h3⟩ := h
    match i with
    | 0 => exact h0
    | 1 => exact h1
    | 2 => exact h2
    | 3 => exact h3
    | _ + 4 => exact le_rfl
  · by_contra hno
    simp only [not_exists, not_and, not_lt] at hno
    have h0 : k0 ≤ f0 := hno 0 (by decide)
    have h1 : k1 ≤ f1 := hno 1 (by decide)
    have h2 : k2 ≤ f2 := hno 2 (by decide)
    have h3 : k3 ≤ f3 := hno 3 (by decide)
    simp [h0, h1, h2, h3] at h

/-- The choice goes on with a bundle that none of those seen stands behind. -/
theorem State.Chosen.step {s : State} {seen : List Bundle} {p : List Bundle × List Bundle × List Nat} (h : s.Chosen seen p) {b : Bundle}
    (hb : ∀ c ∈ seen, s.before c b = true) : s.Chosen (seen ++ [b]) (s.selectStep p b) := by
  have hseen : ∀ c ∈ p.1, c ∈ seen ++ [b] ∧ (s.bundleSlots c).isSome := fun c hc =>
    ⟨List.mem_append_left _ (h.picked c hc).1, (h.picked c hc).2⟩
  -- a bundle passed over before stays so, whatever issues after it
  have hpassed : ∀ (q : List Bundle) (w : List Bundle), ∀ c ∈ seen, (s.bundleSlots c).isSome → c ∈ p.1 ++ q ∨ ({ c with waited := c.waited + 1 } ∈ p.2.1 ++ w
      ∧ ∃ i < 4, issueSlots.getD i 0 < s.slotOf c i + s.taken ((p.1 ++ q).filter (fun d => s.before d c)) i) := fun q w c hc hsome => by
    rcases h.passed c hc hsome with hin | ⟨hw, i, hi, hlt⟩
    · exact .inl (List.mem_append_left _ hin)
    · refine .inr ⟨List.mem_append_left _ hw, i, hi, ?_⟩
      rw [List.filter_append, taken_append]
      omega
  simp only [State.selectStep]
  split
  · next hnone =>
    refine ⟨hseen, h.kinds, h.room, h.full, fun c hc hsome => ?_⟩
    rcases List.mem_append.mp hc with hc | hc
    · exact h.passed c hc hsome
    · rw [List.mem_singleton.mp hc, hnone] at hsome
      cases hsome
  · next k hk =>
    have hslot : ∀ i, s.slotOf b i = k.getD i 0 := fun i => by rw [State.slotOf, hk]; rfl
    have hone : ∀ i, s.taken [b] i = k.getD i 0 := fun i => by rw [State.taken, List.map_singleton, List.sum_singleton, hslot]
    obtain ⟨hlen, hleft, hfits, hshort⟩ := slots_fit (bundleSlots_length hk) h.kinds
    have hissue : ∀ c ∈ p.1 ++ [b], c ∈ seen ++ [b] ∧ (s.bundleSlots c).isSome := fun c hc => by
      rcases List.mem_append.mp hc with hc | hc
      · exact hseen c hc
      · rw [List.mem_singleton.mp hc, hk]
        exact ⟨List.mem_append_right _ (List.mem_singleton_self b), rfl⟩
    have hissued : ∀ c ∈ seen ++ [b], (s.bundleSlots c).isSome → c ∈ p.1 ++ [b] ∨ ({ c with waited := c.waited + 1 } ∈ p.2.1
        ∧ ∃ i < 4, issueSlots.getD i 0 < s.slotOf c i + s.taken ((p.1 ++ [b]).filter (fun d => s.before d c)) i) := fun c hc hsome => by
      rcases List.mem_append.mp hc with hc | hc
      · simpa only [List.append_nil] using hpassed [b] [] c hc hsome
      · exact .inl (List.mem_append_right _ hc)
    split
    · next hmate =>
      have hwhole : s.wholeTeam b = true := (Bool.and_eq_true_iff.mp hmate).1
      refine ⟨hissue, h.kinds, fun i => ?_, fun i => ?_, hissued⟩
      · simpa [List.filter_append, hwhole] using h.room i
      · show issueSlots.getD i 0 ≤ s.taken (p.1 ++ [b]) i + p.2.2.getD i 0
        rw [taken_append]
        exact (h.full i).trans (by omega)
    · split
      · next hall =>
        refine ⟨hissue, hlen, fun i => ?_, fun i => ?_, hissued⟩
        · have hroom := h.room i
          have hle := taken_filter_le s (fun b => !s.wholeTeam b) [b] i
          have hk' := hfits hall i
          rw [hone] at hle
          rw [List.filter_append, taken_append, hleft]
          omega
        · have hfull := h.full i
          have hk' := hfits hall i
          rw [taken_append, hone, hleft]
          omega
      · next hall =>
        refine ⟨hseen, h.kinds, h.room, h.full, fun c hc hsome => ?_⟩
        rcases List.mem_append.mp hc with hc | hc
        · simpa only [List.append_nil] using hpassed [] [{ b with waited := b.waited + 1 }] c hc hsome
        · obtain rfl := List.mem_singleton.mp hc
          obtain ⟨i, hi, hlt⟩ := hshort (Bool.eq_false_iff.mpr hall)
          have hfull := h.full i
          have hbefore : p.1.filter (fun d => s.before d c) = p.1 := List.filter_eq_self.mpr fun d hd => hb d (h.picked d hd).1
          refine .inr ⟨List.mem_append_right _ (List.mem_singleton_self _), i, hi, ?_⟩
          rw [hbefore, hslot]
          omega

theorem chosen_select (s : State) {l : List Bundle} (h : l.Pairwise (fun a b => s.before a b = true)) : s.Chosen l (s.select l issueSlots) := by
  rw [select_eq]
  induction l using List.reverseRecOn with
  | nil => exact ⟨by simp, rfl, fun i => by simp [State.taken], fun i => by simp [State.taken], by simp⟩
  | append_singleton l b ih =>
    obtain ⟨hl, -, hb⟩ := List.pairwise_append.mp h
    rw [List.foldl_append]
    exact State.Chosen.step (ih hl) fun c hc => hb c hc b (List.mem_singleton_self b)

/-- What a core issues and keeps in a cycle (R351). -/
theorem chosen_pool (s : State) (core : Nat) :
    s.Chosen (sortBy s.before (s.core core).pool) (s.select (sortBy s.before (s.core core).pool) issueSlots) :=
  chosen_select s (pairwise_sortBy (before_total s) (before_trans s) _)

theorem exec_issueSelection {s : State} {core : Nat} (h : s.withheld core = false) : exec (.issueSelection core) s
    = .next { s.modCore core (fun c => { c with pool := (s.select (sortBy s.before (s.core core).pool) issueSlots).2.1 }) with
        issue := s.issue ++ (s.select (sortBy s.before (s.core core).pool) issueSlots).1 } := by
  simp only [exec, execIssueSelection, h, Bool.false_eq_true, if_false]
  rfl

end Sys2Proof.Machine
end

section
/-! PROOFS. Bundler rounds (R344–R349). -/

namespace Sys2Proof.Machine

/-! ### A state without the times at convergence points

A bundler round changes of the teams only the times that threads have counted at a convergence point. What it looks at does not depend on
them. -/

def Thread.unconv (th : Thread) : Thread := { th with conv := 0 }

def Squad.unconv (q : Squad) : Squad := { q with threads := q.threads.map Thread.unconv }

def Team.unconv (t : Team) : Team := { t with body := { t.body with squads := t.body.squads.map Squad.unconv } }

def State.unconv (s : State) : State := { s with teams := s.teams.map Team.unconv }

theorem team?_unconv (s : State) (n : Nat) : s.unconv.team? n = (s.team? n).map Team.unconv := by
  simp only [State.team?, State.unconv, List.find?_map]
  rfl

theorem squad?_unconv (s : State) (n q : Nat) : s.unconv.squad? n q = (s.squad? n q).map Squad.unconv := by
  simp only [State.squad?, team?_unconv]
  cases s.team? n with
  | none => rfl
  | some t => exact List.getElem?_map

theorem thread?_unconv (s : State) (r : TRef) : s.unconv.thread? r = (s.thread? r).map Thread.unconv := by
  simp only [State.thread?, squad?_unconv]
  cases s.squad? r.team r.squad with
  | none => rfl
  | some q => exact List.getElem?_map

theorem threadsOf_unconv (s : State) (n : Nat) : s.unconv.threadsOf n = (s.threadsOf n).map (fun p => (p.1, p.2.unconv)) := by
  simp only [State.threadsOf, team?_unconv]
  cases s.team? n with
  | none => rfl
  | some t => simp [Team.unconv, Squad.unconv, List.zipIdx_map, Function.comp_def, List.map_flatten]

theorem liveThreads_unconv (s : State) (n : Nat) : (s.unconv.liveThreads n).map (·.1) = (s.liveThreads n).map (·.1) := by
  simp only [State.liveThreads, threadsOf_unconv, List.filter_map, List.map_map]
  rfl

theorem residents_unconv (s : State) (core : Nat) : s.unconv.residents core = s.residents core := by
  simp only [State.residents, liveThreads_unconv]
  simp only [State.unconv, List.filter_map, List.map_map]
  rfl

theorem exited_unconv (s : State) (r : TRef) : s.unconv.exited r = s.exited r := by
  simp only [State.exited, thread?_unconv]
  cases s.thread? r <;> rfl

theorem atPc_unconv (s : State) (r : TRef) (pc : Word) : s.unconv.atPc r pc = s.atPc r pc := by
  simp only [State.atPc, thread?_unconv, squad?_unconv, team?_unconv, Option.any_map]
  rfl

theorem pairOf_unconv (s : State) (r : TRef) : s.unconv.pairOf r = s.pairOf r := by
  simp only [State.pairOf, thread?_unconv, team?_unconv]
  cases s.team? r.team <;> cases s.thread? r <;> rfl

theorem gridWord_unconv (s : State) (n i : Nat) : s.unconv.gridWord n i = s.gridWord n i := by
  simp only [State.gridWord, team?_unconv]
  cases s.team? n <;> rfl

theorem coreOf_unconv (s : State) (n : Nat) : s.unconv.coreOf n = s.coreOf n := by
  simp only [State.coreOf, team?_unconv]
  cases s.team? n <;> rfl

theorem interlocked_unconv (s : State) (fm : Form) (o : Opnd) (x : Exec) : s.unconv.interlocked fm o x = s.interlocked fm o x := by
  simp only [State.interlocked, thread?_unconv, squad?_unconv, exited_unconv, Option.any_map]
  rfl

/-- A thread's time at a convergence point is counted, or begins again. -/
theorem modThread_conv_unconv (s : State) (r : TRef) {f : Thread → Thread} (h : ∀ th, (f th).unconv = th.unconv) :
    (s.modThread r f).unconv = s.unconv := by
  have hsquad : ∀ q : Squad, Squad.unconv { q with threads := modNth f q.threads r.lane } = q.unconv := fun q => by
    simp only [Squad.unconv, map_modNth Thread.unconv h]
  simp only [State.unconv, State.modThread, State.modSquad, State.modBody, State.modTeam, List.map_map]
  congr 1
  refine List.map_congr_left fun t _ => ?_
  simp only [Function.comp_apply]
  split
  · simp only [Team.unconv, map_modNth Squad.unconv hsquad]
  · rfl

/-! ### What a bundler round keeps -/

/-- `t` comes of `s` by steps of a bundler round of a core, whose overflow queue is then `o`: bundles of threads that stand together are
added to the core's pool, and pending steps; besides, only the core's tables and the times at convergence points change. -/
structure Rounded (core : Nat) (o : List TRef) (s t : State) : Prop where
  same : ({ t.unconv with cores := s.cores, agenda := s.agenda } : State) = s.unconv
  icache : ∀ k, (t.core k).icache = (s.core k).icache
  others : ∀ k, k ≠ core → (t.core k).pool = (s.core k).pool
  overflow : (t.core core).overflow = o
  kept : ∀ b ∈ (s.core core).pool, b ∈ (t.core core).pool
  fresh : ∀ b ∈ (t.core core).pool, b ∈ (s.core core).pool ∨ (b.core = core ∧ b.waited = 0 ∧ ∀ r ∈ b.threads, s.atPc r b.pc = true)
  agenda : ∀ i ∈ s.agenda, i ∈ t.agenda

/-- A round that leaves the overflow queue as it is. -/
abbrev Rounding (core : Nat) (s t : State) : Prop := Rounded core (s.core core).overflow s t

section
variable {core : Nat} {o : List TRef} {s t : State}

/-- What reads neither cores nor pending steps nor times at convergence points reads the same after a round. -/
theorem Rounded.reads {β : Type} (h : Rounded core o s t) (g : State → β) (hc : ∀ u, g u.unconv = g u)
    (hg : ∀ (u : State) c a, g { u with cores := c, agenda := a } = g u) : g t = g s := by
  rw [← hc t, ← hg t.unconv s.cores s.agenda, h.same, hc]

theorem Rounded.atPc (h : Rounded core o s t) (r : TRef) (pc : Word) : t.atPc r pc = s.atPc r pc :=
  h.reads (fun u => u.atPc r pc) (fun u => atPc_unconv u r pc) (fun _ _ _ => rfl)

theorem Rounded.pairOf (h : Rounded core o s t) (r : TRef) : t.pairOf r = s.pairOf r :=
  h.reads (fun u => u.pairOf r) (fun u => pairOf_unconv u r) (fun _ _ _ => rfl)

theorem Rounded.residents (h : Rounded core o s t) (k : Nat) : t.residents k = s.residents k :=
  h.reads (fun u => u.residents k) (fun u => residents_unconv u k) (fun _ _ _ => rfl)

theorem Rounded.gridWord (h : Rounded core o s t) (n i : Nat) : t.gridWord n i = s.gridWord n i :=
  h.reads (fun u => u.gridWord n i) (fun u => gridWord_unconv u n i) (fun _ _ _ => rfl)

theorem Rounded.asrecOf (h : Rounded core o s t) (n : Nat) : t.asrecOf n = s.asrecOf n := by rw [State.asrecOf, h.gridWord]; rfl

theorem Rounded.sysLevel (h : Rounded core o s t) (n : Nat) : t.sysLevel n = s.sysLevel n := by rw [State.sysLevel, h.gridWord]; rfl

theorem Rounded.instrAt (h : Rounded core o s t) (k n : Nat) (pc : Word) : t.instrAt k n pc = s.instrAt k n pc := by
  simp only [State.instrAt, State.fetch, h.icache, h.asrecOf, h.sysLevel]

theorem Rounded.interlocked (h : Rounded core o s t) (fm : Form) (op : Opnd) (x : Exec) : t.interlocked fm op x = s.interlocked fm op x :=
  h.reads (fun u => u.interlocked fm op x) (fun u => interlocked_unconv u fm op x) (fun _ _ _ => rfl)

theorem Rounded.issue (h : Rounded core o s t) : t.issue = s.issue := h.reads State.issue (fun _ => rfl) (fun _ _ _ => rfl)

/-- A thread that may issue may do so after a round, unless a bundle of the round holds it. -/
theorem Rounded.present (h : Rounded core o s t) {i : Instr} {pc : Word} {r : TRef} (hr : s.present i pc r = true) :
    t.present i pc r = true ∨ ∃ b ∈ (t.core core).pool, r ∈ b.threads ∧ b.pc = pc ∧ b.core = core := by
  simp only [State.present, Bool.and_eq_true, Bool.not_eq_true', h.atPc, h.interlocked] at hr ⊢
  obtain ⟨⟨hat, hfree⟩, hlock⟩ := hr
  refine or_iff_not_imp_right.mpr fun hnone => ⟨⟨hat, ?_⟩, hlock⟩
  have hcore : t.coreOf r.team = s.coreOf r.team := h.reads (fun u => u.coreOf r.team) (fun u => coreOf_unconv u r.team) (fun _ _ _ => rfl)
  simp only [State.bundled, Bool.or_eq_false_iff, List.any_eq_false, h.issue, hcore] at hfree ⊢
  refine ⟨fun b hb hin => ?_, hfree.2⟩
  by_cases hk : s.coreOf r.team = core
  · rw [hk] at hb hfree
    rcases h.fresh b hb with hold | ⟨hbc, -, hat'⟩
    · exact hfree.1 b hold hin
    · have hin' : r ∈ b.threads := List.contains_iff_mem.mp hin
      have hpc : b.pc = pc := by
        have h1 := hat' r hin'
        simp only [State.atPc, Bool.and_eq_true, Option.any_eq_true] at h1 hat
        obtain ⟨⟨⟨th, hth, hrun⟩, -⟩, -⟩ := h1
        obtain ⟨⟨⟨th', hth', hrun'⟩, -⟩, -⟩ := hat
        obtain rfl : th = th' := Option.some.inj (hth.symm.trans hth')
        simp only [beq_iff_eq] at hrun hrun'
        exact hrun.2.symm.trans hrun'.2
      exact hnone ⟨b, hb, hin', hpc, hbc⟩
  · rw [h.others _ hk] at hb
    exact hfree.1 b hb hin

theorem Rounded.refl (core : Nat) (s : State) : Rounding core s s :=
  ⟨rfl, fun _ => rfl, fun _ _ => rfl, rfl, fun _ h => h, fun _ h => .inl h, fun _ h => h⟩

theorem Rounded.trans {o' : List TRef} {u : State} (h : Rounded core o s t) (h' : Rounded core o' t u) : Rounded core o' s u where
  same := by
    have h1 := congrArg (fun v : State => ({ v with cores := s.cores, agenda := s.agenda } : State)) h'.same
    exact h1.trans h.same
  icache k := (h'.icache k).trans (h.icache k)
  others k hk := (h'.others k hk).trans (h.others k hk)
  overflow := h'.overflow
  kept b hb := h'.kept b (h.kept b hb)
  fresh b hb := by
    rcases h'.fresh b hb with hold | ⟨hc, hw, hat⟩
    · exact h.fresh b hold
    · exact .inr ⟨hc, hw, fun r hr => (h.atPc r b.pc).symm.trans (hat r hr)⟩
  agenda i hi := h'.agenda i (h.agenda i hi)

theorem Rounding.trans {u : State} (h : Rounding core s t) (h' : Rounding core t u) : Rounding core s u := by
  have h1 : Rounded core (t.core core).overflow s u := Rounded.trans h h'
  rwa [h.overflow] at h1

/-- A fold whose steps are steps of a round is one. -/
theorem Rounding.foldl {α : Type} {f : State → α → State} (l : List α) (s : State)
    (h : ∀ u, Rounding core s u → ∀ a ∈ l, Rounding core u (f u a)) : Rounding core s (l.foldl f s) :=
  List.foldlRecOn (motive := fun u : State => Rounding core s u) l f (Rounded.refl core s) fun u hu a ha => Rounding.trans hu (h u hu a ha)

end

/-! ### The steps of a round -/

theorem rounding_laterOnce (core : Nat) (s : State) (i : Instr) : Rounding core s (s.laterOnce i) where
  same := by unfold State.laterOnce; split <;> rfl
  icache k := by rw [State.laterOnce_core]
  others k _ := by rw [State.laterOnce_core]
  overflow := by rw [State.laterOnce_core]
  kept b hb := by rwa [State.laterOnce_core]
  fresh b hb := by rw [State.laterOnce_core] at hb; exact .inl hb
  agenda j hj := by
    unfold State.laterOnce
    split
    · exact hj
    · exact List.mem_append_left _ hj

theorem rounding_count (core : Nat) (s : State) (r : TRef) {f : Thread → Thread} (h : ∀ th, (f th).unconv = th.unconv) :
    Rounding core s (s.modThread r f) where
  same := by rw [modThread_conv_unconv s r h]; rfl
  icache _ := rfl
  others _ _ := rfl
  overflow := rfl
  kept _ hb := hb
  fresh _ hb := .inl hb
  agenda _ hj := hj

/-- A core's tables change. -/
theorem rounded_tables (core : Nat) (s : State) (p : List (Nat × Word)) (o : List TRef) :
    Rounded core o s (s.modCore core (fun c => { c with pct := p, overflow := o })) := by
  have hcore : ∀ k, (s.modCore core (fun c => { c with pct := p, overflow := o })).core k
      = if k = core then { s.core core with pct := p, overflow := o } else s.core k := fun k => by rw [core_modCore]; exact fun _ => rfl
  have hself := hcore core
  rw [if_pos rfl] at hself
  refine ⟨rfl, fun k => ?_, fun k hk => ?_, ?_, fun b hb => ?_, fun b hb => ?_, fun _ hi => hi⟩
  · rw [hcore]; split
    · next hk => rw [hk]
    · rfl
  · rw [hcore, if_neg hk]
  · rw [hself]
  · rw [hself]; exact hb
  · rw [hself] at hb; exact .inl hb

theorem rounded_queue (core : Nat) (s : State) (o : List TRef) : Rounded core o s (s.modCore core (fun c => { c with overflow := o })) :=
  rounded_tables core s (s.core core).pct o

/-- A bundle of threads that stand together enters the pool. -/
theorem rounding_enter {core : Nat} {s : State} {b : Bundle} (hc : b.core = core) (hw : b.waited = 0) (hat : ∀ r ∈ b.threads, s.atPc r b.pc = true) :
    Rounding core s (s.modCore core (fun c => { c with pool := c.pool ++ [b] })) := by
  have hcore : ∀ k, (s.modCore core (fun c => { c with pool := c.pool ++ [b] })).core k
      = if k = core then { s.core core with pool := (s.core core).pool ++ [b] } else s.core k := fun k => by rw [core_modCore]; exact fun _ => rfl
  have hself := hcore core
  rw [if_pos rfl] at hself
  refine ⟨rfl, fun k => ?_, fun k hk => ?_, ?_, fun x hx => ?_, fun x hx => ?_, fun _ hi => hi⟩
  · rw [hcore]; split
    · next hk => rw [hk]
    · rfl
  · rw [hcore, if_neg hk]
  · rw [hself]
  · rw [hself]; exact List.mem_append_left _ hx
  · rw [hself] at hx
    rcases List.mem_append.mp hx with hx | hx
    · exact .inl hx
    · rw [List.mem_singleton.mp hx]
      exact .inr ⟨hc, hw, hat⟩

theorem rounding_pool {core : Nat} {s : State} {ts : List TRef} {pc : Word} (h : Option Nat) (hat : ∀ r ∈ ts, s.atPc r pc = true) :
    Rounding core s (s.pool core ts pc h) := rounding_enter rfl rfl hat

/-- The bundle stands in the pool that it enters. -/
theorem mem_pool (s : State) (core : Nat) (ts : List TRef) (pc : Word) (h : Option Nat) :
    { core := core, threads := ts, pc := pc, handler := h, waited := 0 } ∈ ((s.pool core ts pc h).core core).pool := by
  rw [State.pool, core_modCore]
  · simp
  · exact fun _ => rfl

theorem rounding_pools {core : Nat} {s : State} {pc : Word} (l : List (List TRef)) (hat : ∀ ts ∈ l, ∀ r ∈ ts, s.atPc r pc = true) :
    Rounding core s (l.foldl (fun s b => s.pool core b pc none) s) :=
  Rounding.foldl l s fun _ hu ts hts => rounding_pool none fun r hr => (hu.atPc r pc).trans (hat ts hts r hr)

/-- Of bundles that enter the pool each stands there. -/
theorem mem_pools {core : Nat} {s : State} {pc : Word} {l : List (List TRef)} (hat : ∀ ts ∈ l, ∀ r ∈ ts, s.atPc r pc = true) {ts : List TRef} (hts : ts ∈ l) :
    { core := core, threads := ts, pc := pc, handler := none, waited := 0 } ∈ ((l.foldl (fun s b => s.pool core b pc none) s).core core).pool := by
  obtain ⟨l1, l2, rfl⟩ := List.append_of_mem hts
  rw [List.foldl_append, List.foldl_cons]
  have h1 : Rounding core s (l1.foldl (fun s b => s.pool core b pc none) s) :=
    rounding_pools l1 fun us hus => hat us (List.mem_append_left _ hus)
  have h2 : Rounding core s ((l1.foldl (fun s b => s.pool core b pc none) s).pool core ts pc none) :=
    Rounding.trans h1 (rounding_pool none fun r hr => (h1.atPc r pc).trans (hat ts hts r hr))
  exact (rounding_pools l2 fun us hus r hr =>
    (h2.atPc r pc).trans (hat us (List.mem_append_right _ (List.mem_cons_of_mem _ hus)) r hr)).kept _ (mem_pool _ core ts pc none)

theorem rounding_countScope (core : Nat) (s : State) (pc : Word) (here away : List TRef) : Rounding core s (s.countScope core pc here away) := by
  simp only [State.countScope]
  split
  · exact Rounded.refl core s
  · have hcount : Rounding core s (here.foldl (fun s t => s.modThread t (fun th => { th with conv := th.conv + 3 })) s) :=
      Rounding.foldl here s fun _ _ r _ => rounding_count core _ r fun _ => rfl
    split
    · split
      · exact Rounding.trans hcount (rounding_laterOnce core _ _)
      · exact hcount
    · exact hcount

/-! ### The threads of one entry -/

theorem length_insertBy {α : Type} (le : α → α → Bool) (a : α) (l : List α) : (insertBy le a l).length = l.length + 1 := by
  induction l with
  | nil => rfl
  | cons b t ih =>
    simp only [insertBy]
    split
    · rw [List.length_cons, ih, List.length_cons]
    · rfl

theorem length_sortBy {α : Type} (le : α → α → Bool) (l : List α) : (sortBy le l).length = l.length := by
  have hfold : ∀ acc : List α, (l.foldl (fun acc a => insertBy le a acc) acc).length = acc.length + l.length := by
    induction l with
    | nil => exact fun _ => rfl
    | cons b t ih => intro acc; rw [List.foldl_cons, ih, length_insertBy, List.length_cons]; omega
  exact (hfold []).trans (Nat.zero_add _)

/-- The bundles of an entry hold threads of it. -/
theorem mem_of_laneBundles {fuel : Nat} {l ts : List TRef} (h : ts ∈ laneBundles fuel l) {r : TRef} (hr : r ∈ ts) : r ∈ l := by
  induction fuel generalizing l with
  | zero => cases h
  | succ fuel ih =>
    simp only [laneBundles] at h
    split at h
    · cases h
    · rcases List.mem_cons.mp h with rfl | h
      · obtain ⟨k, -, hk⟩ := List.mem_filterMap.mp hr
        exact List.mem_of_find?_eq_some hk
      · exact (List.mem_filter.mp (ih h)).1

/-- Each thread of an entry is in a bundle of it (R345). -/
theorem mem_laneBundles {fuel : Nat} {l : List TRef} (hfuel : l.length ≤ fuel) {r : TRef} (hr : r ∈ l) (hlane : r.lane < 27) :
    ∃ ts ∈ laneBundles fuel l, r ∈ ts := by
  induction fuel generalizing l with
  | zero => rw [List.length_eq_zero_iff.mp (Nat.le_zero.mp hfuel)] at hr; cases hr
  | succ fuel ih =>
    simp only [laneBundles]
    rw [if_neg (by simpa using List.ne_nil_of_mem hr)]
    by_cases hnow : r ∈ (List.range 27).filterMap (fun k => l.find? (fun t => t.lane == k))
    · exact ⟨_, List.mem_cons_self, hnow⟩
    · -- the lane's first thread goes now, so fewer are left
      obtain ⟨u, hu⟩ : ∃ u, l.find? (fun t => t.lane == r.lane) = some u :=
        Option.isSome_iff_exists.mp (List.find?_isSome.mpr ⟨r, hr, beq_self_eq_true _⟩)
      have hgo : u ∈ (List.range 27).filterMap (fun k => l.find? (fun t => t.lane == k)) :=
        List.mem_filterMap.mpr ⟨r.lane, List.mem_range.mpr hlane, hu⟩
      have hless : (l.filter (fun t => !((List.range 27).filterMap (fun k => l.find? (fun t => t.lane == k))).contains t)).length < l.length :=
        List.length_filter_lt_length_iff_exists.mpr ⟨u, List.mem_of_find?_eq_some hu, by simpa using hgo⟩
      obtain ⟨ts, hts, hin⟩ := ih (Nat.lt_succ_iff.mp (hless.trans_le hfuel)) (List.mem_filter.mpr ⟨hr, by simpa using hnow⟩)
      exact ⟨ts, List.mem_cons_of_mem _ hts, hin⟩

theorem atPc_of_present {s : State} {i : Instr} {pc : Word} {r : TRef} (h : s.present i pc r = true) : s.atPc r pc = true :=
  (Bool.and_eq_true_iff.mp (Bool.and_eq_true_iff.mp h).1).1

theorem rounding_bundleEntry (core : Nat) (s : State) (pc : Word) (form : Bool) (ts : List TRef) :
    Rounding core s (s.bundleEntry core pc form ts) := by
  simp only [State.bundleEntry]
  split
  · exact Rounded.refl core s
  · split
    · exact rounding_laterOnce core s _
    · next i _ =>
      split
      · split
        · exact rounding_pools _ fun l hl r hr => by
            have hr' := mem_of_laneBundles hl hr
            rw [byNumber, mem_sortBy] at hr'
            exact atPc_of_present (List.mem_filter.mp hr').2
        · exact Rounded.refl core s
      · refine Rounding.foldl _ s fun u hu sc _ => ?_
        split
        · next hall =>
          split
          · refine rounding_pools _ fun l hl r hr => ?_
            simp only [squadBundles, List.mem_map, mem_distinct] at hl
            obtain ⟨q, -, rfl⟩ := hl
            have hsc : r ∈ sc := (List.mem_filter.mp hr).1
            have hhere : r ∈ ts.filter (s.present i pc) := by
              simpa using List.filter_eq_nil_iff.mp (List.isEmpty_iff.mp hall) r hsc
            exact (hu.atPc r pc).trans (atPc_of_present (List.mem_filter.mp hhere).2)
          · exact Rounded.refl core u
        · exact rounding_countScope core u pc _ _

/-- Threads that stand at one pair of a grid and a PC fetch one instruction. -/
theorem fetchOf_of_pairOf {s : State} {r u : TRef} {pc pc' : Word} (h : s.pairOf r = s.pairOf u) (hr : s.atPc r pc = true) (hu : s.atPc u pc' = true) (i : Nat) :
    s.gridWord r.team i = s.gridWord u.team i := by
  simp only [State.atPc, Bool.and_eq_true, Option.any_eq_true] at hr hu
  obtain ⟨-, x, hx, -⟩ := hr
  obtain ⟨-, y, hy, -⟩ := hu
  have hgrid : x.grid = y.grid := by
    have := congrArg Prod.fst h
    simpa only [State.pairOf, hx, hy] using this
  simp only [State.gridWord, hx, hy, Option.bind_some, hgrid]

/-- A runnable thread of an entry whose instruction needs no convergence gets a bundle (R345). -/
theorem bundleEntry_bundles {core : Nat} {s : State} {pc : Word} {ts : List TRef} {r : TRef} {i : Instr} (hpair : ∀ u ∈ ts, s.pairOf u = s.pairOf r)
    (hr : r ∈ ts) (hlane : r.lane < 27) (hi : s.instrAt core r.team pc = some i) (hsc : i.scope = .none) (hpres : s.present i pc r = true) :
    ∃ b ∈ ((s.bundleEntry core pc true ts).core core).pool, r ∈ b.threads ∧ b.pc = pc ∧ b.core = core := by
  have hat := atPc_of_present hpres
  obtain ⟨t0, ht0⟩ : ∃ t0, ts.find? (fun t => s.atPc t pc) = some t0 :=
    Option.isSome_iff_exists.mp (List.find?_isSome.mpr ⟨r, hr, hat⟩)
  have hword := fetchOf_of_pairOf (hpair t0 (List.mem_of_find?_eq_some ht0)) (List.find?_some (p := fun u => s.atPc u pc) ht0) hat
  have hi0 : s.instrAt core t0.team pc = some i := by
    simpa only [State.instrAt, State.asrecOf, State.sysLevel, hword] using hi
  have hhere : r ∈ byNumber (ts.filter (s.present i pc)) := by
    rw [byNumber, mem_sortBy]
    exact List.mem_filter.mpr ⟨hr, hpres⟩
  have hlen : (byNumber (ts.filter (s.present i pc))).length ≤ (ts.filter (s.present i pc)).length := (length_sortBy _ _).le
  obtain ⟨l, hl, hrl⟩ := mem_laneBundles hlen hhere hlane
  simp only [State.bundleEntry, ht0, hi0, hsc, if_true]
  refine ⟨_, mem_pools (fun l hl u hu => ?_) hl, hrl, rfl, rfl⟩
  have hu' := mem_of_laneBundles hl hu
  rw [byNumber, mem_sortBy] at hu'
  exact atPc_of_present (List.mem_filter.mp hu').2

/-- Where the core lacks the instruction of an entry, it asks for it (R157). -/
theorem bundleEntry_asks {core : Nat} {s : State} {pc : Word} {ts : List TRef} {r : TRef} (form : Bool) (hpair : ∀ u ∈ ts, s.pairOf u = s.pairOf r)
    (hr : r ∈ ts) (hi : s.instrAt core r.team pc = none) (hat : s.atPc r pc = true) :
    .instructionFetchFill core (s.asrecOf r.team) (s.sysLevel r.team) (pc.num / 27) ∈ (s.bundleEntry core pc form ts).agenda := by
  obtain ⟨t0, ht0⟩ : ∃ t0, ts.find? (fun t => s.atPc t pc) = some t0 :=
    Option.isSome_iff_exists.mp (List.find?_isSome.mpr ⟨r, hr, hat⟩)
  have hword := fetchOf_of_pairOf (hpair t0 (List.mem_of_find?_eq_some ht0)) (List.find?_some (p := fun u => s.atPc u pc) ht0) hat
  have hi0 : s.instrAt core t0.team pc = none := by
    simpa only [State.instrAt, State.asrecOf, State.sysLevel, hword] using hi
  simp only [State.bundleEntry, ht0, hi0, State.wantBlock]
  rw [State.asrecOf, State.asrecOf, State.sysLevel, State.sysLevel, hword, hword]
  exact mem_laterOnce _ _

/-! ### The round -/

/-- The threads of a core's table entry that do not wait in its overflow queue. -/
def State.entryThreads (s : State) (core : Nat) (p : Nat × Word) : List TRef :=
  (s.residents core).filter (fun t => s.pairOf t == p && !(s.core core).overflow.contains t)

/-- The entries of a core's table form their bundles. -/
def State.tableRound (s : State) (core : Nat) : State :=
  (s.core core).pct.foldl (fun s p => s.bundleEntry core p.2 true (s.entryThreads core p)) s

/-- The threads of the overflow queue: the first forms its bundle, the others' times are counted (R346). -/
def State.queueRound (s : State) (core : Nat) : State :=
  match (s.core core).overflow with
  | [] => s
  | t :: rest =>
    let pc := (s.pairOf t).2
    let conv := (s.instrAt core t.team pc).any (fun (i : Instr) => i.scope != Scope.none)
    let at_ := fun (p : Nat × Word) => (t :: rest).filter (fun u => s.pairOf u == p)
    let s := (distinct (rest.map s.pairOf)).foldl (fun (s : State) p => if p = s.pairOf t then s else s.bundleEntry core p.2 false (at_ p)) s
    let s := s.bundleEntry core pc true (if conv then at_ (s.pairOf t) else [t])
    s.modCore core (fun c => { c with overflow := rest ++ [t] })

/-- The handlers and shadows of a core's teams form their bundles. -/
def State.handlerRound (s : State) (core : Nat) : State :=
  (s.teams.filter (fun (t : Team) => t.core == core)).foldl (fun s t => (s.bundleHandler core t).bundleShadows core t) s

theorem exec_bundlerRound (core : Nat) (s : State) :
    exec (.bundlerRound core) s = .next ((((s.retable core).tableRound core).queueRound core).handlerRound core) := rfl

/-- A core's tables brought up to date keep an entry that a thread holds, and its threads queue no more (R344, R346). -/
theorem retable_keeps {s : State} {core : Nat} {r : TRef} (hr : r ∈ s.residents core) (hp : s.pairOf r ∈ (s.core core).pct) :
    s.pairOf r ∈ ((s.retable core).core core).pct ∧ r ∉ ((s.retable core).core core).overflow := by
  simp only [State.retable]
  rw [core_modCore]
  swap
  · exact fun _ => rfl
  rw [if_pos rfl]
  refine List.foldlRecOn (motive := fun p : List (Nat × Word) × List TRef => s.pairOf r ∈ p.1 ∧ r ∉ p.2) _ _ ⟨?_, List.not_mem_nil⟩ ?_
  · exact List.mem_filter.mpr ⟨hp, List.any_eq_true.mpr ⟨r, hr, beq_self_eq_true _⟩⟩
  · rintro p ⟨hin, hout⟩ t -
    split
    · exact ⟨hin, hout⟩
    · next hnot =>
      split
      · exact ⟨List.mem_append_left _ hin, hout⟩
      · refine ⟨hin, fun hmem => ?_⟩
        rcases List.mem_append.mp hmem with hmem | hmem
        · exact hout hmem
        · rw [← List.mem_singleton.mp hmem] at hnot
          exact hnot (List.contains_iff_mem.mpr hin)

theorem rounded_retable (core : Nat) (s : State) : ∃ o, Rounded core o s (s.retable core) := ⟨_, rounded_tables core s _ _⟩

theorem rounding_tableRound (core : Nat) (s : State) : Rounding core s (s.tableRound core) :=
  Rounding.foldl _ s fun u _ _ _ => rounding_bundleEntry core u _ _ _

theorem rounded_queueRound (core : Nat) (s : State) : ∃ o, Rounded core o s (s.queueRound core) := by
  simp only [State.queueRound]
  split
  · exact ⟨_, Rounded.refl core s⟩
  · next t rest _ =>
    refine ⟨_, Rounded.trans (Rounding.trans (Rounding.foldl _ s fun u _ p _ => ?_) (rounding_bundleEntry core _ _ _ _)) (rounded_queue core _ _)⟩
    split
    · exact Rounded.refl core u
    · exact rounding_bundleEntry core u _ _ _

theorem rounding_bundleHandler (core : Nat) (s : State) (t : Team) : Rounding core s (s.bundleHandler core t) := by
  simp only [State.bundleHandler]
  split
  · split
    · exact Rounded.refl core s
    · split
      · exact rounding_pool _ (fun r hr => nomatch hr)
      · exact rounding_laterOnce core s _
  · exact Rounded.refl core s

theorem rounding_bundleShadows (core : Nat) (s : State) (t : Team) : Rounding core s (s.bundleShadows core t) := by
  refine Rounding.foldl _ s fun u _ p _ => ?_
  simp only
  split
  · exact Rounded.refl core u
  · split
    · exact Rounded.refl core u
    · exact rounding_enter rfl rfl (fun r hr => nomatch hr)

theorem rounding_handlerRound (core : Nat) (s : State) : Rounding core s (s.handlerRound core) :=
  Rounding.foldl _ s fun u _ t _ => Rounding.trans (rounding_bundleHandler core u t) (rounding_bundleShadows core _ t)

section
variable {core : Nat} {s : State} {r : TRef}

/-- A thread that the core's table has an entry for, at its turn in the round of the table. -/
theorem mem_entryThreads (hr : r ∈ s.residents core) (ho : r ∉ (s.core core).overflow) {u : State} (hu : Rounding core s u) :
    r ∈ u.entryThreads core (s.pairOf r) ∧ ∀ t ∈ u.entryThreads core (s.pairOf r), u.pairOf t = u.pairOf r := by
  simp only [State.entryThreads, List.mem_filter, Bool.and_eq_true, beq_iff_eq, Bool.not_eq_true', hu.residents, hu.overflow, hu.pairOf,
    ← Bool.not_eq_true, List.contains_iff_mem]
  exact ⟨⟨hr, trivial, ho⟩, fun t ht => ht.2.1⟩

/-- What the turn of a table's entry adds stands after the round of the table. -/
theorem tableRound_turn {p : Nat × Word} (hp : p ∈ (s.core core).pct) :
    ∃ u, Rounding core s u ∧ Rounding core (u.bundleEntry core p.2 true (u.entryThreads core p)) (s.tableRound core) := by
  obtain ⟨l1, l2, hl⟩ := List.append_of_mem hp
  have hfold : ∀ (l : List (Nat × Word)) (v : State), Rounding core v (l.foldl (fun s p => s.bundleEntry core p.2 true (s.entryThreads core p)) v) :=
    fun l v => Rounding.foldl l v fun u _ _ _ => rounding_bundleEntry core u _ _ _
  refine ⟨_, hfold l1 s, ?_⟩
  rw [State.tableRound, hl, List.foldl_append, List.foldl_cons]
  exact hfold l2 _

theorem tableRound_bundles {i : Instr} (hr : r ∈ s.residents core) (hlane : r.lane < 27) (hp : s.pairOf r ∈ (s.core core).pct)
    (ho : r ∉ (s.core core).overflow) (hi : s.instrAt core r.team (s.pairOf r).2 = some i) (hsc : i.scope = .none)
    (hpres : s.present i (s.pairOf r).2 r = true) :
    ∃ b ∈ ((s.tableRound core).core core).pool, r ∈ b.threads ∧ b.pc = (s.pairOf r).2 ∧ b.core = core := by
  obtain ⟨u, hu, hrest⟩ := tableRound_turn hp
  obtain ⟨hmem, hpair⟩ := mem_entryThreads hr ho hu
  obtain ⟨b, hb, hthis⟩ : ∃ b ∈ ((u.bundleEntry core (s.pairOf r).2 true (u.entryThreads core (s.pairOf r))).core core).pool,
      r ∈ b.threads ∧ b.pc = (s.pairOf r).2 ∧ b.core = core := by
    rcases hu.present hpres with hpres' | ⟨b, hb, hthis⟩
    · exact bundleEntry_bundles hpair hmem hlane ((hu.instrAt core _ _).trans hi) hsc hpres'
    · exact ⟨b, (rounding_bundleEntry core u _ _ _).kept b hb, hthis⟩
  exact ⟨b, hrest.kept b hb, hthis⟩

theorem tableRound_asks (hr : r ∈ s.residents core) (hp : s.pairOf r ∈ (s.core core).pct)
    (ho : r ∉ (s.core core).overflow) (hi : s.instrAt core r.team (s.pairOf r).2 = none) (hat : s.atPc r (s.pairOf r).2 = true) :
    .instructionFetchFill core (s.asrecOf r.team) (s.sysLevel r.team) ((s.pairOf r).2.num / 27) ∈ (s.tableRound core).agenda := by
  obtain ⟨u, hu, hrest⟩ := tableRound_turn hp
  obtain ⟨hmem, hpair⟩ := mem_entryThreads hr ho hu
  have hasks := bundleEntry_asks true hpair hmem ((hu.instrAt core _ _).trans hi) ((hu.atPc r _).trans hat)
  rw [hu.asrecOf, hu.sysLevel] at hasks
  exact hrest.agenda _ hasks

end

/-! ### The convergence timeout (R349) -/

/-- The threads of an unconverged scope that are present trap with cause 15, and nothing else changes. -/
theorem exec_convergenceTimeout {s : State} {core : Nat} {r : TRef} {addr : Word} {i : Instr} (hi : s.instrAt core r.team addr = some i)
    (hsc : ((s.scopeOf i.scope (Instr.scopeGr i) r).filter (s.present i addr)).length ≠ (s.scopeOf i.scope (Instr.scopeGr i) r).length) :
    ∃ words, exec (.convergenceTimeout core r addr) s = .next
      ((((s.scopeOf i.scope (Instr.scopeGr i) r).filter (s.present i addr)).foldl (fun s u => s.modThread u (fun th => { th with conv := 0 })) s).raiseTraps
        (((s.scopeOf i.scope (Instr.scopeGr i) r).filter (s.present i addr)).map (fun u => (u, Trap.of 15 0 .zero))) addr words) :=
  ⟨(encode i).getD [], by simp only [exec, execConvergenceTimeout, hi, if_neg hsc]⟩

theorem foldl_unconv_thread? (l : List TRef) (s : State) (u : TRef) :
    (l.foldl (fun s u => s.modThread u (fun th => { th with conv := 0 })) s).thread? u
      = if u ∈ l then (s.thread? u).map (fun th => { th with conv := 0 }) else s.thread? u := by
  induction l generalizing s with
  | nil => simp
  | cons a l ih =>
    rw [List.foldl_cons, ih, thread?_modThread]
    by_cases hu : u = a
    · rw [if_pos hu, if_pos (List.mem_cons.mpr (.inl hu))]
      split
      · rw [Option.map_map]; rfl
      · rfl
    · rw [if_neg hu]
      simp [hu]

theorem convergenceTimeout_traps {s : State} {core : Nat} {r : TRef} {addr : Word} {i : Instr} {here : List TRef}
    (hi : s.instrAt core r.team addr = some i) (hhere : (s.scopeOf i.scope (Instr.scopeGr i) r).filter (s.present i addr) = here)
    (hsc : here.length ≠ (s.scopeOf i.scope (Instr.scopeGr i) r).length) :
    ∃ t, exec (.convergenceTimeout core r addr) s = .next t ∧ { t with teams := s.teams, agenda := s.agenda } = s
      ∧ (∀ u ∈ here, ∀ th, s.thread? u = some th → t.thread? u = some { th with run := .trapped, fault := .zero, conv := 0 })
      ∧ (∀ u, u ∉ here → t.thread? u = s.thread? u)
      ∧ ∀ u ∈ here, ∃ tm, t.team? u.team = some tm ∧ ∃ e ∈ tm.events, e.cause = 15 ∧ e.squad = u.squad ∧ u.lane ∈ e.lanes ∧ e.pc = addr := by
  obtain ⟨words, hexec⟩ := exec_convergenceTimeout (core := core) hi (hhere ▸ hsc)
  rw [hhere] at hexec
  have hthread := foldl_unconv_thread? here s
  have hrest : ∀ l a, ({ here.foldl (fun s u => s.modThread u (fun th => { th with conv := 0 })) s with teams := l, agenda := a } : State)
      = { s with teams := l, agenda := a } := fun l a =>
    foldl_keeps (fun u : State => ({ u with teams := l, agenda := a } : State)) (fun (s : State) (u : TRef) => s.modThread u (fun th => { th with conv := 0 }))
      (fun _ _ => rfl) here s
  have hraised := raise_ok (here.foldl (fun s u => s.modThread u (fun th => { th with conv := 0 })) s) here 15 0 addr words
  generalize here.foldl (fun s u => s.modThread u (fun th => { th with conv := 0 })) s = v at hexec hthread hrest hraised
  have hkey : ∀ u ∈ here, (u.team, u.squad, 15, 0) ∈ trapKeys (here.map (fun u => (u, Trap.of 15 0 .zero))) := fun u hu =>
    (mem_keys here 15 0 _).mpr ⟨u, hu, rfl⟩
  refine ⟨_, hexec, ?_, fun u hu th hth => ?_, fun u hu => ?_, fun u hu => ?_⟩
  · have h := congrArg (fun w : State => ({ w with teams := s.teams, agenda := s.agenda } : State)) hraised.rest
    exact h.trans (hrest s.teams s.agenda)
  · have hv := hthread u
    rw [if_pos hu, hth] at hv
    rw [hraised.thr u _ hv, if_pos ⟨hu, hkey u hu⟩]
  · have hv := hthread u
    rw [if_neg hu] at hv
    rw [← hv]
    cases hc : v.thread? u with
    | none => exact hraised.thn u hc
    | some th => rw [hraised.thr u th hc, if_neg fun h => hu h.1]
  · have hat : s.atPc u addr = true := atPc_of_present (List.mem_filter.mp (hhere ▸ hu)).2
    obtain ⟨th, hth⟩ : ∃ th, s.thread? u = some th := by
      simp only [State.atPc, Bool.and_eq_true, Option.any_eq_true] at hat
      obtain ⟨⟨⟨th, hth, -⟩, -⟩, -⟩ := hat
      exact ⟨th, hth⟩
    obtain ⟨tm, htm⟩ : ∃ tm, v.team? u.team = some tm := by
      have hv := hthread u
      rw [if_pos hu, hth] at hv
      cases hteam : v.team? u.team with
      | none => simp [State.thread?, State.squad?, hteam] at hv
      | some tm => exact ⟨tm, rfl⟩
    obtain ⟨tm', htm', -, hev⟩ := hraised.tm u.team tm htm
    refine ⟨tm', htm', _, (hev _).mpr (.inr ⟨_, hkey u hu, rfl, rfl⟩), rfl, rfl, ?_, rfl⟩
    exact List.mem_map.mpr ⟨u, List.mem_filter.mpr ⟨hu, by simp⟩, rfl⟩

/-- What a bundler round leaves of a team. -/
theorem Rounded.team {core : Nat} {o : List TRef} {s t : State} (h : Rounded core o s t) : ∀ x ∈ t.teams, ∃ y ∈ s.teams, x.num = y.num ∧ x.body.cab = y.body.cab
    ∧ x.body.squads.map (fun q => q.threads.map (·.regs)) = y.body.squads.map (fun q => q.threads.map (·.regs)) := fun x hx => by
  have hteams : t.teams.map Team.unconv = s.teams.map Team.unconv := congrArg State.teams h.same
  obtain ⟨y, hy, hxy⟩ := List.mem_map.mp (hteams ▸ List.mem_map_of_mem hx)
  have hregs : ∀ z : Team, z.unconv.body.squads.map (fun q => q.threads.map (·.regs)) = z.body.squads.map (fun q => q.threads.map (·.regs)) := fun z => by
    simp [Team.unconv, Squad.unconv, Thread.unconv, Function.comp_def]
  have hnum : y.unconv.num = x.unconv.num := congrArg Team.num hxy
  have hcab : y.unconv.body.cab = x.unconv.body.cab := congrArg (fun z : Team => z.body.cab) hxy
  exact ⟨y, hy, hnum.symm, hcab.symm, by rw [← hregs x, ← hxy, hregs y]⟩

/-- A whole round, and the round of the table in it. -/
theorem exec_bundlerRound_rounded (core : Nat) (s : State) : ∃ t o, exec (.bundlerRound core) s = .next t ∧ Rounded core o s t
    ∧ ∃ o', Rounded core o' ((s.retable core).tableRound core) t := by
  obtain ⟨o1, h1⟩ := rounded_retable core s
  have h2 := rounding_tableRound core (s.retable core)
  obtain ⟨o3, h3⟩ := rounded_queueRound core ((s.retable core).tableRound core)
  have h34 := Rounded.trans h3 (rounding_handlerRound core (((s.retable core).tableRound core).queueRound core))
  exact ⟨_, _, exec_bundlerRound core s, Rounded.trans (Rounded.trans h1 h2) h34, _, h34⟩

/-- Settles O37: the choice among the sorted pool, the round as steps that add bundles of threads that stand together, and the trap of the
threads present. -/
theorem scheduling : Obligations.Scheduling := by
  refine ⟨fun s core hopen => ?_, fun s core h => exec_issueSelection_withheld h, fun s core => ?_,
    fun s core r addr i here hi hhere hsc => convergenceTimeout_traps hi hhere hsc⟩
  · have hchosen := chosen_pool s core
    have hcore : ∀ (q : List Bundle) (l : List Bundle) k, ({ s.modCore core (fun c => { c with pool := q }) with issue := l } : State).core k
        = if k = core then { s.core core with pool := q } else s.core k := fun q l k =>
      core_modCore s core k (f := fun c => { c with pool := q }) fun _ => rfl
    refine ⟨_, _, exec_issueSelection hopen, rfl, fun b hb => ?_, fun i => ?_, fun b hb hsome => ?_, rfl, fun k hk => ?_, ?_⟩
    · obtain ⟨hmem, hslots⟩ := hchosen.picked b hb
      exact ⟨(mem_sortBy _ b _).mp hmem, hslots⟩
    · exact (Nat.le_add_right _ _).trans (hchosen.room i)
    · rw [hcore, if_pos rfl]
      exact hchosen.passed b ((mem_sortBy _ b _).mpr hb) hsome
    · rw [hcore, if_neg hk]
    · rw [hcore, if_pos rfl]
  · obtain ⟨t, o, hexec, hround, o', htable⟩ := exec_bundlerRound_rounded core s
    refine ⟨t, hexec, hround.issue, fun b hb => ?_, hround.team, ?_, ?_, ?_, ?_⟩
    · rcases hround.fresh b hb with hold | ⟨hc, hw, hat⟩
      · exact .inl hold
      · exact .inr ⟨hc, hw, fun r hr => (hround.atPc r b.pc).trans (hat r hr)⟩
    · exact hround.reads State.hbm (fun _ => rfl) (fun _ _ _ => rfl)
    · exact hround.reads State.vlines (fun _ => rfl) (fun _ _ _ => rfl)
    · exact hround.reads State.copies (fun _ => rfl) (fun _ _ _ => rfl)
    · rintro r pc hr hlane rfl hp - hat
      obtain ⟨o1, h1⟩ := rounded_retable core s
      obtain ⟨hp1, ho1⟩ := retable_keeps hr (List.contains_iff_mem.mp hp)
      have hr1 : r ∈ (s.retable core).residents core := by rw [h1.residents]; exact hr
      rw [← h1.pairOf] at hp1
      refine ⟨fun i hi hsc hpres => ?_, fun hi => ?_⟩
      · obtain ⟨b, hb, hthis⟩ : ∃ b ∈ (((s.retable core).tableRound core).core core).pool, r ∈ b.threads ∧ b.pc = (s.pairOf r).2 ∧ b.core = core := by
          rcases h1.present hpres with hpres1 | ⟨b, hb, hthis⟩
          · have hb := tableRound_bundles hr1 hlane hp1 ho1 (by rw [h1.instrAt, h1.pairOf]; exact hi) hsc (by rw [h1.pairOf]; exact hpres1)
            rwa [h1.pairOf] at hb
          · exact ⟨b, (rounding_tableRound core _).kept b hb, hthis⟩
        exact ⟨b, htable.kept b hb, hthis⟩
      · have hasks := tableRound_asks hr1 hp1 ho1 (by rw [h1.instrAt, h1.pairOf]; exact hi) (by rw [h1.atPc, h1.pairOf]; exact hat)
        rw [h1.asrecOf, h1.sysLevel, h1.pairOf] at hasks
        exact htable.agenda _ hasks

end Sys2Proof.Machine
end

section
/-! PROOFS. A partition reset leaves a grid that is killed already as it is (R447, R400). -/

namespace Sys2Proof.Machine

/-- A grid of partition 0 that is killed and yet counts a live team. -/
def killedGrid : Grid :=
  { num := 0, src := none, part := 0, node := [], nodeAddr := 0, next := 1, live := 1, err := true, killed := true, merging := false,
    deferred := [], prepared := [], unack := 0, told := false }

/-- The machine after reset, partition 0 running, with that grid alone. -/
def killedEarlier : State := { State.reset.setCwInt 21000 1 with grids := [killedGrid] }

/-- The live teams that the grids of a partition count after an instruction. -/
def liveAfter (i : Instr) (p : Nat) (s : State) : List Nat :=
  match exec i s with
  | .next t => (t.grids.filter (fun g => g.part == p)).map (·.live)
  | _ => []

/-- Refutes O52: a partition reset kills the grids of the partition that are not killed yet, and one that is it leaves as it stands. The
statement says of each that it counts no live team, and supposes nothing of those killed before. -/
theorem not_resetSteps : ¬ Obligations.ResetSteps := by
  intro h
  obtain ⟨t, hexec, -, -, -, hgrids, -⟩ := h.2.1 killedEarlier 0 (by decide +kernel) rfl (List.nodup_singleton _)
  have hlive : liveAfter (.partitionReset 0) 0 killedEarlier = [1] := by decide +kernel
  simp only [liveAfter, hexec] at hlive
  obtain ⟨g, hg, hone⟩ := List.mem_map.mp (hlive ▸ List.mem_singleton_self 1)
  obtain ⟨hmem, hpart⟩ := List.mem_filter.mp hg
  have hzero := (hgrids g hmem (beq_iff_eq.mp hpart)).2
  omega

end Sys2Proof.Machine
end

section
/-! PROOFS. A rollback that ends a lease, and with it the team's own grid (R392, R334, R400). -/

namespace Sys2Proof.Machine

/-- A line leased at its home, whose record is gone. A write of the merge of grid 0 waits there. -/
def leftLeased : VLine :=
  { slot := 0, st := .I, owner := 0, sharers := [], remote := false, vdirty := false, elig := false, pin := none, leased := true,
    line := zeroLine, flips := [], dgen := 0, txn := none,
    queue := [.hw { slot := 0, op := .words [(0, .zero)], src := .merge 0, elig := some false, va := .zero, pin := none }] }

/-- A team of grid 0 that can roll back. The frame of that line has been retired, and class 13 ends the context. -/
def leaseLeft : State :=
  let s := (State.reset.place []).modTeam 0 (fun t => { t with opened := some t.body, covered := true })
  (({ s with vlines := [leftLeased] } : State).setFrame 0 2).setCwInt 7303 (-1)

/-- Refutes O49: the rollback ends the leases whose records are gone, so that the requests at their lines are served. A merge's write that is
refused then raises class 13 for its grid, and where the action of that class ends the context, the team that rolls back is gone. -/
theorem not_mergeAndRollback : ¬ Obligations.MergeAndRollback := by
  intro h
  have hteam : (leaseLeft.team? 0).any (fun tm => tm.opened.isSome && !tm.handedOn && (leaseLeft.readPool tm).2 && tm.covered && !tm.irrevocable
      && decide (tm.rbHere < 3) && tm.pubs.isEmpty) = true := by decide +kernel
  simp only [Option.any_eq_true, Bool.and_eq_true, Bool.not_eq_true', decide_eq_true_eq, List.isEmpty_iff, Option.isSome_iff_exists] at hteam
  obtain ⟨tm, htm, ⟨⟨⟨⟨⟨⟨b, hopened⟩, hhanded⟩, hpool⟩, hcovered⟩, hirr⟩, hhere⟩, hpubs⟩ := hteam
  have hleases : (leaseLeft.threadsOf 0).all (fun p => p.2.leases.isEmpty) = true := by decide +kernel
  obtain ⟨t, tm', hexec, htm', -⟩ := h.2.1 leaseLeft 0 tm b htm hopened hhanded hpool hcovered hirr hhere hpubs
    (fun p hp => List.isEmpty_iff.mp (List.all_eq_true.mp hleases p hp))
  have hafter : teamAfter (.rollback 0) 0 leaseLeft = some tm' := by rw [teamAfter, hexec]; exact htm'
  have hgone : teamAfter (.rollback 0) 0 leaseLeft = none := by decide +kernel
  exact absurd (hgone.symm.trans hafter) (Option.some_ne_none tm').symm

end Sys2Proof.Machine
end

section
/-! PROOFS. Graphs: release, the kinds of nodes, completion and re-arming (R354–R361). -/

namespace Sys2Proof.Machine

/-! ### What the walker's reads keep -/

/-- The words of device scope and the graph slots. -/
def State.graphView (s : State) : List (Nat × Word) × List Graph := (s.ctl, s.graphs)

theorem graphView_roomVault {s t : State} {slot : Nat} (h : s.roomVault slot = some t) : t.graphView = s.graphView := by
  simp only [State.roomVault] at h
  split at h
  · cases h; rfl
  · split at h
    · cases h
    · split at h
      · cases h
        simp [State.graphView]
      · cases h

theorem graphView_ensure {s t : State} {slot : Nat} {pin : Option (Nat × Nat)} {v : VLine} (h : s.ensure slot pin = some (t, v)) :
    t.graphView = s.graphView := by
  simp only [State.ensure] at h
  split at h
  · next u _ =>
    have ht : (s.checkVl u).1 = t := congrArg Prod.fst (Option.some.inj h)
    rw [← ht]
    simp [State.graphView]
  · obtain ⟨r, hr, hput⟩ := Option.map_eq_some_iff.mp h
    have ht := congrArg Prod.fst hput
    simp only at ht
    rw [← ht, ← graphView_roomVault hr]
    split <;> simp [State.graphView]

theorem graphView_homeRead {s t : State} {slot : Nat} {pin : Option (Nat × Nat)} {l : Line} (h : s.homeRead slot pin = some (t, l)) :
    t.graphView = s.graphView := by
  simp only [State.homeRead] at h
  split at h
  · cases h
    simp [State.graphView]
  · split at h
    · cases h
    · split at h
      · cases h
      · next u v hu =>
        cases h
        rw [← graphView_ensure hu]
        simp [State.graphView]

theorem graphView_sawLine (s : State) (slot : Nat) : (s.sawLine slot).graphView = s.graphView := by
  simp only [State.sawLine]
  split
  · rfl
  · simp [State.graphView]

theorem graphView_walkerRead {s t : State} {slot : Nat} {l : Option (List Word)} (h : s.walkerRead slot = (t, l)) : t.graphView = s.graphView := by
  obtain rfl : (s.walkerRead slot).1 = t := congrArg Prod.fst h
  simp only [State.walkerRead]
  split
  · simp [State.graphView]
  · split
    · rfl
    · cases hread : s.homeRead slot with
      | none => exact graphView_sawLine s slot
      | some p => exact graphView_homeRead hread

section
variable {s t : State}

theorem graph?_of_graphView (h : t.graphView = s.graphView) (g : Nat) : t.graph? g = s.graph? g := by
  have hg : t.graphs = s.graphs := congrArg Prod.snd h
  rw [State.graph?, hg, State.graph?]

theorem cwInt_of_graphView (h : t.graphView = s.graphView) (k : Nat) : t.cwInt k = s.cwInt k := by
  rw [State.cwInt, cw_of_ctl (congrArg Prod.fst h), State.cwInt]

end

/-! ### Graph slots -/

theorem graph?_modGraph (s : State) (g : Nat) {f : Graph → Graph} (hf : ∀ x, (f x).slot = x.slot) :
    (s.modGraph g f).graph? g = (s.graph? g).map f := by
  simp only [State.graph?, State.modGraph]
  induction s.graphs with
  | nil => rfl
  | cons x l ih =>
    rw [List.map_cons, List.find?_cons, List.find?_cons, ih]
    by_cases hx : x.slot = g
    · simp [hx, hf]
    · have hne : (x.slot == g) = false := by simpa using hx
      simp only [hx, if_false, hne]

theorem modGraph_modGraph (s : State) (g : Nat) {f f' : Graph → Graph} (hf : ∀ x, (f x).slot = x.slot) :
    (s.modGraph g f).modGraph g f' = s.modGraph g (fun x => f' (f x)) := by
  simp only [State.modGraph, List.map_map]
  congr 1
  refine List.map_congr_left fun x _ => ?_
  by_cases hx : x.slot = g
  · simp [hx, hf]
  · simp [hx]

/-- A node that may be released is released with the words that the walker reads (R359). -/
theorem releaseNode_released {s s1 : State} {g i : Nat} {x : Graph} {l : List Word} (hx : s.graph? g = some x) (hstate : s.graphState g = 1)
    (hend : x.ending = false) (hrun : i ∉ x.running) (hread : s.walkerRead (s.nodeAddr g i / 81) = (s1, some l))
    (hok : nodeOk (s.cwInt (730 + 3 * g)) l = true) : s.releaseNode g i = s1.released g i l := by
  have hcw := cwInt_of_graphView (graphView_walkerRead hread) (730 + 3 * g)
  simp only [State.releaseNode, hx, hstate, hend, hread]
  rw [if_neg (by simp), if_neg (by simpa using hrun), hcw, hok]
  rfl

/-! ### Arming -/

theorem graph?_armed (s : State) (g : Nat) : ∃ x, (s.armed g).graph? g = some x ∧ x.ending = false
    ∧ x.running = ((s.graph? g).map (·.running)).getD [] := by
  have hslot : ((s.graph? g).getD { slot := g, counts := [], running := [], pending := [], ending := false, work := [], watch := [] }).slot = g := by
    cases hg : s.graph? g with
    | none => rfl
    | some y => exact beq_iff_eq.mp (List.find?_some (p := fun y : Graph => y.slot == g) hg)
  have hfind : ∀ y : Graph, y.slot = g →
      (insertBy (fun a b => decide (a.slot ≤ b.slot)) y (s.graphs.filter (fun y => y.slot != g))).find? (fun y => y.slot == g) = some y := fun y hy => by
    rw [find_insertBy, if_pos (beq_iff_eq.mpr hy)]
    intro b hb hslot'
    simp [beq_iff_eq.mp hslot'] at hb
  refine ⟨{ (s.graph? g).getD { slot := g, counts := [], running := [], pending := [], ending := false, work := [], watch := [] } with
    counts := [], pending := [], ending := false,
    old := ((s.graph? g).getD { slot := g, counts := [], running := [], pending := [], ending := false, work := [], watch := [] }).running },
    hfind _ hslot, rfl, ?_⟩
  cases s.graph? g <;> rfl

theorem cwInt_armed (s : State) (g k : Nat) : (s.armed g).cwInt k = if k = 731 + 3 * g then 1 else s.cwInt k := by
  have hcw : (s.armed g).cw k = (s.setCwInt (731 + 3 * g) 1).cw k := rfl
  rw [State.cwInt, hcw, cw_setCwInt]
  split
  · decide
  · rfl

/-- A graph slot that is armed reads its two words and releases node 0, or faults (R354). -/
theorem armGraph_eq {s : State} {g : Nat} (h : s.graphState g ≠ 1) : s.armGraph g =
    if s.cwInt (729 + 3 * g) < 0 ∨ s.cwInt (729 + 3 * g) % 81 ≠ 0 ∨ s.cwInt (730 + 3 * g) < 1 ∨ 6561 < s.cwInt (730 + 3 * g)
    then (s.armed g).faultGraph g (-1) else (s.armed g).releaseNode g 0 := by
  have h729 := cwInt_armed s g (729 + 3 * g)
  have h730 := cwInt_armed s g (730 + 3 * g)
  rw [if_neg (by omega)] at h729 h730
  rw [← h729, ← h730]
  simp only [State.armGraph, if_neg h]
  rfl

theorem exec_graphArm {s : State} {slot : Nat} (hr : s.ready = true) (hs : slot < 27) : exec (.graphArm slot) s = .next (s.armGraph slot) := by
  simp only [exec, execGraphArm, State.whenReady, hr, if_true, if_pos hs]

theorem exec_graphEmpty {s : State} {slot : Nat} (hr : s.ready = true) (hs : slot < 27) :
    exec (.graphEmpty slot) s = .next (s.emptyGraph slot) := by
  simp only [exec, execGraphEmpty, State.whenReady, hr, if_true, if_pos hs]

/-- Arming releases node 0 of a graph whose words are in their ranges (R354). -/
theorem graphArm_released {s s1 : State} {slot : Nat} {l : List Word} (hs : slot < 27) (hr : s.ready = true) (hidle : s.graphState slot ≠ 1)
    (hbase : 0 ≤ s.cwInt (729 + 3 * slot)) (halign : s.cwInt (729 + 3 * slot) % 81 = 0) (hlow : 1 ≤ s.cwInt (730 + 3 * slot))
    (hhigh : s.cwInt (730 + 3 * slot) ≤ 6561) (hnode : ∀ g, s.graph? slot = some g → 0 ∉ g.running)
    (hread : (s.armed slot).walkerRead (s.nodeAddr slot 0 / 81) = (s1, some l)) (hok : nodeOk (s.cwInt (730 + 3 * slot)) l = true) :
    exec (.graphArm slot) s = .next (s1.released slot 0 l) ∧ (s1.released slot 0 l).graphState slot = 1 := by
  have hstate : (s.armed slot).graphState slot = 1 := by rw [State.graphState, cwInt_armed, if_pos rfl]
  have haddr : (s.armed slot).nodeAddr slot 0 = s.nodeAddr slot 0 := by
    rw [State.nodeAddr, State.nodeAddr, cwInt_armed, if_neg (by omega)]
  obtain ⟨x, hx, hend, hrun⟩ := graph?_armed s slot
  have hzero : 0 ∉ x.running := by
    rw [hrun]
    cases hg : s.graph? slot with
    | none => exact List.not_mem_nil
    | some g => exact hnode g hg
  refine ⟨?_, ?_⟩
  · rw [exec_graphArm hr hs, armGraph_eq hidle, if_neg (by omega),
      releaseNode_released hx hstate hend hzero (by rw [haddr]; exact hread) (by rw [cwInt_armed, if_neg (by omega)]; exact hok)]
  · have hs1 : (s1.released slot 0 l).graphState slot = s1.graphState slot := rfl
    rw [hs1, State.graphState, cwInt_of_graphView (graphView_walkerRead hread)]
    exact hstate

theorem graphArm_faults {s : State} {slot : Nat} (hs : slot < 27) (hr : s.ready = true) (hidle : s.graphState slot ≠ 1)
    (halign : s.cwInt (729 + 3 * slot) % 81 ≠ 0) : ∃ t, exec (.graphArm slot) s = .next t ∧ t.graphState slot = -1 := by
  refine ⟨_, exec_graphArm hr hs, ?_⟩
  rw [armGraph_eq hidle, if_pos (.inr (.inl halign))]
  exact graphState_faultGraph _ _ _

theorem graphEmpty_does {s : State} {slot : Nat} (hs : slot < 27) (hr : s.ready = true) :
    ∃ t, exec (.graphEmpty slot) s = .next t ∧ t.graphState slot = 0 ∧ { t with ctl := s.ctl, graphs := s.graphs } = s
      ∧ t.graph? slot = (s.graph? slot).map (fun (g : Graph) => { g with counts := [], pending := [], ending := false, old := g.running }) := by
  refine ⟨_, exec_graphEmpty hr hs, ?_, rfl, ?_⟩
  · have hcw : (s.emptyGraph slot).graphState slot = (s.setCwInt (731 + 3 * slot) 0).cwInt (731 + 3 * slot) := rfl
    rw [hcw, State.cwInt, cw_setCwInt, if_pos rfl]
    decide
  · exact graph?_modGraph (s.setCwInt (731 + 3 * slot) 0) slot fun _ => rfl

/-! ### The kinds of nodes -/

section
variable {s : State} {slot node : Nat} {l : List Word}

/-- A node's step takes place where the node runs and is of its kind (R358). -/
theorem asNode_runs {k : Int} (hrun : s.nodeRuns slot node = true) (hl : s.nodeWords slot node = l) (hk : intAt l 0 = k) (f : List Word → State) :
    s.asNode slot node k f = .next (f l) := by
  simp only [State.asNode, hrun, hl, hk, beq_self_eq_true, Bool.and_self, if_true]

theorem gridNode_does (hrun : s.nodeRuns slot node = true) (hl : s.nodeWords slot node = l) (hk : intAt l 0 = 1)
    (hnone : s.grids.find? (fun (g : Grid) => g.src == some (slot, node)) = none) :
    ∃ t g, exec (.gridNode slot node) s = .next t ∧ t.grids = s.grids ++ [g] ∧ g.num = s.ngrid ∧ g.src = some (slot, node)
      ∧ g.part = s.partOfSlot slot ∧ g.node = l ∧ g.next = 0 ∧ g.live = 0 ∧ .teamPlacement s.ngrid ∈ t.agenda := by
  have hexec : exec (.gridNode slot node) s = execGridNode slot node s := rfl
  simp only [execGridNode, asNode_runs hrun hl hk, hnone] at hexec
  exact ⟨_, _, hexec, rfl, rfl, rfl, rfl, rfl, rfl, rfl, List.mem_append_right _ (List.mem_singleton_self _)⟩

/-- Lines are copied one after another through the states `at_`, each read and then written (R358). -/
theorem copyLines_done {c : Ctx} {src dst n : Nat} {at_ read : Nat → State} {w : Nat → List Word} {done : Nat} (hdone : done ≤ n)
    (hline : ∀ i, done ≤ i → i < n → (at_ i).nodeReadLine c (.ofNum (src + 81 * i)) = (read i, .ok (w i))
      ∧ ∃ u, (read i).nodeWrite c (.ofNum (dst + 81 * i)) ((List.range 27).zip (w i)) = (u, .ok ()) ∧ at_ (i + 1) = u.setNodeWork slot node (i + 1) false) :
    State.copyLines c slot node src dst (n - done) done (at_ done) = (at_ n, .ok ()) := by
  obtain ⟨k, rfl⟩ := Nat.exists_eq_add_of_le hdone
  rw [Nat.add_sub_cancel_left]
  induction k generalizing done with
  | zero => rfl
  | succ k ih =>
    obtain ⟨hread, u, hwrite, hnext⟩ := hline done le_rfl (by omega)
    have hrest := ih (done := done + 1) (by omega) (fun i hi hn => hline i (by omega) (by omega))
    rw [show done + 1 + k = done + (k + 1) by omega] at hrest
    simp only [State.copyLines, hread, hwrite, ← hnext]
    exact hrest

theorem copyNode_does (hrun : s.nodeRuns slot node = true) (hl : s.nodeWords slot node = l) (hk : intAt l 0 = 2) {n : Nat} {c : Ctx}
    {at_ read : Nat → State} {w : Nat → List Word} (hn : intAt l 7 = n) (hc : c = s.nodeCtx slot (intAt l 8)) (hdone : (s.nodeWork slot node).1 ≤ n)
    (hstart : at_ (s.nodeWork slot node).1 = s)
    (hline : ∀ i, (s.nodeWork slot node).1 ≤ i → i < n → (at_ i).nodeReadLine c (.ofNum ((wordAt l 5).num + 81 * i)) = (read i, .ok (w i))
      ∧ ∃ u, (read i).nodeWrite c (.ofNum ((wordAt l 6).num + 81 * i)) ((List.range 27).zip (w i)) = (u, .ok ())
        ∧ at_ (i + 1) = u.setNodeWork slot node (i + 1) false) :
    exec (.copyNode slot node) s = .next ((at_ n).later [.nodeComplete slot node (nodeSuccs l)]) := by
  have hcopy := copyLines_done (slot := slot) (node := node) hdone hline
  rw [hstart] at hcopy
  simp only [exec, execCopyNode, asNode_runs hrun hl hk, hn, Int.toNat_natCast, ← hc, hcopy, State.nodeDone]

theorem collectiveNode_goesOn (hrun : s.nodeRuns slot node = true) (hl : s.nodeWords slot node = l) (hk : intAt l 0 = 3) {e : Exch}
    (he : s.exch? (.node slot node) = some e) : exec (.collectiveNode slot node) s = .next (s.advanceExch (.node slot node)) := by
  simp only [exec, execCollectiveNode, asNode_runs hrun hl hk, he]

theorem collectiveNode_opens (hrun : s.nodeRuns slot node = true) (hl : s.nodeWords slot node = l) (hk : intAt l 0 = 3)
    (he : s.exch? (.node slot node) = none) : exec (.collectiveNode slot node) s = .next (s.openNode slot node l) := by
  simp only [exec, execCollectiveNode, asNode_runs hrun hl hk, he]

theorem openNode_unread {s1 : State} (hread : s.walkerRead ((intAt l 5).toNat / 81) = (s1, none)) :
    s.openNode slot node l = (s1.faultGraph slot node).nodeOff slot node := by
  simp only [State.openNode, hread, State.badNode]

/-- A collective whose descriptor and list are read and not refused: it completes at once where COUNT is zero, and else it opens (R205). -/
theorem openNode_opens {s1 s2 : State} {w : List Word} {ranks : List Int} (hread : s.walkerRead ((intAt l 5).toNat / 81) = (s1, some w))
    (hdesc : collRefused (intAt l 6) w s1.rank = false) (hranks : s1.nodeRanks (intAt l 6) w = (s2, some ranks))
    (hlist : isPair (intAt l 6) = false → listRefused (intAt l 6) w ranks s2.rank = false) :
    (intAt w 3 = 0 → s.openNode slot node l = s2.later [.nodeComplete slot node (nodeSuccs l)])
    ∧ (intAt w 3 ≠ 0 → (ranks.length ≤ 1 ∨ s2.hasPort (s2.partOfSlot slot) = true) → s.openNode slot node l =
        (s2.openExch (.node slot node) (intAt l 6) w (ranks.map Int.toNat) false).advanceExch (.node slot node)) := by
  have hno : (!isPair (intAt l 6) && listRefused (intAt l 6) w ranks s2.rank) = false := by
    cases hp : isPair (intAt l 6) with
    | true => rfl
    | false => rw [hlist hp]; rfl
  simp only [State.openNode, hread, hdesc, hranks, hno, Bool.false_eq_true, if_false]
  refine ⟨fun hzero => if_pos hzero, fun hcount hport => ?_⟩
  rw [if_neg hcount, if_neg]
  rw [Bool.and_eq_true, decide_eq_true_eq, Bool.not_eq_true']
  rintro ⟨hmany, hclosed⟩
  rcases hport with hone | hopen
  · omega
  · rw [hopen] at hclosed; cases hclosed

/-- A node that reads its word signals the successor that the word's sign chooses (R358). -/
theorem signNode_does {k : Int} {pick : List Word → Int → List Int} (hrun : s.nodeRuns slot node = true) (hl : s.nodeWords slot node = l)
    (hk : intAt l 0 = k) {s1 : State} {w : Word} (hread : s.nodeRead (s.nodeCtx slot (intAt l 7)) (wordAt l 5) = (s1, .ok w)) :
    s.signNode slot node k pick = .next (s1.later [.nodeComplete slot node (pick l (Int.sign w.val))]) := by
  simp only [State.signNode, asNode_runs hrun hl hk, hread, State.nodeDone]

theorem conditionNode_does (hrun : s.nodeRuns slot node = true) (hl : s.nodeWords slot node = l) (hk : intAt l 0 = 4) {s1 : State} {w : Word}
    (hread : s.nodeRead (s.nodeCtx slot (intAt l 7)) (wordAt l 5) = (s1, .ok w)) :
    exec (.conditionNode slot node) s = .next (s1.later [.nodeComplete slot node
      [if w.val < 0 then intAt l 1 else if w.val = 0 then intAt l 2 else intAt l 3]]) := by
  simp only [exec, execConditionNode, signNode_does hrun hl hk hread]
  rcases Int.lt_trichotomy w.val 0 with h | h | h
  · rw [Int.sign_eq_neg_one_of_neg h, if_pos h]; rfl
  · rw [h]; rfl
  · rw [Int.sign_eq_one_of_pos h, if_neg (by omega), if_neg (by omega)]; rfl

theorem whileNode_does (hrun : s.nodeRuns slot node = true) (hl : s.nodeWords slot node = l) (hk : intAt l 0 = -1) {s1 : State} {w : Word}
    (hread : s.nodeRead (s.nodeCtx slot (intAt l 7)) (wordAt l 5) = (s1, .ok w)) :
    exec (.whileNode slot node) s = .next (s1.later [.nodeComplete slot node [if 0 < w.val then intAt l 1 else intAt l 2]]) := by
  simp only [exec, execWhileNode, signNode_does hrun hl hk hread]
  rcases Int.lt_trichotomy w.val 0 with h | h | h
  · rw [Int.sign_eq_neg_one_of_neg h, if_neg (show ¬0 < w.val by omega)]; rfl
  · rw [h]; rfl
  · rw [Int.sign_eq_one_of_pos h, if_pos (show 0 < w.val from h)]; rfl

theorem leave_agenda (s : State) (a slot : Nat) (d : Option Line) : (s.leave a slot d).agenda = s.agenda := by
  simp only [State.leave]
  split <;> rfl

/-- Giving back the copy of a watched line changes neither the pending steps nor memory. -/
theorem unwatch_keeps (s : State) (slot node : Nat) : (s.unwatch slot node).agenda = s.agenda ∧ (s.unwatch slot node).hbm = s.hbm := by
  simp only [State.unwatch]
  split
  · split
    · exact ⟨rfl, rfl⟩
    · exact ⟨leave_agenda _ _ _ _, by simp⟩
  · exact ⟨rfl, rfl⟩

theorem waitWordNode_does (hrun : s.nodeRuns slot node = true) (hl : s.nodeWords slot node = l) (hk : intAt l 0 = -2) {s1 : State} {x : Xl}
    {w : List Word} (hread : s.nodeReadAt (s.nodeCtx slot (intAt l 7)) (wordAt l 5) true = (s1, .ok (x, w))) :
    (codeHolds (intAt l 8) (Int.sign (intAt w (wordOf (wordAt l 5)) - intAt l 6)) = true → ∃ t, exec (.waitWordNode slot node) s = .next t
      ∧ t.agenda = s1.agenda ++ [.nodeComplete slot node (nodeSuccs l)] ∧ t.hbm = s1.hbm)
    ∧ (codeHolds (intAt l 8) (Int.sign (intAt w (wordOf (wordAt l 5)) - intAt l 6)) = false →
      exec (.waitWordNode slot node) s = .next (s1.watchWord slot node x.slot)) := by
  obtain ⟨hagenda, hhbm⟩ := unwatch_keeps (s1.watchWord slot node x.slot) slot node
  have hexec : exec (.waitWordNode slot node) s = execWaitWordNode slot node s := rfl
  simp only [execWaitWordNode, asNode_runs hrun hl hk, hread] at hexec
  refine ⟨fun h => ⟨_, hexec.trans (congrArg _ (if_pos h)), ?_, hhbm⟩, fun h => hexec.trans (congrArg _ (if_neg (Bool.eq_false_iff.mp h)))⟩
  exact congrArg (· ++ [Instr.nodeComplete slot node (nodeSuccs l)]) hagenda

theorem signalNode_does (hrun : s.nodeRuns slot node = true) (hl : s.nodeWords slot node = l) (hk : intAt l 0 = -3) {s1 : State}
    (hwrite : s.nodeWrite (s.nodeCtx slot (intAt l 7)) (wordAt l 5) [(wordOf (wordAt l 5), wordAt l 6)] = (s1, .ok ())) :
    ∃ t, exec (.signalNode slot node) s = .next t ∧ t.agenda = s1.agenda ++ [.nodeComplete slot node (nodeSuccs l)]
      ∧ t.irqs = s1.irqs ++ (if 0 ≤ intAt l 8 then [(intAt l 8).toNat] else []) ∧ t.vlines = s1.vlines := by
  have hexec : exec (.signalNode slot node) s = execSignalNode slot node s := rfl
  simp only [execSignalNode, asNode_runs hrun hl hk, hwrite] at hexec
  refine ⟨_, hexec, ?_, ?_, ?_⟩
  · split <;> rfl
  · split
    · rfl
    · exact (List.append_nil _).symm
  · split <;> rfl

end

/-! ### Completion and re-arming (R359) -/

/-- A graph slot without a node that ran. -/
def Graph.without (g : Graph) (node : Nat) : Graph :=
  { g with running := g.running.erase node, work := g.work.filter (fun w => w.1 != node), watch := g.watch.filter (fun w => w.1 != node),
           lines := assocDel g.lines node, rels := assocDel g.rels node, old := g.old.erase node }

section
variable {s : State} {slot node : Nat} {g : Graph}

/-- A node that ends where no release waits for it and no end node does. -/
theorem nodeOff_quiet (hg : s.graph? slot = some g) (hpend : g.pending = []) (hend : g.ending = false) :
    s.nodeOff slot node = s.modGraph slot (fun x => x.without node) := by
  have hno : (s.graph? slot).any (fun g => g.pending.contains node) = false := by simp [hg, hpend]
  have hgraph := graph?_modGraph s slot (f := fun x => x.without node) (fun _ => rfl)
  rw [hg] at hgraph
  simp only [State.nodeOff, hno]
  refine Eq.trans (b := match (s.modGraph slot (fun x => x.without node)).graph? slot with
    | some g => if g.ending then (s.modGraph slot (fun x => x.without node)).laterOnce (.endNode slot 0) else s.modGraph slot (fun x => x.without node)
    | none => s.modGraph slot (fun x => x.without node)) rfl ?_
  rw [hgraph]
  exact if_neg (by simp [Graph.without, hend])

theorem endNode_old (hg : s.graph? slot = some g) (hkind : intAt (s.nodeWords slot node) 0 = -4) (hrun : node ∈ g.running) (hold : node ∈ g.old) :
    exec (.endNode slot node) s = .next (s.nodeOff slot node) := by
  simp [exec, execEndNode, hg, hkind, hrun, hold]

/-- What an end node of this run does: it waits for the other nodes, or starts the graph anew where they are all left from earlier runs. -/
theorem exec_endNode (hg : s.graph? slot = some g) (hstate : s.graphState slot = 1) (hkind : intAt (s.nodeWords slot node) 0 = -4)
    (hrun : node ∈ g.running) (hold : node ∉ g.old) : exec (.endNode slot node) s = .next
      (if (s.otherNodes slot g).all g.old.contains then
        (s.modGraph slot (fun x => { x with counts := [], pending := [], ending := false, running := s.otherNodes slot g })).releaseNode slot 0
      else s.modGraph slot (fun x => { x with ending := true, running := s.otherNodes slot g })) := by
  have hhere : (g.running.contains node && intAt (s.nodeWords slot node) 0 == -4) = true := by simp [hkind, hrun]
  have hnew : g.old.contains node = false := by simpa using hold
  have hmod := modGraph_modGraph s slot (f := fun x => { x with ending := true, running := s.otherNodes slot g })
    (f' := fun x => { x with counts := [], pending := [], ending := false }) (fun _ => rfl)
  simp only [exec, execEndNode, hg, hhere, hnew, hstate, hmod]
  simp

theorem endNode_anew (hg : s.graph? slot = some g) (hstate : s.graphState slot = 1) (hkind : intAt (s.nodeWords slot node) 0 = -4)
    (hrun : node ∈ g.running) (hold : node ∉ g.old) (hall : (s.otherNodes slot g).all g.old.contains = true) (hzero : 0 ∉ s.otherNodes slot g)
    {s1 : State} {l : List Word}
    (hread : (s.modGraph slot (fun x => { x with counts := [], pending := [], ending := false, running := s.otherNodes slot g })).walkerRead
      (s.nodeAddr slot 0 / 81) = (s1, some l)) (hok : nodeOk (s.cwInt (730 + 3 * slot)) l = true) :
    exec (.endNode slot node) s = .next (s1.released slot 0 l) := by
  have hgraph := graph?_modGraph s slot (f := fun x => { x with counts := [], pending := [], ending := false, running := s.otherNodes slot g })
    (fun _ => rfl)
  rw [hg] at hgraph
  rw [exec_endNode hg hstate hkind hrun hold, if_pos hall, releaseNode_released hgraph hstate rfl hzero hread hok]

/-- A completed node that signals nobody only ends. -/
theorem nodeComplete_alone (hg : s.graph? slot = some g) (hrun : node ∈ g.running) :
    exec (.nodeComplete slot node [-1, -1, -1]) s = .next (s.nodeOff slot node) := by
  have hnone : ∀ u : State, u.signalNode slot (-1) = u := fun u => by
    simp only [State.signalNode]
    split
    · rfl
    · exact if_pos (.inl (by decide))
  simp [exec, execNodeComplete, hg, hrun, hnone]

theorem assocGet_absent {α : Type} {l : List (Nat × α)} {k : Nat} (h : ∀ c ∈ l, c.1 ≠ k) : assocGet l k = none := by
  induction l with
  | nil => rfl
  | cons c cs ih =>
    obtain ⟨hc, hcs⟩ := List.forall_mem_cons.mp h
    rw [assocGet, if_neg hc, ih hcs]

/-- A signal to a node that has had none since its last release: it counts, or releases the node. -/
theorem signalNode_first {u s1 : State} {x : Graph} {i : Nat} {l : List Word} (hx : u.graph? slot = some x) (hstate : u.graphState slot = 1)
    (hend : x.ending = false) (hcount : ∀ c ∈ x.counts, c.1 ≠ i) (hread : u.walkerRead (u.nodeAddr slot i / 81) = (s1, some l)) :
    u.signalNode slot (i : Int) = if intAt l 4 ≤ 1 then (s1.modGraph slot (fun g => { g with counts := assocDel g.counts i })).releaseNode slot i
      else s1.modGraph slot (fun g => { g with counts := natPut g.counts i 1 }) := by
  have hget := assocGet_absent hcount
  simp only [State.signalNode, hx, hstate, hend, Int.toNat_natCast, hread, hget]
  rw [if_neg (by simp)]
  rfl

theorem nodeComplete_signals (hg : s.graph? slot = some g) (hstate : s.graphState slot = 1) (hrun : node ∈ g.running) (hold : node ∉ g.old)
    (hend : g.ending = false) (hpend : g.pending = []) {i : Nat} {s1 : State} {l : List Word} (hi : i ∉ g.running) (hcount : ∀ c ∈ g.counts, c.1 ≠ i)
    (hread : (s.nodeOff slot node).walkerRead (s.nodeAddr slot i / 81) = (s1, some l)) :
    (1 < intAt l 4 → exec (.nodeComplete slot node [(i : Int)]) s = .next (s1.modGraph slot (fun x => { x with counts := natPut x.counts i 1 })))
    ∧ (intAt l 4 = 1 → ∀ s2 l', (s1.modGraph slot (fun x => { x with counts := assocDel x.counts i })).walkerRead (s.nodeAddr slot i / 81)
        = (s2, some l') → nodeOk (s.cwInt (730 + 3 * slot)) l' = true →
      exec (.nodeComplete slot node [(i : Int)]) s = .next (s2.released slot i l')) := by
  have hoff := nodeOff_quiet (node := node) hg hpend hend
  have hexec : exec (.nodeComplete slot node [(i : Int)]) s = .next ((s.nodeOff slot node).signalNode slot (i : Int)) := by
    simp [exec, execNodeComplete, hg, hrun, hold]
  have hgraph := graph?_modGraph s slot (f := fun x => x.without node) (fun _ => rfl)
  rw [hg] at hgraph
  rw [hoff] at hread hexec
  have hview := graphView_walkerRead hread
  have hcw : ∀ k, s1.cwInt k = s.cwInt k := fun k => (cwInt_of_graphView hview k).trans (State.modGraph_cwInt _ _ _ _)
  rw [hexec, signalNode_first hgraph hstate hend hcount hread]
  refine ⟨fun hmore => by rw [if_neg (by omega)], fun hone s2 l' hread' hok => ?_⟩
  rw [if_pos (by omega)]
  have hgraph1 : (s1.modGraph slot (fun x => { x with counts := assocDel x.counts i })).graph? slot = some
      { g.without node with counts := assocDel g.counts i } := by
    rw [graph?_modGraph s1 slot (f := fun x => { x with counts := assocDel x.counts i }) (fun _ => rfl), graph?_of_graphView hview, hgraph]
    rfl
  have haddr : (s1.modGraph slot (fun x => { x with counts := assocDel x.counts i })).nodeAddr slot i = s.nodeAddr slot i := by
    simp only [State.nodeAddr, State.modGraph_cwInt, hcw]
  rw [releaseNode_released hgraph1 ((hcw _).trans hstate) hend (fun hin => hi (List.mem_of_mem_erase hin)) (by rw [haddr]; exact hread')
    (by rw [State.modGraph_cwInt, hcw]; exact hok)]

end

/-- Settles O47: arming, the kinds of nodes one by one, and what the end of a node does. -/
theorem graphSteps : Obligations.GraphSteps := by
  refine ⟨fun s slot hs hr => ⟨fun hidle hbase halign hlow hhigh hnode s1 l hread hok =>
      graphArm_released hs hr hidle hbase halign hlow hhigh hnode hread hok, graphArm_faults hs hr, graphEmpty_does hs hr⟩,
    fun s slot node l hrun hl => ⟨gridNode_does hrun hl, fun hk n c at_ read w hn hc hdone hstart hline =>
      copyNode_does hrun hl hk hn hc hdone hstart hline, fun hk => ⟨fun e he => collectiveNode_goesOn hrun hl hk he, fun he s1 => ?_⟩,
      fun hk s1 w hread => conditionNode_does hrun hl hk hread, fun hk s1 w hread => whileNode_does hrun hl hk hread,
      fun hk s1 x w hread => waitWordNode_does hrun hl hk hread, fun hk s1 hwrite => signalNode_does hrun hl hk hwrite⟩,
    fun s slot node g hs hg hstate => ⟨fun hkind hrun => ⟨endNode_old hg hkind hrun, fun hold hend => ⟨fun hall hzero s1 l hread hok =>
      endNode_anew hg hstate hkind hrun hold hall hzero hread hok, fun hwait => ?_⟩⟩, nodeComplete_alone hg,
      fun hrun hold hend hpend i s1 l hi hcount hread => nodeComplete_signals hg hstate hrun hold hend hpend hi hcount hread⟩⟩
  · rw [collectiveNode_opens hrun hl hk he]
    refine ⟨fun hread => by rw [openNode_unread hread], fun w s2 ranks hread hdesc hranks hlist => ?_⟩
    obtain ⟨hzero, hopen⟩ := openNode_opens (slot := slot) (node := node) hread hdesc hranks hlist
    exact ⟨fun h => by rw [hzero h], fun h hport => by rw [hopen h hport]⟩
  · rw [exec_endNode hg hstate hkind hrun hold, if_neg (Bool.eq_false_iff.mp hwait)]

end Sys2Proof.Machine
end

section
/-! PROOFS. Placement, pre-emption, save and restore, and the ends of teams and grids (R341–R343, R363–R366, R381–R389). -/

namespace Sys2Proof.Machine

/-! ### Placement (R363) -/

/-- A single team is put on a core of the list that can reserve all it needs. -/
theorem placeCrew_single {s t : State} {node : List Word} {cores : List Nat} {f : PutTeam} (hnode : intAt node 19 ≤ 1)
    (h : s.placeCrew node cores [f] = some t) : ∃ core slot base k, core ∈ cores ∧ s.fitsCore node core = some base
      ∧ t = f { s with tick := k } core slot base := by
  simp only [State.placeCrew, if_pos hnode, State.choose] at h
  split at h
  · cases h
  · generalize hok : (cores.map (fun c => [c])).filter (fun g => (s.placeAll node g [f]).isSome) = ok at h
    generalize Config.choice s.tick % ok.length = k at h
    rcases Nat.lt_or_ge k ok.length with hk | hk
    · rw [List.getD_eq_getElem _ _ hk] at h
      have hmem : ok[k] ∈ (cores.map (fun c => [c])).filter (fun g => (s.placeAll node g [f]).isSome) := hok ▸ List.getElem_mem hk
      obtain ⟨c, hc, hone⟩ := List.mem_map.mp (List.mem_filter.mp hmem).1
      rw [← hone, placeAll_one] at h
      obtain ⟨base, hfits, hput⟩ := Option.map_eq_some_iff.mp h
      exact ⟨c, _, base, _, hc, hfits, hput.symm⟩
    · rw [List.getD_eq_default _ _ hk] at h
      cases h

theorem prepare_teams (s : State) (g core : Nat) : (s.prepare g core).teams = s.teams := by
  simp only [State.prepare]
  split <;> rfl

/-- The next team of a grid of single teams (R341). -/
theorem placeUnit_launches {s t : State} {g : Grid} (hw : g.waiting = true) (hcoop : g.coop = false) (hcrew : intAt g.node 19 = 1)
    (h : s.placeUnit g = some t) : ∃ core slot base, core ∈ s.partCores g.part ∧ s.fitsCore g.node core = some base
      ∧ t.teams = s.teams ++ [Team.launch s.nteam g.num g.next core slot base 0 g.next s.cycle g.node] := by
  have hnext : g.next < g.total := of_decide_eq_true (Bool.and_eq_true_iff.mp hw).2
  have hunit : g.unit = [[g.next]] := by simp [Grid.unit, hcoop, hcrew, hnext]
  simp only [State.placeUnit, hunit, List.foldl_cons, List.foldl_nil, Option.bind_some, List.map_cons, List.map_nil] at h
  obtain ⟨core, slot, base, k, hcore, hfits, rfl⟩ := placeCrew_single (by omega) h
  refine ⟨core, slot, base, hcore, hfits, ?_⟩
  simp only [launchOn, hcrew, State.modGrid_teams, prepare_teams, Int.toNat_one, Nat.mod_one, Nat.div_one]

theorem exec_teamPlacement {s t : State} {g : Grid} (hg : s.grid? g.num = some g) (hw : g.waiting = true)
    (hsaved : ∀ v ∈ s.saved, v.team.grid ≠ g.num) (hrank : s.outranked g = false) (h : s.placeUnit g = some t) :
    exec (.teamPlacement g.num) s = .next t := by
  have hnone : s.saved.any (fun v => v.team.grid == g.num) = false := by simpa using hsaved
  simp only [exec, execTeamPlacement, hg, hw, hnone, hrank, h]
  rfl

/-! ### Pre-emption (R381) -/

/-- Victims are marked, and no other team changes. -/
theorem foldl_saving_teams (v : List Nat) (s : State) :
    (v.foldl (fun s n => s.modTeam n (fun t => { t with saving := true })) s).teams
      = s.teams.map (fun (x : Team) => if x.num ∈ v then { x with saving := true } else x) := by
  induction v generalizing s with
  | nil => simp
  | cons n v ih =>
    rw [List.foldl_cons, ih, State.modTeam, List.map_map]
    refine List.map_congr_left fun x _ => ?_
    by_cases hx : x.num = n
    · simp [hx]
    · simp [hx]

theorem exec_preemption {s : State} {g : Grid} {v : List Nat} (hg : s.grid? g.num = some g) (hw : s.hasWork g = true)
    (hfree : s.freed.placeNext g = none) (hv : s.victimsFor g = some v)
    (hpool : s.poolTakes (s.teams.filter (fun (t : Team) => v.contains t.num)) = true) :
    exec (.preemption g.num) s = .next (v.foldl (fun s n => s.modTeam n (fun t => { t with saving := true })) s) := by
  simp only [exec, execPreemption, hg, hw, hfree, hv, hpool]
  rfl

/-! ### Save and restore (R383, R389) -/

/-- Where a team has no handler, a change of handlers changes nothing. -/
theorem modHandler_none {s : State} {n : Nat} (h : ∀ x ∈ s.teams, x.num = n → x.handler = none) (f : Handler → Handler) : s.modHandler n f = s := by
  have hteams : s.teams.map (fun t => if t.num = n then { t with handler := t.handler.map f } else t) = s.teams := by
    refine (List.map_congr_left fun x hx => ?_).trans (List.map_id s.teams)
    split
    · next hn => have hnone := h x hx hn; cases x; simp_all
    · rfl
  simp only [State.modHandler, State.modTeam, hteams]

theorem entriesFree_keeps {α : Type} (g : State → α) (hg : ∀ s i, g (State.laterOnce s i) = g s) (s : State) (l : List Nat) :
    g (s.entriesFree l) = g s :=
  foldl_keeps g (fun (s : State) (k : Nat) => s.laterOnce (.rangeLockFree k)) (fun u k => hg u (.rangeLockFree k)) l s

theorem laterOnce_saved (s : State) (i : Instr) : (s.laterOnce i).saved = s.saved := by
  unfold State.laterOnce
  split <;> rfl

/-- What a team leaves in the pool (R384). -/
def savedAs (s : State) (a : Nat) (tm : Team) : Saved :=
  { line := a, lines := s.imageSize tm, team := { tm with saving := false, body := { tm.body with
    escrow := tm.body.escrow.map (fun e => { e with spilled := true }), shadows := [], shtiles := [] } } }

theorem teamSave_moves {s s1 s2 : State} {n a : Nat} {tm tm1 : Team} (htm : s.team? n = some tm) (hsaving : tm.saving = true)
    (hending : tm.ending = false) (hdrain : s.draining tm = false)
    (hs1 : ((s.threadsOf n).foldl (fun (u : State) (p : TRef × Thread) => u.saveThread p.1) (s.recallPubs n)).sweepLeases = s1)
    (htm1 : s1.team? n = some tm1) (hhandler : ∀ x ∈ s1.teams, x.num = n → x.handler = none) (hbase : physLine (s1.cwInt 810) = true)
    (hplace : s1.poolPlace (s1.imageSize tm1) = some a) (hput : s1.putLines ((s1.cwInt 810).toNat / 81 + a) (s1.saveImage tm1) = some s2) :
    ∃ t, exec (.teamSave n) s = .next t ∧ t.team? n = none ∧ t.saved = s2.saved ++ [savedAs s1 a tm1] := by
  have hexec : exec (.teamSave n) s = execTeamSave n s := rfl
  simp only [execTeamSave, htm, hsaving, hending, hdrain, hs1, modHandler_none hhandler, htm1, hbase, if_true, hplace, hput] at hexec
  refine ⟨_, hexec, ?_, ?_⟩
  · simp [State.team?, List.find?_eq_none]
  · exact congrArg (· ++ [savedAs s1 a tm1]) (entriesFree_keeps State.saved laterOnce_saved s2 (s2.entryCores n))

theorem teamRestore_places {s u t : State} {k : Nat} {v w : Saved} {g : Grid} (hv : s.saved[k]? = some v) (hg : s.grid? v.team.grid = some g)
    (hsaving : ∀ x ∈ s.teams, x.saving = false) (hrank : s.outranked g = false) (hget : s.getImages (s.restoredWith v g) = some u)
    (hw : u.saved.find? (fun (x : Saved) => x.team.num == v.team.num) = some w) (hone : u.restoredWith { v with team := w.team } g = [w])
    (hplace : u.placeCrew g.node (u.partCores g.part) [restoreOn w] = some t) : exec (.teamRestore k) s = .next t := by
  have hwaits : s.teams.any (fun t => t.grid == g.num && t.saving && (g.coop || t.crew == v.team.crew)) = false :=
    List.any_eq_false.mpr fun x hx => by simp [hsaving x hx]
  have hput : u.placeSaved { v with team := w.team } g = some t := by
    simp only [State.placeSaved, hone, List.map_cons, List.map_nil, distinct, List.foldl_cons, List.foldl_nil, List.contains_nil, Bool.false_eq_true,
      if_false, List.nil_append, Option.bind_some, List.filter_cons, List.filter_nil, beq_self_eq_true, if_true]
    exact hplace
  simp only [exec, execTeamRestore, hv, hg, hwaits, hrank, hget, hw, Option.map_some, Option.getD_some, hput]
  rfl

/-! ### The ends of teams and grids (R342, R343) -/

/-- A team without live threads, alone of its grid, has no barrier to settle. -/
theorem settleBarriers_alone {s : State} {n : Nat} {tm : Team} (htm : s.team? n = some tm) (hlive : s.liveThreads n = [])
    (halone : ∀ x ∈ s.teams, x.grid = tm.grid → x = tm) : s.settleBarriers n = s := by
  have hnum : tm.num = n := beq_iff_eq.mp (List.find?_some (p := fun t : Team => t.num == n) htm)
  simp only [State.settleBarriers, htm]
  refine List.foldlRecOn (motive := fun u : State => u = s) (s.gridTeams tm.grid) _ rfl fun u hu m hm => ?_
  obtain ⟨x, hx, rfl⟩ := List.mem_map.mp hm
  obtain ⟨hmem, hgrid⟩ := List.mem_filter.mp hx
  rw [halone x hmem (beq_iff_eq.mp hgrid), hnum, hu, hlive]
  rfl

theorem grid?_modGrid (s : State) (n : Nat) {f : Grid → Grid} (hf : ∀ x, (f x).num = x.num) : (s.modGrid n f).grid? n = (s.grid? n).map f := by
  simp only [State.grid?, State.modGrid]
  induction s.grids with
  | nil => rfl
  | cons x l ih =>
    rw [List.map_cons, List.find?_cons, List.find?_cons, ih]
    by_cases hx : x.num = n
    · simp [hx, hf]
    · have hne : (x.num == n) = false := by simpa using hx
      simp only [hx, if_false, hne]

/-- A team of a grid is gone, and the grid counts one fewer (R342). -/
def State.withoutTeam (s : State) (n grid : Nat) : State :=
  { s.modGrid grid (fun g => { g with live := g.live - 1 }) with teams := s.teams.filter (fun x => x.num != n) }

/-- A grid without live teams and teams to place is to complete (R343). -/
def State.gridEnded (s : State) (grid : Nat) : State :=
  match s.grid? grid with
  | some g => if g.live = 0 ∧ !g.waiting then s.laterOnce (.gridCompletion grid) else s
  | none => s

theorem gridEnded_keeps (s : State) (grid : Nat) : (s.gridEnded grid).teams = s.teams ∧ ∀ n, (s.gridEnded grid).grid? n = s.grid? n := by
  simp only [State.gridEnded]
  split
  · split
    · exact ⟨State.laterOnce_teams _ _, State.laterOnce_grid? _ _⟩
    · exact ⟨rfl, fun _ => rfl⟩
  · exact ⟨rfl, fun _ => rfl⟩

theorem teamEnd_frees {s : State} {n : Nat} {tm : Team} (htm : s.team? n = some tm) (hending : tm.ending = true) (hlive : s.liveThreads n = [])
    (hcmds : tm.body.cmds = []) (hpubs : tm.pubs = []) (hescrow : tm.body.escrow = []) (hparts : tm.body.parts = []) (hpieces : s.piecesOn n = false)
    (hack : ∀ p ∈ s.threadsOf n, p.2.unackSyn = 0) (halone : ∀ x ∈ s.teams, x.grid = tm.grid → x = tm) :
    ∃ t, exec (.teamEnd n) s = .next t ∧ t.teams = s.teams.filter (fun (x : Team) => x.num != n)
      ∧ ∀ g, s.grid? tm.grid = some g → t.grid? tm.grid = some { g with live := g.live - 1 } := by
  have hnum : tm.num = n := beq_iff_eq.mp (List.find?_some (p := fun t : Team => t.num == n) htm)
  have hsyn : (s.threadsOf n).any (fun p => p.2.unackSyn != 0) = false := List.any_eq_false.mpr fun p hp => by simp [hack p hp]
  have hgone : ∀ u : State, u.teams = s.teams.filter (fun x => x.num != n) → u.gridTeams tm.grid = [] := fun u hu => by
    simp only [State.gridTeams, hu, List.map_eq_nil_iff, List.filter_eq_nil_iff, List.mem_filter]
    rintro x ⟨hx, hne⟩ hgrid
    rw [halone x hx (beq_iff_eq.mp hgrid), hnum] at hne
    simp at hne
  have hexec : exec (.teamEnd n) s = execTeamEnd n s := rfl
  simp only [execTeamEnd, htm, hending, hlive, settleBarriers_alone htm hlive halone, hcmds, hpieces, hsyn, hpubs, hescrow, hparts, Bool.not_true, List.isEmpty_nil,
    Bool.or_self, Bool.and_false, Bool.and_self, Bool.false_eq_true, if_false] at hexec
  have hend : exec (.teamEnd n) s = .next ((match (s.withoutTeam n tm.grid).gridTeams tm.grid with
      | m :: _ => (s.withoutTeam n tm.grid).settleBarriers m
      | [] => s.withoutTeam n tm.grid).gridEnded tm.grid) := hexec
  rw [hgone (s.withoutTeam n tm.grid) rfl] at hend
  obtain ⟨hteams, hgrid⟩ := gridEnded_keeps (s.withoutTeam n tm.grid) tm.grid
  refine ⟨_, hend, hteams, fun g hg => ?_⟩
  have hmod := grid?_modGrid s tm.grid (f := fun g => { g with live := g.live - 1 }) (fun _ => rfl)
  rw [hg] at hmod
  exact (hgrid tm.grid).trans hmod

/-- A completed grid has left, and its node completes (R343, R359). -/
def State.gridLeft (s : State) (g : Grid) : State :=
  match g.src with
  | some (slot, node) =>
    ({ s with grids := s.grids.filter (fun x => x.num != g.num) } : State).later [.nodeComplete slot node (nodeSuccs g.node)]
  | none => { s with grids := s.grids.filter (fun x => x.num != g.num) }

theorem gridCompletion_leaves {s s1 : State} {g : Grid} (hg : s.grid? g.num = some g) (hkilled : g.killed = false) (hlive : g.live = 0)
    (hwait : g.waiting = false) (hunack : g.unack = 0) (hdef : g.deferred = [])
    (hs1 : (wordAt g.node 22 = .zero ∧ s1 = s) ∨ (wordAt g.node 22 ≠ .zero ∧
      s.nodeWrite { core := 324, asrec := (intAt g.node 21).toNat, part := g.part, sys := true } (wordAt g.node 22)
        [(wordOf (wordAt g.node 22), .ofInt (if g.err then -1 else 1))] = (s1, .ok ()))) :
    ∃ t, exec (.gridCompletion g.num) s = .next t ∧ t.grids = s1.grids.filter (fun (x : Grid) => x.num != g.num) ∧ t.vlines = s1.vlines
      ∧ t.agenda = s1.agenda ++ (g.src.map (fun (p : Nat × Nat) => Instr.nodeComplete p.1 p.2 (nodeSuccs g.node))).toList := by
  have hexec : exec (.gridCompletion g.num) s = .next (s1.gridLeft g) := by
    simp only [exec, execGridCompletion, hg, hkilled, hlive, hwait, hunack, hdef, Bool.false_eq_true, if_false, ne_eq, not_true_eq_false, or_self,
      List.isEmpty_nil, Bool.not_true]
    rcases hs1 with ⟨hnone, rfl⟩ | ⟨hstat, hwrite⟩
    · rw [if_pos hnone]
      rfl
    · rw [if_neg hstat, hwrite]
      rfl
  refine ⟨_, hexec, ?_⟩
  simp only [State.gridLeft]
  cases g.src with
  | none => exact ⟨rfl, rfl, (List.append_nil _).symm⟩
  | some p => exact ⟨rfl, rfl, rfl⟩

/-- Settles O48: the six kinds of steps, each by its own lemma. -/
theorem placementSteps : Obligations.PlacementSteps := by
  refine ⟨fun s t g hg hw hsaved hrank h => ⟨exec_teamPlacement hg hw hsaved hrank h, fun hcoop hcrew => placeUnit_launches hw hcoop hcrew h⟩,
    fun s g v hg hw hfree hv hpool => ⟨_, exec_preemption hg hw hfree hv hpool, foldl_saving_teams v s⟩,
    fun s s1 s2 n a tm tm1 htm hsaving hending hdrain hs1 htm1 hhandler hbase hplace hput =>
      teamSave_moves htm hsaving hending hdrain hs1 htm1 hhandler hbase hplace hput,
    fun s u t k v w g hv hg hsaving hrank hget hw hone hplace => teamRestore_places hv hg hsaving hrank hget hw hone hplace,
    fun s n tm htm hending hlive hcmds hpubs hescrow hparts hpieces hack halone =>
      teamEnd_frees htm hending hlive hcmds hpubs hescrow hparts hpieces hack halone,
    fun s g hg hkilled hlive hwait hunack hdef s1 hs1 => gridCompletion_leaves hg hkilled hlive hwait hunack hdef hs1⟩

end Sys2Proof.Machine
end

section
/-! PROOFS. The canonical form of memory: what is folded keeps it (R45–R50).

Below, one lemma `f_canon` stands for each function `f` that gives back a state, in the order of the model: it opens `f` and names the lemmas
of what `f` calls. Memory is written in two places only, an image stored by the shell (`hbmStore_wf`) and the reset of a partition
(`memory_wf_filter`); what leaves it alone has its `f_hbm` already. -/

namespace Sys2Proof.Machine

/-- Memory is in its canonical form: addresses rising, and no byte listed that reads as an unlisted one. -/
abbrev State.Canon (s : State) : Prop := Memory.wf s.hbm = true

/-- A body keeps the canonical form of memory. -/
abbrev Body.Keeps (b : Body) : Prop := ∀ s xs, s.Canon → (b s xs).s.Canon

/-- One execution's part of a body keeps it. -/
abbrev StepKeeps (f : Eff → Exec → Eff) : Prop := ∀ e x, e.s.Canon → (f e x).s.Canon

theorem foldl_acc_canon {α β : Type} (g : β → State) {f : β → α → β} (h : ∀ b a, (g b).Canon → (g (f b a)).Canon) {l : List α} {b : β}
    (hw : (g b).Canon) : (g (l.foldl f b)).Canon := by
  induction l generalizing b with
  | nil => exact hw
  | cons a l ih => exact ih (h b a hw)

theorem foldl_canon {α : Type} {f : State → α → State} (h : ∀ s a, s.Canon → (f s a).Canon) {l : List α} {s : State} (hw : s.Canon) :
    (l.foldl f s).Canon := foldl_acc_canon id h hw

theorem foldl_fst_canon {α β : Type} {f : State × β → α → State × β} (h : ∀ p a, p.1.Canon → (f p a).1.Canon) {l : List α} {p : State × β}
    (hw : p.1.Canon) : (l.foldl f p).1.Canon := foldl_acc_canon Prod.fst h hw

theorem foldl_eff_canon {f : Eff → Exec → Eff} (h : StepKeeps f) {l : List Exec} {e : Eff} (hw : e.s.Canon) : (l.foldl f e).s.Canon :=
  foldl_acc_canon Eff.s h hw

theorem Eff.of_s (s : State) : (Eff.of s).s = s := rfl

/-- What the issue of a command leaves keeps the canonical form. -/
def Issued.Canon : Issued → Prop
  | .done s => s.Canon
  | .trap s _ => s.Canon
  | .wait _ => True

theorem foldl_bind_acc_canon {α β : Type} (g : β → State) {f : β → α → Option β} {l : List α}
    (h : ∀ b, ∀ a ∈ l, ∀ c, f b a = some c → (g b).Canon → (g c).Canon) {b c : β}
    (hc : l.foldl (fun o a => o.bind (f · a)) (some b) = some c) (hw : (g b).Canon) : (g c).Canon := by
  induction l generalizing b with
  | nil => exact Option.some.inj hc ▸ hw
  | cons a l ih =>
    rw [List.foldl_cons, Option.bind_some] at hc
    cases hb : f b a with
    | none =>
      rw [hb, List.foldl_fixed' (fun _ => rfl)] at hc
      exact absurd hc (Option.some_ne_none c).symm
    | some d =>
      exact ih (fun b x hx => h b x (List.mem_cons_of_mem a hx)) (hb ▸ hc) (h b a List.mem_cons_self d hb hw)

theorem foldl_bind_canon {α : Type} {f : State → α → Option State} {l : List α} (h : ∀ s, ∀ a ∈ l, ∀ t, f s a = some t → s.Canon → t.Canon)
    {s t : State} (ht : l.foldl (fun o a => o.bind (f · a)) (some s) = some t) (hw : s.Canon) : t.Canon :=
  foldl_bind_acc_canon id h ht hw

theorem getD_canon {o : Option State} {s : State} (ho : ∀ t, o = some t → t.Canon) (hw : s.Canon) : (o.getD s).Canon := by
  cases o with
  | none => exact hw
  | some t => exact ho t rfl

/-- A way to put a team on a core keeps the canonical form of memory. -/
abbrev PutKeeps (put : PutTeam) : Prop := ∀ s core slot base, s.Canon → (put s core slot base).Canon

end Sys2Proof.Machine
end

section
/-! PROOFS. The canonical form of memory is kept: the parts of the state, homes and translation (R45–R50, R63). -/

namespace Sys2Proof.Machine

variable {s t u : State}

/-! ### The parts of the state -/

theorem State.setRun_canon {r : TRef} {x : Run} (hw : s.Canon) : (s.setRun r x).Canon := by
  unfold State.setRun
  grind [State.modThread_hbm]

theorem State.setPc_canon {r : TRef} {pc : Word} (hw : s.Canon) : (s.setPc r pc).Canon := by
  unfold State.setPc
  grind [State.modThread_hbm]

theorem State.setV_canon {r : TRef} {n : Nat} {w : Word} (hw : s.Canon) : (s.setV r n w).Canon := by
  unfold State.setV
  grind [State.modThread_hbm]

theorem State.setK_canon {n q : Nat} {trapBank : Bool} {k : Nat} {w : Word} (hw : s.Canon) : (s.setK n q trapBank k w).Canon := by
  unfold State.setK
  grind [State.modSquad_hbm]

theorem State.setPred_canon {r : TRef} {i : Nat} {x : Trit} (hw : s.Canon) : (s.setPred r i x).Canon := by
  unfold State.setPred
  grind [State.modThread_hbm]

theorem State.vigilFail_canon {n q : Nat} (hw : s.Canon) : (s.vigilFail n q).Canon := by
  unfold State.vigilFail
  grind [State.modBody_hbm, State.laterOnce_hbm]

theorem State.setCab_canon {n : Nat} {i : Int} {w : Word} (hw : s.Canon) : (s.setCab n i w).Canon := by
  unfold State.setCab
  grind [State.modBody_hbm]

theorem State.putLog_canon {e : LogEv} (hw : s.Canon) : (s.putLog e).Canon := by
  unfold State.putLog
  grind [State.setCwInt_hbm, State.later_hbm]

theorem State.flushLog_canon (hw : s.Canon) : s.flushLog.Canon := by
  unfold State.flushLog
  grind [State.putLog_canon, foldl_canon]

theorem State.queueTrap_canon {n : Nat} {e : TrapEv} (hw : s.Canon) : (s.queueTrap n e).Canon := by
  unfold State.queueTrap
  grind [State.modTeam_hbm, State.modSquad_hbm, State.laterOnce_hbm]

theorem State.raiseTraps_canon {l : List (TRef × Trap)} {pc : Word} {words : List Word} (hw : s.Canon) : (s.raiseTraps l pc words).Canon :=
    by
  unfold State.raiseTraps
  grind [State.raise_hbm, State.queueTrap_canon, foldl_canon]

theorem State.setFrameLine_canon {n i : Nat} {l : List Word} (hw : s.Canon) : (s.setFrameLine n i l).Canon := by
  unfold State.setFrameLine
  grind [State.modBody_hbm]

theorem State.enterTrap_canon {n : Nat} {t : Team} {e : TrapEv} {rest : List TrapEv} (hw : s.Canon) : (s.enterTrap n t e rest).Canon := by
  unfold State.enterTrap
  grind [State.setFrameLine_canon, State.modSquad_hbm, State.modTeam_hbm]

theorem Exec.set_canon {x : Exec} {v : Int} {k : Nat} {w : Word} (hw : s.Canon) : (Exec.set s x v k w).Canon := by
  unfold Exec.set
  grind [State.setV_canon, State.setK_canon]

theorem Exec.setK_canon {x : Exec} {v : Int} {w : Word} (hw : s.Canon) : (Exec.setK s x v w).Canon := by
  unfold Exec.setK
  grind [State.setK_canon]

theorem Exec.setPred_canon {x : Exec} {i : Nat} {v : Trit} (hw : s.Canon) : (Exec.setPred s x i v).Canon := by
  unfold Exec.setPred
  grind [State.modSquad_hbm, State.setPred_canon, foldl_canon]

/-! ### Slices, copies and transactions -/

theorem State.homeWrite_canon {slot : Nat} {f : Line → Line} {elig : Option Bool} {pin : Option (Nat × Nat)} {a0 : Line} {a1 : Word}
    (h : s.homeWrite slot f elig pin = some (t, a0, a1)) (hw : s.Canon) : t.Canon := by
  unfold State.homeWrite at h
  grind [State.refuseUnit_hbm, ensure_wf, State.invalidate_hbm, State.mergeAt_hbm]

theorem State.homeRead_canon {slot : Nat} {pin : Option (Nat × Nat)} {a0 : Line} (h : s.homeRead slot pin = some (t, a0)) (hw : s.Canon) :
    t.Canon := by
  unfold State.homeRead at h
  grind [State.refuseUnit_hbm, ensure_wf, State.takeDirty_hbm]

theorem State.roomL1_canon {a slot set : Nat} (h : s.roomL1 a slot set = some t) (hw : s.Canon) : t.Canon := by
  unfold State.roomL1 at h
  grind [State.choose_hbm, State.giveUp_hbm]

theorem State.addFilter_canon {a slot : Nat} (h : s.addFilter a slot = some t) (hw : s.Canon) : t.Canon := by
  unfold State.addFilter at h
  grind [State.modDie_hbm, State.choose_hbm, State.giveUp_hbm, foldl_canon]

theorem State.roomCopy_canon {a slot : Nat} (h : s.roomCopy a slot = some t) (hw : s.Canon) : t.Canon := by
  unfold State.roomCopy at h
  grind [State.roomL1_canon, State.addFilter_canon, Option.bind_eq_some_iff]

theorem State.endRds_canon {a : Nat} {v : VLine} {supplied : Bool} (h : s.endRds a v supplied = some t) (hw : s.Canon) : t.Canon := by
  unfold State.endRds at h
  grind [State.roomCopy_canon, State.putCopy_hbm, State.putVl_hbm, Option.map_eq_some_iff]

theorem State.endRdx_canon {a : Nat} {v : VLine} {op : HwOp} (h : s.endRdx a v op = some t) (hw : s.Canon) : t.Canon := by
  unfold State.endRdx at h
  grind [State.roomCopy_canon, State.putCopy_hbm, State.putVl_hbm, State.noteWrite_hbm, Option.map_eq_some_iff]

theorem State.readShared_canon {a slot : Nat} {pin : Option (Nat × Nat)} {a0 : Line} (h : s.readShared a slot pin = some (t, a0))
    (hw : s.Canon) : t.Canon := by
  unfold State.readShared at h
  grind [State.refuseUnit_hbm, ensure_wf, State.takeDirty_hbm, State.endRds_canon, State.checkCopy_hbm, Option.map_eq_some_iff]

theorem State.endBack_canon {a slot : Nat} {dirty : Bool} (hw : s.Canon) : (s.endBack a slot dirty).Canon := by
  unfold State.endBack
  grind [State.leave_hbm, State.takeBack_hbm]

theorem State.finishTxn_canon {v : VLine} {t : Txn} (h : s.finishTxn v t = some u) (hw : s.Canon) : u.Canon := by
  unfold State.finishTxn at h
  grind [State.checkVl_hbm, State.putVl_hbm, State.endRds_canon, State.endRdx_canon, State.endBack_canon, State.mergeAt_hbm,
    State.ackHw_hbm, State.ackHr_hbm]

theorem State.openTxn_canon {v : VLine} {req : Req} (hw : s.Canon) : (s.openTxn v req).Canon := by
  unfold State.openTxn
  grind [State.putVl_hbm, State.refuse_hbm, State.later_hbm]

theorem State.advance_canon {fuel slot : Nat} (hw : s.Canon) : (s.advance fuel slot).Canon := by
  induction fuel generalizing s with
  | zero => exact hw
  | succ fuel ih =>
    unfold State.advance
    grind [State.finishTxn_canon, State.laterOnce_hbm, State.openTxn_canon]

theorem State.settleTxn_canon {slot : Nat} (hw : s.Canon) : (s.settleTxn slot).Canon := by
  unfold State.settleTxn
  grind [State.advance_canon]

theorem State.serve_canon {slot : Nat} {pin : Option (Nat × Nat)} {req : Req} (hw : s.Canon) : (s.serve slot pin req).Canon := by
  unfold State.serve
  grind [State.refuse_hbm, State.laterOnce_hbm, ensure_wf, State.putVl_hbm, State.settleTxn_canon]

theorem State.answerSnoop_canon {a slot : Nat} {k : Snoop} (hw : s.Canon) : (s.answerSnoop a slot k).Canon := by
  have hcheck (c : Copy) : (s.checkCopy c).1.Canon := by grind [State.checkCopy_hbm]
  unfold State.answerSnoop
  cases hc : s.copy a slot with
  | none => exact hw
  | some c =>
    specialize hcheck c
    grind [State.later_hbm, State.dropCopy_hbm, State.unfilter_hbm, State.putCopy_hbm]

theorem State.snoop_canon {a slot : Nat} {k : Snoop} (hw : s.Canon) : (s.snoop a slot k).Canon := by
  unfold State.snoop
  grind [State.putCopy_hbm, State.answerSnoop_canon]

theorem State.markElig_canon {slot : Nat} {elig : Bool} (hw : s.Canon) : (s.markElig slot elig).Canon := by
  unfold State.markElig
  grind [State.putVl_hbm]

theorem State.endLeaseCopy_canon {a slot : Nat} {image : Option (Line × Bool)} (hw : s.Canon) : (s.endLeaseCopy a slot image).Canon := by
  unfold State.endLeaseCopy
  grind [State.markElig_canon, State.answerSnoop_canon, State.putCopy_hbm, foldl_canon]

theorem State.endLeaseHome_canon {slot : Nat} {image : Option (Line × Bool)} (hw : s.Canon) : (s.endLeaseHome slot image).Canon := by
  unfold State.endLeaseHome
  grind [State.putVl_hbm, State.settleTxn_canon]

/-! ### Translation and the fault list -/

theorem State.homeWord_canon {pa : Nat} {a0 : Word} {a1 : Bool} (h : s.homeWord pa = some (t, a0, a1)) (hw : s.Canon) : t.Canon := by
  unfold State.homeWord at h
  grind [State.homeRead_canon, Option.map_eq_some_iff]

theorem State.wcPut_canon {die : Nat} {e : WcE} (hw : s.Canon) : (s.wcPut die e).Canon := by
  unfold State.wcPut
  grind [State.modDie_hbm]

theorem State.walkFrom_canon {k : WalkCtx} {l table : Nat} (hw : s.Canon) : (State.walkFrom k l s table).1.Canon := by
  induction l generalizing s table with
  | zero => exact hw
  | succ l ih =>
    unfold State.walkFrom
    grind [State.homeWord_canon, State.wcPut_canon]

theorem State.physRead_canon {slot : Nat} (hw : s.Canon) : (s.physRead slot).1.Canon := by
  unfold State.physRead
  grind [State.homeRead_canon]

theorem State.walk_canon {c : Ctx} {va : Word} (hw : s.Canon) : (s.walk c va).1.Canon := by
  unfold State.walk
  grind [State.physRead_canon, State.walkFrom_canon]

theorem State.sawLine_canon {slot : Nat} (hw : s.Canon) : (s.sawLine slot).Canon := by
  unfold State.sawLine
  grind [State.hbmFetch_hbm]

theorem State.tlbPut_canon {c : Ctx} {e : TlbE} (hw : s.Canon) : (s.tlbPut c e).Canon := by
  unfold State.tlbPut
  grind [State.modCore_hbm, State.modDie_hbm]

theorem homeWrite_map_canon {slot : Nat} {f : Line → Line} {elig : Option Bool} {pin : Option (Nat × Nat)}
    (h : (s.homeWrite slot f elig pin).map (·.1) = some t) (hw : s.Canon) : t.Canon := by
  obtain ⟨p, hp, rfl⟩ := Option.map_eq_some_iff.mp h
  exact State.homeWrite_canon hp hw

theorem State.walkNow_canon {c : Ctx} {va : Word} {a : Access} {b : Bool} (hw : s.Canon) : (s.walkNow c va a b).1.Canon := by
  unfold State.walkNow
  grind [State.walk_canon, homeWrite_map_canon, State.tlbPut_canon]

theorem State.translate_canon {c : Ctx} {va : Word} {a : Access} {b : Bool} (hw : s.Canon) : (s.translate c va a b).1.Canon := by
  unfold State.translate
  grind [State.sawLine_canon, State.modDie_hbm, State.walkNow_canon, State.later_hbm]

theorem State.homePut_canon {pa : Nat} {ws : List (Nat × Word)} (h : s.homePut pa ws = some t) (hw : s.Canon) : t.Canon := by
  unfold State.homePut at h
  grind [State.homeWrite_canon, Option.map_eq_some_iff]

theorem State.postWaits_canon {p : FaultPost} (hw : s.Canon) : (s.postWaits p).1.Canon := by
  unfold State.postWaits
  grind [State.raise_hbm]

theorem readShared_getD_canon {a slot : Nat} {pin : Option (Nat × Nat)} (hw : s.Canon) :
    (((s.readShared a slot pin).map (·.1)).getD s).Canon :=
  getD_canon (fun t ht => by
    obtain ⟨p, hp, rfl⟩ := Option.map_eq_some_iff.mp ht
    exact State.readShared_canon hp hw) hw

theorem State.postEntry_canon {p : FaultPost} (hw : s.Canon) : (s.postEntry p).1.Canon := by
  have hrec := State.physRead_canon (slot := p.asrec / 81) hw
  unfold State.postEntry
  split
  · grind [State.laterOnce_hbm]
  · grind [State.postWaits_canon]
  · rename_i u rec hu
    have hu' : u.Canon := by grind
    dsimp only
    split
    · exact State.postWaits_canon hu'
    · split
      · grind [State.raise_hbm, State.postWaits_canon]
      · split
        · exact State.postWaits_canon hu'
        · split
          · grind [State.laterOnce_hbm]
          · split
            · grind [State.homePut_canon, State.laterOnce_hbm]
            · exact readShared_getD_canon (by grind [State.homePut_canon])

theorem State.postLate_canon {p : FaultPost} (hw : s.Canon) : (s.postLate p).1.Canon := by
  unfold State.postLate
  grind [State.homePut_canon, readShared_getD_canon, State.laterOnce_hbm]

theorem State.postFault_canon {c : Ctx} {perm : Bool} {level : Nat} {va : Word} {a : Access} {who : List Parked} (hw : s.Canon) :
    (s.postFault c perm level va a who).Canon := by
  unfold State.postFault
  grind [State.sawLine_canon, State.postLate_canon, State.postEntry_canon, foldl_canon]

theorem State.readLine_canon {core : Nat} {x : Xl} {a0 : Line} (h : s.readLine core x = some (t, a0)) (hw : s.Canon) : t.Canon := by
  unfold State.readLine at h
  grind [State.homeRead_canon, State.readShared_canon]

/-! ### Words of a cabinet -/

theorem State.putCabWord_canon {n : Nat} {c : CabAt} {w : Word} (hw : s.Canon) : (s.putCabWord n c w).Canon := by
  unfold State.putCabWord
  grind [State.setCab_canon, State.modTeam_hbm]

end Sys2Proof.Machine
end

section
/-! PROOFS. The canonical form of memory is kept: what instructions perform. -/

namespace Sys2Proof.Machine

variable {s t u : State}

/-! ### Escrow, windows, publication and the end of a thread -/

theorem State.modEline_canon {n v : Nat} {f : ELine → ELine} (hw : s.Canon) : (s.modEline n v f).Canon := by
  unfold State.modEline
  grind [State.modBody_hbm]

theorem State.escrowRoom_canon {core set : Nat} (hw : s.Canon) : (s.escrowRoom core set).1.Canon := by
  unfold State.escrowRoom
  grind [State.modEline_canon, State.roomL1_canon]

theorem State.residentEline_canon {n v : Nat} (hw : s.Canon) : (s.residentEline n v).Canon := by
  unfold State.residentEline
  grind [State.escrowRoom_canon, State.modEline_canon]

theorem State.escrowPut_canon {n th : Nat} {va : Word} {x : Xl} {b : Bool} {w : Word} (hw : s.Canon) : (s.escrowPut n th va x b w).Canon :=
    by
  unfold State.escrowPut
  grind [State.modBody_hbm, State.residentEline_canon]

theorem State.freeLines_canon {n : Nat} (hw : s.Canon) : (s.freeLines n).Canon := by
  unfold State.freeLines
  grind [State.modTeam_hbm]

theorem State.setImage_canon {t : TRef} {v : Nat} {f : Line → Line} (hw : s.Canon) : (s.setImage t v f).Canon := by
  unfold State.setImage
  grind [State.modThread_hbm]

theorem State.checkEline_canon {n v : Nat} (hw : s.Canon) : (s.checkEline n v).1.Canon := by
  unfold State.checkEline
  grind [State.raiseFixed_hbm, State.modEline_canon, State.laterOnce_hbm]

theorem State.view_canon {t : TRef} {va : Word} {x : Xl} (hw : s.Canon) : (s.view t va x).1.Canon := by
  unfold State.view
  grind [State.checkEline_canon, State.residentEline_canon, State.readLine_canon]

theorem State.storeWord_canon {t : TRef} {va : Word} {x : Xl} {w : Word} (hw : s.Canon) : (s.storeWord t va x w).Canon := by
  unfold State.storeWord
  grind [State.setImage_canon, State.escrowPut_canon]

theorem State.irrevocable_canon {n : Nat} (hw : s.Canon) : (s.irrevocable n).Canon := by
  unfold State.irrevocable
  grind [State.modTeam_hbm]

theorem State.irrevocableAll_canon {l : List TRef} (hw : s.Canon) : (s.irrevocableAll l).Canon := by
  unfold State.irrevocableAll
  grind [State.irrevocable_canon, foldl_canon]

theorem State.finish_canon {t : TRef} {pc : Word} {k : Nat} (hw : s.Canon) : (s.finish t pc k).Canon := by
  unfold State.finish
  grind [State.modThread_hbm]

theorem State.release_canon {t : TRef} (hw : s.Canon) : (s.release t).Canon := by
  unfold State.release
  grind [State.finish_canon, State.setRun_canon]

theorem State.wakeLanes_canon {t : TRef} (hw : s.Canon) : (s.wakeLanes t).Canon := by
  unfold State.wakeLanes
  grind [State.setRun_canon, foldl_canon]

theorem State.wakeAcked_canon {t : TRef} (hw : s.Canon) : (s.wakeAcked t).Canon := by
  unfold State.wakeAcked
  grind [State.setRun_canon, State.wakeLanes_canon]

theorem State.arrive_canon {t : TRef} {reg : Nat} {src : WinSrc} {v : Option Word} (hw : s.Canon) : (s.arrive t reg src v).Canon := by
  unfold State.arrive
  grind [State.modThread_hbm]

theorem State.pubEndFault_canon {n : Nat} {va : Word} (hw : s.Canon) : (s.pubEndFault n va).Canon := by
  unfold State.pubEndFault
  grind [State.raise_hbm, State.modGrid_hbm]

theorem State.modPub_canon {n id : Nat} {f : Pub → Pub} (hw : s.Canon) : (s.modPub n id f).Canon := by
  unfold State.modPub
  grind [State.modTeam_hbm]

theorem State.sendLine_canon {n id : Nat} {e : ELine} (hw : s.Canon) : (s.sendLine n id e).Canon := by
  unfold State.sendLine
  grind [State.modPub_canon, State.later_hbm]

theorem State.publishLine_canon {n id : Nat} {w : PubWaiter} {e : ELine} (hw : s.Canon) : (s.publishLine n id w e).Canon := by
  unfold State.publishLine
  grind [State.sendLine_canon, State.translate_canon, State.modPub_canon, State.postFault_canon, State.laterOnce_hbm, State.raise_hbm]

theorem State.parkOwners_canon {n id : Nat} (hw : s.Canon) : (s.parkOwners n id).Canon := by
  unfold State.parkOwners
  grind [State.modThread_hbm, foldl_canon]

theorem State.unparkOwners_canon {n id : Nat} (hw : s.Canon) : (s.unparkOwners n id).Canon := by
  unfold State.unparkOwners
  grind [State.modThread_hbm, foldl_canon]

theorem State.retryLines_canon {n id : Nat} {l : List ELine} (hw : s.Canon) : (s.retryLines n id l).Canon := by
  unfold State.retryLines
  grind [State.publishLine_canon, foldl_canon]

theorem State.failPub_canon {n : Nat} {w : PubWaiter} {failed : List (ELine × Refused)} (hw : s.Canon) : (s.failPub n w failed).Canon := by
  unfold State.failPub
  grind [State.pubEndFault_canon, State.modTeam_hbm, State.raiseTraps_canon, foldl_canon]

theorem State.settlePub_canon {n id : Nat} (hw : s.Canon) : (s.settlePub n id).Canon := by
  unfold State.settlePub
  grind [State.modTeam_hbm, State.freeLines_canon, State.failPub_canon, State.modThread_hbm, State.release_canon, State.wakeAcked_canon,
    State.laterOnce_hbm, foldl_canon]

theorem State.retryHeld_canon {n id : Nat} (hw : s.Canon) : (s.retryHeld n id).Canon := by
  unfold State.retryHeld
  grind [State.unparkOwners_canon, State.modPub_canon, State.retryLines_canon, State.settlePub_canon]

theorem State.startPublication_canon {n : Nat} {set : PubSet} {w : PubWaiter} (hw : s.Canon) : (s.startPublication n set w).Canon := by
  unfold State.startPublication
  grind [State.checkEline_canon, State.modTeam_hbm, State.modThread_hbm, State.publishLine_canon, State.freeLines_canon,
    State.settlePub_canon, foldl_canon]

theorem State.ackPub_canon {n id vline : Nat} {no : Option Refused} (hw : s.Canon) : (s.ackPub n id vline no).Canon := by
  unfold State.ackPub
  grind [State.parkOwners_canon, State.modPub_canon, State.retryLines_canon, State.freeLines_canon, State.settlePub_canon]

theorem State.releaseStep_canon {t : TRef} {scope : Int} (hw : s.Canon) : (s.releaseStep t scope).1.Canon := by
  unfold State.releaseStep
  grind [State.irrevocable_canon, State.startPublication_canon, State.setRun_canon]

theorem State.settleBarrier_canon {n : Nat} {r : Run} (hw : s.Canon) : (s.settleBarrier n r).Canon := by
  unfold State.settleBarrier
  grind [State.laterOnce_hbm, State.modTeam_hbm, State.startPublication_canon, foldl_canon]

theorem State.settleBarriers_canon {n : Nat} (hw : s.Canon) : (s.settleBarriers n).Canon := by
  unfold State.settleBarriers
  grind [State.settleBarrier_canon, foldl_canon]

theorem State.openInterval_canon {n : Nat} (hw : s.Canon) : (s.openInterval n).Canon := by
  unfold State.openInterval
  grind [State.modTeam_hbm]

theorem State.dropLease_canon {t : TRef} {r : LeaseRec} (hw : s.Canon) : (s.dropLease t r).Canon := by
  unfold State.dropLease
  grind [State.endLeaseHome_canon, State.endLeaseCopy_canon]

theorem State.sweepLeases_canon (hw : s.Canon) : s.sweepLeases.Canon := by
  unfold State.sweepLeases
  grind [State.endLeaseCopy_canon, State.endLeaseHome_canon, foldl_canon]

theorem State.exitThread_canon {t : TRef} (hw : s.Canon) : (s.exitThread t).Canon := by
  unfold State.exitThread
  grind [State.dropLease_canon, State.modThread_hbm, foldl_canon]

theorem State.afterExit_canon {n : Nat} (hw : s.Canon) : (s.afterExit n).Canon := by
  unfold State.afterExit
  grind [State.modTeam_hbm, State.laterOnce_hbm, State.settleBarriers_canon]

/-! ### How an instruction is performed -/

theorem State.tret_canon {n : Nat} {h : Handler} {all : Bool} (hw : s.Canon) : (s.tret n h all).Canon := by
  unfold State.tret
  grind [State.modTeam_hbm, State.modSquad_hbm, State.exitThread_canon, State.setPc_canon, State.raiseTraps_canon, State.finish_canon,
    State.setRun_canon, State.afterExit_canon, State.laterOnce_hbm, foldl_canon]

theorem State.handlerFault_canon {n : Nat} (hw : s.Canon) : (s.handlerFault n).Canon := by
  unfold State.handlerFault
  grind [State.raise_hbm, State.tret_canon]

theorem State.raiseClass_canon {n : Nat} {t : Trap} (hw : s.Canon) : (s.raiseClass n t).Canon := by
  unfold State.raiseClass
  grind [State.raise_hbm]

theorem State.modHandler_canon {n : Nat} {f : Handler → Handler} (hw : s.Canon) : (s.modHandler n f).Canon := by
  unfold State.modHandler
  grind [State.modTeam_hbm]

theorem State.park_canon {x : Exec} {c : Ctx} {perm : Bool} {level : Nat} {va : Word} {a : Access} (hw : s.Canon) :
    (s.park x c perm level va a).Canon := by
  unfold State.park
  grind [State.postFault_canon, State.modHandler_canon, State.modThread_hbm, foldl_canon]

theorem Eff.stop_canon {e : Eff} {x : Exec} {k : Stop} (hw : e.s.Canon) : (e.stop x k).s.Canon := by
  unfold Eff.stop
  grind [State.park_canon]

theorem eachExec_canon {f : Eff → Exec → Eff} (h : StepKeeps f) : (eachExec f).Keeps := fun _ _ hw => foldl_eff_canon h hw

theorem inOrder_canon {f : Eff → Exec → Eff} (h : StepKeeps f) : (inOrder f).Keeps :=
  eachExec_canon fun e x he => by grind

theorem State.conclude_canon {i : Instr} {all : List Exec} {e : Eff} (he : e.s.Canon) : (s.conclude i all e).Canon := by
  unfold State.conclude
  cases s.cur.handler with
  | some n => grind [foldl_canon, State.raiseClass_canon, State.handlerFault_canon, State.modHandler_canon]
  | none =>
    refine State.raiseTraps_canon (foldl_canon (fun s p hs => ?_) (foldl_canon (fun s x hs => ?_) (foldl_canon (fun s x hs => ?_) he)))
    · grind [foldl_canon, State.setPc_canon]
    · exact foldl_canon (fun s r hs => by grind [State.modThread_hbm]) hs
    · exact foldl_canon (fun s r hs => by grind [State.finish_canon]) hs

theorem State.illegal_canon {code : Nat} {words : List Word} (hw : s.Canon) : (s.illegal code words).Canon := by
  unfold State.illegal
  grind [State.handlerFault_canon, State.raiseTraps_canon]

theorem perform_canon {i : Instr} {o : Opnd} {fm : Form} {body : Body} (hb : body.Keeps) (h : perform i o fm body s = .next t)
    (hw : s.Canon) : t.Canon := by
  unfold perform at h
  dsimp only at h
  split at h
  · grind [State.illegal_canon]
  · split at h
    · grind [State.illegal_canon]
    · split at h
      · grind
      · injection h with h
        exact h ▸ State.conclude_canon (hb _ _ hw)

theorem writeAll_canon {w : List (Exec × Int × Nat × Word)} (hw : s.Canon) : (writeAll w s).Canon := by
  unfold writeAll
  grind [Exec.set_canon, foldl_canon]

theorem wordsBody_canon {o : Opnd} {f : State → Exec → Nat → List Word} : (wordsBody o f).Keeps := by
  unfold wordsBody
  grind [writeAll_canon, Eff.of_s]

theorem tritBody_canon {o : Opnd} {f : State → Exec → Trit} : (tritBody o f).Keeps := by
  unfold tritBody
  grind [State.setPred_canon, Exec.setPred_canon, foldl_canon, Eff.of_s]

theorem Exec.deliver_canon {x : Exec} {o : Opnd} {k : Nat} {w : Word} (hw : s.Canon) : (Exec.deliver s x o k w).Canon := by
  unfold Exec.deliver
  grind [Exec.set_canon, State.modThread_hbm, State.later_hbm]

theorem noBody_canon : Body.Keeps noBody := fun _ _ hw => hw

/-! ### Register instructions -/

theorem lputTo_canon {x : Exec} {f lane num : Int} {w : Word} (hw : s.Canon) : (lputTo s x f lane num w).Canon := by
  unfold lputTo
  grind [State.setK_canon, Exec.setK_canon, State.setV_canon, State.setPred_canon, Exec.setPred_canon]

/-! ### PART -/

theorem partBody_canon {o : Opnd} : (partBody o).Keeps := by
  unfold partBody
  grind [State.modSquad_hbm, Eff.of_s]

/-! ### The special-function unit -/

theorem State.queueSfu_canon {n q : Nat} {e : SfuEntry} (hw : s.Canon) : (s.queueSfu n q e).Canon := by
  unfold State.queueSfu
  grind [State.modSquad_hbm, State.later_hbm]

theorem sfuBody_canon {o : Opnd} {fn : SfuFn} : (sfuBody o fn).Keeps := by
  unfold sfuBody
  grind [State.modThread_hbm, State.queueSfu_canon, foldl_canon, Eff.of_s]

theorem execSfuResultLands_canon {team squad : Nat} (h : execSfuResultLands team squad s = .next t) (hw : s.Canon) : t.Canon := by
  unfold execSfuResultLands at h
  grind [State.modSquad_hbm, State.setK_canon, Exec.setK_canon, State.arrive_canon, foldl_canon]

theorem execLoadDataReturn_canon {t : TRef} {reg : Nat} (h : execLoadDataReturn t reg s = .next u) (hw : s.Canon) : u.Canon := by
  unfold execLoadDataReturn at h
  grind [State.arrive_canon]

/-! ### QUANT -/

theorem quantCheck_canon {n : Nat} {st : State × Except Stop (List (Word × Xl))} {va : Word} (hw : st.1.Canon) :
    (quantCheck n st va).1.Canon := by
  unfold quantCheck
  grind [State.translate_canon, State.homeRead_canon]

theorem quantStep_canon {o : Opnd} {n : Nat} {xl : List (Word × Xl)} {mine : Word × Int → List Exec} {c : Word × Int → Contribution}
    {acc : State × List (Exec × Int) × List Exec} {p : Word × Int} (hw : acc.1.Canon) : (quantStep o n xl mine c acc p).1.Canon := by
  unfold quantStep
  grind [State.homeWrite_canon, State.raise_hbm]

theorem quantBody_canon {o : Opnd} : (quantBody o).Keeps := by
  intro s xs hw
  unfold quantBody
  cases xs with
  | nil => exact hw
  | cons x0 rest =>
    have hchecked := foldl_fst_canon (f := quantCheck x0.t.team) (fun _ _ hp => quantCheck_canon hp) (p := (s, .ok []))
      (l := distinct ((x0 :: rest).map (fun x => x.reg s o.b 0))) hw
    dsimp only
    split
    · rename_i s' e hs'
      grind [Eff.of_s, State.park_canon]
    · rename_i s' xl hs'
      rw [hs'] at hchecked
      exact writeAll_canon (foldl_fst_canon (fun _ _ hp => quantStep_canon hp) (by grind [State.irrevocable_canon]))

/-! ### Loads, stores and line control -/

theorem State.findGlob_canon {n : Nat} {acc : Access} {word : Bool} {va : Word} (hw : s.Canon) : (s.findGlob n acc word va).1.Canon := by
  unfold State.findGlob
  grind [State.translate_canon]

theorem State.findPlace_canon {x : Exec} {sp : Int} {acc : Access} {word : Bool} {va : Word} (hw : s.Canon) :
    (s.findPlace x sp acc word va).1.Canon := by
  unfold State.findPlace
  grind [State.findGlob_canon]

theorem State.findAll_canon {f : State → Nat → State × Except Stop Place} (h : ∀ s k, s.Canon → (f s k).1.Canon) {l : List Nat}
    (hw : s.Canon) : (State.findAll f l s).1.Canon := by
  induction l generalizing s with
  | nil => exact hw
  | cons k l ih =>
    unfold State.findAll
    grind

theorem State.readPlace_canon {x : Exec} {p : Place} (hw : s.Canon) : (s.readPlace x p).1.Canon := by
  unfold State.readPlace
  grind [State.view_canon]

theorem State.readAll_canon {x : Exec} {l : List (Nat × Place)} (hw : s.Canon) : (State.readAll x l s).1.Canon := by
  induction l generalizing s with
  | nil => exact hw
  | cons p l ih =>
    unfold State.readAll
    grind [State.readPlace_canon]

theorem loadLane_canon {o : Opnd} {tryte : Bool} {f : Exec → State → Nat → State × Except Stop Place}
    (h : ∀ x s k, s.Canon → (f x s k).1.Canon) : StepKeeps (loadLane o tryte f) := by
  intro e x he
  have := State.findAll_canon (h x) (l := blockSteps o) he
  unfold loadLane
  grind [State.readAll_canon, Exec.deliver_canon, foldl_canon, Eff.stop_canon]

theorem State.writePlace_canon {x : Exec} {tryte : Bool} {p : Place} {w : Word} (hw : s.Canon) : (s.writePlace x tryte p w).Canon := by
  unfold State.writePlace
  grind [State.storeWord_canon, State.putCabWord_canon]

theorem storeLane_canon {o : Opnd} {tryte : Bool} {f : Exec → State → Nat → State × Except Stop Place}
    (h : ∀ x s k, s.Canon → (f x s k).1.Canon) : StepKeeps (storeLane o tryte f) := by
  intro e x he
  have := State.findAll_canon (h x) (l := blockSteps o) he
  unfold storeLane
  grind [State.writePlace_canon, foldl_canon, Eff.stop_canon]

theorem ldPlace_canon {o : Opnd} {acc : Access} {x : Exec} {k : Nat} (hw : s.Canon) : (ldPlace o acc x s k).1.Canon := by
  unfold ldPlace
  grind [State.findPlace_canon]

theorem bodyLd_canon {o : Opnd} : (bodyLd o).Keeps := by
  unfold bodyLd
  grind [eachExec_canon, loadLane_canon, ldPlace_canon]

theorem bodySt_canon {o : Opnd} : (bodySt o).Keeps := by
  unfold bodySt
  grind [inOrder_canon, storeLane_canon, ldPlace_canon]

theorem ldxPlace_canon {o : Opnd} {acc : Access} {x : Exec} {k : Nat} (hw : s.Canon) : (ldxPlace o acc x s k).1.Canon := by
  unfold ldxPlace
  grind [State.findPlace_canon]

theorem quietPlace_canon {x : Exec} {o : Opnd} (hw : s.Canon) : (quietPlace s x o).1.Canon := by
  unfold quietPlace
  grind [State.findGlob_canon]

theorem quiet_canon {o : Opnd} {ask : Exec → Xl → State → State} (h : ∀ x l s, s.Canon → (ask x l s).Canon) : StepKeeps (quiet o ask) := by
  intro e x he
  unfold quiet
  grind [quietPlace_canon]

theorem askL1_canon {x : Exec} {l : Xl} (hw : s.Canon) : (askL1 x l s).Canon := by
  unfold askL1
  grind [State.later_hbm]

theorem askHome_canon {x : Exec} {l : Xl} (hw : s.Canon) : (askHome x l s).Canon := hw

theorem State.evictCopy_canon {core slot : Nat} (hw : s.Canon) : (s.evictCopy core slot).Canon := by
  unfold State.evictCopy
  grind [State.putCopy_hbm, State.laterOnce_hbm]

/-! ### Control instructions -/

theorem Eff.jump_canon {e : Eff} {x : Exec} {dest : Word} (hw : e.s.Canon) : (e.jump x dest).s.Canon := by
  unfold Eff.jump
  grind [Eff.stop_canon]

theorem Eff.branch_canon {e : Eff} {x : Exec} {off : Int} (hw : e.s.Canon) : (e.branch x off).s.Canon := by
  unfold Eff.branch
  grind

theorem bodyJmpr_canon {o : Opnd} : (bodyJmpr o).Keeps := by
  unfold bodyJmpr
  grind [eachExec_canon, Eff.jump_canon]

theorem pushAll_canon {o : Opnd} {x : Exec} {back : Word} {l : List (Nat × Word × Place)} (hw : s.Canon) : (pushAll o x back l s).Canon :=
    by
  unfold pushAll
  grind [Exec.set_canon, State.writePlace_canon, foldl_canon]

theorem callBody_canon {o : Opnd} {size : Int} {target : State → Exec → Word} : (callBody o size target).Keeps :=
  inOrder_canon fun e x he => by
    have := State.findAll_canon (f := fun s k => s.findPlace x (spOf o.f) .write true ((x.reg e.s o.d k).add (-3)))
      (fun s k hs => State.findPlace_canon hs) (l := blockSteps o) he
    grind [Eff.stop_canon, pushAll_canon]

theorem bodyCallr_canon {o : Opnd} {size : Int} : (bodyCallr o size).Keeps := by
  unfold bodyCallr
  grind [callBody_canon]

theorem bodyRet_canon {o : Opnd} : (bodyRet o).Keeps := by
  unfold bodyRet
  grind [eachExec_canon, State.findPlace_canon, Eff.stop_canon, State.readPlace_canon, Exec.set_canon]

theorem bodyExit_canon : bodyExit.Keeps := by
  unfold bodyExit
  grind [State.exitThread_canon, State.afterExit_canon, foldl_canon, Eff.of_s]

theorem State.reorderPut_canon {o : Opnd} {k : Nat} {m : TRef × TRef × List Word} (hw : s.Canon) : (s.reorderPut o k m).Canon := by
  unfold State.reorderPut
  grind [State.setV_canon, foldl_canon]

theorem bodyReorder_canon {o : Opnd} : (bodyReorder o).Keeps := by
  unfold bodyReorder
  grind [State.modThread_hbm, State.reorderPut_canon, foldl_canon, Eff.of_s]

theorem bodyYield_canon : bodyYield.Keeps := by
  unfold bodyYield
  grind [State.modThread_hbm, foldl_canon, Eff.of_s]

/-! ### Synchronising accesses, leases, fences and barriers -/

theorem underMode_canon {bad : State → Exec → Bool} {b : Body} (h : b.Keeps) : (underMode bad b).Keeps := fun s _ hw => h s _ hw

theorem State.releaseExec_canon {x : Exec} {scope : Int} (hw : s.Canon) : (s.releaseExec x scope).1.Canon := by
  unfold State.releaseExec
  grind [State.releaseStep_canon, State.setRun_canon, foldl_fst_canon]

theorem State.releaseAll_canon {rel : Bool} {scope : Int} {xs : List Exec} (hw : s.Canon) : (s.releaseAll rel scope xs).1.Canon := by
  unfold State.releaseAll
  grind [State.releaseExec_canon, foldl_fst_canon]

theorem State.findSync_canon {n : Nat} {acc : Access} {word : Bool} {va : Word} (hw : s.Canon) : (s.findSync n acc word va).1.Canon := by
  unfold State.findSync
  grind [State.translate_canon]

theorem State.synSent_canon {t : TRef} (hw : s.Canon) : (s.synSent t).Canon := by
  unfold State.synSent
  grind [State.modThread_hbm]

theorem State.homeView_canon {t : TRef} {va : Word} {x : Xl} (hw : s.Canon) : (s.homeView t va x).1.Canon := by
  unfold State.homeView
  grind [State.homeRead_canon]

theorem bodyLds_canon {o : Opnd} : (bodyLds o).Keeps := by
  unfold bodyLds
  grind [underMode_canon, eachExec_canon, State.findSync_canon, Eff.stop_canon, State.homeView_canon, Exec.deliver_canon]

theorem State.awaitSerial_canon {x : Exec} {o : Opnd} (hw : s.Canon) : (s.awaitSerial x o).Canon := by
  unfold State.awaitSerial
  grind [State.modThread_hbm, State.modSquad_hbm]

theorem stsOne_canon {o : Opnd} {e : Eff} {x : Exec} (hw : e.s.Canon) : (stsOne o e x).s.Canon := by
  unfold stsOne
  grind [State.findSync_canon, Eff.stop_canon, State.releaseExec_canon, State.irrevocable_canon, State.storeWord_canon, Exec.set_canon,
    State.synSent_canon, State.awaitSerial_canon, State.later_hbm]

theorem bodySts_canon {o : Opnd} : (bodySts o).Keeps := by
  unfold bodySts
  grind [underMode_canon, eachExec_canon, stsOne_canon]

theorem State.putSerial_canon {t : TRef} {reg : Nat} {serial : Word} (hw : s.Canon) : (s.putSerial t reg serial).Canon := by
  unfold State.putSerial
  grind [State.arrive_canon, State.modSquad_hbm, State.setK_canon, Exec.setK_canon]

theorem State.dropSerial_canon {t : TRef} {reg : Nat} (hw : s.Canon) : (s.dropSerial t reg).Canon := by
  unfold State.dropSerial
  grind [State.modThread_hbm, State.modSquad_hbm]

theorem State.refusedWrite_canon {t : TRef} {reg : Option Nat} {r : Refused} (hw : s.Canon) : (s.refusedWrite t reg r).Canon := by
  unfold State.refusedWrite
  grind [State.dropSerial_canon, State.raiseTraps_canon]

theorem execStsAcknowledgement_canon {t : TRef} {reg : Option Nat} {reply : WriteReply}
    (h : execStsAcknowledgement t reg reply s = .next u) (hw : s.Canon) : u.Canon := by
  unfold execStsAcknowledgement at h
  grind [State.refusedWrite_canon, State.putSerial_canon, State.modThread_hbm, State.wakeAcked_canon, State.laterOnce_hbm]

theorem State.atomLanes_canon {o : Opnd} {xs : List Exec} (hw : s.Canon) : (State.atomLanes o xs s).1.s.Canon := by
  unfold State.atomLanes
  exact foldl_acc_canon (fun p : Eff × _ => p.1.s) (fun p x hp => by grind [State.findSync_canon, Eff.stop_canon]) hw

theorem atomRelease_canon {rel : Bool} {scope : Int} {p : Eff × List AtomLane} (hw : p.1.s.Canon) : (atomRelease rel scope p).1.s.Canon :=
    by
  unfold atomRelease
  grind [State.releaseAll_canon, foldl_canon, State.setRun_canon]

theorem atomImage_canon {o : Opnd} {ret : Bool} {e : Eff} {a : AtomLane} (hw : e.s.Canon) : (atomImage o ret e a).s.Canon := by
  unfold atomImage
  grind [Eff.stop_canon, State.setImage_canon, State.irrevocable_canon, Exec.deliver_canon]

theorem atomHome_canon {o : Opnd} {e : Eff} {l : List AtomLane} (hw : e.s.Canon) : (atomHome o e l).s.Canon := by
  unfold atomHome
  cases l with
  | nil => exact hw
  | cons a rest =>
    dsimp only
    split
    · exact hw
    · split
      · exact hw
      · rename_i s line hs
        have := State.homeRead_canon hs hw
        split
        · exact foldl_acc_canon Eff.s (fun e b he => Eff.stop_canon he) this
        · grind [State.homeWrite_canon, foldl_canon, Exec.deliver_canon, State.irrevocableAll_canon]

theorem bodyAtom_canon {o : Opnd} : (bodyAtom o).Keeps := underMode_canon fun s xs hw => by
  have := atomRelease_canon (rel := o.f == -1 || o.f == 2) (scope := o.x) (State.atomLanes_canon (o := o) (xs := xs) hw)
  exact foldl_acc_canon Eff.s (fun e w he => atomHome_canon he) (foldl_acc_canon Eff.s (fun e a he => atomImage_canon he) this)

theorem redHome_canon {o : Opnd} {l : List AtomLane} (hw : s.Canon) : (redHome o s l).Canon := by
  unfold redHome
  grind [State.synSent_canon, State.irrevocableAll_canon, State.later_hbm, foldl_canon]

theorem bodyRed_canon {o : Opnd} : (bodyRed o).Keeps := underMode_canon fun s xs hw => by
  have := atomRelease_canon (rel := o.f == -1) (scope := o.x) (State.atomLanes_canon (o := o) (xs := xs) hw)
  refine foldl_canon (fun s w hs => redHome_canon hs) (foldl_canon (fun s a hs => ?_)
    (foldl_acc_canon Eff.s (fun e a he => atomImage_canon he) this))
  grind [State.modBody_hbm]

theorem leaseAsk_canon {e : Eff} {x : Exec} {v : Nat} {l : Xl} {d : Int} (hw : e.s.Canon) : (leaseAsk e x v l d).s.Canon := by
  unfold leaseAsk
  grind [State.setRun_canon, State.startPublication_canon, State.modThread_hbm, State.putCopy_hbm, State.later_hbm]

theorem bodyLease_canon {o : Opnd} : (bodyLease o).Keeps := by
  unfold bodyLease
  grind [underMode_canon, eachExec_canon, State.findSync_canon, Eff.stop_canon, leaseAsk_canon]

theorem State.refuseLease_canon {t : TRef} {r : LeaseRec} {c : Nat} (hw : s.Canon) : (s.refuseLease t r c).Canon := by
  unfold State.refuseLease
  grind [State.modThread_hbm, State.raiseTraps_canon]

theorem State.takeLease_canon {core : Nat} {r : LeaseRec} {a0 : Line} (h : s.takeLease core r = some (t, a0)) (hw : s.Canon) : t.Canon := by
  unfold State.takeLease at h
  grind [ensure_wf, State.invalidate_hbm, State.putVl_hbm, State.checkCopy_hbm, State.putCopy_hbm, Option.map_eq_some_iff]

theorem execLeaseGrant_canon {t : TRef} (h : execLeaseGrant t s = .next u) (hw : s.Canon) : u.Canon := by
  unfold execLeaseGrant at h
  grind [State.refuseLease_canon, State.later_hbm, State.takeLease_canon, State.modThread_hbm, State.release_canon]

theorem execLeaseExpiry_canon {t : TRef} {line : Nat} (h : execLeaseExpiry t line s = .next u) (hw : s.Canon) : u.Canon := by
  unfold execLeaseExpiry at h
  grind [State.dropLease_canon, State.modThread_hbm]

theorem endLease_canon {o : Opnd} {x : Exec} {r : LeaseRec} (hw : s.Canon) : (endLease o s x r).Canon := by
  unfold endLease
  grind [State.irrevocable_canon, State.noteWrite_hbm, State.endLeaseHome_canon, State.endLeaseCopy_canon, State.setPred_canon,
    Exec.setPred_canon, State.modThread_hbm]

theorem bodyUnlease_canon {o : Opnd} : (bodyUnlease o).Keeps := underMode_canon (eachExec_canon fun e x he => by
  dsimp only
  grind [State.findSync_canon, State.releaseExec_canon, endLease_canon, Exec.setPred_canon, Eff.stop_canon])

theorem bodyFence_canon {o : Opnd} : (bodyFence o).Keeps := by
  unfold bodyFence
  grind [State.releaseAll_canon, Eff.of_s]

theorem bodyWack_canon : bodyWack.Keeps := by
  unfold bodyWack
  grind [eachExec_canon, State.setRun_canon]

theorem bodyPublish_canon {words : List Word} : (bodyPublish words).Keeps := by
  unfold bodyPublish
  grind [eachExec_canon, State.irrevocable_canon, State.modThread_hbm, State.startPublication_canon]

theorem execPublication_canon {team : Nat} {set : PubSet} {waiter : PubWaiter} (h : execPublication team set waiter s = .next t)
    (hw : s.Canon) : t.Canon := by
  unfold execPublication at h
  grind [State.startPublication_canon]

theorem execPublicationAck_canon {team pub : Nat} {reply : LineReply} (h : execPublicationAck team pub reply s = .next t) (hw : s.Canon) :
    t.Canon := by
  unfold execPublicationAck at h
  grind [State.ackPub_canon]

theorem arriveBody_canon {r : Run} {words : List Word} : (arriveBody r words).Keeps := by
  unfold arriveBody
  grind [State.modThread_hbm, State.settleBarrier_canon, foldl_canon, Eff.of_s]

theorem bodyGphase_canon {words : List Word} : (bodyGphase words).Keeps := by
  unfold bodyGphase
  grind [underMode_canon, arriveBody_canon]

theorem State.passBarrier_canon {teams : List Nat} {r : Run} {interval : Bool} (hw : s.Canon) : (s.passBarrier teams r interval).Canon := by
  unfold State.passBarrier
  grind [State.release_canon, State.modTeam_hbm, State.openInterval_canon, foldl_canon]

theorem execBarrierComplete_canon {team bar : Nat} (h : execBarrierComplete team bar s = .next t) (hw : s.Canon) : t.Canon := by
  unfold execBarrierComplete at h
  grind [State.passBarrier_canon]

theorem execCbarComplete_canon {grid crew : Nat} (h : execCbarComplete grid crew s = .next t) (hw : s.Canon) : t.Canon := by
  unfold execCbarComplete at h
  grind [State.passBarrier_canon]

theorem execGphaseComplete_canon {grid : Nat} (h : execGphaseComplete grid s = .next t) (hw : s.Canon) : t.Canon := by
  unfold execGphaseComplete at h
  grind [State.passBarrier_canon]

end Sys2Proof.Machine
end

section
/-! PROOFS. The canonical form of memory is kept: control words, engines and collectives. -/

namespace Sys2Proof.Machine

variable {s t u : State}

/-! ### The control words -/

theorem State.walkerRead_canon {slot : Nat} (hw : s.Canon) : (s.walkerRead slot).1.Canon := by
  unfold State.walkerRead
  cases h : s.homeRead slot with
  | none => grind [State.raise_hbm, State.sawLine_canon]
  | some p => grind [State.raise_hbm, State.homeRead_canon]

theorem State.faultGraph_canon {g : Nat} {node : Int} (hw : s.Canon) : (s.faultGraph g node).Canon := by
  unfold State.faultGraph
  grind [State.setCwInt_hbm, State.modGraph_hbm, State.raise_hbm]

theorem State.releaseNode_canon {g i : Nat} (hw : s.Canon) : (s.releaseNode g i).Canon := by
  unfold State.releaseNode
  grind [State.modGraph_hbm, State.walkerRead_canon, State.faultGraph_canon, State.later_hbm]

theorem State.armGraph_canon {g : Nat} (hw : s.Canon) : (s.armGraph g).Canon := by
  unfold State.armGraph
  grind [State.setCwInt_hbm, State.faultGraph_canon, State.releaseNode_canon]

theorem State.emptyGraph_canon {g : Nat} (hw : s.Canon) : (s.emptyGraph g).Canon := by
  unfold State.emptyGraph
  grind [State.setCwInt_hbm, State.modGraph_hbm]

theorem State.startShoot_canon {asrec : Nat} {kind : Int} {page : Word} {w : Option TRef} {id : Nat}
    (h : s.startShoot asrec kind page w = some (t, id)) (hw : s.Canon) : t.Canon := by
  unfold State.startShoot at h
  obtain ⟨u, hu, ht⟩ := Option.map_eq_some_iff.mp h
  have : u.Canon := foldl_bind_canon (fun s a _ t ht hs => homeWrite_map_canon ht hs) hu hw
  grind

theorem State.sdopStart_canon {kind : Int} (hw : s.Canon) : (s.sdopStart kind).Canon := by
  unfold State.sdopStart
  grind [State.setCwInt_hbm, State.startShoot_canon, State.later_hbm]

theorem State.setItems_canon {sel : Nat} {b : List (BitVec 8)} (hw : s.Canon) : (s.setItems sel b).Canon := by
  unfold State.setItems
  grind [State.setCwInt_hbm, foldl_canon]

theorem State.extend_canon {n : Nat} {d : List (BitVec 8)} (hw : s.Canon) : (s.extend n d).Canon := by
  unfold State.extend
  grind [State.setItems_canon]

theorem State.extGo_canon (hw : s.Canon) : s.extGo.Canon := by
  unfold State.extGo
  grind [State.extend_canon]

theorem State.attGo_canon {p : Option Nat} (hw : s.Canon) : (s.attGo p).Canon := by
  unfold State.attGo
  grind [State.setCwInt_hbm, State.later_hbm]

theorem State.storeCw_canon {sel : Int} {v : Word} (hw : s.Canon) : (s.storeCw sel v).Canon := by
  unfold State.storeCw
  grind [State.setCw_hbm]

theorem State.writeCw_canon {sel : Int} {v : Word} {p : Option Nat} (hw : s.Canon) : (s.writeCw sel v p).Canon := by
  unfold State.writeCw
  grind [State.armGraph_canon, State.emptyGraph_canon, State.setCw_hbm, State.later_hbm, State.attGo_canon, State.extGo_canon,
    State.storeCw_canon]

theorem State.whenReady_canon {sel : Int} {f : State → State} (hf : s.Canon → (f s).Canon) (h : s.whenReady sel f = .next t)
    (hw : s.Canon) : t.Canon := by
  unfold State.whenReady at h
  grind [State.hostError_hbm]

theorem execControlWordWrite_canon {sel : Int} {value : Word} (h : execControlWordWrite sel value s = .next t) (hw : s.Canon) : t.Canon :=
    by
  unfold execControlWordWrite at h
  grind [State.whenReady_canon, State.hostError_hbm, State.storeCw_canon]

theorem execExtgo_canon (h : execExtgo s = .next t) (hw : s.Canon) : t.Canon := by
  unfold execExtgo at h
  grind [State.whenReady_canon, State.extGo_canon]

theorem execAttgo_canon {writer : Option Nat} (h : execAttgo writer s = .next t) (hw : s.Canon) : t.Canon := by
  unfold execAttgo at h
  grind [State.whenReady_canon, State.attGo_canon]

theorem execGraphArm_canon {slot : Nat} (h : execGraphArm slot s = .next t) (hw : s.Canon) : t.Canon := by
  unfold execGraphArm at h
  grind [State.whenReady_canon, State.armGraph_canon]

theorem execGraphEmpty_canon {slot : Nat} (h : execGraphEmpty slot s = .next t) (hw : s.Canon) : t.Canon := by
  unfold execGraphEmpty at h
  grind [State.whenReady_canon, State.emptyGraph_canon]

theorem State.sdopWrite_canon {kind : Int} (hw : s.Canon) : (s.sdopWrite kind).Canon := by
  unfold State.sdopWrite
  grind [State.setCwInt_hbm, State.sdopStart_canon]

theorem execSdopPage_canon (h : execSdopPage s = .next t) (hw : s.Canon) : t.Canon := by
  unfold execSdopPage at h
  grind [State.whenReady_canon, State.sdopWrite_canon]

theorem execSdopSpace_canon (h : execSdopSpace s = .next t) (hw : s.Canon) : t.Canon := by
  unfold execSdopSpace at h
  grind [State.whenReady_canon, State.sdopWrite_canon]

theorem execSdopEverySpace_canon (h : execSdopEverySpace s = .next t) (hw : s.Canon) : t.Canon := by
  unfold execSdopEverySpace at h
  grind [State.whenReady_canon, State.sdopWrite_canon]

theorem execShootdown_canon {asrec : Nat} {kind : Int} {page : Word} {by_ : Option TRef}
    (h : execShootdown asrec kind page by_ s = .next t) (hw : s.Canon) : t.Canon := by
  unfold execShootdown at h
  grind [State.startShoot_canon, State.later_hbm]

theorem State.endShootWait_canon {id : Nat} {t : TRef} (hw : s.Canon) : (s.endShootWait id t).Canon := by
  unfold State.endShootWait
  grind [State.release_canon, State.modHandler_canon, foldl_canon]

theorem execShootdownComplete_canon {id : Nat} (h : execShootdownComplete id s = .next t) (hw : s.Canon) : t.Canon := by
  unfold execShootdownComplete at h
  grind [State.endShootWait_canon, State.setCwInt_hbm]

/-! ### The handler and its instructions -/

theorem bodyTret_canon : bodyTret.Keeps := by
  unfold bodyTret
  grind [eachExec_canon, State.tret_canon, Eff.stop_canon]

theorem tpcBody_canon {o : Opnd} {f : Eff → Exec → Nat → Word → Eff} (h : ∀ e x k w, e.s.Canon → (f e x k w).s.Canon) :
    (tpcBody o f).Keeps :=
  eachExec_canon fun e x he => by
    dsimp only
    grind [Exec.set_canon, Eff.stop_canon]

theorem setFramePc_canon {e : Eff} {x : Exec} {lane : Nat} {pc : Word} (hw : e.s.Canon) : (setFramePc e x lane pc).s.Canon := by
  unfold setFramePc
  grind [State.setCab_canon, Eff.stop_canon]

theorem State.contextWord_canon {n : Nat} {sel : Int} (hw : s.Canon) : (s.contextWord n sel).1.Canon := by
  unfold State.contextWord
  grind [State.choose_hbm, State.modCore_hbm]

theorem tlbfBody_canon {kind : Int} {page : State → Exec → Word} : (tlbfBody kind page).Keeps := by
  unfold tlbfBody
  grind [eachExec_canon, Eff.stop_canon, State.startShoot_canon, State.modHandler_canon, State.setRun_canon, State.laterOnce_hbm,
    foldl_canon]

theorem bodySleep_canon {o : Opnd} : (bodySleep o).Keeps := by
  unfold bodySleep
  grind [eachExec_canon, Eff.stop_canon, State.translate_canon, State.setRun_canon]

theorem execSleepWake_canon {t : TRef} (h : execSleepWake t s = .next u) (hw : s.Canon) : u.Canon := by
  unfold execSleepWake at h
  grind [State.release_canon]

/-! ### What engine commands share -/

theorem State.modCmd_canon {n seq : Nat} {f : Cmd → Cmd} (hw : s.Canon) : (s.modCmd n seq f).Canon := by
  unfold State.modCmd
  grind [State.modBody_hbm]

theorem State.modSavedCmd_canon {n seq : Nat} {f : Cmd → Cmd} (hw : s.Canon) : (s.modSavedCmd n seq f).Canon := by
  unfold State.modSavedCmd
  grind

theorem State.endCmd_canon {n seq st : Nat} {addr : Word} (hw : s.Canon) : (s.endCmd n seq st addr).Canon := by
  unfold State.endCmd
  grind [State.modSavedCmd_canon, State.modCmd_canon, State.laterOnce_hbm]

theorem State.stopCmd_canon {n seq : Nat} {k : Stop} (hw : s.Canon) : (s.stopCmd n seq k).Canon := by
  unfold State.stopCmd
  grind [State.raiseClass_canon, State.endCmd_canon, State.postFault_canon, State.modCmd_canon]

theorem State.takeSeq_canon {n : Nat} (hw : s.Canon) : (s.takeSeq n).1.Canon := by
  unfold State.takeSeq
  grind [State.modBody_hbm]

theorem State.enterCmd_canon {x : Exec} {o : Opnd} {k : Nat} {c : Cmd} (hw : s.Canon) : (s.enterCmd x o k c).Canon := by
  unfold State.enterCmd
  grind [State.takeSeq_canon, Exec.set_canon, State.modBody_hbm, State.laterOnce_hbm]

theorem State.enterNull_canon {x : Exec} {o : Opnd} {k status : Nat} (hw : s.Canon) : (s.enterNull x o k status).Canon := by
  unfold State.enterNull
  grind [State.takeSeq_canon, Exec.set_canon, State.modBody_hbm]

theorem issueLane_canon {o : Opnd} {plan : State → State → Exec → Nat → Plan} {post : State → Nat → Nat → State} {s0 : State} {x : Exec}
    (h : ∀ s n k, s.Canon → (post s n k).Canon) {l : List Nat} (hw : s.Canon) : (issueLane o plan post s0 x l s).Canon := by
  induction l generalizing s with
  | nil => exact hw
  | cons k l ih =>
    unfold issueLane
    grind [State.enterNull_canon, State.enterCmd_canon, Issued.Canon]

theorem issueBody_canon {o : Opnd} {plan : State → State → Exec → Nat → Plan} {post : State → Nat → Nat → State}
    (h : ∀ s n k, s.Canon → (post s n k).Canon) : (issueBody o plan post).Keeps := fun s xs hw =>
  foldl_acc_canon (fun p : Eff × _ => p.1.s) (fun p x hp => by
    have := issueLane_canon (o := o) (plan := plan) (s0 := p.1.s) (x := x) h (l := blockSteps o) hp
    grind [State.setRun_canon, Eff.stop_canon, Issued.Canon]) hw

theorem deliverRec_canon {o : Opnd} {x : Exec} {k st : Nat} {addr : Word} {count : Int} (hw : s.Canon) :
    (deliverRec o s x k st addr count).Canon := by
  unfold deliverRec
  grind [Exec.set_canon]

theorem waitOne_canon {o : Opnd} {x : Exec} {k : Nat} {t : Word} (hw : s.Canon) : (waitOne o x s k t).Canon := by
  unfold waitOne
  grind [deliverRec_canon, State.modBody_hbm]

theorem State.blockWait_canon {x : Exec} {seq : Nat} (hw : s.Canon) : (s.blockWait x seq).Canon := by
  unfold State.blockWait
  grind [State.modHandler_canon, State.setRun_canon, foldl_canon]

theorem bodyWait_canon {o : Opnd} : (bodyWait o).Keeps := by
  unfold bodyWait
  grind [eachExec_canon, State.blockWait_canon, waitOne_canon, foldl_canon]

theorem State.wakeWait_canon {n seq : Nat} (hw : s.Canon) : (s.wakeWait n seq).Canon := by
  unfold State.wakeWait
  grind [State.setRun_canon, State.modHandler_canon, foldl_canon]

theorem State.freeIssues_canon {core : Nat} (hw : s.Canon) : (s.freeIssues core).Canon := by
  unfold State.freeIssues
  grind [State.setRun_canon, foldl_canon]

theorem State.entriesFree_canon {cores : List Nat} (hw : s.Canon) : (s.entriesFree cores).Canon := by
  unfold State.entriesFree
  grind [State.laterOnce_hbm, foldl_canon]

theorem execRangeLockFree_canon {core : Nat} (h : execRangeLockFree core s = .next t) (hw : s.Canon) : t.Canon := by
  unfold execRangeLockFree at h
  grind [State.freeIssues_canon]

theorem State.completeCmd_canon {n : Nat} {c : Cmd} {st : Nat} (hw : s.Canon) : (s.completeCmd n c st).Canon := by
  unfold State.completeCmd
  grind [State.modBody_hbm, State.wakeWait_canon, State.entriesFree_canon, State.laterOnce_hbm]

/-! ### The copy engine -/

theorem copyBody_canon {i : Instr} {o : Opnd} {kind : CopyKind} : (copyBody i o kind).Keeps := by
  unfold copyBody
  grind [issueBody_canon]

theorem State.engineRead_canon {t : TRef} {va : Word} {b : Bool} (hw : s.Canon) : (s.engineRead t va b).1.Canon := by
  unfold State.engineRead
  grind [State.translate_canon, State.view_canon]

theorem State.engineWrite_canon {r : TRef} {va : Word} {b : Bool} {f : State → Xl → State × Except Stop (List (Nat × Word))}
    (h : ∀ s x, s.Canon → (f s x).1.Canon) (hw : s.Canon) : (s.engineWrite r va b f).1.Canon := by
  unfold State.engineWrite
  grind [State.translate_canon, State.escrowPut_canon, foldl_canon]

theorem State.engineWriteWord_canon {t : TRef} {va v : Word} (hw : s.Canon) : (s.engineWriteWord t va v).1.Canon := by
  unfold State.engineWriteWord
  grind [State.engineWrite_canon]

theorem State.engineWriteTryte_canon {t : TRef} {va : Word} {v : Int} (hw : s.Canon) : (s.engineWriteTryte t va v).1.Canon := by
  unfold State.engineWriteTryte
  grind [State.engineWrite_canon, State.view_canon]

theorem State.engineBytes_canon {t : TRef} {vline : Nat} {x : Xl} (hw : s.Canon) : (s.engineBytes t vline x).1.Canon := by
  unfold State.engineBytes
  grind [State.view_canon, foldl_fst_canon]

theorem State.writeElem_canon {n : Nat} {a : Int} {tryte : Bool} {v : Int} (hw : s.Canon) : (s.writeElem n a tryte v).Canon := by
  unfold State.writeElem
  grind [State.putCabWord_canon]

theorem State.binElem_canon {t : TRef} {d : CopyD} {off pk : Int} (hw : s.Canon) : (s.binElem t d off pk).1.Canon := by
  unfold State.binElem
  grind [State.translate_canon, State.engineBytes_canon, State.writeElem_canon, State.engineWrite_canon]

theorem State.copyElem_canon {t : TRef} {d : CopyD} {r e : Nat} (hw : s.Canon) : (s.copyElem t d r e).1.Canon := by
  unfold State.copyElem
  grind [State.engineRead_canon, State.writeElem_canon, State.engineWriteTryte_canon, State.engineWriteWord_canon, State.binElem_canon]

theorem State.copyRun_canon {r : TRef} {d : CopyD} {seq fuel i : Nat} (hw : s.Canon) : (State.copyRun r d seq fuel s i).1.Canon := by
  induction fuel generalizing s i with
  | zero => exact hw
  | succ fuel ih =>
    unfold State.copyRun
    grind [State.copyElem_canon, State.modCmd_canon]

theorem State.sendFlits_canon {l : List Flit} (hw : s.Canon) : (s.sendFlits l).Canon := by
  unfold State.sendFlits
  grind

theorem State.runCopy_canon {n : Nat} {c : Cmd} {kind : CopyKind} (hw : s.Canon) : (s.runCopy n c kind).Canon := by
  unfold State.runCopy
  grind [State.modCmd_canon, State.endCmd_canon, State.irrevocable_canon, State.sendFlits_canon, State.copyRun_canon, State.stopCmd_canon]

/-! ### Tellers -/

theorem xfBody_canon {i : Instr} {o : Opnd} : (xfBody i o).Keeps := by
  unfold xfBody
  grind [issueBody_canon]

theorem State.beginTell_canon {n : Nat} {c : Cmd} (hw : s.Canon) : (s.beginTell n c).Canon := by
  unfold State.beginTell
  grind [State.endCmd_canon, State.modCmd_canon, State.later_hbm]

theorem State.tellPiece_canon {n : Nat} {c : Cmd} {drawer : Nat} (hw : s.Canon) : (s.tellPiece n c drawer).Canon := by
  unfold State.tellPiece
  grind [State.putCabWord_canon, State.modCmd_canon, State.endCmd_canon, foldl_canon]

theorem execDrawerRequest_canon {core drawer : Nat} (h : execDrawerRequest core drawer s = .next t) (hw : s.Canon) : t.Canon := by
  unfold execDrawerRequest at h
  grind [State.tellPiece_canon]

theorem xfPlace_canon {o : Opnd} {x : Exec} {k : Nat} (hw : s.Canon) : (xfPlace o x s k).1.Canon := by
  unfold xfPlace
  grind

theorem xfElem_canon {o : Opnd} {op : Int} {ret : Bool} {x : Exec} {k : Nat} {p : Place} {v c : Word} (hw : s.Canon) :
    (xfElem o op ret x s k p v c).Canon := by
  unfold xfElem
  grind [State.putCabWord_canon, Exec.deliver_canon]

theorem xfLane_canon {o : Opnd} {op : Int} {ret : Bool} : StepKeeps (xfLane o op ret) := by
  intro e x he
  have := State.findAll_canon (f := xfPlace o x) (fun s k hs => xfPlace_canon hs) (l := blockSteps o) he
  unfold xfLane
  grind [Eff.stop_canon, foldl_canon, xfElem_canon]

/-! ### The walker's own accesses -/

theorem State.nodeLoad_canon {x : Xl} {watch : Bool} {a0 : Line} (h : s.nodeLoad x watch = some (t, a0)) (hw : s.Canon) : t.Canon := by
  unfold State.nodeLoad at h
  grind [State.readShared_canon, State.homeRead_canon]

theorem State.nodeReadAt_canon {c : Ctx} {va : Word} {watch : Bool} (hw : s.Canon) : (s.nodeReadAt c va watch).1.Canon := by
  unfold State.nodeReadAt
  grind [State.translate_canon, State.nodeLoad_canon]

theorem State.nodeReadLine_canon {c : Ctx} {va : Word} (hw : s.Canon) : (s.nodeReadLine c va).1.Canon := by
  unfold State.nodeReadLine
  grind [State.nodeReadAt_canon]

theorem State.nodeRead_canon {c : Ctx} {va : Word} (hw : s.Canon) : (s.nodeRead c va).1.Canon := by
  unfold State.nodeRead
  grind [State.nodeReadAt_canon]

theorem State.nodeWrite_canon {c : Ctx} {va : Word} {ws : List (Nat × Word)} (hw : s.Canon) : (s.nodeWrite c va ws).1.Canon := by
  unfold State.nodeWrite
  grind [State.translate_canon, State.homeWrite_canon]

theorem State.nodeOff_canon {slot node : Nat} (hw : s.Canon) : (s.nodeOff slot node).Canon := by
  unfold State.nodeOff
  grind [State.modGraph_hbm, State.releaseNode_canon, State.laterOnce_hbm]

theorem State.setNodeWork_canon {slot node k : Nat} {parked : Bool} (hw : s.Canon) : (s.setNodeWork slot node k parked).Canon := by
  unfold State.setNodeWork
  grind [State.modGraph_hbm]

theorem State.stopNode_canon {slot node : Nat} {c : Ctx} {again : Instr} {k : Stop} (hw : s.Canon) :
    (s.stopNode slot node c again k).Canon := by
  unfold State.stopNode
  grind [State.raise_hbm, State.faultGraph_canon, State.nodeOff_canon, State.postFault_canon, State.setNodeWork_canon, State.laterOnce_hbm]

/-! ### Collectives -/

theorem State.openExch_canon {who : ExWho} {f : Int} {desc : List Word} {ranks : List Nat} {det : Bool} (hw : s.Canon) :
    (s.openExch who f desc ranks det).Canon := by
  unfold State.openExch
  grind

theorem collPost_canon {o : Opnd} {n seq : Nat} (hw : s.Canon) : (collPost o s n seq).Canon := by
  unfold collPost
  grind [State.openExch_canon]

theorem collBody_canon {i : Instr} {o : Opnd} : (collBody i o).Keeps := by
  unfold collBody
  grind [issueBody_canon, collPost_canon]

theorem State.modExch_canon {who : ExWho} {f : Exch → Exch} (hw : s.Canon) : (s.modExch who f).Canon := by
  unfold State.modExch
  grind

theorem State.closeExch_canon {who : ExWho} {st : Nat} (hw : s.Canon) : (s.closeExch who st).Canon := by
  unfold State.closeExch
  grind [State.modExch_canon]

theorem State.endExch_canon {who : ExWho} {st : Nat} (hw : s.Canon) : (s.endExch who st).Canon := by
  unfold State.endExch
  grind [State.closeExch_canon, State.endCmd_canon, State.later_hbm, State.faultGraph_canon, State.nodeOff_canon]

theorem State.stopExch_canon {who : ExWho} {k : Stop} (hw : s.Canon) : (s.stopExch who k).Canon := by
  unfold State.stopExch
  grind [State.closeExch_canon, State.stopCmd_canon, State.stopNode_canon]

theorem State.collRead_canon {who : ExWho} {va : Word} (hw : s.Canon) : (s.collRead who va).1.Canon := by
  unfold State.collRead
  grind [State.engineRead_canon, State.nodeRead_canon]

theorem State.collWrite_canon {who : ExWho} {va v : Word} (hw : s.Canon) : (s.collWrite who va v).1.Canon := by
  unfold State.collWrite
  grind [State.engineWriteWord_canon, State.nodeWrite_canon]

theorem State.collLine_canon {e : Exch} {i : Nat} (hw : s.Canon) : (s.collLine e i).1.Canon := by
  unfold State.collLine
  grind [State.collRead_canon, foldl_fst_canon]

theorem State.reduceAt_canon {e : Exch} {p i : Nat} (hw : s.Canon) : (s.reduceAt e p i).1.Canon := by
  unfold State.reduceAt
  grind [State.collLine_canon, State.choose_hbm, State.modExch_canon]

theorem State.unitValue_canon {e : Exch} {p : Nat} {u : Nat × Nat × Nat × Nat} (hw : s.Canon) : (s.unitValue e p u).1.Canon := by
  unfold State.unitValue
  grind [State.collRead_canon]

theorem State.writeUnit_canon {who : ExWho} {p : Nat} {u : Nat × Nat × Nat × Nat} (hw : s.Canon) : (s.writeUnit who p u).1.Canon := by
  unfold State.writeUnit
  grind [State.unitValue_canon, State.collWrite_canon, State.modExch_canon, State.modCmd_canon]

theorem runAll_canon {α : Type} {f : State → α → State × Except Stop Unit} (h : ∀ s a, s.Canon → (f s a).1.Canon) {l : List α}
    (hw : s.Canon) : (runAll f l s).1.Canon := by
  induction l generalizing s with
  | nil => exact hw
  | cons a l ih =>
    unfold runAll
    grind

theorem State.askMore_canon {who : ExWho} (hw : s.Canon) : (s.askMore who).Canon := by
  unfold State.askMore
  grind [State.modExch_canon, State.sendFlits_canon]

theorem State.advanceExch_canon {who : ExWho} (hw : s.Canon) : (s.advanceExch who).Canon := by
  unfold State.advanceExch
  grind [State.modExch_canon, State.askMore_canon, runAll_canon, State.reduceAt_canon, State.writeUnit_canon, State.stopExch_canon,
    State.endExch_canon]

theorem State.answerPull_canon {e : Exch} {f : Flit} {l : List Word} {rep : Nat} (hw : s.Canon) : (s.answerPull e f l rep).Canon := by
  unfold State.answerPull
  grind

theorem State.serveLine_canon {e : Exch} {f : Flit} {l : List Word} (hw : s.Canon) : (s.serveLine e f l).Canon := by
  unfold State.serveLine
  grind [State.answerPull_canon, State.modExch_canon, State.irrevocable_canon, State.advanceExch_canon]

theorem State.arrives_canon {f : Flit} {again : Flit → Instr} {act : Host.Outcome State Fault Refusal} (ha : ∀ u, act = .next u → u.Canon)
    (h : s.arrives f again act = .next t) (hw : s.Canon) : t.Canon := by
  unfold State.arrives at h
  grind [State.raise_hbm, State.later_hbm]

theorem execPullRequest_canon {f : Flit} (h : execPullRequest f s = .next t) (hw : s.Canon) : t.Canon := by
  unfold execPullRequest at h
  grind [State.arrives_canon, State.later_hbm, State.answerPull_canon, State.endExch_canon, State.serveLine_canon, State.collLine_canon,
    State.stopExch_canon]

theorem execPullData_canon {f : Flit} (h : execPullData f s = .next t) (hw : s.Canon) : t.Canon := by
  unfold execPullData at h
  grind [State.arrives_canon, State.endExch_canon, State.modExch_canon, State.advanceExch_canon]

end Sys2Proof.Machine
end

section
/-! PROOFS. The canonical form of memory is kept: the machine's own steps. -/

namespace Sys2Proof.Machine

variable {s t u : State}

/-! ### The machine between its steps -/

theorem State.takeBundle_canon {b : Bundle} {a0 : Instr} (h : s.takeBundle b = some (t, a0)) (hw : s.Canon) : t.Canon := by
  unfold State.takeBundle at h
  grind [Option.map_eq_some_iff]

theorem State.nextCycle_canon (hw : s.Canon) : s.nextCycle.Canon := by
  unfold State.nextCycle
  grind [State.flushLog_canon, State.setCwInt_hbm, State.laterOnce_hbm, foldl_canon]

/-! ### The matrix engine -/

theorem State.setTile_canon {n i : Nat} {t : Tile} {f : Tile → Tile} (hw : s.Canon) : (s.setTile n i t f).Canon := by
  unfold State.setTile
  grind [State.modBody_hbm]

theorem State.drainTile_canon {n : Nat} {t : Tile} {a st : Int} {et : ETy} {sat : Bool} {sh : Int} (hw : s.Canon) :
    (s.drainTile n t a st et sat sh).Canon := by
  unfold State.drainTile
  grind [State.putCabWord_canon, foldl_canon]

theorem mxBody_canon {i : Instr} {o : Opnd} : (mxBody i o).Keeps := by
  unfold mxBody
  grind [State.setRun_canon, State.takeSeq_canon, Exec.set_canon, State.modBody_hbm, State.laterOnce_hbm, foldl_canon, Eff.of_s]

theorem State.answerQuery_canon {n : Nat} {q : Query} (hw : s.Canon) : (s.answerQuery n q).Canon := by
  unfold State.answerQuery
  grind [State.vigilFail_canon, State.arrive_canon, State.setTile_canon, State.modBody_hbm, foldl_canon]

theorem State.settleQueries_canon {n : Nat} (hw : s.Canon) : (s.settleQueries n).Canon := by
  unfold State.settleQueries
  grind [State.answerQuery_canon, foldl_canon]

theorem bodyMxQry_canon {o : Opnd} : (bodyMxQry o).Keeps := by
  unfold bodyMxQry
  grind [State.modThread_hbm, State.modBody_hbm, State.settleQueries_canon, foldl_canon, Eff.of_s]

theorem State.mxDone_canon {n : Nat} {c : Cmd} {k : Nat} (hw : s.Canon) : (s.mxDone n c k).Canon := by
  unfold State.mxDone
  grind [State.modCmd_canon, State.endCmd_canon]

theorem State.spillRun_canon {r : TRef} {c : Cmd} {img : List Word} {fuel i : Nat} (hw : s.Canon) :
    (State.spillRun r c img fuel s i).1.Canon := by
  induction fuel generalizing s i with
  | zero => exact hw
  | succ fuel ih =>
    unfold State.spillRun
    grind [State.engineWriteWord_canon, State.modCmd_canon]

theorem State.fillRun_canon {r : TRef} {c : Cmd} {fuel i : Nat} (hw : s.Canon) : (State.fillRun r c fuel s i).1.Canon := by
  induction fuel generalizing s i with
  | zero => exact hw
  | succ fuel ih =>
    unfold State.fillRun
    grind [State.engineRead_canon, State.modCmd_canon]

theorem State.takeImage_canon {n : Nat} {c : Cmd} {tile : Nat} {l : List Word} (hw : s.Canon) : (s.takeImage n c tile l).Canon := by
  unfold State.takeImage
  grind [State.setTile_canon, State.mxDone_canon, State.endCmd_canon]

theorem State.runMatrix_canon {n : Nat} {c : Cmd} (hw : s.Canon) : (s.runMatrix n c).Canon := by
  unfold State.runMatrix
  grind [State.setTile_canon, State.vigilFail_canon, State.modCmd_canon, State.mxDone_canon, State.endCmd_canon, State.drainTile_canon,
    State.putCabWord_canon, State.spillRun_canon, State.stopCmd_canon, State.takeImage_canon, State.fillRun_canon, foldl_canon]

/-! ### The steps of engine commands -/

theorem State.runCmd_canon {n : Nat} {c : Cmd} (hw : s.Canon) : (s.runCmd n c).Canon := by
  unfold State.runCmd
  grind [State.beginTell_canon, State.endExch_canon, State.modCmd_canon, State.advanceExch_canon, State.endCmd_canon, State.runCopy_canon,
    State.runMatrix_canon]

theorem execScoreboardStart_canon {team seq : Nat} (h : execScoreboardStart team seq s = .next t) (hw : s.Canon) : t.Canon := by
  unfold execScoreboardStart at h
  grind [State.runCmd_canon]

theorem execEngineCommandComplete_canon {team seq : Nat} (h : execEngineCommandComplete team seq s = .next t) (hw : s.Canon) : t.Canon := by
  unfold execEngineCommandComplete at h
  grind [State.closeExch_canon, State.completeCmd_canon, State.settleQueries_canon]

theorem execFlitAcknowledgement_canon {f : Flit} (h : execFlitAcknowledgement f s = .next t) (hw : s.Canon) : t.Canon := by
  unfold execFlitAcknowledgement at h
  grind [State.arrives_canon, State.modCmd_canon, State.endCmd_canon]

theorem execFlitLineWrite_canon {f : Flit} (h : execFlitLineWrite f s = .next t) (hw : s.Canon) : t.Canon := by
  unfold execFlitLineWrite at h
  grind [State.arrives_canon, State.later_hbm]

theorem execTimeSync_canon {partition value : Nat} (h : execTimeSync partition value s = .next t) (hw : s.Canon) : t.Canon := by
  unfold execTimeSync at h
  grind

theorem execStampSyncLoss_canon (h : execStampSyncLoss s = .next t) (hw : s.Canon) : t.Canon := by
  unfold execStampSyncLoss at h
  grind [State.raise_hbm]

theorem State.failFlits_canon {p : Nat} (hw : s.Canon) : (s.failFlits p).Canon := by
  unfold State.failFlits
  grind [State.modSavedCmd_canon, State.modCmd_canon, State.endCmd_canon, State.endExch_canon, foldl_canon]

theorem execFabricPortDown_canon {port : Nat} (h : execFabricPortDown port s = .next t) (hw : s.Canon) : t.Canon := by
  unfold execFabricPortDown at h
  grind [State.raise_hbm, State.choose_hbm, State.failFlits_canon, foldl_canon]

/-! ### PAIR -/

theorem innerBody_canon {i : Instr} {words : List Word} : Body.Keeps (innerBody i words) := by
  cases i with
  | add o | sub o | neg o | abs o | sgn o | mul o | mulh o | div o | mod o | min o | max o | shl o | shr o | rot o | tmin o | tmax o | tsum o
  | tcon o | tcnt o | tlz o | mov o | movBc o | fadd o | fsub o | fmul o | fmin o | fmax o | fabs o | stamp o => exact wordsBody_canon
  | cmp o | fcmp o => exact tritBody_canon
  | rcp o | rsq o | sqrt o | exp o | log o | sin o | cos o | tanh o | sigm o => exact sfuBody_canon
  | ld o => exact bodyLd_canon
  | st o => exact bodySt_canon
  | jmpr o => exact bodyJmpr_canon
  | callr o => exact bodyCallr_canon
  | ret o => exact bodyRet_canon
  | exit o => exact bodyExit_canon
  | yield o => exact bodyYield_canon
  | publish o => exact bodyPublish_canon
  | wack o => exact bodyWack_canon
  | gphase o => exact bodyGphase_canon
  | tret o => exact bodyTret_canon
  | _ => exact noBody_canon

theorem pairBody_canon {first second : Inner} {words : List Word} : (pairBody first second words).Keeps := by
  unfold pairBody
  grind [innerBody_canon]

theorem execPair_canon {op1 : Int} {o1 : Opnd} {l1 : Int} {op2 : Int} {o2 : Opnd} {l2 : Int} (h : execPair op1 o1 l1 op2 o2 l2 s = .next t)
    (hw : s.Canon) : t.Canon := by
  unfold execPair at h
  grind [State.illegal_canon, pairBody_canon, State.conclude_canon]

/-! ### VIGIL -/

theorem State.modShadow_canon {n q : Nat} {f : Shadow → Shadow} (hw : s.Canon) : (s.modShadow n q f).Canon := by
  unfold State.modShadow
  grind [State.modBody_hbm]

theorem State.recordTrail_canon {i : Instr} {out : State} {n q : Nat} (hw : out.Canon) : (s.recordTrail i out n q).Canon := by
  unfold State.recordTrail
  grind [State.modShadow_canon]

theorem State.vigilRun_canon {run : Run1} {i : Instr} (hrun : ∀ u, run i s = .next u → u.Canon) (h : s.vigilRun run i = .next t)
    (hw : s.Canon) : t.Canon := by
  unfold State.vigilRun at h
  grind [foldl_canon, State.recordTrail_canon, State.vigilFail_canon]

theorem State.shadowRun_canon {run : Run1} {n q : Nat} (hw : s.Canon) : (State.shadowRun run n q s).Canon := by
  unfold State.shadowRun
  grind [State.modShadow_canon]

theorem State.poolCopy_canon {core : Nat} {k : Nat} (hw : s.Canon) : (s.poolCopy core k).Canon := by
  unfold State.poolCopy
  grind [hbmStore_wf]

theorem State.copyShadow_canon {t : Team} (hw : s.Canon) : (s.copyShadow t).Canon := by
  unfold State.copyShadow
  grind [State.refuseUnit_hbm, State.modTeam_hbm, State.raise_hbm, State.poolCopy_canon, foldl_canon]

theorem State.checkShadows_canon (hw : s.Canon) : s.checkShadows.Canon := by
  unfold State.checkShadows
  grind [State.copyShadow_canon, foldl_canon]

theorem State.readPool_canon {t : Team} (hw : s.Canon) : (s.readPool t).1.Canon := by
  unfold State.readPool
  grind [State.hbmFetch_hbm, foldl_fst_canon]

/-! ### The scheduler -/

theorem State.wantBlock_canon {core asrec : Nat} {sys : Bool} {block : Nat} (hw : s.Canon) : (s.wantBlock core asrec sys block).Canon := by
  unfold State.wantBlock
  grind [State.laterOnce_hbm]

theorem State.fetchStop_canon {core asrec : Nat} {sys : Bool} {block : Nat} {again : Instr} {k : Stop} (hw : s.Canon) :
    (s.fetchStop core asrec sys block again k).Canon := by
  unfold State.fetchStop
  grind [State.laterOnce_hbm, State.postFault_canon, State.modThread_hbm, State.modHandler_canon, State.raiseTraps_canon,
    State.raiseClass_canon, State.handlerFault_canon, foldl_canon]

theorem State.keepLine_canon {core : Nat} {b : ILine} (hw : s.Canon) : (s.keepLine core b).Canon := by
  unfold State.keepLine
  grind [State.modCore_hbm]

theorem execInstructionFetchFill_canon {core asrec : Nat} {sys : Bool} {block : Nat} (h : execInstructionFetchFill core asrec sys block s =
    .next t) (hw : s.Canon) : t.Canon := by
  unfold execInstructionFetchFill at h
  grind [State.translate_canon, State.fetchStop_canon, State.homeRead_canon, State.laterOnce_hbm, State.keepLine_canon]

theorem execTlbMissWalk_canon {die : Nat} {w : WalkReq} (h : execTlbMissWalk die w s = .next t) (hw : s.Canon) : t.Canon := by
  unfold execTlbMissWalk at h
  grind [State.modDie_hbm, State.laterOnce_hbm]

theorem State.endWalk_canon {die : Nat} {w : WalkReq} (hw : s.Canon) : (State.endWalk die s w).Canon := by
  unfold State.endWalk
  grind [State.walkNow_canon, State.laterOnce_hbm, State.modDie_hbm]

theorem execWalkCompletion_canon {die : Nat} (h : execWalkCompletion die s = .next t) (hw : s.Canon) : t.Canon := by
  unfold execWalkCompletion at h
  grind [State.modDie_hbm, State.endWalk_canon, State.laterOnce_hbm, foldl_canon]

theorem State.retable_canon {core : Nat} (hw : s.Canon) : (s.retable core).Canon := by
  unfold State.retable
  grind [State.modCore_hbm]

theorem State.pool_canon {core : Nat} {ts : List TRef} {pc : Word} {h : Option Nat} (hw : s.Canon) : (s.pool core ts pc h).Canon := by
  unfold State.pool
  grind [State.modCore_hbm]

theorem State.countScope_canon {core : Nat} {pc : Word} {here away : List TRef} (hw : s.Canon) : (s.countScope core pc here away).Canon :=
    by
  unfold State.countScope
  grind [State.modThread_hbm, State.laterOnce_hbm, foldl_canon]

theorem State.bundleEntry_canon {core : Nat} {pc : Word} {form : Bool} {ts : List TRef} (hw : s.Canon) :
    (s.bundleEntry core pc form ts).Canon := by
  unfold State.bundleEntry
  grind [State.wantBlock_canon, State.pool_canon, State.countScope_canon, foldl_canon]

theorem State.bundleHandler_canon {core : Nat} {t : Team} (hw : s.Canon) : (s.bundleHandler core t).Canon := by
  unfold State.bundleHandler
  grind [State.pool_canon, State.wantBlock_canon]

theorem State.bundleShadows_canon {core : Nat} {t : Team} (hw : s.Canon) : (s.bundleShadows core t).Canon := by
  unfold State.bundleShadows
  grind [State.modCore_hbm, foldl_canon]

theorem execBundlerRound_canon {core : Nat} (h : execBundlerRound core s = .next t) (hw : s.Canon) : t.Canon := by
  unfold execBundlerRound at h
  grind [State.retable_canon, State.bundleEntry_canon, State.modCore_hbm, State.bundleHandler_canon, State.bundleShadows_canon, foldl_canon]

theorem execConvergenceTimeout_canon {core : Nat} {t : TRef} {addr : Word} (h : execConvergenceTimeout core t addr s = .next u)
    (hw : s.Canon) : u.Canon := by
  unfold execConvergenceTimeout at h
  grind [State.modThread_hbm, State.raiseTraps_canon, foldl_canon]

theorem execIssueSelection_canon {core : Nat} (h : execIssueSelection core s = .next t) (hw : s.Canon) : t.Canon := by
  unfold execIssueSelection at h
  grind [State.modCore_hbm]

theorem execIllegalInstruction_canon {code : Nat} {words : List Word} (h : execIllegalInstruction code words s = .next t) (hw : s.Canon) :
    t.Canon := by
  unfold execIllegalInstruction at h
  grind [State.illegal_canon]

theorem execTrapEntry_canon {team : Nat} (h : execTrapEntry team s = .next t) (hw : s.Canon) : t.Canon := by
  unfold execTrapEntry at h
  grind [State.vigilFail_canon, State.laterOnce_hbm, State.enterTrap_canon, State.raise_hbm, State.modTeam_hbm, State.tret_canon]

/-! ### The merge of a DET grid -/

theorem State.modContrib_canon {g lin : Nat} {f : List ELine → List ELine} {h : List Part → List Part} (hw : s.Canon) :
    (s.modContrib g lin f h).Canon := by
  unfold State.modContrib
  grind [State.modGrid_hbm]

theorem State.loseLines_canon {g : Nat} {l : List LostLine} (hw : s.Canon) : (s.loseLines g l).Canon := by
  unfold State.loseLines
  grind [State.raiseClass_canon, State.failPub_canon, State.raise_hbm, State.modGrid_hbm, foldl_canon]

theorem State.mergeConflict_canon {g slot : Nat} {va : Word} {stands dropped : Nat} (hw : s.Canon) :
    (s.mergeConflict g slot va stands dropped).Canon := by
  unfold State.mergeConflict
  grind [State.raise_hbm, State.modGrid_hbm]

theorem State.mergePartials_canon {g : Nat} {desk : List DeskWord} {p : State × List HwReq} {l : List Placed} (hw : p.1.Canon) :
    (State.mergePartials g desk p l).1.Canon := by
  unfold State.mergePartials
  grind [foldl_canon, State.mergeConflict_canon]

theorem State.mergeOrdinary_canon {g : Nat} (hw : s.Canon) : (s.mergeOrdinary g).1.Canon := by
  unfold State.mergeOrdinary
  grind [State.mergeConflict_canon, State.modContrib_canon, State.modGrid_hbm, foldl_canon]

theorem State.sendMerge_canon {g : Nat} {l : List HwReq} (hw : s.Canon) : (s.sendMerge g l).Canon := by
  unfold State.sendMerge
  grind [State.modGrid_hbm, State.later_hbm]

theorem State.mergeMeanwhile_canon {g : Nat} (hw : s.Canon) : (s.mergeMeanwhile g).Canon := by
  unfold State.mergeMeanwhile
  grind [State.mergeOrdinary_canon, State.sendMerge_canon]

theorem State.mergeNow_canon {g : Nat} {placed : List Placed} (hw : s.Canon) : (s.mergeNow g placed).Canon := by
  unfold State.mergeNow
  grind [State.mergeOrdinary_canon, State.mergePartials_canon, State.modGrid_hbm, State.sendMerge_canon, State.laterOnce_hbm,
    foldl_fst_canon]

theorem State.parkAtPhase_canon {e : ELine} {r : TRef} (hw : s.Canon) : (s.parkAtPhase e r).Canon := by
  unfold State.parkAtPhase
  grind [State.modThread_hbm]

theorem State.unparkAtPhase_canon {r : TRef} (hw : s.Canon) : (s.unparkAtPhase r).Canon := by
  unfold State.unparkAtPhase
  grind [State.modThread_hbm]

theorem State.parkMerge_canon {g : Nat} {l : List HeldLine} (hw : s.Canon) : (s.parkMerge g l).Canon := by
  unfold State.parkMerge
  grind [State.postFault_canon, State.parkAtPhase_canon, foldl_canon]

theorem Fresh.stopped_canon {f : Fresh} {lin : Nat} {e : ELine} {k : Stop} (hw : s.Canon) : (f.stopped s lin e k).s.Canon := by
  unfold Fresh.stopped
  grind

theorem Fresh.line_canon {g : Nat} {f : Fresh} {p : Nat × ELine} (hw : f.s.Canon) : (Fresh.line g f p).s.Canon := by
  unfold Fresh.line
  grind [State.translate_canon, State.modContrib_canon, Fresh.stopped_canon]

theorem Fresh.part_canon {g : Nat} {f : Fresh} {q : Nat × Part} (hw : f.s.Canon) : (Fresh.part g f q).s.Canon := by
  unfold Fresh.part
  grind [State.translate_canon, Fresh.stopped_canon]

theorem State.freshAll_canon {g : Nat} (hw : s.Canon) : (s.freshAll g).s.Canon :=
  foldl_acc_canon Fresh.s (fun _ _ hf => Fresh.part_canon hf) (foldl_acc_canon Fresh.s (fun _ _ hf => Fresh.line_canon hf) hw)

theorem execDetMerge_canon {grid : Nat} (h : execDetMerge grid s = .next t) (hw : s.Canon) : t.Canon := by
  unfold execDetMerge at h
  grind [State.laterOnce_hbm, State.modGrid_hbm, State.mergeMeanwhile_canon, State.loseLines_canon, State.parkMerge_canon,
    State.mergeNow_canon,
    State.freshAll_canon, foldl_canon]

/-! ### Posted faults and rollback -/

theorem execFaultPostingResume_canon {asrec : Nat} (h : execFaultPostingResume asrec s = .next t) (hw : s.Canon) : t.Canon := by
  unfold execFaultPostingResume at h
  grind [State.postEntry_canon, State.postLate_canon, foldl_canon]

theorem State.wakeParked_canon {w : Parked} (hw : s.Canon) : (s.wakeParked w).Canon := by
  unfold State.wakeParked
  grind [State.modThread_hbm, State.modHandler_canon, State.modCmd_canon, State.laterOnce_hbm, State.retryHeld_canon,
    State.setNodeWork_canon, State.unparkAtPhase_canon, foldl_canon]

theorem State.dropIn_canon {g page : Nat} (hw : s.Canon) : (s.dropIn g page).Canon := by
  unfold State.dropIn
  grind [State.modContrib_canon, foldl_canon]

theorem State.failParked_canon {kind : Int} {page : Nat} {w : Parked} (hw : s.Canon) : (s.failParked kind page w).Canon := by
  unfold State.failParked
  grind [State.raiseTraps_canon, State.handlerFault_canon, State.closeExch_canon, State.endCmd_canon, State.unparkOwners_canon,
    State.modPub_canon, State.retryHeld_canon, State.faultGraph_canon, State.nodeOff_canon, State.unparkAtPhase_canon, State.dropIn_canon,
    State.loseLines_canon, State.laterOnce_hbm, foldl_canon]

theorem execFaultEntryDone_canon {entry : Nat} (h : execFaultEntryDone entry s = .next t) (hw : s.Canon) : t.Canon := by
  unfold execFaultEntryDone at h
  grind [State.sawLine_canon, foldl_canon, readShared_getD_canon, State.wakeParked_canon, State.failParked_canon]

theorem State.rollExch_canon {n : Nat} {old : List Cmd} (hw : s.Canon) : (s.rollExch n old).Canon := by
  unfold State.rollExch
  grind

theorem State.restoreOpening_canon {n : Nat} {t : Team} {b : TeamBody} (hw : s.Canon) : (s.restoreOpening n t b).Canon := by
  unfold State.restoreOpening
  grind [State.entriesFree_canon, State.dropLease_canon, State.modTeam_hbm, State.rollExch_canon, State.settlePub_canon, State.later_hbm,
    State.sweepLeases_canon, foldl_canon]

theorem State.dropLost_canon {n : Nat} (hw : s.Canon) : (s.dropLost n).Canon := by
  unfold State.dropLost
  grind [State.modTeam_hbm, State.laterOnce_hbm, foldl_canon]

theorem State.rollBack_canon {n : Nat} (hw : s.Canon) : (s.rollBack n).Canon := by
  unfold State.rollBack
  grind [State.readPool_canon, State.raise_hbm, State.dropLost_canon, State.restoreOpening_canon, State.modTeam_hbm]

theorem execRollback_canon {team : Nat} (h : execRollback team s = .next t) (hw : s.Canon) : t.Canon := by
  unfold execRollback at h
  grind [State.rollBack_canon]

theorem execVigilCompare_canon {core team squad : Nat} (h : execVigilCompare core team squad s = .next t) (hw : s.Canon) : t.Canon := by
  unfold execVigilCompare at h
  grind [State.raise_hbm, State.rollBack_canon]

/-! ### The graph walker -/

theorem State.asNode_canon {slot node : Nat} {k : Int} {f : List Word → State} (hf : ∀ l, (f l).Canon)
    (h : s.asNode slot node k f = .next t) (hw : s.Canon) : t.Canon := by
  unfold State.asNode at h
  grind

theorem State.nodeDone_canon {slot node : Nat} {succs : List Int} (hw : s.Canon) : (s.nodeDone slot node succs).Canon := by
  unfold State.nodeDone
  grind [State.later_hbm]

theorem execGridNode_canon {slot node : Nat} (h : execGridNode slot node s = .next t) (hw : s.Canon) : t.Canon := by
  unfold execGridNode at h
  grind [State.asNode_canon, State.laterOnce_hbm, State.later_hbm]

theorem State.copyLines_canon {c : Ctx} {slot node src dst fuel done : Nat} (hw : s.Canon) :
    (State.copyLines c slot node src dst fuel done s).1.Canon := by
  induction fuel generalizing s done with
  | zero => exact hw
  | succ fuel ih =>
    unfold State.copyLines
    grind [State.nodeReadLine_canon, State.nodeWrite_canon, State.setNodeWork_canon]

theorem execCopyNode_canon {slot node : Nat} (h : execCopyNode slot node s = .next t) (hw : s.Canon) : t.Canon := by
  unfold execCopyNode at h
  grind [State.asNode_canon, State.copyLines_canon, State.nodeDone_canon, State.stopNode_canon]

theorem State.walkerWords_canon {l : List Nat} (hw : s.Canon) : (State.walkerWords l s).1.Canon := by
  induction l generalizing s with
  | nil => exact hw
  | cons a l ih =>
    unfold State.walkerWords
    grind [State.walkerRead_canon]

theorem State.nodeRanks_canon {f : Int} {w : List Word} (hw : s.Canon) : (s.nodeRanks f w).1.Canon := by
  unfold State.nodeRanks
  grind [State.walkerWords_canon]

theorem State.badNode_canon {slot node : Nat} (hw : s.Canon) : (s.badNode slot node).Canon := by
  unfold State.badNode
  grind [State.faultGraph_canon, State.nodeOff_canon]

theorem State.openNode_canon {slot node : Nat} {l : List Word} (hw : s.Canon) : (s.openNode slot node l).Canon := by
  unfold State.openNode
  grind [State.walkerRead_canon, State.badNode_canon, State.nodeRanks_canon, State.nodeDone_canon, State.openExch_canon,
    State.advanceExch_canon]

theorem execCollectiveNode_canon {slot node : Nat} (h : execCollectiveNode slot node s = .next t) (hw : s.Canon) : t.Canon := by
  unfold execCollectiveNode at h
  grind [State.asNode_canon, State.advanceExch_canon, State.openNode_canon]

theorem State.signNode_canon {slot node : Nat} {k : Int} {pick : List Word → Int → List Int} (h : s.signNode slot node k pick = .next t)
    (hw : s.Canon) : t.Canon := by
  unfold State.signNode at h
  grind [State.asNode_canon, State.nodeRead_canon, State.nodeDone_canon, State.stopNode_canon]

theorem execConditionNode_canon {slot node : Nat} (h : execConditionNode slot node s = .next t) (hw : s.Canon) : t.Canon := by
  unfold execConditionNode at h
  grind [State.signNode_canon]

theorem execWhileNode_canon {slot node : Nat} (h : execWhileNode slot node s = .next t) (hw : s.Canon) : t.Canon := by
  unfold execWhileNode at h
  grind [State.signNode_canon]

theorem State.watchWord_canon {slot node line : Nat} (hw : s.Canon) : (s.watchWord slot node line).Canon := by
  unfold State.watchWord
  grind [State.modGraph_hbm]

theorem State.unwatch_canon {slot node : Nat} (hw : s.Canon) : (s.unwatch slot node).Canon := by
  unfold State.unwatch
  grind [State.modGraph_hbm, State.leave_hbm]

theorem execWaitWordNode_canon {slot node : Nat} (h : execWaitWordNode slot node s = .next t) (hw : s.Canon) : t.Canon := by
  unfold execWaitWordNode at h
  grind [State.asNode_canon, State.nodeReadAt_canon, State.stopNode_canon, State.watchWord_canon, State.unwatch_canon, State.nodeDone_canon]

theorem execSignalNode_canon {slot node : Nat} (h : execSignalNode slot node s = .next t) (hw : s.Canon) : t.Canon := by
  unfold execSignalNode at h
  grind [State.asNode_canon, State.nodeWrite_canon, State.stopNode_canon, State.nodeDone_canon]

theorem execEndNode_canon {slot node : Nat} (h : execEndNode slot node s = .next t) (hw : s.Canon) : t.Canon := by
  unfold execEndNode at h
  grind [State.nodeOff_canon, State.modGraph_hbm, State.releaseNode_canon]

theorem State.signalNode_canon {slot : Nat} {succ : Int} (hw : s.Canon) : (s.signalNode slot succ).Canon := by
  unfold State.signalNode
  grind [State.walkerRead_canon, State.faultGraph_canon, State.modGraph_hbm, State.releaseNode_canon]

theorem execNodeComplete_canon {slot node : Nat} {succs : List Int} (h : execNodeComplete slot node succs s = .next t) (hw : s.Canon) :
    t.Canon := by
  unfold execNodeComplete at h
  grind [State.nodeOff_canon, State.signalNode_canon, foldl_canon]

/-! ### Homes, snoops, slices and the host -/

theorem State.askHome_canon {agent slot : Nat} {pin : Option (Nat × Nat)} {req : Req} (h : s.askHome agent slot pin req = .next t)
    (hw : s.Canon) : t.Canon := by
  unfold State.askHome at h
  grind [State.hostError_hbm, State.serve_canon]

theorem execHomeRds_canon {agent : Nat} {q : AgentReq} (h : execHomeRds agent q s = .next t) (hw : s.Canon) : t.Canon := by
  unfold execHomeRds at h
  grind [askHome_canon, State.askHome_canon]

theorem execHomeRdx_canon {agent : Nat} {q : AgentReq} (h : execHomeRdx agent q s = .next t) (hw : s.Canon) : t.Canon := by
  unfold execHomeRdx at h
  grind [askHome_canon, State.askHome_canon]

theorem execHomeUpg_canon {agent : Nat} {q : AgentReq} (h : execHomeUpg agent q s = .next t) (hw : s.Canon) : t.Canon := by
  unfold execHomeUpg at h
  grind [askHome_canon, State.askHome_canon]

theorem State.giveBack_canon {a slot : Nat} {dirty : Bool} (hw : s.Canon) : (s.giveBack a slot dirty).Canon := by
  unfold State.giveBack
  grind [State.giveUp_hbm]

theorem execHomeWbd_canon {agent slot : Nat} (h : execHomeWbd agent slot s = .next t) (hw : s.Canon) : t.Canon := by
  unfold execHomeWbd at h
  grind [State.giveBack_canon]

theorem execHomeEvc_canon {agent slot : Nat} (h : execHomeEvc agent slot s = .next t) (hw : s.Canon) : t.Canon := by
  unfold execHomeEvc at h
  grind [State.giveBack_canon]

theorem execHomeHw_canon {r : HwReq} (h : execHomeHw r s = .next t) (hw : s.Canon) : t.Canon := by
  unfold execHomeHw at h
  grind [State.serve_canon]

theorem execHomeHr_canon {r : HrReq} (h : execHomeHr r s = .next t) (hw : s.Canon) : t.Canon := by
  unfold execHomeHr at h
  grind [State.serve_canon]

theorem execSnoopInv_canon {agent slot : Nat} (h : execSnoopInv agent slot s = .next t) (hw : s.Canon) : t.Canon := by
  unfold execSnoopInv at h
  grind [State.snoop_canon]

theorem execSnoopShr_canon {agent slot : Nat} (h : execSnoopShr agent slot s = .next t) (hw : s.Canon) : t.Canon := by
  unfold execSnoopShr at h
  grind [State.snoop_canon]

theorem execSnoopGet_canon {agent slot : Nat} (h : execSnoopGet agent slot s = .next t) (hw : s.Canon) : t.Canon := by
  unfold execSnoopGet at h
  grind [State.snoop_canon]

theorem State.modTxn_canon {slot : Nat} {f : VLine → Txn → VLine × Txn} (hw : s.Canon) : (s.modTxn slot f).Canon := by
  unfold State.modTxn
  grind [State.putVl_hbm, State.settleTxn_canon]

theorem execSnoopFilterBroadcast_canon {die slot : Nat} (h : execSnoopFilterBroadcast die slot s = .next t) (hw : s.Canon) : t.Canon := by
  unfold execSnoopFilterBroadcast at h
  grind [State.later_hbm, State.modTxn_canon]

theorem execSnoopAnswer_canon {agent slot : Nat} {data : Option Line} (h : execSnoopAnswer agent slot data s = .next t) (hw : s.Canon) :
    t.Canon := by
  unfold execSnoopAnswer at h
  grind [State.modTxn_canon]

theorem execVaultFill_canon {slot : Nat} (h : execVaultFill slot s = .next t) (hw : s.Canon) : t.Canon := by
  unfold execVaultFill at h
  grind [State.refuse_hbm, ensure_wf, State.later_hbm, State.putVl_hbm, State.settleTxn_canon, foldl_canon]

theorem execVaultWriteback_canon {slot : Nat} (h : execVaultWriteback slot s = .next t) (hw : s.Canon) : t.Canon := by
  unfold execVaultWriteback at h
  grind [evict_wf]

theorem execHbmRead_canon {slot : Nat} (h : execHbmRead slot s = .next t) (hw : s.Canon) : t.Canon := by
  unfold execHbmRead at h
  grind [State.refuseUnit_hbm, State.hbmFetch_hbm]

theorem execHbmWrite_canon {slot : Nat} {line : Line} {elig : Bool} (h : execHbmWrite slot line elig s = .next t) (hw : s.Canon) :
    t.Canon := by
  unfold execHbmWrite at h
  grind [State.refuseUnit_hbm, hbmStore_wf]

theorem execDieLinkFailure_canon {slot : Nat} (h : execDieLinkFailure slot s = .next t) (hw : s.Canon) : t.Canon := by
  unfold execDieLinkFailure at h
  grind [State.raise_hbm, State.uncorrectable_hbm, State.invalidate_hbm, writeBack_wf, State.dropVl_hbm, State.putVl_hbm, roomVault_wf]

theorem execHostBinaryWrite_canon {who off : Nat} {bytes : List (BitVec 8)} (h : execHostBinaryWrite who off bytes s = .next t)
    (hw : s.Canon) : t.Canon := by
  unfold execHostBinaryWrite at h
  grind [State.hostError_hbm, State.later_hbm, foldl_canon]

theorem execHostBinaryRead_canon {who : Nat} {addr : BarAddr} {len : Nat} (h : execHostBinaryRead who addr len s = .next t)
    (hw : s.Canon) : t.Canon := by
  unfold execHostBinaryRead at h
  grind [State.hostError_hbm, State.later_hbm, foldl_canon]

theorem execHostImageRead_canon {who off len : Nat} (h : execHostImageRead who off len s = .next t) (hw : s.Canon) : t.Canon := by
  unfold execHostImageRead at h
  grind [State.hostError_hbm, State.later_hbm, foldl_canon]

theorem State.endStage_canon {g : Stage} (hw : s.Canon) : (s.endStage g).Canon := by
  unfold State.endStage
  grind [State.hostError_hbm, State.later_hbm]

theorem execHostImageWrite_canon {who off : Nat} {bytes : List (BitVec 8)} (h : execHostImageWrite who off bytes s = .next t)
    (hw : s.Canon) : t.Canon := by
  unfold execHostImageWrite at h
  grind [State.hostError_hbm, State.later_hbm, State.endStage_canon, foldl_canon]

theorem execImageStagingTimeout_canon {who slot : Nat} (h : execImageStagingTimeout who slot s = .next t) (hw : s.Canon) : t.Canon := by
  unfold execImageStagingTimeout at h
  split at h
  · split at h <;> injection h with h <;> exact h ▸ hw
  · injection h with h
    exact h ▸ hw

/-! ### Denominations and frame commands -/

theorem State.modDenom_canon {die : Nat} {f : Denom → Denom} (hw : s.Canon) : (s.modDenom die f).Canon := by
  unfold State.modDenom
  grind [State.modDie_hbm]

theorem execResamplingInterval_canon {r : Resampling} (h : execResamplingInterval r s = .next t) (hw : s.Canon) : t.Canon := by
  unfold execResamplingInterval at h
  grind [State.modDenom_canon]

theorem execSamplingWindowEnd_canon {die : Nat} (h : execSamplingWindowEnd die s = .next t) (hw : s.Canon) : t.Canon := by
  unfold execSamplingWindowEnd at h
  grind [State.modDenom_canon, State.raise_hbm, State.laterOnce_hbm]

theorem State.sweepSlot_canon {p : State × Bool} {slot : Nat} (hw : p.1.Canon) : (State.sweepSlot p slot).1.Canon := by
  unfold State.sweepSlot
  grind [State.homeWrite_canon, State.hbmFetch_hbm, hbmStore_wf, State.nextSerial_hbm]

theorem execDenominationSweep_canon {die : Nat} (h : execDenominationSweep die s = .next t) (hw : s.Canon) : t.Canon := by
  unfold execDenominationSweep at h
  dsimp only at h
  split at h
  · grind
  · have := foldl_fst_canon (f := State.sweepSlot) (fun _ _ hp => State.sweepSlot_canon hp)
      (l := (s.modDenom die (fun d => { d with sweeping := true })).compressedSlots die (s.die die).denom.target)
      (p := (s.modDenom die (fun d => { d with sweeping := true }), true)) (State.modDenom_canon hw)
    grind [State.modDenom_canon, State.later_hbm]

theorem State.chDone_canon {stat : Int} (hw : s.Canon) : (s.chDone stat).Canon := by
  unfold State.chDone
  grind [State.setCwInt_hbm]

theorem State.chWrite_canon {op : Int} {f : State → State} (hf : ∀ u : State, u.Canon → (f u).Canon) (h : s.chWrite op f = .next t)
    (hw : s.Canon) : t.Canon :=
  State.whenReady_canon (fun hw => by grind [State.setCwInt_hbm]) h hw

theorem State.emptyFrame_canon {f : Nat} (h : s.emptyFrame f = some t) (hw : s.Canon) : t.Canon := by
  unfold State.emptyFrame at h
  grind [evict_wf, foldl_canon]

theorem State.zeroFrame_canon {code : Nat} (h : s.zeroFrame code = some t) (hw : s.Canon) : t.Canon := by
  unfold State.zeroFrame at h
  split at h
  · grind [State.chDone_canon]
  · split at h
    · grind [State.chDone_canon]
    · obtain ⟨u, hu, rfl⟩ := Option.map_eq_some_iff.mp h
      refine State.chDone_canon (foldl_fst_canon (fun p x hp => ?_) (foldl_canon (fun _ _ hs => hbmStore_wf _ _ _ _ hs) ?_))
      · grind [State.hbmFetch_hbm]
      · exact (State.emptyFrame_canon hu hw : u.Canon)

theorem State.retireFrame_canon (h : s.retireFrame = some t) (hw : s.Canon) : t.Canon := by
  unfold State.retireFrame at h
  grind [State.chDone_canon, State.emptyFrame_canon, State.setFrame_hbm, Option.map_eq_some_iff]

theorem State.scrubFrame_canon (hw : s.Canon) : s.scrubFrame.Canon := by
  unfold State.scrubFrame
  grind [State.chDone_canon, State.hbmFetch_hbm, hbmStore_wf, foldl_canon]

theorem execChZeroT_canon (h : execChZeroT s = .next t) (hw : s.Canon) : t.Canon :=
  State.chWrite_canon (fun _ hu => getD_canon (fun _ ht => State.zeroFrame_canon ht hu) (by grind [State.laterOnce_hbm])) h hw

theorem execChZeroB_canon (h : execChZeroB s = .next t) (hw : s.Canon) : t.Canon :=
  State.chWrite_canon (fun _ hu => getD_canon (fun _ ht => State.zeroFrame_canon ht hu) (by grind [State.laterOnce_hbm])) h hw

theorem execChRetire_canon (h : execChRetire s = .next t) (hw : s.Canon) : t.Canon :=
  State.chWrite_canon (fun _ hu => getD_canon (fun _ ht => State.retireFrame_canon ht hu) (by grind [State.laterOnce_hbm])) h hw

theorem execChScrub_canon (h : execChScrub s = .next t) (hw : s.Canon) : t.Canon := by
  unfold execChScrub at h
  grind [State.chWrite_canon, State.scrubFrame_canon]

theorem execChScore_canon (h : execChScore s = .next t) (hw : s.Canon) : t.Canon := by
  unfold execChScore at h
  grind [State.chWrite_canon, State.chDone_canon]

theorem execChClear_canon (h : execChClear s = .next t) (hw : s.Canon) : t.Canon := by
  unfold execChClear at h
  grind [State.chWrite_canon, State.chDone_canon]

theorem State.patrolled_canon (hw : s.Canon) : s.patrolled.Canon := by
  unfold State.patrolled
  grind [State.hbmFetch_hbm, foldl_canon]

theorem execPatrolScrubPass_canon (h : execPatrolScrubPass s = .next t) (hw : s.Canon) : t.Canon := by
  unfold execPatrolScrubPass at h
  grind [State.patrolled_canon]

/-! ### Placement, the save image and the end of teams -/

theorem State.prepare_canon {g core : Nat} (hw : s.Canon) : (s.prepare g core).Canon := by
  unfold State.prepare
  grind [State.modCore_hbm, State.modGrid_hbm]

theorem State.placeFirst_canon {node : List Word} {cores : List Nat} {put : PutTeam} (hp : PutKeeps put)
    (h : s.placeFirst node cores put = some t) (hw : s.Canon) : t.Canon := by
  obtain ⟨p, _, rfl⟩ := Option.map_eq_some_iff.mp h
  exact hp _ _ _ _ hw

theorem State.placeAll_canon {node : List Word} {cores : List Nat} {l : List PutTeam} (hp : ∀ p ∈ l, PutKeeps p)
    (h : s.placeAll node cores l = some t) (hw : s.Canon) : t.Canon :=
  foldl_bind_canon (fun _ p hl _ ht hs => State.placeFirst_canon (hp p hl) ht hs) h hw

theorem State.placeCrew_canon {node : List Word} {cores : List Nat} {l : List PutTeam} (hp : ∀ p ∈ l, PutKeeps p)
    (h : s.placeCrew node cores l = some t) (hw : s.Canon) : t.Canon := by
  simp only [State.placeCrew] at h
  generalize (if intAt node 19 ≤ 1 then cores.map (fun c => [c])
    else (distinct (cores.map (· / 9))).map (fun k => cores.filter (fun c => c / 9 == k))) = groups at h
  split at h
  · grind
  · exact State.placeAll_canon hp h hw

theorem launchOn_canon {g : Grid} {lin : Nat} : PutKeeps (launchOn g lin) := by
  intro s core slot base hw
  unfold launchOn
  grind [State.prepare_canon, State.modGrid_hbm]

theorem State.placeUnit_canon {g : Grid} (h : s.placeUnit g = some t) (hw : s.Canon) : t.Canon :=
  foldl_bind_canon (fun _ _ _ _ ht hs => State.placeCrew_canon (fun p hp => by
    obtain ⟨lin, _, rfl⟩ := List.mem_map.mp hp
    exact launchOn_canon) ht hs) h hw

theorem State.getLines_canon {slot n : Nat} {l : List (List Word)} (h : s.getLines slot n = some (t, l)) (hw : s.Canon) : t.Canon :=
  foldl_bind_acc_canon (fun p : State × List (List Word) => p.1) (fun p k _ q hq hp => by
    obtain ⟨r, hr, rfl⟩ := Option.map_eq_some_iff.mp hq
    exact State.homeRead_canon hr hp) h hw

theorem restoreOn_canon {v : Saved} : PutKeeps (restoreOn v) := by
  intro s core slot base hw
  unfold restoreOn
  refine State.settleBarriers_canon (foldl_canon (fun u c hu => by grind [State.laterOnce_hbm]) ?_)
  grind [State.prepare_canon, State.laterOnce_hbm]

theorem State.placeSaved_canon {v : Saved} {g : Grid} (h : s.placeSaved v g = some t) (hw : s.Canon) : t.Canon :=
  foldl_bind_canon (fun _ _ _ _ ht hs => State.placeCrew_canon (fun p hp => by
    obtain ⟨w, _, rfl⟩ := List.mem_map.mp hp
    exact restoreOn_canon) ht hs) h hw

theorem State.callPreempt_canon {g : Grid} (hw : s.Canon) : (s.callPreempt g).Canon := by
  unfold State.callPreempt
  grind [State.laterOnce_hbm]

theorem execTeamPlacement_canon {grid : Nat} (h : execTeamPlacement grid s = .next t) (hw : s.Canon) : t.Canon := by
  unfold execTeamPlacement at h
  grind [State.placeUnit_canon, State.faultGraph_canon, State.nodeOff_canon, State.callPreempt_canon]

theorem execTeamEnd_canon {team : Nat} (h : execTeamEnd team s = .next t) (hw : s.Canon) : t.Canon := by
  unfold execTeamEnd at h
  grind [State.settleBarriers_canon, State.startPublication_canon, State.modGrid_hbm, State.laterOnce_hbm]

theorem execGridCompletion_canon {grid : Nat} (h : execGridCompletion grid s = .next t) (hw : s.Canon) : t.Canon := by
  unfold execGridCompletion at h
  grind [State.sweepLeases_canon, State.laterOnce_hbm, State.later_hbm, State.nodeWrite_canon, State.stopNode_canon]

theorem execPreemption_canon {grid : Nat} (h : execPreemption grid s = .next t) (hw : s.Canon) : t.Canon := by
  unfold execPreemption at h
  grind [State.modGrid_hbm, State.raise_hbm, State.modTeam_hbm, foldl_canon]

theorem State.putLines_canon {slot : Nat} {l : List (List Word)} (h : s.putLines slot l = some t) (hw : s.Canon) : t.Canon :=
  foldl_bind_canon (fun _ _ _ _ ht hs => State.homePut_canon ht hs) h hw

theorem State.recallPubs_canon {n : Nat} (hw : s.Canon) : (s.recallPubs n).Canon := by
  unfold State.recallPubs
  grind [State.modThread_hbm, State.modTeam_hbm, foldl_canon]

theorem State.saveThread_canon {r : TRef} (hw : s.Canon) : (s.saveThread r).Canon := by
  unfold State.saveThread
  grind [State.dropLease_canon, State.modThread_hbm, State.release_canon, State.setRun_canon, foldl_canon]

theorem execTeamSave_canon {team : Nat} (h : execTeamSave team s = .next t) (hw : s.Canon) : t.Canon := by
  have hsaved : (((s.threadsOf team).foldl (fun s p => s.saveThread p.1) (s.recallPubs team)).sweepLeases).Canon :=
    State.sweepLeases_canon (foldl_canon (fun _ _ hs => State.saveThread_canon hs) (State.recallPubs_canon hw))
  unfold execTeamSave at h
  split at h
  · grind
  · split at h
    · grind
    · split at h
      · grind [State.modTeam_hbm]
      · split at h
        · grind
        · dsimp only at h
          have hready := State.modHandler_canon (n := team) (f := fun h => match h.run with | .wait _ => { h with run := .ready } | _ => h)
            hsaved
          split at h
          · grind
          · split at h
            · grind
            · split at h
              · grind
              · grind [State.putLines_canon, State.entriesFree_canon]

theorem State.getImages_canon {l : List Saved} (h : s.getImages l = some t) (hw : s.Canon) : t.Canon :=
  foldl_bind_canon (fun s v _ u hu hs => by
    obtain ⟨⟨u, ls⟩, hp, rfl⟩ := Option.map_eq_some_iff.mp hu
    have hu : u.Canon := State.getLines_canon hp hs
    exact hu) h hw

theorem execTeamRestore_canon {saved : Nat} (h : execTeamRestore saved s = .next t) (hw : s.Canon) : t.Canon := by
  unfold execTeamRestore at h
  grind [State.getImages_canon, State.placeSaved_canon, getD_canon, State.callPreempt_canon]

/-! ### Power, partitions, resets and the boot -/

theorem State.setReadings_canon {sel : Nat} {l : List Int} (hw : s.Canon) : (s.setReadings sel l).Canon := by
  unfold State.setReadings
  grind [State.setCwInt_hbm, foldl_canon]

theorem execGovernorTick_canon {irail temp : List Int} (h : execGovernorTick irail temp s = .next t) (hw : s.Canon) : t.Canon := by
  unfold execGovernorTick at h
  grind [State.setReadings_canon, State.setCwInt_hbm]

theorem execIlimUpdate_canon {others : Int} (h : execIlimUpdate others s = .next t) (hw : s.Canon) : t.Canon := by
  unfold execIlimUpdate at h
  grind [State.setCwInt_hbm]

theorem execDroopDetect_canon {core : Nat} (h : execDroopDetect core s = .next t) (hw : s.Canon) : t.Canon := by
  unfold execDroopDetect at h
  grind [State.modCore_hbm]

theorem execLocalSupplyRecovery_canon {core : Nat} (h : execLocalSupplyRecovery core s = .next t) (hw : s.Canon) : t.Canon := by
  unfold execLocalSupplyRecovery at h
  grind [State.modCore_hbm]

theorem execThermtrip_canon {_die : Nat} (h : execThermtrip _die s = .next t) (hw : s.Canon) : t.Canon := by
  unfold execThermtrip at h
  grind

theorem State.writePart_canon {p : Nat} {t : PartTable} (hw : s.Canon) : (s.writePart p t).Canon := by
  unfold State.writePart
  grind [State.setCwInt_hbm, foldl_canon]

theorem execPartitionTableWrite_canon {p : Nat} {words : List Int} (h : execPartitionTableWrite p words s = .next t) (hw : s.Canon) :
    t.Canon := by
  unfold execPartitionTableWrite at h
  grind [State.writePart_canon]

theorem State.refuseHosts_canon {mine : Nat → Bool} (hw : s.Canon) : (s.refuseHosts mine).Canon := by
  unfold State.refuseHosts
  grind [State.hostError_hbm, foldl_canon]

theorem State.beginReset_canon {p : Nat} {keep : Bool} (hw : s.Canon) : (s.beginReset p keep).Canon := by
  unfold State.beginReset
  grind [State.emptyGraph_canon, State.setCwInt_hbm, State.killGrid_hbm, State.refuseHosts_canon, State.laterOnce_hbm, foldl_canon]

theorem State.endContexts_canon {p : Nat} (hw : s.Canon) : (s.endContexts p).Canon := by
  unfold State.endContexts
  grind [State.sweepLeases_canon]

theorem State.clearCaches_canon {p : Nat} (hw : s.Canon) : (s.clearCaches p).Canon := by
  unfold State.clearCaches
  grind [State.hostError_hbm, foldl_canon]

theorem State.zeroPart_canon {p : Nat} {keep : Bool} (hw : s.Canon) : (s.zeroPart p keep).Canon :=
  foldl_canon (fun _ _ hs => foldl_canon (fun _ _ hs => hbmStore_wf _ _ _ _ hs) hs) (memory_wf_filter _ _ hw)

theorem State.endReset_canon {p : Nat} {keep : Bool} (hw : s.Canon) : (s.endReset p keep).Canon := by
  unfold State.endReset
  grind [State.endContexts_canon, State.clearCaches_canon, State.zeroPart_canon, State.setCwInt_hbm]

theorem execPartitionReset_canon {p : Nat} (h : execPartitionReset p s = .next t) (hw : s.Canon) : t.Canon := by
  unfold execPartitionReset at h
  grind [State.laterOnce_hbm, State.endReset_canon, State.beginReset_canon]

theorem State.showFuses_canon (hw : s.Canon) : s.showFuses.Canon := by
  unfold State.showFuses
  grind [State.setCwInt_hbm, State.setItems_canon]

theorem State.powerOn_canon : s.powerOn.Canon := by
  have hreset : ({ State.reset with nv := s.nv, tick := s.tick } : State).Canon := (rfl : Memory.wf [] = true)
  unfold State.powerOn
  grind [State.setCwInt_hbm, foldl_canon]

theorem State.bootTables_canon (hw : s.Canon) : s.bootTables.Canon := by
  unfold State.bootTables
  grind [State.setFrame_hbm, State.writePart_canon, State.setCwInt_hbm, State.extend_canon, foldl_canon]

theorem State.fuse_canon {f : List (BitVec 8)} (hw : s.Canon) : (s.fuse f).Canon := by
  unfold State.fuse
  grind [State.choose_hbm, State.showFuses_canon]

theorem State.boot_canon : s.boot.Canon := by
  unfold State.boot
  grind [State.powerOn_canon, State.showFuses_canon, State.extend_canon, State.setCwInt_hbm, State.choose_hbm, State.bootTables_canon,
    State.fuse_canon]

theorem execColdReset_canon (h : execColdReset s = .next t) : t.Canon := by
  unfold execColdReset at h
  grind [State.boot_canon]

theorem execCoreRailUndervoltage_canon {_die : Nat} (h : execCoreRailUndervoltage _die s = .next t) : t.Canon := by
  unfold execCoreRailUndervoltage at h
  grind [State.boot_canon]

theorem execFunctionLevelReset_canon (h : execFunctionLevelReset s = .next t) (hw : s.Canon) : t.Canon := by
  unfold execFunctionLevelReset at h
  grind [State.beginReset_canon, foldl_canon]

theorem execProvisioning_canon (h : execProvisioning s = .next t) (hw : s.Canon) : t.Canon := by
  unfold execProvisioning at h
  grind [State.showFuses_canon]

theorem execLifecycleReturn_canon (h : execLifecycleReturn s = .next t) (hw : s.Canon) : t.Canon := by
  unfold execLifecycleReturn at h
  grind [State.showFuses_canon]

theorem State.reportLine_canon {r : Report} {bytes : List (BitVec 8)} {i : Nat} (h : s.reportLine r bytes i = some t) (hw : s.Canon) :
    t.Canon := by
  unfold State.reportLine at h
  grind [State.homeWrite_canon, Option.map_eq_some_iff]

theorem execAttestationReportDone_canon (h : execAttestationReportDone s = .next t) (hw : s.Canon) : t.Canon := by
  unfold execAttestationReportDone at h
  split at h
  · grind
  · dsimp only at h
    split at h
    · grind [State.laterOnce_hbm]
    · rename_i u hu
      have : u.Canon := foldl_bind_canon (fun _ _ _ _ ht hs => State.reportLine_canon ht hs) hu hw
      grind [State.setCwInt_hbm]

/-! ### After a step -/

theorem State.tally_canon {t s : State} {i : Instr} (hw : t.Canon) : (State.tally t s i).Canon := by
  unfold State.tally
  grind [State.modCore_hbm, State.checkShadows_canon]

end Sys2Proof.Machine
end

section
/-! PROOFS. Every step keeps the canonical form of memory (R45–R50). -/

namespace Sys2Proof.Machine

variable {s t u : State}

theorem execVote_canon {o : Opnd} (h : execVote o s = .next t) (hw : s.Canon) : t.Canon := by
  refine perform_canon ?_ h hw
  split
  · exact wordsBody_canon
  · split <;> exact tritBody_canon

theorem execLget_canon {o : Opnd} (h : execLget o s = .next t) (hw : s.Canon) : t.Canon :=
  perform_canon (eachExec_canon fun e x he => by grind [Exec.set_canon]) h hw

theorem execLput_canon {o : Opnd} (h : execLput o s = .next t) (hw : s.Canon) : t.Canon :=
  perform_canon (eachExec_canon fun e x he => by grind [lputTo_canon]) h hw

theorem execClineZero_canon {o : Opnd} (h : execClineZero o s = .next t) (hw : s.Canon) : t.Canon :=
  perform_canon (inOrder_canon fun e x he => by
    grind [State.findGlob_canon, Eff.stop_canon, State.setImage_canon, State.storeWord_canon, foldl_canon]) h hw

theorem execClineEvict_canon {o : Opnd} (h : execClineEvict o s = .next t) (hw : s.Canon) : t.Canon :=
  perform_canon (eachExec_canon fun e x he => by grind [State.translate_canon, State.evictCopy_canon, Eff.stop_canon]) h hw

theorem execBr3_canon {o : Opnd} (h : execBr3 o s = .next t) (hw : s.Canon) : t.Canon :=
  perform_canon (eachExec_canon fun e x he => by grind [Eff.branch_canon]) h hw

theorem execBrm_canon {o : Opnd} (h : execBrm o s = .next t) (hw : s.Canon) : t.Canon :=
  perform_canon (eachExec_canon fun e x he => by grind [Eff.branch_canon]) h hw

theorem execCwget_canon {o : Opnd} (h : execCwget o s = .next t) (hw : s.Canon) : t.Canon :=
  perform_canon (eachExec_canon fun e x he => by grind [Eff.stop_canon, State.contextWord_canon, Exec.set_canon]) h hw

theorem execCwset_canon {o : Opnd} (h : execCwset o s = .next t) (hw : s.Canon) : t.Canon :=
  perform_canon (eachExec_canon fun e x he => by grind [Eff.stop_canon, State.modTeam_hbm, State.writeCw_canon]) h hw

theorem execTpcSet_canon {o : Opnd} (h : execTpcSet o s = .next t) (hw : s.Canon) : t.Canon :=
  perform_canon (tpcBody_canon (by grind [setFramePc_canon])) h hw

theorem execTpcAdv_canon {o : Opnd} (h : execTpcAdv o s = .next t) (hw : s.Canon) : t.Canon :=
  perform_canon (tpcBody_canon (by grind [setFramePc_canon])) h hw

theorem execTpcExit_canon {o : Opnd} (h : execTpcExit o s = .next t) (hw : s.Canon) : t.Canon :=
  perform_canon (tpcBody_canon (by grind [State.setCab_canon])) h hw

/-- Every meaning keeps the canonical form of memory: what is computed in registers, what goes through a team's memory and engines, and
what the machine does by itself. -/
theorem exec_canon {i : Instr} {s t : State} (h : exec i s = .next t) (hw : s.Canon) : t.Canon := by
  cases i with
  | add o | sub o | neg o | abs o | sgn o | mul o | mulh o | mad o | div o | mod o | min o | max o | clamp o | shl o | shr o | rot o | tmin o
  | tmax o | tsum o | tcon o | tmap o | tcnt o | tlz o | text o | tins o | sel o | mov o | movBc o | movK o | movi o | pack o | unpack o | idx o
  | trx o | gred o | gscan o | hist o | bsum o | fadd o | fsub o | fmul o | ffma o | fadd3 o | fdot3 o | fmin o | fmax o | fabs o | fclass o
  | fscl o | fxp o | frnd o | cvt o | cvtb o | cvtf o | dquant o | draw o | feat o | stamp o =>
    exact perform_canon wordsBody_canon h hw
  | cmp o | fcmp o | tkt o => exact perform_canon tritBody_canon h hw
  | vote o => exact execVote_canon h hw
  | rcp o | rsq o | sqrt o | exp o | log o | sin o | cos o | tanh o | sigm o => exact perform_canon sfuBody_canon h hw
  | lget o => exact execLget_canon h hw
  | lput o => exact execLput_canon h hw
  | quant o => exact perform_canon quantBody_canon h hw
  | ld o => exact perform_canon bodyLd_canon h hw
  | st o => exact perform_canon bodySt_canon h hw
  | ldx o => exact perform_canon (eachExec_canon (loadLane_canon fun _ _ _ => ldxPlace_canon)) h hw
  | stx o => exact perform_canon (inOrder_canon (storeLane_canon fun _ _ _ => ldxPlace_canon)) h hw
  | pref o => exact perform_canon (eachExec_canon (quiet_canon fun _ _ _ => askL1_canon)) h hw
  | prefHome o => exact perform_canon (eachExec_canon (quiet_canon fun _ _ _ => askHome_canon)) h hw
  | clineZero o => exact execClineZero_canon h hw
  | clineEvict o => exact execClineEvict_canon h hw
  | copyIn o | copyOut o | copyBin o | copyPeer o | copyCab o => exact perform_canon copyBody_canon h hw
  | xfNeg o | xfShift o | xfZero o | xfFill o | xfClamp o | xfCvt o | xfRq o => exact perform_canon xfBody_canon h hw
  | xfAcc o | xfAdd o | xfMin o | xfMax o | xfXchg o | xfCas o | xfTsum o => exact perform_canon (inOrder_canon xfLane_canon) h hw
  | collAr o | collRs o | collAg o | collBc o | collSend o | collRecv o => exact perform_canon collBody_canon h hw
  | mxIssue o | mxZero o | mxLoadc o | mxScale o | mxDrain o | mxSpill o | mxFill o => exact perform_canon mxBody_canon h hw
  | mxQry o => exact perform_canon bodyMxQry_canon h hw
  | wait o => exact perform_canon bodyWait_canon h hw
  | nop o | gwait o => exact perform_canon noBody_canon h hw
  | br o => exact perform_canon (eachExec_canon fun _ _ he => Eff.branch_canon he) h hw
  | br3 o => exact execBr3_canon h hw
  | brm o => exact execBrm_canon h hw
  | jmp o | jmpr o => exact perform_canon (eachExec_canon fun _ _ he => Eff.jump_canon he) h hw
  | call o | callr o => exact perform_canon callBody_canon h hw
  | ret o => exact perform_canon bodyRet_canon h hw
  | exit o => exact perform_canon bodyExit_canon h hw
  | part o => exact perform_canon partBody_canon h hw
  | reorder o => exact perform_canon bodyReorder_canon h hw
  | yield o => exact perform_canon bodyYield_canon h hw
  | lds o => exact perform_canon bodyLds_canon h hw
  | sts o => exact perform_canon bodySts_canon h hw
  | atom o => exact perform_canon bodyAtom_canon h hw
  | red o => exact perform_canon bodyRed_canon h hw
  | lease o => exact perform_canon bodyLease_canon h hw
  | unlease o => exact perform_canon bodyUnlease_canon h hw
  | publish o => exact perform_canon bodyPublish_canon h hw
  | fence o => exact perform_canon bodyFence_canon h hw
  | wack o => exact perform_canon bodyWack_canon h hw
  | bar o | cbar o => exact perform_canon arriveBody_canon h hw
  | gphase o => exact perform_canon bodyGphase_canon h hw
  | trap o => exact perform_canon (eachExec_canon fun _ _ he => Eff.stop_canon he) h hw
  | tret o => exact perform_canon bodyTret_canon h hw
  | tpcSet o => exact execTpcSet_canon h hw
  | tpcAdv o => exact execTpcAdv_canon h hw
  | tpcExit o => exact execTpcExit_canon h hw
  | cwget o => exact execCwget_canon h hw
  | cwset o => exact execCwset_canon h hw
  | tlbfPage o | tlbfAs o | tlbfAll o => exact perform_canon tlbfBody_canon h hw
  | sleep o => exact perform_canon bodySleep_canon h hw
  | pair a b c d e f => exact execPair_canon h hw
  | illegalInstruction a b => exact execIllegalInstruction_canon h hw
  | bundlerRound a => exact execBundlerRound_canon h hw
  | issueSelection a => exact execIssueSelection_canon h hw
  | convergenceTimeout a b c => exact execConvergenceTimeout_canon h hw
  | loadDataReturn a b => exact execLoadDataReturn_canon h hw
  | sfuResultLands a b => exact execSfuResultLands_canon h hw
  | stsAcknowledgement a b c => exact execStsAcknowledgement_canon h hw
  | scoreboardStart a b => exact execScoreboardStart_canon h hw
  | rangeLockFree a => exact execRangeLockFree_canon h hw
  | engineCommandComplete a b => exact execEngineCommandComplete_canon h hw
  | drawerRequest a b => exact execDrawerRequest_canon h hw
  | tlbMissWalk a b => exact execTlbMissWalk_canon h hw
  | faultPostingResume a => exact execFaultPostingResume_canon h hw
  | faultEntryDone a => exact execFaultEntryDone_canon h hw
  | shootdown a b c d => exact execShootdown_canon h hw
  | shootdownComplete a => exact execShootdownComplete_canon h hw
  | publication a b c => exact execPublication_canon h hw
  | publicationAck a b c => exact execPublicationAck_canon h hw
  | barrierComplete a b => exact execBarrierComplete_canon h hw
  | cbarComplete a b => exact execCbarComplete_canon h hw
  | gphaseComplete a => exact execGphaseComplete_canon h hw
  | detMerge a => exact execDetMerge_canon h hw
  | leaseExpiry a b => exact execLeaseExpiry_canon h hw
  | sleepWake a => exact execSleepWake_canon h hw
  | homeRds a b => exact execHomeRds_canon h hw
  | homeRdx a b => exact execHomeRdx_canon h hw
  | homeUpg a b => exact execHomeUpg_canon h hw
  | homeWbd a b => exact execHomeWbd_canon h hw
  | homeEvc a b => exact execHomeEvc_canon h hw
  | homeHw a => exact execHomeHw_canon h hw
  | homeHr a => exact execHomeHr_canon h hw
  | snoopInv a b => exact execSnoopInv_canon h hw
  | snoopShr a b => exact execSnoopShr_canon h hw
  | snoopGet a b => exact execSnoopGet_canon h hw
  | snoopFilterBroadcast a b => exact execSnoopFilterBroadcast_canon h hw
  | snoopAnswer a b c => exact execSnoopAnswer_canon h hw
  | vaultFill a => exact execVaultFill_canon h hw
  | vaultWriteback a => exact execVaultWriteback_canon h hw
  | hbmRead a => exact execHbmRead_canon h hw
  | hbmWrite a b c => exact execHbmWrite_canon h hw
  | dieLinkFailure a => exact execDieLinkFailure_canon h hw
  | hostBinaryWrite a b c => exact execHostBinaryWrite_canon h hw
  | hostBinaryRead a b c => exact execHostBinaryRead_canon h hw
  | hostImageWrite a b c => exact execHostImageWrite_canon h hw
  | imageStagingTimeout a b => exact execImageStagingTimeout_canon h hw
  | hostImageRead a b c => exact execHostImageRead_canon h hw
  | resamplingInterval a => exact execResamplingInterval_canon h hw
  | samplingWindowEnd a => exact execSamplingWindowEnd_canon h hw
  | denominationSweep a => exact execDenominationSweep_canon h hw
  | graphArm a => exact execGraphArm_canon h hw
  | graphEmpty a => exact execGraphEmpty_canon h hw
  | gridNode a b => exact execGridNode_canon h hw
  | copyNode a b => exact execCopyNode_canon h hw
  | collectiveNode a b => exact execCollectiveNode_canon h hw
  | conditionNode a b => exact execConditionNode_canon h hw
  | whileNode a b => exact execWhileNode_canon h hw
  | waitWordNode a b => exact execWaitWordNode_canon h hw
  | signalNode a b => exact execSignalNode_canon h hw
  | endNode a b => exact execEndNode_canon h hw
  | nodeComplete a b c => exact execNodeComplete_canon h hw
  | teamPlacement a => exact execTeamPlacement_canon h hw
  | preemption a => exact execPreemption_canon h hw
  | teamSave a => exact execTeamSave_canon h hw
  | teamRestore a => exact execTeamRestore_canon h hw
  | teamEnd a => exact execTeamEnd_canon h hw
  | gridCompletion a => exact execGridCompletion_canon h hw
  | trapEntry a => exact execTrapEntry_canon h hw
  | rollback a => exact execRollback_canon h hw
  | vigilCompare a b c => exact execVigilCompare_canon h hw
  | flitLineWrite a => exact execFlitLineWrite_canon h hw
  | pullRequest a => exact execPullRequest_canon h hw
  | pullData a => exact execPullData_canon h hw
  | flitAcknowledgement a => exact execFlitAcknowledgement_canon h hw
  | timeSync a b => exact execTimeSync_canon h hw
  | fabricPortDown a => exact execFabricPortDown_canon h hw
  | governorTick a b => exact execGovernorTick_canon h hw
  | ilimUpdate a => exact execIlimUpdate_canon h hw
  | droopDetect a => exact execDroopDetect_canon h hw
  | thermtrip a => exact execThermtrip_canon (_die := a) h hw
  | coreRailUndervoltage a => exact execCoreRailUndervoltage_canon (_die := a) h
  | partitionReset a => exact execPartitionReset_canon h hw
  | partitionTableWrite a b => exact execPartitionTableWrite_canon h hw
  | attgo a => exact execAttgo_canon h hw
  | controlWordWrite a b => exact execControlWordWrite_canon h hw
  | walkCompletion a => exact execWalkCompletion_canon h hw
  | instructionFetchFill a b c d => exact execInstructionFetchFill_canon h hw
  | leaseGrant a => exact execLeaseGrant_canon h hw
  | localSupplyRecovery a => exact execLocalSupplyRecovery_canon h hw
  | sdopPage => exact execSdopPage_canon h hw
  | sdopSpace => exact execSdopSpace_canon h hw
  | sdopEverySpace => exact execSdopEverySpace_canon h hw
  | chZeroT => exact execChZeroT_canon h hw
  | chZeroB => exact execChZeroB_canon h hw
  | chRetire => exact execChRetire_canon h hw
  | chScrub => exact execChScrub_canon h hw
  | chScore => exact execChScore_canon h hw
  | chClear => exact execChClear_canon h hw
  | patrolScrubPass => exact execPatrolScrubPass_canon h hw
  | stampSyncLoss => exact execStampSyncLoss_canon h hw
  | coldReset => exact execColdReset_canon h
  | functionLevelReset => exact execFunctionLevelReset_canon h hw
  | provisioning => exact execProvisioning_canon h hw
  | attestationReportDone =>
    simp only [exec] at h
    exact execAttestationReportDone_canon h hw
  | extgo => exact execExtgo_canon h hw
  | lifecycleReturn => exact execLifecycleReturn_canon h hw

theorem afterIssue_canon {i : Instr} {out : Host.Outcome State Fault Refusal} (ho : ∀ u, out = .next u → u.Canon)
    (h : afterIssue s i out = .next t) : t.Canon := by
  unfold afterIssue at h
  grind [State.tally_canon]

theorem afterStep_canon {out : Host.Outcome State Fault Refusal} (ho : ∀ u, out = .next u → u.Canon) (h : afterStep out = .next t) :
    t.Canon := by
  unfold afterStep at h
  grind [State.checkShadows_canon]

/-- Settles O60: `Memory.wf` holds of what a step leaves because the only writes to memory are images that the shell stores (`hbmStore_wf`)
and a partition's reset, which drops bytes (`memory_wf_filter`). -/
theorem memoryInvariant : Obligations.MemoryInvariant := by
  intro s t hw h
  unfold step at h
  split at h
  · rename_i b rest hissue
    split at h
    · rename_i n q hshadow
      injection h with h
      exact h ▸ State.shadowRun_canon (s := { s with issue := rest }) hw
    · split at h
      · injection h with h
        exact h ▸ hw
      · rename_i u i htake
        have hu : u.Canon := State.takeBundle_canon htake hw
        exact afterIssue_canon (fun v hv => State.vigilRun_canon (fun w hrun => exec_canon hrun hu) hv hu) h
  · split at h
    · cases h
    · dsimp only at h
      split at h
      · exact afterStep_canon (fun u hu => exec_canon hu (by exact hw)) h
      · injection h with h
        exact h ▸ State.nextCycle_canon hw

end Sys2Proof.Machine
end

section
/-! PROOFS. The machine right after reset (R448). -/

namespace Sys2Proof.Machine

theorem State.reset_die (d : Nat) : State.reset.die d = Die.reset := by
  unfold State.die
  rw [show State.reset.dies = List.replicate 4 Die.reset from rfl, List.getD_eq_getElem?_getD, List.getElem?_replicate]
  split <;> rfl

/-- Settles O56: the components read off `State.reset`, and the control words from the defaults of `resetWord`. -/
theorem resetState : Obligations.ResetState := by
  refine ⟨rfl, rfl, fun _ => rfl, fun _ => rfl, rfl, rfl, rfl, rfl, rfl, fun d => ?_, by decide, rfl, rfl, rfl, rfl, rfl, rfl, rfl, rfl, rfl⟩
  rw [State.reset_die]
  exact ⟨rfl, rfl, rfl⟩

end Sys2Proof.Machine
end

section
/-! PROOFS. PREF, PREF.home and CLINE.evict: what a translation that updates no AD trit leaves alone (R192, R193). -/

namespace Sys2Proof.Machine

/-! `b` is the state from which nothing has been written, as far as `s`. -/
variable {b s t : State}

/-! ### States in which nothing is written -/

/-- Copies may go: their words are none that are read. -/
theorem State.unwritten_of_frame (h : b.unwritten s) (ht : t.teams = s.teams) (hg : t.grids = s.grids) (hn : t.serials = s.serials)
    (hc : ∀ c ∈ t.copies, c ∈ s.copies) : b.unwritten t := by
  obtain ⟨hteams, hgrids, hserials, hcopies⟩ := h
  exact ⟨ht.trans hteams, hg.trans hgrids, hn.trans hserials, fun c hct => hcopies c (hc c hct)⟩

theorem State.unwritten_refl (s : State) : s.unwritten s := ⟨rfl, rfl, rfl, fun c hc => ⟨c, hc, rfl, rfl, .inl rfl⟩⟩

theorem foldl_unwritten {α : Type} {f : State → α → State} (hf : ∀ s a, b.unwritten s → b.unwritten (f s a)) {l : List α}
    (h : b.unwritten s) : b.unwritten (l.foldl f s) := by
  induction l generalizing s with
  | nil => exact h
  | cons a l ih => exact ih (hf s a h)

/-! ### Events that name no grid, and the shell -/

theorem State.logLine_serials (s : State) (e : Event) (act : Int) (i : Bool) : (s.logLine e act i).serials = s.serials := by
  unfold State.logLine
  extract_lets
  split <;> rfl

theorem State.logLine_unwritten {e : Event} {act : Int} {i : Bool} (h : b.unwritten s) : b.unwritten (s.logLine e act i) :=
  unwritten_of_frame h (by simp) (by simp) (s.logLine_serials e act i) (by simp)

theorem State.later_unwritten {l : List Instr} (h : b.unwritten s) : b.unwritten (s.later l) :=
  unwritten_of_frame h rfl rfl rfl fun _ hc => hc

theorem State.raise_unwritten {e : Event} (he : e.grid = none) (h : b.unwritten s) : b.unwritten (s.raise e) := by
  unfold State.raise
  grind [State.logLine_unwritten, State.later_unwritten]

theorem State.score_unwritten {slot k : Nat} (h : b.unwritten s) : b.unwritten (s.score slot k) := by
  have hput (l : List (Nat × Nat)) : b.unwritten { s with scores := l } := unwritten_of_frame h rfl rfl rfl fun _ hc => hc
  unfold State.score
  dsimp only
  split
  · exact raise_unwritten rfl (hput _)
  · exact hput _

theorem State.uncorrectable_unwritten {slot : Nat} (h : b.unwritten s) : b.unwritten (s.uncorrectable slot) :=
  score_unwritten (raise_unwritten rfl h)

theorem State.hbmFetch_unwritten {slot : Nat} (h : b.unwritten s) : b.unwritten (s.hbmFetch slot).1 := by
  have hfixed := score_unwritten (slot := slot) (k := 1) (raise_unwritten (e := Event.phys 1 (648 + shellOf slot) (81 * slot)) rfl h)
  unfold State.hbmFetch
  grind [State.uncorrectable_unwritten]

theorem State.sawLine_unwritten {slot : Nat} (h : b.unwritten s) : b.unwritten (s.sawLine slot) := by
  unfold State.sawLine
  grind [State.hbmFetch_unwritten]

/-! ### Lines and copies that are read -/

theorem State.raiseFixed_unwritten {flips : List Nat} {src slot : Nat} (h : b.unwritten s) : b.unwritten (s.raiseFixed flips src slot) :=
  foldl_unwritten (fun _ _ h => raise_unwritten rfl h) h

theorem State.putVl_unwritten {v : VLine} (h : b.unwritten s) : b.unwritten (s.putVl v) :=
  unwritten_of_frame h rfl rfl rfl fun _ hc => hc

theorem State.checkVl_unwritten {v : VLine} (h : b.unwritten s) : b.unwritten (s.checkVl v).1 := by
  unfold State.checkVl
  grind [State.raiseFixed_unwritten, State.hbmFetch_unwritten, State.putVl_unwritten]

theorem State.putCopy_unwritten {c d : Copy} (hd : d ∈ s.copies) (ha : c.agent = d.agent) (hs : c.slot = d.slot)
    (hl : c.line = d.line ∨ c.line.poison = true) (h : b.unwritten s) : b.unwritten (s.putCopy c) := by
  obtain ⟨hteams, hgrids, hserials, hcopies⟩ := h
  refine ⟨hteams, hgrids, hserials, fun x hx => ?_⟩
  rcases List.mem_append.mp hx with hx | hx
  · exact hcopies x (List.mem_filter.mp hx).1
  · cases List.mem_singleton.mp hx
    obtain ⟨e, he, hea, hes, hel⟩ := hcopies d hd
    refine ⟨e, he, ha.trans hea, hs.trans hes, ?_⟩
    rcases hl with hl | hl
    · exact hl ▸ hel
    · exact .inr hl

theorem State.dirtyCopy_spec {slot : Nat} {c : Copy} (h : s.dirtyCopy slot = some c) : c ∈ s.copies ∧ (c.st = .M ∨ c.st = .O) := by
  have := List.find?_some h
  exact ⟨List.mem_of_find?_eq_some h, by simp_all⟩

/-- A dirty copy that is read stays as it is, or loses its words. -/
theorem State.checkCopy_unwritten {c : Copy} (hc : c ∈ s.copies) (hd : c.st = .M ∨ c.st = .O) (h : b.unwritten s) :
    b.unwritten (s.checkCopy c).1 := by
  have hmem : c ∈ (s.raiseFixed c.flips (agentSource c.agent) c.slot).copies := by simpa using hc
  unfold State.checkCopy
  dsimp only
  split
  · exact h
  · exact putCopy_unwritten hmem rfl rfl (.inl rfl) (raiseFixed_unwritten h)
  · rw [if_pos hd]
    exact putCopy_unwritten hmem rfl rfl (.inr rfl) (raiseFixed_unwritten h)

theorem State.takeDirty_unwritten {slot : Nat} (h : b.unwritten s) : b.unwritten (s.takeDirty slot).1 := by
  unfold State.takeDirty
  split
  · exact h
  · rename_i c hc
    obtain ⟨hmem, hst⟩ := dirtyCopy_spec hc
    have hcheck := checkCopy_unwritten hmem hst h
    split <;> simp_all

theorem State.invalidate_unwritten {slot : Nat} (h : b.unwritten s) : b.unwritten (s.invalidate slot).1 :=
  unwritten_of_frame (takeDirty_unwritten (slot := slot) h) rfl rfl rfl fun _ hc => (List.mem_filter.mp hc).1

/-! ### A slice makes room and fills -/

theorem State.orphan_unwritten {lost : Bool} {src slot : Nat} (h : b.unwritten s) : b.unwritten (s.orphan lost src slot) := by
  unfold State.orphan
  split
  · exact raise_unwritten rfl h
  · exact h

theorem State.writeBack_unwritten {v : VLine} (h : b.unwritten s) : b.unwritten (s.writeBack v) := by
  unfold State.writeBack State.sample
  split <;> exact unwritten_of_frame h rfl rfl rfl fun _ hc => hc

theorem State.dropVl_unwritten {slot : Nat} (h : b.unwritten s) : b.unwritten (s.dropVl slot) :=
  unwritten_of_frame h rfl rfl rfl fun _ hc => hc

theorem State.evict_unwritten {v : VLine} (h : b.unwritten s) : b.unwritten (s.evict v) := by
  unfold State.evict
  grind [State.orphan_unwritten, State.invalidate_unwritten, State.checkVl_unwritten, State.writeBack_unwritten, State.dropVl_unwritten]

theorem State.choose_unwritten {n : Nat} (h : b.unwritten s) : b.unwritten (s.choose n).1 :=
  unwritten_of_frame h rfl rfl rfl fun _ hc => hc

theorem State.roomVault_unwritten {slot : Nat} (ht : s.roomVault slot = some t) (h : b.unwritten s) : b.unwritten t := by
  unfold State.roomVault at ht
  grind [State.choose_unwritten, State.evict_unwritten]

theorem State.ensure_unwritten {slot : Nat} {pin : Option (Nat × Nat)} {v : VLine} (ht : s.ensure slot pin = some (t, v))
    (h : b.unwritten s) : b.unwritten t := by
  unfold State.ensure at ht
  split at ht
  · grind [State.checkVl_unwritten]
  · obtain ⟨u, hu, hv⟩ := Option.map_eq_some_iff.mp ht
    have hroom : b.unwritten (u.hbmFetch slot).1 := hbmFetch_unwritten (roomVault_unwritten hu h)
    cases hv
    refine putVl_unwritten ?_
    split
    · exact raise_unwritten rfl hroom
    · exact hroom

theorem State.refuseUnit_unwritten {slot : Nat} (h : b.unwritten s) : b.unwritten (s.refuseUnit slot) := by
  unfold State.refuseUnit
  split
  · exact raise_unwritten rfl h
  · exact h

theorem State.homeRead_unwritten {slot : Nat} {pin : Option (Nat × Nat)} {l : Line} (ht : s.homeRead slot pin = some (t, l))
    (h : b.unwritten s) : b.unwritten t := by
  unfold State.homeRead at ht
  grind [State.refuseUnit_unwritten, State.ensure_unwritten, State.takeDirty_unwritten]

/-! ### Walks -/

theorem State.homeWord_unwritten {pa : Nat} {w : Word} {p : Bool} (ht : s.homeWord pa = some (t, w, p)) (h : b.unwritten s) :
    b.unwritten t := by
  unfold State.homeWord at ht
  grind [State.homeRead_unwritten, Option.map_eq_some_iff]

theorem State.modDie_unwritten {d : Nat} {f : Die → Die} (h : b.unwritten s) : b.unwritten (s.modDie d f) :=
  unwritten_of_frame h rfl rfl rfl fun _ hc => hc

theorem State.wcPut_unwritten {die : Nat} {e : WcE} (h : b.unwritten s) : b.unwritten (s.wcPut die e) := modDie_unwritten h

theorem State.walkFrom_unwritten {k : WalkCtx} {l table : Nat} (h : b.unwritten s) : b.unwritten (State.walkFrom k l s table).1 := by
  induction l generalizing s table with
  | zero => exact h
  | succ l ih =>
    unfold State.walkFrom
    grind [State.homeWord_unwritten, State.wcPut_unwritten]

theorem State.physRead_unwritten {slot : Nat} (h : b.unwritten s) : b.unwritten (s.physRead slot).1 := by
  unfold State.physRead
  grind [State.homeRead_unwritten]

theorem State.walk_unwritten {c : Ctx} {va : Word} (h : b.unwritten s) : b.unwritten (s.walk c va).1 := by
  unfold State.walk
  grind [State.physRead_unwritten, State.walkFrom_unwritten]

theorem State.tlbPut_unwritten {c : Ctx} {e : TlbE} (h : b.unwritten s) : b.unwritten (s.tlbPut c e) := by
  unfold State.tlbPut
  dsimp only
  split <;> exact unwritten_of_frame h rfl rfl rfl fun _ hc => hc

theorem adOk_of_quiet {a : Access} (ha : a.quiet = true) (w : Word) : adOk w a = true := by simp [adOk, ha]

theorem State.walkNow_unwritten {c : Ctx} {va : Word} {a : Access} {p : Bool} (ha : a.quiet = true) (h : b.unwritten s) :
    b.unwritten (s.walkNow c va a p).1 := by
  unfold State.walkNow
  simp only [adOk_of_quiet ha, if_true]
  grind [State.walk_unwritten, State.tlbPut_unwritten]

/-- The translation of an access that leaves the AD trit alone writes nothing. -/
theorem State.translate_unwritten {c : Ctx} {va : Word} {a : Access} {p : Bool} (ha : a.quiet = true) (h : b.unwritten s) :
    b.unwritten (s.translate c va a p).1 := by
  unfold State.translate
  grind [State.sawLine_unwritten, State.modDie_unwritten, State.walkNow_unwritten, State.later_unwritten]

theorem quietPlace_unwritten {x : Exec} {o : Opnd} (h : b.unwritten s) : b.unwritten (quietPlace s x o).1 := by
  have hglob : b.unwritten (s.findGlob x.t.team .prefetch false (eaOf s x o 0)).1 := by
    unfold State.findGlob
    grind [State.translate_unwritten, Access.quiet]
  unfold quietPlace
  grind

/-! ### Rules that write nothing -/

/-- A rule for one execution that passes it or makes it stay, and writes nothing. -/
def WritesNone (g : State → Exec → State × After) : Prop :=
  ∀ (b s : State) (x : Exec), b.unwritten s → ((g s x).2 = .pass ∨ (g s x).2 = .stay) ∧ b.unwritten (g s x).1

theorem eachDo_writesNone {g : State → Exec → State × After} (hg : WritesNone g) (xs : List Exec) (h : b.unwritten s) :
    ∃ w l, eachDo (fun s x => some (g s x)) xs s = some (w, l) ∧ (∀ p ∈ l, p.2 = .pass ∨ p.2 = .stay) ∧ b.unwritten w := by
  induction xs generalizing s with
  | nil => exact ⟨s, [], rfl, by simp, h⟩
  | cons x xs ih =>
    obtain ⟨hafter, hstep⟩ := hg b s x h
    obtain ⟨w, l, hd, hl, hw⟩ := ih hstep
    exact ⟨w, (x, (g s x).2) :: l, by simp [eachDo, hd], by simpa using ⟨hafter, fun y a hya => hl (y, a) hya⟩, hw⟩

theorem Does.writesNothing {i : Instr} {o : Opnd} {fm : Form} {g : State → Exec → State × After}
    (h : Does i o fm (eachDo (fun s x => some (g s x)))) (hg : WritesNone g) : WritesNothing i o fm := by
  intro s hs
  obtain ⟨w, l, hd, hl, hw⟩ := eachDo_writesNone hg (s.runs o) s.unwritten_refl
  exact ⟨w, l, h s w l hs hd, hl, hw⟩

/-- A prefetch that asks without writing writes nothing. -/
theorem quietRule_writesNone {o : Opnd} {ask : State → Exec → Xl → State} (ha : ∀ (b s : State) x l, b.unwritten s → b.unwritten (ask s x l)) :
    ∃ g, quietRule o ask = (fun s x => some (g s x)) ∧ WritesNone g := by
  refine ⟨_, rfl, fun b s x h => ?_⟩
  have hplace := quietPlace_unwritten (x := x) (o := o) h
  grind

theorem State.evictCopy_unwritten {core slot : Nat} (h : b.unwritten s) : b.unwritten (s.evictCopy core slot) := by
  unfold State.evictCopy
  split
  · rename_i c hc
    have hput : b.unwritten (s.putCopy { c with back := true }) := putCopy_unwritten (List.mem_of_find?_eq_some hc) rfl rfl (.inl rfl) h
    grind [State.laterOnce, State.later_unwritten]
  · exact h

theorem State.unwritten.coreOf (h : b.unwritten s) (n : Nat) : s.coreOf n = b.coreOf n := by
  obtain ⟨hteams, _⟩ := h
  simp [State.coreOf, State.team?, hteams]

/-- CLINE.evict through the copy that its core gives back. -/
def evictStep (o : Opnd) (s : State) (x : Exec) : State × After :=
  match s.translate (s.ctxOf x.t.team) (eaOf s x o 0) .evict false with
  | (u, .ok l) => (u.evictCopy (u.coreOf x.t.team) l.slot, .pass)
  | (u, .error .busy) => (u, .stay)
  | (u, .error _) => (u, .pass)

theorem evictRule_eq (o : Opnd) : evictRule o = fun s x => some (evictStep o s x) := by
  funext s x
  have htranslate := State.translate_unwritten (c := s.ctxOf x.t.team) (va := eaOf s x o 0) (a := .evict) (p := false) rfl s.unwritten_refl
  have hcore := htranslate.coreOf x.t.team
  unfold evictRule evictStep
  generalize s.translate (s.ctxOf x.t.team) (eaOf s x o 0) .evict false = r at hcore ⊢
  obtain ⟨u, e | l⟩ := r
  · cases e <;> rfl
  · dsimp only at hcore ⊢
    rw [hcore]
    unfold State.evictCopy
    cases u.copy (s.coreOf x.t.team) l.slot <;> rfl

theorem evictStep_writesNone (o : Opnd) : WritesNone (evictStep o) := by
  intro b s x h
  have htranslate := State.translate_unwritten (c := s.ctxOf x.t.team) (va := eaOf s x o 0) (a := .evict) (p := false) rfl h
  unfold evictStep
  generalize s.translate (s.ctxOf x.t.team) (eaOf s x o 0) .evict false = r at htranslate ⊢
  obtain ⟨u, e | l⟩ := r
  · cases e with
    | busy => exact ⟨.inr rfl, htranslate⟩
    | trap _ | recov _ _ _ _ => exact ⟨.inl rfl, htranslate⟩
  · exact ⟨.inl rfl, State.evictCopy_unwritten htranslate⟩

theorem evictRule_writesNone (o : Opnd) : ∃ g, evictRule o = (fun s x => some (g s x)) ∧ WritesNone g :=
  ⟨_, evictRule_eq o, evictStep_writesNone o⟩

/-! ### The instructions follow the rules -/

theorem quiet_follows (o : Opnd) (ask : Exec → Xl → State → State) : Follows (quiet o ask) (quietRule o (fun s x l => ask x l s)) :=
  follows_total _ fun e x => by
    unfold quiet
    split <;> simp_all

theorem clineEvict_follows (o : Opnd) : Follows
    (fun e x => match e.s.translate (e.s.ctxOf x.t.team) (eaOf e.s x o 0) .evict false with
      | (s, .ok l) => { e with s := s.evictCopy (s.coreOf x.t.team) l.slot }
      | (s, .error .busy) => { e with s := s, stay := e.stay ++ [x] }
      | (s, .error _) => { e with s := s }) (evictRule o) := by
  rw [evictRule_eq]
  exact follows_total _ fun e x => by unfold evictStep; split <;> simp_all

/-- A rule that always applies and writes nothing is what the instruction does. -/
theorem Does.withNothing {i : Instr} {o : Opnd} {fm : Form} {r : State → Exec → Option (State × After)} (h : Does i o fm (eachDo r))
    (hr : ∃ g, r = (fun s x => some (g s x)) ∧ WritesNone g) : Does i o fm (eachDo r) ∧ WritesNothing i o fm := by
  obtain ⟨g, rfl, hg⟩ := hr
  exact ⟨h, h.writesNothing hg⟩

theorem askL1_unwritten {x : Exec} {l : Xl} (h : b.unwritten s) : b.unwritten (askL1 x l s) := by
  unfold askL1
  grind [State.later_unwritten]

theorem pref_writesNothing (o : Opnd) : Does (.pref o) o (lineForm o) (eachDo (prefRule o)) ∧ WritesNothing (.pref o) o (lineForm o) :=
  ((quiet_follows o askL1).does fun _ => rfl).withNothing (quietRule_writesNone fun _ _ _ _ h => askL1_unwritten h)

theorem prefHome_writesNothing (o : Opnd) :
    Does (.prefHome o) o (lineForm o) (eachDo (prefHomeRule o)) ∧ WritesNothing (.prefHome o) o (lineForm o) :=
  ((quiet_follows o askHome).does fun _ => rfl).withNothing (quietRule_writesNone fun _ _ _ _ h => State.later_unwritten h)

theorem clineEvict_writesNothing (o : Opnd) :
    Does (.clineEvict o) o (lineForm o) (eachDo (evictRule o)) ∧ WritesNothing (.clineEvict o) o (lineForm o) :=
  ((clineEvict_follows o).does fun _ => rfl).withNothing (evictRule_writesNone o)

/-- Settles O14: the three rules apply to every execution, and a translation that leaves the AD trit alone, the requests that follow it and
a copy that is marked as given back write no register and no word. -/
theorem prefetchAndEvict : Obligations.PrefetchAndEvict := fun o => by
  obtain ⟨hp, hpn⟩ := pref_writesNothing o
  obtain ⟨hh, hhn⟩ := prefHome_writesNothing o
  obtain ⟨he, hen⟩ := clineEvict_writesNothing o
  exact ⟨hp, hpn, hh, hhn, he, hen⟩

end Sys2Proof.Machine
end

section
/-! PROOFS. Misses, walks and fetched lines (R72, R81, R157). -/

namespace Sys2Proof.Machine

variable {s t : State}

/-! ### The AD trit of an entry (R76) -/

theorem pteAd_eq (w : Word) : pteAd w = ((w.val + 40) / 81 + 1) % 3 - 1 := by
  unfold pteAd trit wrap dropTrits
  rw [show maxv 4 = 40 from rfl, show maxv 1 = 1 from rfl]
  norm_num

theorem Word.val_ofInt (x : Int) : (Word.ofInt x).val = (x + 3812798742493) % 7625597484987 - 3812798742493 := by
  simp only [Word.ofInt, Word.val, Fin.ofNat]
  omega

theorem pteAd_add (w : Word) {d : Int} (hd : -1 ≤ d ∧ d ≤ 1) : pteAd (w.add ((d - pteAd w) * 81)) = d := by
  rw [pteAd_eq (w.add _), pteAd_eq w, Word.add, Word.val_ofInt]
  omega

/-- The trit that an access writes is the one that it needs. -/
theorem adOk_adSet (w : Word) (a : Access) : adOk (adSet w a) a = true := by
  have hd := pteAd_add w (d := if a.writes then 1 else -1) (by split <;> decide)
  unfold adOk adSet
  rw [hd]
  cases a.writes <;> simp

/-! ### The cores' and dies' parts -/

theorem State.modDie_die (s : State) {d : Nat} (f : Die → Die) (hd : d < s.dies.length) (e : Nat) :
    (s.modDie d f).die e = if e = d then f (s.die d) else s.die e := by
  unfold State.die State.modDie
  rw [List.getD_eq_getElem?_getD, List.getD_eq_getElem?_getD, modNth_getElem?]
  split
  · rename_i h
    subst h
    simp [hd]
  · rfl

theorem State.dies_length_of_walks {d : Nat} {k : Walk} {l : List Walk} (h : (s.die d).walks = k :: l) : d < s.dies.length := by
  by_contra hd
  rw [State.die, List.getD_eq_default _ _ (Nat.le_of_not_lt hd)] at h
  cases h

theorem State.core_num (s : State) (n : Nat) : (s.core n).num = n := by
  unfold State.core
  cases h : s.cores.find? (fun c => c.num == n) with
  | none => rfl
  | some c => simpa using List.find?_some h

theorem State.modCore_core (s : State) (n : Nat) {f : Core → Core} (hf : (f (s.core n)).num = n) : (s.modCore n f).core n = f (s.core n) := by
  unfold State.modCore
  dsimp only
  rw [State.core, find_insertBy _ _ _ _ (fun y hy hyn => by simp_all [List.mem_filter])]
  simp [hf]

/-! ### A step put into the agenda -/

theorem laterOnce_frame (s : State) (i : Instr) : { s.laterOnce i with agenda := s.agenda } = s := by
  unfold State.laterOnce
  split <;> rfl

/-! ### The walks of the dies, which nothing but a miss and a walk's end changes -/

/-- The dies have the walks `ws`. -/
def WalksAre (l : List Die) (ws : List (List Walk)) : Prop := l.map (·.walks) = ws

/-- The dies of a state have the walks `ws`. -/
abbrev State.Walks (s : State) (ws : List (List Walk)) : Prop := WalksAre s.dies ws

section
variable {ws : List (List Walk)}

theorem State.modDie_walks {d : Nat} {f : Die → Die} (hf : ∀ x, (f x).walks = x.walks) (h : s.Walks ws) : (s.modDie d f).Walks ws := by
  have hmap (l : List Die) (i : Nat) : (modNth f l i).map (·.walks) = l.map (·.walks) := by
    induction l generalizing i with
    | nil => rfl
    | cons a l ih => cases i <;> simp [modNth, hf, ih]
  exact (hmap s.dies d).trans h

theorem State.unfilter_walks {slot : Nat} {keep : List Nat} (h : s.Walks ws) : (s.unfilter slot keep).Walks ws := by
  unfold State.unfilter State.Walks WalksAre
  rwa [List.map_map]

theorem State.leave_walks {a slot : Nat} {data : Option Line} (h : s.Walks ws) : (s.leave a slot data).Walks ws := by
  unfold State.leave
  grind [State.unfilter_walks, State.putVl_dies, State.dropCopy_dies]

theorem State.checkCopy_walks {c : Copy} (h : s.Walks ws) : (s.checkCopy c).1.Walks ws := by
  unfold State.checkCopy
  grind [State.raiseFixed_dies, State.putCopy_dies, State.leave_walks]

theorem State.takeDirty_walks {slot : Nat} (h : s.Walks ws) : (s.takeDirty slot).1.Walks ws := by
  unfold State.takeDirty
  grind [State.checkCopy_walks]

theorem State.invalidate_walks {slot : Nat} (h : s.Walks ws) : (s.invalidate slot).1.Walks ws := by
  unfold State.invalidate
  exact unfilter_walks (s := { (s.takeDirty slot).1 with copies := _ }) (takeDirty_walks (slot := slot) h)

theorem State.writeBack_walks {v : VLine} (h : s.Walks ws) : (s.writeBack v).Walks ws := by
  unfold State.writeBack State.sample
  split
  · exact modDie_walks (fun _ => rfl) h
  · exact h

theorem State.evict_walks {v : VLine} (h : s.Walks ws) : (s.evict v).Walks ws := by
  unfold State.evict
  grind [State.orphan_dies, State.invalidate_walks, State.checkVl_dies, State.writeBack_walks, State.dropVl_dies]

theorem State.ensure_walks {slot : Nat} {pin : Option (Nat × Nat)} {v : VLine} (ht : s.ensure slot pin = some (t, v)) (h : s.Walks ws) :
    t.Walks ws := by
  unfold State.ensure at ht
  split at ht
  · grind [State.checkVl_dies]
  · obtain ⟨u, hu, hv⟩ := Option.map_eq_some_iff.mp ht
    have hroom : u.Walks ws := by
      unfold State.roomVault at hu
      grind [State.choose_dies, State.evict_walks]
    grind [State.hbmFetch_dies, State.raise_dies, State.putVl_dies]

theorem State.homeRead_walks {slot : Nat} {pin : Option (Nat × Nat)} {l : Line} (ht : s.homeRead slot pin = some (t, l)) (h : s.Walks ws) :
    t.Walks ws := by
  unfold State.homeRead at ht
  grind [State.refuseUnit_dies, State.ensure_walks, State.takeDirty_walks]

theorem State.homeWrite_walks {slot : Nat} {f : Line → Line} {elig : Option Bool} {pin : Option (Nat × Nat)} {l : Line} {n : Word}
    (ht : s.homeWrite slot f elig pin = some (t, l, n)) (h : s.Walks ws) : t.Walks ws := by
  unfold State.homeWrite at ht
  grind [State.refuseUnit_dies, State.ensure_walks, State.invalidate_walks, State.mergeAt_dies]

theorem State.wcPut_walks {die : Nat} {e : WcE} (h : s.Walks ws) : (s.wcPut die e).Walks ws := modDie_walks (fun _ => rfl) h

theorem State.homeWord_walks {pa : Nat} {w : Word} {p : Bool} (ht : s.homeWord pa = some (t, w, p)) (h : s.Walks ws) : t.Walks ws := by
  unfold State.homeWord at ht
  grind [State.homeRead_walks, Option.map_eq_some_iff]

theorem State.walkFrom_walks {k : WalkCtx} {l table : Nat} (h : s.Walks ws) : (State.walkFrom k l s table).1.Walks ws := by
  induction l generalizing s table with
  | zero => exact h
  | succ l ih =>
    unfold State.walkFrom
    grind [State.homeWord_walks, State.wcPut_walks]

theorem State.walk_walks {c : Ctx} {va : Word} (h : s.Walks ws) : (s.walk c va).1.Walks ws := by
  have hrec : (s.physRead (c.asrec / 81)).1.Walks ws := by
    unfold State.physRead
    grind [State.homeRead_walks]
  unfold State.walk
  grind [State.walkFrom_walks]

theorem State.tlbPut_walks {c : Ctx} {e : TlbE} (h : s.Walks ws) : (s.tlbPut c e).Walks ws := by
  unfold State.tlbPut
  dsimp only
  split <;> exact modDie_walks (fun _ => rfl) h

theorem State.walkNow_walks {c : Ctx} {va : Word} {a : Access} {p : Bool} (h : s.Walks ws) : (s.walkNow c va a p).1.Walks ws := by
  have hwrite {u v : State} {slot : Nat} {f : Line → Line} {elig : Option Bool} (hv : (u.homeWrite slot f elig).map (·.1) = some v)
      (hu : u.Walks ws) : v.Walks ws := by
    obtain ⟨r, hr, rfl⟩ := Option.map_eq_some_iff.mp hv
    exact homeWrite_walks hr hu
  unfold State.walkNow
  grind [State.walk_walks, State.tlbPut_walks]

end

theorem State.walks_of_die {ws : List (List Walk)} (h : s.Walks ws) (d : Nat) : (s.die d).walks = ws.getD d [] := by
  cases h
  simp only [State.die, List.getD_eq_getElem?_getD, List.getElem?_map]
  cases s.dies[d]? <;> rfl

/-! ### A miss (R81) -/

theorem Die.miss_joins {d : Die} {w : WalkReq} (h : d.walks.any (fun k => samePage k.req w) = true) : d.miss w =
    { d with walks := d.walks.map (fun k => if samePage k.req w then { k with joined := k.joined ++ [w] } else k) } := if_pos h

theorem Die.miss_starts {d : Die} {w : WalkReq} (h : d.walks.any (fun k => samePage k.req w) = false) : d.miss w =
    if d.walks.length < 2187 then { d with walks := d.walks ++ [{ req := w, joined := [] }] } else { d with missq := d.missq ++ [w] } :=
  if_neg (by simp [h])

theorem tlbMissWalk_misses (s : State) {die : Nat} (w : WalkReq) (hd : die < s.dies.length) : ∃ t, exec (.tlbMissWalk die w) s = .next t
    ∧ { t with dies := s.dies, agenda := s.agenda } = s ∧ .walkCompletion die ∈ t.agenda
    ∧ ∀ d, t.die d = if d = die then (s.die die).miss w else s.die d := by
  refine ⟨_, rfl, ?_, mem_laterOnce _ _, fun d => ?_⟩
  · have := laterOnce_frame (s.modDie die (fun d => d.miss w)) (.walkCompletion die)
    generalize (s.modDie die (fun d => d.miss w)).laterOnce (.walkCompletion die) = t at this
    calc { t with dies := s.dies, agenda := s.agenda }
        = { ({ t with agenda := s.agenda } : State) with dies := s.dies } := rfl
      _ = { (s.modDie die (fun d => d.miss w)) with dies := s.dies } := by rw [← this]; rfl
      _ = s := rfl
  · rw [← s.modDie_die (fun d => d.miss w) hd d]
    simp [State.die]

/-! ### The end of a walk (R72, R81) -/

theorem walkNow_ok {s1 : State} {c : Ctx} {va : Word} {a : Access} {b : Bool} {x : Xl} (h : s.walkNow c va a b = (s1, .ok x)) :
    ∃ u e, s1 = State.tlbPut u c e ∧ e.asrec = c.asrec ∧ e.page = va.num / pageSpan e.level ∧ adOk e.pte a = true := by
  unfold State.walkNow at h
  split at h
  · cases h
  · split at h
    · cases h
    · dsimp only at h
      split at h
      · cases h
      · cases h
        refine ⟨_, _, rfl, rfl, rfl, ?_⟩
        dsimp only
        split
        · assumption
        · exact adOk_adSet _ a

theorem mem_tlbKeep (ways : Nat) (set : TlbE → Nat) (l : List TlbE) (e : TlbE) : e ∈ tlbKeep ways set l e :=
  List.mem_append_right _ List.mem_cons_self

theorem mem_tlbPut {c : Ctx} {e : TlbE} (hd : c.die < s.dies.length) : e ∈ ((s.tlbPut c e).die c.die).tlb := by
  unfold State.tlbPut
  dsimp only
  rw [State.modDie_die _ _ (by split <;> simpa using hd), if_pos rfl]
  exact mem_tlbKeep _ _ _ _

theorem State.tlbPut_length (s : State) (c : Ctx) (e : TlbE) : (s.tlbPut c e).dies.length = s.dies.length := by
  unfold State.tlbPut
  dsimp only
  split <;> simp [State.modDie]

theorem State.modDie_id (s : State) (d : Nat) : s.modDie d (fun x => x) = s := by
  have hid (l : List Die) (i : Nat) : modNth (fun x => x) l i = l := by
    induction l generalizing i with
    | nil => rfl
    | cons a l ih => cases i <;> simp [modNth, ih]
  unfold State.modDie
  rw [hid]

/-- A walk alone on its die, with no request that joined it and none that waits: what its end leaves. -/
theorem walkCompletion_alone {die : Nat} {k : Walk} (hk : (s.die die).walks = [k]) (hj : k.joined = []) (hq : (s.die die).missq = [])
    (hend : ((State.endWalk die (s.modDie die (fun d => { d with walks := [], missq := [] })) k.req).die die).walks = []) :
    exec (.walkCompletion die) s = .next (State.endWalk die (s.modDie die (fun d => { d with walks := [], missq := [] })) k.req) := by
  have hexec : exec (.walkCompletion die) s = execWalkCompletion die s := rfl
  rw [hexec, execWalkCompletion, hk]
  simp only [hj, hq, List.foldl_cons, List.foldl_nil, State.modDie_id, hend, List.isEmpty_nil, if_true]

theorem emptied_walks (s : State) (die : Nat) :
    ∃ ws, (s.modDie die (fun d => { d with walks := [], missq := [] })).Walks ws ∧ ws.getD die [] = [] := by
  refine ⟨_, rfl, ?_⟩
  have hdie := State.walks_of_die (s := s.modDie die (fun d => { d with walks := [], missq := [] })) rfl die
  rw [← hdie]
  rcases Nat.lt_or_ge die s.dies.length with hd | hd
  · rw [State.modDie_die _ _ hd, if_pos rfl]
  · rw [State.die, List.getD_eq_default _ _ (by simpa [State.modDie] using hd)]
    rfl

theorem walk_returns {s0 s1 : State} {die : Nat} {k : Walk} {x : Xl} (hk : (s.die die).walks = [k]) (hj : k.joined = [])
    (hq : (s.die die).missq = []) (h0 : s0 = s.modDie die (fun d => { d with walks := [], missq := [] }))
    (hget : s0.tlbGet (Machine.WalkReq.ctx k.req) k.req.va = none) (hdie : k.req.core / 81 % 4 = die)
    (hwalk : s0.walkNow (Machine.WalkReq.ctx k.req) k.req.va k.req.acc k.req.b = (s1, .ok x)) :
    ∃ t e, exec (.walkCompletion die) s = .next t ∧ (t.die die).walks = [] ∧ e ∈ (t.die die).tlb ∧ e.asrec = k.req.asrec
      ∧ e.page = k.req.va.num / pageSpan e.level ∧ adOk e.pte k.req.acc = true := by
  obtain ⟨ws, hws, hnone⟩ := emptied_walks s die
  have hend : State.endWalk die s0 k.req = s1 := by
    unfold State.endWalk
    rw [hget, hwalk]
    rfl
  have hs1 : s1.Walks ws := by
    have := State.walkNow_walks (c := Machine.WalkReq.ctx k.req) (va := k.req.va) (a := k.req.acc) (p := k.req.b) (h0 ▸ hws : s0.Walks ws)
    rwa [hwalk] at this
  have hempty : (s1.die die).walks = [] := (State.walks_of_die hs1 die).trans hnone
  obtain ⟨u, e, rfl, hasrec, hpage, had⟩ := walkNow_ok hwalk
  have hlen : die < u.dies.length := by
    have hlength := congrArg List.length (hs1.trans hws.symm)
    have hk := State.dies_length_of_walks hk
    rw [List.length_map, List.length_map, State.tlbPut_length, State.modDie, modNth_length] at hlength
    omega
  have hmem := mem_tlbPut (s := u) (c := Machine.WalkReq.ctx k.req) (e := e) (by rw [Ctx.die, Machine.WalkReq.ctx, hdie]; exact hlen)
  rw [Ctx.die, Machine.WalkReq.ctx, hdie] at hmem
  refine ⟨_, e, walkCompletion_alone hk hj hq (by rw [← h0, hend]; exact hempty), ?_⟩
  rw [← h0, hend]
  exact ⟨hempty, hmem, hasrec, hpage, had⟩

theorem walk_stops {s0 s1 : State} {die : Nat} {k : Walk} {e : Stop} (hk : (s.die die).walks = [k]) (hj : k.joined = [])
    (hq : (s.die die).missq = []) (h0 : s0 = s.modDie die (fun d => { d with walks := [], missq := [] }))
    (hget : s0.tlbGet (Machine.WalkReq.ctx k.req) k.req.va = none) (he : e ≠ .busy)
    (hwalk : s0.walkNow (Machine.WalkReq.ctx k.req) k.req.va k.req.acc k.req.b = (s1, .error e)) :
    exec (.walkCompletion die) s = .next (s1.modDie die (fun d => { d with walked := d.walked ++ [k.req] })) := by
  obtain ⟨ws, hws, hnone⟩ := emptied_walks s die
  have hend : State.endWalk die s0 k.req = s1.modDie die (fun d => { d with walked := d.walked ++ [k.req] }) := by
    unfold State.endWalk
    rw [hget, hwalk]
    cases e with
    | busy => exact absurd rfl he
    | trap t => rfl
    | recov p l va a => rfl
  have hs1 : s1.Walks ws := by
    have := State.walkNow_walks (c := Machine.WalkReq.ctx k.req) (va := k.req.va) (a := k.req.acc) (p := k.req.b) (h0 ▸ hws : s0.Walks ws)
    rwa [hwalk] at this
  have hempty := (State.walks_of_die (State.modDie_walks (f := fun d => { d with walked := d.walked ++ [k.req] }) (d := die) (fun _ => rfl) hs1)
    die).trans hnone
  rw [walkCompletion_alone hk hj hq (by rw [← h0, hend]; exact hempty), ← h0, hend]

/-! ### A fetched line (R157) -/

theorem keepLine_fetch {core : Nat} {b : ILine} {pc : Word} (hpc : b.vline = pc.num / 81) :
    (s.keepLine core b).fetch core b.asrec b.sys pc = some ((b.words.drop (pc.num % 81 / 3)).take (9 - pc.num % 27 / 3)) := by
  unfold State.fetch State.keepLine
  rw [State.modCore_core _ _ (s.core_num core)]
  dsimp only
  have hfound (l : List ILine) : ((l.filter (fun k => !(k.asrec == b.asrec && k.sys == b.sys && k.vline == b.vline)) ++ [b]).drop
      ((l.filter (fun k => !(k.asrec == b.asrec && k.sys == b.sys && k.vline == b.vline)) ++ [b]).length - 243)).find?
        (fun k => k.asrec == b.asrec && k.sys == b.sys && k.vline == pc.num / 81) = some b := by
    rw [List.drop_append_of_le_length (by simp), List.find?_append, List.find?_eq_none.mpr fun k hk => ?_]
    · simp [hpc]
    · have := (List.mem_filter.mp (List.mem_of_mem_drop hk)).2
      grind
  rw [hfound]
  rfl

/-- Settles O39: a miss is `Die.miss`; a walk that ends fills both TLBs or leaves its stop, and no walk of another die moves; a line that is
kept is the newest of its instruction cache. -/
theorem fetchSteps : Obligations.FetchSteps := by
  refine ⟨fun s die w hd => ?_, fun s s0 s1 die k hk hj hq h0 hget => ⟨fun x hdie hwalk => ?_, fun e he hwalk => ?_⟩,
    fun s s1 s2 core asrec block sys x l htr hread hp => ?_⟩
  · obtain ⟨t, hexec, hframe, hagenda, hdies⟩ := tlbMissWalk_misses s w hd
    refine ⟨t, hexec, hframe, hagenda, fun d hne => ?_, fun hany => ?_, fun hany => ?_⟩
    · rw [hdies, if_neg hne]
    · rw [hdies, if_pos rfl, Die.miss_joins hany]
    · rw [hdies, if_pos rfl, Die.miss_starts hany]
  · exact walk_returns hk hj hq h0 hget hdie hwalk
  · exact walk_stops hk hj hq h0 hget he hwalk
  · refine ⟨s2.keepLine core { asrec := asrec, sys := sys, vline := block / 3, words := l.w }, ?_, fun pc hpc => keepLine_fetch hpc.symm⟩
    have hexec : exec (.instructionFetchFill core asrec sys block) s = execInstructionFetchFill core asrec sys block s := rfl
    simp only [hexec, execInstructionFetchFill, htr, hread, hp]
    rfl

end Sys2Proof.Machine
end

section
/-! PROOFS. The fault list: posting, and what DONE does to what is parked (R86–R88). -/

namespace Sys2Proof.Machine

variable {s u : State}

/-! ### Posting (R86, R87) -/

/-- With one post of its space to be posted, the step posts that one. -/
theorem faultPostingResume_one {a : Nat} {p : FaultPost} (h : s.posts.filter (fun q => q.asrec == a && (q.entry.isNone || q.late)) = [p])
    (he : p.entry = none) {t : State} {q : FaultPost} (hpost : s.postEntry p = (t, q)) :
    exec (.faultPostingResume a) s = .next { t with posts := t.posts.map (fun x => if x = p then q else x) } := by
  have hexec : exec (.faultPostingResume a) s = execFaultPostingResume a s := rfl
  simp only [hexec, execFaultPostingResume, h, List.foldl_cons, List.foldl_nil, he, Option.isNone_none, if_true, hpost]

theorem post_asrec {a : Nat} {p : FaultPost} (h : s.posts.filter (fun q => q.asrec == a && (q.entry.isNone || q.late)) = [p]) :
    p.asrec = a := by
  have hp : p ∈ s.posts.filter (fun q => q.asrec == a && (q.entry.isNone || q.late)) := h ▸ List.mem_cons_self
  have := (List.mem_filter.mp hp).2
  simp_all

/-- A full list: the fault waits, and "fault list full" is raised where it has not been. -/
theorem postEntry_full {s1 : State} {p : FaultPost} {rec : Line} (hr : s.physRead (p.asrec / 81) = (s1, .ok rec)) (hf : p.told = false)
    (hfull : intAt rec.w 5 ≤ intAt rec.w 7 - intAt rec.w 6) : s.postEntry p =
      (s1.raise { Event.plain 15 (if p.core < 324 then p.core else 652) with kind := -1, addr := .ofInt p.asrec }, { p with told := true }) := by
  unfold State.postEntry
  rw [hr]
  dsimp only
  rw [if_pos (.inr (.inl hfull)), State.postWaits, hf]
  rfl

/-- A list with room: the next entry is written as the record gives it, and the walker holds its line shared. -/
theorem postEntry_room {s1 s2 s3 : State} {p : FaultPost} {rec : Line} {slot : Nat} (hr : s.physRead (p.asrec / 81) = (s1, .ok rec))
    (h5 : 0 < intAt rec.w 5) (h4 : 0 ≤ intAt rec.w 4) (hal : intAt rec.w 4 % 81 = 0) (hroom : intAt rec.w 7 - intAt rec.w 6 < intAt rec.w 5)
    (hslot : slot = (intAt rec.w 4 / 81 + intAt rec.w 7 % intAt rec.w 5).toNat) (hphys : s1.physWhy slot = none) (hT : s1.isB slot = false)
    (h2 : s1.homePut (81 * slot) ((List.range 27).zip ([.ofNum (2187 * p.page), wordAt rec.w 1, wordAt rec.w 3, .ofInt p.kind, .ofInt p.level,
      lowWord p.stamp, highWord p.stamp, .ofInt p.core, .ofInt p.cnt] ++ List.replicate 18 .zero)) = some s2)
    (h3 : s2.homePut p.asrec [(7, .ofInt (intAt rec.w 7 + 1))] = some s3) : s.postEntry p =
      (((s3.readShared (pageWalker (p.core / 81 % 4)) slot).map (·.1)).getD s3, { p with entry := some slot, late := false }) := by
  unfold State.postEntry
  rw [hr]
  dsimp only
  rw [if_neg (by omega), ← hslot, hphys]
  dsimp only
  rw [if_neg (by simp [hT]), h2]
  dsimp only
  rw [h3]

/-! ### DONE (R88) -/

theorem faultEntryDone_zero {e : Nat} (hu : s.sawLine e = u) (h0 : intAt (s.lineNow e).w 26 = 0) : exec (.faultEntryDone e) s =
    .next ((u.posts.filter (fun p => p.entry == some e)).foldl
      (fun s p => ((s.readShared (pageWalker (p.core / 81 % 4)) e).map (·.1)).getD s) u) := by
  have hexec : exec (.faultEntryDone e) s = execFaultEntryDone e s := rfl
  have hdone : (wordAt (s.lineNow e).w 26).val = 0 := h0
  simp only [hexec, execFaultEntryDone, hu, hdone, if_true]

/-- What becomes of the one thread that is parked on an entry. -/
theorem faultEntryDone_thread {e : Nat} {p : FaultPost} {r : TRef} (hu : s.sawLine e = u)
    (hp : u.posts.filter (fun p => p.entry == some e) = [p]) (hw : p.who = [.thread r]) (hd : intAt (s.lineNow e).w 26 ≠ 0) :
    exec (.faultEntryDone e) s = .next (if 0 < intAt (s.lineNow e).w 26
      then { u with posts := u.posts.filter (fun p => p.entry != some e) }.wakeParked (.thread r)
      else { u with posts := u.posts.filter (fun p => p.entry != some e) }.failParked p.kind p.page (.thread r)) := by
  have hexec : exec (.faultEntryDone e) s = execFaultEntryDone e s := rfl
  have hdone : (wordAt (s.lineNow e).w 26).val = intAt (s.lineNow e).w 26 := rfl
  simp only [hexec, execFaultEntryDone, hu, hdone, if_neg hd, hp, List.foldl_cons, List.foldl_nil, hw]

theorem wakeParked_thread {r : TRef} {th : Thread} (hth : s.thread? r = some th) (hrun : th.run = .parked) :
    (s.wakeParked (.thread r)).thread? r = some { th with run := .ready } := by
  unfold State.wakeParked
  rw [thread?_modThread, if_pos rfl, hth, Option.map_some, if_pos hrun]

/-- The trap of one thread is one event of its team. -/
theorem raiseTraps_one (s : State) (r : TRef) (cause : Nat) (detail : Int) (addr pc : Word) (words : List Word) :
    s.raiseTraps [(r, Trap.of cause detail addr)] pc words = s.queueTrap r.team
      { cause := cause, detail := detail, squad := r.squad, lanes := [r.lane], stamp := s.stampOf (s.partOf r.team), pc := pc, instr := words,
        aux := .zero, faults := [(r.lane, addr)] } := by
  have hkeys : trapKeys [(r, Trap.of cause detail addr)] = [(r.team, r.squad, cause, detail)] := rfl
  unfold State.raiseTraps
  rw [hkeys]
  simp [Trap.of, distinct]

theorem team_of_thread {r : TRef} {th : Thread} (h : s.thread? r = some th) : ∃ tm, s.team? r.team = some tm := by
  unfold State.thread? State.squad? at h
  cases htm : s.team? r.team with
  | none => simp [htm] at h
  | some tm => exact ⟨tm, rfl⟩

theorem queueTrap_posts (s : State) (n : Nat) (e : TrapEv) : (s.queueTrap n e).posts = s.posts := by
  have hrest := congrArg State.posts (queueTrap_rest s n e [] [])
  exact hrest

theorem failParked_thread {kind : Int} {page : Nat} {r : TRef} {th : Thread} (hth : s.thread? r = some th) (hrun : th.run = .parked) :
    (s.failParked kind page (.thread r)).thread? r = some { th with run := .trapped, fault := th.fault }
    ∧ (s.failParked kind page (.thread r)).posts = s.posts
    ∧ ∃ tm, (s.failParked kind page (.thread r)).team? r.team = some tm
      ∧ ∃ v ∈ tm.events, v.cause = 6 ∧ v.detail = kind ∧ v.faults = [(r.lane, th.fault)] ∧ v.pc = th.pc := by
  have hfail : s.failParked kind page (.thread r) = s.raiseTraps [(r, Trap.of 6 kind th.fault)] th.pc th.instr := by
    simp only [State.failParked, hth, hrun, if_true]
  obtain ⟨tm, htm⟩ := team_of_thread hth
  rw [hfail, raiseTraps_one]
  refine ⟨?_, ?_, ?_⟩
  · rw [queueTrap_thread?, if_pos ⟨rfl, rfl⟩, hth]
    simp [trapThread, assocGet]
  · exact queueTrap_posts _ _ _
  · obtain ⟨tm', htm', -, hev⟩ := queueTrap_team? s r.team _ r.team tm htm
    rw [if_pos rfl] at hev
    exact ⟨tm', htm', _, hev ▸ (mem_insertBy _ _ _ _).mpr (.inl rfl), rfl, rfl, rfl, rfl⟩

/-- Settles O40: a fault that waits is posted or waits on, and the one thread parked on an entry goes on or takes the trap of cause 6. -/
theorem faultListSteps : Obligations.FaultListSteps := by
  refine ⟨fun s s1 a p rec hf he hr h5 h4 hal => ⟨fun hfull htold s2 hs2 => ?_, fun hroom slot s2 s3 s4 hslot hphys hT h2 h3 h4' => ?_⟩,
    fun s u e p r th hu hp hw hth hrun => ⟨fun hd => ?_, fun hd => ?_⟩, fun s u e hu h0 => ⟨fun hnone => ?_, fun p hp => ?_⟩⟩
  · obtain rfl := post_asrec hf
    rw [faultPostingResume_one hf he (postEntry_full hr htold hfull), hs2]
  · obtain rfl := post_asrec hf
    rw [faultPostingResume_one hf he (postEntry_room hr h5 h4 hal hroom hslot hphys hT h2 h3), h4']
  · refine ⟨_, (faultEntryDone_thread hu hp hw (by omega)).trans (by rw [if_pos hd]), ?_, rfl⟩
    exact wakeParked_thread (s := { u with posts := u.posts.filter (fun p => p.entry != some e) }) hth hrun
  · obtain ⟨hthread, hposts, hevent⟩ :=
      failParked_thread (s := { u with posts := u.posts.filter (fun p => p.entry != some e) }) (kind := p.kind) (page := p.page) hth hrun
    exact ⟨_, (faultEntryDone_thread hu hp hw (by omega)).trans (by rw [if_neg (by omega)]), hthread, hposts, hevent⟩
  · rw [faultEntryDone_zero hu h0, hnone]
    rfl
  · rw [faultEntryDone_zero hu h0, hp]
    rfl

end Sys2Proof.Machine
end

section
/-! PROOFS. Shootdowns: what they take out of the caches, and their completion (R83, R93, R378, R379). -/

namespace Sys2Proof.Machine

variable {s t : State}

/-! ### The start (R83) -/

/-- What a shootdown keeps of a core's caches. -/
def Core.shot (hits : Nat → Nat → Nat → Bool) (c : Core) : Core :=
  { c with tlb := c.tlb.filter (fun e => !hits e.asrec (e.page * pageSpan e.level) (pageSpan e.level)),
           icache := c.icache.filter (fun b => !hits b.asrec (81 * b.vline) 81) }

/-- What a shootdown keeps of a die's caches. -/
def Die.shot (hits : Nat → Nat → Nat → Bool) (d : Die) : Die :=
  { d with tlb := d.tlb.filter (fun e => !hits e.asrec (e.page * pageSpan e.level) (pageSpan e.level)),
           wcache := d.wcache.filter (fun e => !hits e.asrec (e.page * pageSpan e.level) (pageSpan e.level)) }

/-- The escrow entries of a space that a shootdown names become stale. -/
def staleOf (hits : Nat → Nat → Nat → Bool) (rec : Nat) (l : List ELine) : List ELine :=
  staleLines (fun lo => hits rec ((Word.ofNum lo).num / 81 * 81) 81) l

/-- The record of a grid's space; 0 where there is no such grid. -/
def State.recordOf (s : State) (g : Nat) : Nat := match s.grid? g with | some x => (intAt x.node 21).toNat | none => 0

/-- The caches, the pins and the escrow that a shootdown leaves, over the state in which the generations have risen. -/
theorem startShoot_leaves {asrec id : Nat} {kind : Int} {page : Word} {w : Option TRef} (h : s.startShoot asrec kind page w = some (t, id))
    {hits : Nat → Nat → Nat → Bool} (hh : hits = shootHits (s.shootSpaces asrec kind) kind page) : ∃ u : State,
    t.cores = u.cores.map (Core.shot hits) ∧ t.dies = u.dies.map (Die.shot hits)
    ∧ t.vlines = u.vlines.map (fun v => { v with pin := v.pin.filter (fun p => !hits p.1 (81 * p.2) 81) })
    ∧ (∀ x ∈ t.teams, ∃ y ∈ u.teams, x.grid = y.grid ∧ x.body.escrow = staleOf hits (u.recordOf y.grid) y.body.escrow)
    ∧ ∀ g x, t.grid? g = some x → u.recordOf g = (intAt x.node 21).toNat := by
  obtain ⟨u, -, hu⟩ := Option.map_eq_some_iff.mp h
  cases hu
  subst hh
  refine ⟨u, rfl, rfl, rfl, fun x hx => ?_, fun g x hx => ?_⟩
  · obtain ⟨y, hy, rfl⟩ := List.mem_map.mp hx
    refine ⟨y, hy, rfl, ?_⟩
    simp only [staleOf, List.any_cons, List.any_nil, Bool.or_false]
    rfl
  · unfold State.grid? at hx
    dsimp only at hx
    rw [List.find?_map] at hx
    obtain ⟨y, hy, rfl⟩ := Option.map_eq_some_iff.mp hx
    have hgrid : u.grid? g = some y := hy
    simp [State.recordOf, hgrid]

/-- The number of a line's address wraps with the line. -/
theorem num_ofNum_line (n : Nat) : (Word.ofNum (81 * n)).num / 81 * 81 = 81 * (n % 94143178827) := by
  simp only [Word.ofNum, Word.num, Fin.ofNat]
  omega

theorem staleOf_stale {hits : Nat → Nat → Nat → Bool} {rec : Nat} {l : List ELine} {e : ELine} (he : e ∈ staleOf hits rec l)
    (hhit : hits rec (81 * (e.vline % 94143178827)) 81 = true) : ∀ u ∈ e.words, u.stale = true := by
  obtain ⟨d, -, rfl⟩ := List.mem_map.mp he
  have hvline : (if hits rec ((Word.ofNum (81 * d.vline)).num / 81 * 81) 81 then
      { d with words := d.words.map (fun w => { w with stale := true }) } else d).vline = d.vline := by split <;> rfl
  rw [hvline, ← num_ofNum_line] at hhit
  rw [if_pos hhit]
  intro u hu
  obtain ⟨v, -, rfl⟩ := List.mem_map.mp hu
  rfl

/-! ### The completion (R83, R378, R379) -/

theorem endShootWait_eq (s : State) (id : Nat) (r : TRef) : s.endShootWait id r =
    (((s.threadsOf r.team).filter (fun p => p.2.run = .shoot id)).foldl (fun s p => s.release p.1) s).modHandler r.team
      (fun h => if h.run = .shoot id then { h with run := .ready, pc := h.pc.add 6 } else h) := by
  rw [List.foldl_filter]
  simp only [State.endShootWait, decide_eq_true_eq]

/-- The threads of the team that wait for the shootdown go on, and no other changes. -/
theorem endShootWait_threads {id : Nat} {r u : TRef} {th : Thread} (hu : u.team = r.team) (hth : s.thread? u = some th) :
    ∃ th', (s.endShootWait id r).thread? u = some th' ∧ if th.run = .shoot id then GoesOn th th' else th' = th := by
  rw [endShootWait_eq, thread?_modHandler]
  by_cases hrun : th.run = .shoot id
  · obtain ⟨th', hth', hgone, -⟩ := thread?_foldl_release_mem ((s.threadsOf r.team).filter (fun p => p.2.run = .shoot id)) hth
      ⟨(u, th), List.mem_filter.mpr ⟨(mem_threadsOf s _ _).mpr ⟨hu, hth⟩, by simpa using hrun⟩, rfl⟩
    exact ⟨th', hth', by rwa [if_pos hrun]⟩
  · refine ⟨th, (thread?_foldl_release_other _ s fun p hp hpu => hrun ?_).trans hth, by rw [if_neg hrun]⟩
    obtain ⟨hp, hprun⟩ := List.mem_filter.mp hp
    obtain ⟨-, hpth⟩ := (mem_threadsOf s _ p).mp hp
    subst hpu
    rw [hth, Option.some.injEq] at hpth
    exact hpth ▸ (by simpa using hprun)

theorem endShootWait_shoots (s : State) (id : Nat) (r : TRef) : (s.endShootWait id r).shoots = s.shoots := by
  rw [endShootWait_eq]
  exact foldl_keeps State.shoots _ (fun s p => by unfold State.release; split <;> rfl) _ s

theorem shootdownComplete_waits {id : Nat} {x : Shoot} (hx : s.shoots.find? (fun x => x.id == id) = some x) (hw : s.shootWaits x = true) :
    exec (.shootdownComplete id) s = .next s := by
  simp only [exec, execShootdownComplete, hx, hw, if_true]

theorem shootdownComplete_thread {id : Nat} {x : Shoot} {r : TRef} (hx : s.shoots.find? (fun x => x.id == id) = some x)
    (hw : s.shootWaits x = false) (hby : x.by_ = some r) :
    exec (.shootdownComplete id) s = .next ({ s with shoots := s.shoots.filter (fun y => y.id != id) }.endShootWait id r) := by
  simp only [exec, execShootdownComplete, hx, hw, hby, Bool.false_eq_true, if_false]

theorem State.cwInt_setCwInt (s : State) (k j : Nat) {x : Int} (hx : -3812798742493 ≤ x ∧ x ≤ 3812798742493) :
    (s.setCwInt k x).cwInt j = if j = k then x else s.cwInt j := by
  unfold State.cwInt
  rw [cw_setCwInt]
  split
  · rw [Word.val_ofInt]
    omega
  · rfl

/-- A shootdown through SDOP reports its completion in the control words. -/
theorem shootdownComplete_sdop {id : Nat} {x : Shoot} (hx : s.shoots.find? (fun x => x.id == id) = some x) (hw : s.shootWaits x = false)
    (hby : x.by_ = none) : ∃ t, exec (.shootdownComplete id) s = .next t ∧ t.shoots = s.shoots.filter (fun y => y.id != id)
      ∧ t.cwInt 822 = 0 ∧ t.cwInt 823 = 1 ∧ t.irqs = s.irqs ++ (if 0 ≤ s.cwInt 824 then [(s.cwInt 824).toNat] else []) := by
  simp only [exec, execShootdownComplete, hx, hw, hby, Bool.false_eq_true, if_false]
  generalize hu : ({ s with shoots := s.shoots.filter (fun y => y.id != id) }.setCwInt 822 0).setCwInt 823 1 = u
  have hcw (k : Nat) : u.cwInt k = if k = 823 then 1 else if k = 822 then 0 else s.cwInt k := by
    rw [← hu, State.cwInt_setCwInt _ _ _ (by decide), State.cwInt_setCwInt _ _ _ (by decide)]
    rfl
  have hirqs : u.irqs = s.irqs := by rw [← hu]; rfl
  refine ⟨_, rfl, ?_, ?_, ?_, ?_⟩
  · rw [← hu]
    split <;> rfl
  · rw [show (if 0 ≤ u.cwInt 824 then { u with irqs := u.irqs ++ [(u.cwInt 824).toNat] } else u).cwInt 822 = u.cwInt 822 by split <;> rfl, hcw]
    rfl
  · rw [show (if 0 ≤ u.cwInt 824 then { u with irqs := u.irqs ++ [(u.cwInt 824).toNat] } else u).cwInt 823 = u.cwInt 823 by split <;> rfl, hcw]
    rfl
  · rw [hcw 824, ← hirqs]
    simp only [show (824 : Nat) ≠ 823 by decide, show (824 : Nat) ≠ 822 by decide, if_false]
    split <;> simp

/-! ### SDOP (R378) -/

/-- The write of an operation to SDOP, whichever of the three it is. -/
theorem sdop_eq (hready : s.ready = true) {p : Instr × Int} (hp : p ∈ [(Instr.sdopPage, (1 : Int)), (.sdopSpace, 2), (.sdopEverySpace, 3)]) :
    exec p.1 s = .next (s.sdopWrite p.2) := by
  simp only [List.mem_cons, List.not_mem_nil, or_false] at hp
  obtain rfl | rfl | rfl := hp
  · simp only [exec, execSdopPage, whenReady_of_ready hready]
  · simp only [exec, execSdopSpace, whenReady_of_ready hready]
  · simp only [exec, execSdopEverySpace, whenReady_of_ready hready]

theorem sdopWrite_starts {k : Int} (h : s.cwInt 822 = 0 ∨ (s.cwInt 822 = k ∧ ∀ x ∈ s.shoots, x.by_ ≠ none)) :
    s.sdopWrite k = (s.setCwInt 822 k).sdopStart k := by
  refine if_pos (h.imp_right fun ⟨hk, hby⟩ => ⟨hk, ?_⟩)
  simpa [Option.ne_none_iff_isSome] using hby

theorem sdopWrite_ignored {k : Int} (h0 : s.cwInt 822 ≠ 0) (h : s.cwInt 822 ≠ k ∨ ∃ x ∈ s.shoots, x.by_ = none) : s.sdopWrite k = s := by
  refine if_neg ?_
  rintro (h1 | ⟨hk, hby⟩)
  · exact h0 h1
  · rcases h with h | ⟨x, hx, hxby⟩
    · exact h hk
    · simp at hby
      simpa [hxby] using hby x hx

theorem sdopStart_refused {k : Int} (h : s.recordOk (s.cwInt 820) = false) : s.sdopStart k = (s.setCwInt 823 (-1)).setCwInt 822 0 := by
  simp [State.sdopStart, h]

theorem sdopStart_starts {k : Int} {id : Nat} (h : s.recordOk (s.cwInt 820) = true)
    (hs : s.startShoot (s.cwInt 820).toNat k (s.cw 821) none = some (t, id)) : s.sdopStart k = t := by
  simp [State.sdopStart, h, hs]

theorem cwInt_setSdop (k : Int) : (s.setCwInt 822 k).cwInt 820 = s.cwInt 820 := by
  unfold State.cwInt
  rw [cw_setCwInt, if_neg (by decide)]

theorem recordOk_setSdop (k : Int) : (s.setCwInt 822 k).recordOk ((s.setCwInt 822 k).cwInt 820) = s.recordOk (s.cwInt 820) := by
  rw [cwInt_setSdop]
  rfl

/-- Settles O41: what stays in the caches is what the shootdown does not name, and what waits for its end goes on. -/
theorem shootdownSteps : Obligations.ShootdownSteps := by
  refine ⟨fun s t asrec id kind page w h => ⟨by simp only [exec, execShootdown, h], ?_⟩,
    fun s asrec kind page w h => by simp only [exec, execShootdown, h],
    fun s id x hx => ⟨shootdownComplete_waits hx, fun hw => ?_⟩, fun s hready p hp => ⟨fun hidle => ⟨fun hbad => ?_, fun hok t id hstart => ?_⟩,
      fun h0 hbusy => by rw [sdop_eq hready hp, sdopWrite_ignored h0 hbusy]⟩⟩
  · obtain ⟨u, hcores, hdies, hvlines, hteams, hgrids⟩ := startShoot_leaves h rfl
    refine ⟨fun c hc => ?_, fun d hd => ?_, fun v hv p hp => ?_, fun x hx g hg e he hhit => ?_⟩
    · rw [hcores] at hc
      obtain ⟨c, -, rfl⟩ := List.mem_map.mp hc
      exact ⟨fun e he => by simpa using (List.mem_filter.mp he).2, fun b hb => by simpa using (List.mem_filter.mp hb).2⟩
    · rw [hdies] at hd
      obtain ⟨d, -, rfl⟩ := List.mem_map.mp hd
      exact ⟨fun e he => by simpa using (List.mem_filter.mp he).2, fun b hb => by simpa using (List.mem_filter.mp hb).2⟩
    · rw [hvlines] at hv
      obtain ⟨v, -, rfl⟩ := List.mem_map.mp hv
      simpa using (Option.filter_eq_some_iff.mp hp).2
    · obtain ⟨y, -, hgrid, hescrow⟩ := hteams x hx
      have hrec := hgrids x.grid g hg
      rw [hescrow, ← hgrid, hrec] at he
      exact staleOf_stale he hhit
  · cases hby : x.by_ with
    | none =>
      obtain ⟨t, hexec, hshoots, hwords⟩ := shootdownComplete_sdop hx hw hby
      exact ⟨t, hexec, hshoots, fun _ => hwords, by simp⟩
    | some r =>
      refine ⟨_, shootdownComplete_thread hx hw hby, endShootWait_shoots _ _ _, by simp, fun r' hr' u th hu hth => ?_⟩
      cases hr'
      exact endShootWait_threads (s := { s with shoots := s.shoots.filter (fun y => y.id != id) }) hu hth
  · refine ⟨_, by rw [sdop_eq hready hp, sdopWrite_starts hidle, sdopStart_refused (by rw [recordOk_setSdop, hbad])], ?_, ?_⟩
    · rw [State.cwInt_setCwInt _ _ _ (by decide), if_pos rfl]
    · rw [State.cwInt_setCwInt _ _ _ (by decide), if_neg (by decide), State.cwInt_setCwInt _ _ _ (by decide), if_pos rfl]
  · rw [sdop_eq hready hp, sdopWrite_starts hidle, sdopStart_starts (by rw [recordOk_setSdop, hok])]
    rw [cwInt_setSdop, cw_setCwInt, if_neg (by decide)]
    exact hstart

end Sys2Proof.Machine
end

section
/-! PROOFS. What the home of a line does with a request (R92, R98–R101, R320). -/

namespace Sys2Proof.Machine

variable {s : State} {v : VLine} {x : Txn}

/-! ### The end of a transaction (R99) -/

/-- The line as the check finds it, its transaction closed. -/
theorem checked (s : State) (x : Txn) (ht : v.txn = none) (hs : health v.flips (s.isB v.slot && badGroup v.line) = .sound) :
    (s.putVl { v with txn := some x }).checkVl { v with txn := some x } = (s.putVl { v with txn := some x }, { v with txn := some x })
    ∧ { ({ v with txn := some x } : VLine) with txn := none } = v
    ∧ (s.putVl { v with txn := some x }).putVl v = s.putVl v :=
  ⟨checkVl_sound hs, by rw [← ht], putVl_putVl _ _ _ rfl⟩

theorem finishTxn_rds {a : Nat} {b : Bool} (ht : v.txn = none) (hs : health v.flips (s.isB v.slot && badGroup v.line) = .sound)
    (hx : x.req = .rds a b) :
    (s.putVl { v with txn := some x }).finishTxn { v with txn := some x } x = (s.putVl v).endRds a v x.supplied := by
  obtain ⟨hcheck, hopen, hput⟩ := checked s x ht hs
  simp only [State.finishTxn, hcheck, hopen, hx, hput]

theorem finishTxn_rdx {a : Nat} {b : Bool} {op : HwOp} (ht : v.txn = none) (hs : health v.flips (s.isB v.slot && badGroup v.line) = .sound)
    (hx : x.req = .rdx a b op ∨ x.req = .upg a b op) :
    (s.putVl { v with txn := some x }).finishTxn { v with txn := some x } x = (s.putVl v).endRdx a v op := by
  obtain ⟨hcheck, hopen, hput⟩ := checked s x ht hs
  rcases hx with hx | hx <;> simp only [State.finishTxn, hcheck, hopen, hx, hput]

theorem mergeAt_putVl (u : VLine) (hu : u.slot = v.slot) (l : Line) (f : Line → Line) (e : Option Bool) :
    (s.putVl u).mergeAt v l f e = s.mergeAt v l f e := by
  unfold State.mergeAt
  rw [putVl_putVl _ _ _ (by exact hu.symm)]

theorem finishTxn_hw {r : HwReq} (ht : v.txn = none) (hs : health v.flips (s.isB v.slot && badGroup v.line) = .sound) (hx : x.req = .hw r) :
    (s.putVl { v with txn := some x }).finishTxn { v with txn := some x } x =
      some ((s.mergeAt v v.line (applyHw r.op) r.elig).1.ackHw r.src (s.mergeAt v v.line (applyHw r.op) r.elig).2) := by
  obtain ⟨hcheck, hopen, -⟩ := checked s x ht hs
  have hmerge := mergeAt_putVl (s := s) (v := v) { v with txn := some x } rfl v.line (applyHw r.op) r.elig
  simp only [State.finishTxn, hcheck, hopen, hx, hmerge]

theorem finishTxn_hr {r : HrReq} (ht : v.txn = none) (hs : health v.flips (s.isB v.slot && badGroup v.line) = .sound) (hx : x.req = .hr r) :
    (s.putVl { v with txn := some x }).finishTxn { v with txn := some x } x = some ((s.putVl v).ackHr r.src v.slot v.line) := by
  obtain ⟨hcheck, hopen, hput⟩ := checked s x ht hs
  simp only [State.finishTxn, hcheck, hopen, hx, hput]

/-! ### A line at rest -/

/-- The line of a slot at its home, at rest: sound, unleased, with no request before the next. -/
structure AtRest (s : State) (slot : Nat) (v : VLine) : Prop where
  here : s.vl slot = some v
  sound : health v.flips (s.isB slot && badGroup v.line) = .sound
  nofill : ∀ p ∈ s.fillq, p.1 ≠ slot
  unleased : v.leased = false
  notxn : v.txn = none
  noqueue : v.queue = []

theorem AtRest.slot_eq {slot : Nat} (h : AtRest s slot v) : v.slot = slot := vl_slot h.here

theorem AtRest.sound' {slot : Nat} (h : AtRest s slot v) : health v.flips (s.isB v.slot && badGroup v.line) = .sound :=
  h.slot_eq ▸ h.sound

/-- A request at a line at rest that no agent holds ends at once. -/
theorem AtRest.serve_I {slot : Nat} {p : Option (Nat × Nat)} {req : Req} {s' : State} {u : VLine} (h : AtRest s slot v)
    (hr : s.refusal slot req = none) (hi : v.st = .I)
    (hfin : ∀ x : Txn, x = { req := req, await := [], awaitDies := [], supplied := false } →
      (s.putVl { v with txn := some x }).finishTxn { v with txn := some x } x = some s')
    (hu : s'.vl slot = some u) (hut : u.txn = none) (huq : u.queue = []) : s.serve slot p req = s' :=
  Machine.serve_I h.here h.sound h.nofill hr h.notxn h.unleased h.noqueue hi hfin hu hut huq

/-- An agent's request is served where it is not a host chiplet's to a frame that is being reset. -/
theorem askHome_serves {a slot : Nat} {pin : Option (Nat × Nat)} {req : Req} (hh : a = 324 ∨ a = 325 → s.inReset slot = false) :
    s.askHome a slot pin req = .next (s.serve slot pin req) := by
  unfold State.askHome
  rw [if_neg]
  rintro ⟨ha, hr⟩
  rw [hh ha] at hr
  cases hr

theorem askHome_refused {a slot : Nat} {pin : Option (Nat × Nat)} {req : Req} (ha : a = 324 ∨ a = 325) (hr : s.inReset slot = true) :
    s.askHome a slot pin req = .next (s.hostError a (81 * slot) true) := by
  unfold State.askHome
  rw [if_pos ⟨ha, hr⟩]

/-! ### Requests of agents (R99) -/

/-- The copy that an agent gains. -/
def gained (a slot : Nat) (st : LSt) (l : Line) : Copy :=
  { agent := a, slot := slot, st := st, line := l, leased := false, probes := [], back := false, flips := [] }

theorem endRds_I {a : Nat} {sup : Bool} {s1 : State} (hi : v.st = .I) (hc : s.copy a v.slot = none) (h1 : s.roomCopy a v.slot = some s1) :
    s.endRds a v sup = some ((s1.putCopy (gained a v.slot .E v.line)).putVl
      { v with st := .E, owner := a, sharers := distinct (v.sharers ++ (if agentDie a = homeDie v.slot then [a] else [])),
               remote := v.remote || agentDie a != homeDie v.slot }) := by
  have hfar : (if agentDie a != homeDie v.slot then [] else [a]) = if agentDie a = homeDie v.slot then [a] else [] := by
    by_cases hd : agentDie a = homeDie v.slot <;> simp [hd]
  unfold State.endRds
  rw [if_neg (by simp [hc]), h1, Option.map_some]
  simp only [hi, hfar, gained, if_true, reduceCtorEq, false_and, if_false, List.append_nil]

/-- RdS of a line that no agent holds gives it exclusive. -/
theorem serve_rds_I {slot a : Nat} {byte : Bool} {pin : Option (Nat × Nat)} {s1 : State} (h : AtRest s slot v)
    (hr : s.refusal slot (.rds a byte) = none) (hi : v.st = .I) (hc : s.copy a slot = none) (h1 : (s.putVl v).roomCopy a slot = some s1) :
    s.serve slot pin (.rds a byte) = (s1.putCopy (gained a slot .E v.line)).putVl
      { v with st := .E, owner := a, sharers := distinct (v.sharers ++ (if agentDie a = homeDie slot then [a] else [])),
               remote := v.remote || agentDie a != homeDie slot } := by
  obtain rfl := h.slot_eq
  refine h.serve_I hr hi (fun x hx => ?_) (by rw [vl_putVl, if_pos rfl]) (by exact h.notxn) (by exact h.noqueue)
  rw [finishTxn_rds h.notxn h.sound (by rw [hx]), endRds_I (s := s.putVl v) hi hc h1]

/-- What the end of RdX and Upg leaves of the agent's copy and of the slice's line. -/
theorem endRdx_leaves {a : Nat} {op : HwOp} {t : State} (h : s.endRdx a v op = some t) : ∃ s1 c,
    (c = (s.copy a v.slot).getD (gained a v.slot .M v.line) ∧ (if (s.copy a v.slot).isSome then some s else s.roomCopy a v.slot) = some s1)
    ∧ t.copies = (s1.putCopy { c with st := .M, line := applyHw op c.line, leased := c.leased || s1.leaseWaits a v.slot, back := false }).copies
    ∧ t.hbm = s1.hbm
    ∧ (t.vl v.slot).map (fun u => (u.st, u.owner, u.line, u.txn, u.queue)) = some (.M, a, v.line, v.txn, v.queue) := by
  unfold State.endRdx at h
  obtain ⟨s1, h1, rfl⟩ := Option.map_eq_some_iff.mp h
  refine ⟨s1, _, ⟨rfl, h1⟩, ?_, ?_, ?_⟩
  · dsimp only
    split <;> rfl
  · dsimp only
    split <;> rfl
  · dsimp only
    split
    · rw [vl_putVl, if_pos rfl]
      rfl
    · rw [State.noteWrite_vl, vl_putVl, if_pos rfl]
      rfl

/-- RdX of a line that no agent holds makes the requester its owner. -/
theorem serve_rdx_I {slot a : Nat} {b : Bool} {op : HwOp} {pin : Option (Nat × Nat)} {s1 : State} (h : AtRest s slot v)
    (hr : s.refusal slot (.rdx a b op) = none) (hi : v.st = .I) (hc : s.copy a slot = none) (h1 : (s.putVl v).roomCopy a slot = some s1) :
    (s.serve slot pin (.rdx a b op)).copy a slot =
      some { gained a slot .M (applyHw op v.line) with leased := s1.leaseWaits a slot }
    ∧ ((s.serve slot pin (.rdx a b op)).vl slot).map (fun u => (u.st, u.owner, u.line)) = some (.M, a, v.line) := by
  obtain rfl := h.slot_eq
  have hcopy : (s.putVl v).copy a v.slot = none := hc
  obtain ⟨t, ht⟩ : ∃ t, (s.putVl v).endRdx a v op = some t := by
    unfold State.endRdx
    rw [hcopy, h1]
    exact ⟨_, rfl⟩
  obtain ⟨s2, c, ⟨hown, hroom⟩, hcopies, -, hvl⟩ := endRdx_leaves ht
  rw [hcopy] at hown hroom
  obtain rfl : s1 = s2 := Option.some.inj (h1.symm.trans hroom)
  obtain ⟨u, hu, hfields⟩ := Option.map_eq_some_iff.mp hvl
  simp only [Prod.mk.injEq] at hfields
  obtain ⟨hst, howner, hline, htxn, hqueue⟩ := hfields
  have hserve : s.serve v.slot pin (.rdx a b op) = t := h.serve_I hr hi
    (fun x hx => by rw [finishTxn_rdx h.notxn h.sound (.inl (by rw [hx])), ht]) hu (htxn.trans h.notxn) (hqueue.trans h.noqueue)
  rw [hserve, hu, copy_of_copies hcopies, copy_putCopy]
  subst hown
  exact ⟨by simp [gained], by simp [hst, howner, hline]⟩

/-- RdS of a line that another agent owns snoops the owner. -/
theorem serve_rds_M {slot a : Nat} {byte : Bool} {pin : Option (Nat × Nat)} (h : AtRest s slot v) (hr : s.refusal slot (.rds a byte) = none)
    (hst : v.st = .M) (hown : v.owner ≠ a) (hc : ∀ c, s.copy a slot = some c → c.st ≠ .M ∧ c.st ≠ .E) : s.serve slot pin (.rds a byte) =
      (s.putVl { v with txn := some { req := .rds a byte, await := [v.owner], awaitDies := [], supplied := false } }).later
        [.snoopShr v.owner slot] := by
  obtain rfl := h.slot_eq
  have hheld : (s.copy a v.slot).any (fun c => c.st == .M || c.st == .E) = false := by
    cases hcopy : s.copy a v.slot with
    | none => rfl
    | some c =>
      obtain ⟨hM, hE⟩ := hc c hcopy
      simp [hM, hE]
  have hopen : (s.putVl { v with queue := [.rds a byte] }).openTxn v (.rds a byte) =
      (s.putVl { v with txn := some { req := .rds a byte, await := [v.owner], awaitDies := [], supplied := false } }).later
        [.snoopShr v.owner v.slot] := by
    unfold State.openTxn
    rw [refusal_putVl, hr]
    simp [Req.agent, hheld, hst, snoopOf, hown, putVl_putVl, Snoop.step]
  rw [serve_opens h.here h.sound h.nofill hr h.notxn h.unleased h.noqueue, hopen]
  unfold State.advance
  simp [vl_putVl]

/-- The upgrade of the only sharer snoops nobody. -/
theorem openTxn_sole {u : VLine} {a : Nat} {b : Bool} {op : HwOp} {c : Copy} (hu : u.slot = v.slot)
    (hr : s.refusal v.slot (.upg a b op) = none) (hst : v.st = .S) (hrem : v.remote = false) (hsh : ∀ b ∈ v.sharers, b = a)
    (hc : s.copy a v.slot = some c) (hcst : c.st = .S) : (s.putVl u).openTxn v (.upg a b op) =
      s.putVl { v with txn := some { req := .upg a b op, await := [], awaitDies := [], supplied := false } } := by
  have htargets : (distinct v.sharers).filter (fun b => some b != some a) = [] := by
    rw [List.filter_eq_nil_iff]
    intro b hb
    simp [hsh b (mem_of_distinct _ hb)]
  unfold State.openTxn
  rw [refusal_putVl, hr]
  simp [Req.agent, hc, hcst, hst, snoopOf, hrem, htargets, later_nil, putVl_putVl, hu]

/-- Upg of the only sharer of a line makes it the owner. -/
theorem serve_upg_S {slot a : Nat} {b : Bool} {op : HwOp} {pin : Option (Nat × Nat)} {c : Copy} (h : AtRest s slot v)
    (hr : s.refusal slot (.upg a b op) = none) (hst : v.st = .S) (hrem : v.remote = false) (hsh : ∀ b ∈ v.sharers, b = a)
    (hc : s.copy a slot = some c) (hcst : c.st = .S) :
    (s.serve slot pin (.upg a b op)).hbm = s.hbm
    ∧ (s.serve slot pin (.upg a b op)).copy a slot =
      some { c with st := .M, line := applyHw op c.line, leased := c.leased || s.leaseWaits a slot, back := false }
    ∧ ((s.serve slot pin (.upg a b op)).vl slot).map (fun u => (u.st, u.owner)) = some (.M, a) := by
  obtain rfl := h.slot_eq
  have hcopy : (s.putVl v).copy a v.slot = some c := hc
  obtain ⟨t, ht⟩ : ∃ t, (s.putVl v).endRdx a v op = some t := by
    unfold State.endRdx
    rw [hcopy]
    exact ⟨_, rfl⟩
  obtain ⟨s2, d, ⟨hown, hroom⟩, hcopies, hhbm, hvl⟩ := endRdx_leaves ht
  rw [hcopy] at hown hroom
  obtain rfl : s.putVl v = s2 := Option.some.inj hroom
  obtain ⟨u, hu, hfields⟩ := Option.map_eq_some_iff.mp hvl
  simp only [Prod.mk.injEq] at hfields
  obtain ⟨hust, howner, hline, htxn, hqueue⟩ := hfields
  have hserve : s.serve v.slot pin (.upg a b op) = t := by
    rw [serve_opens h.here h.sound h.nofill hr h.notxn h.unleased h.noqueue,
      openTxn_sole (v := v) (u := { v with queue := [.upg a b op] }) rfl hr hst hrem hsh hc hcst]
    exact advance_ends 2 s t { v with txn := some _ } u _ rfl rfl rfl
      ((finishTxn_rdx h.notxn h.sound (.inr rfl)).trans ht) hu (htxn.trans h.notxn) (hqueue.trans h.noqueue)
  rw [hserve, hu, copy_of_copies hcopies, copy_putCopy, hhbm]
  obtain ⟨hagent, hslot⟩ := copy_id hc
  have hwaits : (s.putVl v).leaseWaits a v.slot = s.leaseWaits a v.slot := rfl
  subst hown
  exact ⟨rfl, by simp [hagent, hslot, hwaits], by simp [hust, howner]⟩

/-! ### Returned copies (R99, R101) -/

theorem leave_later (s : State) (l : List Instr) (a slot : Nat) (d : Option Line) : (s.later l).leave a slot d = (s.leave a slot d).later l := by
  unfold State.leave
  have hvl : (((s.later l).dropCopy a slot).unfilter slot (((s.later l).dropCopy a slot).holders slot)).vl slot =
      ((s.dropCopy a slot).unfilter slot ((s.dropCopy a slot).holders slot)).vl slot := rfl
  simp only [hvl]
  split <;> rfl

/-- A home takes an agent's copy back, and the walkers that watch the line hear of it. -/
theorem giveBack_takes {a slot : Nat} {c : Copy} {d : Bool} (h : AtRest s slot v) (hc : s.copy a slot = some c) (hl : c.leased = false)
    (hf : c.flips = []) (hd : (c.st == .M || c.st == .O) = d) :
    ∃ l, s.giveBack a slot d = (s.leave a slot (if d then some c.line else none)).later l := by
  obtain ⟨hagent, hslot⟩ := copy_id hc
  have hlost : c.lostDirty = false := by
    unfold Copy.lostDirty
    rw [hf, show (health [] false == Health.lost) = false from by decide, Bool.and_false]
  refine ⟨if 326 ≤ a then s.walkerWakes slot else [], ?_⟩
  rw [← leave_later]
  have hvl : (s.later (if 326 ≤ a then s.walkerWakes slot else [])).vl slot = some v := h.here
  unfold State.giveBack State.giveUp State.takeBack State.orphan
  simp only [hc, hl, hd, hagent, hslot, hvl, h.notxn, h.noqueue, hlost, checkCopy_sound hf]
  subst hd
  simp

theorem giveBack_leaves {a slot : Nat} {c : Copy} {d : Bool} (h : AtRest s slot v) (hc : s.copy a slot = some c) (hl : c.leased = false)
    (hf : c.flips = []) (hd : (c.st == .M || c.st == .O) = d) : (s.giveBack a slot d).hbm = s.hbm ∧ (s.giveBack a slot d).copy a slot = none
    ∧ ((s.giveBack a slot d).vl slot).map (fun u => (u.line, u.vdirty)) =
      some ((if d then some c.line else none).getD v.line, if (if d then some c.line else none).isSome then true else v.vdirty) := by
  obtain ⟨l, hback⟩ := giveBack_takes h hc hl hf hd
  obtain ⟨hcopy, hline⟩ := leave_self (a := a) h.here (if d then some c.line else none)
  rw [hback]
  exact ⟨State.leave_hbm _ _ _ _, hcopy, hline⟩

/-! ### Writes and reads of others (R98, R320) -/

theorem nextSerial_snd {t : State} (ht : t.serials = s.serials) (slot : Nat) : (t.nextSerial slot).2 = (s.nextSerial slot).2 := by
  unfold State.nextSerial
  rw [ht]

/-- HW of a line that no agent holds is performed in the slice. -/
theorem serve_hw_I {slot : Nat} {pin : Option (Nat × Nat)} {r : HwReq} (h : AtRest s slot v) (hr : s.refusal slot (.hw r) = none)
    (hi : v.st = .I) : ∃ t, s.serve slot pin (.hw r) = t ∧ t.hbm = s.hbm ∧ t.copies = s.copies
      ∧ (t.vl slot).map (fun u => (u.line, u.vdirty)) = some (applyHw r.op v.line, true) ∧ (∀ x, x ≠ slot → t.vl x = s.vl x)
      ∧ ∀ th reg, r.src = .sts th reg → .stsAcknowledgement th reg { serial := (s.nextSerial slot).2 } ∈ t.agenda := by
  obtain rfl := h.slot_eq
  have hvl (x : Nat) : ((s.mergeAt v v.line (applyHw r.op) r.elig).1.ackHw r.src (s.mergeAt v v.line (applyHw r.op) r.elig).2).vl x =
      if x = v.slot then some { v with st := .I, owner := 0, sharers := [], remote := false, vdirty := true, line := applyHw r.op v.line,
                                       elig := r.elig.getD v.elig, dgen := 0 } else s.vl x := by
    rw [State.ackHw_vl]
    exact vl_putVl s _ x
  refine ⟨_, h.serve_I hr hi (fun x hx => finishTxn_hw h.notxn h.sound (by rw [hx])) (by rw [hvl, if_pos rfl]) (by exact h.notxn)
    (by exact h.noqueue), by simp, by simp, by rw [hvl, if_pos rfl]; rfl, fun x hx => by rw [hvl, if_neg hx], fun th reg hsrc => ?_⟩
  rw [hsrc]
  have hserial : (s.mergeAt v v.line (applyHw r.op) r.elig).2 = (s.nextSerial v.slot).2 := nextSerial_snd rfl _
  rw [hserial]
  exact List.mem_append_right _ List.mem_cons_self

/-- HR of a line that no agent holds reads the slice. -/
theorem serve_hr_I {slot : Nat} {pin : Option (Nat × Nat)} {r : HrReq} (h : AtRest s slot v) (hr : s.refusal slot (.hr r) = none)
    (hi : v.st = .I) : s.serve slot pin (.hr r) = (s.putVl v).ackHr r.src slot v.line := by
  obtain rfl := h.slot_eq
  exact h.serve_I hr hi (fun x hx => finishTxn_hr h.notxn h.sound (by rw [hx])) (by rw [State.ackHr_vl, vl_putVl, if_pos rfl]) h.notxn h.noqueue

theorem vl_putVl_self {slot : Nat} (h : s.vl slot = some v) (x : Nat) : (s.putVl v).vl x = s.vl x := by
  rw [vl_putVl]
  split
  · rename_i hx
    rw [hx, vl_slot h, h]
  · rfl

/-! ### A request that is refused (R46, R48) -/

theorem prefetch_refused {r : HrReq} {c : Nat} (hsrc : r.src = .prefetch) (hc : s.physWhy r.slot = some c) :
    s.serve r.slot r.pin (.hr r) = s.raise (Event.phys c (648 + shellOf r.slot) (81 * r.slot)) := by
  have hclass : c ≠ 0 := by
    unfold State.physWhy at hc
    grind
  have hrefusal : s.refusal r.slot (.hr r) = some c := by simp [State.refusal, hc]
  simp [State.serve, hrefusal, State.refuse, Req.host, hsrc, hclass, State.reqSource]

/-- Settles O43: a request at a line at rest opens its transaction at once, which ends where it awaits no answer. -/
theorem homeRequests : Obligations.HomeRequests := by
  intro s slot v pin
  refine ⟨fun r c hslot hsrc hc => ?_, fun hv hl hs hf => ⟨fun ht hq a op byte hhost => ?_,
    fun ht hq hi => ⟨fun r hslot hr => ?_, fun r hslot hr => ?_⟩,
    fun x hx hw => ⟨fun r hslot hr => ?_, fun r hslot hr => ?_, fun a byte hr hhost => ?_⟩⟩, fun a byte op ha hreset i hi => ?_⟩
  · subst hslot
    simp only [exec, execHomeHr, prefetch_refused hsrc hc]
  · have h : AtRest s slot v := ⟨hv, hs, hf, hl, ht, hq⟩
    refine ⟨fun hr => ⟨fun hi hc s1 h1 => ?_, fun hst hown hc => ?_⟩, fun hr hi hc s1 h1 => ?_, fun hr hst hrem hsh c hc hcst => ?_,
      fun c hc hcl hcf => ⟨fun hdirty => ?_, fun hclean => ?_⟩⟩
    · simp only [exec, execHomeRds, askHome_serves hhost, serve_rds_I h hr hi hc h1, gained]
    · simp only [exec, execHomeRds, askHome_serves hhost, serve_rds_M h hr hst hown hc]
    · obtain ⟨hcopy, hline⟩ := serve_rdx_I (pin := pin) h hr hi hc h1
      exact ⟨_, by simp only [exec, execHomeRdx, askHome_serves hhost], hcopy, hline⟩
    · obtain ⟨hhbm, hcopy, hline⟩ := serve_upg_S (pin := none) h hr hst hrem hsh hc hcst
      exact ⟨_, by simp only [exec, execHomeUpg, askHome_serves hhost], hhbm, hcopy, hline⟩
    · obtain ⟨hhbm, hcopy, hline⟩ := giveBack_leaves (d := true) h hc hcl hcf (by rcases hdirty with hd | hd <;> simp [hd])
      exact ⟨_, by simp only [exec, execHomeWbd], hhbm, hcopy, hline⟩
    · obtain ⟨hhbm, hcopy, hline⟩ := giveBack_leaves (d := false) h hc hcl hcf (by rcases hclean with hd | hd <;> simp [hd])
      exact ⟨_, by simp only [exec, execHomeEvc], hhbm, hcopy, hline⟩
  · subst hslot
    obtain ⟨t, hserve, hrest⟩ := serve_hw_I (pin := r.pin) ⟨hv, hs, hf, hl, ht, hq⟩ hr hi
    exact ⟨t, by simp only [exec, execHomeHw, hserve], hrest⟩
  · subst hslot
    have hserve := serve_hr_I (pin := r.pin) ⟨hv, hs, hf, hl, ht, hq⟩ hr hi
    refine ⟨(s.putVl v).ackHr r.src r.slot v.line, by simp only [exec, execHomeHr, hserve], by simp, by simp, ?_,
      fun x _ => by rw [State.ackHr_vl, vl_putVl_self hv], fun who lo len hsrc hp => ?_⟩
    · rw [State.ackHr_vl, vl_putVl_self hv, hv]
      rfl
    · simp [State.ackHr, hsrc, hp]
  · subst hslot
    simp only [exec, execHomeHw, serve_busy hv hs hf hr hx hw]
  · subst hslot
    simp only [exec, execHomeHr, serve_busy hv hs hf hr hx hw]
  · simp only [exec, execHomeRds, askHome_serves hhost, serve_busy hv hs hf hr hx hw]
  · simp only [List.mem_cons, List.not_mem_nil, or_false] at hi
    obtain rfl | rfl | rfl := hi
    · simp only [exec, execHomeRds, askHome_refused ha hreset]
    · simp only [exec, execHomeRdx, askHome_refused ha hreset]
    · simp only [exec, execHomeUpg, askHome_refused ha hreset]

end Sys2Proof.Machine
end

section
/-! PROOFS. Snoops, answers, fills and write-backs of a line (R50, R53, R63, R90, R100–R103, R113). -/

namespace Sys2Proof.Machine

variable {s : State} {v : VLine} {x : Txn}

/-! ### Snoops (R100, R113) -/

/-- What a copy gives when it is snooped: its data where it is dirty. -/
def Copy.gives (c : Copy) : Option Line := if c.st = .M ∨ c.st = .O then some c.line else none

theorem snoop_leased {a slot : Nat} {c : Copy} (hc : s.copy a slot = some c) (hl : c.leased = true) (k : Snoop) :
    s.snoop a slot k = s.putCopy { c with probes := c.probes ++ [k] } := by
  simp only [State.snoop, hc, hl, if_true]

theorem snoop_free {a slot : Nat} {c : Copy} (hc : s.copy a slot = some c) (hl : c.leased = false) (k : Snoop) :
    s.snoop a slot k = s.answerSnoop a slot k := by
  simp only [State.snoop, hc, hl, Bool.false_eq_true, if_false]

theorem answerSnoop_inv {a slot : Nat} {c : Copy} (hc : s.copy a slot = some c) (hf : c.flips = []) (hb : c.back = false) :
    s.answerSnoop a slot .inv = (((s.dropCopy a slot).unfilter slot ((s.dropCopy a slot).holders slot)).later
      (if 326 ≤ a then s.walkerWakes slot else [])).later [.snoopAnswer a slot c.gives] := by
  simp only [State.answerSnoop, hc, Option.map_some, checkCopy_sound hf, hb, Bool.false_and, Bool.false_eq_true, if_false, Copy.gives]

theorem answerSnoop_shr {a slot : Nat} {c : Copy} (hc : s.copy a slot = some c) (hf : c.flips = []) (hb : c.back = false) :
    s.answerSnoop a slot .shr =
      (s.putCopy { c with st := if c.st = .M ∨ c.st = .O then .O else .S }).later [.snoopAnswer a slot c.gives] := by
  simp only [State.answerSnoop, hc, Option.map_some, checkCopy_sound hf, hb, Bool.false_and, Bool.false_eq_true, if_false, Copy.gives]

theorem answerSnoop_get {a slot : Nat} {c : Copy} (hc : s.copy a slot = some c) (hf : c.flips = []) (hb : c.back = false) :
    s.answerSnoop a slot .get = (s.putCopy c).later [.snoopAnswer a slot c.gives] := by
  simp only [State.answerSnoop, hc, Option.map_some, checkCopy_sound hf, hb, Bool.false_and, Bool.false_eq_true, if_false, Copy.gives]

/-! ### Answers (R102, R103) -/

/-- What an answer makes of the line and of its transaction. -/
def answered (agent : Nat) (data : Option Line) (v : VLine) (t : Txn) : VLine × Txn :=
  if !t.await.contains agent then (v, t)
  else match data with
    | some l => ({ v with line := l, vdirty := true, flips := [] }, { t with await := t.await.erase agent, supplied := true })
    | none => (v, { t with await := t.await.erase agent })

theorem exec_snoopAnswer (s : State) (a slot : Nat) (d : Option Line) :
    exec (.snoopAnswer a slot d) s = .next (s.modTxn slot (answered a d)) := rfl

theorem snoopAnswer_waits {slot a : Nat} (h : s.vl slot = some v) (hx : v.txn = some x) (ha : a ∈ x.await)
    (hw : x.await.erase a ≠ [] ∨ x.awaitDies ≠ []) :
    (∀ l, exec (.snoopAnswer a slot (some l)) s = .next
      (s.putVl { v with line := l, vdirty := true, flips := [], txn := some { x with await := x.await.erase a, supplied := true } }))
    ∧ exec (.snoopAnswer a slot none) s = .next (s.putVl { v with txn := some { x with await := x.await.erase a } }) := by
  have hin : x.await.contains a = true := by simpa using ha
  have hsome (l : Line) : answered a (some l) v x =
      ({ v with line := l, vdirty := true, flips := [] }, { x with await := x.await.erase a, supplied := true }) := by simp [answered, ha]
  have hnone : answered a none v x = (v, { x with await := x.await.erase a }) := by simp [answered, ha]
  refine ⟨fun l => ?_, ?_⟩
  · have hw' : (answered a (some l) v x).2.await ≠ [] ∨ (answered a (some l) v x).2.awaitDies ≠ [] := by rw [hsome]; exact hw
    rw [exec_snoopAnswer, modTxn_wait h hx _ (by rw [hsome]; exact (vl_slot h :)) hw', hsome]
  · have hw' : (answered a none v x).2.await ≠ [] ∨ (answered a none v x).2.awaitDies ≠ [] := by rw [hnone]; exact hw
    rw [exec_snoopAnswer, modTxn_wait h hx _ (by rw [hnone]; exact (vl_slot h :)) hw', hnone]

/-- A transaction that awaits nothing ends as its line is settled, and no request follows it. -/
theorem settle_ends {s' : State} {w u : VLine} (hx : w.txn = some x) (ha : x.await = []) (hd : x.awaitDies = []) (hq : w.queue = [])
    (hf : (s.putVl w).finishTxn w x = some s') (hu : s'.vl w.slot = some u) (ht : u.txn = none) (huq : u.queue = []) :
    (s.putVl w).settleTxn w.slot = s' := by
  unfold State.settleTxn
  simp only [vl_putVl, if_true, hq, List.length_nil]
  exact advance_ends 1 s s' w u x hx ha hd hf hu ht huq

/-- RdS of a line that another agent owns in M leaves the owner its line in O, and gives the requester a shared copy. -/
theorem endRds_M {a : Nat} {sup : Bool} {s1 : State} (hm : v.st = .M) (hc : s.copy a v.slot = none) (h1 : s.roomCopy a v.slot = some s1) :
    s.endRds a v sup = some ((s1.putCopy (gained a v.slot .S v.line)).putVl
      { v with st := .O, sharers := distinct (v.sharers ++ (if agentDie a = homeDie v.slot then [a] else [])),
               remote := v.remote || agentDie a != homeDie v.slot }) := by
  have hfar : (if agentDie a != homeDie v.slot then [] else [a]) = if agentDie a = homeDie v.slot then [a] else [] := by
    by_cases hd : agentDie a = homeDie v.slot <;> simp [hd]
  unfold State.endRds
  rw [if_neg (by simp [hc]), h1, Option.map_some]
  simp only [hm, hfar, gained, reduceCtorEq, false_and, if_false, List.append_nil]

/-- The last answer to the RdS of a line that another agent owns: the slice has the data, and the requester a shared copy. -/
theorem snoopAnswer_ends {slot a b : Nat} {byte : Bool} {l : Line} {u : VLine} {s1 : State} (h : s.vl slot = some v) (hx : v.txn = some x)
    (haw : x.await = [b]) (hdies : x.awaitDies = []) (hreq : x.req = .rds a byte) (hst : v.st = .M) (hq : v.queue = [])
    (hc : s.copy a slot = none) (hgood : (s.isB slot && badGroup l) = false)
    (hu : u = { v with line := l, vdirty := true, flips := [], txn := none }) (h1 : (s.putVl u).roomCopy a slot = some s1) :
    exec (.snoopAnswer b slot (some l)) s = .next ((s1.putCopy (gained a slot .S l)).putVl
      { u with st := .O, sharers := distinct (v.sharers ++ (if agentDie a = homeDie slot then [a] else [])),
               remote := v.remote || agentDie a != homeDie slot }) := by
  obtain rfl := vl_slot h
  have hans : answered b (some l) v x = ({ v with line := l, vdirty := true, flips := [] }, { x with await := [], supplied := true }) := by
    simp [answered, haw]
  have hsound : health u.flips ((s.isB u.slot) && badGroup u.line) = .sound := by
    rw [hu]
    change health [] (s.isB v.slot && badGroup l) = .sound
    rw [hgood]
    decide
  have hfin : (s.putVl { u with txn := some { x with await := [], supplied := true } }).finishTxn
      { u with txn := some { x with await := [], supplied := true } } { x with await := [], supplied := true } =
      (s.putVl u).endRds a u true := finishTxn_rds (by rw [hu]) hsound hreq
  have hslot : u.slot = v.slot := by rw [hu]
  rw [← hslot] at h1 hc
  rw [endRds_M (s := s.putVl u) (by rw [hu]; exact hst) hc h1] at hfin
  have hend := settle_ends (w := { u with txn := some { x with await := [], supplied := true } }) rfl rfl hdies (by rw [hu]; exact hq) hfin
    (by rw [vl_putVl, if_pos rfl]) (by rw [hu]) (by rw [hu]; exact hq)
  rw [exec_snoopAnswer, State.modTxn, h]
  simp only [hx, hans]
  subst hu
  exact congrArg _ hend

theorem exec_snoopFilterBroadcast {die slot : Nat} (h : s.vl slot = some v) (hx : v.txn = some x) (hd : die ∈ x.awaitDies)
    {marked : List Nat} (hm : marked = ((assocGet (s.die die).filter slot).getD []).filter (fun a => some a != x.req.agent && !x.await.contains a))
    (hw : marked ≠ [] ∨ x.await ≠ [] ∨ x.awaitDies.erase die ≠ []) : exec (.snoopFilterBroadcast die slot) s = .next
      ((s.later (marked.map (fun a => .snoopInv a slot))).putVl
        { v with txn := some { x with awaitDies := x.awaitDies.erase die, await := x.await ++ marked } }) := by
  have hin : x.awaitDies.contains die = true := by simpa using hd
  have hvl : (s.later (marked.map (fun a => .snoopInv a slot))).vl slot = some v := h
  have hawait : x.await ++ marked ≠ [] ∨ x.awaitDies.erase die ≠ [] := by
    rcases hw with hw | hw | hw
    · exact .inl (by simp [hw])
    · exact .inl (by simp [hw])
    · exact .inr hw
  simp only [exec, execSnoopFilterBroadcast, h, hx, hin, Bool.not_true, Bool.false_eq_true, if_false, ← hm]
  rw [modTxn_wait hvl hx _ (vl_slot h :) hawait]

/-! ### Fills (R90) -/

/-- A line as a slice takes it from HBM. -/
structure Filled (v : VLine) (slot : Nat) (l : Line) : Prop where
  slot_eq : v.slot = slot
  line_eq : v.line = l
  notxn : v.txn = none
  noqueue : v.queue = []
  noflips : v.flips = []
  unleased : v.leased = false
  unshared : v.sharers = []
  near : v.remote = false
  clean : v.vdirty = false
  unowned : v.st = .I ∨ v.st = .C

/-- A fill where the set has a way, with a pin or without. -/
theorem ensure_fresh {slot : Nat} (h : s.vl slot = none) (hr : (s.sameSet slot).length < 27) (pin : Option (Nat × Nat)) :
    ∃ (t : State) (v : VLine), s.ensure slot pin = some (t.putVl v, v) ∧ Filled v slot (s.hbmFetch slot).2.line ∧ t.hbm = s.hbm
      ∧ t.frames = s.frames ∧ t.fillq = s.fillq := by
  unfold State.ensure State.roomVault
  rw [h]
  simp only [hr, if_true, Option.map_some]
  refine ⟨_, _, rfl, ⟨rfl, rfl, rfl, rfl, rfl, rfl, rfl, rfl, rfl, ?_⟩, ?_, ?_, ?_⟩
  · dsimp only
    split
    · exact .inr rfl
    · exact .inl rfl
  · split <;> simp
  · split <;> simp
  · split <;> simp

/-- A line that no agent holds opens its transaction with nobody to answer. -/
theorem openTxn_fresh {slot : Nat} {l : Line} {u : VLine} {req : Req} (h : Filled v slot l) (hu : u.slot = slot) (hr : s.refusal slot req = none) :
    (s.putVl u).openTxn v req = s.putVl { v with txn := some { req := req, await := [], awaitDies := [], supplied := false } } := by
  obtain rfl := h.slot_eq
  have howned : ¬(v.st = .M ∨ v.st = .O ∨ v.st = .E) := by rcases h.unowned with hi | hc <;> simp [*]
  unfold State.openTxn
  rw [refusal_putVl, hr]
  simp only [howned, h.unshared, h.near, if_false, List.append_nil, distinct, List.foldl_nil, List.filter_nil,
    Bool.false_eq_true, false_and, and_false]
  generalize (if req.agent.any (fun a => ((s.putVl u).copy a v.slot).any (fun c => c.st == .M || c.st == .E)) then none
    else snoopOf req v.st) = k
  rcases k with - | (- | - | -) <;> simp [later_nil, putVl_putVl, hu]

/-- A request that a fill waits with is served at once. -/
theorem settle_fresh {slot : Nat} {l : Line} {req : Req} {s' : State} {u : VLine} (h : Filled v slot l) (hr : s.refusal slot req = none)
    (hfin : ∀ x : Txn, x = { req := req, await := [], awaitDies := [], supplied := false } →
      (s.putVl { v with txn := some x }).finishTxn { v with txn := some x } x = some s')
    (hu : s'.vl slot = some u) (hut : u.txn = none) (huq : u.queue = []) : (s.putVl { v with queue := [req] }).settleTxn slot = s' := by
  obtain rfl := h.slot_eq
  have hopen : (s.putVl { v with queue := [req] }).settleTxn v.slot = ((s.putVl { v with queue := [req] }).openTxn v req).advance 3 v.slot := by
    unfold State.settleTxn
    simp only [vl_putVl, if_true, List.length_cons, List.length_nil]
    conv => lhs; unfold State.advance
    simp only [vl_putVl, if_true, h.notxn, h.unleased, Bool.false_eq_true, if_false]
    rw [← h.noqueue, ← h.notxn, ← h.unleased]
  rw [hopen, openTxn_fresh (u := { v with queue := [req] }) h rfl hr]
  exact advance_ends 2 s s' { v with txn := some _ } u _ rfl rfl rfl (hfin _ rfl) hu hut huq

/-- A slice takes a line from HBM where its set has a way, and serves the requests that wait for it. -/
theorem exec_vaultFill {slot : Nat} (hp : s.physWhy slot = none) (h : s.vl slot = none) (hr : (s.sameSet slot).length < 27) :
    ∃ (t : State) (v : VLine), exec (.vaultFill slot) s =
        .next ((t.putVl { v with queue := (s.fillq.filter (fun p => p.1 == slot)).map (·.2.2) }).settleTxn slot)
      ∧ Filled v slot (s.hbmFetch slot).2.line ∧ t.hbm = s.hbm ∧ t.frames = s.frames ∧ t.fillq = s.fillq.filter (fun p => p.1 != slot) := by
  obtain ⟨t, v, hensure, hfresh, hhbm, hframes, hfillq⟩ := ensure_fresh h hr ((s.fillq.filter (fun p => p.1 == slot)).findSome? (·.2.1))
  refine ⟨{ t with fillq := s.fillq.filter (fun p => p.1 != slot) }, v, ?_, hfresh, hhbm, hframes, rfl⟩
  have hput (l : List (Nat × Option (Nat × Nat) × Req)) (q : List Req) :
      ({ t.putVl v with fillq := l } : State).putVl { v with queue := q } = ({ t with fillq := l } : State).putVl { v with queue := q } :=
    putVl_putVl { t with fillq := l } v { v with queue := q } rfl
  simp only [exec, execVaultFill, hp, hensure, State.putVl_fillq, hfillq, hfresh.noqueue, List.nil_append, hput]

theorem isB_of_frames {t : State} (h : t.frames = s.frames) (slot : Nat) : t.isB slot = s.isB slot := by
  unfold State.isB State.frame
  rw [h]

theorem refusal_of_frames {t : State} (h : t.frames = s.frames) (slot : Nat) (r : Req) : t.refusal slot r = s.refusal slot r := by
  unfold State.refusal State.physWhy State.isB State.frame
  rw [h]

theorem Filled.sound {slot : Nat} {l : Line} {t : State} (h : Filled v slot l) (hf : t.frames = s.frames) (hg : (s.isB slot && badGroup l) = false) :
    health v.flips (t.isB v.slot && badGroup v.line) = .sound := by
  rw [isB_of_frames hf, h.slot_eq, h.line_eq, hg, h.noflips]
  decide

/-- Nothing waits for a line that comes: it rests. -/
theorem vaultFill_rests {slot : Nat} (hp : s.physWhy slot = none) (h : s.vl slot = none) (hr : (s.sameSet slot).length < 27)
    (hq : ∀ p ∈ s.fillq, p.1 ≠ slot) : ∃ (t : State) (v : VLine), exec (.vaultFill slot) s = .next t ∧ t.vl slot = some v
      ∧ v.line = (s.hbmFetch slot).2.line ∧ v.txn = none ∧ t.hbm = s.hbm := by
  obtain ⟨t, v, hexec, hv, hhbm, -, -⟩ := exec_vaultFill hp h hr
  have hnone : s.fillq.filter (fun p => p.1 == slot) = [] := by simpa using hq
  have hv' : { v with queue := ([] : List Req) } = v := by rw [← hv.noqueue]
  have hvl : (t.putVl v).vl slot = some v := by rw [vl_putVl, hv.slot_eq, if_pos rfl]
  have hrest : (t.putVl v).settleTxn slot = t.putVl v := by
    unfold State.settleTxn
    rw [hvl]
    exact advance_idle _ _ _ v hvl hv.notxn hv.noqueue
  rw [hnone, List.map_nil, hv', hrest] at hexec
  exact ⟨_, v, hexec, hvl, hv.line_eq, hv.notxn, hhbm⟩

/-- A write that waits for a line that comes is performed in the slice. -/
theorem vaultFill_hw {slot : Nat} {p : Option (Nat × Nat)} {r : HwReq} (hp : s.physWhy slot = none) (h : s.vl slot = none)
    (hr : (s.sameSet slot).length < 27) (hq : s.fillq.filter (fun q => q.1 == slot) = [(slot, p, .hw r)]) (href : s.refusal slot (.hw r) = none)
    (hg : (s.isB slot && badGroup (s.hbmFetch slot).2.line) = false) :
    ∃ t, exec (.vaultFill slot) s = .next t ∧ t.fillq = s.fillq.filter (fun q => q.1 != slot) ∧ t.hbm = s.hbm
      ∧ (t.vl slot).map (fun v => (v.line, v.vdirty, v.queue)) = some (applyHw r.op (s.hbmFetch slot).2.line, true, []) := by
  obtain ⟨t, v, hexec, hv, hhbm, hframes, hfillq⟩ := exec_vaultFill hp h hr
  have hvl : ((t.mergeAt v v.line (applyHw r.op) r.elig).1.ackHw r.src (t.mergeAt v v.line (applyHw r.op) r.elig).2).vl slot =
      some { v with st := .I, owner := 0, sharers := [], remote := false, vdirty := true, line := applyHw r.op v.line,
                    elig := r.elig.getD v.elig, dgen := 0 } := by
    rw [State.ackHw_vl, ← hv.slot_eq]
    exact (vl_putVl t _ v.slot).trans (if_pos rfl)
  rw [hq, List.map_singleton, settle_fresh hv (by rw [refusal_of_frames hframes, href])
    (fun x hx => finishTxn_hw hv.notxn (hv.sound hframes hg) (by rw [hx])) hvl hv.notxn hv.noqueue] at hexec
  refine ⟨_, hexec, by simp [hfillq], by simp [hhbm], ?_⟩
  rw [hvl]
  simp [hv.line_eq, hv.noqueue]

/-- A read that waits for a line that comes leaves it as HBM had it. -/
theorem vaultFill_hr {slot : Nat} {p : Option (Nat × Nat)} {r : HrReq} (hp : s.physWhy slot = none) (h : s.vl slot = none)
    (hr : (s.sameSet slot).length < 27) (hq : s.fillq.filter (fun q => q.1 == slot) = [(slot, p, .hr r)]) (href : s.refusal slot (.hr r) = none)
    (hg : (s.isB slot && badGroup (s.hbmFetch slot).2.line) = false) :
    ∃ t, exec (.vaultFill slot) s = .next t ∧ t.fillq = s.fillq.filter (fun q => q.1 != slot) ∧ t.hbm = s.hbm
      ∧ (t.vl slot).map (fun v => (v.line, v.vdirty, v.queue)) = some ((s.hbmFetch slot).2.line, false, []) := by
  obtain ⟨t, v, hexec, hv, hhbm, hframes, hfillq⟩ := exec_vaultFill hp h hr
  have hvl : ((t.putVl v).ackHr r.src v.slot v.line).vl slot = some v := by rw [State.ackHr_vl, vl_putVl, hv.slot_eq, if_pos rfl]
  rw [hq, List.map_singleton, settle_fresh hv (by rw [refusal_of_frames hframes, href])
    (fun x hx => finishTxn_hr hv.notxn (hv.sound hframes hg) (by rw [hx])) hvl hv.notxn hv.noqueue] at hexec
  refine ⟨_, hexec, by simp [hfillq], by simp [hhbm], ?_⟩
  rw [hvl]
  simp [hv.line_eq, hv.noqueue, hv.clean]

/-- A die link that fails as a line comes leaves the line poisoned (R53). -/
theorem dieLinkFailure_fill {slot : Nat} (hp : s.physWhy slot = none) (h : s.vl slot = none) (hr : (s.sameSet slot).length < 27) :
    ∃ (t : State) (v : VLine), exec (.dieLinkFailure slot) s = .next t ∧ t.vl slot = some v ∧ v.line = poisonLine ∧ t.hbm = s.hbm := by
  have hroom (f : State) (hf : f.vlines = s.vlines) : f.roomVault slot = some f := by
    unfold State.roomVault State.sameSet
    rw [hf]
    exact if_pos hr
  have htransfer : s.transfer slot = some .fill := by simp [State.transfer, h]
  simp only [exec, execDieLinkFailure, hp, htransfer, Option.isSome_none, Bool.false_eq_true, if_false,
    hroom ((s.raise (Event.phys 4 (648 + shellOf slot) (81 * slot))).uncorrectable slot) (by simp)]
  exact ⟨_, _, rfl, (vl_putVl _ _ _).trans (if_pos rfl), rfl, by simp⟩

/-! ### Write-backs (R90) -/

theorem imageOf_of_denom {t : State} (hf : t.frames = s.frames) (ha : ∀ d, (t.die d).denom.active = (s.die d).denom.active)
    (ht : ∀ d, (t.die d).denom.tables = (s.die d).denom.tables) (slot : Nat) (l : Line) (e : Bool) : t.imageOf slot l e = s.imageOf slot l e := by
  unfold State.imageOf State.isB State.frame
  simp only [hf, ha, ht]

/-- Sampling counts, and touches no table. -/
theorem sample_denom (s : State) (slot : Nat) (l : Line) (e : Bool) (d : Nat) :
    ((s.sample slot l e).die d).denom.active = (s.die d).denom.active ∧ ((s.sample slot l e).die d).denom.tables = (s.die d).denom.tables := by
  unfold State.sample
  split
  · unfold State.die State.modDie
    simp only [List.getD_eq_getElem?_getD, modNth_getElem?]
    split
    · cases s.dies[d]? <;> exact ⟨rfl, rfl⟩
    · exact ⟨rfl, rfl⟩
  · exact ⟨rfl, rfl⟩

theorem sample_imageOf (s : State) (slot : Nat) (l : Line) (e : Bool) (y : Nat) (k : Line) (f : Bool) :
    (s.sample slot l e).imageOf y k f = s.imageOf y k f :=
  imageOf_of_denom (State.sample_frames _ _ _ _) (fun d => (sample_denom s slot l e d).1) (fun d => (sample_denom s slot l e d).2) y k f

theorem hbmStore_image {slot : Nat} {l : Line} {e : Bool} (hw : Memory.wf s.hbm = true) {k b : Nat} (h : (s.imageOf slot l e)[k]? = some b) :
    hbmGet (s.hbmStore slot l e).hbm (160 * slot + k) = BitVec.ofNat 8 b := by
  rw [hbmStore_get _ _ _ _ hw, if_pos (Nat.le_add_right _ _), Nat.add_sub_cancel_left, h]

/-- What HBM holds once a slice has written its line back. -/
theorem writeBack_image (hw : Memory.wf s.hbm = true) {k b : Nat} (h : (s.imageOf v.slot v.line v.elig)[k]? = some b) :
    hbmGet (s.writeBack v).hbm (160 * v.slot + k) = BitVec.ofNat 8 b := by
  unfold State.writeBack
  exact hbmStore_image (by rw [State.sample_hbm]; exact hw) (by rw [sample_imageOf]; exact h)

/-- Taking the dirty copy of a line leaves the dies: a copy that is lost stays, poisoned. -/
theorem takeDirty_dies (s : State) (slot : Nat) : (s.takeDirty slot).1.dies = s.dies := by
  unfold State.takeDirty
  split
  · rfl
  · rename_i c hc
    obtain ⟨-, hdirty⟩ := State.dirtyCopy_spec hc
    unfold State.checkCopy
    cases health c.flips false <;> simp [hdirty]

theorem invalidate_imageOf (s : State) (slot y : Nat) (l : Line) (e : Bool) : (s.invalidate slot).1.imageOf y l e = s.imageOf y l e := by
  refine imageOf_congr (State.invalidate_frames _ _) (fun d => ?_) y l e
  calc ((s.invalidate slot).1.die d).denom = (((s.takeDirty slot).1.unfilter slot []).die d).denom := rfl
    _ = ((s.takeDirty slot).1.die d).denom := unfilter_denom _ _ _ _
    _ = (s.die d).denom := by rw [State.die, takeDirty_dies]; rfl

/-- A slice evicts a dirty line that no agent holds: it is written back. -/
theorem evict_uncopied {slot : Nat} (h : s.vl slot = some v) (hd : v.vdirty = true)
    (hs : health v.flips (s.isB slot && badGroup v.line) = .sound) (hc : ∀ c ∈ s.copies, c.slot ≠ slot) :
    s.evict v = ((s.invalidate slot).1.writeBack v).dropVl slot := by
  obtain rfl := vl_slot h
  have hclean : s.dirtyCopy v.slot = none := by
    refine List.find?_eq_none.mpr (fun c hmem => ?_)
    simp [hc c hmem]
  have hnone : (s.invalidate v.slot).2 = none := by
    rw [invalidate_snd (fun c hcopy => by rw [hclean] at hcopy; cases hcopy), hclean, Option.map_none]
  have hcheck : (s.invalidate v.slot).1.checkVl v = ((s.invalidate v.slot).1, v) :=
    checkVl_sound (by rw [isB_of_frames (State.invalidate_frames s v.slot)]; exact hs)
  unfold State.evict
  have hfound : (health v.flips (s.isB v.slot && badGroup v.line) == Health.lost) = false := by rw [hs]; decide
  simp only [hclean, State.orphan, hfound, Bool.and_false, Bool.false_eq_true, if_false, hnone, hcheck, hd, if_true]

theorem vaultWriteback_writes {slot : Nat} (h : s.vl slot = some v) (he : s.evictable v = true) (hd : v.vdirty = true)
    (hw : Memory.wf s.hbm = true) (hs : health v.flips (s.isB slot && badGroup v.line) = .sound) (hc : ∀ c ∈ s.copies, c.slot ≠ slot) :
    ∃ t, exec (.vaultWriteback slot) s = .next t ∧ t.vl slot = none
      ∧ ∀ k b, (s.imageOf slot v.line v.elig)[k]? = some b → hbmGet t.hbm (160 * slot + k) = BitVec.ofNat 8 b := by
  refine ⟨((s.invalidate slot).1.writeBack v).dropVl slot, ?_, by rw [vl_dropVl, if_pos rfl], fun k b hb => ?_⟩
  · simp only [exec, execVaultWriteback, h, he, hd, Bool.true_or, Bool.and_self, if_true, evict_uncopied h hd hs hc]
  · obtain rfl := vl_slot h
    exact writeBack_image (s := (s.invalidate v.slot).1) (by rw [State.invalidate_hbm]; exact hw) (by rw [invalidate_imageOf]; exact hb)

/-- A die link that fails as a line leaves writes a poisoned line in its place (R53). -/
theorem dieLinkFailure_out {slot : Nat} (hp : s.physWhy slot = none) (h : s.vl slot = some v) (he : s.evictable v = true)
    (hd : v.vdirty = true ∨ (s.dirtyCopy slot).isSome = true) (hw : Memory.wf s.hbm = true) :
    ∃ t, exec (.dieLinkFailure slot) s = .next t ∧ t.vl slot = none ∧ (∀ a, t.copy a slot = none)
      ∧ ∀ k b, (s.imageOf slot poisonLine v.elig)[k]? = some b → hbmGet t.hbm (160 * slot + k) = BitVec.ofNat 8 b := by
  obtain rfl := vl_slot h
  have hout : s.transfer v.slot = some (.out v) := by
    unfold State.transfer
    rw [h]
    rcases hd with hd | hd <;> simp [he, hd]
  obtain ⟨u, hu⟩ : ∃ u, u =
      (((s.raise (Event.phys 4 (648 + shellOf v.slot) (81 * v.slot))).uncorrectable v.slot).invalidate v.slot).1 := ⟨_, rfl⟩
  have himage (l : Line) : u.imageOf v.slot l v.elig = s.imageOf v.slot l v.elig := by
    rw [hu, invalidate_imageOf]
    exact imageOf_congr (by simp) (fun d => by simp) _ _ _
  have hhbm : u.hbm = s.hbm := by simp [hu]
  refine ⟨(u.writeBack { v with line := poisonLine }).dropVl v.slot, ?_, by rw [vl_dropVl, if_pos rfl], fun a => ?_, fun k b hb => ?_⟩
  · simp only [exec, execDieLinkFailure, hp, hout, hu, Option.isSome_none, Bool.false_eq_true, if_false]
  · rw [copy_of_copies (State.dropVl_copies _ _), State.writeBack_copy, hu]
    exact copy_invalidate _ a v.slot
  · exact writeBack_image (v := { v with line := poisonLine }) (by rw [hhbm]; exact hw) (by rw [himage]; exact hb)

/-! ### Reads and writes of HBM (R50, R63) -/

theorem hbm_refused {slot c : Nat} (hc : s.physWhy slot = some c) : s.refuseUnit slot = s.raise (Event.phys c (648 + shellOf slot) (81 * slot)) := by
  unfold State.refuseUnit
  rw [hc]

theorem exec_hbmWrite {slot : Nat} {l : Line} {e : Bool} (hp : s.physWhy slot = none) (hl : l.w.length = 27) :
    exec (.hbmWrite slot l e) s = .next (s.hbmStore slot l e) := by
  simp only [exec, execHbmWrite, hp, hl, Option.isSome_none, Bool.false_eq_true, if_false, if_true]

theorem hbmStore_frame {slot : Nat} {l : Line} {e : Bool} (hw : Memory.wf s.hbm = true) {a : Nat}
    (ha : a < 160 * slot ∨ 160 * slot + (s.imageOf slot l e).length ≤ a) : hbmGet (s.hbmStore slot l e).hbm a = hbmGet s.hbm a := by
  rw [hbmStore_get _ _ _ _ hw]
  split
  · rw [List.getElem?_eq_none (by omega)]
  · rfl

theorem exec_hbmRead {slot : Nat} (hp : s.physWhy slot = none) : exec (.hbmRead slot) s = .next (s.hbmFetch slot).1 := by
  simp only [exec, execHbmRead, hp, Option.isSome_none, Bool.false_eq_true, if_false]

/-- What a read of a touched slot leaves, by what it found. -/
theorem hbmFetch_touched {slot : Nat} {r : Read} (hu : hbmUntouched s.hbm slot = false)
    (hr : readImage (s.isB slot) (s.tablesOf slot) (hbmSlot s.hbm slot) = r) : (s.hbmFetch slot).1 =
      if r.bad then s.uncorrectable slot
      else if r.fixed ≠ 0 then (s.raise (Event.phys 1 (648 + shellOf slot) (81 * slot))).score slot 1 else s := by
  unfold State.hbmFetch
  rw [hu, Bool.and_false, if_neg Bool.false_ne_true, hr]

theorem score_adds (s : State) (slot k : Nat) :
    (assocGet (s.score slot k).scores (slot / 27)).getD 0 = min 9841 ((assocGet s.scores (slot / 27)).getD 0 + k) := by
  have hput (l : List (Nat × Nat)) (n : Nat) : (assocGet (natPut l (slot / 27) n) (slot / 27)).getD 0 = n := by
    rw [assocGet_natPut, if_pos rfl, Option.getD_some]
  unfold State.score
  dsimp only
  split
  · rw [State.raise_scores, hput]
  · exact hput _ _

/-- A read that was corrected or lost scores for its frame, and changes nothing else of memory. -/
theorem hbmFetch_scores {slot : Nat} {r : Read} (hu : hbmUntouched s.hbm slot = false)
    (hr : readImage (s.isB slot) (s.tablesOf slot) (hbmSlot s.hbm slot) = r) (h : r.bad = true ∨ r.fixed ≠ 0) :
    (assocGet (s.hbmFetch slot).1.scores (slot / 27)).getD 0 = min 9841 ((assocGet s.scores (slot / 27)).getD 0 + if r.bad then 27 else 1) := by
  rw [hbmFetch_touched hu hr]
  cases hb : r.bad with
  | true =>
    simp only [if_true, State.uncorrectable]
    rw [score_adds, State.raise_scores]
  | false =>
    have hfixed : r.fixed ≠ 0 := by simpa [hb] using h
    simp only [Bool.false_eq_true, if_false, if_pos hfixed]
    rw [score_adds, State.raise_scores]

/-- Settles O44: snoops and answers by the copy they find and the transaction they end; fills, write-backs and HBM by the line they move. -/
theorem snoopsAndSlices : Obligations.SnoopsAndSlices := by
  refine ⟨fun s a slot c hc hl hf hb d hd => ?_, fun s a slot c hc hl => ?_, fun s slot v x h hx => ⟨fun a ha hw => ?_,
    fun a b byte l haw hdies hreq hst hq hc hgood u s1 hu h1 => ?_, fun die marked hd hw hm => ?_⟩,
    fun s slot hp h hr => ⟨vaultFill_rests hp h hr, fun p req hq href hg => ⟨fun r hreq => ?_, fun r hreq => ?_⟩,
      dieLinkFailure_fill hp h hr⟩,
    fun s slot v h he hd hw hs hc _ => vaultWriteback_writes h he hd hw hs hc, fun s slot v hp h he hd hw => dieLinkFailure_out hp h he hd hw,
    fun s slot c hc l e i hi => ?_, fun s slot l e hp hl hw => ?_, fun s slot r hp hu hr => ⟨fun hb hf => ?_, fun hbad => ?_⟩⟩
  · have hgives : c.gives = d := by rw [hd]; rfl
    refine ⟨⟨s.answerSnoop a slot .inv, by simp only [exec, execSnoopInv, snoop_free hc hl], ?_, ?_⟩, ?_, ?_⟩
    · rw [answerSnoop_inv hc hf hb]
      exact (copy_of_copies rfl a slot).trans ((copy_dropCopy s a slot a slot).trans (if_pos ⟨rfl, rfl⟩))
    · rw [answerSnoop_inv hc hf hb, hgives]
      rfl
    · simp only [exec, execSnoopShr, snoop_free hc hl, answerSnoop_shr hc hf hb, hgives]
    · simp only [exec, execSnoopGet, snoop_free hc hl, answerSnoop_get hc hf hb, hgives]
  · simp only [exec, execSnoopInv, execSnoopShr, execSnoopGet, snoop_leased hc hl, and_self]
  · exact snoopAnswer_waits h hx ha hw
  · exact snoopAnswer_ends h hx haw hdies hreq hst hq hc hgood hu h1
  · exact exec_snoopFilterBroadcast h hx hd hm hw
  · subst hreq
    exact vaultFill_hw hp h hr hq href hg
  · subst hreq
    exact vaultFill_hr hp h hr hq href hg
  · simp only [List.mem_cons, List.not_mem_nil, or_false] at hi
    obtain rfl | rfl := hi
    · simp only [exec, execHbmRead, hc, Option.isSome_some, if_true, hbm_refused hc]
    · simp only [exec, execHbmWrite, hc, Option.isSome_some, if_true, hbm_refused hc]
  · exact ⟨_, exec_hbmWrite hp hl, rfl, rfl, fun k b hb => hbmStore_image hw hb, fun a ha => hbmStore_frame hw ha⟩
  · rw [exec_hbmRead hp, hbmFetch_touched hu hr, hb, hf]
    rfl
  · exact ⟨_, exec_hbmRead hp, State.hbmFetch_hbm _ _, State.hbmFetch_vlines _ _, hbmFetch_scores hu hr hbad⟩

end Sys2Proof.Machine
end

section
/-! PROOFS. The host's windows (R58–R61, R378). -/

namespace Sys2Proof.Machine

variable {s : State}

/-! ### An access within one line -/

theorem pieces_one {n off len : Nat} (hlen : 0 < len) (h : off % n + len ≤ n) : pieces n off len = [(off / n, off % n, 0, len)] := by
  have hcount : (off % n + len + n - 1) / n = 1 := by
    have hn : 0 < n := by omega
    rw [show off % n + len + n - 1 = off % n + (len - 1) + n by omega, Nat.add_div_right _ hn, Nat.div_eq_of_lt (by omega)]
  unfold pieces
  rw [hcount]
  simp
  omega

/-- An access within one line, of a window that has booted, is one access of that line. -/
theorem hostBinaryWrite_one {who off : Nat} {bytes : List (BitVec 8)} (hr : s.ready = true) (hb : bytes ≠ [])
    (h : off % 128 + bytes.length ≤ 128) : exec (.hostBinaryWrite who off bytes) s = .next (
      if slotCount ≤ off / 128 then s.hostError who off false
      else if !s.isB (off / 128) || s.inReset (off / 128) then s.hostError who off true
      else s.later [.homeHw { slot := off / 128, op := .bytes ((List.range bytes.length).map (fun i => (off % 128 + i, bytes.getD i 0))),
                              src := .host who, elig := some false, fmt := some true }]) := by
  simp only [exec, execHostBinaryWrite, hr, Bool.not_true, Bool.false_eq_true, if_false, pieces_one (List.length_pos_iff.mpr hb) h,
    List.foldl_cons, List.foldl_nil, Nat.div_add_mod, Nat.zero_add]

theorem hostBinaryRead_one {who off len : Nat} (hr : s.ready = true) (hlen : 0 < len) (h : off % 128 + len ≤ 128) :
    exec (.hostBinaryRead who { bar := 0, off := off } len) s = .next (
      if slotCount ≤ off / 128 then s.hostError who off false
      else if !s.isB (off / 128) || s.inReset (off / 128) then s.hostError who off true
      else s.later [.homeHr { slot := off / 128, src := .host who false (off % 128) len, fmt := some true }]) := by
  simp only [exec, execHostBinaryRead, hr, Bool.not_true, Bool.false_eq_true, if_false, pieces_one hlen h, List.foldl_cons, List.foldl_nil,
    Nat.div_add_mod, OfNat.zero_ne_ofNat]

theorem hostImageRead_one {who off len : Nat} (hr : s.ready = true) (hlen : 0 < len) (h : off % 160 + len ≤ 160) (hs : off / 160 < slotCount) :
    exec (.hostImageRead who off len) s = .next (if s.frame (off / 160 / 27) < 2 ∧ s.inReset (off / 160) = false
      then s.later [.homeHr { slot := off / 160, src := .host who true (off % 160) len, fmt := none }] else s.hostError who off true) := by
  simp only [exec, execHostImageRead, hr, Bool.not_true, Bool.false_eq_true, if_false, pieces_one hlen h, List.foldl_cons, List.foldl_nil,
    Nat.div_add_mod, if_neg (Nat.not_le.mpr hs)]
  cases s.inReset (off / 160) <;> by_cases hf : s.frame (off / 160 / 27) < 2 <;> simp [hf]

/-! ### The image window's staging entries (R59) -/

/-- The bytes of a write of an image, at their places in the line. -/
def staged (lo : Nat) (bytes : List (BitVec 8)) : List (Nat × BitVec 8) :=
  (List.range bytes.length).map (fun i => (lo + i, bytes.getD i 0))

/-- The first bytes of an image take a staging entry, which ends at once where they are all of it. -/
theorem hostImageWrite_first {who off : Nat} {bytes : List (BitVec 8)} (hr : s.ready = true) (hb : bytes ≠ [])
    (h : off % 160 + bytes.length ≤ 160) (hs : off / 160 < slotCount) (hreset : s.inReset (off / 160) = false)
    (hnone : s.stage? who (off / 160) = none) (hroom : (s.staging.filter (fun g => shellOf g.slot == shellOf (off / 160))).length < 81)
    {g : Stage} (hg : g = ⟨who, off / 160, s.cycle, staged (off % 160) bytes⟩) : exec (.hostImageWrite who off bytes) s = .next (
      if bytes.length = 160 then ({ s with staging := s.staging ++ [g] } : State).endStage g else { s with staging := s.staging ++ [g] }) := by
  subst hg
  simp only [exec, execHostImageWrite, hr, Bool.not_true, Bool.false_eq_true, if_false, pieces_one (List.length_pos_iff.mpr hb) h,
    List.foldl_cons, List.foldl_nil, if_neg (Nat.not_le.mpr hs), hreset, hnone, if_neg (Nat.not_le.mpr hroom), Nat.zero_add,
    List.length_map, List.length_range, staged]

theorem assocGet_map_mem {α : Type} (f : Nat → α) {l : List Nat} {i : Nat} (h : i ∈ l) :
    assocGet (l.map (fun j => (j, f j))) i = some (f i) := by
  induction l with
  | nil => cases h
  | cons k l ih =>
    simp only [List.map_cons, assocGet]
    split
    · rename_i hk
      rw [hk]
    · rename_i hk
      exact ih ((List.mem_cons.mp h).resolve_left (Ne.symm hk))

/-- The bytes of a whole image, read from its staging entry. -/
theorem staged_bytes {bytes : List (BitVec 8)} (h : bytes.length = 160) :
    (List.range 160).map (fun i => ((assocGet (staged 0 bytes) i).getD 0).toNat) = bytes.map (·.toNat) := by
  refine List.ext_getElem (by simp [h]) (fun i hi _ => ?_)
  have hi : i < bytes.length := by simpa [h] using hi
  have hget : assocGet (staged 0 bytes) i = some bytes[i] := by
    simpa [staged, hi] using assocGet_map_mem (fun j => bytes[j]?.getD 0) (List.mem_range.mpr hi)
  simp [hget]

/-- A whole image that holds is written, and its staging entry is gone. -/
theorem endStage_whole {who slot c : Nat} {bytes : List (BitVec 8)} (h : bytes.length = 160) (hok : stagedOk (bytes.map (·.toNat)) = true)
    (ht : s.isT slot = true) (hnone : s.stage? who slot = none) {g : Stage} (hg : g = ⟨who, slot, c, staged 0 bytes⟩) :
    ({ s with staging := s.staging ++ [g] } : State).endStage g = s.later [.homeHw
      { slot := slot, op := .words ((List.range 27).zip (stagedLine (bytes.map (·.toNat))).w), src := .host who, elig := some false }] := by
  have hkeep : (s.staging ++ [g]).filter (fun x => !(x.who == g.who && x.slot == g.slot)) = s.staging := by
    subst hg
    have hother : ∀ x ∈ s.staging, (x.who == who && x.slot == slot) = false :=
      fun x hx => Bool.eq_false_iff.mpr (List.find?_eq_none.mp hnone x hx)
    rw [List.filter_append, List.filter_eq_self.mpr (fun x hx => by rw [hother x hx]; rfl)]
    simp
  have hisT : ({ s with staging := s.staging } : State).isT slot = true := ht
  unfold State.endStage
  rw [hkeep]
  subst hg
  simp only [staged_bytes h, hok, hisT, Bool.not_true, Bool.or_self, Bool.false_eq_true, if_false]

/-- An image that is not complete in time is discarded (1 ms). -/
theorem imageStagingTimeout_ends {who slot : Nat} {g : Stage} (h : s.stage? who slot = some g) (ht : g.start + 2100000 ≤ s.cycle) :
    exec (.imageStagingTimeout who slot) s =
      .next (({ s with staging := s.staging.filter (fun x => !(x.who == who && x.slot == slot)) } : State).hostError who (160 * slot) true) := by
  simp only [exec, execImageStagingTimeout, h, if_pos ht]

theorem imageStagingTimeout_early {who slot : Nat} {g : Stage} (h : s.stage? who slot = some g) (ht : s.cycle < g.start + 2100000) :
    exec (.imageStagingTimeout who slot) s = .next s := by
  simp only [exec, execImageStagingTimeout, h, if_neg (Nat.not_le.mpr ht)]

/-- Settles O45: an access within one line is one piece, and the staging entry of an image is alone of its requester and slot. -/
theorem hostWindows : Obligations.HostWindows := by
  refine ⟨fun s who off bytes len => ⟨fun hr i hi => ?_, fun hr => ?_⟩, fun s who off bytes hr hb h => ⟨fun hs => ?_, fun hs hB hreset => ?_,
      fun hs hno => ?_⟩,
    fun s who off len hr hlen h hs => hostImageRead_one hr hlen h hs,
    fun s who off bytes hr hb h hs hreset hnone hroom => ⟨fun hlen => ?_, fun hlen hok ht => ?_⟩,
    fun s who slot g h => ⟨imageStagingTimeout_early h, fun ht => ⟨_, imageStagingTimeout_ends h ht, ?_, rfl, rfl⟩⟩⟩
  · simp only [List.mem_cons, List.not_mem_nil, or_false] at hi
    obtain rfl | rfl | rfl | rfl := hi
    · simp only [exec, execHostBinaryWrite, hr, Bool.not_false, if_true]
    · simp only [exec, execHostBinaryRead, hr, Bool.not_false, if_true, OfNat.zero_ne_ofNat, if_false]
    · simp only [exec, execHostImageWrite, hr, Bool.not_false, if_true]
    · simp only [exec, execHostImageRead, hr, Bool.not_false, if_true]
  · have hopen : (s.ready || bootWords off len) = true := by simpa using hr
    simp only [exec, execHostBinaryRead, hopen, if_true]
  · rw [hostBinaryWrite_one hr hb h, hostBinaryRead_one hr (List.length_pos_iff.mpr hb) h, if_pos hs, if_pos hs]
    exact ⟨rfl, rfl⟩
  · rw [hostBinaryWrite_one hr hb h, hostBinaryRead_one hr (List.length_pos_iff.mpr hb) h]
    simp only [if_neg (Nat.not_le.mpr hs), hB, hreset, Bool.not_true, Bool.or_self, Bool.false_eq_true, if_false, and_self]
  · have hrefused : (!s.isB (off / 128) || s.inReset (off / 128)) = true := by simpa using hno
    rw [hostBinaryWrite_one hr hb h, hostBinaryRead_one hr (List.length_pos_iff.mpr hb) h]
    simp only [if_neg (Nat.not_le.mpr hs), hrefused, if_true, and_self]
  · have hexec := hostImageWrite_first hr hb h hs hreset hnone hroom rfl
    rw [if_neg (by omega)] at hexec
    exact ⟨_, hexec, rfl, rfl⟩
  · have hlo : off % 160 = 0 := by omega
    rw [hostImageWrite_first hr hb h hs hreset hnone hroom rfl, if_pos hlen, hlo, endStage_whole hlen hok ht hnone rfl]
  · refine List.find?_eq_none.mpr (fun x hx => ?_)
    obtain ⟨-, hother⟩ := List.mem_filter.mp hx
    rw [Bool.not_eq_true'] at hother
    rw [hother]
    exact Bool.false_ne_true

end Sys2Proof.Machine
end

section
/-! PROOFS. Denomination tables, frame commands and patrol scrubs (R47, R108–R110, R397, R398). -/

namespace Sys2Proof.Machine

variable {s : State}

/-! ### Denominations (R108–R110) -/

theorem State.die_default {d : Nat} (h : s.dies.length ≤ d) : s.die d = Die.reset := List.getD_eq_default _ _ h

theorem State.modDenom_die {d : Nat} (f : Denom → Denom) (hd : d < s.dies.length) (e : Nat) :
    (s.modDenom d f).die e = if e = d then { s.die d with denom := f (s.die d).denom } else s.die e :=
  State.modDie_die s _ hd e

theorem State.modDenom_dies_length (s : State) (d : Nat) (f : Denom → Denom) : (s.modDenom d f).dies.length = s.dies.length := by
  unfold State.modDenom State.modDie
  simp

theorem dies_length_of_sampling {d : Nat} (h : (s.die d).denom.sampling = true) : d < s.dies.length := by
  by_contra hd
  rw [State.die_default (Nat.le_of_not_lt hd)] at h
  cases h

theorem dies_length_of_ready {d : Nat} {table : List Int} (h : (s.die d).denom.ready = some table) : d < s.dies.length := by
  by_contra hd
  rw [State.die_default (Nat.le_of_not_lt hd)] at h
  cases h

/-- A sampling window ends: its counts are gone. -/
def Denom.ended (d : Denom) : Denom := { d with sampling := false, counts := [] }

theorem samplingWindowEnd_ranks {die : Nat} (hs : (s.die die).denom.sampling = true) (hr : (s.die die).denom.ready = none) :
    ∃ t, exec (.samplingWindowEnd die) s = .next t ∧ .denominationSweep die ∈ t.agenda
      ∧ (t.die die).denom = { (s.die die).denom with sampling := false, counts := [], ready := some (rankTable (s.die die).denom.counts) } := by
  have hd := dies_length_of_sampling hs
  refine ⟨((s.modDenom die Denom.ended).modDenom die (fun x => { x with ready := some (rankTable (s.die die).denom.counts) })).laterOnce
    (.denominationSweep die), ?_, mem_laterOnce _ _, ?_⟩
  · simp only [exec, execSamplingWindowEnd, hs, hr, Bool.not_true, Bool.false_eq_true, if_false, Option.isSome_none]
    rfl
  · rw [State.laterOnce_die, State.modDenom_die _ (by rwa [State.modDenom_dies_length]), if_pos rfl, State.modDenom_die _ hd, if_pos rfl]
    rfl

/-- A table that comes before the last sweep has finished is dropped. -/
theorem samplingWindowEnd_drops {die : Nat} (hs : (s.die die).denom.sampling = true) (hr : (s.die die).denom.ready ≠ none) :
    ∃ t, exec (.samplingWindowEnd die) s = .next t ∧ (t.die die).denom = { (s.die die).denom with sampling := false, counts := [] } := by
  have hd := dies_length_of_sampling hs
  refine ⟨(s.modDenom die Denom.ended).raise (Event.plain 17 653), ?_, ?_⟩
  · simp only [exec, execSamplingWindowEnd, hs, Option.isSome_iff_ne_none.mpr hr, Bool.not_true, Bool.false_eq_true, if_false, if_true]
    rfl
  · rw [State.raise_die, State.modDenom_die _ hd, if_pos rfl]
    rfl

theorem compressedSlots_sweeping {die : Nat} (hd : die < s.dies.length) (d t : Nat) :
    (s.modDenom die (fun x => { x with sweeping := true })).compressedSlots d t = s.compressedSlots d t := by
  have htables (slot : Nat) : (s.modDenom die (fun x => { x with sweeping := true })).tablesOf slot = s.tablesOf slot := by
    unfold State.tablesOf
    rw [State.modDenom_die _ hd]
    split
    · rename_i h
      rw [h]
    · rfl
  unfold State.compressedSlots
  simp only [htables]
  rfl

/-- A sweep that finds no line of the target slot loads it at once. -/
theorem denominationSweep_loads {die : Nat} {table : List Int} (hr : (s.die die).denom.ready = some table)
    (hnone : s.compressedSlots die (s.die die).denom.target = []) :
    ∃ t, exec (.denominationSweep die) s = .next t ∧ t.hbm = s.hbm ∧ t.vlines = s.vlines
      ∧ (t.die die).denom = { (s.die die).denom with
          tables := setNth (s.die die).denom.tables (s.die die).denom.target (some table),
          active := some (s.die die).denom.target, ready := none, sweeping := false } := by
  have hd := dies_length_of_ready hr
  refine ⟨(s.modDenom die (fun x => { x with sweeping := true })).modDenom die (fun x => { x with
    tables := setNth x.tables (s.die die).denom.target (some table), active := some (s.die die).denom.target, ready := none,
    sweeping := false }), ?_, rfl, rfl, ?_⟩
  · simp only [exec, execDenominationSweep, hr, compressedSlots_sweeping hd, hnone, List.foldl_nil, if_true]
  · rw [State.modDenom_die _ (by rwa [State.modDenom_dies_length]), if_pos rfl, State.modDenom_die _ hd, if_pos rfl]

/-! ### Commands of the clearing house (R397) -/

theorem chWrite_free {op : Int} (f : State → State) (hr : s.ready = true) (h : s.cwInt 6651 = 0 ∨ s.cwInt 6651 = op) :
    s.chWrite op f = .next (f (s.setCwInt 6651 op)) := by
  rw [State.chWrite, whenReady_of_ready hr, if_pos h]

theorem chWrite_taken {op : Int} (f : State → State) (hr : s.ready = true) (h : s.cwInt 6651 ≠ 0) (hop : s.cwInt 6651 ≠ op) :
    s.chWrite op f = .next s := by
  rw [State.chWrite, whenReady_of_ready hr, if_neg (not_or.mpr ⟨h, hop⟩)]

theorem chWrite_unready {op : Int} (f : State → State) (hr : s.ready = false) :
    s.chWrite op f = .next (s.hostError barWriter (8 * 6651) false) := by
  unfold State.chWrite State.whenReady
  rw [hr]
  rfl

/-- What a finished command shows: CHSTAT its result, CHOP 0. -/
theorem chDone_cw (s : State) (x : Int) : (s.chDone x).cw 6652 = .ofInt x ∧ (s.chDone x).cwInt 6651 = 0 := by
  constructor
  · exact (cw_setCwInt _ _ _ _).trans (if_pos rfl)
  · unfold State.cwInt State.chDone
    rw [cw_setCwInt, if_neg (by decide), cw_setCwInt, if_pos rfl]
    decide

theorem chDone_stat (s : State) {x : Int} (hx : -3812798742493 ≤ x ∧ x ≤ 3812798742493) : (s.chDone x).cwInt 6652 = x := by
  unfold State.cwInt
  rw [(chDone_cw s x).1, Word.val_ofInt]
  omega

@[simp] theorem State.chDone_hbm (s : State) (x : Int) : (s.chDone x).hbm = s.hbm := by simp [State.chDone]
@[simp] theorem State.chDone_scores (s : State) (x : Int) : (s.chDone x).scores = s.scores := by simp [State.chDone]
@[simp] theorem State.chDone_frames (s : State) (x : Int) : (s.chDone x).frames = s.frames := by simp [State.chDone]
@[simp] theorem State.chDone_vlines (s : State) (x : Int) : (s.chDone x).vlines = s.vlines := by simp [State.chDone]

theorem State.chDone_frame (s : State) (x : Int) (f : Nat) : (s.chDone x).frame f = s.frame f := by simp [State.frame]

theorem State.chDone_vl (s : State) (x : Int) (slot : Nat) : (s.chDone x).vl slot = s.vl slot := vl_of_vlines (s.chDone_vlines x) slot

theorem chFrame_setChop (s : State) (op : Int) : (s.setCwInt 6651 op).chFrame = s.chFrame := by
  unfold State.chFrame State.cwInt
  rw [cw_setCwInt, if_neg (show (6650 : Nat) ≠ 6651 by decide)]

/-! ### Frames (R47) -/

theorem frame_setFrame (s : State) (f c : Nat) : (s.setFrame f c).frame f = c := by
  unfold State.frame State.setFrame
  split
  · rename_i hc
    rw [assocGet_assocDel, if_pos rfl, hc]
    rfl
  · rw [assocGet_natPut, if_pos rfl]
    rfl

theorem mem_frameSlots {f x : Nat} : x ∈ frameSlots f ↔ x / 27 = f := by
  unfold frameSlots
  simp only [List.mem_map, List.mem_range]
  constructor
  · rintro ⟨i, hi, rfl⟩
    omega
  · intro h
    exact ⟨x % 27, Nat.mod_lt _ (by decide), by omega⟩

/-- Taking the dirty copy of a line leaves the slices: a copy that is lost stays, poisoned. -/
theorem takeDirty_vlines (s : State) (slot : Nat) : (s.takeDirty slot).1.vlines = s.vlines := by
  unfold State.takeDirty
  split
  · rfl
  · rename_i c hc
    obtain ⟨-, hdirty⟩ := State.dirtyCopy_spec hc
    unfold State.checkCopy
    cases health c.flips false <;> simp [hdirty]

theorem invalidate_vl (s : State) (slot x : Nat) : (s.invalidate slot).1.vl x = s.vl x :=
  vl_of_vlines (takeDirty_vlines s slot) x

theorem checkVl_vl {v : VLine} {x : Nat} (h : x ≠ v.slot) : (s.checkVl v).1.vl x = s.vl x := by
  unfold State.checkVl
  cases health v.flips (s.isB v.slot && badGroup v.line) with
  | sound => rfl
  | fixed => simp [vl_putVl, h]
  | lost => cases v.vdirty <;> simp [vl_putVl, h]

theorem checkVl_slot (s : State) (v : VLine) : (s.checkVl v).2.slot = v.slot := by
  unfold State.checkVl
  cases health v.flips (s.isB v.slot && badGroup v.line) <;> rfl

/-- An eviction takes its own line out of the slice and leaves every other. -/
theorem evict_vl (s : State) (v : VLine) (x : Nat) : (s.evict v).vl x = if x = v.slot then none else s.vl x := by
  unfold State.evict
  grind [vl_dropVl, State.orphan_vl, invalidate_vl, checkVl_vl, checkVl_slot, State.writeBack_vl]

/-- The homes of a frame's lines write them back and give them up. -/
def State.evictSlot (s : State) (slot : Nat) : State :=
  match s.vl slot with
  | some v => s.evict v
  | none => s

theorem evictSlot_vl (s : State) (slot x : Nat) : (s.evictSlot slot).vl x = if x = slot then none else s.vl x := by
  unfold State.evictSlot
  split
  · rename_i v hv
    rw [evict_vl, vl_slot hv]
  · rename_i hnone
    split
    · rename_i hx
      rw [hx, hnone]
    · rfl

theorem evictSlots_vl (l : List Nat) (s : State) (x : Nat) : (l.foldl State.evictSlot s).vl x = if x ∈ l then none else s.vl x := by
  induction l generalizing s with
  | nil => simp
  | cons y l ih =>
    rw [List.foldl_cons, ih, evictSlot_vl]
    by_cases hx : x = y <;> by_cases hl : x ∈ l <;> simp [hx, hl]

theorem evictSlot_wf (s : State) (slot : Nat) (h : Memory.wf s.hbm = true) : Memory.wf (s.evictSlot slot).hbm = true := by
  unfold State.evictSlot
  split
  · exact evict_wf s _ h
  · exact h

theorem evictSlots_wf (l : List Nat) (s : State) (h : Memory.wf s.hbm = true) : Memory.wf (l.foldl State.evictSlot s).hbm = true := by
  induction l generalizing s with
  | nil => exact h
  | cons y l ih => exact ih _ (evictSlot_wf s y h)

theorem emptyFrame_idle {f : Nat} (h : (frameSlots f).any s.busy = false) : s.emptyFrame f = some ((frameSlots f).foldl State.evictSlot s) := by
  unfold State.emptyFrame
  rw [h, if_neg Bool.false_ne_true]
  rfl

theorem busy_setChop (s : State) (op : Int) : (s.setCwInt 6651 op).busy = s.busy := by
  funext slot
  simp only [State.busy, State.setCwInt_vlines, State.setCwInt_copies, State.setCwInt_fillq]

/-! ### The commands (R397) -/

theorem chScore_answers {f : Nat} (hr : s.ready = true) (hf : s.chFrame = some f) (h : s.cwInt 6651 = 0 ∨ s.cwInt 6651 = -1) :
    ∃ t, exec .chScore s = .next t ∧ t.cw 6652 = .ofInt ((assocGet s.scores f).getD 0 : Nat) ∧ t.cwInt 6651 = 0 ∧ t.scores = s.scores := by
  refine ⟨(s.setCwInt 6651 (-1)).chDone ((assocGet s.scores f).getD 0 : Nat), ?_, (chDone_cw _ _).1, (chDone_cw _ _).2,
    by rw [State.chDone_scores, State.setCwInt_scores]⟩
  simp only [exec, execChScore, chWrite_free _ hr h, chFrame_setChop, hf]
  rfl

/-- The state without the score of a frame. -/
def State.clearScore (s : State) (f : Nat) : State := { s with scores := assocDel s.scores f }

theorem chClear_clears {f : Nat} (hr : s.ready = true) (hf : s.chFrame = some f) (h : s.cwInt 6651 = 0 ∨ s.cwInt 6651 = -2) :
    ∃ t, exec .chClear s = .next t ∧ assocGet t.scores f = none ∧ t.cwInt 6652 = 1 ∧ t.cwInt 6651 = 0 := by
  refine ⟨((s.setCwInt 6651 (-2)).clearScore f).chDone 1, ?_, ?_, chDone_stat _ (by decide), (chDone_cw _ _).2⟩
  · simp only [exec, execChClear, chWrite_free _ hr h, chFrame_setChop, hf, State.clearScore]
  · rw [State.chDone_scores, State.clearScore, assocGet_assocDel, if_pos rfl]

/-- A scrubbed slot: read, and rewritten where it was corrected. -/
def State.scrubSlot (s : State) (slot : Nat) : State :=
  if (s.hbmFetch slot).2.fixed ≠ 0 ∧ !(s.hbmFetch slot).2.bad then
    (s.hbmFetch slot).1.hbmStore slot (s.hbmFetch slot).2.line (s.hbmFetch slot).2.cmp
  else (s.hbmFetch slot).1

theorem scrubSlot_frames (s : State) (slot : Nat) : (s.scrubSlot slot).frames = s.frames := by
  unfold State.scrubSlot
  split <;> simp

theorem scrubSlot_vlines (s : State) (slot : Nat) : (s.scrubSlot slot).vlines = s.vlines := by
  unfold State.scrubSlot
  split <;> simp

theorem chScrub_scrubs {f : Nat} (hr : s.ready = true) (hf : s.chFrame = some f) (h : s.cwInt 6651 = 0 ∨ s.cwInt 6651 = 4) :
    ∃ t, exec .chScrub s = .next t ∧ t.cwInt 6652 = 1 ∧ t.cwInt 6651 = 0 ∧ t.frames = s.frames ∧ t.vlines = s.vlines := by
  refine ⟨((frameSlots f).foldl State.scrubSlot (s.setCwInt 6651 4)).chDone 1, ?_, chDone_stat _ (by decide), (chDone_cw _ _).2,
    ?_, ?_⟩
  · simp only [exec, execChScrub, chWrite_free _ hr h, State.scrubFrame, chFrame_setChop, hf]
    rfl
  · rw [State.chDone_frames, foldl_keeps State.frames State.scrubSlot scrubSlot_frames, State.setCwInt_frames]
  · rw [State.chDone_vlines, foldl_keeps State.vlines State.scrubSlot scrubSlot_vlines, State.setCwInt_vlines]

theorem chRetire_retires {f : Nat} (hr : s.ready = true) (hf : s.chFrame = some f) (h : s.cwInt 6651 = 0 ∨ s.cwInt 6651 = 3)
    (hidle : (frameSlots f).any s.busy = false) : ∃ t, exec .chRetire s = .next t ∧ t.frame f = 2 ∧ t.cwInt 6652 = 1 ∧ t.cwInt 6651 = 0
      ∧ ∀ x, x / 27 = f → t.vl x = none := by
  refine ⟨(((frameSlots f).foldl State.evictSlot (s.setCwInt 6651 3)).setFrame f 2).chDone 1, ?_, by rw [State.chDone_frame, frame_setFrame],
    chDone_stat _ (by decide), (chDone_cw _ _).2, fun x hx => ?_⟩
  · simp only [exec, execChRetire, chWrite_free _ hr h, State.retireFrame, chFrame_setChop, hf,
      emptyFrame_idle (s := s.setCwInt 6651 3) (by rwa [busy_setChop]), Option.map_some, Option.getD_some]
  · rw [State.chDone_vl, State.setFrame_vl, evictSlots_vl, if_pos (mem_frameSlots.mpr hx)]

/-! ### Zeroing a frame (R47) -/

theorem groupsOf_length_le {α : Type} (n k : Nat) (l : List α) : (groupsOf n k l).length ≤ k := by
  induction k generalizing l with
  | zero => simp [groupsOf]
  | succ k ih =>
    unfold groupsOf
    split
    · simp
    · simpa using ih _

theorem rsCheck_length_le (data : List Nat) : (rsCheck data).length ≤ 12 := by
  unfold rsCheck
  refine List.foldlRecOn (motive := fun (r : List Nat) => r.length ≤ 12) data _ (by simp) (fun rem hrem d _ => ?_)
  dsimp only
  split <;> simp <;> omega

theorem imageB_length_le (l : Line) : (imageB l).length ≤ 160 := by
  have hcheck (data : List Nat) : (withCheck data).length ≤ data.length + 12 := by
    simpa [withCheck] using rsCheck_length_le data
  have hbytes : (bytesOfLine l).length ≤ 128 := by
    simpa [bytesOfLine] using groupsOf_length_le 8 128 _
  unfold imageB
  split
  · exact hcheck _
  · refine (hcheck _).trans ?_
    simp [metaBytes]
    omega

theorem imageT_zero_length : (imageT zeroLine).length = 160 := by decide +kernel

theorem imageOf_plain (s : State) (slot : Nat) (l : Line) : s.imageOf slot l false = if s.isB slot then imageB l else imageT l := by
  unfold State.imageOf
  split <;> rfl

/-- Each of a list of slots with one line. -/
def State.filledWith (s : State) (l : Line) (slots : List Nat) : State := slots.foldl (fun s y => s.hbmStore y l false) s

theorem filledWith_frames (s : State) (l : Line) (slots : List Nat) : (s.filledWith l slots).frames = s.frames :=
  foldl_keeps State.frames (fun s y => s.hbmStore y l false) (fun _ _ => rfl) slots s

theorem filledWith_vlines (s : State) (l : Line) (slots : List Nat) : (s.filledWith l slots).vlines = s.vlines :=
  foldl_keeps State.vlines (fun s y => s.hbmStore y l false) (fun _ _ => rfl) slots s

/-- Writing one image in each of a list of slots leaves it in every one of them. -/
theorem filledWith_image {l : Line} {img : List Nat} (hlen : img.length ≤ 160) {slots : List Nat} {s : State}
    (himg : ∀ x ∈ slots, s.imageOf x l false = img) (hw : Memory.wf s.hbm = true) {x : Nat}
    (hx : x ∈ slots ∨ ∀ k b, img[k]? = some b → hbmGet s.hbm (160 * x + k) = BitVec.ofNat 8 b) :
    ∀ k b, img[k]? = some b → hbmGet (s.filledWith l slots).hbm (160 * x + k) = BitVec.ofNat 8 b := by
  induction slots generalizing s with
  | nil => exact hx.resolve_left List.not_mem_nil
  | cons y slots ih =>
    have hy : s.imageOf y l false = img := himg y List.mem_cons_self
    refine ih (s := s.hbmStore y l false) (fun z hz => himg z (List.mem_cons_of_mem y hz)) (hbmStore_wf s y l false hw) ?_
    by_cases hxy : x = y
    · subst hxy
      exact .inr (fun k b hb => hbmStore_image hw (by rw [hy, hb]))
    · refine hx.imp (fun hmem => (List.mem_cons.mp hmem).resolve_left hxy) (fun hbytes k b hb => ?_)
      have hk : k < 160 := Nat.lt_of_lt_of_le (List.getElem?_eq_some_iff.mp hb).1 hlen
      rw [hbmStore_frame hw (by rw [hy]; omega), hbytes k b hb]

/-- A slot read back after zeroing, with whether all so far held. -/
def readBack (p : State × Bool) (slot : Nat) : State × Bool := ((p.1.hbmFetch slot).1, p.2 && !(p.1.hbmFetch slot).2.bad)

/-- The line of zeros as a frame of a format holds it. -/
def zeroOf (code : Nat) : Line := if code = 1 then zeroLineB else zeroLine

/-- A frame that is zeroed to a format, before it is read back. -/
def State.zeroed (s : State) (f code : Nat) : State :=
  (((frameSlots f).foldl State.evictSlot s).setFrame f code).filledWith (zeroOf code) (frameSlots f)

theorem zeroFrame_zeroed {f code : Nat} (hf : s.chFrame = some f) (hframe : s.frame f < 2) (hidle : (frameSlots f).any s.busy = false) :
    s.zeroFrame code = some (((frameSlots f).foldl readBack (s.zeroed f code, true)).1.chDone
      (if ((frameSlots f).foldl readBack (s.zeroed f code, true)).2 then 1 else -1)) := by
  unfold State.zeroFrame
  rw [hf]
  simp only [if_neg (Nat.not_le.mpr hframe), emptyFrame_idle hidle, Option.map_some]
  rfl

theorem readBacks_hbm (s : State) (b : Bool) (l : List Nat) : (l.foldl readBack (s, b)).1.hbm = s.hbm :=
  foldl_keeps (fun p : State × Bool => p.1.hbm) readBack (fun p slot => State.hbmFetch_hbm p.1 slot) l (s, b)

theorem readBacks_frames (s : State) (b : Bool) (l : List Nat) : (l.foldl readBack (s, b)).1.frames = s.frames :=
  foldl_keeps (fun p : State × Bool => p.1.frames) readBack (fun p slot => State.hbmFetch_frames p.1 slot) l (s, b)

theorem readBacks_vlines (s : State) (b : Bool) (l : List Nat) : (l.foldl readBack (s, b)).1.vlines = s.vlines :=
  foldl_keeps (fun p : State × Bool => p.1.vlines) readBack (fun p slot => State.hbmFetch_vlines p.1 slot) l (s, b)

theorem zeroed_frame (s : State) (f code : Nat) : (s.zeroed f code).frame f = code := by
  unfold State.zeroed State.frame
  rw [filledWith_frames]
  exact frame_setFrame _ f code

theorem zeroed_vl (s : State) {f x : Nat} (code : Nat) (hx : x / 27 = f) : (s.zeroed f code).vl x = none := by
  unfold State.zeroed
  rw [vl_of_vlines (filledWith_vlines _ _ _), State.setFrame_vl, evictSlots_vl, if_pos (mem_frameSlots.mpr hx)]

/-- The image of a line of zeros in a frame of a format. -/
def zeroImage (code : Nat) : List Nat := if code = 0 then imageT (zeroOf code) else imageB (zeroOf code)

theorem zeroImage_length_le {code : Nat} (hcode : code = 0 ∨ code = 1) : (zeroImage code).length ≤ 160 := by
  unfold zeroImage zeroOf
  rcases hcode with rfl | rfl
  · rw [if_pos rfl, if_neg (show (0 : Nat) ≠ 1 by decide), imageT_zero_length]
  · rw [if_neg (show (1 : Nat) ≠ 0 by decide)]
    exact imageB_length_le _

theorem imageOf_zeroed (s : State) {f code y : Nat} (hcode : code = 0 ∨ code = 1) (hy : y ∈ frameSlots f) :
    (s.setFrame f code).imageOf y (zeroOf code) false = zeroImage code := by
  have hB : (s.setFrame f code).isB y = (code == 1) := by
    unfold State.isB
    rw [mem_frameSlots.mp hy, frame_setFrame]
  rw [imageOf_plain, hB, zeroImage]
  generalize zeroOf code = l
  rcases hcode with rfl | rfl
  · rfl
  · rfl

/-- Every slot of a zeroed frame holds the image of zeros of its format. -/
theorem zeroed_image {f code x : Nat} (hcode : code = 0 ∨ code = 1) (hw : Memory.wf s.hbm = true) (hx : x / 27 = f) {k b : Nat}
    (hb : (zeroImage code)[k]? = some b) : hbmGet (s.zeroed f code).hbm (160 * x + k) = BitVec.ofNat 8 b := by
  unfold State.zeroed
  exact filledWith_image (zeroImage_length_le hcode) (fun y hy => imageOf_zeroed _ hcode hy) (evictSlots_wf _ s hw)
    (.inl (mem_frameSlots.mpr hx)) k b hb

/-- CH_ZERO_T and CH_ZERO_B, as a write of their command does them. -/
theorem chWrite_zero {f code : Nat} {op : Int} {i : Instr} (hr : s.ready = true) (hf : s.chFrame = some f) (hframe : s.frame f < 2)
    (hidle : (frameSlots f).any s.busy = false) (hw : Memory.wf s.hbm = true) (hcode : code = 0 ∨ code = 1)
    (h : s.cwInt 6651 = 0 ∨ s.cwInt 6651 = op) :
    ∃ t, s.chWrite op (fun s => (s.zeroFrame code).getD (s.laterOnce i)) = .next t ∧ t.frame f = code ∧ t.cwInt 6651 = 0
      ∧ (t.cwInt 6652 = 1 ∨ t.cwInt 6652 = -1) ∧ ∀ x, x / 27 = f → t.vl x = none
      ∧ ∀ k b, (zeroImage code)[k]? = some b → hbmGet t.hbm (160 * x + k) = BitVec.ofNat 8 b := by
  have hzero := zeroFrame_zeroed (s := s.setCwInt 6651 op) (code := code) (by rw [chFrame_setChop, hf]) (by rwa [State.setCwInt_frame])
    (by rwa [busy_setChop])
  refine ⟨((frameSlots f).foldl readBack ((s.setCwInt 6651 op).zeroed f code, true)).1.chDone
    (if ((frameSlots f).foldl readBack ((s.setCwInt 6651 op).zeroed f code, true)).2 then 1 else -1), ?_, ?_, (chDone_cw _ _).2, ?_,
    fun x hx => ⟨?_, fun k b hb => ?_⟩⟩
  · rw [chWrite_free _ hr h, hzero, Option.getD_some]
  · rw [State.chDone_frame, State.frame, readBacks_frames]
    exact zeroed_frame _ f code
  · split
    · exact .inl (chDone_stat _ (by decide))
    · exact .inr (chDone_stat _ (by decide))
  · rw [State.chDone_vl, vl_of_vlines (readBacks_vlines _ _ _), zeroed_vl _ code hx]
  · rw [State.chDone_hbm, readBacks_hbm]
    exact zeroed_image hcode (by rwa [State.setCwInt_hbm]) hx hb

/-! ### Commands that are refused (R397) -/

/-- A command for no frame answers −2. -/
theorem chWrite_noFrame {op : Int} {f : State → State} (hr : s.ready = true) (h : s.cwInt 6651 = 0 ∨ s.cwInt 6651 = op)
    (hf : f (s.setCwInt 6651 op) = (s.setCwInt 6651 op).chDone (-2)) :
    ∃ t, s.chWrite op f = .next t ∧ t.cwInt 6652 = -2 ∧ t.cwInt 6651 = 0 ∧ t.hbm = s.hbm :=
  ⟨_, by rw [chWrite_free _ hr h, hf], chDone_stat _ (by decide), (chDone_cw _ _).2, by rw [State.chDone_hbm, State.setCwInt_hbm]⟩

/-- What the host sees of a command that the clearing house does not take. -/
theorem chWrite_refused {op : Int} {f : State → State}
    (hf : s.chFrame = none → f (s.setCwInt 6651 op) = (s.setCwInt 6651 op).chDone (-2)) :
    (s.ready = true → s.chFrame = none → s.cwInt 6651 = 0 ∨ s.cwInt 6651 = op →
      ∃ t, s.chWrite op f = .next t ∧ t.cwInt 6652 = -2 ∧ t.cwInt 6651 = 0 ∧ t.hbm = s.hbm)
    ∧ (s.ready = true → s.cwInt 6651 ≠ 0 → s.cwInt 6651 ≠ op → s.chWrite op f = .next s)
    ∧ (s.ready = false → s.chWrite op f = .next (s.hostError barWriter (8 * 6651) false)) :=
  ⟨fun hr hnone h => chWrite_noFrame hr h (hf hnone), fun hr h hop => chWrite_taken f hr h hop, chWrite_unready f⟩

/-! ### Patrol scrubs (R398) -/

/-- A score at the end of a pass: shifted right by one trit. -/
def agedScore (n : Nat) : Nat := (dropTrits 1 (n : Int)).toNat

/-- The scores at the end of a pass: shifted, and none kept that reads 0. -/
def agedScores (l : List (Nat × Nat)) : List (Nat × Nat) := (l.map (fun p => (p.1, agedScore p.2))).filter (fun p => p.2 != 0)

theorem assocGet_none_of_not_mem {α : Type} {l : List (Nat × α)} {k : Nat} (h : k ∉ l.map (·.1)) : assocGet l k = none :=
  assocGet_absent (fun _ hc hk => h (hk ▸ List.mem_map_of_mem hc))

theorem agedScores_get (l : List (Nat × Nat)) (hl : (l.map (·.1)).Nodup) (f : Nat) :
    (assocGet (agedScores l) f).getD 0 = agedScore ((assocGet l f).getD 0) := by
  induction l with
  | nil =>
    have hzero : agedScore 0 = 0 := by decide
    simp [agedScores, assocGet, hzero]
  | cons p l ih =>
    obtain ⟨k, n⟩ := p
    obtain ⟨hk, hl⟩ := List.nodup_cons.mp hl
    have hrest : agedScores ((k, n) :: l) = (if agedScore n ≠ 0 then [(k, agedScore n)] else []) ++ agedScores l := by
      by_cases h : agedScore n = 0 <;> simp [agedScores, h]
    have hgone : k ∉ (agedScores l).map (·.1) := fun hmem => by
      obtain ⟨q, hq, hqk⟩ := List.mem_map.mp hmem
      obtain ⟨r, hr, hrq⟩ := List.mem_map.mp (List.mem_filter.mp hq).1
      exact hk (List.mem_map.mpr ⟨r, hr, by rw [← hqk, ← hrq]⟩)
    rw [hrest]
    by_cases hf : k = f
    · subst hf
      by_cases h : agedScore n = 0
      · simp [h, assocGet, assocGet_none_of_not_mem hgone]
      · simp [h, assocGet]
    · rw [show assocGet ((k, n) :: l) f = assocGet l f from if_neg hf, ← ih hl]
      by_cases h : agedScore n = 0 <;> simp [h, assocGet, hf]

/-- Settles O46: a frame command by what its write finds in CHOP and CHFRAME; the tables by the die's machinery. -/
theorem denominationsAndFrames : Obligations.DenominationsAndFrames := by
  refine ⟨fun s die n hd => ⟨_, rfl, rfl, ?_, fun d hne => ?_⟩, fun s die hs => ⟨samplingWindowEnd_ranks hs, samplingWindowEnd_drops hs⟩,
    fun s die table hr hnone => ?_, fun s f hr hf free hfree => ⟨fun h => ?_, fun h => ?_, fun h => ?_, fun h hidle => ?_,
      fun hframe hidle hw i op code l hi h => ?_⟩, fun s p hp => ?_, fun s u hu hnodup => ?_⟩
  · exact (State.modDenom_die _ hd die).trans (if_pos rfl)
  · exact (State.modDenom_die _ hd d).trans (if_neg hne)
  · obtain ⟨t, hexec, hhbm, hvlines, hdenom⟩ := denominationSweep_loads hr hnone
    exact ⟨t, hexec, hhbm, hvlines, fun d hd => hd ▸ hdenom⟩
  · exact chScore_answers hr hf ((hfree _).mp h)
  · exact chClear_clears hr hf ((hfree _).mp h)
  · exact chScrub_scrubs hr hf ((hfree _).mp h)
  · exact chRetire_retires hr hf ((hfree _).mp h) hidle
  · simp only [List.mem_cons, List.not_mem_nil, or_false, Prod.mk.injEq] at hi
    obtain ⟨rfl, rfl, rfl, rfl⟩ | ⟨rfl, rfl, rfl, rfl⟩ := hi
    · exact chWrite_zero hr hf hframe hidle hw (.inl rfl) ((hfree _).mp h)
    · exact chWrite_zero hr hf hframe hidle hw (.inr rfl) ((hfree _).mp h)
  · simp only [List.mem_cons, List.not_mem_nil, or_false] at hp
    obtain rfl | rfl | rfl | rfl | rfl | rfl := hp <;>
      simp only [exec, execChZeroT, execChZeroB, execChRetire, execChScrub, execChScore, execChClear] <;>
      refine chWrite_refused (fun hnone => ?_)
    · simp only [State.zeroFrame, chFrame_setChop, hnone, Option.getD_some]
    · simp only [State.zeroFrame, chFrame_setChop, hnone, Option.getD_some]
    · simp only [State.retireFrame, chFrame_setChop, hnone, Option.getD_some]
    · simp only [State.scrubFrame, chFrame_setChop, hnone]
    · simp only [chFrame_setChop, hnone]
    · simp only [chFrame_setChop, hnone]
  · subst hu
    exact ⟨_, rfl, rfl, fun f => agedScores_get _ hnodup f⟩

end Sys2Proof.Machine
end
